-- ==== Sys2Proof/Word.lean ====
section
/-! DEFINITION. The word types and their plainest arithmetic. -/

namespace Sys2Proof

/-- A thread register (R134). -/
abbrev Word := BitVec 32

/-- A 64-bit value, held in a register pair (R254). -/
abbrev DWord := BitVec 64

/-- A byte of memory (R2). -/
abbrev Byte := BitVec 8

end Sys2Proof
end

