-- ==== Sys2Proof/Syntax.lean ====
section
/-! DEFINITION. The instruction set as syntax: types, scopes, operand records and the one inductive `Instr`,
one constructor per row of the opcode table (instructions with encodings, and the package's own steps). -/

namespace Sys2Proof

/-- The types of R307. -/
inductive Ty
  | none | i4 | i8 | i16 | i32 | i64 | w4 | w8 | w16 | w32 | w64 | f16 | bf16 | f32 | kx2 | kx4 | kx7
  deriving DecidableEq, Repr

/-- The code of a type (R307). -/
def Ty.code : Ty → Nat
  | .none => 0 | .i4 => 1 | .i8 => 2 | .i16 => 3 | .i32 => 4 | .i64 => 5 | .w4 => 6 | .w8 => 7 | .w16 => 8
  | .w32 => 9 | .w64 => 10 | .f16 => 11 | .bf16 => 12 | .f32 => 13 | .kx2 => 14 | .kx4 => 15 | .kx7 => 16

/-- The types in the order of their codes. -/
def Ty.all : List Ty :=
  [.none, .i4, .i8, .i16, .i32, .i64, .w4, .w8, .w16, .w32, .w64, .f16, .bf16, .f32, .kx2, .kx4, .kx7]

/-- The type of a code; 17 to 31 are reserved (R307). -/
def Ty.ofCode (n : Nat) : Option Ty := Ty.all[n]?

def Ty.isInt : Ty → Bool
  | .i4 | .i8 | .i16 | .i32 | .i64 | .w4 | .w8 | .w16 | .w32 | .w64 => true
  | _ => false

def Ty.isFloat : Ty → Bool
  | .f16 | .bf16 | .f32 => true
  | _ => false

def Ty.isSigned : Ty → Bool
  | .i4 | .i8 | .i16 | .i32 | .i64 => true
  | _ => false

/-- Width in bits of one value (R251, R254). -/
def Ty.bits : Ty → Nat
  | .i4 | .w4 => 4
  | .i8 | .w8 => 8
  | .i16 | .w16 | .f16 | .bf16 => 16
  | .i64 | .w64 => 64
  | _ => 32

/-- A 64-bit type occupies a register pair (R254). -/
def Ty.isPair (t : Ty) : Bool := t.bits == 64

/-- The scopes of R231, in the order of their codes (R306). -/
inductive Scope | thr | team | cl | die | pkg | pod | sys
  deriving DecidableEq, Repr

def Scope.ofCode (n : Nat) : Option Scope := [Scope.thr, .team, .cl, .die, .pkg, .pod, .sys][n]?

def Scope.rank : Scope → Nat
  | .thr => 0 | .team => 1 | .cl => 2 | .die => 3 | .pkg => 4 | .pod => 5 | .sys => 6

/-- The orders of R233, in the order of their codes (R306). -/
inductive MemOrder | rlx | acq | rel | ar | sc
  deriving DecidableEq, Repr

def MemOrder.ofCode (n : Nat) : Option MemOrder := [MemOrder.rlx, .acq, .rel, .ar, .sc][n]?

def MemOrder.acquires : MemOrder → Bool
  | .acq | .ar | .sc => true
  | _ => false

def MemOrder.releases : MemOrder → Bool
  | .rel | .ar | .sc => true
  | _ => false

/-- The rounding modes of R256. -/
inductive Rounding | rn | rz | ru | rd
  deriving DecidableEq, Repr

def Rounding.ofCode (n : Nat) : Rounding :=
  match n with | 0 => .rn | 1 => .rz | 2 => .ru | _ => .rd

/-- The four length classes of R302. -/
inductive Len | base | baseLit | ext | extLit
  deriving DecidableEq, Repr

def Len.code : Len → Nat
  | .base => 0 | .baseLit => 1 | .ext => 2 | .extLit => 3

def Len.ofCode (n : Nat) : Len :=
  match n with | 0 => .base | 1 => .baseLit | 2 => .ext | _ => .extLit

/-- Total length in bytes (R302). -/
def Len.bytes : Len → Nat
  | .base => 4 | .baseLit => 12 | .ext => 12 | .extLit => 20

def Len.hasLit : Len → Bool
  | .baseLit | .extLit => true
  | _ => false

def Len.isExt : Len → Bool
  | .ext | .extLit => true
  | _ => false

/-- The operand record of one instruction: the fields of R303 (base) or R305 (extended), with the type and
properties that a base form implies filled in, so that a meaning reads one record whatever the form.
`func` is SUB in a base form and FUNC in an extended one. Register fields keep their encoded value, since a
number at or above 320 is an architectural fault (REG_RANGE, R308) and not an unassigned word. -/
structure Op where
  len : Len
  g : BitVec 3
  neg : Bool
  func : BitVec 12
  ty : Ty
  mod : BitVec 8
  d : BitVec 9
  a : BitVec 9
  b : BitVec 9
  c : BitVec 9
  imm : BitVec 20
  aux : BitVec 3
  lit : BitVec 64
  deriving DecidableEq, Repr

/-- The unit kinds of R30, in the order of their codes. -/
inductive UnitKind | core | quad | slice | port | pch | shaft
  deriving DecidableEq, Repr

/-- A unit that can be tested and fenced (R14, R30). -/
structure UnitId where
  kind : UnitKind
  index : Nat
  deriving DecidableEq, Repr

/-- The stores that a word can stand in. -/
inductive Space
  | pkg                 -- package physical memory (R49)
  | pod                 -- pod physical memory (R48)
  | host                -- host or peer memory, by bus address (R18)
  | die (stope : Nat)   -- die memory of a stope (R168)
  | team (core : Nat)   -- team memory of a core (R166)
  | opbuf (quad : Nat)  -- operand buffer of a quad (R397)
  | regs (core : Nat)   -- registers of a core's threads: 4 bytes each, 320 to a thread slot (R134)
  | acc (quad : Nat)    -- accumulator tiles of a quad: FP32 elements, 65,536 bytes to a tile (R401)
  | l1 (core : Nat)     -- L1 data of a core, by package address (R177)
  | pool (core : Nat)   -- task pool of a core: 32 bytes to a record, in the order of the pool (R118)
  | sump                -- sump entries, by their names (R57)
  | icache (core : Nat) -- instruction cache of a core, by package address: its lines of package-local code and data (R50)
  | icachePod (core : Nat) -- the same cache's pod-hashed lines, by pod address
  | staging (core : Nat) -- ember staging buffer of a core: 4,096 bytes to a burst, in the order of its bursts (R160)
  | replay              -- replay buffers of the fabric ports: 256 bytes to a flit, by its number (R65)
  deriving DecidableEq, Repr

/-- A physical location: a store and an address in it. -/
structure PAddr where
  space : Space
  addr : Nat
  deriving DecidableEq, Repr

/-- The output queues of the combining stages (R52). -/
inductive StageId
  | collar (core : Nat) | landing (quad : Nat) | upcast (port : Nat) | downcast (slice : Nat)
  deriving DecidableEq, Repr

/-- How a burst fails at the host (R22). -/
inductive BurstFailure
  | translation   -- ATS translation refused
  | refused       -- Unsupported Request, Completer Abort or completion timeout
  | poisoned      -- poisoned completion data
  deriving DecidableEq, Repr

/-- The instructions that have an encoding, other than the clause header. -/
inductive Opc
  | add | sub | lea | leaLabel | mul | mulh | mad | madw
  | div | rem | abs | min | max | and | or | xor
  | andn | not | shl | shr | sar | rol | bfe | bfi
  | popc | clz | ctz | brev | perm | sel | cmp | pset
  | mov | movSpecial | movW64 | moviW32 | moviW64 | cvt | fadd | fsub
  | fmul | ffma | fmin | fmax | fcmp | fcls | frcp | frsq
  | fsqrt | fex2 | flg2 | frnd | fcvt | shfl | voteAny | voteAll
  | voteBallot | voteEq | redux | scan | scanEx | quant | dequant | bra
  | brx | call | ret | exit | yield | nop | brk | trap
  | assert | enrol | join | reform | seal | park | ld | st
  | ldt | stt | ldd | std | ldc | ldcPar | pref | spush
  | spop | xadd | xmax | xmin | xswp | xcas | xbit | fence
  | tbar | cbar | txbInit | txbArrive | txbExpect | txbWait | tileDef | tileSet
  | tileState | trec | bstat | bstatSeq | bcopy | bcopyMc | bread | bwrite
  | bzero | oprel | opresFill | opres | opresTm | accget | accrel | mma
  | mmaSp | smx | accrd | accwr | accscale | accscaleNorm | accrdSide | accwrSide
  | accflush | accflushSt | forgeRdy | seamFam | seamHash | seamProbe | seamGather | seamProbePre
  | seamIns | seamDel | seamRehash | seamFin | seamVer | seamFencePkg | seamFencePod | seamPub
  | nzscan | lodeCount | lodeNext | lodeCopy | lodeGrow | lodeTrim | taskPost | taskArm
  | post64 | winArm | cntInit | cntAdd | cntRd | isync | sregR | sregW
  | perfRd | icinv | lamp | trc | tlbInv | tlbInvAll | ctxSave | ctxLoad
  | halt
  deriving DecidableEq, Repr

/-- One constructor per row of the opcode table. -/
inductive Instr
  -- the steps of the package, the host and the engines
  | linkTrain (width rate : Nat) (flit : Bool)   -- R17: the link has trained at this width (lanes), rate (GT/s) and mode
  | thermalThrottle (celsius : Nat)   -- R24: the hottest die sensor reads this temperature
  | powerCapStep (watts : Nat)   -- R24: package power is measured at this many watts
  | error (u : UnitId) (uncorrected : Bool) (loc : Option PAddr)   -- R33: an ECC error in unit u; an uncorrected one poisons the word at loc (R32)
  | selfTestEnd (u : UnitId) (pass : Bool)   -- R33: the targeted self-test of u ends
  | retest (kind index : Nat)   -- R29: a write of GO 1 to MGT_RETEST
  | fwWriteSlot (slot pages : Nat)   -- R40: command 1
  | negotiateAlgorithms (falcon shake : Bool)   -- R41: the requester selects (or not) Falcon-1024 and SHAKE256
  | podmapWrite (value : BitVec 32)   -- R71
  | portExchange (port podId number : Nat)   -- R46: the peer of the port reports this POD_ID and number
  | flitReceive (port : Nat) (good : Bool)   -- R65: a flit arrives; its CRC is good or not
  | portRetrain (port : Nat)   -- R67
  | stageEnter (st : StageId)   -- R54: the requests waiting at the stage's inputs enter its output queue
  | stageLeave (st : StageId)   -- R54: one request leaves the output queue
  | homeApply (slice : Nat)   -- R60: the home slice applies the next request
  | replySplit (st : StageId) (entry : Nat)   -- R58: a reply reaches the sump entry
  | replyDelivery (req : Nat)   -- R63: the reply of this thread request reaches its thread
  | burstDelivered (core cmd burst : Nat)   -- R22: a burst completes at the host
  | burstFailed (core cmd burst : Nat) (why : BurstFailure)   -- R22: a burst fails at the host
  | bankEvent (core cmd : Nat)   -- R161
  | bytesLand (core cmd first count : Nat)   -- R185: elements first to first + count - 1 of a command land
  | drainComplete (quad entry : Nat)   -- R185
  | localCompletion (core cmd : Nat)   -- R66
  | globalCompletion (core cmd : Nat)   -- R66
  | copyRingFault (core : Nat)   -- R182
  | passBoundary (quad : Nat)   -- R129
  | seamEntryComplete (quad entry : Nat)   -- R421: the seam unit finishes the entry's work
  | lodeOperation (op : Nat)   -- R218: the walker performs the waiting operation of this number
  | doorbell (ctx q : Nat) (tail : BitVec 32)   -- R106
  | launch (ctx q : Nat)   -- R88: the packet at HEAD, a LAUNCH, begins
  | launchInd (ctx q : Nat)   -- R89
  | fencePacket (ctx q : Nat)   -- R92
  | fenceReread (ctx q : Nat)   -- R92
  | signalStore (ctx q : Nat)   -- R93
  | signalAdd (ctx q : Nat)   -- R93
  | counterInit (ctx q : Nat)   -- R94
  | counterAdd (ctx q : Nat)   -- R94
  | windowInstall (ctx q : Nat)   -- R95
  | windowInvalidate (ctx q : Nat)   -- R95
  | marker (ctx q : Nat)   -- R96
  | pageZero (ctx q : Nat)   -- R97
  | completionActions (ctx q : Nat)   -- R86
  | launchAccept (ctx q : Nat)   -- R110
  | taskStart (core : Nat)   -- R119
  | clauseBegin (core group : Nat)   -- R310
  | parkWake (core group : Nat)   -- R153
  | fqRecordWrite (ctx : Nat) (accepted : Bool)   -- R100: the oldest held record is written; the host accepts the write or not
  | flueSample (ctx : Nat)   -- R294
  | apertureWrite (fn offset : Nat) (value : BitVec 32)   -- R79: function fn (0 PF) writes a word
  | apertureRead (fn offset : Nat)   -- R79
  | contextEnable (ctx : Nat) (value : BitVec 32)   -- R80: HIF_CTX_CTL is written with ENABLE 1 while it is 0
  | contextDisable (ctx : Nat)   -- R80
  | queueEnable (ctx q : Nat) (value : BitVec 32)   -- R82: HIF_Q_CTL is written with ENABLE 1 while it is 0
  | queueErrorClear (ctx q : Nat)   -- R98
  | fqHeadWrite (ctx : Nat) (value : BitVec 32)   -- R100
  | fqbaseWrite (ctx : Nat) (value : BitVec 64)   -- R100
  | retry (ctx : Nat) (seq : BitVec 32)   -- R278: FQRESUME written under ACTION RETRY
  | skip (ctx : Nat) (seq : BitVec 32)   -- R278
  | kill (ctx : Nat) (seq : BitVec 32)   -- R278
  | tlbinvPages (ctx : Nat) (value : BitVec 64)   -- R191
  | tlbinvAll (ctx : Nat)   -- R191
  | diemapWrite (ctx stope : Nat) (value : BitVec 64)   -- R169
  | preemptReq (ctx : Nat)   -- R122
  | stepGo (core : Nat)   -- R301
  | stepArmClear (core : Nat)   -- R301
  | debugEnable (value : BitVec 32)   -- R288
  | lampHeadWrite (ctx : Nat) (value : BitVec 32)   -- R296
  | flueHeadWrite (ctx : Nat) (value : BitVec 32)   -- R296
  | registerWrite (fn offset bytes : Nat) (value : BitVec 64)   -- R6: function fn writes a register of its BAR 0
  -- the clause header (R309): COUNT, SET2, SET1, WAIT
  | clauseHeader (count set2 set1 : BitVec 4) (wait : BitVec 12)
  -- the instructions
  | add (o : Op)
  | sub (o : Op)
  | lea (o : Op)
  | leaLabel (o : Op)
  | mul (o : Op)
  | mulh (o : Op)
  | mad (o : Op)
  | madw (o : Op)
  | div (o : Op)
  | rem (o : Op)
  | abs (o : Op)
  | min (o : Op)
  | max (o : Op)
  | and (o : Op)
  | or (o : Op)
  | xor (o : Op)
  | andn (o : Op)
  | not (o : Op)
  | shl (o : Op)
  | shr (o : Op)
  | sar (o : Op)
  | rol (o : Op)
  | bfe (o : Op)
  | bfi (o : Op)
  | popc (o : Op)
  | clz (o : Op)
  | ctz (o : Op)
  | brev (o : Op)
  | perm (o : Op)
  | sel (o : Op)
  | cmp (o : Op)
  | pset (o : Op)
  | mov (o : Op)
  | movSpecial (o : Op)
  | movW64 (o : Op)
  | moviW32 (o : Op)
  | moviW64 (o : Op)
  | cvt (o : Op)
  | fadd (o : Op)
  | fsub (o : Op)
  | fmul (o : Op)
  | ffma (o : Op)
  | fmin (o : Op)
  | fmax (o : Op)
  | fcmp (o : Op)
  | fcls (o : Op)
  | frcp (o : Op)
  | frsq (o : Op)
  | fsqrt (o : Op)
  | fex2 (o : Op)
  | flg2 (o : Op)
  | frnd (o : Op)
  | fcvt (o : Op)
  | shfl (o : Op)
  | voteAny (o : Op)
  | voteAll (o : Op)
  | voteBallot (o : Op)
  | voteEq (o : Op)
  | redux (o : Op)
  | scan (o : Op)
  | scanEx (o : Op)
  | quant (o : Op)
  | dequant (o : Op)
  | bra (o : Op)
  | brx (o : Op)
  | call (o : Op)
  | ret (o : Op)
  | exit (o : Op)
  | yield (o : Op)
  | nop (o : Op)
  | brk (o : Op)
  | trap (o : Op)
  | assert (o : Op)
  | enrol (o : Op)
  | join (o : Op)
  | reform (o : Op)
  | seal (o : Op)
  | park (o : Op)
  | ld (o : Op)
  | st (o : Op)
  | ldt (o : Op)
  | stt (o : Op)
  | ldd (o : Op)
  | std (o : Op)
  | ldc (o : Op)
  | ldcPar (o : Op)
  | pref (o : Op)
  | spush (o : Op)
  | spop (o : Op)
  | xadd (o : Op)
  | xmax (o : Op)
  | xmin (o : Op)
  | xswp (o : Op)
  | xcas (o : Op)
  | xbit (o : Op)
  | fence (o : Op)
  | tbar (o : Op)
  | cbar (o : Op)
  | txbInit (o : Op)
  | txbArrive (o : Op)
  | txbExpect (o : Op)
  | txbWait (o : Op)
  | tileDef (o : Op)
  | tileSet (o : Op)
  | tileState (o : Op)
  | trec (o : Op)
  | bstat (o : Op)
  | bstatSeq (o : Op)
  | bcopy (o : Op)
  | bcopyMc (o : Op)
  | bread (o : Op)
  | bwrite (o : Op)
  | bzero (o : Op)
  | oprel (o : Op)
  | opresFill (o : Op)
  | opres (o : Op)
  | opresTm (o : Op)
  | accget (o : Op)
  | accrel (o : Op)
  | mma (o : Op)
  | mmaSp (o : Op)
  | smx (o : Op)
  | accrd (o : Op)
  | accwr (o : Op)
  | accscale (o : Op)
  | accscaleNorm (o : Op)
  | accrdSide (o : Op)
  | accwrSide (o : Op)
  | accflush (o : Op)
  | accflushSt (o : Op)
  | forgeRdy (o : Op)
  | seamFam (o : Op)
  | seamHash (o : Op)
  | seamProbe (o : Op)
  | seamGather (o : Op)
  | seamProbePre (o : Op)
  | seamIns (o : Op)
  | seamDel (o : Op)
  | seamRehash (o : Op)
  | seamFin (o : Op)
  | seamVer (o : Op)
  | seamFencePkg (o : Op)
  | seamFencePod (o : Op)
  | seamPub (o : Op)
  | nzscan (o : Op)
  | lodeCount (o : Op)
  | lodeNext (o : Op)
  | lodeCopy (o : Op)
  | lodeGrow (o : Op)
  | lodeTrim (o : Op)
  | taskPost (o : Op)
  | taskArm (o : Op)
  | post64 (o : Op)
  | winArm (o : Op)
  | cntInit (o : Op)
  | cntAdd (o : Op)
  | cntRd (o : Op)
  | isync (o : Op)
  | sregR (o : Op)
  | sregW (o : Op)
  | perfRd (o : Op)
  | icinv (o : Op)
  | lamp (o : Op)
  | trc (o : Op)
  | tlbInv (o : Op)
  | tlbInvAll (o : Op)
  | ctxSave (o : Op)
  | ctxLoad (o : Op)
  | halt (o : Op)
  -- further steps; those without fields take the first candidate in the order their meaning gives
  | shaftDieReply (req : Nat)   -- R471: the reply of a shaft-die request arrives
  | flitAcknowledgement (port : Nat) (accepted : Bool)   -- R65
  | atsInvalidation (pasid : Nat)   -- R16
  | powerOnReset   -- R39: reset; the boot ROM checks slot A and then slot B
  | thermalTrip   -- R25: the trip temperature is reached
  | fwRaiseMinimum   -- R40: command 2
  | fwRestart   -- R40: command 3
  | fwCommandDone   -- R40: the command in progress ends
  | getVersion   -- R41
  | getCapabilities   -- R41
  | getDigests   -- R41
  | getCertificate   -- R41, R38
  | challenge   -- R41, R38
  | getMeasurements   -- R41
  | fabricTimeout   -- R69
  | emberBirth   -- R159: the first staged burst that has a free allowance slot is born
  | forgeAgePromote   -- R129
  | claimBatch   -- R117
  | placeCluster   -- R111
  | starved   -- R112
  | coreReport   -- R109
  | sliceExpiry   -- R121
  | preemptEnd   -- R125
  | deadlineExpiry   -- R126
  | teamEnd   -- R120
  | priorityAge   -- R139
  | binAgeRelease   -- R142
  | overflowRelease   -- R143
  | parkTimeout   -- R365
  | tlbInvalidateDone   -- R176
  | unassignedEncoding   -- R317
  deriving DecidableEq, Repr

/-- The instruction of an operation and its operands. -/
def Instr.ofOpc : Opc → Op → Instr
  | .add, o => .add o
  | .sub, o => .sub o
  | .lea, o => .lea o
  | .leaLabel, o => .leaLabel o
  | .mul, o => .mul o
  | .mulh, o => .mulh o
  | .mad, o => .mad o
  | .madw, o => .madw o
  | .div, o => .div o
  | .rem, o => .rem o
  | .abs, o => .abs o
  | .min, o => .min o
  | .max, o => .max o
  | .and, o => .and o
  | .or, o => .or o
  | .xor, o => .xor o
  | .andn, o => .andn o
  | .not, o => .not o
  | .shl, o => .shl o
  | .shr, o => .shr o
  | .sar, o => .sar o
  | .rol, o => .rol o
  | .bfe, o => .bfe o
  | .bfi, o => .bfi o
  | .popc, o => .popc o
  | .clz, o => .clz o
  | .ctz, o => .ctz o
  | .brev, o => .brev o
  | .perm, o => .perm o
  | .sel, o => .sel o
  | .cmp, o => .cmp o
  | .pset, o => .pset o
  | .mov, o => .mov o
  | .movSpecial, o => .movSpecial o
  | .movW64, o => .movW64 o
  | .moviW32, o => .moviW32 o
  | .moviW64, o => .moviW64 o
  | .cvt, o => .cvt o
  | .fadd, o => .fadd o
  | .fsub, o => .fsub o
  | .fmul, o => .fmul o
  | .ffma, o => .ffma o
  | .fmin, o => .fmin o
  | .fmax, o => .fmax o
  | .fcmp, o => .fcmp o
  | .fcls, o => .fcls o
  | .frcp, o => .frcp o
  | .frsq, o => .frsq o
  | .fsqrt, o => .fsqrt o
  | .fex2, o => .fex2 o
  | .flg2, o => .flg2 o
  | .frnd, o => .frnd o
  | .fcvt, o => .fcvt o
  | .shfl, o => .shfl o
  | .voteAny, o => .voteAny o
  | .voteAll, o => .voteAll o
  | .voteBallot, o => .voteBallot o
  | .voteEq, o => .voteEq o
  | .redux, o => .redux o
  | .scan, o => .scan o
  | .scanEx, o => .scanEx o
  | .quant, o => .quant o
  | .dequant, o => .dequant o
  | .bra, o => .bra o
  | .brx, o => .brx o
  | .call, o => .call o
  | .ret, o => .ret o
  | .exit, o => .exit o
  | .yield, o => .yield o
  | .nop, o => .nop o
  | .brk, o => .brk o
  | .trap, o => .trap o
  | .assert, o => .assert o
  | .enrol, o => .enrol o
  | .join, o => .join o
  | .reform, o => .reform o
  | .seal, o => .seal o
  | .park, o => .park o
  | .ld, o => .ld o
  | .st, o => .st o
  | .ldt, o => .ldt o
  | .stt, o => .stt o
  | .ldd, o => .ldd o
  | .std, o => .std o
  | .ldc, o => .ldc o
  | .ldcPar, o => .ldcPar o
  | .pref, o => .pref o
  | .spush, o => .spush o
  | .spop, o => .spop o
  | .xadd, o => .xadd o
  | .xmax, o => .xmax o
  | .xmin, o => .xmin o
  | .xswp, o => .xswp o
  | .xcas, o => .xcas o
  | .xbit, o => .xbit o
  | .fence, o => .fence o
  | .tbar, o => .tbar o
  | .cbar, o => .cbar o
  | .txbInit, o => .txbInit o
  | .txbArrive, o => .txbArrive o
  | .txbExpect, o => .txbExpect o
  | .txbWait, o => .txbWait o
  | .tileDef, o => .tileDef o
  | .tileSet, o => .tileSet o
  | .tileState, o => .tileState o
  | .trec, o => .trec o
  | .bstat, o => .bstat o
  | .bstatSeq, o => .bstatSeq o
  | .bcopy, o => .bcopy o
  | .bcopyMc, o => .bcopyMc o
  | .bread, o => .bread o
  | .bwrite, o => .bwrite o
  | .bzero, o => .bzero o
  | .oprel, o => .oprel o
  | .opresFill, o => .opresFill o
  | .opres, o => .opres o
  | .opresTm, o => .opresTm o
  | .accget, o => .accget o
  | .accrel, o => .accrel o
  | .mma, o => .mma o
  | .mmaSp, o => .mmaSp o
  | .smx, o => .smx o
  | .accrd, o => .accrd o
  | .accwr, o => .accwr o
  | .accscale, o => .accscale o
  | .accscaleNorm, o => .accscaleNorm o
  | .accrdSide, o => .accrdSide o
  | .accwrSide, o => .accwrSide o
  | .accflush, o => .accflush o
  | .accflushSt, o => .accflushSt o
  | .forgeRdy, o => .forgeRdy o
  | .seamFam, o => .seamFam o
  | .seamHash, o => .seamHash o
  | .seamProbe, o => .seamProbe o
  | .seamGather, o => .seamGather o
  | .seamProbePre, o => .seamProbePre o
  | .seamIns, o => .seamIns o
  | .seamDel, o => .seamDel o
  | .seamRehash, o => .seamRehash o
  | .seamFin, o => .seamFin o
  | .seamVer, o => .seamVer o
  | .seamFencePkg, o => .seamFencePkg o
  | .seamFencePod, o => .seamFencePod o
  | .seamPub, o => .seamPub o
  | .nzscan, o => .nzscan o
  | .lodeCount, o => .lodeCount o
  | .lodeNext, o => .lodeNext o
  | .lodeCopy, o => .lodeCopy o
  | .lodeGrow, o => .lodeGrow o
  | .lodeTrim, o => .lodeTrim o
  | .taskPost, o => .taskPost o
  | .taskArm, o => .taskArm o
  | .post64, o => .post64 o
  | .winArm, o => .winArm o
  | .cntInit, o => .cntInit o
  | .cntAdd, o => .cntAdd o
  | .cntRd, o => .cntRd o
  | .isync, o => .isync o
  | .sregR, o => .sregR o
  | .sregW, o => .sregW o
  | .perfRd, o => .perfRd o
  | .icinv, o => .icinv o
  | .lamp, o => .lamp o
  | .trc, o => .trc o
  | .tlbInv, o => .tlbInv o
  | .tlbInvAll, o => .tlbInvAll o
  | .ctxSave, o => .ctxSave o
  | .ctxLoad, o => .ctxLoad o
  | .halt, o => .halt o

/-- The operation and operands of an encoded instruction; the other rows have none. -/
def Instr.opc? : Instr → Option (Opc × Op)
  | .add o => some (.add, o)
  | .sub o => some (.sub, o)
  | .lea o => some (.lea, o)
  | .leaLabel o => some (.leaLabel, o)
  | .mul o => some (.mul, o)
  | .mulh o => some (.mulh, o)
  | .mad o => some (.mad, o)
  | .madw o => some (.madw, o)
  | .div o => some (.div, o)
  | .rem o => some (.rem, o)
  | .abs o => some (.abs, o)
  | .min o => some (.min, o)
  | .max o => some (.max, o)
  | .and o => some (.and, o)
  | .or o => some (.or, o)
  | .xor o => some (.xor, o)
  | .andn o => some (.andn, o)
  | .not o => some (.not, o)
  | .shl o => some (.shl, o)
  | .shr o => some (.shr, o)
  | .sar o => some (.sar, o)
  | .rol o => some (.rol, o)
  | .bfe o => some (.bfe, o)
  | .bfi o => some (.bfi, o)
  | .popc o => some (.popc, o)
  | .clz o => some (.clz, o)
  | .ctz o => some (.ctz, o)
  | .brev o => some (.brev, o)
  | .perm o => some (.perm, o)
  | .sel o => some (.sel, o)
  | .cmp o => some (.cmp, o)
  | .pset o => some (.pset, o)
  | .mov o => some (.mov, o)
  | .movSpecial o => some (.movSpecial, o)
  | .movW64 o => some (.movW64, o)
  | .moviW32 o => some (.moviW32, o)
  | .moviW64 o => some (.moviW64, o)
  | .cvt o => some (.cvt, o)
  | .fadd o => some (.fadd, o)
  | .fsub o => some (.fsub, o)
  | .fmul o => some (.fmul, o)
  | .ffma o => some (.ffma, o)
  | .fmin o => some (.fmin, o)
  | .fmax o => some (.fmax, o)
  | .fcmp o => some (.fcmp, o)
  | .fcls o => some (.fcls, o)
  | .frcp o => some (.frcp, o)
  | .frsq o => some (.frsq, o)
  | .fsqrt o => some (.fsqrt, o)
  | .fex2 o => some (.fex2, o)
  | .flg2 o => some (.flg2, o)
  | .frnd o => some (.frnd, o)
  | .fcvt o => some (.fcvt, o)
  | .shfl o => some (.shfl, o)
  | .voteAny o => some (.voteAny, o)
  | .voteAll o => some (.voteAll, o)
  | .voteBallot o => some (.voteBallot, o)
  | .voteEq o => some (.voteEq, o)
  | .redux o => some (.redux, o)
  | .scan o => some (.scan, o)
  | .scanEx o => some (.scanEx, o)
  | .quant o => some (.quant, o)
  | .dequant o => some (.dequant, o)
  | .bra o => some (.bra, o)
  | .brx o => some (.brx, o)
  | .call o => some (.call, o)
  | .ret o => some (.ret, o)
  | .exit o => some (.exit, o)
  | .yield o => some (.yield, o)
  | .nop o => some (.nop, o)
  | .brk o => some (.brk, o)
  | .trap o => some (.trap, o)
  | .assert o => some (.assert, o)
  | .enrol o => some (.enrol, o)
  | .join o => some (.join, o)
  | .reform o => some (.reform, o)
  | .seal o => some (.seal, o)
  | .park o => some (.park, o)
  | .ld o => some (.ld, o)
  | .st o => some (.st, o)
  | .ldt o => some (.ldt, o)
  | .stt o => some (.stt, o)
  | .ldd o => some (.ldd, o)
  | .std o => some (.std, o)
  | .ldc o => some (.ldc, o)
  | .ldcPar o => some (.ldcPar, o)
  | .pref o => some (.pref, o)
  | .spush o => some (.spush, o)
  | .spop o => some (.spop, o)
  | .xadd o => some (.xadd, o)
  | .xmax o => some (.xmax, o)
  | .xmin o => some (.xmin, o)
  | .xswp o => some (.xswp, o)
  | .xcas o => some (.xcas, o)
  | .xbit o => some (.xbit, o)
  | .fence o => some (.fence, o)
  | .tbar o => some (.tbar, o)
  | .cbar o => some (.cbar, o)
  | .txbInit o => some (.txbInit, o)
  | .txbArrive o => some (.txbArrive, o)
  | .txbExpect o => some (.txbExpect, o)
  | .txbWait o => some (.txbWait, o)
  | .tileDef o => some (.tileDef, o)
  | .tileSet o => some (.tileSet, o)
  | .tileState o => some (.tileState, o)
  | .trec o => some (.trec, o)
  | .bstat o => some (.bstat, o)
  | .bstatSeq o => some (.bstatSeq, o)
  | .bcopy o => some (.bcopy, o)
  | .bcopyMc o => some (.bcopyMc, o)
  | .bread o => some (.bread, o)
  | .bwrite o => some (.bwrite, o)
  | .bzero o => some (.bzero, o)
  | .oprel o => some (.oprel, o)
  | .opresFill o => some (.opresFill, o)
  | .opres o => some (.opres, o)
  | .opresTm o => some (.opresTm, o)
  | .accget o => some (.accget, o)
  | .accrel o => some (.accrel, o)
  | .mma o => some (.mma, o)
  | .mmaSp o => some (.mmaSp, o)
  | .smx o => some (.smx, o)
  | .accrd o => some (.accrd, o)
  | .accwr o => some (.accwr, o)
  | .accscale o => some (.accscale, o)
  | .accscaleNorm o => some (.accscaleNorm, o)
  | .accrdSide o => some (.accrdSide, o)
  | .accwrSide o => some (.accwrSide, o)
  | .accflush o => some (.accflush, o)
  | .accflushSt o => some (.accflushSt, o)
  | .forgeRdy o => some (.forgeRdy, o)
  | .seamFam o => some (.seamFam, o)
  | .seamHash o => some (.seamHash, o)
  | .seamProbe o => some (.seamProbe, o)
  | .seamGather o => some (.seamGather, o)
  | .seamProbePre o => some (.seamProbePre, o)
  | .seamIns o => some (.seamIns, o)
  | .seamDel o => some (.seamDel, o)
  | .seamRehash o => some (.seamRehash, o)
  | .seamFin o => some (.seamFin, o)
  | .seamVer o => some (.seamVer, o)
  | .seamFencePkg o => some (.seamFencePkg, o)
  | .seamFencePod o => some (.seamFencePod, o)
  | .seamPub o => some (.seamPub, o)
  | .nzscan o => some (.nzscan, o)
  | .lodeCount o => some (.lodeCount, o)
  | .lodeNext o => some (.lodeNext, o)
  | .lodeCopy o => some (.lodeCopy, o)
  | .lodeGrow o => some (.lodeGrow, o)
  | .lodeTrim o => some (.lodeTrim, o)
  | .taskPost o => some (.taskPost, o)
  | .taskArm o => some (.taskArm, o)
  | .post64 o => some (.post64, o)
  | .winArm o => some (.winArm, o)
  | .cntInit o => some (.cntInit, o)
  | .cntAdd o => some (.cntAdd, o)
  | .cntRd o => some (.cntRd, o)
  | .isync o => some (.isync, o)
  | .sregR o => some (.sregR, o)
  | .sregW o => some (.sregW, o)
  | .perfRd o => some (.perfRd, o)
  | .icinv o => some (.icinv, o)
  | .lamp o => some (.lamp, o)
  | .trc o => some (.trc, o)
  | .tlbInv o => some (.tlbInv, o)
  | .tlbInvAll o => some (.tlbInvAll, o)
  | .ctxSave o => some (.ctxSave, o)
  | .ctxLoad o => some (.ctxLoad, o)
  | .halt o => some (.halt, o)
  | .powerOnReset => none
  | .linkTrain .. => none
  | .thermalThrottle .. => none
  | .powerCapStep .. => none
  | .thermalTrip => none
  | .error .. => none
  | .selfTestEnd .. => none
  | .retest .. => none
  | .fwWriteSlot .. => none
  | .fwRaiseMinimum => none
  | .fwRestart => none
  | .fwCommandDone => none
  | .getVersion => none
  | .getCapabilities => none
  | .negotiateAlgorithms .. => none
  | .getDigests => none
  | .getCertificate => none
  | .challenge => none
  | .getMeasurements => none
  | .podmapWrite .. => none
  | .portExchange .. => none
  | .flitReceive .. => none
  | .portRetrain .. => none
  | .stageEnter .. => none
  | .stageLeave .. => none
  | .homeApply .. => none
  | .replySplit .. => none
  | .replyDelivery .. => none
  | .fabricTimeout => none
  | .burstDelivered .. => none
  | .burstFailed .. => none
  | .emberBirth => none
  | .bankEvent .. => none
  | .bytesLand .. => none
  | .drainComplete .. => none
  | .localCompletion .. => none
  | .globalCompletion .. => none
  | .copyRingFault .. => none
  | .passBoundary .. => none
  | .forgeAgePromote => none
  | .seamEntryComplete .. => none
  | .lodeOperation .. => none
  | .doorbell .. => none
  | .launch .. => none
  | .launchInd .. => none
  | .fencePacket .. => none
  | .fenceReread .. => none
  | .signalStore .. => none
  | .signalAdd .. => none
  | .counterInit .. => none
  | .counterAdd .. => none
  | .windowInstall .. => none
  | .windowInvalidate .. => none
  | .marker .. => none
  | .pageZero .. => none
  | .completionActions .. => none
  | .launchAccept .. => none
  | .claimBatch => none
  | .placeCluster => none
  | .starved => none
  | .coreReport => none
  | .sliceExpiry => none
  | .preemptEnd => none
  | .deadlineExpiry => none
  | .teamEnd => none
  | .taskStart .. => none
  | .clauseBegin .. => none
  | .priorityAge => none
  | .binAgeRelease => none
  | .overflowRelease => none
  | .parkWake .. => none
  | .parkTimeout => none
  | .fqRecordWrite .. => none
  | .flueSample .. => none
  | .tlbInvalidateDone => none
  | .apertureWrite .. => none
  | .apertureRead .. => none
  | .contextEnable .. => none
  | .contextDisable .. => none
  | .queueEnable .. => none
  | .queueErrorClear .. => none
  | .fqHeadWrite .. => none
  | .fqbaseWrite .. => none
  | .retry .. => none
  | .skip .. => none
  | .kill .. => none
  | .tlbinvPages .. => none
  | .tlbinvAll .. => none
  | .diemapWrite .. => none
  | .preemptReq .. => none
  | .stepGo .. => none
  | .stepArmClear .. => none
  | .debugEnable .. => none
  | .lampHeadWrite .. => none
  | .flueHeadWrite .. => none
  | .registerWrite .. => none
  | .shaftDieReply .. => none
  | .flitAcknowledgement .. => none
  | .atsInvalidation .. => none
  | .unassignedEncoding => none
  | .clauseHeader .. => none

/-- The operations of the table, part 1. -/
def Opc.part1 : List Opc :=
  [Opc.add, Opc.sub, Opc.lea, Opc.leaLabel, Opc.mul, Opc.mulh, Opc.mad, Opc.madw, Opc.div, Opc.rem, Opc.abs, Opc.min, Opc.max, Opc.and, Opc.or, Opc.xor, Opc.andn, Opc.not, Opc.shl, Opc.shr, Opc.sar, Opc.rol, Opc.bfe, Opc.bfi, Opc.popc, Opc.clz, Opc.ctz, Opc.brev]

/-- The operations of the table, part 2. -/
def Opc.part2 : List Opc :=
  [Opc.perm, Opc.sel, Opc.cmp, Opc.pset, Opc.mov, Opc.movSpecial, Opc.movW64, Opc.moviW32, Opc.moviW64, Opc.cvt, Opc.fadd, Opc.fsub, Opc.fmul, Opc.ffma, Opc.fmin, Opc.fmax, Opc.fcmp, Opc.fcls, Opc.frcp, Opc.frsq, Opc.fsqrt, Opc.fex2, Opc.flg2, Opc.frnd, Opc.fcvt, Opc.shfl, Opc.voteAny, Opc.voteAll]

/-- The operations of the table, part 3. -/
def Opc.part3 : List Opc :=
  [Opc.voteBallot, Opc.voteEq, Opc.redux, Opc.scan, Opc.scanEx, Opc.quant, Opc.dequant, Opc.bra, Opc.brx, Opc.call, Opc.ret, Opc.exit, Opc.yield, Opc.nop, Opc.brk, Opc.trap, Opc.assert, Opc.enrol, Opc.join, Opc.reform, Opc.seal, Opc.park, Opc.ld, Opc.st, Opc.ldt, Opc.stt, Opc.ldd, Opc.std]

/-- The operations of the table, part 4. -/
def Opc.part4 : List Opc :=
  [Opc.ldc, Opc.ldcPar, Opc.pref, Opc.spush, Opc.spop, Opc.xadd, Opc.xmax, Opc.xmin, Opc.xswp, Opc.xcas, Opc.xbit, Opc.fence, Opc.tbar, Opc.cbar, Opc.txbInit, Opc.txbArrive, Opc.txbExpect, Opc.txbWait, Opc.tileDef, Opc.tileSet, Opc.tileState, Opc.trec, Opc.bstat, Opc.bstatSeq, Opc.bcopy, Opc.bcopyMc, Opc.bread, Opc.bwrite]

/-- The operations of the table, part 5. -/
def Opc.part5 : List Opc :=
  [Opc.bzero, Opc.oprel, Opc.opresFill, Opc.opres, Opc.opresTm, Opc.accget, Opc.accrel, Opc.mma, Opc.mmaSp, Opc.smx, Opc.accrd, Opc.accwr, Opc.accscale, Opc.accscaleNorm, Opc.accrdSide, Opc.accwrSide, Opc.accflush, Opc.accflushSt, Opc.forgeRdy, Opc.seamFam, Opc.seamHash, Opc.seamProbe, Opc.seamGather, Opc.seamProbePre, Opc.seamIns, Opc.seamDel, Opc.seamRehash, Opc.seamFin]

/-- The operations of the table, part 6. -/
def Opc.part6 : List Opc :=
  [Opc.seamVer, Opc.seamFencePkg, Opc.seamFencePod, Opc.seamPub, Opc.nzscan, Opc.lodeCount, Opc.lodeNext, Opc.lodeCopy, Opc.lodeGrow, Opc.lodeTrim, Opc.taskPost, Opc.taskArm, Opc.post64, Opc.winArm, Opc.cntInit, Opc.cntAdd, Opc.cntRd, Opc.isync, Opc.sregR, Opc.sregW, Opc.perfRd, Opc.icinv, Opc.lamp, Opc.trc, Opc.tlbInv, Opc.tlbInvAll, Opc.ctxSave, Opc.ctxLoad]

/-- The operations of the table, part 7. -/
def Opc.part7 : List Opc :=
  [Opc.halt]

/-- Every operation once, in the order of the majors. -/
def Opc.all : List Opc :=
  Opc.part1 ++ Opc.part2 ++ Opc.part3 ++ Opc.part4 ++ Opc.part5 ++ Opc.part6 ++ Opc.part7

end Sys2Proof
end

