-- ==== Sys2Proof/WellFormed.lean ====
section
/-! DEFINITION. Which operand records an encoding admits: one row of encoding facts per operation, written from the
instruction descriptions (R303 to R317, R335 to R366, R367 to R387, R391, R419, R441), and the check that holds an
instruction to its row. A record that fails the check has no encoding (R317). -/

namespace Sys2Proof

/-- How a register or number field is used (R303, R308, R336). -/
inductive Use
  | zero              -- unused: must hold zero
  | reg               -- a thread register; its range is judged at issue (REG_RANGE)
  | upTo (n : Nat)    -- a number from 0 to n; beyond it the word is unassigned
  deriving DecidableEq, Repr

def Use.ok (u : Use) (v : BitVec 9) : Bool :=
  match u with
  | .zero => v == 0
  | .reg => true
  | .upTo n => decide (v.toNat ≤ n)

/-- Which properties an operation carries in MOD (R306). -/
inductive ModKind
  | none | sat | flt | x2 | fcvt | mem | atom | rd | fence | txb | timm
  deriving DecidableEq, Repr

/-- SCOPE, ORDER, RD, RM, SAT and X2 of a MOD field (R306). -/
def Op.scopeCode (o : Op) : Nat := (o.mod.extractLsb' 0 3).toNat
def Op.orderCode (o : Op) : Nat := (o.mod.extractLsb' 3 3).toNat
def Op.rdCode (o : Op) : Nat := (o.mod.extractLsb' 6 2).toNat
def Op.rmCode (o : Op) : Nat := (o.mod.extractLsb' 0 2).toNat
def Op.sat (o : Op) : Bool := o.mod.getLsbD 2
def Op.x2 (o : Op) : Bool := o.mod.getLsbD 3
/-- TIMM, MOD[0] of the forge forms (R391). -/
def Op.timm (o : Op) : Bool := o.mod.getLsbD 0
def Op.scope (o : Op) : Scope := (Scope.ofCode o.scopeCode).getD .pkg
def Op.order (o : Op) : MemOrder := (MemOrder.ofCode o.orderCode).getD .rlx
def Op.rm (o : Op) : Rounding := Rounding.ofCode o.rmCode

/-- The MOD fields an operation admits; every other bit is zero and reserved codes are unassigned (R306). -/
def ModKind.ok (k : ModKind) (o : Op) : Bool :=
  match k with
  | .none => o.mod == 0
  | .sat => (o.mod &&& 0xFB) == 0
  | .flt => (o.mod &&& 0xF4) == 0 && (!o.x2 || o.ty == .f16 || o.ty == .bf16)
  | .x2 => (o.mod &&& 0xF7) == 0 && (!o.x2 || o.ty == .f16 || o.ty == .bf16)
  | .fcvt => (o.mod &&& 0xF0) == 0
  | .mem => decide (o.scopeCode ≤ 6) && decide (o.orderCode ≤ 4)
  | .atom => decide (o.scopeCode ≤ 6) && decide (o.orderCode ≤ 3)
  | .rd => (o.mod &&& 0x3F) == 0
  | .fence => decide (o.scopeCode ≤ 6) && decide (o.orderCode = o.func.toNat + 1) && o.rdCode == 0
  | .txb => o.mod == 1 || o.mod == 2
  | .timm => (o.mod &&& 0xFE) == 0

/-- The encoding facts of one operation. Functions of `func` serve the operations that span several SUB values. -/
structure Row where
  major : Nat
  funcs : List Nat
  lens : List Len
  baseTy : Nat → Ty
  tys : Nat → List Ty
  mod : ModKind
  d : Use
  a : Use
  b : Use
  c : Use
  immMask : BitVec 20
  auxMax : Nat
  litB : Bool
  baseImm : Nat → BitVec 20
  extra : Op → Bool

/-- The MOD value that a base form implies (R367, R376, R378). -/
def ModKind.base (k : ModKind) (f : Nat) : BitVec 8 :=
  match k with
  | .mem | .atom => 0x44
  | .rd => 0x40
  | .fence => BitVec.ofNat 8 (4 + 8 * (f + 1))
  | .txb => 0x01
  | _ => 0

/-- The AUX value that a base form implies: `xbit` is `.or` (R374). -/
def Opc.baseAux : Opc → BitVec 3
  | .xbit => 1
  | _ => 0

/-- The source type of `cvt` SUB 0 to 2 (R348). -/
def cvtSrc (f : Nat) : Nat :=
  match f with | 0 => 4 | 1 => 9 | _ => 10

/-- The source type of `fcvt` SUB 0 to 3 (R352). -/
def fcvtSrc (f : Nat) : Nat :=
  match f with | 0 => 4 | 1 => 13 | 2 => 11 | _ => 13

/-- The first `.x2` shape of `fcvt`: two FP32 values into a packed pair (R352). -/
def Op.fcvtPack (o : Op) : Bool := o.x2 && (o.ty == .f16 || o.ty == .bf16) && o.imm == 13

/-- The second `.x2` shape: a packed pair into two FP32 registers. -/
def Op.fcvtUnpack (o : Op) : Bool := o.x2 && o.ty == .f32 && (o.imm == 11 || o.imm == 12)

/-- The limits of `fcvt` (R352). -/
def fcvtOk (o : Op) : Bool :=
  match Ty.ofCode o.imm.toNat with
  | some s =>
    (decide (o.func.toNat = 4) || decide (o.imm.toNat = fcvtSrc o.func.toNat)) &&
    (s.isInt || s.isFloat) && (o.ty.isInt || o.ty.isFloat) && (s.isFloat || o.ty.isFloat) && s != o.ty &&
    (!o.sat || o.ty.isFloat) && (!o.x2 || o.fcvtPack || o.fcvtUnpack) && (o.fcvtPack || o.b == 0)
  | none => false

/-- The format pairs of `bcopy` and `bcopy.mc`: raw, or two different types among FP32, FP16 and BF16 (R383). -/
def fmtPairOk (o : Op) : Bool :=
  match Ty.ofCode (o.imm.extractLsb' 9 5).toNat with
  | some s => (o.ty == .none && s == .none) || (o.ty.isFloat && s.isFloat && s != o.ty)
  | none => false

/-- The field limits of `bcopy` (R383). The base form signals its barrier, which the record shows as BAR = 1. -/
def bcopyOk (o : Op) : Bool :=
  let bar := o.imm.getLsbD 0
  let die := o.imm.getLsbD 1
  let tile := o.imm.getLsbD 2
  fmtPairOk o && (!(bar || tile) || (o.aux == 0 && !die)) && (bar || o.b == 0) &&
  (tile || o.imm.extractLsb' 3 6 == 0) &&
  (if o.aux == 2 then o.a == 0 && !die else o.c == 0)

/-- The burst-size code of `bread` (R385): 0, or 4 to 12; the base form names its slot in B. -/
def breadOk (o : Op) : Bool :=
  let l := (o.imm.extractLsb' 5 4).toNat
  (l == 0 || (decide (4 ≤ l) && decide (l ≤ 12))) && (!o.len.isExt || o.b == 0) && (o.len.isExt || decide (o.d.toNat ≤ 63))

/-- A tile handle written in the field itself runs from 0 to 31 (R391). -/
def timmOk (f : BitVec 9) (o : Op) : Bool := !o.timm || decide (f.toNat ≤ 31)

/-- The encoding row of each operation. -/
def Opc.row : Opc → Row
  | .add =>
    { major := 0x02, funcs := [0], lens := [.base, .baseLit, .ext, .extLit], baseTy := fun _ => .w32,
      tys := fun _ => [.i8, .i16, .i32, .i64, .w8, .w16, .w32, .w64], mod := .sat, d := .reg, a := .reg, b := .reg,
      c := .zero, immMask := 0, auxMax := 0, litB := true, baseImm := fun _ => 0, extra := fun _ => true }
  | .sub =>
    { major := 0x02, funcs := [1], lens := [.base, .baseLit, .ext, .extLit], baseTy := fun _ => .w32,
      tys := fun _ => [.i8, .i16, .i32, .i64, .w8, .w16, .w32, .w64], mod := .sat, d := .reg, a := .reg, b := .reg,
      c := .zero, immMask := 0, auxMax := 0, litB := true, baseImm := fun _ => 0, extra := fun _ => true }
  | .lea =>
    { major := 0x02, funcs := [2], lens := [.base, .baseLit, .ext, .extLit], baseTy := fun _ => .w64,
      tys := fun _ => [.w64], mod := .none, d := .reg, a := .reg, b := .reg, c := .zero, immMask := 0, auxMax := 3,
      litB := true, baseImm := fun _ => 0, extra := fun _ => true }
  | .leaLabel =>
    { major := 0x02, funcs := [3], lens := [.baseLit, .extLit], baseTy := fun _ => .w64, tys := fun _ => [.w64],
      mod := .none, d := .reg, a := .zero, b := .zero, c := .zero, immMask := 0, auxMax := 0, litB := true,
      baseImm := fun _ => 0, extra := fun _ => true }
  | .mul =>
    { major := 0x03, funcs := [0], lens := [.base, .baseLit, .ext, .extLit], baseTy := fun _ => .w32,
      tys := fun _ => [.i8, .i16, .i32, .i64, .w8, .w16, .w32, .w64], mod := .sat, d := .reg, a := .reg, b := .reg,
      c := .zero, immMask := 0, auxMax := 0, litB := true, baseImm := fun _ => 0, extra := fun _ => true }
  | .mulh =>
    { major := 0x03, funcs := [1], lens := [.base, .baseLit, .ext, .extLit], baseTy := fun _ => .i32,
      tys := fun _ => [.i32, .w32, .i64, .w64], mod := .none, d := .reg, a := .reg, b := .reg, c := .zero, immMask := 0,
      auxMax := 0, litB := true, baseImm := fun _ => 0, extra := fun _ => true }
  | .mad =>
    { major := 0x04, funcs := [0], lens := [.base, .baseLit, .ext, .extLit], baseTy := fun _ => .w32,
      tys := fun _ => [.i8, .i16, .i32, .i64, .w8, .w16, .w32, .w64], mod := .sat, d := .reg, a := .reg, b := .reg,
      c := .reg, immMask := 0, auxMax := 0, litB := true, baseImm := fun _ => 0, extra := fun _ => true }
  | .madw =>
    { major := 0x04, funcs := [1], lens := [.base, .baseLit, .ext, .extLit], baseTy := fun _ => .i32,
      tys := fun _ => [.i32, .w32], mod := .none, d := .reg, a := .reg, b := .reg, c := .reg, immMask := 0, auxMax := 0,
      litB := true, baseImm := fun _ => 0, extra := fun _ => true }
  | .div =>
    { major := 0x05, funcs := [0], lens := [.base, .baseLit, .ext, .extLit], baseTy := fun _ => .i32,
      tys := fun _ => [.i32, .w32, .i64, .w64], mod := .none, d := .reg, a := .reg, b := .reg, c := .zero, immMask := 0,
      auxMax := 0, litB := true, baseImm := fun _ => 0, extra := fun _ => true }
  | .rem =>
    { major := 0x05, funcs := [1], lens := [.base, .baseLit, .ext, .extLit], baseTy := fun _ => .i32,
      tys := fun _ => [.i32, .w32, .i64, .w64], mod := .none, d := .reg, a := .reg, b := .reg, c := .zero, immMask := 0,
      auxMax := 0, litB := true, baseImm := fun _ => 0, extra := fun _ => true }
  | .abs =>
    { major := 0x06, funcs := [0], lens := [.base, .ext], baseTy := fun _ => .i32,
      tys := fun _ => [.i8, .i16, .i32, .i64], mod := .sat, d := .reg, a := .reg, b := .zero, c := .zero, immMask := 0,
      auxMax := 0, litB := true, baseImm := fun _ => 0, extra := fun _ => true }
  | .min =>
    { major := 0x06, funcs := [1], lens := [.base, .baseLit, .ext, .extLit], baseTy := fun _ => .i32,
      tys := fun _ => [.i8, .i16, .i32, .i64, .w8, .w16, .w32, .w64], mod := .none, d := .reg, a := .reg, b := .reg,
      c := .zero, immMask := 0, auxMax := 0, litB := true, baseImm := fun _ => 0, extra := fun _ => true }
  | .max =>
    { major := 0x06, funcs := [2], lens := [.base, .baseLit, .ext, .extLit], baseTy := fun _ => .i32,
      tys := fun _ => [.i8, .i16, .i32, .i64, .w8, .w16, .w32, .w64], mod := .none, d := .reg, a := .reg, b := .reg,
      c := .zero, immMask := 0, auxMax := 0, litB := true, baseImm := fun _ => 0, extra := fun _ => true }
  | .and =>
    { major := 0x07, funcs := [0], lens := [.base, .baseLit, .ext, .extLit], baseTy := fun _ => .w32,
      tys := fun _ => [.w32, .w64], mod := .none, d := .reg, a := .reg, b := .reg, c := .zero, immMask := 0, auxMax := 0,
      litB := true, baseImm := fun _ => 0, extra := fun _ => true }
  | .or =>
    { major := 0x07, funcs := [1], lens := [.base, .baseLit, .ext, .extLit], baseTy := fun _ => .w32,
      tys := fun _ => [.w32, .w64], mod := .none, d := .reg, a := .reg, b := .reg, c := .zero, immMask := 0, auxMax := 0,
      litB := true, baseImm := fun _ => 0, extra := fun _ => true }
  | .xor =>
    { major := 0x07, funcs := [2], lens := [.base, .baseLit, .ext, .extLit], baseTy := fun _ => .w32,
      tys := fun _ => [.w32, .w64], mod := .none, d := .reg, a := .reg, b := .reg, c := .zero, immMask := 0, auxMax := 0,
      litB := true, baseImm := fun _ => 0, extra := fun _ => true }
  | .andn =>
    { major := 0x07, funcs := [3], lens := [.base, .baseLit, .ext, .extLit], baseTy := fun _ => .w32,
      tys := fun _ => [.w32, .w64], mod := .none, d := .reg, a := .reg, b := .reg, c := .zero, immMask := 0, auxMax := 0,
      litB := true, baseImm := fun _ => 0, extra := fun _ => true }
  | .not =>
    { major := 0x07, funcs := [4], lens := [.ext], baseTy := fun _ => .w32, tys := fun _ => [.w32, .w64], mod := .none,
      d := .reg, a := .reg, b := .zero, c := .zero, immMask := 0, auxMax := 0, litB := true, baseImm := fun _ => 0,
      extra := fun _ => true }
  | .shl =>
    { major := 0x08, funcs := [0], lens := [.base, .baseLit, .ext, .extLit], baseTy := fun _ => .w32,
      tys := fun _ => [.w32, .w64], mod := .none, d := .reg, a := .reg, b := .reg, c := .zero, immMask := 0, auxMax := 0,
      litB := true, baseImm := fun _ => 0, extra := fun _ => true }
  | .shr =>
    { major := 0x08, funcs := [1], lens := [.base, .baseLit, .ext, .extLit], baseTy := fun _ => .w32,
      tys := fun _ => [.w32, .w64], mod := .none, d := .reg, a := .reg, b := .reg, c := .zero, immMask := 0, auxMax := 0,
      litB := true, baseImm := fun _ => 0, extra := fun _ => true }
  | .sar =>
    { major := 0x08, funcs := [2], lens := [.base, .baseLit, .ext, .extLit], baseTy := fun _ => .w32,
      tys := fun _ => [.w32, .w64], mod := .none, d := .reg, a := .reg, b := .reg, c := .zero, immMask := 0, auxMax := 0,
      litB := true, baseImm := fun _ => 0, extra := fun _ => true }
  | .rol =>
    { major := 0x08, funcs := [3], lens := [.base, .baseLit, .ext, .extLit], baseTy := fun _ => .w32,
      tys := fun _ => [.w32, .w64], mod := .none, d := .reg, a := .reg, b := .reg, c := .zero, immMask := 0, auxMax := 0,
      litB := true, baseImm := fun _ => 0, extra := fun _ => true }
  | .bfe =>
    { major := 0x09, funcs := [0], lens := [.base, .baseLit, .ext, .extLit], baseTy := fun _ => .w32,
      tys := fun _ => [.i32, .w32, .i64, .w64], mod := .none, d := .reg, a := .reg, b := .reg, c := .zero, immMask := 0,
      auxMax := 0, litB := true, baseImm := fun _ => 0, extra := fun _ => true }
  | .bfi =>
    { major := 0x09, funcs := [1], lens := [.base, .baseLit, .ext, .extLit], baseTy := fun _ => .w32,
      tys := fun _ => [.w32, .w64], mod := .none, d := .reg, a := .reg, b := .reg, c := .reg, immMask := 0, auxMax := 0,
      litB := true, baseImm := fun _ => 0, extra := fun _ => true }
  | .popc =>
    { major := 0x0A, funcs := [0], lens := [.base, .ext], baseTy := fun _ => .w32, tys := fun _ => [.w32, .w64],
      mod := .none, d := .reg, a := .reg, b := .zero, c := .zero, immMask := 0, auxMax := 0, litB := true,
      baseImm := fun _ => 0, extra := fun _ => true }
  | .clz =>
    { major := 0x0A, funcs := [1], lens := [.base, .ext], baseTy := fun _ => .w32, tys := fun _ => [.w32, .w64],
      mod := .none, d := .reg, a := .reg, b := .zero, c := .zero, immMask := 0, auxMax := 0, litB := true,
      baseImm := fun _ => 0, extra := fun _ => true }
  | .ctz =>
    { major := 0x0A, funcs := [2], lens := [.base, .ext], baseTy := fun _ => .w32, tys := fun _ => [.w32, .w64],
      mod := .none, d := .reg, a := .reg, b := .zero, c := .zero, immMask := 0, auxMax := 0, litB := true,
      baseImm := fun _ => 0, extra := fun _ => true }
  | .brev =>
    { major := 0x0A, funcs := [3], lens := [.base, .ext], baseTy := fun _ => .w32, tys := fun _ => [.w32, .w64],
      mod := .none, d := .reg, a := .reg, b := .zero, c := .zero, immMask := 0, auxMax := 0, litB := true,
      baseImm := fun _ => 0, extra := fun _ => true }
  | .perm =>
    { major := 0x0B, funcs := [0], lens := [.base, .baseLit, .ext, .extLit], baseTy := fun _ => .w32,
      tys := fun _ => [.w32], mod := .none, d := .reg, a := .reg, b := .reg, c := .reg, immMask := 0, auxMax := 0,
      litB := true, baseImm := fun _ => 0, extra := fun _ => true }
  | .sel =>
    { major := 0x0B, funcs := [4], lens := [.ext], baseTy := fun _ => .w32, tys := fun _ => [.w32, .w64], mod := .none,
      d := .reg, a := .reg, b := .reg, c := .zero, immMask := 0, auxMax := 7, litB := true, baseImm := fun _ => 0,
      extra := fun _ => true }
  | .cmp =>
    { major := 0x0C, funcs := [0], lens := [.base, .baseLit, .ext, .extLit], baseTy := fun _ => .i32,
      tys := fun _ => [.i8, .i16, .i32, .i64, .w8, .w16, .w32, .w64], mod := .none, d := .upTo 63, a := .reg, b := .reg,
      c := .zero, immMask := 0, auxMax := 0, litB := true, baseImm := fun _ => 0,
      extra := fun o => decide (o.d.toNat / 8 ≤ 5) }
  | .pset =>
    { major := 0x0C, funcs := [1], lens := [.base, .ext], baseTy := fun _ => .none, tys := fun _ => [.none],
      mod := .none, d := .upTo 63, a := .upTo 7, b := .upTo 7, c := .zero, immMask := 0, auxMax := 3, litB := true,
      baseImm := fun _ => 0,
      extra := fun o => if o.len.isExt then decide (o.d.toNat ≤ 7) else decide (o.d.toNat / 8 ≤ 3) }
  | .mov =>
    { major := 0x0D, funcs := [0], lens := [.base, .ext], baseTy := fun _ => .w32, tys := fun _ => [.w32], mod := .none,
      d := .reg, a := .reg, b := .zero, c := .zero, immMask := 0, auxMax := 0, litB := true, baseImm := fun _ => 0,
      extra := fun _ => true }
  | .movSpecial =>
    { major := 0x0D, funcs := [1], lens := [.base, .ext], baseTy := fun _ => .none, tys := fun _ => [.none],
      mod := .none, d := .reg, a := .upTo 511, b := .zero, c := .zero, immMask := 0, auxMax := 0, litB := true,
      baseImm := fun _ => 0, extra := fun _ => true }
  | .movW64 =>
    { major := 0x0D, funcs := [2], lens := [.base, .ext], baseTy := fun _ => .w64, tys := fun _ => [.w64], mod := .none,
      d := .reg, a := .reg, b := .zero, c := .zero, immMask := 0, auxMax := 0, litB := true, baseImm := fun _ => 0,
      extra := fun _ => true }
  | .moviW32 =>
    { major := 0x0E, funcs := [0], lens := [.base, .baseLit, .ext, .extLit], baseTy := fun _ => .w32,
      tys := fun _ => [.w32], mod := .none, d := .reg, a := .upTo 63, b := .upTo 63, c := .zero, immMask := 0xFFFFF,
      auxMax := 0, litB := false, baseImm := fun _ => 0,
      extra := fun o => match o.len with | .base => true | .baseLit => o.a == 0 && o.b == 0 | .ext => o.a == 0 && o.b == 0 | .extLit => o.a == 0 && o.b == 0 && o.imm == 0 }
  | .moviW64 =>
    { major := 0x0E, funcs := [1], lens := [.base, .baseLit, .ext, .extLit], baseTy := fun _ => .w64,
      tys := fun _ => [.w64], mod := .none, d := .reg, a := .upTo 63, b := .upTo 63, c := .zero, immMask := 0xFFFFF,
      auxMax := 0, litB := false, baseImm := fun _ => 0,
      extra := fun o => match o.len with | .base => true | .baseLit => o.a == 0 && o.b == 0 | .ext => o.a == 0 && o.b == 0 | .extLit => o.a == 0 && o.b == 0 && o.imm == 0 }
  | .cvt =>
    { major := 0x0F, funcs := [0, 1, 2, 4], lens := [.base, .ext],
      baseTy := fun f => match f with | 0 => .i64 | 1 => .w64 | 2 => .w32 | _ => .none,
      tys := fun f => match f with | 0 => [.i64] | 1 => [.w64] | 2 => [.w32] | _ => [.i4, .i8, .i16, .i32, .i64, .w4, .w8, .w16, .w32, .w64],
      mod := .sat, d := .reg, a := .reg, b := .zero, c := .zero, immMask := 0x1F, auxMax := 0, litB := true,
      baseImm := fun f => match f with | 0 => 4 | 1 => 9 | 2 => 10 | _ => 0,
      extra := fun o => if o.func == 4 then (Ty.ofCode (o.imm.toNat)).any Ty.isInt else decide (o.imm.toNat = cvtSrc o.func.toNat) }
  | .fadd =>
    { major := 0x10, funcs := [0], lens := [.base, .baseLit, .ext, .extLit], baseTy := fun _ => .f32,
      tys := fun _ => [.f32, .f16, .bf16], mod := .flt, d := .reg, a := .reg, b := .reg, c := .zero, immMask := 0,
      auxMax := 0, litB := true, baseImm := fun _ => 0, extra := fun _ => true }
  | .fsub =>
    { major := 0x10, funcs := [1], lens := [.base, .baseLit, .ext, .extLit], baseTy := fun _ => .f32,
      tys := fun _ => [.f32, .f16, .bf16], mod := .flt, d := .reg, a := .reg, b := .reg, c := .zero, immMask := 0,
      auxMax := 0, litB := true, baseImm := fun _ => 0, extra := fun _ => true }
  | .fmul =>
    { major := 0x11, funcs := [0], lens := [.base, .baseLit, .ext, .extLit], baseTy := fun _ => .f32,
      tys := fun _ => [.f32, .f16, .bf16], mod := .flt, d := .reg, a := .reg, b := .reg, c := .zero, immMask := 0,
      auxMax := 0, litB := true, baseImm := fun _ => 0, extra := fun _ => true }
  | .ffma =>
    { major := 0x11, funcs := [1], lens := [.base, .baseLit, .ext, .extLit], baseTy := fun _ => .f32,
      tys := fun _ => [.f32, .f16, .bf16], mod := .flt, d := .reg, a := .reg, b := .reg, c := .reg, immMask := 0,
      auxMax := 0, litB := true, baseImm := fun _ => 0, extra := fun _ => true }
  | .fmin =>
    { major := 0x12, funcs := [0], lens := [.base, .baseLit, .ext, .extLit], baseTy := fun _ => .f32,
      tys := fun _ => [.f32, .f16, .bf16], mod := .x2, d := .reg, a := .reg, b := .reg, c := .zero, immMask := 0,
      auxMax := 0, litB := true, baseImm := fun _ => 0, extra := fun _ => true }
  | .fmax =>
    { major := 0x12, funcs := [1], lens := [.base, .baseLit, .ext, .extLit], baseTy := fun _ => .f32,
      tys := fun _ => [.f32, .f16, .bf16], mod := .x2, d := .reg, a := .reg, b := .reg, c := .zero, immMask := 0,
      auxMax := 0, litB := true, baseImm := fun _ => 0, extra := fun _ => true }
  | .fcmp =>
    { major := 0x13, funcs := [0], lens := [.base, .baseLit, .ext, .extLit], baseTy := fun _ => .f32,
      tys := fun _ => [.f32, .f16, .bf16], mod := .none, d := .upTo 63, a := .reg, b := .reg, c := .zero, immMask := 0,
      auxMax := 0, litB := true, baseImm := fun _ => 0, extra := fun _ => true }
  | .fcls =>
    { major := 0x13, funcs := [1], lens := [.base, .baseLit, .ext, .extLit], baseTy := fun _ => .f32,
      tys := fun _ => [.f32, .f16, .bf16], mod := .none, d := .upTo 7, a := .reg, b := .reg, c := .zero, immMask := 0,
      auxMax := 0, litB := true, baseImm := fun _ => 0, extra := fun _ => true }
  | .frcp =>
    { major := 0x14, funcs := [0], lens := [.base, .ext], baseTy := fun _ => .f32, tys := fun _ => [.f32, .f16, .bf16],
      mod := .flt, d := .reg, a := .reg, b := .zero, c := .zero, immMask := 0, auxMax := 0, litB := true,
      baseImm := fun _ => 0, extra := fun _ => true }
  | .frsq =>
    { major := 0x14, funcs := [1], lens := [.base, .ext], baseTy := fun _ => .f32, tys := fun _ => [.f32, .f16, .bf16],
      mod := .flt, d := .reg, a := .reg, b := .zero, c := .zero, immMask := 0, auxMax := 0, litB := true,
      baseImm := fun _ => 0, extra := fun _ => true }
  | .fsqrt =>
    { major := 0x14, funcs := [2], lens := [.base, .ext], baseTy := fun _ => .f32, tys := fun _ => [.f32, .f16, .bf16],
      mod := .flt, d := .reg, a := .reg, b := .zero, c := .zero, immMask := 0, auxMax := 0, litB := true,
      baseImm := fun _ => 0, extra := fun _ => true }
  | .fex2 =>
    { major := 0x15, funcs := [0], lens := [.base, .ext], baseTy := fun _ => .f32, tys := fun _ => [.f32, .f16, .bf16],
      mod := .flt, d := .reg, a := .reg, b := .zero, c := .zero, immMask := 0, auxMax := 0, litB := true,
      baseImm := fun _ => 0, extra := fun _ => true }
  | .flg2 =>
    { major := 0x15, funcs := [1], lens := [.base, .ext], baseTy := fun _ => .f32, tys := fun _ => [.f32, .f16, .bf16],
      mod := .flt, d := .reg, a := .reg, b := .zero, c := .zero, immMask := 0, auxMax := 0, litB := true,
      baseImm := fun _ => 0, extra := fun _ => true }
  | .frnd =>
    { major := 0x16, funcs := [0], lens := [.base, .ext], baseTy := fun _ => .f32, tys := fun _ => [.f32, .f16, .bf16],
      mod := .flt, d := .reg, a := .reg, b := .zero, c := .zero, immMask := 0, auxMax := 0, litB := true,
      baseImm := fun _ => 0, extra := fun _ => true }
  | .fcvt =>
    { major := 0x17, funcs := [0, 1, 2, 3, 4], lens := [.base, .ext],
      baseTy := fun f => match f with | 0 => .f32 | 1 => .i32 | 2 => .f32 | 3 => .f16 | _ => .none,
      tys := fun f => match f with | 0 => [.f32] | 1 => [.i32] | 2 => [.f32] | 3 => [.f16] | _ => [.f32, .f16, .bf16, .i4, .i8, .i16, .i32, .i64, .w4, .w8, .w16, .w32, .w64],
      mod := .fcvt, d := .reg, a := .reg, b := .reg, c := .zero, immMask := 0x1F, auxMax := 0, litB := true,
      baseImm := fun f => match f with | 0 => 4 | 1 => 13 | 2 => 11 | 3 => 13 | _ => 0, extra := fcvtOk }
  | .shfl =>
    { major := 0x18, funcs := [0, 1, 2, 3], lens := [.base, .baseLit, .ext, .extLit], baseTy := fun _ => .w32,
      tys := fun _ => [.w32, .w64], mod := .none, d := .reg, a := .reg, b := .reg, c := .zero, immMask := 0, auxMax := 0,
      litB := true, baseImm := fun _ => 0, extra := fun _ => true }
  | .voteAny =>
    { major := 0x19, funcs := [0], lens := [.base, .ext], baseTy := fun _ => .none, tys := fun _ => [.none],
      mod := .none, d := .upTo 7, a := .upTo 7, b := .zero, c := .zero, immMask := 0, auxMax := 0, litB := true,
      baseImm := fun _ => 0, extra := fun _ => true }
  | .voteAll =>
    { major := 0x19, funcs := [1], lens := [.base, .ext], baseTy := fun _ => .none, tys := fun _ => [.none],
      mod := .none, d := .upTo 7, a := .upTo 7, b := .zero, c := .zero, immMask := 0, auxMax := 0, litB := true,
      baseImm := fun _ => 0, extra := fun _ => true }
  | .voteBallot =>
    { major := 0x19, funcs := [2], lens := [.base, .ext], baseTy := fun _ => .none, tys := fun _ => [.none],
      mod := .none, d := .reg, a := .upTo 7, b := .zero, c := .zero, immMask := 0, auxMax := 0, litB := true,
      baseImm := fun _ => 0, extra := fun _ => true }
  | .voteEq =>
    { major := 0x19, funcs := [3], lens := [.base, .ext], baseTy := fun _ => .w32, tys := fun _ => [.w32, .w64],
      mod := .none, d := .upTo 7, a := .reg, b := .zero, c := .zero, immMask := 0, auxMax := 0, litB := true,
      baseImm := fun _ => 0, extra := fun _ => true }
  | .redux =>
    { major := 0x1A, funcs := [0], lens := [.base, .ext], baseTy := fun _ => .w32,
      tys := fun _ => [.i32, .w32, .i64, .w64, .f32], mod := .none, d := .reg, a := .reg, b := .upTo 63, c := .zero,
      immMask := 0, auxMax := 7, litB := true, baseImm := fun _ => 0,
      extra := fun o => if o.len.isExt then o.b == 0 && decide (o.aux.toNat ≤ 5) && (o.ty != .f32 || decide (o.aux.toNat ≤ 2)) else decide (o.b.toNat ≤ 5) }
  | .scan =>
    { major := 0x1A, funcs := [1], lens := [.base, .ext], baseTy := fun _ => .w32,
      tys := fun _ => [.i32, .w32, .i64, .w64, .f32], mod := .none, d := .reg, a := .reg, b := .upTo 63, c := .zero,
      immMask := 0, auxMax := 7, litB := true, baseImm := fun _ => 0,
      extra := fun o => if o.len.isExt then o.b == 0 && decide (o.aux.toNat ≤ 5) && (o.ty != .f32 || decide (o.aux.toNat ≤ 2)) else decide (o.b.toNat ≤ 5) }
  | .scanEx =>
    { major := 0x1A, funcs := [2], lens := [.base, .ext], baseTy := fun _ => .w32,
      tys := fun _ => [.i32, .w32, .i64, .w64, .f32], mod := .none, d := .reg, a := .reg, b := .upTo 63, c := .zero,
      immMask := 0, auxMax := 7, litB := true, baseImm := fun _ => 0,
      extra := fun o => if o.len.isExt then o.b == 0 && decide (o.aux.toNat ≤ 5) && (o.ty != .f32 || decide (o.aux.toNat ≤ 2)) else decide (o.b.toNat ≤ 5) }
  | .quant =>
    { major := 0x1B, funcs := [0], lens := [.base, .ext], baseTy := fun _ => .kx4, tys := fun _ => [.kx2, .kx4, .kx7],
      mod := .none, d := .reg, a := .reg, b := .zero, c := .zero, immMask := 0x1F, auxMax := 0, litB := true,
      baseImm := fun _ => 13, extra := fun o => (Ty.ofCode o.imm.toNat).any Ty.isFloat }
  | .dequant =>
    { major := 0x1B, funcs := [1], lens := [.base, .ext], baseTy := fun _ => .kx4, tys := fun _ => [.kx2, .kx4, .kx7],
      mod := .none, d := .reg, a := .reg, b := .zero, c := .zero, immMask := 0x1F, auxMax := 0, litB := true,
      baseImm := fun _ => 13, extra := fun o => (Ty.ofCode o.imm.toNat).any Ty.isFloat }
  | .bra =>
    { major := 0x1C, funcs := [0], lens := [.baseLit, .extLit], baseTy := fun _ => .none, tys := fun _ => [.none],
      mod := .none, d := .zero, a := .zero, b := .zero, c := .zero, immMask := 0, auxMax := 0, litB := true,
      baseImm := fun _ => 0, extra := fun _ => true }
  | .brx =>
    { major := 0x1C, funcs := [1], lens := [.base, .ext], baseTy := fun _ => .none, tys := fun _ => [.none],
      mod := .none, d := .zero, a := .reg, b := .zero, c := .zero, immMask := 0, auxMax := 0, litB := true,
      baseImm := fun _ => 0, extra := fun _ => true }
  | .call =>
    { major := 0x1C, funcs := [2], lens := [.baseLit, .extLit], baseTy := fun _ => .none, tys := fun _ => [.none],
      mod := .none, d := .reg, a := .zero, b := .zero, c := .zero, immMask := 0, auxMax := 0, litB := true,
      baseImm := fun _ => 0, extra := fun _ => true }
  | .ret =>
    { major := 0x1C, funcs := [3], lens := [.base, .ext], baseTy := fun _ => .none, tys := fun _ => [.none],
      mod := .none, d := .zero, a := .reg, b := .zero, c := .zero, immMask := 0, auxMax := 0, litB := true,
      baseImm := fun _ => 0, extra := fun _ => true }
  | .exit =>
    { major := 0x1D, funcs := [0], lens := [.base, .ext], baseTy := fun _ => .none, tys := fun _ => [.none],
      mod := .none, d := .zero, a := .zero, b := .zero, c := .zero, immMask := 0, auxMax := 0, litB := true,
      baseImm := fun _ => 0, extra := fun _ => true }
  | .yield =>
    { major := 0x1D, funcs := [1], lens := [.base, .ext], baseTy := fun _ => .none, tys := fun _ => [.none],
      mod := .none, d := .zero, a := .zero, b := .zero, c := .zero, immMask := 0, auxMax := 0, litB := true,
      baseImm := fun _ => 0, extra := fun _ => true }
  | .nop =>
    { major := 0x1D, funcs := [2], lens := [.base, .ext], baseTy := fun _ => .none, tys := fun _ => [.none],
      mod := .none, d := .zero, a := .zero, b := .zero, c := .zero, immMask := 0, auxMax := 0, litB := true,
      baseImm := fun _ => 0, extra := fun _ => true }
  | .brk =>
    { major := 0x1D, funcs := [3], lens := [.base, .baseLit, .ext, .extLit], baseTy := fun _ => .none,
      tys := fun _ => [.none], mod := .none, d := .zero, a := .zero, b := .zero, c := .zero, immMask := 0, auxMax := 0,
      litB := true, baseImm := fun _ => 0, extra := fun o => o.g == 7 && o.lit == 0 }
  | .trap =>
    { major := 0x1D, funcs := [4], lens := [.ext], baseTy := fun _ => .none, tys := fun _ => [.none], mod := .none,
      d := .zero, a := .zero, b := .zero, c := .zero, immMask := 0xFFFFF, auxMax := 0, litB := true,
      baseImm := fun _ => 0, extra := fun _ => true }
  | .assert =>
    { major := 0x1D, funcs := [5], lens := [.ext], baseTy := fun _ => .none, tys := fun _ => [.none], mod := .none,
      d := .zero, a := .upTo 7, b := .reg, c := .zero, immMask := 0, auxMax := 0, litB := true, baseImm := fun _ => 0,
      extra := fun _ => true }
  | .enrol =>
    { major := 0x1E, funcs := [0], lens := [.base, .ext], baseTy := fun _ => .none, tys := fun _ => [.none],
      mod := .none, d := .upTo 7, a := .zero, b := .zero, c := .zero, immMask := 0, auxMax := 0, litB := true,
      baseImm := fun _ => 0, extra := fun _ => true }
  | .join =>
    { major := 0x1E, funcs := [1], lens := [.base, .ext], baseTy := fun _ => .none, tys := fun _ => [.none],
      mod := .none, d := .upTo 7, a := .zero, b := .zero, c := .zero, immMask := 0, auxMax := 0, litB := true,
      baseImm := fun _ => 0, extra := fun _ => true }
  | .reform =>
    { major := 0x1E, funcs := [2], lens := [.base, .ext], baseTy := fun _ => .none, tys := fun _ => [.none],
      mod := .none, d := .zero, a := .zero, b := .zero, c := .zero, immMask := 0, auxMax := 0, litB := true,
      baseImm := fun _ => 0, extra := fun _ => true }
  | .seal =>
    { major := 0x1E, funcs := [3], lens := [.base, .ext], baseTy := fun _ => .none, tys := fun _ => [.none],
      mod := .none, d := .zero, a := .zero, b := .zero, c := .zero, immMask := 0, auxMax := 0, litB := true,
      baseImm := fun _ => 0, extra := fun _ => true }
  | .park =>
    { major := 0x1F, funcs := [0], lens := [.base, .baseLit, .ext, .extLit], baseTy := fun _ => .none,
      tys := fun _ => [.none], mod := .none, d := .upTo 7, a := .reg, b := .reg, c := .zero, immMask := 0, auxMax := 0,
      litB := true, baseImm := fun _ => 0, extra := fun _ => true }
  | .ld =>
    { major := 0x20, funcs := [0, 1, 2, 3], lens := [.base, .ext],
      baseTy := fun f => match f with | 0 => .w32 | 1 => .w64 | 2 => .w16 | _ => .w8,
      tys := fun f => match f with | 0 => [.i32, .w32, .f32] | 1 => [.i64, .w64] | 2 => [.i16, .w16, .f16, .bf16] | _ => [.i8, .w8],
      mod := .mem, d := .reg, a := .reg, b := .zero, c := .zero, immMask := 0xFFFFF, auxMax := 0, litB := true,
      baseImm := fun _ => 0, extra := fun _ => true }
  | .st =>
    { major := 0x21, funcs := [0, 1, 2, 3], lens := [.base, .baseLit, .ext, .extLit],
      baseTy := fun f => match f with | 0 => .w32 | 1 => .w64 | 2 => .w16 | _ => .w8,
      tys := fun f => match f with | 0 => [.i32, .w32, .f32] | 1 => [.i64, .w64] | 2 => [.i16, .w16, .f16, .bf16] | _ => [.i8, .w8],
      mod := .mem, d := .zero, a := .reg, b := .reg, c := .zero, immMask := 0xFFFFF, auxMax := 0, litB := true,
      baseImm := fun _ => 0, extra := fun _ => true }
  | .ldt =>
    { major := 0x22, funcs := [0, 2, 4], lens := [.base, .ext],
      baseTy := fun f => match f with | 0 => .w32 | 2 => .w64 | _ => .none,
      tys := fun f => match f with | 0 => [.i32, .w32, .f32] | 2 => [.i64, .w64] | _ => [.i8, .w8, .i16, .w16, .f16, .bf16],
      mod := .mem, d := .reg, a := .reg, b := .zero, c := .zero, immMask := 0xFFFFF, auxMax := 0, litB := true,
      baseImm := fun _ => 0, extra := fun _ => true }
  | .stt =>
    { major := 0x22, funcs := [1, 3, 5], lens := [.base, .baseLit, .ext, .extLit],
      baseTy := fun f => match f with | 1 => .w32 | 3 => .w64 | _ => .none,
      tys := fun f => match f with | 1 => [.i32, .w32, .f32] | 3 => [.i64, .w64] | _ => [.i8, .w8, .i16, .w16, .f16, .bf16],
      mod := .mem, d := .zero, a := .reg, b := .reg, c := .zero, immMask := 0xFFFFF, auxMax := 0, litB := true,
      baseImm := fun _ => 0, extra := fun _ => true }
  | .ldd =>
    { major := 0x23, funcs := [0, 2, 4], lens := [.base, .ext],
      baseTy := fun f => match f with | 0 => .w32 | 2 => .w64 | _ => .none,
      tys := fun f => match f with | 0 => [.i32, .w32, .f32] | 2 => [.i64, .w64] | _ => [.i8, .w8, .i16, .w16, .f16, .bf16],
      mod := .mem, d := .reg, a := .reg, b := .zero, c := .zero, immMask := 0xFFFFF, auxMax := 0, litB := true,
      baseImm := fun _ => 0, extra := fun _ => true }
  | .std =>
    { major := 0x23, funcs := [1, 3, 5], lens := [.base, .baseLit, .ext, .extLit],
      baseTy := fun f => match f with | 1 => .w32 | 3 => .w64 | _ => .none,
      tys := fun f => match f with | 1 => [.i32, .w32, .f32] | 3 => [.i64, .w64] | _ => [.i8, .w8, .i16, .w16, .f16, .bf16],
      mod := .mem, d := .zero, a := .reg, b := .reg, c := .zero, immMask := 0xFFFFF, auxMax := 0, litB := true,
      baseImm := fun _ => 0, extra := fun _ => true }
  | .ldc =>
    { major := 0x24, funcs := [0, 1], lens := [.base, .ext], baseTy := fun f => match f with | 0 => .w32 | _ => .w64,
      tys := fun f => match f with | 0 => [.i32, .w32, .f32] | _ => [.i64, .w64], mod := .rd, d := .reg, a := .reg,
      b := .zero, c := .zero, immMask := 0xFFFFF, auxMax := 0, litB := true, baseImm := fun _ => 0,
      extra := fun _ => true }
  | .ldcPar =>
    { major := 0x24, funcs := [4], lens := [.ext], baseTy := fun _ => .none,
      tys := fun _ => [.i32, .w32, .f32, .i64, .w64], mod := .none, d := .reg, a := .zero, b := .zero, c := .zero,
      immMask := 0xFFFFF, auxMax := 0, litB := true, baseImm := fun _ => 0, extra := fun _ => true }
  | .pref =>
    { major := 0x24, funcs := [2], lens := [.base, .ext], baseTy := fun _ => .none, tys := fun _ => [.none], mod := .rd,
      d := .zero, a := .reg, b := .zero, c := .zero, immMask := 0xFFFFF, auxMax := 0, litB := true,
      baseImm := fun _ => 0, extra := fun _ => true }
  | .spush =>
    { major := 0x25, funcs := [0], lens := [.base, .ext], baseTy := fun _ => .none, tys := fun _ => [.none],
      mod := .none, d := .zero, a := .reg, b := .upTo 63, c := .zero, immMask := 0x1FF, auxMax := 0, litB := true,
      baseImm := fun _ => 0,
      extra := fun o => if o.len.isExt then o.b == 0 && decide (1 ≤ o.imm.toNat ∧ o.imm.toNat ≤ 320) else true }
  | .spop =>
    { major := 0x25, funcs := [1], lens := [.base, .ext], baseTy := fun _ => .none, tys := fun _ => [.none],
      mod := .none, d := .reg, a := .zero, b := .upTo 63, c := .zero, immMask := 0x1FF, auxMax := 0, litB := true,
      baseImm := fun _ => 0,
      extra := fun o => if o.len.isExt then o.b == 0 && decide (1 ≤ o.imm.toNat ∧ o.imm.toNat ≤ 320) else true }
  | .xadd =>
    { major := 0x26, funcs := [0], lens := [.base, .baseLit, .ext, .extLit], baseTy := fun _ => .w32,
      tys := fun _ => [.i32, .w32, .i64, .w64, .f32], mod := .atom, d := .reg, a := .reg, b := .reg, c := .zero,
      immMask := 0xFFFFF, auxMax := 0, litB := true, baseImm := fun _ => 0, extra := fun _ => true }
  | .xmax =>
    { major := 0x26, funcs := [1], lens := [.base, .baseLit, .ext, .extLit], baseTy := fun _ => .w32,
      tys := fun _ => [.i32, .w32, .i64, .w64, .f32], mod := .atom, d := .reg, a := .reg, b := .reg, c := .zero,
      immMask := 0xFFFFF, auxMax := 0, litB := true, baseImm := fun _ => 0, extra := fun _ => true }
  | .xmin =>
    { major := 0x26, funcs := [2], lens := [.base, .baseLit, .ext, .extLit], baseTy := fun _ => .w32,
      tys := fun _ => [.i32, .w32, .i64, .w64, .f32], mod := .atom, d := .reg, a := .reg, b := .reg, c := .zero,
      immMask := 0xFFFFF, auxMax := 0, litB := true, baseImm := fun _ => 0, extra := fun _ => true }
  | .xswp =>
    { major := 0x27, funcs := [0], lens := [.base, .baseLit, .ext, .extLit], baseTy := fun _ => .w32,
      tys := fun _ => [.i32, .w32, .f32, .i64, .w64], mod := .atom, d := .reg, a := .reg, b := .reg, c := .zero,
      immMask := 0xFFFFF, auxMax := 0, litB := true, baseImm := fun _ => 0, extra := fun _ => true }
  | .xcas =>
    { major := 0x27, funcs := [1], lens := [.base, .baseLit, .ext, .extLit], baseTy := fun _ => .w32,
      tys := fun _ => [.w32, .w64], mod := .atom, d := .reg, a := .reg, b := .reg, c := .reg, immMask := 0xFFFFF,
      auxMax := 0, litB := true, baseImm := fun _ => 0, extra := fun _ => true }
  | .xbit =>
    { major := 0x27, funcs := [2], lens := [.base, .baseLit, .ext, .extLit], baseTy := fun _ => .w32,
      tys := fun _ => [.w32, .w64], mod := .atom, d := .reg, a := .reg, b := .reg, c := .zero, immMask := 0xFFFFF,
      auxMax := 2, litB := true, baseImm := fun _ => 0, extra := fun _ => true }
  | .fence =>
    { major := 0x28, funcs := [0, 1, 2, 3], lens := [.base, .ext], baseTy := fun _ => .none, tys := fun _ => [.none],
      mod := .fence, d := .zero, a := .zero, b := .zero, c := .zero, immMask := 0, auxMax := 0, litB := true,
      baseImm := fun _ => 0, extra := fun _ => true }
  | .tbar =>
    { major := 0x29, funcs := [0], lens := [.base, .ext], baseTy := fun _ => .none, tys := fun _ => [.none],
      mod := .none, d := .zero, a := .zero, b := .zero, c := .zero, immMask := 0, auxMax := 0, litB := true,
      baseImm := fun _ => 0, extra := fun _ => true }
  | .cbar =>
    { major := 0x29, funcs := [1], lens := [.base, .ext], baseTy := fun _ => .none, tys := fun _ => [.none],
      mod := .none, d := .zero, a := .zero, b := .zero, c := .zero, immMask := 0, auxMax := 0, litB := true,
      baseImm := fun _ => 0, extra := fun _ => true }
  | .txbInit =>
    { major := 0x2A, funcs := [0], lens := [.base, .baseLit, .ext, .extLit], baseTy := fun _ => .none,
      tys := fun _ => [.none], mod := .txb, d := .zero, a := .reg, b := .reg, c := .zero, immMask := 0xFFFFF,
      auxMax := 0, litB := true, baseImm := fun _ => 0, extra := fun _ => true }
  | .txbArrive =>
    { major := 0x2A, funcs := [1], lens := [.base, .baseLit, .ext, .extLit], baseTy := fun _ => .none,
      tys := fun _ => [.none], mod := .none, d := .reg, a := .reg, b := .reg, c := .zero, immMask := 0xFFFFF,
      auxMax := 0, litB := true, baseImm := fun _ => 0, extra := fun _ => true }
  | .txbExpect =>
    { major := 0x2A, funcs := [2], lens := [.base, .baseLit, .ext, .extLit], baseTy := fun _ => .none,
      tys := fun _ => [.none], mod := .none, d := .zero, a := .reg, b := .reg, c := .zero, immMask := 0xFFFFF,
      auxMax := 0, litB := true, baseImm := fun _ => 0, extra := fun _ => true }
  | .txbWait =>
    { major := 0x2A, funcs := [3], lens := [.base, .baseLit, .ext, .extLit], baseTy := fun _ => .none,
      tys := fun _ => [.none], mod := .none, d := .zero, a := .reg, b := .reg, c := .zero, immMask := 0xFFFFF,
      auxMax := 0, litB := true, baseImm := fun _ => 0, extra := fun _ => true }
  | .tileDef =>
    { major := 0x2B, funcs := [0], lens := [.base, .baseLit, .ext, .extLit], baseTy := fun _ => .none,
      tys := fun _ => [.none], mod := .none, d := .upTo 63, a := .reg, b := .reg, c := .zero, immMask := 0xFFFFF,
      auxMax := 0, litB := true, baseImm := fun _ => 0, extra := fun _ => true }
  | .tileSet =>
    { major := 0x2B, funcs := [1], lens := [.base, .ext], baseTy := fun _ => .none, tys := fun _ => [.none],
      mod := .none, d := .upTo 63, a := .zero, b := .upTo 63, c := .zero, immMask := 0, auxMax := 3, litB := true,
      baseImm := fun _ => 0, extra := fun o => if o.len.isExt then o.b == 0 else decide (o.b.toNat ≤ 3) }
  | .tileState =>
    { major := 0x2B, funcs := [2], lens := [.base, .ext], baseTy := fun _ => .none, tys := fun _ => [.none],
      mod := .none, d := .reg, a := .upTo 63, b := .zero, c := .zero, immMask := 0, auxMax := 0, litB := true,
      baseImm := fun _ => 0, extra := fun _ => true }
  | .trec =>
    { major := 0x2C, funcs := [0], lens := [.base, .ext], baseTy := fun _ => .none, tys := fun _ => [.none],
      mod := .none, d := .upTo 31, a := .reg, b := .zero, c := .zero, immMask := 0xFFFFF, auxMax := 0, litB := true,
      baseImm := fun _ => 0, extra := fun _ => true }
  | .bstat =>
    { major := 0x2C, funcs := [1], lens := [.base, .ext], baseTy := fun _ => .none, tys := fun _ => [.none],
      mod := .none, d := .reg, a := .reg, b := .zero, c := .zero, immMask := 0, auxMax := 0, litB := true,
      baseImm := fun _ => 0, extra := fun _ => true }
  | .bstatSeq =>
    { major := 0x2C, funcs := [2], lens := [.base, .ext], baseTy := fun _ => .none, tys := fun _ => [.none],
      mod := .none, d := .reg, a := .zero, b := .zero, c := .zero, immMask := 0, auxMax := 0, litB := true,
      baseImm := fun _ => 0, extra := fun _ => true }
  | .bcopy =>
    { major := 0x2D, funcs := [0], lens := [.base, .ext], baseTy := fun _ => .none,
      tys := fun _ => [.none, .f32, .f16, .bf16], mod := .none, d := .upTo 31, a := .reg, b := .reg, c := .upTo 31,
      immMask := 0x3FFF, auxMax := 2, litB := true, baseImm := fun _ => 1, extra := bcopyOk }
  | .bcopyMc =>
    { major := 0x2D, funcs := [1], lens := [.base, .ext], baseTy := fun _ => .none,
      tys := fun _ => [.none, .f32, .f16, .bf16], mod := .none, d := .upTo 31, a := .reg, b := .zero, c := .reg,
      immMask := 0x3E00, auxMax := 0, litB := true, baseImm := fun _ => 0, extra := fmtPairOk }
  | .bread =>
    { major := 0x2E, funcs := [0], lens := [.baseLit, .extLit], baseTy := fun _ => .none, tys := fun _ => [.none],
      mod := .none, d := .upTo 255, a := .reg, b := .upTo 31, c := .zero, immMask := 0x1FF, auxMax := 0, litB := false,
      baseImm := fun _ => 0, extra := breadOk }
  | .bwrite =>
    { major := 0x2E, funcs := [1], lens := [.base, .ext], baseTy := fun _ => .none, tys := fun _ => [.none],
      mod := .none, d := .upTo 31, a := .reg, b := .zero, c := .zero, immMask := 0x2, auxMax := 0, litB := true,
      baseImm := fun _ => 0, extra := fun _ => true }
  | .bzero =>
    { major := 0x2F, funcs := [0], lens := [.base, .ext], baseTy := fun _ => .none, tys := fun _ => [.none],
      mod := .none, d := .upTo 31, a := .zero, b := .zero, c := .zero, immMask := 0, auxMax := 0, litB := true,
      baseImm := fun _ => 0, extra := fun _ => true }
  | .oprel =>
    { major := 0x30, funcs := [0], lens := [.base, .ext], baseTy := fun _ => .none, tys := fun _ => [.none],
      mod := .none, d := .upTo 63, a := .zero, b := .zero, c := .zero, immMask := 0, auxMax := 0, litB := true,
      baseImm := fun _ => 0, extra := fun _ => true }
  | .opresFill =>
    { major := 0x30, funcs := [1], lens := [.base, .ext], baseTy := fun _ => .f16,
      tys := fun _ => [.f32, .f16, .bf16, .i8, .w8], mod := .none, d := .upTo 63, a := .reg, b := .upTo 31, c := .zero,
      immMask := 0, auxMax := 0, litB := true, baseImm := fun _ => 0, extra := fun _ => true }
  | .opres =>
    { major := 0x30, funcs := [4], lens := [.ext], baseTy := fun _ => .none,
      tys := fun _ => [.f16, .bf16, .i8, .w8, .i4, .w4, .kx2, .kx4, .kx7], mod := .none, d := .upTo 63, a := .reg,
      b := .zero, c := .zero, immMask := 0, auxMax := 7, litB := true, baseImm := fun _ => 0, extra := fun _ => true }
  | .opresTm =>
    { major := 0x30, funcs := [5], lens := [.ext], baseTy := fun _ => .none,
      tys := fun _ => [.f16, .bf16, .i8, .w8, .i4, .w4, .kx2, .kx4, .kx7], mod := .none, d := .upTo 63, a := .reg,
      b := .reg, c := .zero, immMask := 0, auxMax := 0, litB := true, baseImm := fun _ => 0, extra := fun _ => true }
  | .accget =>
    { major := 0x31, funcs := [0], lens := [.base, .ext], baseTy := fun _ => .none, tys := fun _ => [.none],
      mod := .none, d := .reg, a := .upTo 7, b := .upTo 31, c := .zero, immMask := 0x1F, auxMax := 7, litB := true,
      baseImm := fun _ => 0, extra := fun o => if o.len.isExt then o.a == 0 && o.b == 0 else true }
  | .accrel =>
    { major := 0x31, funcs := [1], lens := [.base, .ext], baseTy := fun _ => .none, tys := fun _ => [.none],
      mod := .none, d := .zero, a := .reg, b := .zero, c := .zero, immMask := 0, auxMax := 0, litB := true,
      baseImm := fun _ => 0, extra := fun _ => true }
  | .mma =>
    { major := 0x32, funcs := [0], lens := [.base, .ext], baseTy := fun _ => .none, tys := fun _ => [.none],
      mod := .none, d := .zero, a := .reg, b := .zero, c := .zero, immMask := 0xFFFFF, auxMax := 0, litB := true,
      baseImm := fun _ => 0, extra := fun _ => true }
  | .mmaSp =>
    { major := 0x32, funcs := [1], lens := [.base, .ext], baseTy := fun _ => .none, tys := fun _ => [.none],
      mod := .none, d := .zero, a := .reg, b := .zero, c := .zero, immMask := 0xFFFFF, auxMax := 0, litB := true,
      baseImm := fun _ => 0, extra := fun _ => true }
  | .smx =>
    { major := 0x33, funcs := [0], lens := [.base, .ext], baseTy := fun _ => .none, tys := fun _ => [.none],
      mod := .none, d := .zero, a := .reg, b := .zero, c := .zero, immMask := 0xFFFFF, auxMax := 0, litB := true,
      baseImm := fun _ => 0, extra := fun _ => true }
  | .accrd =>
    { major := 0x34, funcs := [0], lens := [.base, .ext], baseTy := fun _ => .none, tys := fun _ => [.none],
      mod := .timm, d := .reg, a := .reg, b := .reg, c := .zero, immMask := 0, auxMax := 7, litB := true,
      baseImm := fun _ => 0, extra := fun o => timmOk o.b o }
  | .accwr =>
    { major := 0x34, funcs := [1], lens := [.base, .ext], baseTy := fun _ => .none, tys := fun _ => [.none],
      mod := .timm, d := .reg, a := .reg, b := .reg, c := .zero, immMask := 0, auxMax := 7, litB := true,
      baseImm := fun _ => 0, extra := fun o => timmOk o.d o }
  | .accscale =>
    { major := 0x34, funcs := [2], lens := [.base, .baseLit, .ext, .extLit], baseTy := fun _ => .none,
      tys := fun _ => [.none], mod := .timm, d := .reg, a := .zero, b := .reg, c := .zero, immMask := 0, auxMax := 0,
      litB := true, baseImm := fun _ => 0, extra := fun o => timmOk o.d o }
  | .accscaleNorm =>
    { major := 0x34, funcs := [4], lens := [.ext], baseTy := fun _ => .none, tys := fun _ => [.none], mod := .timm,
      d := .reg, a := .zero, b := .zero, c := .zero, immMask := 0, auxMax := 0, litB := true, baseImm := fun _ => 0,
      extra := fun o => timmOk o.d o }
  | .accrdSide =>
    { major := 0x34, funcs := [5], lens := [.ext], baseTy := fun _ => .none, tys := fun _ => [.none], mod := .timm,
      d := .reg, a := .reg, b := .reg, c := .zero, immMask := 0, auxMax := 0, litB := true, baseImm := fun _ => 0,
      extra := fun o => timmOk o.b o }
  | .accwrSide =>
    { major := 0x34, funcs := [6], lens := [.ext], baseTy := fun _ => .none, tys := fun _ => [.none], mod := .timm,
      d := .reg, a := .reg, b := .reg, c := .zero, immMask := 0, auxMax := 0, litB := true, baseImm := fun _ => 0,
      extra := fun o => timmOk o.d o }
  | .accflush =>
    { major := 0x35, funcs := [0], lens := [.base, .ext], baseTy := fun _ => .none, tys := fun _ => [.none],
      mod := .timm, d := .reg, a := .zero, b := .upTo 31, c := .zero, immMask := 0, auxMax := 0, litB := true,
      baseImm := fun _ => 0, extra := fun o => timmOk o.d o }
  | .accflushSt =>
    { major := 0x35, funcs := [4], lens := [.ext], baseTy := fun _ => .none, tys := fun _ => [.none], mod := .timm,
      d := .reg, a := .zero, b := .upTo 31, c := .zero, immMask := 0, auxMax := 0, litB := true, baseImm := fun _ => 0,
      extra := fun o => timmOk o.d o }
  | .forgeRdy =>
    { major := 0x35, funcs := [1], lens := [.base, .ext], baseTy := fun _ => .none, tys := fun _ => [.none],
      mod := .none, d := .zero, a := .zero, b := .zero, c := .zero, immMask := 0, auxMax := 0, litB := true,
      baseImm := fun _ => 0, extra := fun _ => true }
  | .seamFam =>
    { major := 0x36, funcs := [0], lens := [.base, .baseLit, .ext, .extLit], baseTy := fun _ => .none,
      tys := fun _ => [.none], mod := .none, d := .upTo 7, a := .upTo 63, b := .reg, c := .zero, immMask := 0,
      auxMax := 0, litB := true, baseImm := fun _ => 0, extra := fun _ => true }
  | .seamHash =>
    { major := 0x36, funcs := [1], lens := [.base, .ext], baseTy := fun _ => .none, tys := fun _ => [.none],
      mod := .none, d := .zero, a := .reg, b := .zero, c := .zero, immMask := 0, auxMax := 0, litB := true,
      baseImm := fun _ => 0, extra := fun _ => true }
  | .seamProbe =>
    { major := 0x36, funcs := [2], lens := [.base, .ext], baseTy := fun _ => .none, tys := fun _ => [.none],
      mod := .none, d := .zero, a := .reg, b := .zero, c := .zero, immMask := 0, auxMax := 0, litB := true,
      baseImm := fun _ => 0, extra := fun _ => true }
  | .seamGather =>
    { major := 0x36, funcs := [3], lens := [.base, .ext], baseTy := fun _ => .none, tys := fun _ => [.none],
      mod := .none, d := .zero, a := .reg, b := .zero, c := .zero, immMask := 0, auxMax := 0, litB := true,
      baseImm := fun _ => 0, extra := fun _ => true }
  | .seamProbePre =>
    { major := 0x36, funcs := [4], lens := [.ext], baseTy := fun _ => .none, tys := fun _ => [.none], mod := .none,
      d := .zero, a := .reg, b := .zero, c := .zero, immMask := 0, auxMax := 0, litB := true, baseImm := fun _ => 0,
      extra := fun _ => true }
  | .seamIns =>
    { major := 0x37, funcs := [0], lens := [.base, .ext], baseTy := fun _ => .none, tys := fun _ => [.none],
      mod := .none, d := .reg, a := .reg, b := .reg, c := .reg, immMask := 0, auxMax := 0, litB := true,
      baseImm := fun _ => 0, extra := fun _ => true }
  | .seamDel =>
    { major := 0x37, funcs := [1], lens := [.base, .ext], baseTy := fun _ => .none, tys := fun _ => [.none],
      mod := .none, d := .reg, a := .reg, b := .reg, c := .reg, immMask := 0, auxMax := 0, litB := true,
      baseImm := fun _ => 0, extra := fun _ => true }
  | .seamRehash =>
    { major := 0x37, funcs := [2], lens := [.base, .baseLit, .ext, .extLit], baseTy := fun _ => .none,
      tys := fun _ => [.none], mod := .none, d := .zero, a := .reg, b := .reg, c := .zero, immMask := 0, auxMax := 0,
      litB := true, baseImm := fun _ => 0, extra := fun _ => true }
  | .seamFin =>
    { major := 0x37, funcs := [3], lens := [.base, .ext], baseTy := fun _ => .none, tys := fun _ => [.none],
      mod := .none, d := .zero, a := .reg, b := .zero, c := .zero, immMask := 0, auxMax := 0, litB := true,
      baseImm := fun _ => 0, extra := fun _ => true }
  | .seamVer =>
    { major := 0x37, funcs := [4], lens := [.ext], baseTy := fun _ => .none, tys := fun _ => [.none], mod := .none,
      d := .zero, a := .reg, b := .reg, c := .zero, immMask := 0xFF, auxMax := 0, litB := true, baseImm := fun _ => 0,
      extra := fun _ => true }
  | .seamFencePkg =>
    { major := 0x38, funcs := [0], lens := [.base, .ext], baseTy := fun _ => .none, tys := fun _ => [.none],
      mod := .none, d := .zero, a := .zero, b := .zero, c := .zero, immMask := 0, auxMax := 0, litB := true,
      baseImm := fun _ => 0, extra := fun _ => true }
  | .seamFencePod =>
    { major := 0x38, funcs := [1], lens := [.base, .ext], baseTy := fun _ => .none, tys := fun _ => [.none],
      mod := .none, d := .zero, a := .zero, b := .zero, c := .zero, immMask := 0, auxMax := 0, litB := true,
      baseImm := fun _ => 0, extra := fun _ => true }
  | .seamPub =>
    { major := 0x38, funcs := [2], lens := [.base, .ext], baseTy := fun _ => .none, tys := fun _ => [.none],
      mod := .none, d := .zero, a := .reg, b := .upTo 63, c := .zero, immMask := 0, auxMax := 0, litB := true,
      baseImm := fun _ => 0, extra := fun _ => true }
  | .nzscan =>
    { major := 0x38, funcs := [4], lens := [.ext, .extLit], baseTy := fun _ => .none,
      tys := fun _ => [.f32, .f16, .bf16, .i32, .w32], mod := .none, d := .reg, a := .reg, b := .reg, c := .zero,
      immMask := 0x3F, auxMax := 0, litB := true, baseImm := fun _ => 0, extra := fun _ => true }
  | .lodeCount =>
    { major := 0x39, funcs := [0], lens := [.base, .ext], baseTy := fun _ => .none, tys := fun _ => [.none],
      mod := .none, d := .reg, a := .reg, b := .zero, c := .zero, immMask := 0, auxMax := 0, litB := true,
      baseImm := fun _ => 0, extra := fun _ => true }
  | .lodeNext =>
    { major := 0x39, funcs := [4], lens := [.ext], baseTy := fun _ => .none, tys := fun _ => [.none], mod := .none,
      d := .reg, a := .reg, b := .reg, c := .reg, immMask := 0, auxMax := 7, litB := true, baseImm := fun _ => 0,
      extra := fun _ => true }
  | .lodeCopy =>
    { major := 0x3A, funcs := [0], lens := [.base, .ext], baseTy := fun _ => .none, tys := fun _ => [.none],
      mod := .none, d := .upTo 31, a := .reg, b := .zero, c := .zero, immMask := 0x7F, auxMax := 0, litB := true,
      baseImm := fun _ => 0, extra := fun _ => true }
  | .lodeGrow =>
    { major := 0x3A, funcs := [1], lens := [.base, .baseLit, .ext, .extLit], baseTy := fun _ => .none,
      tys := fun _ => [.none], mod := .none, d := .zero, a := .reg, b := .reg, c := .zero, immMask := 0, auxMax := 0,
      litB := true, baseImm := fun _ => 0, extra := fun _ => true }
  | .lodeTrim =>
    { major := 0x3A, funcs := [2], lens := [.base, .baseLit, .ext, .extLit], baseTy := fun _ => .none,
      tys := fun _ => [.none], mod := .none, d := .reg, a := .reg, b := .reg, c := .zero, immMask := 0, auxMax := 0,
      litB := true, baseImm := fun _ => 0, extra := fun _ => true }
  | .taskPost =>
    { major := 0x3B, funcs := [0], lens := [.baseLit, .extLit], baseTy := fun _ => .none, tys := fun _ => [.none],
      mod := .none, d := .zero, a := .upTo 7, b := .reg, c := .zero, immMask := 0, auxMax := 7, litB := false,
      baseImm := fun _ => 0, extra := fun o => if o.len.isExt then o.a == 0 else decide (o.a.toNat ≤ 7) }
  | .taskArm =>
    { major := 0x3B, funcs := [1], lens := [.baseLit, .extLit], baseTy := fun _ => .none, tys := fun _ => [.none],
      mod := .none, d := .upTo 255, a := .upTo 7, b := .reg, c := .zero, immMask := 0, auxMax := 7, litB := false,
      baseImm := fun _ => 0, extra := fun o => if o.len.isExt then o.a == 0 else decide (o.a.toNat ≤ 7) }
  | .post64 =>
    { major := 0x3B, funcs := [2], lens := [.base, .ext], baseTy := fun _ => .none, tys := fun _ => [.none],
      mod := .none, d := .reg, a := .reg, b := .reg, c := .zero, immMask := 0, auxMax := 0, litB := true,
      baseImm := fun _ => 0, extra := fun _ => true }
  | .winArm =>
    { major := 0x3B, funcs := [4], lens := [.ext, .extLit], baseTy := fun _ => .none, tys := fun _ => [.none],
      mod := .none, d := .upTo 255, a := .reg, b := .reg, c := .zero, immMask := 0x1F, auxMax := 0, litB := true,
      baseImm := fun _ => 0, extra := fun _ => true }
  | .cntInit =>
    { major := 0x3C, funcs := [0], lens := [.base, .baseLit, .ext, .extLit], baseTy := fun _ => .none,
      tys := fun _ => [.none], mod := .none, d := .upTo 255, a := .zero, b := .reg, c := .zero, immMask := 0,
      auxMax := 0, litB := true, baseImm := fun _ => 0, extra := fun _ => true }
  | .cntAdd =>
    { major := 0x3C, funcs := [1], lens := [.base, .baseLit, .ext, .extLit], baseTy := fun _ => .none,
      tys := fun _ => [.none], mod := .none, d := .upTo 255, a := .zero, b := .reg, c := .zero, immMask := 0,
      auxMax := 0, litB := true, baseImm := fun _ => 0, extra := fun _ => true }
  | .cntRd =>
    { major := 0x3C, funcs := [2], lens := [.base, .ext], baseTy := fun _ => .none, tys := fun _ => [.none],
      mod := .none, d := .reg, a := .upTo 255, b := .zero, c := .zero, immMask := 0, auxMax := 0, litB := true,
      baseImm := fun _ => 0, extra := fun _ => true }
  | .isync =>
    { major := 0x3D, funcs := [0], lens := [.base, .ext], baseTy := fun _ => .none, tys := fun _ => [.none],
      mod := .none, d := .zero, a := .zero, b := .zero, c := .zero, immMask := 0, auxMax := 0, litB := true,
      baseImm := fun _ => 0, extra := fun _ => true }
  | .sregR =>
    { major := 0x3D, funcs := [1], lens := [.base, .ext], baseTy := fun _ => .none, tys := fun _ => [.none],
      mod := .none, d := .reg, a := .upTo 511, b := .zero, c := .zero, immMask := 0, auxMax := 0, litB := true,
      baseImm := fun _ => 0, extra := fun _ => true }
  | .sregW =>
    { major := 0x3D, funcs := [2], lens := [.base, .baseLit, .ext, .extLit], baseTy := fun _ => .none,
      tys := fun _ => [.none], mod := .none, d := .upTo 511, a := .zero, b := .reg, c := .zero, immMask := 0,
      auxMax := 0, litB := true, baseImm := fun _ => 0, extra := fun _ => true }
  | .perfRd =>
    { major := 0x3D, funcs := [3], lens := [.base, .ext], baseTy := fun _ => .none, tys := fun _ => [.none],
      mod := .none, d := .reg, a := .upTo 511, b := .zero, c := .zero, immMask := 0, auxMax := 0, litB := true,
      baseImm := fun _ => 0, extra := fun _ => true }
  | .icinv =>
    { major := 0x3D, funcs := [4], lens := [.ext, .extLit], baseTy := fun _ => .none, tys := fun _ => [.none],
      mod := .none, d := .zero, a := .reg, b := .reg, c := .zero, immMask := 0, auxMax := 0, litB := true,
      baseImm := fun _ => 0, extra := fun _ => true }
  | .lamp =>
    { major := 0x3D, funcs := [5], lens := [.ext], baseTy := fun _ => .none, tys := fun _ => [.none], mod := .none,
      d := .zero, a := .zero, b := .reg, c := .zero, immMask := 0, auxMax := 0, litB := true, baseImm := fun _ => 0,
      extra := fun _ => true }
  | .trc =>
    { major := 0x3D, funcs := [6], lens := [.ext], baseTy := fun _ => .none, tys := fun _ => [.none], mod := .none,
      d := .zero, a := .reg, b := .zero, c := .zero, immMask := 0, auxMax := 0, litB := true, baseImm := fun _ => 0,
      extra := fun _ => true }
  | .tlbInv =>
    { major := 0x3D, funcs := [7], lens := [.ext, .extLit], baseTy := fun _ => .none, tys := fun _ => [.none],
      mod := .none, d := .zero, a := .reg, b := .reg, c := .zero, immMask := 0, auxMax := 0, litB := true,
      baseImm := fun _ => 0, extra := fun _ => true }
  | .tlbInvAll =>
    { major := 0x3D, funcs := [7], lens := [.ext, .extLit], baseTy := fun _ => .none, tys := fun _ => [.none], mod := .none,
      d := .zero, a := .zero, b := .zero, c := .zero, immMask := 0, auxMax := 1, litB := true, baseImm := fun _ => 0,
      extra := fun o => o.aux == 1 }
  | .ctxSave =>
    { major := 0x3D, funcs := [8], lens := [.ext], baseTy := fun _ => .none, tys := fun _ => [.none], mod := .none,
      d := .zero, a := .reg, b := .zero, c := .zero, immMask := 0, auxMax := 0, litB := true, baseImm := fun _ => 0,
      extra := fun _ => true }
  | .ctxLoad =>
    { major := 0x3D, funcs := [9], lens := [.ext], baseTy := fun _ => .none, tys := fun _ => [.none], mod := .none,
      d := .zero, a := .reg, b := .reg, c := .zero, immMask := 0, auxMax := 7, litB := true, baseImm := fun _ => 0,
      extra := fun _ => true }
  | .halt =>
    { major := 0x3D, funcs := [10], lens := [.ext], baseTy := fun _ => .none, tys := fun _ => [.none], mod := .none,
      d := .zero, a := .zero, b := .zero, c := .zero, immMask := 0, auxMax := 0, litB := true, baseImm := fun _ => 0,
      extra := fun _ => true }

/-- The check of an operand record against its row. -/
def Op.wf (k : Opc) (o : Op) : Bool :=
  let r := k.row
  let f := o.func.toNat
  !(o.g == 7 && o.neg) &&
  r.lens.contains o.len && r.funcs.contains f &&
  (o.len.hasLit || o.lit == 0) && (!(o.len.hasLit && r.litB) || o.b == 0) &&
  r.d.ok o.d && r.a.ok o.a && r.b.ok o.b && r.c.ok o.c &&
  r.mod.ok o && r.extra o &&
  (if o.len.isExt then
    (r.tys f).contains o.ty && (o.imm &&& ~~~r.immMask) == 0 && decide (o.aux.toNat ≤ r.auxMax)
  else
    decide (f ≤ 3) && o.ty == r.baseTy f && o.mod == r.mod.base f && o.imm == r.baseImm f && o.aux == k.baseAux &&
    decide (o.d.toNat < 64) && decide (o.a.toNat < 64) && decide (o.b.toNat < 64) && o.c == 0)

/-- An instruction that has an encoding. The package's own steps have none, and are never ill formed. -/
def Instr.wf (i : Instr) : Bool :=
  match i.opc? with
  | some (k, o) => o.wf k
  | none => true

end Sys2Proof
end

