-- ==== Sys2Proof/Decode.lean ====
section
/-! DEFINITION. From words to instructions and back (R302 to R309, R317). `decode` is total: it answers an
instruction, or says by name why there is none. `encode` is written from the same layouts. -/

namespace Sys2Proof

/-- Why a sequence of words is no instruction. -/
inductive Reject
  | short        -- the words end before the instruction does
  | unassigned   -- R317: no description assigns the encoding
  deriving DecidableEq, Repr

/-- MAJOR, bits [7:2] of the first word (R303). -/
def wordMajor (w : Word) : Nat := (w.extractLsb' 2 6).toNat

/-- LEN, bits [1:0] of the first word (R302). -/
def wordLen (w : Word) : Len := Len.ofCode (w.extractLsb' 0 2).toNat

/-- A 64-bit literal from its low and high words (R302). -/
def litOf (lo hi : Word) : DWord := hi ++ lo

/-- The fields of a base word (R303), with what the row implies for a base form filled in. -/
def rawBase (k : Opc) (w : Word) (lit : DWord) : Op :=
  let r := k.row
  let f := (w.extractLsb' 30 2).toNat
  { len := wordLen w, g := w.extractLsb' 8 3, neg := w.getLsbD 11, func := BitVec.ofNat 12 f,
    ty := r.baseTy f, mod := r.mod.base f,
    d := (w.extractLsb' 12 6).setWidth 9, a := (w.extractLsb' 18 6).setWidth 9, b := (w.extractLsb' 24 6).setWidth 9,
    c := 0, imm := r.baseImm f, aux := k.baseAux, lit := lit }

/-- The fields of an extended form's three words (R305); none for a reserved TYPE (R307). -/
def rawExt (w0 w1 w2 : Word) (lit : DWord) : Option Op :=
  (Ty.ofCode (w1.extractLsb' 27 5).toNat).map fun t =>
  { len := wordLen w0, g := w0.extractLsb' 8 3, neg := w0.getLsbD 11, func := w0.extractLsb' 12 12,
    ty := t, mod := w0.extractLsb' 24 8,
    d := w1.extractLsb' 0 9, a := w1.extractLsb' 9 9, b := w1.extractLsb' 18 9,
    c := w2.extractLsb' 0 9, imm := w2.extractLsb' 12 20, aux := w2.extractLsb' 9 3, lit := lit }

/-- The operand record that the words give for an operation, unless they end early or give a reserved type. -/
def rawOp (k : Opc) (ws : List Word) : Option Op :=
  match ws with
  | [] => none
  | w0 :: rest =>
    match wordLen w0, rest with
    | .base, _ => some (rawBase k w0 0)
    | .baseLit, lo :: hi :: _ => some (rawBase k w0 (litOf lo hi))
    | .ext, w1 :: w2 :: _ => rawExt w0 w1 w2 0
    | .extLit, w1 :: w2 :: lo :: hi :: _ => rawExt w0 w1 w2 (litOf lo hi)
    | _, _ => none

/-- The operation's reading of the words, if they are its encoding. -/
def decodeOp (ws : List Word) (k : Opc) : Option Instr :=
  match ws with
  | [] => none
  | w0 :: _ =>
    if wordMajor w0 = k.row.major then
      match rawOp k ws with
      | some o => if o.wf k then some (Instr.ofOpc k o) else none
      | none => none
    else none

/-- The `brk` record of a length class (R363): every field zero and GUARD 7. -/
def brkOp (l : Len) : Op :=
  { len := l, g := 7, neg := false, func := 3, ty := .none, mod := 0, d := 0, a := 0, b := 0, c := 0, imm := 0,
    aux := 0, lit := 0 }

/-- The four `brk` words (R363). What stands after them is ignored. -/
def brkOf (w : Word) : Option Instr :=
  if w = 0xC0000774 then some (.brk (brkOp .base))
  else if w = 0xC0000775 then some (.brk (brkOp .baseLit))
  else if w = 0x00003776 then some (.brk (brkOp .ext))
  else if w = 0x00003777 then some (.brk (brkOp .extLit))
  else none

/-- The clause header of a word of major 0x01 and LEN 0b00 (R309). -/
def headerOf (w : Word) : Option Instr :=
  if (w.extractLsb' 0 8) = 0x04 then
    some (.clauseHeader (w.extractLsb' 28 4) (w.extractLsb' 24 4) (w.extractLsb' 20 4) (w.extractLsb' 8 12))
  else none

/-- The operations of a major, in the order of the table. -/
def Opc.ofMajor (n : Nat) : List Opc :=
  match n with
  | 0x02 => [.add, .sub, .lea, .leaLabel]
  | 0x03 => [.mul, .mulh]
  | 0x04 => [.mad, .madw]
  | 0x05 => [.div, .rem]
  | 0x06 => [.abs, .min, .max]
  | 0x07 => [.and, .or, .xor, .andn, .not]
  | 0x08 => [.shl, .shr, .sar, .rol]
  | 0x09 => [.bfe, .bfi]
  | 0x0A => [.popc, .clz, .ctz, .brev]
  | 0x0B => [.perm, .sel]
  | 0x0C => [.cmp, .pset]
  | 0x0D => [.mov, .movSpecial, .movW64]
  | 0x0E => [.moviW32, .moviW64]
  | 0x0F => [.cvt]
  | 0x10 => [.fadd, .fsub]
  | 0x11 => [.fmul, .ffma]
  | 0x12 => [.fmin, .fmax]
  | 0x13 => [.fcmp, .fcls]
  | 0x14 => [.frcp, .frsq, .fsqrt]
  | 0x15 => [.fex2, .flg2]
  | 0x16 => [.frnd]
  | 0x17 => [.fcvt]
  | 0x18 => [.shfl]
  | 0x19 => [.voteAny, .voteAll, .voteBallot, .voteEq]
  | 0x1A => [.redux, .scan, .scanEx]
  | 0x1B => [.quant, .dequant]
  | 0x1C => [.bra, .brx, .call, .ret]
  | 0x1D => [.exit, .yield, .nop, .brk, .trap, .assert]
  | 0x1E => [.enrol, .join, .reform, .seal]
  | 0x1F => [.park]
  | 0x20 => [.ld]
  | 0x21 => [.st]
  | 0x22 => [.ldt, .stt]
  | 0x23 => [.ldd, .std]
  | 0x24 => [.ldc, .ldcPar, .pref]
  | 0x25 => [.spush, .spop]
  | 0x26 => [.xadd, .xmax, .xmin]
  | 0x27 => [.xswp, .xcas, .xbit]
  | 0x28 => [.fence]
  | 0x29 => [.tbar, .cbar]
  | 0x2A => [.txbInit, .txbArrive, .txbExpect, .txbWait]
  | 0x2B => [.tileDef, .tileSet, .tileState]
  | 0x2C => [.trec, .bstat, .bstatSeq]
  | 0x2D => [.bcopy, .bcopyMc]
  | 0x2E => [.bread, .bwrite]
  | 0x2F => [.bzero]
  | 0x30 => [.oprel, .opresFill, .opres, .opresTm]
  | 0x31 => [.accget, .accrel]
  | 0x32 => [.mma, .mmaSp]
  | 0x33 => [.smx]
  | 0x34 => [.accrd, .accwr, .accscale, .accscaleNorm, .accrdSide, .accwrSide]
  | 0x35 => [.accflush, .accflushSt, .forgeRdy]
  | 0x36 => [.seamFam, .seamHash, .seamProbe, .seamGather, .seamProbePre]
  | 0x37 => [.seamIns, .seamDel, .seamRehash, .seamFin, .seamVer]
  | 0x38 => [.seamFencePkg, .seamFencePod, .seamPub, .nzscan]
  | 0x39 => [.lodeCount, .lodeNext]
  | 0x3A => [.lodeCopy, .lodeGrow, .lodeTrim]
  | 0x3B => [.taskPost, .taskArm, .post64, .winArm]
  | 0x3C => [.cntInit, .cntAdd, .cntRd]
  | 0x3D => [.isync, .sregR, .sregW, .perfRd, .icinv, .lamp, .trc, .tlbInv, .tlbInvAll, .ctxSave, .ctxLoad, .halt]
  | _ => []

/-- Every operation but `brk`, whose words are recognised by themselves. -/
def decodeOps (ws : List Word) : List Opc → Option Instr
  | [] => none
  | k :: ks => if k = .brk then decodeOps ws ks else (decodeOp ws k).or (decodeOps ws ks)

/-- The instruction at the head of a list of words. -/
def decode (ws : List Word) : Except Reject Instr :=
  match ws with
  | [] => .error .short
  | w0 :: _ =>
    match headerOf w0 with
    | some i => .ok i
    | none =>
      match brkOf w0 with
      | some i => .ok i
      | none =>
        match decodeOps ws (Opc.ofMajor (wordMajor w0)) with
        | some i => .ok i
        | none => if ws.length * 4 < (wordLen w0).bytes then .error .short else .error .unassigned

/-- The length in bytes of a word as the first of an instruction (R302). -/
def firstWordBytes (w : Word) : Nat := (wordLen w).bytes

/-- Four bytes, the lowest address first (R2). -/
def wordOfBytes (b0 b1 b2 b3 : Byte) : Word := b3 ++ b2 ++ b1 ++ b0

/-- Words of a byte sequence in address order; a last part shorter than a word is left out. -/
def wordsOfBytes : List Byte → List Word
  | b0 :: b1 :: b2 :: b3 :: rest => wordOfBytes b0 b1 b2 b3 :: wordsOfBytes rest
  | _ => []

/-- The little-endian bytes of a word (R2). -/
def bytesOfWord (w : Word) : List Byte :=
  [w.extractLsb' 0 8, w.extractLsb' 8 8, w.extractLsb' 16 8, w.extractLsb' 24 8]

/-- The instruction at the head of a byte sequence. -/
def decodeBytes (bs : List Byte) : Except Reject Instr := decode (wordsOfBytes bs)

/-- The base word of an operand record (R303). -/
def encodeBase (r : Row) (o : Op) : Word :=
  (o.func.extractLsb' 0 2 ++ o.b.extractLsb' 0 6 ++ o.a.extractLsb' 0 6 ++ o.d.extractLsb' 0 6 ++
    BitVec.ofBool o.neg ++ o.g ++ BitVec.ofNat 6 r.major ++ BitVec.ofNat 2 o.len.code : BitVec 32)

/-- The three words of an extended form (R305). -/
def encodeExt (r : Row) (o : Op) : List Word :=
  [(o.mod ++ o.func ++ BitVec.ofBool o.neg ++ o.g ++ BitVec.ofNat 6 r.major ++ BitVec.ofNat 2 o.len.code : BitVec 32),
   (BitVec.ofNat 5 o.ty.code ++ o.b ++ o.a ++ o.d : BitVec 32),
   (o.imm ++ o.aux ++ o.c : BitVec 32)]

/-- The two literal words (R302). -/
def encodeLit (o : Op) : List Word := [o.lit.extractLsb' 0 32, o.lit.extractLsb' 32 32]

/-- The words of an operand record under its row. -/
def encodeOp (r : Row) (o : Op) : List Word :=
  match o.len with
  | .base => [encodeBase r o]
  | .baseLit => encodeBase r o :: encodeLit o
  | .ext => encodeExt r o
  | .extLit => encodeExt r o ++ encodeLit o

/-- The words of an instruction; the package's own steps have none. -/
def encode (i : Instr) : List Word :=
  match i.opc? with
  | some (k, o) => encodeOp k.row o
  | none =>
    match i with
    | .clauseHeader n t s w => [(n ++ t ++ s ++ w ++ (0x04 : BitVec 8) : BitVec 32)]
    | _ => []

/-- The bytes of an instruction in address order. -/
def encodeBytes (i : Instr) : List Byte := (encode i).flatMap bytesOfWord

/-- The first `k` words of a number whose bit 0 is the least significant bit of the first word. -/
def tableWords (w : Nat) : Nat → List Word
  | 0 => []
  | k + 1 => BitVec.ofNat 32 w :: tableWords (w / 2 ^ 32) k

/-- The bytes that an opcode-table word stands for: its `nbits` bits, and zeros up to the longest instruction. -/
def tableBytes (nbits w : Nat) : List Byte := (tableWords (w % 2 ^ nbits) 5).flatMap bytesOfWord

/-- What the decoder reads from an opcode-table word. -/
def decodeTableWord (nbits w : Nat) : Option Instr :=
  match decodeBytes (tableBytes nbits w) with
  | .ok i => some i
  | .error _ => none

end Sys2Proof
end

