-- ==== Sys2Proof/Config.lean ====
section
/-! DEFINITION. What the package fixes, and the free values: constants without a body, which nothing in Lean can
evaluate. A statement about one holds whatever it is. -/

namespace Sys2Proof.Config

/-- The time unit of the model is 10 ns / 232,792,560, so that a core cycle at every clock of R24 (1.2 to 2.1 GHz in
steps of 100 MHz), a fabric cycle (R4) and a nanosecond are all whole numbers of units. -/
def unitsPer10ns : Nat := 232792560

/-- Units in a nanosecond. DEDUCED (log entry 62). -/
def unitsPerNs : Nat := 23279256

/-- Units in a fabric cycle of 0.625 ns (R4). -/
def unitsPerFabricCycle : Nat := 14549535

/-- Units in a core cycle at a clock of `k` × 100 MHz (R24). -/
def unitsPerCoreCycle (k : Nat) : Nat := unitsPer10ns / k

/-- A free byte, fresh for each value of the counter. DESIGN CHOICE (log entry 3). -/
opaque freeByte : Nat → Byte
/-- A free choice between two outcomes that the spec allows, fresh for each value of the counter.
DESIGN CHOICE (log entry 3). -/
opaque freeBit : Nat → Bool

/-- How many lines a core's L1 holds: the spec gives no number. DESIGN CHOICE (log entry 11). -/
opaque l1Lines : Nat

/-- How many lines of 256 bytes the 3 MiB of L2 of a home slice hold (R13). -/
def sliceLines : Nat := 12288

/-- A byte of a section of a saved image, by the section's offset, what the section holds, and the byte's number: the spec lists what
each section holds and lays out few of them (R283). DESIGN CHOICE (log entry 39). -/
opaque imageByte : Nat → List Nat → Nat → Byte

/-- Which of the eight pseudo-channels that its home slice serves holds a line, by the line's number: the spec gives no
map (R14). DESIGN CHOICE (log entry 11). -/
opaque lineChannel : Nat → Nat

/-- SHAKE256 of a byte string (R39, R41): the spec names the function and gives no definition of it.
DESIGN CHOICE (log entry 12). -/
opaque shake256 : List Byte → List Byte
/-- Whether the Falcon-1024 signature carried in an image verifies over its hash with a key that matches the fused
hash (R39). DESIGN CHOICE (log entries 7, 12). -/
opaque imageSignatureGood : List Byte → Bool
/-- The security version that an image carries (R39). DESIGN CHOICE (log entries 7, 12). -/
opaque imageVersion : List Byte → Nat
/-- A Falcon-1024 signature by the device identity key over a byte string (R38, R41).
DESIGN CHOICE (log entries 12, 56). -/
opaque deviceSign : List Byte → List Byte
/-- The device's certificate chain (R38). DESIGN CHOICE (log entry 12). -/
opaque certificateChain : List Byte
/-- The measured boot ROM, onsetter microcode and fused configuration, as bytes (R41). DESIGN CHOICE (log entry 12). -/
opaque bootRom : List Byte
/-- DESIGN CHOICE (log entry 12). -/
opaque onsetterMicrocode : List Byte
/-- DESIGN CHOICE (log entry 12). -/
opaque fusedConfiguration : Nat → List Byte

end Sys2Proof.Config
end

