-- ==== Sys2Proof/Machine/State.lean ====
section
/-! DEFINITION. The state of the package as plain data, the reasons a step can stop, and the state after reset. -/

namespace Sys2Proof.Machine

/-- A sparse table: an index that is not listed holds the default that its reader names. -/
abbrev Tab (α : Type) := List (Nat × α)

/-- A byte store in canonical form (see `Mem.wf`): an unlisted address reads as zero. -/
abbrev Mem := List Host.Cell

/-- The fault classes of R273. PAGE_PERM stands twice: `pageForm` is that of an address's form, `pagePerm` that of its
translation (R272). -/
inductive Cls
  | brk | illegalOp | regRange | sealIllegal | stateIllegal | divZero | misalign | pageForm | pageAbsent | pagePerm | classWidth
  | seamBadTable | lodeExhausted | eccFatal | assertion | fabricTimeout | copyRingFault | forcedReset | pagesRetired
  | unitFenced
  deriving DecidableEq, Repr

/-- What a driver does with a record (R277). -/
inductive Action | retry | skip | kill
  deriving DecidableEq, Repr

/-- The three kinds of thread. -/
inductive Kind | birth | task | ember
  deriving DecidableEq, Repr

/-- The burst registers of an ember (R159), with the command it was born of. -/
structure Ember where
  bx : Word
  bY : Word
  bz : Word
  bseq : Word
  bcount : Word
  blen : Word
  barg : Word
  core : Nat
  cmd : Nat
  deriving DecidableEq, Repr

/-- What a thread keeps of a finished `bread` or abandoned command for `bstat` (R381). -/
structure Kept where
  id : Nat                   -- the command's name, which rises with its issue
  seq : Word
  nfail : Nat
  lowfail : Word
  abandoned : Bool
  deriving DecidableEq, Repr

/-- A thread (R134). `uid` is the model's own name for it. -/
structure Thread where
  uid : Nat
  core : Nat
  slot : Nat
  team : Nat
  kind : Kind
  tid : Nat
  ember : Option Ember
  n : Nat                    -- register count (R134)
  regs : List Word           -- v0 to v(n-1)
  preds : List Bool          -- p0 to p6
  joins : List (Option Nat)  -- j0 to j7: an enrolment, or empty
  flags : List Nat           -- f0 to f11: how many incomplete instructions hold the flag set (R311)
  depth : Nat                -- spill depth in words (R170)
  cmdseq : Word              -- next command sequence number (R276)
  keptRead : Option Kept     -- the latest `bread` (R381)
  keptDrop : Option Kept     -- the latest abandoned command (R381)
  holds : Nat                -- incomplete fences and waits that hold the thread's later accesses (R376, R377, R378, R432)
  acct : Nat                 -- incomplete `accget` of the thread, 0 or 1 (R402)
  rdy : Nat                  -- incomplete `forge.rdy` (R417)
  tbar : Option (Option Nat) -- arrived at the team barrier and not departed, with the flag of the `tbar` (R377)
  cbar : Option (Option Nat) -- likewise for the cluster barrier
  rdyAt : Nat := 0           -- the turn of its latest `forge.rdy` (R246, R417)
  seen : Nat := 0            -- the moment of its latest clause that waited on flags, as a name of the model (R246)
  synced : Nat               -- the moment of its latest `isync` or birth, as a name of the model (R250, R451)
  accessed : Nat := 0        -- the moment of its latest access, as a name of the model (R237)
  saw : List Nat := []       -- stores of its core that it has read in L1 and their homes have not performed (R239)
  leaving : Bool             -- killed, or of a halted team: it is to exit (R278, R458)
  lit : Option DWord         -- the literal of the instruction being issued, where the thread's launch patches it (R324)
  deriving DecidableEq, Repr

/-- The clause a group runs: what one fetch delivered of it (R250, R309, R315). -/
structure Clause where
  set1 : Nat
  set2 : Nat
  left : Nat                 -- instructions still to issue
  long : Bool                -- a long-latency instruction has issued (R311)
  words : List Word          -- the stored words from the instruction at the group's pc on
  deriving DecidableEq, Repr

/-- Why a group does not issue. -/
inductive Wait
  | none                                       -- it issues when R139 lets it
  | header (mask : Nat)                        -- its header is judged and it waits on the flags of this mask (R310)
  | join (k : Nat)                             -- R148
  | seal                                       -- R150
  | park (lines : List PAddr) (deadline : Nat) (pd : Nat) (ids : List Nat) (hit : Bool)
    -- R153: lines, clock cycle, predicate, executing threads; a watched line has been written
  | lode                                       -- until every lane's walker has performed or refused its access (R223)
  | exit                                       -- its threads exit once their fabric requests have replies (R278, R458)
  | fault (stop : Nat)                         -- R269
  deriving DecidableEq, Repr

/-- A group (R137). `members` lists its threads in position order. Groups of one `fam` are subgroups of one group. -/
structure Group where
  gid : Nat
  core : Nat
  ctx : Nat
  fam : Nat
  members : List Nat
  pc : DWord
  clause : Option Clause
  isSealed : Bool
  formed : Nat               -- formation cycle (R139)
  ready : Nat                -- cycle since which it has been ready and not issued (R139)
  aged : Bool                -- treated as class 3 (R139)
  wait : Wait
  bpSkip : Option DWord      -- an address at which a breakpoint is not matched the first time (R278)
  redo : Option (List Nat)   -- the lanes that a resumed store still has to execute (R223)
  byLane : Bool := false     -- its positions equal its threads' `$lane`: formed at birth or by `seal` (R138, R150)
  deriving DecidableEq, Repr

/-- An enrolment (R147). `around` is the group that enrolled; `foreign` says that another thread has since joined it. -/
structure Enrolment where
  eid : Nat
  members : List Nat
  around : List Nat
  fam : Nat
  wasSealed : Bool
  foreign : Bool
  deriving DecidableEq, Repr

/-- A filed thread (R141 to R143): the key is the entry address and the context. -/
structure Filed where
  uid : Nat
  key : DWord
  ctx : Nat
  at_ : Nat                  -- the cycle of its filing
  deriving DecidableEq, Repr

/-- A bin (R142). -/
structure Bin where
  key : DWord
  ctx : Nat
  since : Nat
  threads : List Nat         -- in filing order
  deriving DecidableEq, Repr

/-- A posted task waiting in the pool (R118). -/
structure Task where
  team : Nat
  entry : DWord
  record : List Word
  posted : Nat
  deriving DecidableEq, Repr

/-- An entry of the arming table (R444). -/
structure Arm where
  counter : Nat
  team : Nat
  entry : DWord
  addr : Nat                 -- team-memory address of the record on the core
  due : Bool                 -- its counter has reached zero, and it waits for a free pool record (R118)
  deriving DecidableEq, Repr

/-- A receive window (R447). The range is the pages that the arming translated. -/
structure Window where
  index : Nat
  counter : Nat
  ranges : List (PAddr × Nat)
  len : Nat
  count : Nat
  reload : Bool
  deriving DecidableEq, Repr

/-- A hash-family register (R192): the tile entry and the generation of its reservation. -/
structure Family where
  idx : Nat
  gen : Nat
  p : Nat
  d : Nat
  deriving DecidableEq, Repr

/-- A tensor record as its checks leave it (R183). -/
structure TRec where
  base : Nat
  rd : Nat
  rank : Nat
  es : Nat
  ext : List Nat
  str : List Int
  deriving DecidableEq, Repr

/-- What a bulk command does with each element. -/
inductive CmdOp
  | toLocal (loc : PAddr)                        -- bcopy in, raw or converting
  | fromLocal (loc : PAddr)                      -- bcopy out
  | toRec (dst : TRec)                           -- bcopy gg
  | multicast (dsts : List (PAddr × Option PAddr × Nat))  -- bcopy.mc: landing place, gate barrier, team
  | bread (handler : DWord) (barg : Word) (burst : Nat) (vbase target kind : Nat)
  | bwrite (loc : PAddr) (burst : Nat) (vbase target kind : Nat)
    -- burst length, and the window's VBASE, TARGET and KIND (R21)
  | bzero
  | fill (row : Nat)                             -- opres.S.fill
  | lode (region : DWord) (orig ext : List Nat) (loc : Option PAddr)
    -- lode.copy: an address of the region, box, and the place of the tile it fills
  deriving DecidableEq, Repr

/-- A bulk command in a copy queue (R180). -/
structure Cmd where
  id : Nat
  ctx : Nat
  core : Nat
  team : Nat
  uid : Nat                  -- issuing thread
  slot : Nat
  pc : DWord                 -- with `seq`, its two-level name (R276)
  seq : Word
  op : CmdOp
  record : TRec
  srcTy : Ty                 -- none for raw
  dstTy : Ty
  n : Nat                    -- elements (bursts for `bread` and `bwrite`)
  todo : List (Nat × Nat)    -- ranges of elements still to land: first, count
  barrier : Option PAddr     -- transaction barrier it signals (R187)
  tile : Option (Nat × Nat)  -- tile entry it fills (R185), and the entry's generation
  counter : Option Nat       -- dependence counter of a `bread`
  flag : Option Nat          -- the flag it holds set
  live : Nat                 -- embers of it that live
  nfail : Nat
  lowfail : Word
  localDone : Bool
  globalDone : Bool
  began : Bool
  ring : Option Nat          -- its slot in the ring, beyond the 64 on-chip entries (R182)
  halted : Option Nat        -- the stop of a faulting page (R181)
  upTo : Nat                 -- while halted: the first element of that page
  abandoned : Bool
  tbytes : Nat               -- bytes that count for the tile, for 16 elements
  limit : Option Nat         -- of a bank window's command, the time at which its requests to the host time out (R103)
  lines : List (PAddr × List Byte × List Nat) := []
    -- lines that a multicast has fetched, each once, with the offsets of their poisoned bytes (R68)
  inRing : Bool := true      -- its ring entry, if it has one, has been written (R182)
  deriving DecidableEq, Repr

/-- A delivered burst waiting to be born (R160). -/
structure Burst where
  cmd : Nat
  team : Nat
  entry : DWord
  info : Ember
  bytes : List Byte
  deriving DecidableEq, Repr

/-- An L1 line (R177, R179): its package line address, its bytes, its re-reference value, and the moment, as a name of the model,
at which its home gave it. -/
structure L1Line where
  line : Nat
  bytes : List Byte
  rrv : Nat
  moment : Nat
  deriving DecidableEq, Repr

/-- A line that a home slice holds (R178, R179): its address and its re-reference value. Its bytes are those of memory. -/
structure HomeLine where
  at_ : PAddr
  rrv : Nat
  deriving DecidableEq, Repr

/-- What one core holds beside its threads. Default: a free core (R107). -/
structure CoreSt where
  binage : Nat := 256
  mcbase : Nat := 0
  mcgate : Word := 0
  counters : Tab Word := []
  arms : List Arm := []
  windows : List Window := []
  pool : List Task := []
  staging : List Burst := []
  slots : Tab (List Byte) := []
  fams : Tab Family := []
  perf : Tab DWord := []
  bins : List Bin := []
  overflow : List Filed := []  -- in the order of their filing (R143)
  filing : List Filed := []    -- threads filed in this cycle, which enter bins at its end, in slot order (R142)
  copyq : List Cmd := []
  ringStop : Option Nat := none
  l1 : List L1Line := []
  lastVector : List Nat := []  -- the threads of the group that issued latest on the vector pipe, since the latest sample (R294)
  code : List (List (PAddr × Nat) × Nat × List Word) := []
    -- clauses that a fetch may still return: the pieces of their bytes, page by page, the moment, the words (R250)
  consts : List (PAddr × Nat × List Byte) := []  -- lines that the instruction cache holds for `ldc`, with the moment of each (R372)
  icache : List (PAddr × Nat) := []            -- clauses that the instruction cache holds: place and bytes (R451)
  deriving DecidableEq, Repr

/-- The state of a tile (R184, R185). -/
inductive TileState | empty | filling | ready | draining
  deriving DecidableEq, Repr

/-- The reservation record of R395. -/
structure ResRec where
  fmt : Ty
  rows : Nat
  rowlen : Nat
  deriving DecidableEq, Repr

/-- A defined tile-table entry (R184). `gen` numbers the definition, `readers` the consumers whose reads are not done. -/
structure Tile where
  state : TileState
  hold : Bool
  opbuf : Bool
  core : Nat
  pend : Nat
  base : Nat
  len : Nat
  team : Nat
  gen : Nat
  res : Option ResRec
  readers : List Nat
  fillStart : Option Nat     -- nanoseconds: issue of the earliest fill, and the landing of the last byte (R291)
  fillEnd : Option Nat
  deriving DecidableEq, Repr

/-- A held accumulator tile (R401), with what its lamp record needs (R291). Unlisted elements and sums are +0, unlisted
maxima are −∞. -/
structure Acc where
  team : Nat
  uid : Nat
  core : Nat
  elems : Tab Word
  maxs : Tab Word
  sums : Tab Word
  going : Bool               -- an `accrel` of it has issued (R403)
  lastPc : DWord
  lastSeq : Word
  passes : Nat
  since : Nat                -- nanosecond of the grant (R291)
  prev : Tab Word            -- the elements before the latest forge write, which an `accrd` may still return (R246)
  wrote : Nat                -- the moment of that write, as a name of the model
  direct : Tab Word          -- elements written directly while a forge instruction on the tile is incomplete: their values before (R415)
  events : Tab Nat           -- event i of R291, in nanoseconds since reset
  deriving DecidableEq, Repr

/-- What a forge entry does. -/
inductive ForgeOp
  | mma (m n k koff acc aidx bidx midx arow brow : Nat) (mrel brel arel zero sparse one4 : Bool)
  | smx (m n : Nat) (scale : Word) (sacc oacc pidx prow : Nat)
  | flush (acc : Nat) (record : TRec) (add : Bool)
  | hash (xidx xrow nvec : Nat) (out : PAddr) (cur : Family) (next : Option Family) (dim : Nat) (xrel : Bool)
  deriving DecidableEq, Repr

/-- An entry of a forge reservation table (R128). -/
structure Entry where
  id : Nat
  core : Nat
  ctx : Nat
  team : Nat
  uid : Nat
  slot : Nat
  prio : Nat
  posted : Nat               -- posting cycle
  pc : DWord
  seq : Word
  flag : Option Nat
  op : ForgeOp
  counter : Option Nat
  passes : Nat               -- passes left
  started : Bool
  eff : Nat                  -- effective class (R129)
  idle : Nat                 -- cycle since which it waits eligible and not granted
  opWait : Bool              -- an operand tile was not ready at its posting
  readyAt : Option Nat       -- nanosecond at which such an entry found its operand tiles ready (R291)
  rdyAt : Nat                -- `forge.rdy` of the thread at its posting, and the turn of the posting (R246, R409)
  turn : Nat
  part : List Word           -- the sums of an `mma` after its passes so far, row by row
  halted : Option Nat
  flushed : Nat              -- elements of a flush already performed (R416)
  deriving DecidableEq, Repr

/-- A waiting `accget` (R162). -/
structure Waiter where
  uid : Nat
  gid : Nat
  core : Nat
  team : Nat
  launchSeq : Nat
  posted : Nat
  slot : Nat
  want : Nat
  dreg : Nat
  pd : Nat
  flag : Option Nat
  deriving DecidableEq, Repr

/-- A pending `accrel` (R403) or `oprel` (R400): what it still waits for is judged from the quad's entries. -/
inductive Release
  | acc (uid : Nat) (team : Nat) (mask : Word) (flag : Option Nat) (before : List Nat)
  | opres (uid : Nat) (team : Nat) (idx : Nat) (flag : Option Nat) (before : List Nat)
  deriving DecidableEq, Repr

/-- A table as a seam instruction read it at issue: its descriptor's address and 256 bytes (R196). -/
structure TableRef where
  desc : DWord
  bytes : List Byte
  deriving DecidableEq, Repr

/-- One table of a probe with its code record (R427). -/
structure ProbeTab where
  table : TableRef
  code : Nat
  oldc : Nat
  deriving DecidableEq, Repr

/-- One lane of `seam.ins` or `seam.del` (R430). -/
structure SeamLane where
  uid : Nat
  table : TableRef
  code : Nat
  oldc : Nat
  id : Nat
  dreg : Nat
  deriving DecidableEq, Repr

/-- What a seam queue entry does (R421). -/
inductive SeamOp
  | probe (tabs : List ProbeTab) (multi : Bool) (oidx : Nat)
  | pre (tabs : List ProbeTab) (multi : Bool)
  | gather (table : TableRef) (lidx ridx rrow : Nat) (lrel : Bool)
  | ins (lanes : List SeamLane)
  | del (lanes : List SeamLane)
  | rehash (table : TableRef) (first count : Nat)
  | ver
  | fin (table : TableRef)
  | publish (table : TableRef) (idx : Nat)
  deriving DecidableEq, Repr

/-- A seam queue entry. -/
structure SeamEntry where
  id : Nat
  core : Nat
  ctx : Nat
  team : Nat
  uids : List Nat            -- threads whose flag it holds set
  slot : Nat
  pc : DWord
  seq : Word
  flag : Option Nat
  op : SeamOp
  counter : Option Nat
  halted : Option Nat
  began : Bool               -- it has consumed its tile and begun its work
  done : Nat                 -- acts already performed
  kept : List Nat            -- ids that a probe has found, the status of each lane performed, the words of a row under way
  trunc : Bool
  deriving DecidableEq, Repr

/-- What one quad holds. Default: a free quad (R107). -/
structure QuadSt where
  tiles : Tab Tile := []
  accs : Tab Acc := []
  entries : List Entry := []
  waiters : List Waiter := []
  releases : List Release := []
  seams : List SeamEntry := []
  pass : Option (Nat × Nat) := none        -- the entry whose pass runs, and the cycle at which it ends (R408)
  rowCache : List (Nat × DWord × Nat × Nat) := []  -- die partition, table, id and GEN of the rows it caches (R210)
  deriving DecidableEq, Repr

/-- The keys of R53, and the operations that never merge. -/
inductive ReqOp
  | load (bytes : Nat)
  | add (ty : Ty)            -- w32, w64 or f32
  | max (ty : Ty)
  | min (ty : Ty)
  | swap (bytes : Nat)
  | cas (bytes : Nat) (new : DWord)
  | bit (op : Nat) (bytes : Nat)
  | store (bytes : Nat)
  deriving DecidableEq, Repr

/-- What the shaft die does with the reply of its own request (R471). -/
inductive ShaftAct
  | claim (launch : Nat)
  | sigaddr (pkt : Nat)
  | signal (pkt : Nat)
  | marker (pkt : Nat) (second : Bool)
  | result (pkt : Nat)
  | fenceRead (pkt : Nat) (entry : Nat)
  | dim (ctx q word : Nat)   -- a word at DIMADDR (R89)
  | apRead (fn : Nat)        -- an access through a function's aperture (R79)
  | apWrite (fn : Nat)
  deriving DecidableEq, Repr

/-- Who waits for a reply. -/
inductive Owner
  | thread (uid : Nat)
  | shaft (act : ShaftAct)
  | remote (pkg : Nat)       -- a request of another member of the pod
  | pref                     -- none: the line of a `pref` (R372)
  deriving DecidableEq, Repr

/-- Where a reply goes next: to the request's owner, or to a sump entry (R57). -/
inductive Back | owner (req : Nat) | entry (e : Nat)
  deriving DecidableEq, Repr

/-- A request on its way to its home (R45). -/
structure Req where
  ctx : Nat
  addr : PAddr
  op : ReqOp
  opnd : DWord
  rank : Nat                 -- its rank at the stage it stands at (R56)
  port : Nat                 -- the input port it arrived on
  back : Back
  threads : List Nat         -- the threads whose requests it carries
  ready : Nat                -- the time before which it does not leave the queue it stands in (R54)
  plain : Bool := false      -- it passes every stage unmerged, whatever its operation (R53, R372)
  rd : Nat := 1              -- the value with which its home slice inserts the line (R179)
  flit : Nat := 0            -- the flit that carries it to another member
  bad : Bool := false        -- that flit was re-sent with uncorrectable data (R32)
  passed : Bool := false     -- a later request to its word has left the queue in which it waits, so that none merges with it (R55)
  turn : Nat := 0            -- the turn of the instruction that issued it (R54)
  deriving DecidableEq, Repr

/-- A thread's or the shaft die's request until its reply is delivered. -/
structure Pending where
  id : Nat
  owner : Owner
  core : Nat
  slot : Nat
  dreg : Option Nat          -- destination register
  ty : Ty
  flag : Option Nat
  pc : DWord
  seq : Word
  va : DWord
  at_ : PAddr
  op : ReqOp
  bytes : List (PAddr × List Byte)
    -- a store's bytes; for a load whose home has performed it, the core's stores since, which its L1 line is to hold
  deadline : Option Nat      -- once it has left the collar: the time at which it takes FABRIC_TIMEOUT (R69, R35)
  alloc : Option Nat         -- insertion value of the L1 line that its reply allocates (R179)
  acquire : Bool             -- an acquire, which holds the thread's later accesses until its reply
  empties : Bool             -- one at `.cl` or wider, which empties L1 (R177)
  done : Bool                -- its register is no longer to be written (the thread exited)
  applied : Bool := false    -- its home has performed it
  moment : Nat := 0          -- of a load that its home has performed: the moment of the line it is to bring, as a name of the model
  newer : Option (List Byte × List Nat) := none
    -- that line as a later read or act of its core found it, with the offsets of its poisoned bytes (R32, R177, R234)
  const : Bool := false      -- an `ldc`, whose line the instruction cache takes (R372)
  deriving DecidableEq, Repr

/-- A sump entry (R57): the parts in serial order, each with its forwarded operand. -/
structure Sump where
  id : Nat
  stage : StageId
  op : ReqOp
  parts : List (Back × DWord × Nat)   -- reply target, operand, rank
  since : Nat
  bad : Bool                 -- its contents proved uncorrectable (R70)
  deriving DecidableEq, Repr

/-- A reply travelling back. -/
structure Reply where
  to_ : Back
  value : DWord
  line : List Byte           -- the line as the home held it, for the L1s that allocate it
  spoilt : List Nat := []    -- the offsets of its poisoned bytes (R32)
  fatal : Bool               -- R70
  moment : Nat := 0          -- when its home performed the request, as a name of the model
  deriving DecidableEq, Repr

/-- A deferred fault that has not been taken (R270). -/
structure Deferred where
  uid : Nat
  cls : Cls
  va : DWord
  pc : DWord
  seq : Word
  flag : Option Nat
  deriving DecidableEq, Repr

/-- A flit in a port's replay buffer (R65): its number, the package it goes to, how often it has been re-sent without
acknowledgement (R67), and whether its data in the buffer is uncorrectable (R31). -/
structure Flit where
  id : Nat
  pkg : Nat
  resent : Nat := 0
  bad : Bool := false
  deriving DecidableEq, Repr

/-- A bulk write that a replay buffer has captured and its home, another member, has not performed (R66). `owner` names the
command. -/
structure Bulk where
  ctx : Nat
  core : Nat
  owner : Nat
  at_ : PAddr
  bytes : List Byte
  flit : Nat := 0            -- the flit that carries it
  bad : Bool := false        -- that flit was re-sent with uncorrectable data (R32)
  deriving DecidableEq, Repr

/-- The fabric's moving parts. -/
structure Fabric where
  arrivals : List (StageId × Req) := []
  queues : List (StageId × Req) := []      -- in order of entry
  sumps : List Sump := []
  homes : List (Nat × Req) := []           -- requests that left the downcast, by slice
  remote : List (Nat × Req) := []          -- requests that left for another member
  replies : List Reply := []
  pending : List Pending := []
  deferred : List Deferred := []
  downPorts : Nat := 0                     -- bit k: port k is out of service
  farPorts : List (Nat × Nat) := []        -- a port of another member that is out of service: package, port (R46)
  bulk : List Bulk := []                   -- captured bulk writes, oldest first (R66)
  bufHeld : Tab (List Flit) := []          -- replay buffer of a port: the flits not acknowledged
  retrains : Tab (List Nat) := []          -- times of a port's retrains
  deriving DecidableEq, Repr

/-- An instruction that has issued and waits for a condition. -/
inductive Late
  | fence (uid : Nat) (flag : Option Nat) (reqs : List Nat) (empties : Option Nat)  -- and the core whose L1 it empties
  | rdy (uid : Nat) (flag : Option Nat) (reqs : List Nat)  -- `forge.rdy` (R417)
  | txbWait (uid : Nat) (flag : Option Nat) (loc : PAddr) (epoch : Nat)
  | seamFence (uid : Nat) (flag : Option Nat) (entries : List Nat)
  | tlbInv (uid : Nat) (flag : Option Nat) (inv : Nat)
  | scan (id : Nat) (uids : List Nat) (flag : Option Nat) (quad idx : Nat) (dreg count : Nat) (team : Nat)
    -- `nzscan`, until its tile is ready: its threads, register, COUNT and team (R434)
  | record (uid ctx : Nat) (flue : Bool) (reqs : List Nat) (bytes : List Byte)
    -- a record of `lamp` or `trc`, until the writes it follows are performed (R292, R293)
  deriving DecidableEq, Repr

/-- A walker operation that waits (R218). -/
inductive LodeKind
  | load (dreg : Nat) (ty : Ty) (acquires empties : Bool)
  | store (value : Word) (ty : Ty)
  | next (cursor : Int) (dreg creg pd : Nat)
  | count (orig ext : List Nat) (dreg pos acc : Nat)  -- next linear index, and keys counted so far
  | grow (k : Nat)
  | trim (k : Nat) (dreg : Nat)
  deriving DecidableEq, Repr

structure LodeReq where
  op : Nat
  ctx : Nat
  core : Nat
  gid : Nat                  -- group held at the instruction, for the lanes of R223
  uid : Nat
  team : Nat
  flag : Option Nat
  region : Nat               -- package address of the region descriptor
  va : DWord
  kind : LodeKind
  pc : DWord
  seq : Word
  slot : Nat
  refused : Option (Cls × DWord)  -- the walker has refused it (R223, R472)
  halted : Option Nat             -- the stop that halts it (R224)
  deriving DecidableEq, Repr

/-- A fault record (R100), written or held. `named` are the threads it names. -/
structure FRec where
  rid : Nat
  stop : Nat                 -- the stop it belongs to; 0 for a notice
  ctx : Nat
  seq : Option Word          -- given when it is written
  isLast : Bool              -- its stop's last record: the interrupt follows it
  burst : Bool
  isAsync : Bool
  queue : Nat
  code : Nat
  addr : DWord
  pc : DWord
  cmdseq : Word
  core : Nat
  threads : Nat
  slot : Nat
  stamp : Nat
  named : List Nat
  acted : Option Action
  outstanding : Bool
  deriving DecidableEq, Repr

/-- What a stop holds. -/
inductive StopOf
  | group (gid : Nat)
  | cmd (core cmd : Nat)
  | ring (core cmd : Nat)
  | entry (quad id : Nat)
  | seam (quad id : Nat)
  | lode (op : Nat)
  | context
  deriving DecidableEq, Repr

structure Stop where
  sid : Nat
  ctx : Nat
  what : StopOf
  boundary : Bool            -- charged to a clause boundary (R278)
  deferred : Bool            -- R270
  isBrk : Bool
  deriving DecidableEq, Repr

/-- The fields of a kernel header that the machine uses (R320). -/
structure Kernel where
  kaddr : DWord
  entry : Nat
  codelen : Nat
  tx : Nat
  ty : Nat
  tz : Nat
  regs : Nat
  cr : Nat
  cc : Nat
  embgrp : Nat
  teammem : Nat
  paramlen : Nat
  entries : List (Nat × Nat)          -- KIND, OFFSET
  patches : List (Nat × Nat × Nat)    -- WIDTH, POFF, LITOFF
  deriving DecidableEq, Repr

/-- An accepted launch (R110). -/
structure Launch where
  lid : Nat
  ctx : Nat
  q : Nat
  pkt : Nat
  prio : Nat
  pinned : Bool
  pod : Bool
  kernel : Kernel
  params : List Byte
  gx : Nat
  gy : Nat
  gz : Nat
  claim : DWord
  accepted : Nat
  nextLin : Nat              -- next cluster to place
  endLin : Nat               -- end of the batch, or of the grid
  list : List (Nat × Nat)    -- of a pinned launch, its clusters still to place here, with their origin cores (R90)
  claiming : Bool            -- a claim is on its way
  claimed : Bool             -- no further claim: a claim returned b ≥ G, or the launch claims nothing
  skipped : Option Nat       -- time since which its next cluster has been skipped (R112)
  starved : Bool
  holds : Bool               -- holds one of the 32 places
  deriving DecidableEq, Repr

/-- A resident team (R108). -/
structure Team where
  tuid : Nat
  launch : Nat
  ctx : Nat
  core : Nat
  place : Nat                -- 0 to 7
  cluster : Nat
  index : Nat
  lin : Nat
  step : Nat                 -- placement step (R162)
  share : List Nat           -- its group slots for birth threads and tasks
  embers : List Nat          -- its ember allowance slots
  lent : List Nat
  units : Nat                -- register units of its share
  tmBase : Nat
  tmLen : Nat
  halted : Bool
  saved : Bool               -- held in an image (R456)
  stepState : Option Bool := none  -- while saved: stepping was on for it, and whether it was held (R301)
  deriving DecidableEq, Repr

/-- A cluster (R113). -/
structure Cluster where
  cuid : Nat
  launch : Nat
  lin : Nat
  count : Nat
  deriving DecidableEq, Repr

/-- A packet that has begun (R85). -/
structure Pkt where
  pid : Nat
  ctx : Nat
  q : Nat
  num : Nat                  -- packet number n
  type : Nat
  scope : Nat
  irq : Bool
  sigaddr : DWord
  body : List Word           -- its 16 words
  entries : List (DWord × DWord)  -- of a FENCE: its entries as they were read (R92)
  launch : Option Nat
  met : List Nat             -- FENCE entries met
  asked : List Nat           -- FENCE entries whose read is on its way
  complete : Bool
  phase : Nat                -- completion actions done so far
  reread : Nat               -- time of the last FENCE read
  install : Option (List Byte) -- of a WINDOW, the descriptor that its completion writes (R21)
  deriving DecidableEq, Repr

/-- A queue's ring, as its enabling fixed it (R82). -/
structure Queue where
  base : DWord
  log2 : Nat
  device : Bool
  deriving DecidableEq, Repr

/-- A pre-emption in progress (R125). -/
structure Preempt where
  ctx : Nat
  since : Nat
  deadline : Nat
  deriving DecidableEq, Repr

/-- A targeted self-test that runs (R33). -/
structure SelfTest where
  unit : UnitId
  retest : Bool
  since : Nat
  deriving DecidableEq, Repr

/-- A save of a core that has begun (R282): by `ctx.save` of a thread, or because the core is fenced (R34). -/
structure SaveReq where
  ctx : Nat
  core : Nat
  by_ : Option (Nat × Option Nat)  -- the thread of a `ctx.save`, and the flag it holds set
  mates : List Nat                 -- the cores that are saved and placed again together (R34)
  deriving DecidableEq, Repr

/-- A saved core image (R282): what its image in memory does not show, and what the driver may not change there. -/
structure Image where
  ctx : Nat
  core : Nat
  base : Nat                 -- virtual address of its bytes; 0 for the management controller's own area (R285)
  held : Bool                -- saved by `ctx.save` (R456)
  at_ : Nat                  -- the cycle of the save, from which ages and park times run on (R154)
  mates : List Nat
  threads : List Thread
  groups : List Group
  enrolments : List Enrolment
  late : List Late
  coreSt : CoreSt
  tiles : Tab Tile           -- by index within the core's 16
  accs : Tab Acc
  entries : List Entry
  seams : List SeamEntry
  waiters : List Waiter
  releases : List Release
  team : Mem
  opbuf : Mem
  poison : List PAddr        -- the marks of its registers, memory, tiles and buffers (R32)
  deriving DecidableEq, Repr

/-- A word of team memory or of an operand buffer before the latest write of it, which the forge may still return: by a thread,
until a `forge.rdy`; by an engine, to the later passes of an instruction that has begun (R246, R409). -/
structure OldWord where
  at_ : PAddr
  word : Nat
  turn : Nat
  writer : Option Nat        -- the thread; none for an engine
  deriving DecidableEq, Repr

/-- Where translations are held: a core's first-level TLB, a stope's last-level TLB, or the walk-ahead TLB of a core's copy
engine, which also holds those of the current pages of its commands (R174). -/
inductive TlbPlace | core (n : Nat) | stope (k : Nat) | ahead (core : Nat)
  deriving DecidableEq, Repr

/-- What an entry covers: a page, with the level-3 entry that the walk found; or, of a 128 MiB region, the 2 MiB chunks of a mask,
with the number of the physical page at the region's base and the attribute bits that their level-3 entries share (R175). -/
inductive TlbCover
  | page (vpage : Nat) (pte : DWord)
  | region (number base : Nat) (mask : DWord) (attr : Nat)
  deriving DecidableEq, Repr

/-- A TLB entry (R174, R175). -/
structure TlbEntry where
  place : TlbPlace
  ctx : Nat
  cover : TlbCover
  deriving DecidableEq, Repr

/-- An invalidation that has been asked for (R176). `none` covers every translation of the context. -/
structure Inval where
  id : Nat
  ctx : Nat
  range : Option (Nat × Nat)
  deriving DecidableEq, Repr

/-- What the host's translation service answers for a page of a PASID: a bus page, or a refusal (R16, R22). -/
structure HostMap where
  pasid : Nat
  page : Nat                 -- a host virtual address in units of 4 KiB
  bus : Option Nat
  deriving DecidableEq, Repr

/-- An interrupt message that the package has sent (R16). -/
structure Irq where
  func : Nat
  vec : Nat
  deriving DecidableEq, Repr

/-- The answer to an SPDM request (R41). -/
inductive Spdm
  | version | capabilities | algorithms | digests (d : List Byte) | certificate (c : List Byte)
  | challenge (sig : List Byte) | measurements (ms : List (List Byte))
  | errorUnspecified | errorUnsupported
  deriving DecidableEq, Repr

/-- A firmware command in progress (R40). -/
structure FwCmd where
  cmd : Nat
  slot : Nat
  pages : Nat
  deriving DecidableEq, Repr

/-- What the world outside the package does. -/
inductive Env
  | hostWrite (addr : Nat) (bytes : List Byte)             -- the host writes its own memory
  | hostMap (m : HostMap)                                  -- the host changes what it translates a page to
  | farPort (pkg port : Nat) (up : Bool)                   -- a port of another member enters or leaves service (R46)
  | relayRequest (src dst : Nat) (req : Req)               -- a request that this package relays (R46)
  | relayReply (src : Nat)                                 -- the reply to one, on its way back to the member that asked (R45, R46)
  | bulkApply (index : Nat)                                -- another member performs a captured bulk write
  | remoteApply (index : Nat)                              -- another member applies a request homed there
  | remoteRequest (pkg slice : Nat) (req : Req)            -- a request of another member reaches the downcast
  | memberAct (req : Req)                                  -- an act at a line that another member homes, not of this one
  | sumpBad (entry : Nat)                                  -- a sump entry proves uncorrectable (R70)
  deriving DecidableEq, Repr

/-- Which agent moves next. -/
inductive Turn
  | event (i : Instr)        -- a step of the opcode table that is no instruction
  | issue (core gid : Nat)   -- a group issues
  | elapse (cycles : Nat)    -- core cycles pass
  | env (e : Env)
  deriving DecidableEq, Repr

/-- The group that issues the instruction being executed. DESIGN CHOICE (log entry 4). -/
structure Cur where
  core : Nat
  gid : Nat
  pc : DWord
  len : Nat                  -- bytes of the instruction
  deriving DecidableEq, Repr

/-- The state of the package. -/
structure State where
  time : Nat                 -- units since reset (Config)
  clock : Nat                -- core cycles since reset: `$clock` (R319)
  mhz100 : Nat               -- core clock in steps of 100 MHz (R24)
  free : Nat                 -- the model's own counter of free values taken so far
  nextId : Nat               -- the model's own counter of names
  agenda : List Turn         -- which agents move next
  cur : Option Cur
  stalls : List Nat          -- groups whose instruction waits to issue; cleared when anything changes
  spent : List (Nat × Bool)  -- pipes (core, vector) that have issued in this cycle (R139)
  regs : Tab DWord           -- memory-mapped registers by offset from the PF's BAR 0, where they differ from reset
  pkgMem : Mem
  podMem : Mem
  hostMem : Mem
  die0 : Mem
  die1 : Mem
  teamMem : Tab Mem          -- by core
  opBuf : Tab Mem            -- by quad
  teamOwner : Tab Nat        -- by core: the context whose bytes its team memory may still hold (R37, R115)
  dieOwner : Tab Nat         -- stope × 64 + partition: the context that last owned it (R169)
  poison : List PAddr        -- bytes marked poisoned (R32)
  oldWords : List OldWord
  slices : Tab (List HomeLine) -- lines that each home slice holds (R178)
  tlb : List TlbEntry
  via : List TlbPlace        -- the TLBs that the access being made goes through (R174): the model's own
  invals : List Inval
  cores : Tab CoreSt
  quads : Tab QuadSt
  threads : List Thread
  groups : List Group
  enrolments : List Enrolment
  fabric : Fabric
  bulkWait : List (Nat × Cmd) -- commands of a group's bulk instruction whose checks have passed, and which wait for room (R182, R269)
  late : List Late
  lodes : List LodeReq
  strays : List Nat          -- region descriptors whose tree a thread's store has left unspecified (R227)
  claims : List (PAddr × Nat) -- old buckets claimed and not yet migrated, by their table's descriptor (R204)
  records : List FRec
  stops : List Stop
  fqWait : List Nat          -- contexts whose record was not accepted, until FQBASE or FQHEAD is written (R100)
  queues : Tab Queue         -- by 16 × context + queue
  pkts : List Pkt
  dims : Tab (List (Option Word)) -- words at DIMADDR that a queue's head is reading, by 16 × context + queue (R89, R471)
  launches : List Launch
  teams : List Team
  clusters : List Cluster
  steps : Nat                -- placement steps so far (R162)
  lastPlace : Nat            -- cycle of the latest placement step (R111)
  views : Tab Team           -- the onsetter's deductions not yet reported back (R109), by team
  sliceStart : Tab Nat       -- time at which a context's slice clock started (R121)
  sliceDue : List Nat        -- contexts whose slice ended during another's pre-emption, to be judged again (R122)
  resident : Tab Nat         -- time since which a context has been resident (R122)
  preempt : Option Preempt
  drains : Tab (List Nat)    -- the latest eight drain-and-switch times of a context, in µs (R124)
  tests : List SelfTest
  held : List UnitId         -- units that wait for their buddy's test before starting their own (R33)
  retestWait : List UnitId   -- R29
  saves : List SaveReq
  images : List Image
  irqs : List Irq
  readback : List (Option Word) -- what the aperture reads returned, newest first; none for a poisoned completion (R79)
  linkUp : Bool              -- the link trained within R17
  hostMaps : List HostMap    -- where the host's translations differ from the identity
  celsius : Nat              -- the hottest die sensor (R23)
  corrected : Nat            -- corrected errors that telemetry has counted (R31)
  tripped : Bool             -- R25
  shaftFault : Bool          -- the shaft die has reported a fault (R36)
  booted : Bool              -- firmware runs (R39)
  runSlot : Nat
  slots : Tab (List Byte)    -- firmware images in flash slots A and B
  fwCmd : Option FwCmd
  spdm : List Spdm           -- answers, newest first
  algorithms : Bool          -- Falcon-1024 and SHAKE256 have been negotiated
  measured5 : List Byte      -- measurement 5, taken at each change of DBG_CTL.EN (R288)
  sampleAt : Tab Nat         -- cycle of the latest flue sample of a context
  lostNoted : Tab Nat        -- LOST of a context's flue at its latest KIND 4 record
  deriving DecidableEq, Repr

/-- The reasons a step stops with a fault. The spec's own faults are taken (R269), so no instruction of the spec raises
one of these. -/
inductive Fault
  /-- No step raises it: the machine the spec describes never stops. Safe. -/
  | none
  deriving DecidableEq, Repr

/-- The reasons a step is refused. -/
inductive Refusal
  /-- Raised by `exec` for an instruction that has no meaning yet. Safe. -/
  | notModelled (mnemonic : String)
  deriving DecidableEq, Repr

/-- What an unlisted address reads as: zero. The spec gives zero for team memory, die memory and operand buffers (R37);
for HBM it gives no value, and zero is the model's choice (assumption 1). DESIGN CHOICE (log entry 1). -/
def Mem.unlisted : Byte := 0

/-- The state right after power-on reset. DESIGN CHOICE (log entries 4, 5, 6). -/
def State.reset : State :=
  { time := 0, clock := 0, mhz100 := 21, free := 0, nextId := 1, agenda := [], cur := none, stalls := [], spent := [], regs := [],
    pkgMem := [], podMem := [], hostMem := [], die0 := [], die1 := [], teamMem := [], opBuf := [], teamOwner := [], dieOwner := [],
    poison := [], oldWords := [], slices := [], tlb := [], via := [], invals := [], cores := [], quads := [], threads := [], groups := [], enrolments := [],
    fabric := {}, bulkWait := [], late := [], lodes := [], strays := [], claims := [], records := [], stops := [], fqWait := [], queues := [], pkts := [], dims := [], launches := [],
    teams := [], clusters := [], steps := 0, lastPlace := 0, views := [], sliceStart := [], sliceDue := [], resident := [],
    preempt := none, drains := [], tests := [], held := [], retestWait := [], saves := [], images := [], irqs := [], readback := [],
    linkUp := true, hostMaps := [], celsius := 0, corrected := 0, tripped := false, shaftFault := false, booted := true, runSlot := 0, slots := [], fwCmd := none, spdm := [],
    algorithms := false, measured5 := [], sampleAt := [], lostNoted := [] }

end Sys2Proof.Machine
end

