-- ==== Sys2Proof/Machine/Ops.lean ====
section
/-! DEFINITION. The named operations over the state: sparse tables, memory, registers, time, threads and groups,
translation, fault records, and the one operation that takes a stop (R269 to R281), with the return from one (R278). -/

namespace Sys2Proof

def PAddr.plus (p : PAddr) (k : Nat) : PAddr := { p with addr := p.addr + k }

/-- A byte lies in a range. -/
def PAddr.within (x p : PAddr) (n : Nat) : Bool := x.space == p.space && decide (p.addr ≤ x.addr) && decide (x.addr < p.addr + n)

/-- A space whose bytes are held as memory; of the others State holds the contents elsewhere and only the poison by place. -/
def Space.hasBytes : Space → Bool
  | .regs _ | .acc _ | .l1 _ | .pool _ | .sump | .icache _ | .icachePod _ | .staging _ | .replay => false
  | .pkg | .pod | .host | .die _ | .team _ | .opbuf _ => true

end Sys2Proof

namespace Sys2Proof.Machine

/-! ## Tables, fields and sorting -/

def Tab.get {α : Type} (d : α) (k : Nat) : Tab α → α
  | [] => d
  | (i, x) :: t => if i = k then x else Tab.get d k t

def Tab.find {α : Type} (k : Nat) : Tab α → Option α
  | [] => none
  | (i, x) :: t => if i = k then some x else Tab.find k t

def Tab.set {α : Type} (k : Nat) (v : α) : Tab α → Tab α
  | [] => [(k, v)]
  | (i, x) :: t => if k < i then (k, v) :: (i, x) :: t else if i = k then (k, v) :: t else (i, x) :: Tab.set k v t

def Tab.del {α : Type} (k : Nat) (t : Tab α) : Tab α := t.filter (fun e => e.1 != k)

/-- Bits [hi:lo] of a number (R2). -/
def bits (x hi lo : Nat) : Nat := x / 2 ^ lo % 2 ^ (hi + 1 - lo)

/-- Bit i of a number. -/
def bitAt (x i : Nat) : Bool := x / 2 ^ i % 2 == 1

/-- `x` with bits [hi:lo] replaced by `v`. -/
def setBits (x hi lo v : Nat) : Nat :=
  x - bits x hi lo * 2 ^ lo + (v % 2 ^ (hi + 1 - lo)) * 2 ^ lo

def insertBy {α : Type} (le : α → α → Bool) (x : α) : List α → List α
  | [] => [x]
  | y :: ys => if le x y then x :: y :: ys else y :: insertBy le x ys

/-- Insertion sort; equal elements keep their order. -/
def sortBy {α : Type} (le : α → α → Bool) (l : List α) : List α := l.foldr (insertBy le) []

/-- The first element that no other is below. -/
def minBy {α : Type} (le : α → α → Bool) : List α → Option α
  | [] => none
  | x :: xs => match minBy le xs with
    | none => some x
    | some y => if le x y then some x else some y

def dedup {α : Type} [DecidableEq α] : List α → List α
  | [] => []
  | x :: xs => if x ∈ xs then dedup xs else x :: dedup xs

/-! ## Memory -/

/-- The byte at an address. DESIGN CHOICE (log entry 1). -/
def Mem.get (a : Nat) : Mem → Byte
  | [] => Mem.unlisted
  | (i, b) :: t => if i = a then b else Mem.get a t

/-- A write of one byte, which keeps the canonical form: rising addresses, and no entry that reads as unlisted. -/
def Mem.set (a : Nat) (v : Byte) : Mem → Mem
  | [] => if v = Mem.unlisted then [] else [(a, v)]
  | (i, b) :: t =>
    if a < i then (if v = Mem.unlisted then (i, b) :: t else (a, v) :: (i, b) :: t)
    else if i = a then (if v = Mem.unlisted then t else (a, v) :: t)
    else (i, b) :: Mem.set a v t

/-- The canonical form of a store. -/
def Mem.wf : Mem → Bool
  | [] => true
  | [(_, b)] => b != Mem.unlisted
  | (i, b) :: (j, c) :: t => b != Mem.unlisted && decide (i < j) && Mem.wf ((j, c) :: t)

/-- Zeroes a range (R37). -/
def Mem.clear (lo n : Nat) (m : Mem) : Mem := m.filter (fun c => decide (c.1 < lo) || decide (lo + n ≤ c.1))

/-- `n` bytes from an address upwards. -/
def Mem.bytes (m : Mem) (a : Nat) : Nat → List Byte
  | 0 => []
  | n + 1 => Mem.get a m :: Mem.bytes m (a + 1) n

def Mem.setBytes (m : Mem) (a : Nat) : List Byte → Mem
  | [] => m
  | b :: bs => Mem.setBytes (Mem.set a b m) (a + 1) bs

/-- The little-endian number of some bytes (R2). -/
def natOfBytes : List Byte → Nat
  | [] => 0
  | b :: bs => b.toNat + 256 * natOfBytes bs

/-- The `n` little-endian bytes of a number. -/
def bytesOfNat (x : Nat) : Nat → List Byte
  | 0 => []
  | n + 1 => BitVec.ofNat 8 x :: bytesOfNat (x / 256) n

def State.cells (s : State) : Space → Mem
  | .pkg => s.pkgMem
  | .pod => s.podMem
  | .host => s.hostMem
  | .die k => if k = 0 then s.die0 else s.die1
  | .team c => Tab.get [] c s.teamMem
  | .opbuf q => Tab.get [] q s.opBuf
  | .regs _ | .acc _ | .l1 _ | .pool _ | .sump | .icache _ | .icachePod _ | .staging _ | .replay => []

def State.setCells (s : State) (sp : Space) (m : Mem) : State :=
  match sp with
  | .pkg => { s with pkgMem := m }
  | .pod => { s with podMem := m }
  | .host => { s with hostMem := m }
  | .die k => if k = 0 then { s with die0 := m } else { s with die1 := m }
  | .team c => { s with teamMem := Tab.set c m s.teamMem }
  | .opbuf q => { s with opBuf := Tab.set q m s.opBuf }
  | .regs _ | .acc _ | .l1 _ | .pool _ | .sump | .icache _ | .icachePod _ | .staging _ | .replay => s

/-- The byte at a physical place. DESIGN CHOICE (log entry 1). -/
def State.byteAt (s : State) (p : PAddr) : Byte := Mem.get p.addr (s.cells p.space)

def State.bytesAt (s : State) (p : PAddr) (n : Nat) : List Byte := (s.cells p.space).bytes p.addr n

def State.natAt (s : State) (p : PAddr) (n : Nat) : Nat := natOfBytes (s.bytesAt p n)

/-- The bytes of the ECC unit that holds a place: 256 data bits of HBM, 64 data bits of SRAM (R31).
DEDUCED (log entry 46). -/
def eccUnit (hbm : Bool) (p : PAddr) : List PAddr :=
  let n := if hbm then 32 else 8
  (List.range n).map fun i => { p with addr := p.addr / n * n + i }

/-- Bytes that are overwritten are poisoned no more (R32). -/
def State.lift (s : State) (p : PAddr) (n : Nat) : State :=
  if s.poison.isEmpty then s else { s with poison := s.poison.filter fun x => !x.within p n }

/-- A copy of data carries its poison: marks of `n` bytes at `p` stand also at `q`, and no others there (R32). -/
def State.copyPoison (s : State) (p q : PAddr) (n : Nat) : State :=
  if s.poison.isEmpty then s
  else
    let new := (s.poison.filter fun x => x.within p n).map fun x => ({ q with addr := x.addr - p.addr + q.addr } : PAddr)
    { s with poison := new ++ (s.lift q n).poison }

def State.movePoison (s : State) (p q : PAddr) (n : Nat) : State := (s.copyPoison p q n).lift p n

/-- Zeroes a range (R37); what it held is overwritten, poison too. -/
def State.zeroCells (s : State) (p : PAddr) (n : Nat) : State := (s.setCells p.space ((s.cells p.space).clear p.addr n)).lift p n

/-- Writes bytes and nothing else, beyond lifting the poison of those it overwrites (R32). -/
def State.putBytes (s : State) (p : PAddr) (bs : List Byte) : State :=
  (s.setCells p.space ((s.cells p.space).setBytes p.addr bs)).lift p bs.length

def State.putNat (s : State) (p : PAddr) (n : Nat) (x : Nat) : State := s.putBytes p (bytesOfNat x n)

/-! ## Time -/

/-- Nanoseconds since reset (R96). -/
def State.ns (s : State) : Nat := s.time / Config.unitsPerNs

/-- Microseconds since reset. -/
def State.us (s : State) : Nat := s.ns / 1000

/-- `k` core cycles pass (R319). -/
def State.elapse (s : State) (k : Nat) : State :=
  { s with clock := s.clock + k, time := s.time + k * Config.unitsPerCoreCycle s.mhz100 }

/-- A fresh name. DESIGN CHOICE (log entry 4). -/
def State.fresh (s : State) : Nat × State := (s.nextId, { s with nextId := s.nextId + 1 })

/-! ## Memory-mapped registers -/

def hifCtx (c r : Nat) : Nat := 0x10000 + 0x100 * c + r
def hifQ (c q r : Nat) : Nat := 0x20000 + 0x40 * (16 * c + q) + r
def shf (r : Nat) : Nat := 0x40000 + r
def ons (r : Nat) : Nat := 0x50000 + r
def onsCtx (c r : Nat) : Nat := 0x51000 + 0x20 * c + r
def mgt (r : Nat) : Nat := 0x60000 + r
def dbg (r : Nat) : Nat := 0x70000 + r
def dbgCtx (c r : Nat) : Nat := 0x70400 + 0x40 * c + r

/-- The reset value of a register, where it is not zero (R27, R73, R74, R102 to R105, R130, R131, R289, R296).
DESIGN CHOICE (log entry 6). -/
def regReset (off : Nat) : Nat :=
  if off = 0 then 0x104001
  else if off = 8 then 50
  else if off = shf 0x20 then 50
  else if off = shf 0x24 then 0x2448
  else if off = ons 0 then 100
  else if off = ons 4 then 4096
  else if off = mgt 8 then 2400
  else if off = dbg 8 then 0x4040
  else if 0x10000 ≤ off ∧ off < 0x14000 ∧ off % 0x100 = 0x20 then 6
  else if 0x20000 ≤ off ∧ off < 0x30000 ∧ off % 0x40 = 8 then 4
  else if 0x51000 ≤ off ∧ off < 0x51800 ∧ off % 0x20 = 0xC then 5000
  else if 0x70100 ≤ off ∧ off < 0x70300 ∧ off % 8 = 0 then 0x400010
  else if 0x70400 ≤ off ∧ off < 0x71400 ∧ off % 0x40 = 8 then 10
  else if 0x70400 ≤ off ∧ off < 0x71400 ∧ off % 0x40 = 0x20 then 0x10100A
  else 0

/-- A stored register. -/
def State.reg (s : State) (off : Nat) : Nat :=
  match Tab.find off s.regs with
  | some v => v.toNat
  | none => regReset off

def State.setReg (s : State) (off v : Nat) : State :=
  { s with regs := if v = regReset off then Tab.del off s.regs else Tab.set off (BitVec.ofNat 64 v) s.regs }

/-- SHF_PODMAP (R71). -/
def State.podOn (s : State) : Bool := bitAt (s.reg (shf 0)) 15
def State.podLog (s : State) : Nat := bits (s.reg (shf 0)) 8 6
def State.self (s : State) : Nat := bits (s.reg (shf 0)) 5 0

/-- HIF_CTX_CTL (R104). -/
def State.ctxOn (s : State) (c : Nat) : Bool := bitAt (s.reg (hifCtx c 0)) 31
def State.ctxPod (s : State) (c : Nat) : Bool := bitAt (s.reg (hifCtx c 0)) 30
def State.ctxFunc (s : State) (c : Nat) : Nat := bits (s.reg (hifCtx c 0)) 24 20
/-- HIF_CTX_STATUS.STOPPED (R104). -/
def State.ctxStopped (s : State) (c : Nat) : Bool := bitAt (s.reg (hifCtx c 0x38)) 1
def State.preempting (s : State) (c : Nat) : Bool :=
  match s.preempt with
  | some p => p.ctx == c
  | none => false

/-- `$pkg` (R318). -/
def State.pkgOf (s : State) (c : Nat) : Nat := if s.ctxPod c then s.self else 0

/-- DBG_CTL.EN (R288). -/
def State.debugOn (s : State) : Bool := bitAt (s.reg (dbg 0)) 0

/-- The fence register and bit of a unit (R28). -/
def fenceBit (u : UnitId) : Option (Nat × Nat) :=
  match u.kind with
  | .core => if u.index < 256 then some (mgt (0x40 + 8 * (u.index / 64)), u.index % 64) else none
  | .quad => if u.index < 64 then some (mgt 0x60, u.index) else none
  | .slice => if u.index < 64 then some (mgt 0x68, u.index) else none
  | .port => if u.index < 64 then some (mgt 0x70, u.index) else none
  | .pch => if u.index < 512 then some (mgt (0x80 + 8 * (u.index / 64)), u.index % 64) else none
  | .shaft => none

def State.fenced (s : State) (u : UnitId) : Bool :=
  match fenceBit u with
  | some (off, i) => bitAt (s.reg off) i
  | none => false

/-- A core is out of service: it or its quad is fenced (R34). -/
def State.coreFenced (s : State) (n : Nat) : Bool := s.fenced ⟨.core, n⟩ || s.fenced ⟨.quad, n / 4⟩

/-- A message on a vector of a function; above the function's vector count none is sent (R16, R104). -/
def State.raise (s : State) (func vec : Nat) : State :=
  if vec < (if func = 0 then 2048 else 64) then { s with irqs := s.irqs ++ [{ func, vec }] } else s

/-! ## Where things stand (R14) -/

def stopeOfCore (n : Nat) : Nat := n / 128
def quadOfCore (n : Nat) : Nat := n / 4
def meshRow (n : Nat) : Nat := 2 * ((n % 128) / 4 / 8) + (n % 4) / 2
def meshCol (n : Nat) : Nat := 2 * ((n % 128) / 4 % 8) + n % 2
/-- The core at a mesh place of a stope. -/
def coreAt (stope row col : Nat) : Nat := 128 * stope + 4 * (8 * (row / 2) + col / 2) + 2 * (row % 2) + col % 2

/-- `h` of R49. -/
def pkgHome (pa : Nat) : Nat :=
  let l := bits pa 38 8
  (bits l 11 0 ^^^ bits l 23 12 ^^^ bits l 30 24) % 64

/-- `h` of R48. -/
def podHash (ppa : Nat) : Nat :=
  let l := bits ppa 44 8
  bits l 11 0 ^^^ bits l 23 12 ^^^ bits l 35 24 ^^^ bits l 36 36

def podHomePkg (lg ppa : Nat) : Nat := bits (podHash ppa) 11 6 % 2 ^ lg
def podHomeSlice (ppa : Nat) : Nat := bits (podHash ppa) 5 0

/-- The home slice of a place (R48, R49). -/
def homeSlice (p : PAddr) : Nat :=
  match p.space with
  | .pod => podHomeSlice p.addr
  | _ => pkgHome p.addr

/-- The pseudo-channel that holds the line of a place, numbered as MGT_LASTERR numbers it (R14, R30).
DESIGN CHOICE (log entry 11). -/
def channelOf (p : PAddr) : Nat := 8 * homeSlice p + Config.lineChannel (p.addr / 256) % 8

/-- A place whose pseudo-channel is fenced, so that its contents are lost (R34, R286). DEDUCED (log entry 46). -/
def State.lost (s : State) (p : PAddr) : Bool :=
  match p.space with
  | .pkg => s.fenced ⟨.pch, channelOf p⟩
  | .pod => (!s.podOn || podHomePkg s.podLog p.addr == s.self) && s.fenced ⟨.pch, channelOf p⟩
  | _ => false

/-- A range that holds poisoned data (R32). DEDUCED (log entry 46). -/
def State.poisoned (s : State) (p : PAddr) (n : Nat) : Bool :=
  s.poison.any (fun x => x.within p n) ||
  (n != 0 && ((List.range 8).any fun k => s.reg (mgt (0x80 + 8 * k)) != 0) &&
    (s.lost p || s.lost { p with addr := p.addr + n - 1 }))

/-! ## The host (R16, R17, R103) -/

/-- An act of the host on a register that a limited link does not present (R17). -/
def State.linked (s t : State) : State := if s.linkUp then t else s

/-- The bus address that the host's translation service gives for an address of a context's PASID, or none where the host
refuses it (R16, R22). DESIGN CHOICE (log entry 67). -/
def State.ats (s : State) (c va : Nat) : Option Nat :=
  match s.hostMaps.find? fun m => m.pasid == bits (s.reg (hifCtx c 0)) 19 0 && m.page == va / 4096 with
  | some m => m.bus.map fun b => b * 4096 + va % 4096
  | none => some va

/-- The stretches of host memory that `n` bytes at an address of a context take, page by page; with `raw` the address is a bus
address already (R18). None, if the host refuses a page. -/
def State.hostRuns (s : State) (c : Nat) (raw : Bool) (va n : Nat) : Option (List (PAddr × Nat)) :=
  if raw then some [(⟨.host, va⟩, n)]
  else
    let k := min n (4096 - va % 4096)
    match s.ats c va, s.ats c (va + k) with
    | some a, some b => if n ≤ k then some [(⟨.host, a⟩, n)] else some [(⟨.host, a⟩, k), (⟨.host, b⟩, n - k)]
    | some a, none => if n ≤ k then some [(⟨.host, a⟩, n)] else none
    | none, _ => none

def State.runBytes (s : State) (rs : List (PAddr × Nat)) : List Byte := rs.flatMap fun r => s.bytesAt r.1 r.2

def State.putRuns (s : State) : List (PAddr × Nat) → List Byte → State
  | [], _ => s
  | r :: rs, bs => (s.putBytes r.1 (bs.take r.2)).putRuns rs (bs.drop r.2)

/-- HIF_CPL_TIMEOUT in units of time (R103). -/
def State.hostTimeout (s : State) : Nat := bits (s.reg 8) 15 0 * 1000000 * Config.unitsPerNs

/-! ## Cores, quads, threads, groups, teams -/

def State.core (s : State) (n : Nat) : CoreSt := Tab.get {} n s.cores
def State.setCore (s : State) (n : Nat) (c : CoreSt) : State := { s with cores := Tab.set n c s.cores }
def State.quad (s : State) (q : Nat) : QuadSt := Tab.get {} q s.quads
def State.setQuad (s : State) (q : Nat) (x : QuadSt) : State := { s with quads := Tab.set q x s.quads }

def State.thread? (s : State) (uid : Nat) : Option Thread := s.threads.find? (fun t => t.uid == uid)
def State.group? (s : State) (gid : Nat) : Option Group := s.groups.find? (fun g => g.gid == gid)
def State.team? (s : State) (tuid : Nat) : Option Team := s.teams.find? (fun t => t.tuid == tuid)
def State.launch? (s : State) (lid : Nat) : Option Launch := s.launches.find? (fun l => l.lid == lid)
def State.cluster? (s : State) (cuid : Nat) : Option Cluster := s.clusters.find? (fun c => c.cuid == cuid)

/-- Applies `f` to the threads of a list of names. -/
def State.onThreads (s : State) (ids : List Nat) (f : Thread → Thread) : State :=
  { s with threads := s.threads.map fun t => if ids.contains t.uid then f t else t }

def State.onThread (s : State) (uid : Nat) (f : Thread → Thread) : State := s.onThreads [uid] f

def State.onGroup (s : State) (gid : Nat) (f : Group → Group) : State :=
  { s with groups := s.groups.map fun g => if g.gid == gid then f g else g }

def State.dropGroup (s : State) (gid : Nat) : State := { s with groups := s.groups.filter fun g => g.gid != gid }

def State.onTeam (s : State) (tuid : Nat) (f : Team → Team) : State :=
  { s with teams := s.teams.map fun t => if t.tuid == tuid then f t else t }

def State.onLaunch (s : State) (lid : Nat) (f : Launch → Launch) : State :=
  { s with launches := s.launches.map fun l => if l.lid == lid then f l else l }

def State.onPkt (s : State) (pid : Nat) (f : Pkt → Pkt) : State :=
  { s with pkts := s.pkts.map fun p => if p.pid == pid then f p else p }

def State.onCmd (s : State) (core id : Nat) (f : Cmd → Cmd) : State :=
  let c := s.core core
  s.setCore core { c with copyq := c.copyq.map fun x => if x.id == id then f x else x }

def State.cmd? (s : State) (core id : Nat) : Option Cmd := (s.core core).copyq.find? (fun x => x.id == id)

/-- The threads of a group in position order. -/
def State.membersOf (s : State) (g : Group) : List Thread := g.members.filterMap s.thread?

def State.lowestSlot (s : State) (g : Group) : Nat :=
  (s.membersOf g).foldl (fun m t => Nat.min m t.slot) 8192

/-- The register a thread holds; a number beyond its allocation never gets here (REG_RANGE, R308). -/
def Thread.reg (t : Thread) (k : Nat) : Word := t.regs.getD k 0

def Thread.setReg (t : Thread) (k : Nat) (v : Word) : Thread := { t with regs := t.regs.set k v }

/-- An even pair (R254). -/
def Thread.pair (t : Thread) (k : Nat) : DWord := t.reg (k + 1) ++ t.reg k

def Thread.setPair (t : Thread) (k : Nat) (v : DWord) : Thread :=
  (t.setReg k (v.extractLsb' 0 32)).setReg (k + 1) (v.extractLsb' 32 32)

/-- A predicate; p7 reads 1 (R134). -/
def Thread.pred (t : Thread) (k : Nat) : Bool := k == 7 || t.preds.getD k false

/-- A write of a predicate; p7 ignores it. -/
def Thread.setPred (t : Thread) (k : Nat) (v : Bool) : Thread :=
  if k = 7 then t else { t with preds := t.preds.set k v }

/-- Consecutive registers. -/
def Thread.regsFrom (t : Thread) (k n : Nat) : List Word := (List.range n).map fun i => t.reg (k + i)

def Thread.setRegs (t : Thread) (k : Nat) : List Word → Thread
  | [] => t
  | w :: ws => (t.setReg k w).setRegs (k + 1) ws

/-- `$lane` of a birth thread (R136). -/
def Thread.lane (t : Thread) : Nat := t.tid % 128

/-- The command sequence number of an issue, and the thread after it (R276). DEDUCED (log entry 18). -/
def Thread.count (t : Thread) : Thread := { t with cmdseq := t.cmdseq + 1 }

def Thread.holdFlag (t : Thread) : Option Nat → Thread
  | none => t
  | some f => { t with flags := t.flags.set f (t.flags.getD f 0 + 1) }

def Thread.dropFlag (t : Thread) : Option Nat → Thread
  | none => t
  | some f => { t with flags := t.flags.set f (t.flags.getD f 0 - 1) }

/-- A thread has observed what was complete at a moment: its accumulator reads see it (R246). -/
def Thread.observe (t : Thread) (now : Nat) : Thread := { t with seen := now }

/-- An acquire, a fence or a barrier of a thread is complete, and holds its later accesses no more. -/
def Thread.proceed (t : Thread) (now : Nat) : Thread := { t with holds := t.holds - 1, seen := now }

/-- The kernel and launch of a team. -/
def State.launchOf (s : State) (tuid : Nat) : Option Launch := (s.team? tuid).bind fun t => s.launch? t.launch

/-- Teams of a context on a core. -/
def State.teamsOn (s : State) (core : Nat) : List Team := s.teams.filter fun t => t.core == core && !t.saved

/-- The context that a core hosts (R107). -/
def State.ctxOnCore (s : State) (core : Nat) : Option Nat := (s.teamsOn core).head?.map (·.ctx)

/-- HIF_CTX_STATUS.RUNNING (R104). -/
def State.running (s : State) (c : Nat) : Bool := s.teams.any fun t => t.ctx == c && !t.saved

/-- A unit is under test, a retest apart (R33). -/
def State.underTest (s : State) (u : UnitId) : Bool := s.tests.any fun t => !t.retest && t.unit == u

/-- The home package of a place (R48). -/
def State.homePkg (s : State) (p : PAddr) : Nat :=
  match p.space with
  | .pod => if s.podOn then podHomePkg s.podLog p.addr else s.self
  | _ => s.self

/-- The pseudo-channel that holds a place of this package is under test, so that its accesses wait at the slice (R34). -/
def State.channelWait (s : State) (p : PAddr) : Bool := s.homePkg p == s.self && s.underTest ⟨.pch, channelOf p⟩

/-- The slice that serves a home: the buddy while the home is fenced or under test (R51). While the buddy is fenced too the
lines still go to the buddy, of which the spec says nothing. DESIGN CHOICE (log entry 66). -/
def State.servingSlice (s : State) (h : Nat) : Nat :=
  if s.fenced ⟨.slice, h⟩ || s.underTest ⟨.slice, h⟩ then h ^^^ 1 else h

/-- A core rests: it or its quad is under test, or its state is being saved (R34, R282). -/
def State.resting (s : State) (core : Nat) : Bool :=
  s.underTest ⟨.core, core⟩ || s.underTest ⟨.quad, quadOfCore core⟩ || s.saves.any (fun x => x.core == core)

/-- The package is Failed (R36). DESIGN CHOICE (log entry 55). -/
def State.failed (s : State) : Bool :=
  s.tripped || s.shaftFault || !s.booted ||
  (List.range 32).any (fun k => s.fenced ⟨.slice, 2 * k⟩ && s.fenced ⟨.slice, 2 * k + 1⟩) ||
  (List.range 2).any (fun p => decide (16 < ((List.range 32).filter fun k => s.fenced ⟨.quad, 32 * p + k⟩).length)) ||
  (List.range 8).any (fun k => s.reg (mgt (0x80 + 8 * k)) == 2 ^ 64 - 1)

def State.bumpPerf (s : State) (core n k : Nat) : State :=
  if (s.teamsOn core).isEmpty then s
  else
    let c := s.core core
    s.setCore core { c with perf := Tab.set n (Tab.get 0 n c.perf + BitVec.ofNat 64 k) c.perf }

/-! ## Translation (R171 to R176) -/

/-- What an access needs of a page (R173). -/
inductive Need | load | store | atomic | fetch | nothing
  deriving DecidableEq, Repr

/-- A translated address: the page's CLASS, and the place (for CLASS 2, the region descriptor's page). -/
structure Xlat where
  cls : Nat
  at_ : PAddr
  deriving DecidableEq, Repr

/-- One entry of a level-1 or level-2 table: the next table's address, or the fault (R32, R172, R173). -/
def tableStep (s : State) (base idx : Nat) : Except Cls Nat :=
  let e := s.natAt ⟨.pkg, base + 8 * idx⟩ 8
  if s.poisoned ⟨.pkg, base + 8 * idx⟩ 8 then .error .eccFatal
  else if !bitAt e 0 then .error .pageAbsent
  else if bitAt e 1 && bits e 15 2 == 0 && bits e 63 39 == 0 then .ok (bits e 38 16 * 2 ^ 16)
  else .error .pagePerm

/-- The walk to the level-3 entry, as the tables now stand. -/
def walk (s : State) (c va : Nat) : Except Cls Nat :=
  match tableStep s (bits (s.reg (hifCtx c 8)) 38 16 * 2 ^ 16) (bits va 51 40) with
  | .error e => .error e
  | .ok t2 =>
    match tableStep s t2 (bits va 39 28) with
    | .error e => .error e
    | .ok t3 =>
      let e := s.natAt ⟨.pkg, t3 + 8 * bits va 27 16⟩ 8
      if s.poisoned ⟨.pkg, t3 + 8 * bits va 27 16⟩ 8 then .error .eccFatal
      else if !bitAt e 0 then .error .pageAbsent
      else if bitAt e 1 || bits e 63 45 != 0 || bits e 15 8 != 0 || bitAt e 2 || bits e 7 6 == 3 then .error .pagePerm
      else if bits e 7 6 != 1 && bits e 44 39 != 0 then .error .pagePerm
      else if bits e 7 6 == 1 && (!s.ctxPod c || decide (2 ^ (39 + s.podLog) ≤ bits e 44 16 * 2 ^ 16)) then .error .pagePerm
      else .ok e

/-- The tables that the valid entries of a table name. -/
def tableNext (s : State) (base : Nat) : List Nat :=
  let idx := dedup ((s.pkgMem.filter fun x => decide (base ≤ x.1) && decide (x.1 < base + 32768)).map fun x => (x.1 - base) / 8)
  dedup (idx.filterMap fun i => (tableStep s base i).toOption)

/-- A line of a context's page tables, or of its bank windows' table, lies behind a pseudo-channel under test: walks wait (R34).
DEDUCED (log entry 87). -/
def State.tablesWait (s : State) (c : Nat) : Bool :=
  if s.tests.any fun t => t.unit.kind == .pch && !t.retest then
    let l1 := bits (s.reg (hifCtx c 8)) 38 16 * 2 ^ 16
    let l2 := tableNext s l1
    let lines (base n : Nat) : List PAddr := (List.range n).map fun i => ⟨.pkg, base + 256 * i⟩
    ((l1 :: l2 ++ dedup (l2.flatMap (tableNext s))).flatMap (lines · 128) ++ lines (bits (s.reg (hifCtx c 0x10)) 38 13 * 2 ^ 13) 32).any
      s.channelWait
  else false

/-- The permission test of R173. -/
def permits (e : Nat) : Need → Bool
  | .load => bitAt e 3
  | .store => bitAt e 4
  | .atomic => bitAt e 3 && bitAt e 4
  | .fetch => bitAt e 5
  | .nothing => true

/-- The level-3 entry that a TLB entry gives for a page: of a merged chunk, the one with the page's offset in the region (R175). -/
def TlbEntry.pte? (t : TlbEntry) (c vpage : Nat) : Option Nat :=
  if t.ctx ≠ c then none
  else match t.cover with
    | .page v e => if v = vpage then some e.toNat else none
    | .region r base mask attr =>
      if r = vpage / 2048 ∧ mask.getLsbD (vpage % 2048 / 32) = true then some ((base + vpage % 2048) * 2 ^ 16 + attr) else none

/-- The level-3 entry that an access uses: the tables' own, or, until an invalidation completes, one that a TLB on its way still
holds, as the package chooses (R174, R176). DEDUCED (log entry 44). -/
def leaf (s : State) (c va : Nat) : Except Cls Nat :=
  if s.tlb.isEmpty || s.via.isEmpty then walk s c va
  else
    let now := walk s c va
    let fresh (e : Nat) : Bool := match now with | .ok x => x == e | .error _ => false
    let olds := ((s.tlb.filterMap fun t => if s.via.contains t.place then t.pte? c (va / 65536) else none).filter fun e => !fresh e).zipIdx
    match olds.find? fun e => Config.freeBit (s.free * 2 ^ 64 + 2 ^ 52 * (e.2 + 1) + va) with
    | some e => .ok e.1
    | none => now

/-- A bank window descriptor (R18), read at one index of a context's table. -/
structure BankWin where
  index : Nat
  vbase : Nat
  len : Nat
  target : Nat
  maxburst : Nat
  kind : Nat
  write : Bool
  read : Bool
  bad : Bool                 -- its descriptor is poisoned (R32)
  deriving DecidableEq, Repr

def bankAt (s : State) (c i : Nat) : BankWin :=
  let b := bits (s.reg (hifCtx c 0x10)) 38 13 * 2 ^ 13 + 32 * i
  let f := s.natAt ⟨.pkg, b + 0x18⟩ 4
  { index := i, vbase := s.natAt ⟨.pkg, b⟩ 8, len := s.natAt ⟨.pkg, b + 8⟩ 8, target := s.natAt ⟨.pkg, b + 16⟩ 8,
    maxburst := bits f 11 8, kind := bits f 3 2, write := bitAt f 1, read := bitAt f 0, bad := s.poisoned ⟨.pkg, b⟩ 32 }

/-- The valid windows of a context: those whose LENGTH is not zero, and those whose descriptor is poisoned. A table none of whose bytes
is written has none. DEDUCED (log entry 13). -/
def banks (s : State) (c : Nat) : List BankWin :=
  let b := bits (s.reg (hifCtx c 0x10)) 38 13 * 2 ^ 13
  if s.pkgMem.any (fun x => decide (b ≤ x.1) && decide (x.1 < b + 8192)) then
    ((List.range 256).map (bankAt s c)).filter (fun w => w.len != 0 || w.bad)
  else []

def bankOf (s : State) (c va : Nat) : Option BankWin :=
  (banks s c).find? fun w => !w.bad && decide (w.vbase ≤ va) && decide (va < w.vbase + w.len)

/-- A window descriptor of a context is poisoned: an access that no other window holds cannot be judged against it (R32).
DEDUCED (log entry 13). -/
def banksBad (s : State) (c : Nat) : Bool := !s.poison.isEmpty && (banks s c).any (·.bad)

/-- The queue whose submission port's page holds an address (R99); of several queues with one page, which the spec does not judge,
the lowest. DESIGN CHOICE (log entry 69). -/
def portOf (s : State) (c va : Nat) : Option Nat :=
  (List.range 16).find? fun q =>
    let page := bits (s.reg (hifQ c q 0x20)) 51 16
    page != 0 && page == va / 65536 &&
      (match Tab.find (16 * c + q) s.queues with
       | some r => r.device
       | none => bitAt (s.reg (hifQ c q 8)) 30)

/-- The translation of a global address for an access (R171 to R173, R20, R99). DEDUCED (log entry 59). -/
def translate (s : State) (c : Nat) (va : DWord) (need : Need) : Except Cls Xlat :=
  let a := va.toNat
  if bits a 63 52 != 0 then .error .pageForm
  else if (portOf s c a).isSome then .error .pageForm
  else if (bankOf s c a).isSome then .error .pageForm
  else if banksBad s c then .error .eccFatal
  else
    match leaf s c a with
    | .error e => .error e
    | .ok e =>
      if permits e need then
        .ok { cls := bits e 7 6,
              at_ := if bits e 7 6 == 2 then ⟨.pkg, bits e 38 16 * 2 ^ 16⟩
                     else ⟨if bits e 7 6 == 1 then .pod else .pkg, bits e 44 16 * 2 ^ 16 + a % 65536⟩ }
      else .error .pagePerm

/-- A TLB takes an entry; a full one gives up its oldest. DESIGN CHOICE (log entry 79). -/
def State.holdTlb (s : State) (cap : Nat) (e : TlbEntry) : State :=
  let full := decide (cap ≤ (s.tlb.filter fun t => t.place == e.place).length)
  { s with tlb := e :: (if full then (s.tlb.reverse.eraseP fun t => t.place == e.place).reverse else s.tlb) }

/-- The chunk of 32 pages that holds a page may merge: its level-3 entries are valid, with equal CLASS, X, W and R, and their
physical pages follow each other (R175). A lode page names no physical page of its own. -/
def mayMerge (s : State) (c vpage e : Nat) : Bool :=
  let first := vpage / 32 * 32
  bits e 7 6 != 2 && decide (vpage % 2048 ≤ bits e 44 16) &&
  (List.range 32).all fun i => match walk s c ((first + i) * 65536) with
    | .ok x => bits x 7 0 == bits e 7 0 && bits x 44 16 + vpage == bits e 44 16 + (first + i)
    | .error _ => false

/-- A stope's last-level TLB takes a page, as an entry of its own or merged into one of its region, as the package chooses (R175).
DESIGN CHOICE (log entry 79). -/
def State.holdLast (s : State) (k c vpage e : Nat) : State :=
  if Config.freeBit (s.free * 2 ^ 64 + 2 ^ 63 + vpage) && mayMerge s c vpage e then
    let base := bits e 44 16 - vpage % 2048
    let bit : DWord := BitVec.ofNat 64 (2 ^ (vpage % 2048 / 32))
    let same (t : TlbEntry) : Option DWord := match t.cover with
      | .region r b m a =>
        if t.place = .stope k ∧ t.ctx = c ∧ r = vpage / 2048 ∧ b = base ∧ a = bits e 7 0 then some m else none
      | .page .. => none
    if s.tlb.any fun t => (same t).isSome then
      { s with tlb := s.tlb.map fun t => match same t with
          | some m => { t with cover := .region (vpage / 2048) base (m ||| bit) (bits e 7 0) }
          | none => t }
    else s.holdTlb 4096 { place := .stope k, ctx := c, cover := .region (vpage / 2048) base bit (bits e 7 0) }
  else s.holdTlb 4096 { place := .stope k, ctx := c, cover := .page vpage (BitVec.ofNat 64 e) }

/-- A TLB holds a page. -/
def State.inTlb (s : State) (place : TlbPlace) (c vpage : Nat) : Bool :=
  s.tlb.any fun t => t.place == place && (t.pte? c vpage).isSome

/-- A translation that succeeded enters a core's first-level TLB, and the last-level TLB of its stope (R174). No walk that ended in
a fault is held. DEDUCED (log entry 44). -/
def State.noteTlb (s : State) (core c : Nat) (va : DWord) : State :=
  let v := va.toNat / 65536
  if bits va.toNat 63 52 != 0 || (bankOf s c va.toNat).isSome then s
  else if s.inTlb (.core core) c v then s
  else match walk s c va.toNat with
    | .ok e =>
      let s := s.holdTlb 256 { place := .core core, ctx := c, cover := .page v (BitVec.ofNat 64 e) }
      if s.inTlb (.stope (stopeOfCore core)) c v then s else s.holdLast (stopeOfCore core) c v e
    | .error _ => s

/-- The same of the last-level TLB of a core's stope alone, for what an engine of the stope reaches. -/
def State.noteStope (s : State) (core c : Nat) (va : DWord) : State :=
  let v := va.toNat / 65536
  if bits va.toNat 63 52 != 0 || (bankOf s c va.toNat).isSome || s.inTlb (.stope (stopeOfCore core)) c v then s
  else match walk s c va.toNat with
    | .ok e => s.holdLast (stopeOfCore core) c v e
    | .error _ => s

/-- A translation that a copy engine uses enters its walk-ahead TLB (R174, R180). -/
def State.noteAhead (s : State) (core c : Nat) (va : DWord) : State :=
  if bits va.toNat 63 52 != 0 || s.inTlb (.ahead core) c (va.toNat / 65536) then s
  else match walk s c va.toNat with
    | .ok e => s.holdTlb 64 { place := .ahead core, ctx := c, cover := .page (va.toNat / 65536) (BitVec.ofNat 64 e) }
    | .error _ => s

/-! ## Fault records and stops -/

/-- The code of a class (R273). -/
def Cls.code : Cls → Nat
  | .illegalOp => 1 | .regRange => 2 | .misalign => 3 | .pageAbsent => 4 | .pageForm => 5 | .pagePerm => 5 | .classWidth => 6
  | .lodeExhausted => 7 | .seamBadTable => 8 | .sealIllegal => 9 | .stateIllegal => 0xA | .divZero => 0xB
  | .assertion => 0xC | .brk => 0xD | .fabricTimeout => 0xE | .copyRingFault => 0xF | .eccFatal => 0x10
  | .forcedReset => 0xFE00 | .pagesRetired => 0xFE01 | .unitFenced => 0xFE02

/-- The order of the checks (R272), which is the order of a stop's records (R274); the two classes of translation take a place
each. DEDUCED (log entry 59). -/
def Cls.order : Cls → Nat
  | .brk => 1 | .illegalOp => 2 | .regRange => 3 | .sealIllegal => 4 | .stateIllegal => 5 | .divZero => 6
  | .misalign => 7 | .pageForm => 8 | .pageAbsent => 9 | .pagePerm => 10 | .classWidth => 11 | .seamBadTable => 12
  | .lodeExhausted => 13 | .eccFatal => 14 | .assertion => 15 | .fabricTimeout => 16 | _ => 17

/-- The classes whose records are told apart by page (R274). -/
def Cls.paged : Cls → Bool
  | .misalign | .pageForm | .pageAbsent | .pagePerm | .classWidth | .seamBadTable | .lodeExhausted | .eccFatal => true
  | _ => false

/-- A fault that a thread's check found, with the address that failed. -/
structure Flt where
  cls : Cls
  addr : DWord
  deriving DecidableEq, Repr

/-- A context stop (R281): STOPPED becomes 1; while it is, no group of the context issues and nothing of it begins. -/
def State.stopContext (s : State) (c : Nat) : State :=
  s.setReg (hifCtx c 0x38) (setBits (s.reg (hifCtx c 0x38)) 1 1 1)

def Cls.stopsContext : Cls → Bool
  | .assertion | .eccFatal => true
  | _ => false

/-- The key of a fault's record: its class, and its page for the classes that have one (R274). -/
def Flt.key (f : Flt) : Nat × Nat × Cls := (f.cls.order, if f.cls.paged then f.addr.toNat / 65536 else 0, f.cls)

def keyLe (a b : Nat × Nat × Cls) : Bool :=
  decide (a.1 < b.1) || (a.1 == b.1 && (decide (a.2.1 < b.2.1) ||
    (a.2.1 == b.2.1 && decide (a.2.2.code ≤ b.2.2.code))))

/-- One record of a group stop (R274). -/
def groupRec (s : State) (sid rid : Nat) (g : Group) (pc : DWord) (hit : List (Thread × Flt)) (cls : Cls)
    (isLast : Bool) : FRec :=
  { rid, stop := sid, ctx := g.ctx, seq := none, isLast, burst := false, isAsync := false, queue := 0xFF,
    code := cls.code,
    addr := match minBy (fun a b => decide (a.2.addr.toNat ≤ b.2.addr.toNat)) hit with
      | some x => if cls = .assertion then (match minBy (fun a b => decide (a.1.slot ≤ b.1.slot)) hit with
          | some y => y.2.addr
          | none => 0) else x.2.addr
      | none => 0,
    pc, cmdseq := 0, core := g.core, threads := g.members.length,
    slot := (match minBy (fun a b => decide (a.1.slot ≤ b.1.slot)) hit with | some y => y.1.slot | none => 0),
    stamp := s.ns, named := hit.map (·.1.uid), acted := none, outstanding := true }

/-- TAKING A STOP (R269, R272 to R274): the group stops exactly at `pc`, before any effect of what stands there; its
records are made, one for each pair of class and page, in the order of R272 and then by page, and are held until they
are written (R100). A class that stops the context stops it (R281). DEDUCED (log entry 59). -/
def State.takeStop (s : State) (g : Group) (pc : DWord) (boundary : Bool) (flts : List (Thread × Flt)) : State :=
  let sid := s.nextId
  let keys := sortBy keyLe (dedup (flts.map fun x => x.2.key))
  let recs := keys.zipIdx.map fun (k, i) =>
    groupRec s sid (sid + 1 + i) g pc (flts.filter fun x => x.2.key == k) k.2.2 (decide (i + 1 = keys.length))
  let stop : Stop := { sid, ctx := g.ctx, what := .group g.gid, boundary, deferred := false,
                       isBrk := flts.all fun x => x.2.cls == .brk }
  let s : State := { s with nextId := sid + 1 + keys.length, records := s.records ++ recs, stops := s.stops ++ [stop] }
  let s := s.onGroup g.gid fun g => { g with wait := .fault sid }
  if flts.any fun x => x.2.cls.stopsContext then s.stopContext g.ctx else s

/-- A record that is no group's: a command stop (R274), a burst failure (R22), a queue error (R98) or a notice. -/
def State.addRec (s : State) (stop ctx : Nat) (burst isAsync : Bool) (queue code : Nat) (addr pc : DWord) (cmdseq : Word)
    (core slot : Nat) (named : List Nat) : State :=
  let r : FRec := { rid := s.nextId, stop, ctx, seq := none, isLast := true, burst, isAsync, queue, code, addr, pc,
                    cmdseq, core, threads := 0, slot, stamp := s.ns, named, acted := none, outstanding := true }
  { s with nextId := s.nextId + 1, records := s.records ++ [r] }

/-- A command stop (R273, R279): one record, which names the page of the address that failed (R274), and the stop that halts
the command. Answers the stop's name. -/
def State.stopCmd (s : State) (ctx : Nat) (what : StopOf) (cls : Cls) (addr pc : DWord) (seq : Word) (core slot : Nat) :
    Nat × State :=
  let sid := s.nextId
  let stop : Stop := { sid, ctx, what, boundary := false, deferred := false, isBrk := false }
  let s : State := { s with nextId := sid + 1, stops := s.stops ++ [stop] }
  let s := s.addRec sid ctx false true 0xFF cls.code (addr &&& ~~~(65535 : DWord)) pc seq core slot []
  (sid, if cls.stopsContext then s.stopContext ctx else s)

/-- A notice in a context's fault queue, which stops nothing (R79, R286). -/
def State.notice (s : State) (ctx code : Nat) (addr : DWord) : State :=
  s.addRec 0 ctx false true 0xFF code addr 0 0 0 0 []

/-! ## Groups -/

/-- The clause flag that a long-latency instruction sets now (R311). -/
def Clause.flag (c : Clause) : Option Nat :=
  if c.set1 = 15 then none
  else if !c.long then some c.set1
  else if c.set2 = 15 then some c.set1 else some c.set2

/-- The group past an instruction of `len` bytes: at the next instruction of its clause, or at the boundary after it. -/
def Group.past (g : Group) (len : Nat) (long : Bool) : Group :=
  match g.clause with
  | none => { g with pc := g.pc + BitVec.ofNat 64 len }
  | some c =>
    if c.left ≤ 1 then { g with pc := g.pc + BitVec.ofNat 64 len, clause := none, redo := none, bpSkip := none }
    else { g with pc := g.pc + BitVec.ofNat 64 len, redo := none, bpSkip := none,
                  clause := some { c with left := c.left - 1, long := c.long || long, words := c.words.drop (len / 4) } }

/-- A group at the clause header at an address. -/
def Group.atHeader (g : Group) (pc : DWord) : Group :=
  { g with pc, clause := none, wait := .none, redo := none, bpSkip := none }

/-- The part of a group that a divergent branch, a partial `yield` or a full table splits off (R146, R151): unsealed,
of the same family of subgroups. DEDUCED (log entry 16). -/
def Group.part (g : Group) (gid : Nat) (members : List Nat) : Group :=
  { g with gid, members, isSealed := false, byLane := false }

/-- A group whose threads are gone leaves the list. -/
def State.pruneGroups (s : State) : State := { s with groups := s.groups.filter fun g => !g.members.isEmpty }

end Sys2Proof.Machine
end

