-- ==== Sys2Proof/Machine/Operands.lean ====
section
/-! DEFINITION. Operand forms: which registers an instruction names, how an operand is read as a value of its type
and a result written (R254, R335 to R337, R367), the decoding checks (R272 orders 1 to 3), and the frame of an issue. -/

namespace Sys2Proof

/-! ## Which registers an operand record names -/

/-- Registers of one operand: the first, how many, and what the first must be a multiple of (R254, R335). -/
abbrev RegUse := Nat × Nat × Nat

def tyRegs (t : Ty) : Nat := if t.isPair then 2 else 1

def useOf (r : BitVec 9) (n : Nat) : RegUse := (r.toNat, n, n)
/-- A block of registers, or a single one: no alignment. -/
def blockOf (r : BitVec 9) (n : Nat) : RegUse := (r.toNat, n, 1)

/-- Operand B where a literal may stand for it (R335, R367). -/
def Op.bUse (o : Op) (n : Nat) : List RegUse := if o.len.hasLit then [] else [useOf o.b n]
/-- The third source where the form has a C field. -/
def Op.cUse (o : Op) (n : Nat) : List RegUse := if o.len.isExt then [useOf o.c n] else []
/-- A tile operand: a register unless TIMM (R391). -/
def Op.tileUse (o : Op) (f : BitVec 9) : List RegUse := if o.timm then [] else [useOf f 1]

/-- Registers of a stack move (R373). -/
def Op.stackCount (o : Op) : Nat := if o.len.isExt then (o.imm.extractLsb' 0 9).toNat else o.b.toNat + 1

/-- n of `accrd` and `accwr` (R413). -/
def Op.accCount (o : Op) : Nat := o.aux.toNat + 1

/-- The source type of `cvt` and `fcvt` (R348, R352). -/
def Op.srcTy (o : Op) : Ty := (Ty.ofCode (o.imm.extractLsb' 0 5).toNat).getD .none

/-- Every register operand of an instruction. -/
def Opc.regUses (k : Opc) (o : Op) : List RegUse :=
  let w := tyRegs o.ty
  let d (n : Nat) : List RegUse := [useOf o.d n]
  let a (n : Nat) : List RegUse := [useOf o.a n]
  match k with
  | .add | .sub | .mul | .mulh | .div | .rem | .min | .max | .and | .or | .xor | .andn | .sel => d w ++ a w ++ o.bUse w
  | .mad => d w ++ a w ++ o.bUse w ++ o.cUse w
  | .madw => d 2 ++ a 1 ++ o.bUse 1 ++ o.cUse 2
  | .lea => d 2 ++ a 2 ++ o.bUse 1
  | .leaLabel | .moviW64 | .call | .tileState | .perfRd => d 2
  | .abs | .not | .brev | .redux | .scan | .scanEx => d w ++ a w
  | .shl | .shr | .sar | .rol | .bfe | .shfl => d w ++ a w ++ o.bUse 1
  | .bfi => d w ++ a w ++ o.bUse 1 ++ o.cUse w
  | .popc | .clz | .ctz => d 1 ++ a w
  | .perm | .ffma => d 1 ++ a 1 ++ o.bUse 1 ++ o.cUse 1
  | .cmp => a w ++ o.bUse w
  | .pset | .voteAny | .voteAll | .bra | .exit | .yield | .nop | .brk | .trap | .enrol | .join | .reform | .seal
  | .fence | .tbar | .cbar | .tileSet | .bzero | .oprel | .forgeRdy | .seamFencePkg | .seamFencePod | .isync
  | .tlbInvAll | .halt => []
  | .mov | .frcp | .frsq | .fsqrt | .fex2 | .flg2 | .frnd | .quant | .dequant => d 1 ++ a 1
  | .movSpecial => if o.a.toNat = 0x20 then d 2 else d 1
  | .movW64 => d 2 ++ a 2
  | .moviW32 | .ldcPar | .accget | .cntRd | .sregR | .bstatSeq => if o.ty.isPair then d 2 else d 1
  | .cvt => d w ++ a (tyRegs o.srcTy)
  | .fadd | .fsub | .fmul | .fmin | .fmax => d 1 ++ a 1 ++ o.bUse 1
  | .fcmp | .fcls => a 1 ++ o.bUse 1
  | .fcvt => d (if o.fcvtUnpack then 2 else w) ++ a (tyRegs o.srcTy) ++ (if o.fcvtPack then [useOf o.b 1] else [])
  | .voteBallot => d 4
  | .voteEq => a w
  | .brx | .ret | .pref | .trc => a 2
  | .assert => [useOf o.b 2]
  | .park | .tlbInv | .icinv | .winArm | .seamRehash | .lodeGrow => a 2 ++ o.bUse 1
  | .ld | .ldc => d w ++ a 2
  | .st => a 2 ++ o.bUse w
  | .ldt | .ldd => d w ++ a 1
  | .stt | .std => a 1 ++ o.bUse w
  | .spush => [blockOf o.a o.stackCount]
  | .spop => [blockOf o.d o.stackCount]
  | .xadd | .xmax | .xmin | .xswp | .xbit => d w ++ a 2 ++ o.bUse w
  | .xcas => d w ++ a 2 ++ o.bUse w ++ o.cUse w
  | .txbArrive | .nzscan => d 1 ++ a 1 ++ o.bUse 1
  | .txbInit | .txbExpect | .txbWait | .tileDef | .opresTm => a 1 ++ o.bUse 1
  | .trec | .bread | .bwrite | .opresFill | .opres | .accrel | .mma | .mmaSp | .smx | .seamHash | .seamProbe
  | .seamGather | .seamProbePre | .lodeCopy | .ctxSave => a 1
  | .bstat => d 2 ++ a 1
  | .bcopy => (if o.aux.toNat = 2 then [] else a 1) ++ (if o.imm.getLsbD 0 then [useOf o.b 1] else [])
  | .bcopyMc => a 1 ++ o.cUse 1
  | .accrd => [blockOf o.d o.accCount] ++ a 1 ++ o.tileUse o.b
  | .accwr => o.tileUse o.d ++ a 1 ++ [blockOf o.b o.accCount]
  | .accscale => o.tileUse o.d ++ o.bUse 1
  | .accscaleNorm | .accflush | .accflushSt => o.tileUse o.d
  | .accrdSide => [blockOf o.d 2] ++ a 1 ++ o.tileUse o.b
  | .accwrSide => o.tileUse o.d ++ a 1 ++ [blockOf o.b 2]
  | .seamFam | .cntInit | .cntAdd | .sregW => o.bUse 1
  | .seamIns | .seamDel => d 1 ++ a 2 ++ [useOf o.b 2] ++ o.cUse 1
  | .seamFin | .seamPub => a 2
  | .seamVer => a 2 ++ [useOf o.b 2]
  | .lodeCount => d 1 ++ a 1
  | .lodeNext => d 2 ++ a 2 ++ [useOf o.b 2, useOf o.c 1]
  | .lodeTrim => d 1 ++ a 2 ++ o.bUse 1
  | .taskPost => [blockOf o.b 8]
  | .taskArm => [useOf o.b 1]
  | .post64 => d 1 ++ a 2 ++ [blockOf o.b 16]
  | .lamp => [blockOf o.b 16]
  | .ctxLoad => a 1 ++ [useOf o.b 1]

/-- The special registers of R318. -/
def specialListed (n : Nat) : Bool :=
  decide (n ≤ 6) || (decide (8 ≤ n) && decide (n ≤ 0xA)) || (decide (0xC ≤ n) && decide (n ≤ 0xE)) ||
  (decide (0x10 ≤ n) && decide (n ≤ 0x13)) || (decide (0x18 ≤ n) && decide (n ≤ 0x1E)) || n == 0x20 || n == 0x21

/-- What takes ILLEGAL_OP at issue although it is assigned: an odd pair or a misplaced group of registers (R254, R335),
a scope and order that R233 forbids, and the cases that the descriptions name. -/
def Opc.illegal (k : Opc) (o : Op) : Bool :=
  (k.regUses o).any (fun u => u.1 % u.2.2 != 0) ||
  (match k with
   | .fex2 | .flg2 => o.rmCode != 0
   | .movSpecial => !specialListed o.a.toNat
   | .ld | .ldt | .ldd => !(o.orderCode == 0 || o.orderCode == 1)
   | .st | .stt | .std => !(o.orderCode == 0 || o.orderCode == 2)
   | .sregR => decide (4 < o.a.toNat)
   | .sregW => !(o.d.toNat == 0 || o.d.toNat == 1 || o.d.toNat == 4)
   | .perfRd => decide (11 < o.a.toNat)
   | _ => false)

/-- A register at or above the allocation (R308). -/
def Opc.beyond (k : Opc) (o : Op) (n : Nat) : Bool := (k.regUses o).any fun u => decide (n < u.1 + u.2.1)

/-- The operations whose D field names a tile (R391). -/
def Opc.tileInD (k : Opc) : Bool := k matches .accwr | .accwrSide | .accscale | .accscaleNorm | .accflush | .accflushSt

/-- The operations with a third source, which the base form takes from D (R335). -/
def Opc.thirdInD (k : Opc) (o : Op) : Bool := (k matches .mad | .madw | .perm | .ffma | .bfi | .xcas) && !o.len.isExt

/-- The register operands that the D field names. -/
def Opc.dUses (k : Opc) (o : Op) : List RegUse :=
  (((k.regUses o).zip (k.regUses { o with d := 511 })).filter fun u => u.2.1 == 511).map (·.1)

/-- The registers that an instruction reads. -/
def Opc.sources (k : Opc) (o : Op) : List RegUse :=
  ((k.regUses { o with d := 511 }).filter fun u => u.1 != 511) ++ (if k.tileInD || k.thirdInD o then k.dUses o else [])

/-- The registers that it writes. -/
def Opc.outs (k : Opc) (o : Op) : List RegUse := if k.tileInD then [] else k.dUses o

/-- The operations that are performed once for the group, by its elected thread (R392). -/
def Opc.elected (k : Opc) : Bool :=
  k matches .oprel | .opresFill | .opres | .opresTm | .accget | .accrel | .mma | .mmaSp | .smx | .accscale | .accscaleNorm
    | .accflush | .accflushSt | .seamFam | .seamHash | .seamProbe | .seamProbePre | .seamGather | .seamVer | .seamRehash
    | .seamFin | .seamPub | .nzscan | .lodeGrow | .lodeTrim | .lodeCopy

/-- Major 0x20 to 0x3C, `div`, `rem`, `tlb.inv`, `ctx.save` and `ctx.load` are long-latency (R311). -/
def Opc.long (k : Opc) : Bool :=
  match k with
  | .div | .rem | .tlbInv | .tlbInvAll | .ctxSave | .ctxLoad => true
  | _ => decide (0x20 ≤ k.row.major) && decide (k.row.major ≤ 0x3C)

/-- The control transfers (R314). -/
def Opc.transfer : Opc → Bool
  | .bra | .brx | .call | .ret | .exit | .yield | .park | .join | .reform | .seal | .halt => true
  | _ => false

end Sys2Proof

namespace Sys2Proof.Machine

/-! ## Values -/

/-- The number that the low bits of a raw value hold under a type (R254). -/
def tyVal (t : Ty) (x : DWord) : Int :=
  if t.isSigned then (x.toNat % 2 ^ t.bits : Int) - (if bitAt x.toNat (t.bits - 1) then 2 ^ t.bits else 0)
  else (x.toNat % 2 ^ t.bits : Int)

def tyMin (t : Ty) : Int := if t.isSigned then -(2 ^ (t.bits - 1)) else 0
def tyMax (t : Ty) : Int := if t.isSigned then 2 ^ (t.bits - 1) - 1 else 2 ^ t.bits - 1

/-- sat(r, T) (R337). -/
def satTo (t : Ty) (r : Int) : Int := min (max r (tyMin t)) (tyMax t)

/-- The value that D receives of an integer result (R254, R337): wrapped or saturated to the type, and extended to 32
bits where it is narrower. -/
def tyWrite (t : Ty) (sat : Bool) (r : Int) : DWord :=
  let r := if sat then satTo t r else r
  BitVec.ofInt 64 (tyVal t (BitVec.ofInt 64 r))

/-- A register operand of a type: the pair of a 64-bit type, else the register. -/
def Thread.src (t : Thread) (ty : Ty) (r : BitVec 9) : DWord :=
  if ty.isPair then t.pair r.toNat else (t.reg r.toNat).setWidth 64

/-- A write of a result of a type into D. -/
def Thread.dst (t : Thread) (ty : Ty) (r : BitVec 9) (v : DWord) : Thread :=
  if ty.isPair then t.setPair r.toNat v else t.setReg r.toNat (v.setWidth 32)

end Sys2Proof.Machine

namespace Sys2Proof

open Machine

/-- The literal as it reaches a thread: the patch unit delivers the value of the thread's own launch (R324). -/
def Op.litFor (o : Op) (t : Thread) : DWord := t.lit.getD o.lit

/-- Operand B: a literal or a register (R335). -/
def Op.srcB (o : Op) (t : Thread) (ty : Ty) : DWord :=
  if o.len.hasLit then (if ty.isPair then o.litFor t else ((o.litFor t).setWidth 32).setWidth 64) else t.src ty o.b

/-- Operand B of one register, or literal[31:0]. -/
def Op.srcB32 (o : Op) (t : Thread) : Word := if o.len.hasLit then (o.litFor t).setWidth 32 else t.reg o.b.toNat

/-- The third source (R335): C in the extended form, D in the base form. -/
def Op.srcC (o : Op) (t : Thread) (ty : Ty) : DWord := t.src ty (if o.len.isExt then o.c else o.d)

/-- The guard (R304). -/
def Op.guard (o : Op) (t : Thread) : Bool := t.pred o.g.toNat != o.neg

/-- The global address of an access (R367). -/
def Op.gaddr (o : Op) (t : Thread) : DWord :=
  t.pair o.a.toNat + (if o.len.isExt then o.imm.signExtend 64 else 0)

/-- The team or die address of an access (R367). -/
def Op.laddr (o : Op) (t : Thread) : Word :=
  t.reg o.a.toNat + (if o.len.isExt then o.imm.signExtend 32 else 0)

/-- The pipe of a major: 0x02 to 0x1B issue on the vector pipe, the rest on the memory and control pipe.
PRESUMED (log entry 9). -/
def Opc.vector (k : Opc) : Bool := decide (k.row.major ≤ 0x1B)

end Sys2Proof

namespace Sys2Proof.Machine

/-! ## The frame of an issue -/

/-- What the body of an instruction does with its group. -/
inductive Body
  | done (s : State)                            -- the group goes on past the instruction
  | moved (s : State)                           -- the body has placed the group itself
  | stopped (s : State)                         -- the body has stopped the group itself
  | stall                                       -- the instruction waits to issue
  | stop (flts : List (Thread × Flt))           -- the group stops exactly (R269)
  deriving DecidableEq, Repr

/-- An armed breakpoint of the core matches the group's next word (R298). -/
def State.breakHit (s : State) (g : Group) : Bool :=
  s.debugOn && g.bpSkip != some g.pc &&
  (List.range 8).any fun k =>
    let v := s.reg (dbg (0x2000 + 0x40 * g.core + 8 * k))
    bitAt v 63 && bits v 57 52 == g.ctx && bits v 51 2 * 4 == g.pc.toNat

def allTake (ths : List Thread) (c : Cls) : List (Thread × Flt) := ths.map fun t => (t, { cls := c, addr := 0 })

/-- The bytes of registers of a thread's slot. -/
def Thread.regCells (t : Thread) (u : RegUse) : PAddr × Nat := (⟨.regs t.core, 4 * (320 * t.slot + u.1)⟩, 4 * u.2.1)

/-- The executing threads that would read a poisoned register; of an elected instruction, its elected thread alone (R32, R392). -/
def State.badReaders (s : State) (k : Opc) (o : Op) (xs : List Thread) : List Thread :=
  if s.poison.isEmpty then []
  else (if k.elected then xs.take 1 else xs).filter fun t =>
    (k.sources o).any fun u => s.poisoned (t.regCells u).1 (t.regCells u).2

/-- Registers that are written are no longer poisoned (R32). -/
def State.liftRegs (s : State) (us : List RegUse) (xs : List Thread) : State :=
  if s.poison.isEmpty then s
  else xs.foldl (fun (s : State) t => us.foldl (fun (s : State) u => s.lift (t.regCells u).1 (t.regCells u).2) s) s

/-- The stop of an instruction some of whose threads name registers beyond their allocation, or would read poisoned ones, with
what the body stops the others for: a stop carries every class that its threads take (R272). -/
def mixedStop (k : Opc) (low bad : List Thread) (xs : List Thread) (body : List Thread → Body) : List (Thread × Flt) :=
  let rest := xs.filter fun t => !low.any fun u => u.uid == t.uid
  let lost := k.elected && (match xs.head? with | some t => low.any fun u => u.uid == t.uid | none => true)
  let fs := if lost then [] else match body rest with | .stop fs => fs | _ => []
  let isBad (t : Thread) : Bool := (bad.any fun u => u.uid == t.uid) && !low.any fun u => u.uid == t.uid
  let fs := fs.filter fun f => !(f.2.cls == .assertion && isBad f.1)
  allTake low .regRange ++ fs ++ allTake (rest.filter fun t => isBad t && !fs.any fun f => f.1.uid == t.uid) .eccFatal

/-- What an issue leaves behind: the group's priority age starts anew and its pipe is spent for this cycle (R139), the
performance counters of R453 count, and the flue samples the vector pipe (R294). PRESUMED (log entry 9). -/
def State.noteIssue (s : State) (k : Opc) (g : Group) (n : Nat) : State :=
  let s : State := { s with spent := (g.core, k.vector) :: s.spent }
  let s := s.onGroup g.gid fun g => { g with ready := s.clock, aged := false }
  let s := (s.bumpPerf g.core (if k.vector then 1 else 2) 1).bumpPerf g.core 3 n
  if k.vector then s.setCore g.core { s.core g.core with lastVector := g.members } else s


/-- The threads of a group that execute an instruction: those whose guard holds (R304), and of a resumed lode store
those that were refused (R223). -/
def State.executing (s : State) (g : Group) (o : Op) : List Thread :=
  (s.membersOf g).filter fun t => o.guard t && (match g.redo with | some l => l.contains t.uid | none => true)

/-- Whether an instruction stands last in its clause (R314). -/
def Group.atEnd (g : Group) : Bool := match g.clause with | some c => decide (c.left ≤ 1) | none => true

/-- The threads whose registers an instruction writes: of an elected one, the elected thread (R392). -/
def writersOf (k : Opc) (xs : List Thread) : List Thread := if k.elected then xs.take 1 else xs

/-- AN ISSUE: the decoding checks in the order of R272 (a breakpoint, ILLEGAL_OP, REG_RANGE), which are made for every
thread of the group whatever the guards; then the body; then the group stands past the instruction, or stops exactly, or
waits. Without an issuing group nothing happens. -/
def State.issue (k : Opc) (o : Op) (s : State) (body : Group → List Thread → Body) :
    Host.Outcome State Fault Refusal :=
  match s.cur with
  | none => .next s
  | some c =>
    match s.group? c.gid with
    | none => .next s
    | some g =>
      let ths := s.membersOf g
      if s.breakHit g then .next (s.takeStop g g.pc false (allTake ths .brk))
      else if k.illegal o || (k.transfer && !g.atEnd) then .next (s.takeStop g g.pc false (allTake ths .illegalOp))
      else if ths.any (fun t => k.beyond o t.n) || !(s.badReaders k o (s.executing g o)).isEmpty then
        .next (s.takeStop g g.pc false
          (mixedStop k (ths.filter fun t => k.beyond o t.n) (s.badReaders k o (s.executing g o)) (s.executing g o) (body g)))
      else
        match body g (s.executing g o) with
        | .done s' => .next (((s'.liftRegs (k.outs o) (writersOf k (s.executing g o))).onGroup g.gid fun g => g.past c.len k.long).noteIssue k g
            (s.executing g o).length)
        | .moved s' => .next ((s'.liftRegs (k.outs o) (writersOf k (s.executing g o))).noteIssue k g (s.executing g o).length)
        | .stopped s' => .next s'
        | .stall => .next { s with stalls := g.gid :: s.stalls }
        | .stop fs => .next (s.takeStop g g.pc false fs)

/-- The faults that a check finds among the executing threads. -/
def faultsOf (xs : List Thread) (chk : Thread → Option Flt) : List (Thread × Flt) :=
  xs.filterMap fun t => (chk t).map fun f => (t, f)

/-- A lane instruction: each executing thread is checked and then computes from its own operands. -/
def State.lanes (k : Opc) (o : Op) (s : State) (chk : Thread → Option Flt) (wr : Thread → Thread) :
    Host.Outcome State Fault Refusal :=
  s.issue k o fun _ xs =>
    match faultsOf xs chk with
    | [] => .done (s.onThreads (xs.map (·.uid)) wr)
    | f :: fs => .stop (f :: fs)

/-- A lane instruction that no operand makes fault. -/
def State.compute (k : Opc) (o : Op) (s : State) (wr : Thread → Thread) : Host.Outcome State Fault Refusal :=
  s.lanes k o (fun _ => none) wr

/-- The clause flag that the instruction sets (R311). -/
def Group.flagNow (g : Group) : Option Nat := g.clause.bind Clause.flag

/-- The elected thread: the executing thread of lowest position (R392). -/
def elected (xs : List Thread) : Option Thread := xs.head?

end Sys2Proof.Machine
end

