-- ==== Sys2Proof/Machine/Engine.lean ====
section
/-! DEFINITION. Operations that several units share: the patch unit and clause fetch, deferred stops, flags and their
completion, writes at a home, counters and windows, tiles and transaction barriers, filing, joins, seals, barriers,
and the end of threads. -/

namespace Sys2Proof.Machine

/-! ## The patch unit (R324) -/

/-- The 8 bytes of a patch record's value: zero-extended, sign-extended or whole. -/
def Launch.patchVal (l : Launch) (width poff : Nat) : Nat :=
  let x := natOfBytes ((l.params.drop poff).take (if width = 2 then 8 else 4))
  if width = 1 && bitAt x 31 then x + (2 ^ 64 - 2 ^ 32) else x

/-- A byte of code as a fetch for the launch delivers it. -/
def Launch.overlayByte (l : Launch) (va : Nat) (b : Byte) : Byte :=
  match l.kernel.patches.find? fun p =>
      decide (l.kernel.kaddr.toNat + p.2.2 ≤ va) && decide (va < l.kernel.kaddr.toNat + p.2.2 + 8) with
  | some p => BitVec.ofNat 8 (l.patchVal p.1 p.2.1 / 2 ^ (8 * (va - (l.kernel.kaddr.toNat + p.2.2))))
  | none => b

def Launch.overlay (l : Launch) (va : Nat) (bs : List Byte) : List Byte :=
  if l.kernel.patches.isEmpty then bs else bs.zipIdx.map fun e => l.overlayByte (va + e.2) e.1

/-- A stored word at an address as the first thread of a group receives it. -/
def overlayWord (l : Option Launch) (va : DWord) (w : Word) : Word :=
  match l with
  | some l => BitVec.ofNat 32 (natOfBytes (l.overlay va.toNat (bytesOfWord w)))
  | none => w

/-- The launch of the thread of lowest position. -/
def State.leadLaunch (s : State) (g : Group) : Option Launch :=
  (s.membersOf g).head?.bind fun t => s.launchOf t.team

/-- The bytes of the instruction at which a group stands, as its first thread receives them. -/
def State.groupBytes (s : State) (g : Group) : List Byte :=
  match g.clause with
  | none => []
  | some c =>
    let bs := (c.words.take 5).flatMap bytesOfWord
    match s.leadLaunch g with
    | some l => l.overlay g.pc.toNat bs
    | none => bs

/-- The length of that instruction (R302). -/
def State.instrLen (s : State) (g : Group) : Nat :=
  match wordsOfBytes (s.groupBytes g) with
  | w :: _ => firstWordBytes w
  | [] => 4

/-- Offset of the literal of a word's instruction, where its LEN has one (R302). -/
def litOffset (w : Word) : Option Nat :=
  match wordLen w with
  | .baseLit => some 4
  | .extLit => some 12
  | _ => none

/-- Gives every thread of a group the literal that its own launch delivers (R324). -/
def State.presentLits (s : State) (g : Group) : State :=
  match g.clause, wordsOfBytes (s.groupBytes g) with
  | some c, w :: _ =>
    match litOffset w with
    | none => s.onThreads g.members fun t => { t with lit := none }
    | some off =>
      let raw := ((c.words.drop (off / 4)).take 2).flatMap bytesOfWord
      s.onThreads g.members fun t =>
        { t with lit := (s.launchOf t.team).map fun l =>
            BitVec.ofNat 64 (natOfBytes (l.overlay (g.pc.toNat + off) raw)) }
  | _, _ => s

/-! ## Clause fetch (R250, R315) -/

/-- Where a core's instruction cache holds the copy of a place (R31, R50). -/
def icachePlace (core : Nat) (p : PAddr) : PAddr :=
  match p.space with
  | .pod => ⟨.icachePod core, p.addr⟩
  | _ => ⟨.icache core, p.addr⟩

/-- Whether a byte of code may be fetched, and where it lies (R315). -/
def codePlace (s : State) (c : Nat) (va : DWord) : Except (Cls × DWord) PAddr :=
  match translate s c va .fetch with
  | .error e => .error (e, va)
  | .ok x => if x.cls = 2 then .error (.classWidth, va) else .ok x.at_

/-- A failed fetch reports the lowest address whose page fails, before poisoned code (R272, R315). -/
def firstUnread (e : Cls × DWord) : Option (Cls × DWord) → Cls × DWord
  | some e' => if e.1 = .eccFatal ∧ e'.1 ≠ .eccFatal then e' else e
  | none => e

/-- Two parts of a fetch, the lower first. -/
def bothRead {α : Type} (a : Except (Cls × DWord) α) (b : Except (Cls × DWord) (List α)) : Except (Cls × DWord) (List α) :=
  match a, b with
  | .ok x, .ok xs => .ok (x :: xs)
  | .ok _, .error e => .error e
  | .error e, .ok _ => .error e
  | .error e, .error e' => .error (firstUnread e (some e'))

def fetchBytes (s : State) (c : Nat) (va : DWord) : Nat → Except (Cls × DWord) (List Byte)
  | 0 => .ok []
  | n + 1 => bothRead (match codePlace s c va with
      | .error e => .error e
      | .ok p => if s.poisoned p 1 then .error (.eccFatal, va) else .ok (s.byteAt p)) (fetchBytes s c (va + 1) n)

/-- A word of code. -/
def fetchWord (s : State) (c : Nat) (va : DWord) : Except (Cls × DWord) Word :=
  if va.toNat % 65536 ≤ 65532 then
    match codePlace s c va with
    | .error e => .error e
    | .ok p => if s.poisoned p 4 then .error (.eccFatal, va) else .ok (BitVec.ofNat 32 (s.natAt p 4))
  else (fetchBytes s c va 4).map fun bs => BitVec.ofNat 32 (natOfBytes bs)

def fetchWords (s : State) (c : Nat) (va : DWord) : Nat → Except (Cls × DWord) (List Word)
  | 0 => .ok []
  | n + 1 => bothRead (fetchWord s c va) (fetchWords s c (va + 4) n)

/-- A word of a major that no instruction has (R317). -/
def noMajor (w : Word) : Bool := let m := wordMajor w; m == 0 || m == 0x3E || m == 0x3F

/-- Words from an address on as a launch receives them. -/
def overlayWords (l : Option Launch) (va : DWord) (ws : List Word) : List Word :=
  ws.zipIdx.map fun e => overlayWord l (va + BitVec.ofNat 64 (4 * e.2)) e.1

/-- What stops the fetch of some instructions, if anything does. -/
def failOf (r : Except (Cls × DWord) (List Word)) : Option (Cls × DWord) := match r with | .error e => some e | .ok _ => none

/-- The stored words of `k` instructions from an address on, their lengths as R302 gives them; nothing is read on after an
unassigned encoding, whose length says nothing (R317). A poisoned word does not hide a page that fails above it (R315). -/
def fetchInstrs (s : State) (c : Nat) (l : Option Launch) : Nat → DWord → Except (Cls × DWord) (List Word)
  | 0, _ => .ok []
  | k + 1, va =>
    match fetchWord s c va with
    | .error e => .error e
    | .ok w =>
      let w' := overlayWord l va w
      let n := firstWordBytes w'
      if noMajor w' then .ok [w]
      else match fetchWords s c (va + 4) (n / 4 - 1) with
      | .error e => .error (firstUnread e (failOf (fetchInstrs s c l k (va + BitVec.ofNat 64 n))))
      | .ok ws =>
        if (decodeBytes ((overlayWords l va (w :: ws)).flatMap bytesOfWord)).toOption.isNone then .ok (w :: ws)
        else match fetchInstrs s c l k (va + BitVec.ofNat 64 n) with
        | .error e => .error e
        | .ok rest => .ok (w :: ws ++ rest)

/-- The pieces of some bytes of code that lie in one page each: address and length. -/
def codePieces (va : DWord) (n : Nat) : List (DWord × Nat) :=
  (List.range ((va.toNat % 65536 + n + 65535) / 65536)).map fun i =>
    let from_ := if i = 0 then 0 else 65536 * i - va.toNat % 65536
    (va + BitVec.ofNat 64 from_, min n (65536 * (i + 1) - va.toNat % 65536) - from_)

/-- Where some bytes of code lie, page by page; none where one of the pages may not be fetched. -/
def codeRuns (s : State) (c : Nat) (va : DWord) (n : Nat) : Option (List (PAddr × Nat)) :=
  (codePieces va n).foldr (fun x rs => match codePlace s c x.1, rs with
    | .ok p, some rs => some ((p, x.2) :: rs)
    | _, _ => none) (some [])

/-- The clauses at a group's pc that its core's instruction cache holds and a fetch may still return (R250): those fetched from the
places at which all their bytes lie now (R315), no earlier than the latest `isync` of every thread of the group. -/
def State.heldClauses (s : State) (g : Group) : List (List (PAddr × Nat) × Nat × List Word) :=
  (s.core g.core).code.filter fun e =>
    (s.membersOf g).all (fun t => decide (t.synced ≤ e.2.1)) && codeRuns s g.ctx g.pc (4 * e.2.2.length) == some e.1

/-- An earlier fetch of the clause at a group's pc that a fetch returns (R250). The package chooses. DEDUCED (log entry 38). -/
def State.oldClause (s : State) (g : Group) : Option (List Word) :=
  ((s.heldClauses g).zipIdx.find? fun e => Config.freeBit ((s.free * 2 ^ 64 + 2 ^ 63 + g.pc.toNat) * 2 ^ 32 + e.2)).map fun e => e.1.2.2

/-- The first of some words of code whose copy in the instruction cache is poisoned, where the cache holds the clause (R31, R32). -/
def State.spoiltCode (s : State) (g : Group) (n : Nat) : Option (Cls × DWord) :=
  if s.poison.isEmpty || (s.heldClauses g).isEmpty then none
  else ((List.range (n / 4)).map fun i => g.pc + BitVec.ofNat 64 (4 * i)).findSome? fun va =>
    match codePlace s g.ctx va with
    | .ok p => if s.poisoned (icachePlace g.core p) 4 then some (.eccFatal, va) else none
    | .error _ => none

/-- The header word that a fetch delivers, as it is stored. -/
def State.storedHeader (s : State) (g : Group) : Except (Cls × DWord) Word :=
  match fetchWord s g.ctx g.pc, s.spoiltCode g 4 with
  | .error e, _ => .error e
  | .ok _, some e => .error e
  | .ok w, none => .ok (match s.oldClause g with
    | some (h :: _) => h
    | _ => w)

/-- The header word that a fetch delivers, to the first thread of the group. -/
def State.fetchHeader (s : State) (g : Group) : Except (Cls × DWord) Word :=
  (s.storedHeader g).map (overlayWord (s.leadLaunch g) g.pc)

/-- How many of some stored words `k` instructions take, as a launch receives them (R302, R324); none where the words end before them. -/
def spanOf (l : Option Launch) : Nat → DWord → List Word → Option Nat
  | 0, _, _ => some 0
  | _ + 1, _, [] => none
  | k + 1, va, w :: ws =>
    let w' := overlayWord l va w
    let n := firstWordBytes w' / 4
    if noMajor w' then some 1
    else if ws.length + 1 < n then none
    else if (decodeBytes ((overlayWords l va ((w :: ws).take n)).flatMap bytesOfWord)).toOption.isNone then some n
    else (spanOf l k (va + BitVec.ofNat 64 (4 * n)) ((w :: ws).drop n)).map (n + ·)

/-- The stored words of a clause and of its header that a fetch delivers to the threads of a launch, and whether it has read them now;
`k` says how many instructions the clause holds. Words that the cache holds serve a launch to which they hold the whole clause; where
its patches make the clause longer, the words are read now. -/
def State.fetchFor (s : State) (g : Group) (l : Option Launch) (hdr : Word) (k : Nat) : Except (Cls × DWord) (Word × List Word × Bool) :=
  let now : Except (Cls × DWord) (Word × List Word × Bool) := match fetchWord s g.ctx g.pc, fetchInstrs s g.ctx l k (g.pc + 4) with
    | .error e, _ => .error e
    | _, .error e => .error e
    | .ok w, .ok ws => .ok (w, ws, true)
  let got : Except (Cls × DWord) (Word × List Word × Bool) := match s.oldClause g with
    | some (h :: old) =>
      if overlayWord l g.pc h = hdr then
        (match spanOf l k (g.pc + 4) old with
          | some n => .ok (h, old.take n, false)
          | none => now.map fun x => (h, x.2))
      else now
    | _ => now
  match got with
  | .error e => .error e
  | .ok x => match s.spoiltCode g (4 * (x.2.1.length + 1)) with | some e => .error e | none => .ok x

/-- The same for the first thread of the group. -/
def State.fetchWhole (s : State) (g : Group) (hdr : Word) (k : Nat) : Except (Cls × DWord) (Word × List Word × Bool) :=
  s.fetchFor g (s.leadLaunch g) hdr k

/-- The clause's instructions, as stored. -/
def State.fetchClause (s : State) (g : Group) (hdr : Word) (k : Nat) : Except (Cls × DWord) (List Word) :=
  (s.fetchWhole g hdr k).map fun x => x.2.1

/-- The words of a clause that are no literal, as a launch delivers them: which instructions it holds. -/
def shapeOf (l : Option Launch) : Nat → DWord → List Word → List Word
  | 0, _, _ => []
  | _ + 1, _, [] => []
  | k + 1, va, w :: ws =>
    let w' := overlayWord l va w
    let n := firstWordBytes w' / 4
    let mine := overlayWords l va ((w :: ws).take n)
    (match litOffset w' with
      | some off => mine.take (off / 4)
      | none => mine) ++ shapeOf l k (va + BitVec.ofNat 64 (4 * n)) (ws.drop (n - 1))

/-- The threads of a group by what a fetch delivers to each thread's launch, where that differs (R324). -/
def State.partsBy {α : Type} [DecidableEq α] (s : State) (g : Group) (f : Option Launch → α) : List (List Nat) :=
  let ls := (s.membersOf g).map fun t => (t.uid, s.launchOf t.team)
  if (ls.all fun e => match e.2 with | some l => l.kernel.patches.isEmpty | none => true) || (dedup (ls.map (·.2))).length ≤ 1 then []
  else
    let keyed := ls.map fun e => (e.1, f e.2)
    let shapes := dedup (keyed.map (·.2))
    if shapes.length ≤ 1 then [] else shapes.map fun x => (keyed.filter fun e => e.2 == x).map (·.1)

/-- The threads of a group by the header that their launches' overlays deliver, where they do not all agree (R324).
DEDUCED (log entry 57). -/
def State.headerParts (s : State) (g : Group) (w : Word) : List (List Nat) := s.partsBy g fun l => overlayWord l g.pc w

/-- The threads of a group by the instructions that their launches' overlays deliver, or by the fault of the fetch, where they do not
all agree (R324). DEDUCED (log entry 57). -/
def State.fetchParts (s : State) (g : Group) (hdr : Word) (k : Nat) : List (List Nat) :=
  s.partsBy g fun l => match s.fetchFor g l hdr k with
    | .error e => (some e, [])
    | .ok (h, ws, _) => (none, overlayWord l g.pc h :: shapeOf l k (g.pc + 4) ws)

/-! ## Deferred stops (R270, R274) -/

def deferredLe (a b : Nat × Nat × Nat) : Bool :=
  decide (a.1 < b.1) || (a.1 == b.1 && (decide (a.2.1 < b.2.1) || (a.2.1 == b.2.1 && decide (a.2.2 ≤ b.2.2))))

def Deferred.key (d : Deferred) : Nat × Nat × Nat := (d.cls.code, d.va.toNat / 65536, d.pc.toNat)

/-- One stop that carries the deferred faults `ds` of a group's threads. -/
def State.takeDeferred (s : State) (g : Group) (ds : List Deferred) : State :=
  let sid := s.nextId
  let slotOf (d : Deferred) : Nat := match s.thread? d.uid with | some t => t.slot | none => 0
  let keys := sortBy deferredLe (dedup (ds.map Deferred.key))
  let recs := keys.zipIdx.map fun (k, i) =>
    let hit := ds.filter fun d => d.key == k
    let low := minBy (fun a b => decide (slotOf a ≤ slotOf b)) hit
    let r : FRec :=
      { rid := sid + 1 + i, stop := sid, ctx := g.ctx, seq := none, isLast := decide (i + 1 = keys.length),
        burst := false, isAsync := false, queue := 0xFF, code := k.1,
        addr := (match minBy (fun a b => decide (a.va.toNat ≤ b.va.toNat)) hit with | some d => d.va | none => 0),
        pc := BitVec.ofNat 64 k.2.2, cmdseq := (match low with | some d => d.seq | none => 0), core := g.core,
        threads := g.members.length, slot := (match low with | some d => slotOf d | none => 0), stamp := s.ns,
        named := hit.map (·.uid), acted := none, outstanding := true }
    r
  let stop : Stop := { sid, ctx := g.ctx, what := .group g.gid, boundary := true, deferred := true, isBrk := false }
  let fab : Fabric := { s.fabric with deferred := s.fabric.deferred.filter fun d => !ds.contains d }
  let s : State := { s with nextId := sid + 1 + keys.length, records := s.records ++ recs, stops := s.stops ++ [stop],
                            fabric := fab }
  let s := s.onGroup g.gid fun g => { g with wait := .fault sid }
  if ds.any fun d => d.cls.stopsContext then s.stopContext g.ctx else s

/-! ## The wait of a clause (R310, R473 steps 4 and 5) -/

/-- No thread of the group has a flag of the mask set. -/
def State.flagsClear (s : State) (g : Group) (mask : Nat) : Bool :=
  (s.membersOf g).all fun t => (List.range 12).all fun f => !(bitAt mask f && decide (t.flags.getD f 0 ≠ 0))

/-- The deferred faults that a wait on the flags of a mask takes. -/
def State.deferredOn (s : State) (g : Group) (mask : Nat) : List Deferred :=
  s.fabric.deferred.filter fun d => g.members.contains d.uid && (match d.flag with | some f => bitAt mask f | none => false)

/-- Judges the wait of a group that stands at a judged header: it takes a deferred stop, begins its clause, or waits on. -/
def State.tryBegin (s : State) (g : Group) : State :=
  match g.wait, g.clause with
  | .header mask, some c =>
    match s.deferredOn g mask with
    | d :: ds => (s.onGroup g.gid fun g => { g with clause := none }).takeDeferred g (d :: ds)
    | [] =>
      if s.flagsClear g mask then
        if (12 ≤ c.set1 ∧ c.set1 ≤ 14) ∨ (12 ≤ c.set2 ∧ c.set2 ≤ 14) then
          (s.onGroup g.gid fun g => { g with clause := none }).takeStop g g.pc true (allTake (s.membersOf g) .illegalOp)
        else
          let s := if mask = 0 then s else s.onThreads g.members fun t => t.observe s.nextId
          s.onGroup g.gid fun g => { g with pc := g.pc + 4, wait := .none, bpSkip := none, ready := s.clock }
      else s
  | _, _ => s

/-! ## Completion of long-latency instructions (R311) -/

/-- Takes a number for a counted instruction in each thread and holds its flag (R276, R311). -/
def State.charge (s : State) (ids : List Nat) (flag : Option Nat) (counted : Bool) : State :=
  s.onThreads ids fun t => (if counted then t.count else t).holdFlag flag

/-- An instruction of a thread completes: it no longer holds its flag. -/
def State.complete (s : State) (uid : Nat) (flag : Option Nat) : State := s.onThread uid fun t => t.dropFlag flag

/-- An instruction that held the thread's later accesses completes. -/
def State.unhold (s : State) (uid : Nat) (flag : Option Nat) : State :=
  s.onThread uid fun t => (t.dropFlag flag).proceed s.nextId

def ReqOp.isLoad : ReqOp → Bool
  | .load _ => true
  | _ => false

def ReqOp.isStore : ReqOp → Bool
  | .store _ => true
  | _ => false

/-- The fabric requests of a thread whose replies have not been delivered. -/
def State.requestsOf (s : State) (uid : Nat) : List Pending :=
  s.fabric.pending.filter fun p => p.owner == .thread uid

/-- The stores that a thread has read in its core's L1 and their homes have not performed. -/
def State.unperformed (s : State) (uid : Nat) : List Nat :=
  match s.thread? uid with
  | some t => t.saw.filter fun r => s.fabric.pending.any fun p => p.id == r && !p.applied
  | none => []

/-- Every earlier access of the thread has been performed, and so has every store that it read in L1: what precedes a release
(R63, R233, R239). -/
def State.quiet (s : State) (uid : Nat) : Bool :=
  (s.requestsOf uid).isEmpty && !s.lodes.any (fun l => l.uid == uid && l.gid != 0) && (s.unperformed uid).isEmpty

/-- Some executing thread has an incomplete acquire, fence or barrier, which holds its later accesses. -/
def heldBack (xs : List Thread) : Bool := xs.any fun t => decide (t.holds ≠ 0)

/-- The lines that a core's L1 holds no longer take their poison with them (R32). -/
def State.liftL1 (s : State) (core : Nat) : State :=
  if s.poison.isEmpty then s
  else
    let held := (s.core core).l1.map (·.line)
    { s with poison := s.poison.filter fun p => p.space != .l1 core || held.contains (p.addr / 256 * 256) }

/-- The bytes of a line with some writes laid over it. -/
def overLine (line : Nat) (bs : List Byte) (ws : List (PAddr × List Byte)) : List Byte :=
  bs.zipIdx.map fun e => ws.foldl (fun b w =>
    if w.1.addr ≤ line + e.2 ∧ line + e.2 < w.1.addr + w.2.length then w.2.getD (line + e.2 - w.1.addr) b else b) e.1

/-- The offsets of a line's bytes that writes do not cover. -/
def notOver (line : Nat) (os : List Nat) (ws : List (PAddr × List Byte)) : List Nat :=
  os.filter fun o => !(ws.any fun w => decide (w.1.addr ≤ line + o) && decide (line + o < w.1.addr + w.2.length))

/-- The offsets of the poisoned bytes of a line (R32). -/
def State.spoiltIn (s : State) (p : PAddr) : List Nat :=
  if s.poison.isEmpty then [] else (List.range 256).filter fun i => s.poison.contains (p.plus i)

/-- Requests of one core for one package-local line. -/
def Pending.sameLine (p q : Pending) : Bool :=
  p.core == q.core && p.at_.space == .pkg && q.at_.space == .pkg && p.at_.addr / 256 == q.at_.addr / 256

def isCollar : StageId → Bool
  | .collar _ => true
  | _ => false

/-- A request waits at the input of its collar, which is the store buffer of its thread: first in, first out (R54, R237). -/
def Fabric.buffered (f : Fabric) (r : Nat) : Bool := f.arrivals.any fun a => isCollar a.1 && a.2.back == .owner r

/-- The writes to a load's line of stores that have left their thread's buffer and that their home has not performed. -/
def Fabric.overlay (f : Fabric) (p : Pending) : List (PAddr × List Byte) :=
  (f.pending.filter fun q => q.op.isStore && !q.applied && q.sameLine p && !f.buffered q.id).flatMap (·.bytes)

/-- Loads of lines that their home has performed, and whose lines a later act of their core has found anew: what they bring to L1 is
the line as it stands now (R177, R234). -/
def State.refresh (s : State) (hit : Pending → Bool) : State :=
  let mine (p : Pending) : Bool := p.applied && p.op.isLoad && p.at_.space == .pkg && hit p
  if s.fabric.pending.any mine then
    let (m, s) := s.fresh
    let renew (p : Pending) : Pending :=
      if mine p then
        let line : PAddr := { p.at_ with addr := p.at_.addr / 256 * 256 }
        let ws := s.fabric.overlay p
        { p with moment := m, bytes := [], newer := some (overLine line.addr (s.bytesAt line 256) ws, notOver line.addr (s.spoiltIn line) ws) }
      else p
    { s with fabric := { s.fabric with pending := s.fabric.pending.map renew } }
  else s

/-- An acquire at `.cl` or wider empties the L1 of a core; the loads whose replies are on their way bring their lines as they stand
now (R177). DEDUCED (log entry 36). -/
def State.emptyL1 (s : State) (core : Nat) : State :=
  let s := s.refresh fun p => p.core == core
  if (s.core core).l1.isEmpty then s else (s.setCore core { s.core core with l1 := [] }).liftL1 core

def State.emptyOpt (s : State) : Option Nat → State
  | some c => s.emptyL1 c
  | none => s

/-- The fences whose accesses have all been performed complete (R376). -/
def State.settleFences (s : State) : State :=
  if s.late.isEmpty then s
  else
    let ready (l : Late) : Bool := match l with
      | .fence _ _ reqs _ | .rdy _ _ reqs =>
        reqs.all fun r => !(s.fabric.pending.any fun p => p.id == r) && !(s.lodes.any fun q => q.op == r)
      | _ => false
    let done (s : State) (l : Late) : State := match l with
      | .fence u f _ e => (s.unhold u f).emptyOpt e
      | .rdy u f _ => s.onThread u fun t => { t.dropFlag f with rdy := t.rdy - 1 }
      | _ => s
    (s.late.filter ready).foldl done { s with late := s.late.filter fun l => !ready l }

/-! ## Tasks, counters and windows (R118, R445, R448, R449) -/

/-- Due arms post their tasks, in arming order, while the pool has a free record. Poison in a record goes with it (R32). -/
def State.postDue (s : State) (core : Nat) : State :=
  let c := s.core core
  if c.arms.any (·.due) then
    let step (a : State × CoreSt) (m : Arm) : State × CoreSt :=
      let c := a.2
      if m.due && decide (c.pool.length < 2048) then
        let record := (List.range 8).map fun i => (BitVec.ofNat 32 (s.natAt ⟨.team core, m.addr + 4 * i⟩ 4) : Word)
        let task : Task := { team := m.team, entry := m.entry, posted := s.clock, record }
        (a.1.copyPoison ⟨.team core, m.addr⟩ ⟨.pool core, 32 * c.pool.length⟩ 32,
         { c with pool := c.pool ++ [task], perf := Tab.set 9 (Tab.get 0 9 c.perf + 1) c.perf })
      else (a.1, { c with arms := c.arms ++ [m] })
    let r := c.arms.foldl step (s, { c with arms := [] })
    r.1.setCore core r.2
  else s

/-- The records of a core's task pool that stay are numbered anew, with their poison. -/
def State.renumber (s : State) (sp : Space) (unit : Nat) (stays : Nat → Bool) : State :=
  if s.poison.isEmpty then s
  else
    let move (x : PAddr) : Option PAddr :=
      if x.space ≠ sp then some x
      else if stays (x.addr / unit) then some { x with addr := unit * ((List.range (x.addr / unit)).filter stays).length + x.addr % unit }
      else none
    { s with poison := s.poison.filterMap move }

/-- The records of a core's task pool, and the bursts in its staging buffer. -/
def State.renumberPool (s : State) (core : Nat) (stays : Nat → Bool) : State := s.renumber (.pool core) 32 stays
def State.renumberStaging (s : State) (core : Nat) (stays : Nat → Bool) : State := s.renumber (.staging core) 4096 stays

/-- One act on a counter. An act that `posts` and takes the value from non-zero to zero posts the arming list. -/
def State.setCounter (s : State) (core k : Nat) (v : Word) (posts : Bool) : State :=
  let c := s.core core
  let old := Tab.get 0 k c.counters
  let c : CoreSt := { c with counters := if v = 0 then Tab.del k c.counters else Tab.set k v c.counters }
  if posts && old != 0 && v == 0 then
    (s.setCore core { c with arms := c.arms.map fun a => if a.counter == k then { a with due := true } else a }).postDue core
  else s.setCore core c

def State.counter (s : State) (core k : Nat) : Word := Tab.get 0 k (s.core core).counters

/-- A decrement by one: a retirement, a bank event or a window firing. -/
def State.decCounter (s : State) (core k : Nat) : State := s.setCounter core k (s.counter core k - 1) true

/-- Decrements a counter that a command may name. -/
def State.decOpt (s : State) (core : Nat) : Option Nat → State
  | some k => s.decCounter core k
  | none => s

/-- Bytes that two ranges share. -/
def overlap (a n b m : Nat) : Nat := min (a + n) (b + m) - max a b

/-- How many of `n` bytes lie in some ranges, each byte counted once. -/
def bytesIn : List (PAddr × Nat) → PAddr → Nat → Nat
  | [], _, _ => 0
  | r :: rest, p, n =>
    let lo := max p.addr r.1.addr
    let hi := min (p.addr + n) (r.1.addr + r.2)
    if r.1.space ≠ p.space ∨ hi ≤ lo then bytesIn rest p n
    else (hi - lo) + bytesIn rest p (lo - p.addr) + bytesIn rest { p with addr := hi } (p.addr + n - hi)

/-- Bytes of a write that lie in a window's range; the range may reach one place through two of its pages. -/
def Window.hits (w : Window) (p : PAddr) (n : Nat) : Nat := bytesIn w.ranges p n

/-- One window of a core counts a write, and fires when the count reaches LEN. DEDUCED (log entry 36). -/
def State.countWindow (s : State) (core : Nat) (w : Window) (k : Nat) : State :=
  let c := s.core core
  if w.count + k < w.len then
    s.setCore core { c with windows := c.windows.map fun x => if x.index == w.index then { x with count := w.count + k } else x }
  else
    let ws := if w.reload then c.windows.map fun x => if x.index == w.index then { x with count := 0 } else x
              else c.windows.filter fun x => x.index != w.index
    ((s.setCore core { c with windows := ws }).decCounter core w.counter).emptyL1 core

/-- The armed windows of a context count a write at a home. -/
def State.countWindows (s : State) (ctx : Nat) (p : PAddr) (n : Nat) : State :=
  s.cores.foldl (fun s e =>
    if e.2.windows.isEmpty || s.ctxOnCore e.1 != some ctx then s
    else e.2.windows.foldl (fun s w => if w.hits p n = 0 then s else s.countWindow e.1 w (w.hits p n)) s) s

/-! ## Writes at a home (R60, R153, R448) -/

/-- A region descriptor that is written anew names a tree that no earlier store has touched (R216, R227).
DESIGN CHOICE (log entry 74). -/
def State.newRegion (s : State) (p : PAddr) (n : Nat) : State :=
  { s with strays := s.strays.filter fun d => p.space != .pkg || overlap d 256 p.addr n == 0 }

/-- The 256-byte lines that a range touches. -/
def linesOf (p : PAddr) (n : Nat) : List PAddr :=
  (List.range ((p.addr % 256 + n + 255) / 256)).map fun i => { p with addr := p.addr / 256 * 256 + 256 * i }

/-- The pieces of a range that lie in one line each. -/
def linePieces (p : PAddr) (n : Nat) : List (PAddr × Nat) :=
  (linesOf p n).map fun l => ({ p with addr := max p.addr l.addr }, min (p.addr + n) (l.addr + 256) - max p.addr l.addr)

def Wait.touch (clock : Nat) (ls : List PAddr) : Wait → Wait
  | .park lines d pd ids hit => .park lines d pd ids (hit || (decide (clock ≤ d) && lines.any fun l => ls.contains l))
  | w => w

/-- A write to some bytes is performed: groups parked on their lines are to wake, but for a write that comes after the cycle of their
timeout (R153, R365). -/
def State.touch (s : State) (p : PAddr) (n : Nat) : State :=
  { s with groups := s.groups.map fun g => { g with wait := g.wait.touch s.clock (linesOf p n) } }

/-- The same for the groups of one core, whose store queue performs the write. -/
def State.touchCore (s : State) (core : Nat) (p : PAddr) (n : Nat) : State :=
  { s with groups := s.groups.map fun g => if g.core == core then { g with wait := g.wait.touch s.clock (linesOf p n) } else g }

/-- A write of bytes at their home slice, for a context. -/
def State.homeWrite (s : State) (ctx : Nat) (p : PAddr) (bs : List Byte) : State :=
  (((s.putBytes p bs).touch p bs.length).countWindows ctx p bs.length).newRegion p bs.length

def State.homeWriteNat (s : State) (ctx : Nat) (p : PAddr) (n x : Nat) : State := s.homeWrite ctx p (bytesOfNat x n)

/-- One round of the search for a victim (R179): a line of value 3, or every value rises. -/
def evictLine {α : Type} (rrv : α → Nat) (rise : α → α) : Nat → List α → List α
  | 0, l => l
  | n + 1, l => match l.findIdx? fun x => decide (3 ≤ rrv x) with
    | some i => l.eraseIdx i
    | none => evictLine rrv rise n (l.map rise)

/-- An access that reaches a home slice allocates its lines there, or hits them; while the buddy serves the home, in the buddy's
3 MiB, which the pair then shares (R34, R178, R179). -/
def State.noteHome (s : State) (p : PAddr) (n rd : Nat) : State :=
  let slice := s.servingSlice (homeSlice p)
  let note (ls : List HomeLine) (a : PAddr) : List HomeLine :=
    if ls.any fun l => l.at_ == a then ls.map fun l => if l.at_ == a && rd != 3 then { l with rrv := 0 } else l
    else
      { at_ := a, rrv := rd } ::
        (if Config.sliceLines ≤ ls.length then evictLine (·.rrv) (fun l : HomeLine => { l with rrv := l.rrv + 1 }) 5 ls else ls)
  if s.homePkg p ≠ s.self then s
  else { s with slices := Tab.set slice ((linesOf p n).foldl note (Tab.get [] slice s.slices)) s.slices }

/-- Removes lines from a core's L1, and renews those that replies on their way bring: an atomic of the core, or a write that an
engine makes for it (R177, R243). -/
def State.dropL1 (s : State) (core : Nat) (p : PAddr) (n : Nat) : State :=
  if p.space = .pkg then
    let lines := (linesOf p n).map (·.addr)
    let s := s.refresh fun q => q.core == core && lines.contains (q.at_.addr / 256 * 256)
    if (s.core core).l1.isEmpty then s
    else (s.setCore core { s.core core with l1 := (s.core core).l1.filter fun l => !lines.contains l.line }).liftL1 core
  else s

/-! ## Ports and flits (R46, R65) -/

/-- A fabric port is in service (R46, R67, R72). -/
def State.portUp (s : State) (k : Nat) : Bool :=
  s.podOn && decide (k < 2 ^ s.podLog) && !bitAt s.fabric.downPorts k && !s.fenced ⟨.port, k⟩

/-- A port of a member is in service, as far as this package has been told (R46). DESIGN CHOICE (log entry 65). -/
def State.memberPortUp (s : State) (pkg port : Nat) : Bool :=
  if pkg = s.self then s.portUp port
  else s.podOn && decide (pkg < 2 ^ s.podLog) && decide (port < 2 ^ s.podLog) && !s.fabric.farPorts.contains (pkg, port)

/-- The fibre j→k is in service: so are port k of package j and port j of package k (R46). -/
def State.fibreUp (s : State) (j k : Nat) : Bool := s.memberPortUp j k && s.memberPortUp k j

/-- The port that carries requests to a package: the bypass, the port itself, or that of the relay package, which is the
lowest with a fibre from here and a fibre to the package (R44, R46). -/
def State.routeTo (s : State) (k : Nat) : Option Nat :=
  if k = s.self then some k
  else if s.fibreUp s.self k then some k
  else (List.range (2 ^ s.podLog)).find? fun m => m != k && m != s.self && s.fibreUp s.self m && s.fibreUp m k

/-- A flit for another member takes a place in the replay buffer of the port on its way (R65); its number is the name that is fresh
now. -/
def State.sendFlit (s : State) (k : Nat) : State :=
  if k = s.self then s
  else
    let m := (s.routeTo k).getD k
    let fab : Fabric :=
      { s.fabric with bufHeld := Tab.set m (Tab.get [] m s.fabric.bufHeld ++ [{ id := s.nextId, pkg := k }]) s.fabric.bufHeld }
    { s with nextId := s.nextId + 1, fabric := fab }

/-- The members that home some places, a line at a time: one flit goes to a member for each line there (R65). -/
def State.flitsTo (s : State) (ps : List PAddr) : List Nat :=
  ((dedup (ps.map fun p => ({ p with addr := p.addr / 256 } : PAddr))).map fun l => s.homePkg { l with addr := l.addr * 256 }).filter
    fun k => k != s.self

/-- The flits of an engine's accesses are sent. -/
def State.sendTo (s : State) (ps : List PAddr) : State :=
  if s.podOn then (s.flitsTo (ps.filter fun p => p.space == .pod)).foldl State.sendFlit s else s

/-- What a fetch leaves in the core's instruction cache: the clause as it stands now, beside what earlier fetches found; its lines are
allocated at their homes, flits go to those of other members, and its pages enter the TLBs (R45, R174, R178). What the cache held there
is overwritten (R32). A fetch carries no RD; its lines are inserted as for RD 1. DESIGN CHOICE (log entry 11). -/
def State.noteFetch (s : State) (g : Group) (words : List Word) : State :=
  match codeRuns s g.ctx g.pc (4 * words.length) with
  | none => s
  | some runs =>
    let c := s.core g.core
    let (n, s) := s.fresh
    let s := s.setCore g.core { c with code := (runs, n, words) :: c.code.filter fun e => !(e.1 == runs && e.2.2 == words)
                                       icache := runs ++ c.icache.filter fun e => !runs.any fun p => p.1 == e.1 }
    let s := (codePieces g.pc (4 * words.length)).foldl (fun (s : State) p => s.noteTlb g.core g.ctx p.1) s
    (runs.foldl (fun (s : State) p => (s.lift (icachePlace g.core p.1) p.2).noteHome p.1 p.2 1) s).sendTo
      (runs.flatMap fun p => linesOf p.1 p.2)

/-- What a fetch of a clause leaves behind: of an old one that the cache delivered, its translations. -/
def State.noteClause (s : State) (g : Group) (hdr : Word) (k : Nat) : State :=
  match s.fetchWhole g hdr k with
  | .ok (h, ws, true) => s.noteFetch g (h :: ws)
  | .ok (h, ws, false) => (codePieces g.pc (4 * (h :: ws).length)).foldl (fun (s : State) p => s.noteTlb g.core g.ctx p.1) s
  | .error _ => s

/-- A write that an engine makes at a home for a thread of a core, with the reuse distance of its record. -/
def State.engineStore (s : State) (ctx core rd : Nat) (p : PAddr) (bs : List Byte) : State :=
  ((s.homeWrite ctx p bs).noteHome p bs.length rd).dropL1 core p bs.length

def State.engineWrite (s : State) (ctx core : Nat) (p : PAddr) (bs : List Byte) : State := s.engineStore ctx core 1 p bs

/-! ## Team and die addresses (R166 to R168) -/

/-- The place that a team address names for an access of `n` bytes by a thread (R167). A cluster mate that is saved has no memory to
name. DESIGN CHOICE (log entry 91). -/
def State.teamPlace (s : State) (t : Thread) (va : Word) (n align : Nat) : Except Cls PAddr :=
  let a := va.toNat
  if a % align ≠ 0 then .error .misalign
  else if bits a 31 24 ≠ 0 then .error .pageForm
  else
    let k := bits a 23 20
    let named := match s.team? t.team with
      | none => none
      | some own => if k = 15 then some own else s.teams.find? fun u => u.cluster == own.cluster && u.index == k && !u.saved
    match named with
    | none => .error .pageForm
    | some u =>
      if u.tmLen < bits a 19 0 + n then .error .pageForm else .ok ⟨.team u.core, u.tmBase + bits a 19 0⟩

/-- The place that a die address names for a thread on a core. -/
def State.diePlace (s : State) (ctx core : Nat) (va : Word) (n align : Nat) : Except Cls PAddr :=
  let a := va.toNat
  if a % align ≠ 0 then .error .misalign
  else if bits a 31 26 ≠ 0 then .error .pageForm
  else if bitAt (s.reg (hifCtx ctx (0x40 + 8 * stopeOfCore core))) (bits a 25 20) = false then .error .pageForm
  else if 2 ^ 20 < bits a 19 0 + n then .error .pageForm
  else .ok ⟨.die (stopeOfCore core), a⟩

/-! ## The tile table (R184, R185) -/

def State.tile? (s : State) (q i : Nat) : Option Tile := Tab.find i (s.quad q).tiles

def State.setTile (s : State) (q i : Nat) (t : Tile) : State :=
  let x := s.quad q
  s.setQuad q { x with tiles := Tab.set i t x.tiles }

/-- A filling tile with nothing pending and no hold is ready. -/
def Tile.settle (t : Tile) : Tile :=
  if t.state = .filling ∧ t.pend = 0 ∧ t.hold = false then { t with state := .ready } else t

/-- A draining tile whose readers are done is empty. -/
def Tile.drained (t : Tile) : Tile :=
  if t.state = .draining ∧ t.readers = [] then { t with state := .empty } else t

/-- A tile whose bytes no fill has put there. -/
def Tile.unfilled (t : Tile) : Tile := { t with fillStart := none, fillEnd := none }

/-- A fill of `n` bytes issues on an empty or filling tile. -/
def Tile.fill (t : Tile) (n ns : Nat) : Tile :=
  if t.state = .empty then { t with state := .filling, pend := n, fillStart := some ns, fillEnd := none }
  else { t with pend := t.pend + n, fillStart := (match t.fillStart with | some x => some x | none => some ns) }

/-- Bytes of a fill land. -/
def Tile.land (t : Tile) (n ns : Nat) : Tile :=
  { t with pend := t.pend - n, fillEnd := if t.pend ≤ n then some ns else t.fillEnd }.settle

/-- A tile may take a fill: it is empty or filling. -/
def Tile.canFill (t : Tile) : Bool := t.state == .empty || t.state == .filling

/-- Bytes of a fill land on the tile that its command names, if that definition still stands. -/
def State.landTile (s : State) (q : Nat) (tile : Option (Nat × Nat)) (n : Nat) : State :=
  match tile with
  | none => s
  | some (i, gen) =>
    match s.tile? q i with
    | some t => if t.gen = gen ∧ t.state = .filling then s.setTile q i (t.land n s.ns) else s
    | none => s

/-- A consumer issues: it is a reader until its reads are done, and with release the tile drains. -/
def Tile.consume (t : Tile) (id : Nat) (rel : Bool) : Tile :=
  { t with readers := id :: t.readers, state := if rel then .draining else t.state }

/-- A consumer's reads of a tile are done. -/
def State.readDone (s : State) (q i id : Nat) : State :=
  match s.tile? q i with
  | some t => s.setTile q i { t with readers := t.readers.filter (· != id) }.drained
  | none => s

/-! ## Transaction barriers (R186 to R188) -/

/-- The fields of a barrier's 128 bits. -/
structure Txb where
  epoch : Nat
  arrivals : Nat
  bytes : Int
  reload : Nat
  scope : Nat
  rest : Nat
  deriving DecidableEq, Repr

def txbOf (x : Nat) : Txb :=
  { epoch := bits x 15 0, arrivals := bits x 39 16,
    bytes := (bits x 79 40 : Int) - (if bitAt x 79 then 2 ^ 40 else 0), reload := bits x 103 80,
    scope := bits x 105 104, rest := bits x 127 106 }

def Txb.toNat (b : Txb) : Nat :=
  b.epoch + b.arrivals * 2 ^ 16 + (b.bytes % 2 ^ 40).toNat * 2 ^ 40 + b.reload * 2 ^ 80 + b.scope * 2 ^ 104

/-- A reserved bit set, a reserved SCOPE, or RELOAD 0 (R186). -/
def Txb.bad (b : Txb) : Bool := b.rest != 0 || decide (2 ≤ b.scope) || b.reload == 0

/-- The epoch closes when nothing is owed (R187). -/
def Txb.close (b : Txb) : Txb :=
  if b.arrivals = 0 ∧ b.bytes = 0 then { b with epoch := (b.epoch + 1) % 2 ^ 16, arrivals := b.reload } else b

/-- BYTES stays in its 40 bits. -/
def Txb.inRange (x : Int) : Bool := decide (-2 ^ 39 ≤ x) && decide (x ≤ 2 ^ 39 - 1)

def State.txbAt (s : State) (p : PAddr) : Txb := txbOf (s.natAt p 16)

/-- EPOCH has passed k (R188). -/
def epochPassed (epoch k : Nat) : Bool :=
  let d := (epoch + 2 ^ 16 - k % 2 ^ 16) % 2 ^ 16
  decide (1 ≤ d) && decide (d ≤ 2 ^ 15)

/-- The waits whose epoch has passed complete. -/
def State.settleTxb (s : State) : State :=
  if s.late.isEmpty then s
  else
    let passed (l : Late) : Bool := match l with
      | .txbWait _ _ p k => epochPassed (s.txbAt p).epoch k
      | _ => false
    let wake (s : State) (l : Late) : State := match l with
      | .txbWait u f p _ =>
        (s.unhold u f).emptyOpt (if (s.txbAt p).scope = 1 then (s.thread? u).map (·.core) else none)
      | _ => s
    (s.late.filter passed).foldl wake
      { s with late := s.late.filter fun l => !passed l }

def State.setTxb (s : State) (p : PAddr) (b : Txb) : State := (s.putNat p 16 b.toNat).settleTxb

/-- Landed bytes count against a barrier; on a malformed one, or out of range, they change nothing (R187). -/
def State.landTxb (s : State) (barrier : Option PAddr) (n : Nat) : State :=
  match barrier with
  | none => s
  | some p =>
    let b := s.txbAt p
    if b.bad || !Txb.inRange (b.bytes - n) then s else s.setTxb p { b with bytes := b.bytes - n }.close

/-- The aligned 4-byte words of a range that the forge may still find as they stand, once something writes them (R246, R409).
DESIGN CHOICE (log entry 72). -/
def State.noteOld (s : State) (p : PAddr) (n : Nat) (writer : Option Nat) : State :=
  let quad := match p.space with | .team c => some (quadOfCore c) | .opbuf q => some q | _ => none
  match quad with
  | none => s
  | some q =>
    let rest := if s.oldWords.isEmpty then [] else s.oldWords.filter fun w =>
      !(w.at_.space == p.space && decide (p.addr < w.at_.addr + 4) && decide (w.at_.addr < p.addr + n))
    let keep := writer.isSome || (s.quad q).entries.any fun e => e.started
    let olds : List OldWord := if keep then (List.range ((p.addr % 4 + n + 3) / 4)).map fun i =>
        let a : PAddr := { p with addr := p.addr / 4 * 4 + 4 * i }
        { at_ := a, word := s.natAt a 4, turn := s.free, writer }
      else []
    { s with oldWords := olds ++ rest }

/-- A write to team or die memory by an engine. -/
def State.localWrite (s : State) (p : PAddr) (bs : List Byte) : State := ((s.noteOld p bs.length none).putBytes p bs).settleTxb

/-- A write to team or die memory by a thread. -/
def State.threadWrite (s : State) (uid : Nat) (p : PAddr) (bs : List Byte) : State := ((s.noteOld p bs.length (some uid)).putBytes p bs).settleTxb

/-! ## Groups: forming, splitting, filing (R137, R142, R143, R146) -/

/-- A group forms of some threads in position order. -/
def State.formGroup (s : State) (core ctx : Nat) (fam : Option Nat) (members : List Nat) (pc : DWord) (isSealed : Bool) :
    State :=
  let gid := s.nextId
  let g : Group := { gid, core, ctx, fam := fam.getD gid, members, pc, clause := none, isSealed, formed := s.clock,
                     ready := s.clock, aged := false, wait := .none, bpSkip := none, redo := none }
  { s with nextId := gid + 1, groups := s.groups ++ [g] }

/-- An enrolment one of whose threads now runs in a group with a thread from outside it (R148). -/
def State.noteForeign (s : State) (members : List Nat) : State :=
  let mark (e : Enrolment) : Enrolment :=
    if (members.any fun u => e.members.contains u) && (members.any fun u => !e.around.contains u)
    then { e with foreign := true } else e
  { s with enrolments := s.enrolments.map mark }

/-- A group becomes several: the first part keeps its name, and if there is more than one, every part is unsealed and
its formation cycle is now (R137, R151). DEDUCED (log entry 16). -/
def State.splitGroup (s : State) (g : Group) (parts : List (List Nat × (Group → Group))) : State :=
  match parts with
  | [] => s.dropGroup g.gid
  | [(ids, f)] => s.onGroup g.gid fun g => f { g with members := ids }
  | (ids, f) :: rest =>
    let n := s.nextId
    let new := rest.zipIdx.map fun (p, i) => p.2 { g.part (n + i) p.1 with formed := s.clock, ready := s.clock, aged := false }
    let s : State := { s with nextId := n + rest.length, groups := s.groups ++ new }
    s.onGroup g.gid fun g => f { g.part g.gid ids with formed := s.clock }

/-- Releases threads as one group, and counts it (R142, R143, R453). -/
def State.releaseGroup (s : State) (core ctx : Nat) (key : DWord) (ids : List Nat) (perf : Nat) : State :=
  ((s.formGroup core ctx none ids key false).noteForeign ids).bumpPerf core perf 1

/-- A thread filed under a key enters its bin, an empty bin, or the overflow list (R142, R143). -/
def State.enterBin (s : State) (core : Nat) (f : Filed) : State :=
  let c := s.core core
  if c.overflow.any fun x => x.key == f.key && x.ctx == f.ctx then s.setCore core { c with overflow := c.overflow ++ [f] }
  else
    match c.bins.find? fun b => b.key == f.key && b.ctx == f.ctx with
    | some b =>
      if 127 ≤ b.threads.length then
        (s.setCore core { c with bins := c.bins.filter fun x => !(x.key == f.key && x.ctx == f.ctx) }).releaseGroup core f.ctx f.key
          (b.threads ++ [f.uid]) 4
      else
        s.setCore core { c with bins := c.bins.map fun x =>
          if x.key == f.key && x.ctx == f.ctx then { x with since := min x.since f.at_, threads := x.threads ++ [f.uid] } else x }
    | none =>
      if c.bins.length < 32 then
        s.setCore core { c with bins := c.bins ++ [{ key := f.key, ctx := f.ctx, since := f.at_, threads := [f.uid] }] }
      else s.setCore core { c with overflow := c.overflow ++ [f] }

/-- The threads that a core has filed in this cycle enter its bins, in ascending thread slot order, as the cycle ends (R142).
DEDUCED (log entry 86). -/
def State.settleFiling (s : State) (core : Nat) : State :=
  let slot (f : Filed) : Nat := match s.thread? f.uid with | some t => t.slot | none => 0
  let fs := sortBy (fun a b => decide (slot a ≤ slot b)) (s.core core).filing
  fs.foldl (fun (s : State) f => s.enterBin core f) (s.setCore core { s.core core with filing := [] })

/-- Files one thread under a key (R141, R145). -/
def State.fileOne (s : State) (core ctx : Nat) (key : DWord) (uid : Nat) : State :=
  let c := s.core core
  s.setCore core { c with filing := c.filing ++ [{ uid, key, ctx, at_ := s.clock }] }

/-- Files threads. -/
def State.file (s : State) (core ctx : Nat) (key : DWord) (ids : List Nat) : State :=
  ids.foldl (fun s u => s.fileOne core ctx key u) s

/-- Threads leave the bins and lists of a core. -/
def CoreSt.unfile (c : CoreSt) (ids : List Nat) : CoreSt :=
  let keep (f : Filed) : Bool := !ids.contains f.uid
  let bins := c.bins.map fun b => { b with threads := b.threads.filter fun u => !ids.contains u }
  { c with bins := bins.filter (fun b => !b.threads.isEmpty), overflow := c.overflow.filter keep, filing := c.filing.filter keep }

/-! ## Joins, seals and barriers -/

/-- The group of a thread. -/
def State.groupOf (s : State) (uid : Nat) : Option Group := s.groups.find? fun g => g.members.contains uid

/-- The enrolment at whose `join` a thread waits. -/
def State.joiningAt (s : State) (t : Thread) : Option Nat :=
  match s.groupOf t.uid with
  | some g => match g.wait with
    | .join k => (t.joins.getD k none)
    | _ => none
  | none => none

/-- A `join` closes once every live thread of the enrolment waits at one (R148); at two addresses, they all fault (R149). -/
def State.settleJoin (s : State) (e : Enrolment) : State :=
  let live := s.threads.filter fun t => e.members.contains t.uid
  if live.isEmpty then { s with enrolments := s.enrolments.filter fun x => x.eid != e.eid }
  else if live.all fun t => s.joiningAt t == some e.eid then
    let gs := s.groups.filter fun g => live.any fun t => g.members.contains t.uid
    match gs with
    | [] => s
    | g :: rest =>
      if rest.all fun h => h.pc == g.pc then
        let ids := (sortBy (fun (a b : Thread) => decide (a.slot ≤ b.slot)) live).map (·.uid)
        let g' := { g with members := ids, isSealed := e.wasSealed && !e.foreign, byLane := false, wait := .none,
                           formed := s.clock, ready := s.clock, fam := e.fam }.past (s.instrLen g) false
        let groups := (s.groups.filter fun h => !(rest.any fun r => r.gid == h.gid)).map fun h =>
          if h.gid == g.gid then g' else h
        let s : State := { s with groups := groups, enrolments := s.enrolments.filter fun x => x.eid != e.eid }
        (s.onThreads ids fun t => { t with joins := t.joins.map fun j => if j == some e.eid then none else j }).noteForeign ids
      else gs.foldl (fun s g => s.takeStop g g.pc false (allTake (s.membersOf g) .stateIllegal)) s
  else s

/-- DEDUCED (log entry 64). -/
def State.settleJoins (s : State) : State := s.enrolments.foldl (fun s e => s.settleJoin e) s

/-- A thread waits at a `seal`. -/
def State.sealing (s : State) (t : Thread) : Bool :=
  match s.groupOf t.uid with
  | some g => g.wait == .seal
  | none => false

/-- A birth pack seals once every live thread of it waits at one `seal` (R150); at two addresses, they all fault (R152). -/
def State.settleSeal (s : State) (team pack : Nat) : State :=
  let live := s.threads.filter fun t => t.team == team && t.kind == .birth && t.tid / 128 == pack
  if live.isEmpty || !(live.all fun t => s.sealing t) then s
  else
    let gs := s.groups.filter fun g => live.any fun t => g.members.contains t.uid
    match gs with
    | [] => s
    | g :: rest =>
      if rest.all fun h => h.pc == g.pc then
        let ids := (sortBy (fun (a b : Thread) => decide (a.lane ≤ b.lane)) live).map (·.uid)
        let gid := s.nextId
        let g' := { g with gid, members := ids, isSealed := true, byLane := true, wait := .none, formed := s.clock,
                           ready := s.clock, fam := gid }.past (s.instrLen g) false
        let others := (s.groups.map fun h => { h with members := h.members.filter fun u => !ids.contains u }).filter fun h =>
          !h.members.isEmpty
        { s with nextId := gid + 1, groups := others ++ [g'] }
      else gs.foldl (fun s g => s.takeStop g g.pc false (allTake ((s.membersOf g).filter fun t => live.any fun l => l.uid == t.uid)
        .sealIllegal)) s

/-- The packs at whose `seal` some thread waits. DEDUCED (log entry 64). -/
def State.settleSeals (s : State) : State :=
  let waiting := (s.groups.filter fun g => g.wait == .seal).flatMap s.membersOf
  (dedup (waiting.map fun t => (t.team, t.tid / 128))).foldl (fun s k => s.settleSeal k.1 k.2) s

/-- Departure from a team barrier. -/
def State.departTbar (s : State) (team : Nat) : State :=
  let depart (t : Thread) : Thread :=
    match (if t.team == team then t.tbar else none) with
    | some f => { (t.dropFlag f).proceed s.nextId with tbar := none }
    | none => t
  { s with threads := s.threads.map depart }

/-- DBG_STEP_n (R300). -/
def stepReg (core : Nat) : Nat := dbg (0x6000 + 8 * core)

/-- The register of a core names a team that has been saved, for which it stands until the load (R301). -/
def State.stepsSaved (s : State) (core : Nat) : Bool :=
  s.teams.any fun u => u.saved && u.core == core && u.stepState.isSome && bits (s.reg (stepReg core)) 2 0 == u.place

/-- Stepping is on for the team (R301). -/
def State.stepped (s : State) (t : Team) : Bool :=
  s.debugOn && bitAt (s.reg (stepReg t.core)) 63 && bits (s.reg (stepReg t.core)) 2 0 == t.place && !s.stepsSaved t.core

/-- Every live birth thread of a team has arrived at its `tbar`. -/
def State.allArrived (s : State) (tuid : Nat) : Bool := s.threads.all fun x => x.team != tuid || x.kind != .birth || x.tbar.isSome

/-- The team is held by stepping: it is stepped here and has completed a phase, or it was loaded while it was held, on a core whose
register names another team. -/
def State.teamHeld (s : State) (t : Team) : Bool :=
  (s.stepped t && bitAt (s.reg (stepReg t.core)) 62 && s.allArrived t.tuid) || (!t.saved && t.stepState == some true)

/-- A phase of `tbar` completes when every live birth thread of the team has arrived (R377); a stepped team is held
there (R301). -/
def State.settleTbar (s : State) (team : Nat) : State :=
  match s.team? team with
  | none => s
  | some t =>
    let births := s.threads.filter fun x => x.team == team && x.kind == .birth
    if t.saved || births.isEmpty || births.any (fun x => x.tbar.isNone) then s
    else if s.stepped t || t.stepState == some true then s.setReg (stepReg t.core) (setBits (s.reg (stepReg t.core)) 62 62 1)
    else s.departTbar team

/-- A phase of `cbar` completes when every live birth thread of the cluster's teams has arrived. -/
def State.settleCbar (s : State) (cluster : Nat) : State :=
  let teams := s.teams.filter fun t => t.cluster == cluster
  let births := s.threads.filter fun x => x.kind == .birth && teams.any fun t => t.tuid == x.team
  if teams.any (·.saved) || births.isEmpty || births.any (fun x => x.cbar.isNone) then s
  else
    let depart (x : Thread) : Thread :=
      match (if teams.any fun t => t.tuid == x.team then x.cbar else none) with
      | some f => { (x.dropFlag f).proceed s.nextId with cbar := none }
      | none => x
    (dedup (teams.map (·.core))).foldl State.emptyL1 { s with threads := s.threads.map depart }

/-- DEDUCED (log entry 64). -/
def State.settleBarriers (s : State) (team : Nat) : State :=
  let s := s.settleTbar team
  match s.team? team with
  | some t => s.settleCbar t.cluster
  | none => s

/-! ## The end of threads (R360, R119) -/

/-- Lent slots that no live thread holds return to the core (R119). -/
def State.returnLent (s : State) (team : Nat) : State :=
  s.onTeam team fun t =>
    let used (k : Nat) : Bool :=
      s.threads.any fun x => x.core == t.core && x.slot / 128 == k && !(x.kind == .ember) && x.team == team
    { t with lent := t.lent.filter used }

/-- An ember's command counts it out. -/
def State.emberGone (s : State) (t : Thread) : State :=
  match t.ember with
  | some e => s.onCmd e.core e.cmd fun c => { c with live := c.live - 1 }
  | none => s

/-- Threads exit (R360): they leave their groups, bins and lists, their slots free, their pending results are
discarded, and joins, seals and barriers are judged without them. -/
def State.exitThreads (s : State) (ids : List Nat) : State :=
  let gone := s.threads.filter fun t => ids.contains t.uid
  let teams := dedup (gone.map (·.team))
  let s := gone.foldl State.emberGone s
  let drop (p : Pending) : Pending := match p.owner with
    | .thread u => if ids.contains u then { p with done := true } else p
    | _ => p
  let fab : Fabric := { s.fabric with pending := s.fabric.pending.map drop
                                      deferred := s.fabric.deferred.filter fun d => !ids.contains d.uid }
  let keep (l : Late) : Bool := match l with
    | .fence u _ _ _ | .rdy u _ _ | .txbWait u _ _ _ | .seamFence u _ _ | .tlbInv u _ _ => !ids.contains u
    | .scan .. | .record .. => true
  let groups := (s.groups.map fun g => { g with members := g.members.filter fun u => !ids.contains u }).filter fun g =>
    !g.members.isEmpty
  let s : State := { s with threads := s.threads.filter (fun t => !ids.contains t.uid), groups := groups,
                            cores := s.cores.map (fun e => (e.1, e.2.unfile ids)), late := s.late.filter keep, fabric := fab }
  teams.foldl (fun s t => (s.returnLent t).settleBarriers t) (s.settleJoins.settleSeals)

/-- Threads are to exit as by `exit` (R278, R458): those whose accesses have all been performed (R242, R245) do so now, and the others
wait apart, in a group of their own that issues nothing more. DEDUCED (log entry 68). -/
def State.endThreads (s : State) (ids : List Nat) : State :=
  let late := ids.filter fun u => !s.quiet u || s.fabric.deferred.any fun d => d.uid == u
  let s := s.exitThreads (ids.filter fun u => !late.contains u)
  if late.isEmpty then s
  else
    let s := s.onThreads late fun t => { t with leaving := true }
    let apart (s : State) (g : Group) : State :=
      let mine := g.members.filter late.contains
      if mine.isEmpty then s
      else if mine.length = g.members.length then s.onGroup g.gid fun g => { g with wait := .exit, clause := none }
      else
        let n := s.nextId
        let part := { g.part n mine with wait := .exit, clause := none }
        let s : State := { s with nextId := n + 1, groups := s.groups ++ [part] }
        s.onGroup g.gid fun g => { g with members := g.members.filter fun u => !mine.contains u }
    let s := s.groups.foldl apart s
    let filed := late.filter fun u => (s.groupOf u).isNone
    let s : State := { s with cores := s.cores.map fun e => (e.1, e.2.unfile filed) }
    let s := filed.foldl (fun (s : State) u => match s.thread? u with
      | some t =>
        let gid := s.nextId
        (s.formGroup t.core ((s.team? t.team).map (·.ctx) |>.getD 0) none [u] 0 false).onGroup gid fun g => { g with wait := .exit }
      | none => s) s
    s.settleJoins.settleSeals

/-- Threads that are to exit, and whose last access is performed, do so; a deferred fault of theirs stops them first (R270). -/
def State.settleExits (s : State) : State :=
  (s.groups.filter fun g => g.wait == .exit).foldl (fun (s : State) g =>
    match s.fabric.deferred.filter fun d => g.members.contains d.uid with
    | d :: ds => s.takeDeferred g (d :: ds)
    | [] => s.exitThreads (g.members.filter s.quiet)) s

/-! ## Parking (R153, R365) -/

/-- Wakes a parked group: pD of the executing threads tells whether a write woke it, and it goes on past the `park`. -/
def State.wakeGroup (s : State) (g : Group) (byWrite : Bool) : State :=
  match g.wait with
  | .park _ _ pd ids _ =>
    (s.onThreads ids fun t => t.setPred pd byWrite).onGroup g.gid fun g =>
      { g with wait := .none, ready := s.clock }.past (s.instrLen g) false
  | _ => s

/-- The timeout of a parked group passes now. -/
def Wait.timeUp (clock : Nat) : Wait → Wait
  | .park lines d pd ids hit => .park lines (min d clock) pd ids hit
  | w => w

/-- Every group of a context that is parked with `park` is to wake as though its timeout had passed, those of saved cores too (R125). -/
def State.wakeContext (s : State) (ctx : Nat) : State :=
  let up (clock : Nat) (g : Group) : Group := if g.ctx == ctx then { g with wait := g.wait.timeUp clock } else g
  { s with groups := s.groups.map (up s.clock), images := s.images.map fun i => { i with groups := i.groups.map (up i.at_) } }

end Sys2Proof.Machine
end

