-- ==== Sys2Proof/Machine/Control.lean ====
section
/-! DEFINITION. Majors 0x1C to 0x1F: control, grouping and parking (R358 to R366), and the clause boundary (R309, R310,
R473) with what happens to groups there. -/

namespace Sys2Proof.Machine

/-! ## Transfers (R359) -/

/-- The word that follows the instruction being issued. -/
def State.nextPc (s : State) (g : Group) : DWord :=
  g.pc + BitVec.ofNat 64 (match s.cur with | some c => c.len | none => 4)

/-- The distinct targets of some threads, in position order. -/
def targetsOf (ts : List (Nat × DWord)) : List DWord := (dedup (ts.map (·.2)).reverse).reverse

/-- Every thread of a group goes on at a clause header of its own: one part for each target (R146).
DEDUCED (log entry 16). -/
def State.goTo (s : State) (g : Group) (target : Thread → DWord) : State :=
  let ts := (s.membersOf g).map fun t => (t.uid, target t)
  s.splitGroup g ((targetsOf ts).map fun pc =>
    ((ts.filter fun e => e.2 == pc).map (·.1), fun g => g.atHeader pc))

/-- A target that is not 4-byte aligned (R358). -/
def badTarget (pc : DWord) : Option Flt := if pc.toNat % 4 = 0 then none else some { cls := .misalign, addr := pc }

/-- A transfer: executing threads go to their targets, the others to the header that follows. -/
def branch (k : Opc) (o : Op) (s : State) (target : Group → Thread → DWord) (link : Group → Thread → Thread) :
    Host.Outcome State Fault Refusal :=
  s.issue k o fun g xs =>
    match faultsOf xs fun t => badTarget (target g t) with
    | f :: fs => .stop (f :: fs)
    | [] =>
      let ids := xs.map (·.uid)
      let s' := s.goTo g fun t => if ids.contains t.uid then target g t else s.nextPc g
      .moved (s'.onThreads ids (link g))

def execBra (o : Op) (s : State) : Host.Outcome State Fault Refusal :=
  branch .bra o s (fun g t => g.pc + o.litFor t) fun _ t => t

def execBrx (o : Op) (s : State) : Host.Outcome State Fault Refusal :=
  branch .brx o s (fun _ t => t.pair o.a.toNat) fun _ t => t

/-- The link pair receives the address of the word that follows (R359). -/
def execCall (o : Op) (s : State) : Host.Outcome State Fault Refusal :=
  branch .call o s (fun g t => g.pc + o.litFor t) fun g t => t.setPair o.d.toNat (s.nextPc g)

def execRet (o : Op) (s : State) : Host.Outcome State Fault Refusal :=
  branch .ret o s (fun _ t => t.pair o.a.toNat) fun _ t => t

/-! ## Ends and waits of issue (R360 to R363) -/

/-- Deferred faults of some threads, which they take before they exit (R270). -/
def State.deferredOf (s : State) (ids : List Nat) : List Deferred :=
  s.fabric.deferred.filter fun d => ids.contains d.uid

/-- `exit` waits until every access of its threads has been performed, with what those accesses have read (R242, R360), and a deferred
fault stops them before it. -/
def execExit (o : Op) (s : State) : Host.Outcome State Fault Refusal :=
  s.issue .exit o fun g xs =>
    let ids := xs.map (·.uid)
    match s.deferredOf ids with
    | d :: ds => .stopped (s.takeDeferred g (d :: ds))
    | [] =>
      if ids.all s.quiet then
        .moved ((s.onGroup g.gid fun g => g.atHeader (s.nextPc g)).exitThreads ids)
      else .stall

/-- R361. Threads that do not execute go on in a part of their own, which keeps its formation cycle. -/
def execYield (o : Op) (s : State) : Host.Outcome State Fault Refusal :=
  s.issue .yield o fun g xs =>
    let ids := xs.map (·.uid)
    let rest := g.members.filter fun u => !ids.contains u
    let next := s.nextPc g
    if ids.isEmpty then .done s
    else if rest.isEmpty then .moved (s.onGroup g.gid fun g => { g.atHeader next with formed := s.clock })
    else .moved (s.splitGroup g [(ids, fun g => { g.atHeader next with formed := s.clock }),
                                 (rest, fun h => { h.atHeader next with formed := g.formed })])

def execNop (o : Op) (s : State) : Host.Outcome State Fault Refusal := s.issue .nop o fun _ _ => .done s

/-- The software breakpoint takes BREAK in every thread of the group (R363). -/
def execBrk (o : Op) (s : State) : Host.Outcome State Fault Refusal :=
  s.issue .brk o fun g _ => .stop (allTake (s.membersOf g) .brk)

/-- R362: each executing thread takes BREAK, with ADDR the code. -/
def execTrap (o : Op) (s : State) : Host.Outcome State Fault Refusal :=
  s.issue .trap o fun _ xs =>
    match xs with
    | [] => .done s
    | x :: rest => .stop ((x :: rest).map fun t => (t, { cls := .brk, addr := o.imm.setWidth 64 }))

/-- R362: a thread whose predicate reads 0 fails, and the context stops (R281). -/
def execAssert (o : Op) (s : State) : Host.Outcome State Fault Refusal :=
  s.lanes .assert o
    (fun t => if t.pred o.a.toNat then none else some { cls := .assertion, addr := t.pair o.b.toNat }) id

/-! ## Grouping (R147 to R152, R364) -/

/-- The join register that an instruction names. -/
def joinReg (o : Op) (t : Thread) : Option Nat := t.joins.getD o.d.toNat none

/-- R147. -/
def execEnrol (o : Op) (s : State) : Host.Outcome State Fault Refusal :=
  s.issue .enrol o fun g xs =>
    match faultsOf xs fun t => if (joinReg o t).isSome then some { cls := .stateIllegal, addr := 0 } else none with
    | f :: fs => .stop (f :: fs)
    | [] =>
      if xs.isEmpty then .done s
      else
        let eid := s.nextId
        let ids := xs.map (·.uid)
        let e : Enrolment := { eid, members := ids, around := g.members, fam := g.fam, wasSealed := g.isSealed,
                               foreign := false }
        let s : State := { s with nextId := eid + 1, enrolments := s.enrolments ++ [e] }
        .done (s.onThreads ids fun t => { t with joins := t.joins.set o.d.toNat (some eid) })

/-- Threads that do not execute a transfer go on at the next header; the others stay at it, in the given parts. -/
def State.stayParts (s : State) (g : Group) (parts : List (List Nat)) (w : Wait) : State :=
  let staying := parts.flatten
  let rest := g.members.filter fun u => !staying.contains u
  let next := s.nextPc g
  s.splitGroup g (parts.map (fun p => (p, fun g => { g with wait := w })) ++
    (if rest.isEmpty then [] else [(rest, fun g => g.atHeader next)]))

/-- R148, R149: one part for each enrolment, each of which waits at the `join`. -/
def execJoin (o : Op) (s : State) : Host.Outcome State Fault Refusal :=
  s.issue .join o fun g xs =>
    match faultsOf xs fun t => if (joinReg o t).isNone then some { cls := .stateIllegal, addr := 0 } else none with
    | f :: fs => .stop (f :: fs)
    | [] =>
      let names := (dedup (xs.map (joinReg o)).reverse).reverse
      let parts := names.map fun e => (xs.filter fun t => joinReg o t == e).map (·.uid)
      .moved ((s.stayParts g parts (.join o.d.toNat)).settleJoins)

/-- Threads with a join register that is not empty (R149). -/
def openJoin (xs : List Thread) : List (Thread × Flt) :=
  faultsOf xs fun t => if t.joins.any Option.isSome then some { cls := .stateIllegal, addr := 0 } else none

/-- R141, R364: the executing threads are filed under the next header, in ascending thread slot order. -/
def execReform (o : Op) (s : State) : Host.Outcome State Fault Refusal :=
  s.issue .reform o fun g xs =>
    match openJoin xs with
    | f :: fs => .stop (f :: fs)
    | [] =>
      let next := s.nextPc g
      let ids := (sortBy (fun (a b : Thread) => decide (a.slot ≤ b.slot)) xs).map (·.uid)
      let s := s.onGroup g.gid fun g => { g.atHeader next with members := g.members.filter fun u => !ids.contains u }
      .moved (s.pruneGroups.file g.core g.ctx next ids)

/-- R150, R152. -/
def execSeal (o : Op) (s : State) : Host.Outcome State Fault Refusal :=
  s.issue .seal o fun g xs =>
    match faultsOf xs fun t =>
        if t.kind ≠ .birth then some { cls := .sealIllegal, addr := 0 }
        else if t.joins.any Option.isSome then some { cls := .stateIllegal, addr := 0 } else none with
    | f :: fs => .stop (f :: fs)
    | [] => .moved ((s.stayParts g (if xs.isEmpty then [] else [xs.map (·.uid)]) .seal).settleSeals)

/-! ## Parking (R153, R365) -/

/-- The line that an address names, or the fault of its check as a 1-byte load. -/
def State.parkLine (s : State) (ctx : Nat) (va : DWord) : Except Cls PAddr :=
  match translate s ctx va .load with
  | .error e => .error e
  | .ok x => if x.cls = 2 then .error .classWidth else .ok { x.at_ with addr := x.at_.addr / 256 * 256 }

def execPark (o : Op) (s : State) : Host.Outcome State Fault Refusal :=
  s.issue .park o fun g xs =>
    let line (t : Thread) := s.parkLine g.ctx (t.pair o.a.toNat)
    match faultsOf xs fun t => match line t with
        | .error e => some { cls := e, addr := t.pair o.a.toNat }
        | .ok _ => none with
    | f :: fs => .stop (f :: fs)
    | [] =>
      let ids := xs.map (·.uid)
      let s := xs.foldl (fun s t => s.noteTlb g.core g.ctx (t.pair o.a.toNat)) s
      match minBy (fun a b => decide (a ≤ b)) (xs.map fun t => (o.srcB32 t).toNat) with
      | none => .done s
      | some timeout =>
        if timeout = 0 || s.preempting g.ctx then .done (s.onThreads ids fun t => t.setPred (o.d.toNat % 8) false)
        else
          let lines := dedup (xs.filterMap fun t => match line t with | .ok p => some p | .error _ => none)
          .moved (s.onGroup g.gid fun g => { g with wait := .park lines (s.clock + timeout) (o.d.toNat % 8) ids false })

/-- A watched line has been written: the group wakes whole, with 1 in the predicates. -/
def execParkWake (core group : Nat) (s : State) : Host.Outcome State Fault Refusal :=
  match s.group? group with
  | some g => match g.wait with
    | .park _ _ _ _ true => if g.core = core then .next (s.wakeGroup g true) else .next s
    | _ => .next s
  | none => .next s

/-- A parked group's timeout has passed. -/
def Group.timedOut (g : Group) (clock : Nat) : Bool :=
  match g.wait with
  | .park _ d _ _ _ => decide (d ≤ clock)
  | _ => false

/-- Every parked group whose timeout has passed wakes; a write that came in the same cycle counts (R365). -/
def execParkTimeout (s : State) : Host.Outcome State Fault Refusal :=
  .next ((s.groups.filter fun g => g.timedOut s.clock).foldl (fun (s : State) g => match g.wait with
    | .park _ _ _ _ hit => s.wakeGroup g hit
    | _ => s) s)

/-! ## The clause boundary (R309, R310, R473) -/

/-- A clause header at a boundary: the breakpoint, the clause fetch, then the wait (R473). Threads to which their launches' overlays
deliver different instructions part first (R324). DEDUCED (log entry 57). -/
def execClauseHeader (count set2 set1 : BitVec 4) (wait : BitVec 12) (s : State) : Host.Outcome State Fault Refusal :=
  match s.cur with
  | none => .next s
  | some c =>
    match s.group? c.gid with
    | none => .next s
    | some g =>
      let ths := s.membersOf g
      let hdr : Word := count ++ set2 ++ set1 ++ wait ++ (0x04 : BitVec 8)
      if s.breakHit g then .next (s.takeStop g g.pc true (allTake ths .brk))
      else
        if !(s.fetchParts g hdr (count.toNat + 1)).isEmpty then
          .next (s.splitGroup g ((s.fetchParts g hdr (count.toNat + 1)).map fun p => (p, id)))
        else match s.fetchClause g hdr (count.toNat + 1) with
        | .error e => .next (s.takeStop g g.pc true (ths.map fun t => (t, { cls := e.1, addr := e.2 })))
        | .ok ws =>
          let cl : Clause := { set1 := set1.toNat, set2 := set2.toNat, left := count.toNat + 1, long := false, words := ws }
          let s := (s.noteClause g hdr (count.toNat + 1)).onGroup g.gid fun g => { g with clause := some cl, wait := .header wait.toNat }
          match s.group? g.gid with
          | some g => .next (s.tryBegin g)
          | none => .next s

/-- A group that waits at its header begins its clause once the wait is met, or takes a deferred stop. -/
def execClauseBegin (core group : Nat) (s : State) : Host.Outcome State Fault Refusal :=
  match s.group? group with
  | some g => if g.core = core ∧ s.ctxStopped g.ctx = false then .next (s.tryBegin g) else .next s
  | none => .next s

/-- A fetch that cannot deliver the word at a boundary stops the group there, after the breakpoint's judgement (R473). -/
def State.takeFetchStop (s : State) (g : Group) (e : Cls × DWord) : State :=
  let ths := s.membersOf g
  if s.breakHit g then s.takeStop g g.pc true (allTake ths .brk)
  else s.takeStop g g.pc true (ths.map fun t => (t, { cls := e.1, addr := e.2 }))

/-- A word that is no instruction where one is expected, or no clause header where one is expected: ILLEGAL_OP, charged
to its address (R310, R317). -/
def execUnassignedEncoding (s : State) : Host.Outcome State Fault Refusal :=
  match s.cur with
  | none => .next s
  | some c =>
    match s.group? c.gid with
    | none => .next s
    | some g =>
      let boundary := g.clause.isNone
      let cls : Cls := if s.breakHit g then .brk else .illegalOp
      .next (s.takeStop g g.pc boundary (allTake (s.membersOf g) cls))

/-! ## Bins, overflow and ageing (R139, R142, R143) -/

/-- The first bin whose age has reached its core's limit is released. -/
def execBinAgeRelease (s : State) : Host.Outcome State Fault Refusal :=
  match s.cores.findSome? fun e => (e.2.bins.find? fun b => decide (e.2.binage ≤ s.clock - b.since)).map fun b => (e.1, b) with
  | some (n, b) =>
    let c := s.core n
    .next ((s.setCore n { c with bins := c.bins.filter fun x => !(x.key == b.key && x.ctx == b.ctx) }).releaseGroup n b.ctx b.key
      b.threads 5)
  | none => .next s

/-- The oldest overflow thread of a core whose filing is the limit old: up to 128 threads of its key are released. -/
def execOverflowRelease (s : State) : Host.Outcome State Fault Refusal :=
  match s.cores.findSome? fun e => (e.2.overflow.head?.bind fun f =>
      if e.2.binage ≤ s.clock - f.at_ then some (e.1, f) else none) with
  | some (n, f) =>
    let c := s.core n
    let ids := ((c.overflow.filter fun x => x.key == f.key && x.ctx == f.ctx).map (·.uid)).take 128
    .next ((s.setCore n { c with overflow := c.overflow.filter fun x => !ids.contains x.uid }).releaseGroup n f.ctx f.key ids 5)
  | none => .next s

/-- Neither the package, nor its context, nor its team, nor its core keeps the group from issuing. -/
def State.unheld (s : State) (g : Group) : Bool :=
  s.ctxOn g.ctx && !s.ctxStopped g.ctx && !s.resting g.core && !s.failed &&
  !(s.teams.any fun t => s.teamHeld t && (s.membersOf g).any fun x => x.team == t.tuid)

/-- The group is ready to issue, its pipe and its family of subgroups apart (R139). -/
def State.isReady (s : State) (g : Group) : Bool :=
  g.wait == .none && !s.stalls.contains g.gid && s.unheld g

/-- The priority class of a group: 3 once it has aged, else its launch's PRIO (R139). -/
def State.classOf (s : State) (g : Group) : Nat :=
  if g.aged then 3 else match s.leadLaunch g with | some l => l.prio | none => 0

/-- A ready group that has not issued for 1,024 cycles is treated as class 3. -/
def execPriorityAge (s : State) : Host.Outcome State Fault Refusal :=
  match s.groups.find? fun g => s.isReady g && !g.aged && decide (1024 ≤ s.clock - g.ready) with
  | some g => .next (s.onGroup g.gid fun g => { g with aged := true })
  | none => .next s

end Sys2Proof.Machine
end

