-- ==== Sys2Proof/Machine/Integer.lean ====
section
/-! DEFINITION. Majors 0x02 to 0x0F: integer and address arithmetic, bits and bytes, comparison, moves and integer
conversion (R337 to R348). -/

namespace Sys2Proof.Machine

/-- A two-operand integer instruction: r from a and b read as T (R337). -/
def int2 (k : Opc) (o : Op) (s : State) (f : Int → Int → Int) : Host.Outcome State Fault Refusal :=
  s.compute k o fun t => t.dst o.ty o.d (tyWrite o.ty o.sat (f (tyVal o.ty (t.src o.ty o.a)) (tyVal o.ty (o.srcB t o.ty))))

/-- R338. -/
def execAdd (o : Op) (s : State) : Host.Outcome State Fault Refusal := int2 .add o s (· + ·)
def execSub (o : Op) (s : State) : Host.Outcome State Fault Refusal := int2 .sub o s (· - ·)
def execMul (o : Op) (s : State) : Host.Outcome State Fault Refusal := int2 .mul o s (· * ·)
def execMin (o : Op) (s : State) : Host.Outcome State Fault Refusal := int2 .min o s min
def execMax (o : Op) (s : State) : Host.Outcome State Fault Refusal := int2 .max o s max

/-- floor(a × b / 2^w) (R338). -/
def execMulh (o : Op) (s : State) : Host.Outcome State Fault Refusal :=
  int2 .mulh o s fun a b => (a * b).fdiv (2 ^ o.ty.bits)

/-- a + sext(b, 32) × 2^s (R338). -/
def execLea (o : Op) (s : State) : Host.Outcome State Fault Refusal :=
  s.compute .lea o fun t =>
    t.setPair o.d.toNat (t.pair o.a.toNat + ((o.srcB32 t).signExtend 64 <<< o.aux.toNat))

/-- PC + sext(literal, 64) (R338). -/
def execLeaLabel (o : Op) (s : State) : Host.Outcome State Fault Refusal :=
  s.issue .leaLabel o fun g xs => .done (s.onThreads (xs.map (·.uid)) fun t => t.setPair o.d.toNat (g.pc + o.litFor t))

/-- a × b + c (R338). -/
def execMad (o : Op) (s : State) : Host.Outcome State Fault Refusal :=
  s.compute .mad o fun t =>
    t.dst o.ty o.d (tyWrite o.ty o.sat (tyVal o.ty (t.src o.ty o.a) * tyVal o.ty (o.srcB t o.ty) + tyVal o.ty (o.srcC t o.ty)))

/-- a × b + c, written as 64 bits (R338). -/
def execMadw (o : Op) (s : State) : Host.Outcome State Fault Refusal :=
  s.compute .madw o fun t =>
    t.setPair o.d.toNat (BitVec.ofInt 64 (tyVal o.ty (t.src o.ty o.a) * tyVal o.ty ((o.srcB32 t).setWidth 64)) + o.srcC t .w64)

/-- DIV_ZERO when b is 0 (R339). -/
def divCheck (o : Op) (t : Thread) : Option Flt :=
  if tyVal o.ty (o.srcB t o.ty) = 0 then some { cls := .divZero, addr := 0 } else none

/-- trunc(a / b) (R338, R339). -/
def execDiv (o : Op) (s : State) : Host.Outcome State Fault Refusal :=
  s.lanes .div o (divCheck o) fun t =>
    t.dst o.ty o.d (tyWrite o.ty false ((tyVal o.ty (t.src o.ty o.a)).tdiv (tyVal o.ty (o.srcB t o.ty))))

/-- a − b × trunc(a / b) (R338, R339). -/
def execRem (o : Op) (s : State) : Host.Outcome State Fault Refusal :=
  s.lanes .rem o (divCheck o) fun t =>
    t.dst o.ty o.d (tyWrite o.ty false ((tyVal o.ty (t.src o.ty o.a)).tmod (tyVal o.ty (o.srcB t o.ty))))

/-- The magnitude of a; min_T gives min_T, or max_T with `.sat` (R338). -/
def execAbs (o : Op) (s : State) : Host.Outcome State Fault Refusal :=
  s.compute .abs o fun t => t.dst o.ty o.d (tyWrite o.ty o.sat (((tyVal o.ty (t.src o.ty o.a)).natAbs : Nat) : Int))

/-- A two-operand bitwise instruction (R340). -/
def bit2 (k : Opc) (o : Op) (s : State) (f : DWord → DWord → DWord) : Host.Outcome State Fault Refusal :=
  s.compute k o fun t => t.dst o.ty o.d (f (t.src o.ty o.a) (o.srcB t o.ty))

def execAnd (o : Op) (s : State) : Host.Outcome State Fault Refusal := bit2 .and o s (· &&& ·)
def execOr (o : Op) (s : State) : Host.Outcome State Fault Refusal := bit2 .or o s (· ||| ·)
def execXor (o : Op) (s : State) : Host.Outcome State Fault Refusal := bit2 .xor o s (· ^^^ ·)
def execAndn (o : Op) (s : State) : Host.Outcome State Fault Refusal := bit2 .andn o s fun a b => a &&& ~~~b
def execNot (o : Op) (s : State) : Host.Outcome State Fault Refusal :=
  s.compute .not o fun t => t.dst o.ty o.d (~~~(t.src o.ty o.a))

end Sys2Proof.Machine

namespace Sys2Proof

open Machine

/-- The shift count: bits [7:0] of one register or literal (R340). -/
def Op.shiftCount (o : Op) (t : Thread) : Nat := (o.srcB32 t).toNat % 256

end Sys2Proof

namespace Sys2Proof.Machine

/-- A shift of a w-bit value by k (R340). -/
def shiftOp (k : Opc) (o : Op) (s : State) (f : Nat → Nat → Nat → Nat) : Host.Outcome State Fault Refusal :=
  s.compute k o fun t =>
    t.dst o.ty o.d (BitVec.ofNat 64 (f o.ty.bits ((t.src o.ty o.a).toNat) (o.shiftCount t)))

def execShl (o : Op) (s : State) : Host.Outcome State Fault Refusal :=
  shiftOp .shl o s fun w a k => if w ≤ k then 0 else a * 2 ^ k % 2 ^ w
def execShr (o : Op) (s : State) : Host.Outcome State Fault Refusal :=
  shiftOp .shr o s fun w a k => if w ≤ k then 0 else a / 2 ^ k
def execSar (o : Op) (s : State) : Host.Outcome State Fault Refusal :=
  shiftOp .sar o s fun w a k =>
    (((a : Int) - (if bitAt a (w - 1) then 2 ^ w else 0)).fdiv (2 ^ min k (w - 1)) % 2 ^ w).toNat
def execRol (o : Op) (s : State) : Host.Outcome State Fault Refusal :=
  shiftOp .rol o s fun w a k => (a * 2 ^ (k % w) + a / 2 ^ (w - k % w)) % 2 ^ w

/-- R341. -/
def bfeVal (t : Ty) (a pos len : Nat) : Int :=
  let w := t.bits
  if len = 0 ∨ w ≤ pos then 0
  else
    let l := min len (w - pos)
    let f := a / 2 ^ pos % 2 ^ l
    if t.isSigned && bitAt f (l - 1) then (f : Int) - 2 ^ l else f

def execBfe (o : Op) (s : State) : Host.Outcome State Fault Refusal :=
  s.compute .bfe o fun t =>
    let b := (o.srcB32 t).toNat
    t.dst o.ty o.d (BitVec.ofInt 64 (bfeVal o.ty (t.src o.ty o.a).toNat (bits b 7 0) (bits b 15 8)))

def bfiVal (w a c pos len : Nat) : Nat :=
  if len = 0 ∨ w ≤ pos then c else setBits c (pos + min len (w - pos) - 1) pos a

def execBfi (o : Op) (s : State) : Host.Outcome State Fault Refusal :=
  s.compute .bfi o fun t =>
    let b := (o.srcB32 t).toNat
    t.dst o.ty o.d (BitVec.ofNat 64 (bfiVal o.ty.bits (t.src o.ty o.a).toNat (o.srcC t o.ty).toNat (bits b 7 0) (bits b 15 8)))

/-- The bits of a number below w, lowest first. -/
def bitList (w a : Nat) : List Bool := (List.range w).map (bitAt a)

/-- The number that bits make, lowest first. -/
def natOfBits : List Bool → Nat
  | [] => 0
  | b :: bs => (if b then 1 else 0) + 2 * natOfBits bs

/-- A count of bits, written into one register (R342). -/
def countOp (k : Opc) (o : Op) (s : State) (f : List Bool → Nat) : Host.Outcome State Fault Refusal :=
  s.compute k o fun t => t.setReg o.d.toNat (BitVec.ofNat 32 (f (bitList o.ty.bits (t.src o.ty o.a).toNat)))

def execPopc (o : Op) (s : State) : Host.Outcome State Fault Refusal := countOp .popc o s fun l => (l.filter id).length
def execClz (o : Op) (s : State) : Host.Outcome State Fault Refusal := countOp .clz o s fun l => (l.reverse.takeWhile (!·)).length
def execCtz (o : Op) (s : State) : Host.Outcome State Fault Refusal := countOp .ctz o s fun l => (l.takeWhile (!·)).length
def execBrev (o : Op) (s : State) : Host.Outcome State Fault Refusal :=
  s.compute .brev o fun t =>
    t.dst o.ty o.d (BitVec.ofNat 64 (natOfBits (bitList o.ty.bits (t.src o.ty o.a).toNat).reverse))

/-- The byte that a selector nibble names (R343). -/
def permByte (src sel : Nat) : Nat := if bitAt sel 3 then 0 else src / 256 ^ (sel % 8) % 256

def permVal (a b c : Nat) : Nat :=
  let src := a + b * 2 ^ 32
  permByte src (bits c 3 0) + 256 * (permByte src (bits c 7 4) + 256 * (permByte src (bits c 11 8) + 256 * permByte src (bits c 15 12)))

def execPerm (o : Op) (s : State) : Host.Outcome State Fault Refusal :=
  s.compute .perm o fun t =>
    t.setReg o.d.toNat (BitVec.ofNat 32 (permVal (t.reg o.a.toNat).toNat (o.srcB32 t).toNat (o.srcC t .w32).toNat))

/-- R343. -/
def execSel (o : Op) (s : State) : Host.Outcome State Fault Refusal :=
  s.compute .sel o fun t => t.dst o.ty o.d (if t.pred o.aux.toNat then t.src o.ty o.a else o.srcB t o.ty)

/-- The comparison codes of R344. -/
def cmpCode (cc : Nat) (a b : Int) : Bool :=
  match cc with
  | 0 => a == b | 1 => a != b | 2 => decide (a < b) | 3 => decide (a ≤ b) | 4 => decide (b < a) | _ => decide (b ≤ a)

def execCmp (o : Op) (s : State) : Host.Outcome State Fault Refusal :=
  s.compute .cmp o fun t =>
    t.setPred (o.d.toNat % 8) (cmpCode (o.d.toNat / 8) (tyVal o.ty (t.src o.ty o.a)) (tyVal o.ty (o.srcB t o.ty)))

/-- The operation codes of R345. -/
def psetCode (op : Nat) (a b : Bool) : Bool :=
  match op with
  | 0 => a && b | 1 => a || b | 2 => a != b | _ => a && !b

def execPset (o : Op) (s : State) : Host.Outcome State Fault Refusal :=
  s.compute .pset o fun t =>
    t.setPred (o.d.toNat % 8)
      (psetCode (if o.len.isExt then o.aux.toNat else o.d.toNat / 8) (t.pred o.a.toNat) (t.pred o.b.toNat))

/-- R346. -/
def execMov (o : Op) (s : State) : Host.Outcome State Fault Refusal :=
  s.compute .mov o fun t => t.setReg o.d.toNat (t.reg o.a.toNat)

def execMovW64 (o : Op) (s : State) : Host.Outcome State Fault Refusal :=
  s.compute .movW64 o fun t => t.setPair o.d.toNat (t.pair o.a.toNat)

/-- `$ctx` (R319). -/
def State.ctxWord (s : State) (c : Nat) : Word :=
  BitVec.ofNat 32 (c + (if s.ctxPod c then 128 else 0) + (if s.preempting c then 256 else 0))

/-- "none" of R136. -/
def noneWord : Word := 0xFFFFFFFF

/-- A special register of a thread (R136, R159, R318). -/
def special (s : State) (g : Group) (t : Thread) (n : Nat) : Word :=
  let launch := s.launchOf t.team
  let team := s.team? t.team
  let k := launch.map (·.kernel)
  let birth (f : Kernel → Nat) : Word := if t.kind = .birth then BitVec.ofNat 32 ((k.map f).getD 0) else noneWord
  let ofTeam (f : Team → Kernel → Launch → Nat) : Word :=
    match team, k, launch with
    | some a, some b, some c => BitVec.ofNat 32 (f a b c)
    | _, _, _ => 0
  let ember (f : Ember → Word) : Word := match t.ember with | some e => f e | none => noneWord
  match n with
  | 0x00 => birth fun k => t.tid % k.tx
  | 0x01 => birth fun k => t.tid / k.tx % k.ty
  | 0x02 => birth fun k => t.tid / (k.tx * k.ty)
  | 0x03 => birth fun _ => t.tid % 128
  | 0x04 => birth fun _ => t.tid / 128
  | 0x05 => ofTeam fun a k _ => a.index % k.cc
  | 0x06 => ofTeam fun a k _ => a.index / k.cc
  | 0x08 => ofTeam fun a _ l => a.lin % l.gx
  | 0x09 => ofTeam fun a _ l => a.lin / l.gx % l.gy
  | 0x0A => ofTeam fun a _ l => a.lin / (l.gx * l.gy)
  | 0x0C => ofTeam fun _ _ l => l.gx
  | 0x0D => ofTeam fun _ _ l => l.gy
  | 0x0E => ofTeam fun _ _ l => l.gz
  | 0x10 => BitVec.ofNat 32 g.core
  | 0x11 => BitVec.ofNat 32 (quadOfCore g.core)
  | 0x12 => BitVec.ofNat 32 (stopeOfCore g.core)
  | 0x13 => BitVec.ofNat 32 (s.pkgOf g.ctx)
  | 0x18 => ember (·.bx)
  | 0x19 => ember (·.bY)
  | 0x1A => ember (·.bz)
  | 0x1B => ember (·.bseq)
  | 0x1C => ember (·.bcount)
  | 0x1D => ember (·.blen)
  | 0x1E => ember (·.barg)
  | _ => s.ctxWord g.ctx

def execMovSpecial (o : Op) (s : State) : Host.Outcome State Fault Refusal :=
  s.issue .movSpecial o fun g xs =>
    .done (s.onThreads (xs.map (·.uid)) fun t =>
      if o.a.toNat = 0x20 then t.setPair o.d.toNat (BitVec.ofNat 64 s.clock)
      else t.setReg o.d.toNat (special s g t o.a.toNat))

end Sys2Proof.Machine

namespace Sys2Proof

open Machine

/-- The constant of `movi` (R347). -/
def Op.constant (o : Op) (t : Thread) : DWord :=
  match o.len with
  | .base => ((o.b.setWidth 6 ++ o.a.setWidth 6 : BitVec 12)).signExtend 64
  | .ext => o.imm.signExtend 64
  | _ => o.litFor t

end Sys2Proof

namespace Sys2Proof.Machine

def execMoviW32 (o : Op) (s : State) : Host.Outcome State Fault Refusal :=
  s.compute .moviW32 o fun t => t.setReg o.d.toNat ((o.constant t).setWidth 32)

def execMoviW64 (o : Op) (s : State) : Host.Outcome State Fault Refusal :=
  s.compute .moviW64 o fun t => t.setPair o.d.toNat (o.constant t)

/-- R348. -/
def execCvt (o : Op) (s : State) : Host.Outcome State Fault Refusal :=
  s.compute .cvt o fun t => t.dst o.ty o.d (tyWrite o.ty o.sat (tyVal o.srcTy (t.src o.srcTy o.a)))

end Sys2Proof.Machine
end

