-- ==== Sys2Proof/Machine/Float.lean ====
section
/-! DEFINITION. Floating point: exact values, one rounding, the operations of R251 to R258, and majors 0x10 to 0x17
(R349 to R352). -/

namespace Sys2Proof.Machine

/-- A binary format (R251): exponent and fraction widths. -/
structure Fmt where
  eb : Nat
  fb : Nat
  deriving DecidableEq, Repr

def Fmt.f32 : Fmt := ⟨8, 23⟩
def Fmt.f16 : Fmt := ⟨5, 10⟩
def Fmt.bf16 : Fmt := ⟨8, 7⟩

def fmtOf : Ty → Fmt
  | .f16 => .f16
  | .bf16 => .bf16
  | _ => .f32

def Fmt.bias (f : Fmt) : Nat := 2 ^ (f.eb - 1) - 1
def Fmt.width (f : Fmt) : Nat := 1 + f.eb + f.fb
def Fmt.inf (f : Fmt) (neg : Bool) : Nat := (if neg then 2 ^ (f.eb + f.fb) else 0) + (2 ^ f.eb - 1) * 2 ^ f.fb
/-- The canonical NaN (R251, R252). -/
def Fmt.nan (f : Fmt) : Nat := (2 ^ f.eb - 1) * 2 ^ f.fb + 2 ^ (f.fb - 1)
def Fmt.largest (f : Fmt) (neg : Bool) : Nat := f.inf neg - 1
def Fmt.zero (f : Fmt) (neg : Bool) : Nat := if neg then 2 ^ (f.eb + f.fb) else 0

/-- An exact value: a NaN, an infinity, or (−1)^neg × m × 2^e, where m = 0 keeps the sign of a zero. -/
inductive FV
  | nan
  | inf (neg : Bool)
  | fin (neg : Bool) (m : Nat) (e : Int)
  deriving DecidableEq, Repr

/-- The value that the bits of a format hold (R251). -/
def Fmt.val (f : Fmt) (x : Nat) : FV :=
  let neg := bitAt x (f.eb + f.fb)
  let ex := x / 2 ^ f.fb % 2 ^ f.eb
  let fr := x % 2 ^ f.fb
  if ex = 2 ^ f.eb - 1 then (if fr = 0 then .inf neg else .nan)
  else if ex = 0 then .fin neg fr (1 - (f.bias : Int) - f.fb)
  else .fin neg (2 ^ f.fb + fr) ((ex : Int) - f.bias - f.fb)

/-- Whether a remainder rounds the magnitude n up: `half` compares it with half a unit (0 below, 1 equal, 2 above). -/
def roundsUp (rm : Rounding) (neg : Bool) (n : Nat) (half : Nat) (exact : Bool) : Bool :=
  match rm with
  | .rn => half == 2 || (half == 1 && n % 2 == 1)
  | .rz => false
  | .ru => !exact && !neg
  | .rd => !exact && neg

/-- m × 2^e as an integer multiple of 2^q, rounded (R256). -/
def roundAt (rm : Rounding) (neg : Bool) (m : Nat) (e q : Int) : Nat :=
  if q ≤ e then m * 2 ^ (e - q).toNat
  else
    let k := (q - e).toNat
    let n := m / 2 ^ k
    let r := 2 * (m % 2 ^ k)
    let half := if r < 2 ^ k then 0 else if r = 2 ^ k then 1 else 2
    if roundsUp rm neg n half (r == 0) then n + 1 else n

/-- Overflow in a mode, or saturation (R257, R258). -/
def Fmt.overflow (f : Fmt) (rm : Rounding) (sat neg : Bool) : Nat :=
  if sat then f.largest neg
  else match rm with
    | .rn => f.inf neg
    | .rz => f.largest neg
    | .ru => if neg then f.largest neg else f.inf neg
    | .rd => if neg then f.inf neg else f.largest neg

/-- The bits of an exact value in a format, rounded once (R256, R257). -/
def Fmt.round (f : Fmt) (rm : Rounding) (sat : Bool) : FV → Nat
  | .nan => f.nan
  | .inf neg => if sat then f.largest neg else f.inf neg
  | .fin neg m e =>
    if m = 0 then f.zero neg
    else
      let emin : Int := 1 - (f.bias : Int)
      let top : Int := e + Nat.log2 m
      let q : Int := (if top < emin then emin else top) - f.fb
      let n := roundAt rm neg m e q
      let body := (q + f.fb + f.bias - 1).toNat * 2 ^ f.fb + n
      if (2 ^ f.eb - 1) * 2 ^ f.fb ≤ body then f.overflow rm sat neg else f.zero neg + body

def FV.negate : FV → FV
  | .nan => .nan
  | .inf n => .inf (!n)
  | .fin n m e => .fin (!n) m e

/-- The signed integer of a finite value at exponent `e0`, which is at most its own. -/
def scaled (neg : Bool) (m : Nat) (e e0 : Int) : Int :=
  let v : Int := (m * 2 ^ (e - e0).toNat : Nat)
  if neg then -v else v

/-- An exact sum. A sum that is exactly zero is +0, or −0 in `.rd`, unless both addends are zeros of one sign (R257). -/
def FV.add (rm : Rounding) : FV → FV → FV
  | .nan, _ => .nan
  | _, .nan => .nan
  | .inf a, .inf b => if a == b then .inf a else .nan
  | .inf a, _ => .inf a
  | _, .inf b => .inf b
  | .fin a m e, .fin b n g =>
    let e0 := min e g
    let v := scaled a m e e0 + scaled b n g e0
    if v = 0 then (if m = 0 ∧ n = 0 ∧ a = b then .fin a 0 e0 else .fin (rm == .rd) 0 e0)
    else .fin (decide (v < 0)) v.natAbs e0

def FV.mul : FV → FV → FV
  | .nan, _ => .nan
  | _, .nan => .nan
  | .inf a, .inf b => .inf (a != b)
  | .inf a, .fin b m _ => if m = 0 then .nan else .inf (a != b)
  | .fin a m _, .inf b => if m = 0 then .nan else .inf (a != b)
  | .fin a m e, .fin b n g => .fin (a != b) (m * n) (e + g)

/-- m / n × 2^e to more bits than any format rounds at, with a sticky last bit. -/
def quotient (neg : Bool) (m n : Nat) (e : Int) : FV :=
  let k := 80 + Nat.log2 n
  let q := m * 2 ^ k / n
  .fin neg (2 * q + (if m * 2 ^ k % n = 0 then 0 else 1)) (e - k - 1)

def FV.div : FV → FV → FV
  | .nan, _ => .nan
  | _, .nan => .nan
  | .inf _, .inf _ => .nan
  | .inf a, .fin b _ _ => .inf (a != b)
  | .fin a _ _, .inf b => .fin (a != b) 0 0
  | .fin a m e, .fin b n g =>
    if n = 0 then (if m = 0 then .nan else .inf (a != b))
    else if m = 0 then .fin (a != b) 0 0
    else quotient (a != b) m n (e - g)

/-- The integer square root by digits, highest first: `k` more digits. -/
def isqrtGo (x : Nat) : Nat → Nat → Nat
  | 0, r => r
  | k + 1, r => let c := r + 2 ^ k; isqrtGo x k (if c * c ≤ x then c else r)

def isqrt (x : Nat) : Nat := isqrtGo x (Nat.log2 x / 2 + 1) 0

/-- √(m × 2^e), with a sticky last bit. -/
def FV.sqrt : FV → FV
  | .nan => .nan
  | .inf neg => if neg then .nan else .inf false
  | .fin neg m e =>
    if m = 0 then .fin neg 0 0
    else if neg then .nan
    else
      let x := m * 2 ^ (160 + (e % 2).toNat)
      let r := isqrt x
      .fin false (2 * r + (if r * r = x then 0 else 1)) ((e - e % 2 - 160) / 2 - 1)

/-- 1/√a (R257). -/
def FV.rsqrt : FV → FV
  | .nan => .nan
  | .inf neg => if neg then .nan else .fin false 0 0
  | .fin neg m e =>
    if m = 0 then .inf neg
    else if neg then .nan
    else
      let x := 2 ^ (320 + Nat.log2 m) / (m * 2 ^ (e % 2).toNat)
      let r := isqrt x
      let k := 320 + Nat.log2 m
      let exact := r * r * (m * 2 ^ (e % 2).toNat) == 2 ^ k
      if k % 2 = 0 then .fin false (2 * r + (if exact then 0 else 1)) (-(e - e % 2) / 2 - (k / 2 : Nat) - 1)
      else
        let x2 := 2 ^ (k + 1) / (m * 2 ^ (e % 2).toNat)
        let r2 := isqrt x2
        .fin false (2 * r2 + (if r2 * r2 * (m * 2 ^ (e % 2).toNat) = 2 ^ (k + 1) then 0 else 1))
          (-(e - e % 2) / 2 - ((k + 1) / 2 : Nat) - 1)

/-! ### 2^a and log2 a

Both are irrational unless the result is an integer power or exponent, so a fixed point of 256 fractional bits with a
sticky last bit rounds as the exact value does (DEDUCED: no operand of these formats comes within 2^−200 of a rounding
boundary without meeting it). -/

def fixP : Nat := 256

/-- Σ 1/(k 2^k), k from 1: the natural logarithm of 2 in fixed point. -/
def ln2Go : Nat → Nat → Nat
  | 0, _ => 0
  | n + 1, k => 2 ^ (fixP + 64) / (k * 2 ^ k) + ln2Go n (k + 1)

/-- DEDUCED (log entry 15). -/
def ln2Fix : Nat := ln2Go 320 1 / 2 ^ 64

/-- Σ x^k / k! from a term on. -/
def expGo (x : Nat) : Nat → Nat → Nat → Nat
  | 0, _, _ => 0
  | n + 1, k, term => term + expGo x n (k + 1) (term * x / 2 ^ fixP / k)

/-- 2^f for a fixed-point fraction f. DEDUCED (log entry 15). -/
def exp2Fix (f : Nat) : Nat := expGo (f * ln2Fix / 2 ^ fixP) 90 1 (2 ^ fixP)

/-- 2^a, exact where a is an integer. DEDUCED (log entry 15). -/
def FV.exp2 : FV → FV
  | .nan => .nan
  | .inf neg => if neg then .fin false 0 0 else .inf false
  | .fin neg m e =>
    let v := scaled neg m (e + fixP) 0
    let v := if e + fixP < 0 then (if neg then -1 else if m = 0 then 0 else 1) else v
    let whole := v.fdiv (2 ^ fixP)
    let frac := (v - whole * 2 ^ fixP).toNat
    let whole : Int := max (-2000) (min 2000 whole)
    if frac = 0 then .fin false 1 whole else .fin false (2 * exp2Fix frac + 1) (whole - fixP - 1)

/-- Σ z^(2k+1)/(2k+1) from a power on. -/
def atanhGo (z2 : Nat) : Nat → Nat → Nat → Nat
  | 0, _, _ => 0
  | n + 1, k, pw => pw / k + atanhGo z2 n (k + 2) (pw * z2 / 2 ^ fixP)

/-- log2 a (R257). DEDUCED (log entry 15). -/
def FV.log2 : FV → FV
  | .nan => .nan
  | .inf neg => if neg then .nan else .inf false
  | .fin neg m e =>
    if m = 0 then .inf true
    else if neg then .nan
    else
      let l := Nat.log2 m
      let ex : Int := e + l
      if m = 2 ^ l then .fin (decide (ex < 0)) ex.natAbs 0
      else
        let z := (m - 2 ^ l) * 2 ^ fixP / (m + 2 ^ l)
        let ln := 2 * atanhGo (z * z / 2 ^ fixP) 100 1 z
        let v : Int := ex * 2 ^ fixP + (ln * 2 ^ fixP / ln2Fix : Nat)
        .fin (decide (v < 0)) (2 * v.natAbs + 1) (-(fixP : Int) - 1)

/-- Comparison of values: −0 equals +0; none when either is a NaN. -/
def FV.cmp : FV → FV → Option Ordering
  | .nan, _ => none
  | _, .nan => none
  | .inf a, .inf b => some (if a == b then .eq else if a then .lt else .gt)
  | .inf a, _ => some (if a then .lt else .gt)
  | _, .inf b => some (if b then .gt else .lt)
  | .fin a m e, .fin b n g =>
    let e0 := min e g
    some (compare (scaled a m e e0) (scaled b n g e0))

def FV.isNan : FV → Bool
  | .nan => true
  | _ => false

def FV.negBit : FV → Bool
  | .nan => false
  | .inf n => n
  | .fin n _ _ => n

/-- A total order of numbers in which −0 is below +0 (R257). -/
def FV.below (a b : FV) : Bool :=
  match a.cmp b with
  | some .lt => true
  | some .eq => a.negBit && !b.negBit
  | _ => false

/-- fmin and fmax (R257): a NaN and a number give the number. -/
def FV.fmax (a b : FV) : FV := if a.isNan then b else if b.isNan then a else if a.below b then b else a
def FV.fmin (a b : FV) : FV := if a.isNan then b else if b.isNan then a else if b.below a then b else a

/-- The nearest integral value in a mode (R349). -/
def FV.integral (rm : Rounding) : FV → FV
  | .nan => .nan
  | .inf n => .inf n
  | .fin n m e => if 0 ≤ e then .fin n m e else .fin n (roundAt rm n m e 0) 0

/-- A conversion to an integer type, clamped (R258). -/
def FV.toInt (rm : Rounding) (t : Ty) : FV → Int
  | .nan => 0
  | .inf n => if n then tyMin t else tyMax t
  | .fin n m e => satTo t (scaled n (roundAt rm n m e 0) 0 0)

def FV.ofInt (v : Int) : FV := .fin (decide (v < 0)) v.natAbs 0

/-- The FP32 sum of R59, and its max and min. -/
def addF32 (a b : Nat) : Nat := Fmt.f32.round .rn false (FV.add .rn (Fmt.f32.val a) (Fmt.f32.val b))
def maxF32 (a b : Nat) : Nat := Fmt.f32.round .rn false ((Fmt.f32.val a).fmax (Fmt.f32.val b))
def minF32 (a b : Nat) : Nat := Fmt.f32.round .rn false ((Fmt.f32.val a).fmin (Fmt.f32.val b))

/-- A conversion between formats as engines do it: to nearest even, saturating (R258). -/
def engineCvt (src dst : Ty) (x : Nat) : Nat := (fmtOf dst).round .rn (dst != .f32) ((fmtOf src).val x)

/-! ## Majors 0x10 to 0x17 -/

/-- An operation on one value of a type: the low half, and with `.x2` the high half by itself (R253, R349). -/
def halves1 (o : Op) (f : Nat → Nat) (a : Word) : Word :=
  let w := (fmtOf o.ty).width
  let lo := f (a.toNat % 2 ^ w)
  BitVec.ofNat 32 (if o.x2 then lo + f (a.toNat / 2 ^ 16) * 2 ^ 16 else lo)

def halves2 (o : Op) (f : Nat → Nat → Nat) (a b : Word) : Word :=
  let w := (fmtOf o.ty).width
  let lo := f (a.toNat % 2 ^ w) (b.toNat % 2 ^ w)
  BitVec.ofNat 32 (if o.x2 then lo + f (a.toNat / 2 ^ 16) (b.toNat / 2 ^ 16) * 2 ^ 16 else lo)

def halves3 (o : Op) (f : Nat → Nat → Nat → Nat) (a b c : Word) : Word :=
  let w := (fmtOf o.ty).width
  let lo := f (a.toNat % 2 ^ w) (b.toNat % 2 ^ w) (c.toNat % 2 ^ w)
  BitVec.ofNat 32 (if o.x2 then lo + f (a.toNat / 2 ^ 16) (b.toNat / 2 ^ 16) (c.toNat / 2 ^ 16) * 2 ^ 16 else lo)

/-- A unary floating instruction: one rounding of an exact value. -/
def float1 (k : Opc) (o : Op) (s : State) (f : FV → FV) : Host.Outcome State Fault Refusal :=
  s.compute k o fun t =>
    t.setReg o.d.toNat (halves1 o (fun a => (fmtOf o.ty).round o.rm false (f ((fmtOf o.ty).val a))) (t.reg o.a.toNat))

/-- A binary one. -/
def float2 (k : Opc) (o : Op) (s : State) (f : FV → FV → FV) : Host.Outcome State Fault Refusal :=
  s.compute k o fun t =>
    t.setReg o.d.toNat (halves2 o (fun a b => (fmtOf o.ty).round o.rm false (f ((fmtOf o.ty).val a) ((fmtOf o.ty).val b)))
      (t.reg o.a.toNat) (o.srcB32 t))

/-- R349. -/
def execFadd (o : Op) (s : State) : Host.Outcome State Fault Refusal := float2 .fadd o s (FV.add o.rm)
def execFsub (o : Op) (s : State) : Host.Outcome State Fault Refusal := float2 .fsub o s fun a b => FV.add o.rm a b.negate
def execFmul (o : Op) (s : State) : Host.Outcome State Fault Refusal := float2 .fmul o s FV.mul
def execFmin (o : Op) (s : State) : Host.Outcome State Fault Refusal := float2 .fmin o s FV.fmin
def execFmax (o : Op) (s : State) : Host.Outcome State Fault Refusal := float2 .fmax o s FV.fmax

def execFfma (o : Op) (s : State) : Host.Outcome State Fault Refusal :=
  s.compute .ffma o fun t =>
    let v (x : Nat) : FV := (fmtOf o.ty).val x
    t.setReg o.d.toNat (halves3 o (fun a b c => (fmtOf o.ty).round o.rm false (FV.add o.rm ((v a).mul (v b)) (v c)))
      (t.reg o.a.toNat) (o.srcB32 t) ((o.srcC t .f32).setWidth 32))

def execFrcp (o : Op) (s : State) : Host.Outcome State Fault Refusal := float1 .frcp o s fun a => FV.div (.fin false 1 0) a
def execFrsq (o : Op) (s : State) : Host.Outcome State Fault Refusal := float1 .frsq o s FV.rsqrt
def execFsqrt (o : Op) (s : State) : Host.Outcome State Fault Refusal := float1 .fsqrt o s FV.sqrt
def execFex2 (o : Op) (s : State) : Host.Outcome State Fault Refusal := float1 .fex2 o s FV.exp2
def execFlg2 (o : Op) (s : State) : Host.Outcome State Fault Refusal := float1 .flg2 o s FV.log2
def execFrnd (o : Op) (s : State) : Host.Outcome State Fault Refusal := float1 .frnd o s (FV.integral o.rm)

/-- The comparison codes of R350. -/
def fcmpCode (cc : Nat) (a b : FV) : Bool :=
  match a.cmp b with
  | none => cc == 1 || cc == 6
  | some r => match cc with
    | 0 => r == .eq | 1 => r != .eq | 2 => r == .lt | 3 => r != .gt | 4 => r == .gt | 5 => r != .lt | 6 => false | _ => true

def execFcmp (o : Op) (s : State) : Host.Outcome State Fault Refusal :=
  s.compute .fcmp o fun t =>
    let f := fmtOf o.ty
    t.setPred (o.d.toNat % 8)
      (fcmpCode (o.d.toNat / 8) (f.val ((t.reg o.a.toNat).toNat % 2 ^ f.width)) (f.val ((o.srcB32 t).toNat % 2 ^ f.width)))

/-- The class of a value (R351). -/
def Fmt.classOf (f : Fmt) (x : Nat) : Nat :=
  let ex := x / 2 ^ f.fb % 2 ^ f.eb
  match f.val x with
  | .nan => 8
  | .inf n => if n then 0 else 7
  | .fin n m _ =>
    if m = 0 then (if n then 3 else 4)
    else if ex = 0 then (if n then 2 else 5)
    else if n then 1 else 6

def execFcls (o : Op) (s : State) : Host.Outcome State Fault Refusal :=
  s.compute .fcls o fun t =>
    let f := fmtOf o.ty
    t.setPred (o.d.toNat % 8) (bitAt (o.srcB32 t).toNat (f.classOf ((t.reg o.a.toNat).toNat % 2 ^ f.width)))

/-- One conversion (R258, R352). -/
def convert (o : Op) (src dst : Ty) (x : DWord) : DWord :=
  if dst.isInt then tyWrite dst false (((fmtOf src).val (x.toNat % 2 ^ (fmtOf src).width)).toInt o.rm dst)
  else if src.isInt then BitVec.ofNat 64 ((fmtOf dst).round o.rm o.sat (.ofInt (tyVal src x)))
  else BitVec.ofNat 64 ((fmtOf dst).round o.rm (o.sat && dst != .f32) ((fmtOf src).val (x.toNat % 2 ^ (fmtOf src).width)))

def execFcvt (o : Op) (s : State) : Host.Outcome State Fault Refusal :=
  s.compute .fcvt o fun t =>
    let half (x : Word) : Word := (convert o o.srcTy o.ty (x.setWidth 64)).setWidth 32
    let a := t.reg o.a.toNat
    if o.fcvtPack then
      t.setReg o.d.toNat (half a ||| (half (t.reg o.b.toNat) <<< 16))
    else if o.fcvtUnpack then
      (t.setReg o.d.toNat (half (a &&& 0xFFFF))).setReg (o.d.toNat + 1) (half (a >>> 16))
    else t.dst o.ty o.d (convert o o.srcTy o.ty (t.src o.srcTy o.a))

end Sys2Proof.Machine
end

