-- ==== Sys2Proof/Machine/Kx.lean ====
section
/-! DEFINITION. The kx block family (R259 to R263). -/

namespace Sys2Proof.Machine

/-- m of a kx type (R259). -/
def kxM : Ty → Nat
  | .kx2 => 2
  | .kx4 => 4
  | _ => 7

def isKx : Ty → Bool
  | .kx2 | .kx4 | .kx7 => true
  | _ => false

/-- Bytes of a block: 8, 12 or 18. -/
def kxBytes (t : Ty) : Nat := 2 + 2 * (kxM t + 1)

/-- Element i of a block (R260, R262). -/
def kxElem (t : Ty) (blk i : Nat) : FV :=
  let m := kxM t
  let e := bits blk 7 0
  if e = 255 then .nan
  else
    let x := blk / 2 ^ (16 + (m + 1) * i) % 2 ^ (m + 1)
    let sh := blk / 2 ^ (8 + 2 * (i / 4)) % 4
    .fin (bitAt x m) (x % 2 ^ m) ((e : Int) - 127 - sh - ((m : Int) - 1))

/-- The nearest integer, ties to even, to |x| × 2^k. -/
def rneScaled (x : FV) (k : Int) : Nat :=
  match x with
  | .fin _ m e => roundAt .rn false m (e + k) 0
  | _ => 0

/-- A value with an infinity replaced by the largest finite value of its format (R263). -/
def clampInf (f : Fmt) : FV → FV
  | .inf n => f.val (f.largest n)
  | x => x

/-- The largest magnitude of some finite values. -/
def maxMag (xs : List FV) : FV :=
  xs.foldl (fun a x => match x with
    | .fin _ m e => if a.below (.fin false m e) then .fin false m e else a
    | _ => a) (.fin false 0 0)

/-- One quartet's shift and its elements, at shared exponent `ex` (R263). -/
def kxQuartet (m : Nat) (ex : Int) (xs : List FV) : Nat × List Nat :=
  let qm := maxMag xs
  let fits (c : Nat) : Bool := decide (rneScaled qm (127 - ex + c + (m - 1 : Nat)) ≤ 2 ^ m - 1)
  let t := if fits 3 then 3 else if fits 2 then 2 else if fits 1 then 1 else 0
  (t, xs.map fun x =>
    let mag := min (rneScaled x (127 - ex + t + (m - 1 : Nat))) (2 ^ m - 1)
    mag + (if mag ≠ 0 && x.negBit then 2 ^ m else 0))

/-- Fields of `w` bits put together, the first lowest. -/
def packFields (w : Nat) : List Nat → Nat
  | [] => 0
  | x :: xs => x + 2 ^ w * packFields w xs

/-- kx_quant (R263): the block of sixteen values of a source format, as a number. -/
def kxQuant (t : Ty) (f : Fmt) (xs : List FV) : Nat :=
  let m := kxM t
  if xs.any FV.isNan then 255
  else
    let xs := xs.map (clampInf f)
    match maxMag xs with
    | .fin _ am ae =>
      if am = 0 then 0
      else
        let ex : Int := min (max (ae + Nat.log2 am + 127) 0) 254
        let qs := (List.range 4).map fun j => kxQuartet m ex ((xs.drop (4 * j)).take 4)
        ex.toNat + 2 ^ 8 * packFields 2 (qs.map (·.1)) + 2 ^ 16 * packFields (m + 1) (qs.flatMap (·.2))
    | _ => 0

end Sys2Proof.Machine
end

