-- ==== Sys2Proof/Machine/CrossLane.lean ====
section
/-! DEFINITION. Cross-lane instructions, majors 0x18 to 0x1B (R353 to R357). -/

namespace Sys2Proof.Machine

/-- A cross-lane instruction: legal only in a sealed group, unless no thread executes it (R152, R353). The present lanes
are the executing threads; every source is read at issue. -/
def State.crossLane (k : Opc) (o : Op) (s : State) (wr : List Thread → Thread → Thread) :
    Host.Outcome State Fault Refusal :=
  s.issue k o fun g xs =>
    if xs.isEmpty then .done s
    else if g.isSealed then .done (s.onThreads (xs.map (·.uid)) fun t => wr xs t)
    else .stop (allTake xs .sealIllegal)

/-- The present thread of a lane. -/
def laneOf (xs : List Thread) (l : Nat) : Option Thread := xs.find? fun t => t.lane == l

/-- The source lane of a shuffle (R354). -/
def shflLane (mode l b : Nat) : Option Nat :=
  match mode with
  | 0 => some b
  | 1 => if b ≤ l then some (l - b) else none
  | 2 => some (l + b)
  | _ => some (l ^^^ b)

def execShfl (o : Op) (s : State) : Host.Outcome State Fault Refusal :=
  s.crossLane .shfl o fun xs t =>
    t.dst o.ty o.d
      (match (shflLane o.func.toNat t.lane (o.srcB32 t).toNat).bind (laneOf xs) with
       | some u => u.src o.ty o.a
       | none => t.src o.ty o.a)

/-- R355. -/
def execVoteAny (o : Op) (s : State) : Host.Outcome State Fault Refusal :=
  s.crossLane .voteAny o fun xs t => t.setPred (o.d.toNat % 8) (xs.any fun u => u.pred o.a.toNat)

def execVoteAll (o : Op) (s : State) : Host.Outcome State Fault Refusal :=
  s.crossLane .voteAll o fun xs t => t.setPred (o.d.toNat % 8) (xs.all fun u => u.pred o.a.toNat)

/-- The ballot: bit L is 1 when lane L is present and its predicate reads 1. -/
def ballot (p : Nat) (xs : List Thread) : Nat :=
  natOfBits ((List.range 128).map fun l => match laneOf xs l with | some u => u.pred p | none => false)

def execVoteBallot (o : Op) (s : State) : Host.Outcome State Fault Refusal :=
  s.crossLane .voteBallot o fun xs t =>
    let b := ballot o.a.toNat xs
    t.setRegs o.d.toNat ((List.range 4).map fun i => BitVec.ofNat 32 (b / 2 ^ (32 * i)))

def execVoteEq (o : Op) (s : State) : Host.Outcome State Fault Refusal :=
  s.crossLane .voteEq o fun xs t =>
    t.setPred (o.d.toNat % 8) (xs.all fun u => xs.all fun v => u.src o.ty o.a == v.src o.ty o.a)

end Sys2Proof.Machine

namespace Sys2Proof

/-- The reduction code of R356. -/
def Op.redOp (o : Op) : Nat := if o.len.isExt then o.aux.toNat else o.b.toNat % 8

end Sys2Proof

namespace Sys2Proof.Machine

/-- One reduction step (R356, R59). -/
def redStep (t : Ty) (op : Nat) (x y : DWord) : DWord :=
  if t = .f32 then
    BitVec.ofNat 64 (match op with
      | 0 => addF32 x.toNat y.toNat
      | 1 => minF32 x.toNat y.toNat
      | _ => maxF32 x.toNat y.toNat)
  else match op with
    | 0 => tyWrite t false (tyVal t x + tyVal t y)
    | 1 => tyWrite t false (min (tyVal t x) (tyVal t y))
    | 2 => tyWrite t false (max (tyVal t x) (tyVal t y))
    | 3 => x &&& y
    | 4 => x ||| y
    | _ => x ^^^ y

/-- The identities of `.ex` (R356). -/
def redIdent (t : Ty) (op : Nat) : DWord :=
  if t = .f32 then (match op with | 0 => 0 | 1 => 0x7F800000 | _ => 0xFF800000)
  else match op with
    | 1 => tyWrite t false (tyMax t)
    | 2 => tyWrite t false (tyMin t)
    | 3 => BitVec.ofInt 64 (-1)
    | _ => 0

/-- The values of the present lanes in ascending lane order. -/
def laneVals (t : Ty) (r : BitVec 9) (xs : List Thread) : List (Nat × DWord) :=
  (List.range 128).filterMap fun l => (laneOf xs l).map fun u => (l, u.src t r)

/-- One level of the `redux` tree: neighbours are summed, and a lone value stays (R356). -/
def treeLevel : List (Option DWord) → List (Option DWord)
  | x :: y :: rest =>
    (match x, y with
     | some a, some b => some (BitVec.ofNat 64 (addF32 a.toNat b.toNat))
     | none, some b => some b
     | a, none => a) :: treeLevel rest
  | l => l

/-- The fixed tree of `redux` `.f32` `.add`. One value alone is moved without arithmetic. DESIGN CHOICE (log entry 95). -/
def f32Tree (xs : List (Option DWord)) : Option DWord :=
  ((treeLevel (treeLevel (treeLevel (treeLevel (treeLevel (treeLevel (treeLevel xs))))))).head?).join

/-- The reduction of values in ascending lane order; none of no value. One value alone is moved without arithmetic, a NaN with its bits.
DESIGN CHOICE (log entry 95). -/
def reduce (t : Ty) (op : Nat) : List DWord → Option DWord
  | [] => none
  | x :: xs => some (xs.foldl (redStep t op) x)

def execRedux (o : Op) (s : State) : Host.Outcome State Fault Refusal :=
  s.crossLane .redux o fun xs t =>
    let v :=
      if o.ty = .f32 ∧ o.redOp = 0 then f32Tree ((List.range 128).map fun l => (laneOf xs l).map fun u => u.src o.ty o.a)
      else reduce o.ty o.redOp ((laneVals o.ty o.a xs).map (·.2))
    t.dst o.ty o.d (v.getD 0)

def execScan (o : Op) (s : State) : Host.Outcome State Fault Refusal :=
  s.crossLane .scan o fun xs t =>
    t.dst o.ty o.d ((reduce o.ty o.redOp (((laneVals o.ty o.a xs).filter fun e => decide (e.1 ≤ t.lane)).map (·.2))).getD 0)

def execScanEx (o : Op) (s : State) : Host.Outcome State Fault Refusal :=
  s.crossLane .scanEx o fun xs t =>
    t.dst o.ty o.d
      ((reduce o.ty o.redOp (((laneVals o.ty o.a xs).filter fun e => decide (e.1 < t.lane)).map (·.2))).getD
        (redIdent o.ty o.redOp))

end Sys2Proof.Machine

namespace Sys2Proof

/-- The kx format and the float type of `quant` and `dequant`: the base forms are kx4 and f32 (R357). -/
def Op.kxTy (o : Op) : Ty := if o.len.isExt then o.ty else .kx4
def Op.kxFloat (o : Op) : Ty := if o.len.isExt then o.srcTy else .f32

end Sys2Proof

namespace Sys2Proof.Machine

/-- The lanes of a segment. -/
def segment (xs : List Thread) (g : Nat) : List (Option Thread) := (List.range 16).map fun i => laneOf xs (16 * g + i)

def execQuant (o : Op) (s : State) : Host.Outcome State Fault Refusal :=
  s.crossLane .quant o fun xs t =>
    let f := fmtOf o.kxFloat
    let vals := (segment xs (t.lane / 16)).map fun u => match u with
      | some u => f.val ((u.reg o.a.toNat).toNat % 2 ^ f.width)
      | none => .fin false 0 0
    let blk := kxQuant o.kxTy f vals
    let i := t.lane % 16
    t.setReg o.d.toNat (BitVec.ofNat 32 (blk / 2 ^ (32 * i)))

def execDequant (o : Op) (s : State) : Host.Outcome State Fault Refusal :=
  s.crossLane .dequant o fun xs t =>
    let f := fmtOf o.kxFloat
    let words := (segment xs (t.lane / 16)).map fun u => match u with
      | some u => (u.reg o.a.toNat).toNat
      | none => 0
    let blk := packFields 32 words % 2 ^ (8 * kxBytes o.kxTy)
    t.setReg o.d.toNat (BitVec.ofNat 32 (f.round .rn true (kxElem o.kxTy blk (t.lane % 16))))

end Sys2Proof.Machine
end

