-- ==== Sys2Proof/Machine/Quad.lean ====
section
/-! DEFINITION. What the cores of a quad share: accumulator tiles with their waiters and releases (R162 to R164, R400 to
R403), room in the forge's table (R393), and the rings that take lamp and flue records (R291 to R293). -/

namespace Sys2Proof.Machine

/-! ## Lamp and flue rings (R292, R293, R296) -/

/-- The registers of a record ring of a context. -/
structure Ring where
  base : Nat
  ctl : Nat
  tail : Nat
  head : Nat
  lost : Nat
  size : Nat
  deriving DecidableEq, Repr

def lampRing (c : Nat) : Ring :=
  { base := dbgCtx c 0, ctl := dbgCtx c 8, tail := dbgCtx c 0xC, head := dbgCtx c 0x10, lost := dbgCtx c 0x14, size := 64 }

def flueRing (c : Nat) : Ring :=
  { base := dbgCtx c 0x18, ctl := dbgCtx c 0x20, tail := dbgCtx c 0x24, head := dbgCtx c 0x28, lost := dbgCtx c 0x2C, size := 32 }

/-- Records that a ring holds. -/
def State.ringFill (s : State) (r : Ring) : Nat := (s.reg r.tail + 2 ^ 32 - s.reg r.head) % 2 ^ 32

def State.ringSize (s : State) (r : Ring) : Nat := 2 ^ bits (s.reg r.ctl) 4 0

/-- Where the next record of a ring goes. -/
def State.nextSlot (s : State) (ctx : Nat) (r : Ring) : Except Cls Xlat :=
  translate s ctx (BitVec.ofNat 64 (s.reg r.base + r.size * (s.reg r.tail % s.ringSize r))) .store

/-- Writes a record, or counts it lost: the ring is full, or its page is no package-local page that may be written.
DEDUCED (log entry 30). -/
def State.logTo (s : State) (ctx : Nat) (r : Ring) (bs : List Byte) : State :=
  let lose := s.setReg r.lost (min (s.reg r.lost + 1) (2 ^ 32 - 1))
  if s.reg r.base = 0 then s
  else if s.ringSize r ≤ s.ringFill r then lose
  else match s.nextSlot ctx r with
    | .ok x =>
      if x.cls = 0 then ((s.homeWrite ctx x.at_ bs).noteHome x.at_ bs.length 1).setReg r.tail ((s.reg r.tail + 1) % 2 ^ 32) else lose
    | .error _ => lose

/-- A record waits for the self-test of the channel that holds its place, or a table of the walk to it (R34). -/
def State.ringHeld (s : State) (ctx : Nat) (r : Ring) : Bool :=
  s.tablesWait ctx || (match s.nextSlot ctx r with | .ok x => s.channelWait x.at_ | .error _ => false)

def ringOf (flue : Bool) (ctx : Nat) : Ring := if flue then flueRing ctx else lampRing ctx

/-- The accesses of a thread, and the writes it has read in L1, that are not performed: what a release of the thread follows
(R63, R239). -/
def State.unwritten (s : State) (uid : Nat) : List Nat :=
  ((s.requestsOf uid).filter fun p => !p.applied).map (·.id) ++ s.unperformed uid ++
    (s.lodes.filter fun l => l.uid == uid && l.gid != 0).map (·.op)

def Late.recordsOf (uid : Nat) : Late → Bool
  | .record u .. => u == uid
  | _ => false

/-- A thread makes a record: it is written with release at `.sys`, and so after the thread's earlier accesses and records, though the
instruction does not wait (R292, R293, R454); thread 0 stands for the package itself. DEDUCED (log entry 75). -/
def State.record (s : State) (uid ctx : Nat) (flue : Bool) (bs : List Byte) : State :=
  if (s.unwritten uid).isEmpty && !s.late.any (Late.recordsOf uid) && !s.ringHeld ctx (ringOf flue ctx) then
    s.logTo ctx (ringOf flue ctx) bs
  else
    let late : Late := .record uid ctx flue (s.unwritten uid) bs
    { s with late := s.late ++ [late] }

/-- A waiting record may be written: what it follows is performed, and no earlier record of its thread waits. -/
def State.recordDue (s : State) (before : List Late) : Late → Bool
  | .record u c flue reqs _ =>
    !(s.fabric.pending.any fun p => reqs.contains p.id && !p.applied) && !(s.lodes.any fun l => reqs.contains l.op) &&
      !before.any (Late.recordsOf u) && !s.ringHeld c (ringOf flue c)
  | _ => false

/-- The waiting records that may be written are written. -/
def State.settleRecords (s : State) : State :=
  if s.late.any fun l => match l with | .record .. => true | _ => false then
    let step (a : State × List Late) (l : Late) : State × List Late :=
      match a.1.recordDue a.2 l, l with
      | true, .record _ c flue _ bs => (a.1.logTo c (ringOf flue c) bs, a.2)
      | _, l => (a.1, a.2 ++ [l])
    let r := s.late.foldl step (s, [])
    { r.1 with late := r.2 }
  else s

/-! ## Lamp records of a span (R291) -/

def Acc.eventTime (a : Acc) (i : Nat) : Option Nat := Tab.find i a.events

/-- Notes an event at its first moment. -/
def Acc.noteFirst (a : Acc) (i now : Nat) : Acc :=
  if (a.eventTime i).isSome then a else { a with events := Tab.set i now a.events }

/-- Notes an event at its latest moment. -/
def Acc.noteLast (a : Acc) (i now : Nat) : Acc := { a with events := Tab.set i now a.events }

/-- The times of a lamp record: the earliest event present, and each event after it. -/
def lampTimes (ev : Nat → Option Nat) : List Byte :=
  let present := (List.range 7).filterMap ev
  let base := (minBy (fun a b => decide (a ≤ b)) present).getD 0
  bytesOfNat base 8 ++ (List.range 7).flatMap fun i => bytesOfNat (match ev i with
    | some t => min (t - base) 0xFFFFFFFE
    | none => 0xFFFFFFFF) 4

/-- The record of a span that ends. DEDUCED (log entry 30). -/
def lampOf (s : State) (ctx tile : Nat) (a : Acc) : List Byte :=
  bytesOfNat a.lastPc.toNat 8 ++ bytesOfNat a.lastSeq.toNat 4 ++
    bytesOfNat (s.pkgOf ctx * 2 ^ 25 + a.core % 256 * 2 ^ 17 + tile * 2 ^ 12 + min a.passes 4095) 4 ++
    lampTimes a.eventTime ++ bytesOfNat 0 12

/-- A tile's span ends, and the tile is free (R403). -/
def State.freeAcc (s : State) (q i : Nat) : State :=
  match Tab.find i (s.quad q).accs with
  | none => s
  | some a =>
    let s := match s.team? a.team with
      | some t => s.record 0 t.ctx false (lampOf s t.ctx i a)
      | none => s
    let x := s.quad q
    s.setQuad q { x with accs := Tab.del i x.accs }

def State.onAcc (s : State) (q i : Nat) (f : Acc → Acc) : State :=
  let x := s.quad q
  match Tab.find i x.accs with
  | some a => s.setQuad q { x with accs := Tab.set i (f a) x.accs }
  | none => s

/-- A tile that a team holds, for an instruction that issues now (R401, R403). -/
def State.heldAcc (s : State) (q team i : Nat) : Option Acc :=
  (Tab.find i (s.quad q).accs).filter fun a => a.team == team && !a.going

/-! ## Waiters (R162, R163) -/

/-- A new tile: every element +0, every side maximum −∞, every side sum +0 (R401). DEDUCED (log entry 63). -/
def freshAcc (w : Waiter) (ns : Nat) : Acc :=
  { team := w.team, uid := w.uid, core := w.core, elems := [], maxs := [], sums := [], going := false, lastPc := 0,
    lastSeq := 0, passes := 0, since := ns, prev := [], wrote := 0, direct := [], events := [] }

def State.freeAccs (s : State) (q : Nat) : List Nat :=
  (List.range 32).filter fun i => (Tab.find i (s.quad q).accs).isNone

def Waiter.le (a b : Waiter) : Bool :=
  decide (a.launchSeq < b.launchSeq) || (a.launchSeq == b.launchSeq && (decide (a.posted < b.posted) ||
    (a.posted == b.posted && decide (a.slot ≤ b.slot))))

/-- A waiter leaves the list with its answer: the tiles granted, or YIELD. -/
def State.answerWaiter (s : State) (q : Nat) (w : Waiter) (got : List Nat) : State :=
  let x := s.quad q
  let accs := got.foldl (fun t i => Tab.set i (freshAcc w s.ns) t) x.accs
  let s := got.foldl (fun (s : State) i => s.lift ⟨.acc q, 65536 * i⟩ 65536) s
  let s := s.setQuad q { x with accs := accs, waiters := x.waiters.filter fun v => v.uid != w.uid }
  let mask := (got.map fun i => 2 ^ i).sum
  s.onThread w.uid fun t =>
    { ((t.setReg w.dreg (BitVec.ofNat 32 mask)).setPred w.pd (!got.isEmpty)).dropFlag w.flag with acct := t.acct - 1 }

/-- Grants the waiters oldest first, and refuses the youngest where R163 says so; a waiter that stands alone is never refused (R418, and
the example after R164). DEDUCED (log entry 31). -/
def State.judgeWaiters (s : State) (q : Nat) : Nat → State
  | 0 => s
  | n + 1 =>
    let ws := sortBy Waiter.le (s.quad q).waiters
    let free := s.freeAccs q
    match ws with
    | [] => s
    | w :: _ =>
      if w.want ≤ free.length then (s.answerWaiter q w (free.take w.want)).judgeWaiters q n
      else if decide (2 ≤ ws.length) && ws.all fun v => decide (free.length < v.want) && (s.quad q).accs.any fun a => a.2.uid == v.uid && !a.2.going then
        (s.answerWaiter q (ws.getLast?.getD w) []).judgeWaiters q n
      else s

/-! ## Releases (R400, R403) -/

/-- The names of the forge entries, seam entries and commands of a quad that are incomplete. -/
def State.liveIds (s : State) (q : Nat) : List Nat :=
  (s.quad q).entries.map (·.id) ++ (s.quad q).seams.map (·.id) ++
    (List.range 4).flatMap fun k => (s.core (4 * q + k)).copyq.map (·.id)

/-- What a release waits for has come. -/
def State.releasable (s : State) (q : Nat) (r : Release) : Bool :=
  match r with
  | .acc _ _ _ _ before => before.all fun i => !(s.liveIds q).contains i
  | .opres _ _ idx _ before =>
    (before.all fun i => !(s.liveIds q).contains i) &&
    (match s.tile? q idx with | some t => t.state == .empty || t.state == .ready | none => true)

/-- A release takes effect. -/
def State.release (s : State) (q : Nat) (r : Release) : State :=
  match r with
  | .acc uid _ mask flag _ =>
    (((List.range 32).filter fun i => bitAt mask.toNat i).foldl (fun s i => s.freeAcc q i) s).complete uid flag
  | .opres uid _ idx flag _ =>
    let x := s.quad q
    (s.setQuad q { x with tiles := Tab.del idx x.tiles }).complete uid flag

/-- A tile entry is not filling. -/
def State.settled (s : State) (q idx : Nat) : Bool :=
  match s.tile? q idx with
  | some t => t.state != .filling
  | none => true

/-- The names of the scans that wait for their tiles. -/
def scanIds (l : Late) : List Nat := match l with
  | .scan id .. => [id]
  | _ => []

/-- What an instruction of a quad's units waits for has come: the tile of an `nzscan` is ready (R434), or every earlier seam
instruction of a fence's thread is complete (R432). -/
def State.unitDone (s : State) (l : Late) : Bool :=
  match l with
  | .scan _ _ _ q idx _ _ _ => s.settled q idx
  | .seamFence _ _ before =>
    before.all fun i => !(s.quads.any fun x => (x.2.seams.any fun e => e.id == i) || x.2.entries.any fun e => e.id == i) &&
      !(s.late.flatMap scanIds).contains i
  | _ => false

/-- They complete. A scan may release a fence, so that the list is judged twice. -/
def State.settleUnits (s : State) : State :=
  if s.late.isEmpty then s
  else
    let finish (s : State) (l : Late) : State := match l with
      | .scan _ uids f _ _ dreg n _ => s.onThreads uids fun t => (t.setReg dreg (BitVec.ofNat 32 n)).dropFlag f
      | .seamFence u f _ => s.unhold u f
      | _ => s
    let once (s : State) : State :=
      (s.late.filter s.unitDone).foldl finish { s with late := s.late.filter fun l => !s.unitDone l }
    once (once s)

/-- The releases of a quad that have become possible take effect, and its waiters are judged. -/
def State.settleQuad (s : State) (q : Nat) : State :=
  let step (s : State) (r : Release) : State :=
    if s.releasable q r then s.release q r
    else
      let x := s.quad q
      s.setQuad q { x with releases := x.releases ++ [r] }
  let x := s.quad q
  let s := x.releases.foldl step (s.setQuad q { x with releases := [] })
  (s.judgeWaiters q ((s.quad q).waiters.length + 1)).settleUnits

/-- Whether a core's share of the reservation table has room (R128, R393). -/
def State.entryRoom (s : State) (core : Nat) : Bool :=
  let x := s.quad (quadOfCore core)
  decide ((x.entries.filter fun e => e.core == core).length + (x.waiters.filter fun w => w.core == core).length < 16)

end Sys2Proof.Machine
end

