-- ==== Sys2Proof/Machine/Fabric.lean ====
section
/-! DEFINITION. The shaft fabric (R43 to R70, R470, R471): requests, merging, the combining stages, the acts at the home
slices, replies and their split, delivery to threads, and timeouts. -/

namespace Sys2Proof.Machine

/-! ## Operations and keys (R53, R58, R59) -/

def ReqOp.size : ReqOp → Nat
  | .load n | .swap n | .store n | .cas n _ | .bit _ n => n
  | .add t | .max t | .min t => t.bits / 8

/-- The key of a combinable request: `add` does not tell signed from unsigned. -/
def ReqOp.key : ReqOp → Option ReqOp
  | .load n => if n = 4 ∨ n = 8 then some (.load n) else none
  | .add .i32 => some (.add .w32)
  | .add .i64 => some (.add .w64)
  | .add t => some (.add t)
  | .max t => some (.max t)
  | .min t => some (.min t)
  | .swap n => some (.swap n)
  | _ => none

/-- The value that an operation leaves in the word. -/
def ReqOp.apply (op : ReqOp) (old b : DWord) : DWord :=
  match op with
  | .load _ => old
  | .add t => redStep t 0 old b
  | .min t => redStep t 1 old b
  | .max t => redStep t 2 old b
  | .swap _ | .store _ => b
  | .cas n c => if old.toNat % 2 ^ (8 * n) = b.toNat % 2 ^ (8 * n) then c else old
  | .bit k _ => match k with | 0 => old &&& b | 1 => old ||| b | _ => old ^^^ b

/-- The forwarded operand of parts in serial order (R57, R58). -/
def forward (op : ReqOp) : List DWord → DWord
  | [] => 0
  | [a] => a
  | a :: rest => op.apply a (forward op rest)

/-- What each part receives of a reply value (R58). -/
def shares (op : ReqOp) (v : DWord) : List DWord → List DWord
  | [] => []
  | a :: rest => v :: shares op (op.apply v a) rest

/-- The number that stands for no core, where a request is of none. -/
def noCore : Nat := 256

/-! ## Stages (R45, R52) -/

/-- Merges need a free entry below this number (R62, R288, R289). -/
def State.sumpLimit (s : State) (st : StageId) : Nat :=
  match st with
  | .collar c => if s.debugOn then bits (s.reg (dbg (0x100 + 8 * quadOfCore c))) 4 0 else 16
  | .landing q => if s.debugOn then bits (s.reg (dbg (0x100 + 8 * q))) 22 16 else 64
  | .upcast _ => if s.debugOn then bits (s.reg (dbg 8)) 14 8 else 64
  | .downcast _ => if s.debugOn then bits (s.reg (dbg 8)) 6 0 else 64

/-- A stage's window, in units of time (R74). -/
def State.window (s : State) (st : StageId) : Nat :=
  let w := s.reg (shf 0x24)
  match st with
  | .collar _ => bits w 3 0 * Config.unitsPerCoreCycle s.mhz100
  | .landing _ => bits w 7 4 * Config.unitsPerFabricCycle
  | .upcast _ => bits w 11 8 * Config.unitsPerFabricCycle
  | .downcast _ => bits w 15 12 * Config.unitsPerFabricCycle

/-- Traffic for a member may leave on its port: there is a way to it, its port is not under test, and the port's replay
buffer of 4,096 flits is not full (R34, R46, R47, R67). -/
def State.portOpen (s : State) (k : Nat) : Bool :=
  match s.routeTo k with
  | some m => k == s.self || (!s.underTest ⟨.port, m⟩ && decide ((Tab.get [] m s.fabric.bufHeld).length < 4096))
  | none => false

/-- An engine's access of a place may travel now (R34, R45, R47, R67). -/
def State.canReach (s : State) (p : PAddr) : Bool :=
  match p.space with
  | .pkg | .pod => s.portOpen (s.homePkg p) && !s.channelWait p
  | _ => true

/-- Two requests that touch a common byte. -/
def Req.meets (x y : Req) : Bool :=
  x.addr.space == y.addr.space && overlap x.addr.addr x.op.size y.addr.addr y.op.size != 0

/-- A request of a context touches the aligned 4-byte words of some bytes. -/
def Req.touches (x : Req) (ctx : Nat) (p : PAddr) (n : Nat) : Bool :=
  x.ctx == ctx && x.addr.space == p.space && overlap x.addr.addr x.op.size (p.addr / 4 * 4) ((p.addr % 4 + n + 3) / 4 * 4) != 0

/-- A stage that an access from a core, or the shaft die's own, passes on its way (R45, R471). -/
def onWay (core : Option Nat) : StageId → Bool
  | .collar c => core == some c
  | .landing q => core.map quadOfCore == some q
  | .upcast _ | .downcast _ => true

/-- ENGINE TRAFFIC ON THE PATH OF R45 AND R471. An access that the copy engine, the forge, the seam unit or a walker makes for a
core, or that the shaft die makes for itself (`core` none), never merges (R53). The model has it enter each stage on its way when it
can leave it at once: no unit on the way is under test, the port to its home is open, and no earlier request of its context to its
words waits at a stage, at the home, or at another member (R54). It then passes all of them and acts. DEDUCED (log entry 83). -/
def State.passes (s : State) (ctx : Nat) (core : Option Nat) (p : PAddr) (n : Nat) : Bool :=
  match p.space with
  | .pkg | .pod =>
    s.canReach p &&
    (match core with | some c => !s.underTest ⟨.core, c⟩ && !s.underTest ⟨.quad, quadOfCore c⟩ | none => true) &&
    !(s.fabric.arrivals.any fun a => onWay core a.1 && a.2.touches ctx p n) &&
    !(s.fabric.queues.any fun a => onWay core a.1 && a.2.touches ctx p n) &&
    !(s.fabric.homes.any fun a => a.2.touches ctx p n) && !(s.fabric.remote.any fun a => a.2.touches ctx p n) &&
    !(s.fabric.bulk.any fun b => b.ctx == ctx && b.at_.space == p.space &&
        overlap b.at_.addr b.bytes.length (p.addr / 4 * 4) ((p.addr % 4 + n + 3) / 4 * 4) != 0)
  | _ => true

/-- The replay buffers on the ways to some members have room for a flit to each of them (R67). -/
def State.roomFor (s : State) (ks : List Nat) : Bool :=
  let ports := ks.map fun k => (s.routeTo k).getD k
  ports.all fun m => decide ((ports.filter (· == m)).length + (Tab.get [] m s.fabric.bufHeld).length ≤ 4096)

/-- The same for a flit for each line of some places. -/
def State.flitsFit (s : State) (ps : List PAddr) : Bool := s.roomFor (s.flitsTo ps)

/-- An engine's accesses to some places in one act pass the fabric now. -/
def State.allPass (s : State) (ctx : Nat) (core : Option Nat) (ps : List (PAddr × Nat)) : Bool :=
  ps.all (fun p => s.passes ctx core p.1 p.2) &&
    (!s.podOn || s.flitsFit ((ps.filter fun p => p.1.space == .pod).map (·.1)))

/-- A bound on how deep merges nest: no part lies under more entries than there are. -/
def Fabric.depth (f : Fabric) : Nat := f.sumps.length + 1

/-- The thread and shaft-die requests that a part stands for. -/
def Fabric.ownersOf (f : Fabric) : Nat → Back → List Nat
  | _, .owner r => [r]
  | 0, .entry _ => []
  | n + 1, .entry e => match f.sumps.find? fun p => p.id == e with
    | some p => p.parts.flatMap fun x => f.ownersOf n x.1
    | none => []

/-! ## Entering a stage (R54 to R57) -/

/-- The entry of a stage that a waiting request already holds. -/
def Fabric.entryOf (f : Fabric) (st : StageId) (y : Req) : Option Sump :=
  match y.back with
  | .entry e => f.sumps.find? fun p => p.id == e && p.stage == st
  | .owner _ => none

/-- X may merge with the waiting request Y: no request to the word has entered after Y, waiting or gone, and the rest of R55 holds
(R62). -/
def Fabric.mayMerge (f : Fabric) (limit : Nat) (st : StageId) (x y : Req) : Bool :=
  x.ctx == y.ctx && x.addr == y.addr && x.op.key.isSome && x.op.key == y.op.key && !x.plain && !y.plain && !y.passed &&
  (if isCollar st then
    !(x.threads.any fun t => y.threads.contains t) &&
    ((f.entryOf st y).isSome || decide ((f.sumps.filter fun p => p.stage == st).length < limit))
   else decide ((f.sumps.filter fun p => p.stage == st).length < limit))

/-- The parts of a merge in serial order: the lower rank first, and of equal ranks the one that entered earlier. -/
def partsOf (f : Fabric) (st : StageId) (x y : Req) : List (Back × DWord × Nat) :=
  let px := (x.back, x.opnd, x.rank)
  match (if isCollar st then f.entryOf st y else none) with
  | some e => sortBy (fun a b => decide (a.2.2 ≤ b.2.2)) (e.parts ++ [px])
  | none => if x.rank < y.rank then [px, (y.back, y.opnd, y.rank)] else [(y.back, y.opnd, y.rank), px]

/-- X enters the output queue of a stage, and merges with the last waiting request to its word if it may. `ready` is the
time before which X, left alone, does not leave. -/
def Fabric.enter (f : Fabric) (limit nid now : Nat) (st : StageId) (ready : Nat) (x : Req) : Fabric :=
  let x := { x with ready := if x.op.key.isSome && !x.plain then ready else 0, passed := false }
  match (f.queues.filter fun q => q.1 == st && q.2.meets x).getLast? with
  | none => { f with queues := f.queues ++ [(st, x)] }
  | some (_, y) =>
    if f.mayMerge limit st x y then
      let parts := partsOf f st x y
      let joined := if isCollar st then f.entryOf st y else none
      let id := match joined with | some e => e.id | none => nid
      let bad := match joined with | some e => e.bad | none => false
      let e : Sump := { id, stage := st, op := y.op, parts, since := now, bad }
      let z : Req := { y with opnd := forward y.op (parts.map (·.2.1)), rank := min x.rank y.rank, back := .entry id,
                              threads := y.threads ++ x.threads }
      { f with queues := f.queues.map (fun q => if q.1 == st && q.2.back == y.back then (st, z) else q)
               sumps := (f.sumps.filter fun p => p.id != id) ++ [e] }
    else { f with queues := f.queues ++ [(st, x)] }

/-- An atomic would merge at the collar ahead of one of a higher slot whose thread has gone on to other accesses. As R56 serialises
the lower slot first, those accesses would come before an atomic that precedes them, which R237 forbids; such an atomic enters once
the other has left. DEDUCED (log entry 73). -/
def State.inverts (s : State) (f : Fabric) (st : StageId) (x : Req) : Bool :=
  match (if isCollar st && !x.op.isLoad && !x.op.isStore then (f.queues.filter fun q => q.1 == st && q.2.meets x).getLast? else none) with
  | some (_, y) => f.mayMerge (s.sumpLimit st) st x y && (f.ownersOf f.depth y.back).any fun r => f.pending.any fun p =>
      p.id == r && decide (x.rank < p.slot) && (match p.owner with
        | .thread u => (match s.thread? u with | some t => decide (p.id < t.accessed) | none => false)
        | _ => false)
  | none => false

/-- What has entered a stage so far: the fabric, the next name, the requests that have entered, and those held back. -/
structure Entering where
  fab : Fabric
  nid : Nat
  entered : List Req
  heldBack : List Req

/-- A request enters a stage. -/
def State.enterOne (s : State) (st : StageId) (a : Entering) (x : Req) : Entering :=
  { a with fab := a.fab.enter (s.sumpLimit st) a.nid s.time st (s.time + s.window st) x, nid := a.nid + 1, entered := a.entered ++ [x] }

/-- A request may not enter after those of `a`: it would invert a merge, or one held back is of its thread or to its word. -/
def State.mayNotEnter (s : State) (st : StageId) (a : Entering) (x : Req) : Bool :=
  s.inverts a.fab st x || a.heldBack.any fun h => h.threads.any x.threads.contains || (h.ctx == x.ctx && h.meets x)

/-- The requests of one instruction enter a stage together, or are held back together (R54). -/
def State.enterTogether (s : State) (st : StageId) (a : Entering) (xs : List Req) : Entering :=
  if xs.any (s.mayNotEnter st a) then { a with heldBack := a.heldBack ++ xs } else xs.foldl (s.enterOne st) a

/-- Some requests by the instructions that issued them, in the order of their issue; those of no thread stand each alone. -/
def byIssue : List Req → List (List Req)
  | [] => []
  | x :: rest => match byIssue rest with
    | (y :: ys) :: more => if x.turn == y.turn && !x.threads.isEmpty then (x :: y :: ys) :: more else [x] :: (y :: ys) :: more
    | gs => [x] :: gs

/-- The requests waiting at a stage's inputs enter, in port order; at a collar instruction by instruction in the order of their
issue. -/
def State.entering (s : State) (st : StageId) : Entering :=
  let here := (s.fabric.arrivals.filter fun a => a.1 == st).map (·.2)
  let fab : Fabric := { s.fabric with arrivals := s.fabric.arrivals.filter fun a => a.1 != st }
  let none_ : Entering := { fab, nid := s.nextId, entered := [], heldBack := [] }
  let r := if isCollar st then (byIssue here).foldl (s.enterTogether st) none_
    else (sortBy (fun a b => decide (a.port ≤ b.port)) here).foldl (s.enterOne st) none_
  if r.heldBack.isEmpty then r
  else { r with fab := { r.fab with arrivals := s.fabric.arrivals.filter fun a => a.1 != st || r.heldBack.any fun h => h.back == a.2.back } }

/-- A request leaves its thread's store buffer as it enters the collar: a package-local store is in L1 from then on, and in the lines
that replies on their way bring; an atomic takes its line out of L1 (R177, R237). -/
def State.leaveBuffer (s : State) (core : Nat) (x : Req) : State :=
  if x.addr.space = .pkg then
    if x.op.isStore then
      let bytes := bytesOfNat x.opnd.toNat x.op.size
      let line := x.addr.addr / 256 * 256
      let lay (q : Pending) : Pending :=
        if q.op.isLoad && q.applied && q.core == core && q.at_.space == .pkg && q.at_.addr / 256 * 256 == line then
          { q with bytes := q.bytes ++ [(x.addr, bytes)] } else q
      let s : State := { s with fabric := { s.fabric with pending := s.fabric.pending.map lay } }
      let c := s.core core
      if c.l1.isEmpty then s
      else
        let put (l : L1Line) : L1Line :=
          if l.line == line then { l with bytes := overLine line l.bytes [(x.addr, bytes)], rrv := if x.rd = 3 then l.rrv else 0 } else l
        (s.setCore core { c with l1 := c.l1.map put }).lift ⟨.l1 core, x.addr.addr⟩ bytes.length
    else if x.op.isLoad then s else s.dropL1 core x.addr 1
  else s

def execStageEnter (st : StageId) (s : State) : Host.Outcome State Fault Refusal :=
  let r := s.entering st
  let s' : State := { s with fabric := r.fab, nextId := r.nid }
  match st with
  | .collar c => .next ((r.entered.foldl (fun (s : State) x => s.leaveBuffer c x) s').bumpPerf c 7
      (s.fabric.queues.length + r.entered.length - r.fab.queues.length))
  | _ => .next s'

/-! ## Leaving a stage (R54) -/

/-- The first request of a stage that may leave: no earlier one of its context to its word waits. -/
def firstLeaving (now : Nat) : List Req → List Req → Option Req
  | _, [] => none
  | seen, x :: rest =>
    if decide (x.ready ≤ now) && !(seen.any fun y => y.ctx == x.ctx && y.meets x) then some x
    else firstLeaving now (seen ++ [x]) rest

/-- The stage's unit is not quiesced, and the request has somewhere to go: a port whose replay buffer of 4,096 flits is full
takes no more (R34, R46, R47, R67). -/
def State.mayLeave (s : State) (st : StageId) : Bool :=
  match st with
  | .collar c => !s.underTest ⟨.core, c⟩
  | .landing q => !s.underTest ⟨.quad, q⟩
  | .upcast k => s.portOpen k
  | .downcast _ => true

/-- DEDUCED (log entry 34). -/
def State.leaver (s : State) (st : StageId) : Option Req :=
  (firstLeaving s.time [] ((s.fabric.queues.filter fun q => q.1 == st).map (·.2))).bind fun x =>
    if s.mayLeave st then some x else none

/-- SHF_TIMEOUT in units of time (R73). -/
def State.fabricTimeoutUnits (s : State) : Nat := bits (s.reg (shf 0x20)) 19 0 * 1000 * Config.unitsPerNs

/-- A request leaves a stage and arrives at the next one (R45). DEDUCED (log entry 34). -/
def State.send (s : State) (st : StageId) (x : Req) : State :=
  let fab := s.fabric
  match st with
  | .collar c =>
    let limit := s.time + s.fabricTimeoutUnits
    let own := fab.ownersOf 2 x.back
    let pend := fab.pending.map fun p => if own.contains p.id then { p with deadline := some limit } else p
    let y := { x with port := c % 4, rank := c % 4 }
    let fab : Fabric := { fab with arrivals := fab.arrivals ++ [(.landing (quadOfCore c), y)], pending := pend }
    let s := State.bumpPerf { s with fabric := fab } c 6 1
    if x.op.isStore then s.touchCore c x.addr x.op.size else s
  | .landing q =>
    { s with fabric := { fab with arrivals := fab.arrivals ++ [(.upcast (s.homePkg x.addr), { x with port := q, rank := q })] } }
  | .upcast k =>
    if k = s.self then
      { s with fabric := { fab with
          arrivals := fab.arrivals ++ [(.downcast (homeSlice x.addr), { x with port := s.self, rank := s.self })] } }
    else
      State.sendFlit { s with fabric := { fab with remote := fab.remote ++ [(k, { x with flit := s.nextId })] } } k
  | .downcast h => { s with fabric := { fab with homes := fab.homes ++ [(s.servingSlice h, x)] } }

/-- A request leaves the queue of a stage: with those that entered it earlier and wait for its word, none will merge (R55). -/
def Fabric.leave (f : Fabric) (st : StageId) (x : Req) : Fabric :=
  let earlier := f.queues.takeWhile fun q => !(q.1 == st && q.2.back == x.back)
  let later := (f.queues.dropWhile fun q => !(q.1 == st && q.2.back == x.back)).filter fun q => !(q.1 == st && q.2.back == x.back)
  { f with queues := earlier.map (fun q => if q.1 == st && q.2.meets x then (q.1, { q.2 with passed := true }) else q) ++ later }

def execStageLeave (st : StageId) (s : State) : Host.Outcome State Fault Refusal :=
  match s.leaver st with
  | none => .next s
  | some x =>
    .next (State.send { s with fabric := s.fabric.leave st x } st x)

/-! ## At the home slice (R60) -/

/-- Replies whose target is gone are discarded (R67, R69). -/
def Fabric.purge (f : Fabric) : Fabric :=
  { f with replies := f.replies.filter fun r => match r.to_ with
      | .owner p => f.pending.any fun q => q.id == p
      | .entry e => f.sumps.any fun q => q.id == e }

def State.purge (s : State) : State := { s with fabric := s.fabric.purge }

/-- The home has performed a request at a moment: of a load, the L1 line that its reply brings is to hold the stores of the core that
have left their buffers and that the home has not performed (R177, R237). An atomic takes its line out of the L1 of the core that
issued it. -/
def State.noteApplied (s : State) (x : Req) (moment : Nat) : State :=
  let own := s.fabric.ownersOf s.fabric.depth x.back
  if own.isEmpty then s
  else
    let mine (p : Pending) : Bool := own.contains p.id
    let mark (p : Pending) : Pending :=
      if !mine p then p
      else if p.op.isLoad then { p with applied := true, moment, bytes := s.fabric.overlay p }
      else { p with applied := true }
    let atoms := s.fabric.pending.filter fun p => mine p && !p.op.isLoad && !p.op.isStore && p.core != noCore
    atoms.foldl (fun (s : State) p => s.dropL1 p.core p.at_ 1) { s with fabric := { s.fabric with pending := s.fabric.pending.map mark } }

/-- One request as one read-modify-write of its word, with the reply it sends. Of one whose flit was re-sent with uncorrectable data,
a store leaves that data in its word, and any other delivers no value (R32). -/
def State.applyReq (s : State) (x : Req) : State × Reply :=
  let n := x.op.size
  if x.bad then
    if x.op.isStore then
      let s := ((s.homeWriteNat x.ctx x.addr n x.opnd.toNat).noteHome x.addr n x.rd).noteApplied x 0
      ({ s with poison := dedup ((List.range n).map (x.addr.plus ·) ++ s.poison) }, { to_ := x.back, value := 0, line := [], fatal := false })
    else ((s.noteHome x.addr n x.rd).noteApplied x 0, { to_ := x.back, value := 0, line := [], fatal := true })
  else
  let at_ : PAddr := { x.addr with addr := x.addr.addr / 256 * 256 }
  let line := if x.op.isLoad then s.bytesAt at_ 256 else []
  if !x.op.isStore && s.poisoned x.addr n then (s.noteHome x.addr n x.rd, { to_ := x.back, value := 0, line := [], fatal := true })
  else
    let old : DWord := BitVec.ofNat 64 (s.natAt x.addr n)
    let s := if x.op.isLoad then s else s.homeWriteNat x.ctx x.addr n (x.op.apply old x.opnd).toNat
    let (m, s) := s.fresh
    (((s.noteHome x.addr n x.rd).noteApplied x m),
     { to_ := x.back, value := old, line, spoilt := if x.op.isLoad then s.spoiltIn at_ else [], fatal := false, moment := m })

/-- The request that a slice applies next: the first that waits there on no pseudo-channel, and whose home's earlier requests
have all been applied at the slice that handed the home over (R35, R60). -/
def State.nextAtHome (s : State) (slice : Nat) : List (Nat × Req) → List (Nat × Req) → Option (Nat × Req)
  | _, [] => none
  | seen, h :: rest =>
    if h.1 == slice && !s.channelWait h.2.addr &&
        !(seen.any fun y => y.1 != h.1 && homeSlice y.2.addr == homeSlice h.2.addr) then some h
    else s.nextAtHome slice (seen ++ [h]) rest

def execHomeApply (slice : Nat) (s : State) : Host.Outcome State Fault Refusal :=
  match s.nextAtHome slice [] s.fabric.homes with
  | some (_, x) =>
      let fab : Fabric := { s.fabric with homes := s.fabric.homes.filter fun h => h.2.back != x.back }
      let r := State.applyReq { s with fabric := fab } x
      let fab : Fabric := { r.1.fabric with replies := r.1.fabric.replies ++ [r.2] }
      .next (State.purge { r.1 with fabric := fab })
  | none => .next s

/-! ## Replies (R58, R63, R70) -/

/-- A reply that reaches the stage of a merge is split, and the entry is free. -/
def execReplySplit (st : StageId) (entry : Nat) (s : State) : Host.Outcome State Fault Refusal :=
  match s.fabric.replies.find? (fun r => r.to_ == .entry entry), s.fabric.sumps.find? (fun e => e.id == entry && e.stage == st) with
  | some r, some e =>
    let vs := shares e.op r.value (e.parts.map (·.2.1))
    let out := (e.parts.zip vs).map fun p =>
      let share : Reply := { to_ := p.1.1, value := p.2, line := r.line, spoilt := r.spoilt, fatal := r.fatal || e.bad, moment := r.moment }
      share
    let fab : Fabric :=
      { s.fabric with sumps := s.fabric.sumps.filter (fun p => p.id != entry)
                      replies := (s.fabric.replies.filter fun q => q.to_ != .entry entry) ++ out }
    .next (State.purge { s with fabric := fab })
  | _, _ => .next s

/-- The poison of a line's copy: of the bytes at some offsets of it, and of no others (R32). -/
def State.markLine (s : State) (p : PAddr) (os : List Nat) : State :=
  let s := s.lift p 256
  if os.isEmpty then s else { s with poison := os.map (p.plus ·) ++ s.poison }

/-- A line is inserted in a core's L1, with the poison of its copy. DESIGN CHOICE (log entry 11). -/
def State.fillL1 (s : State) (core line rd moment : Nat) (bs : List Byte) (bad : List Nat) : State :=
  let c := s.core core
  let l1 := c.l1.filter fun x => x.line != line
  let l1 := if Config.l1Lines ≤ l1.length then evictLine (·.rrv) (fun l : L1Line => { l with rrv := l.rrv + 1 }) 5 l1 else l1
  ((s.setCore core { c with l1 := { line, bytes := bs, rrv := rd, moment } :: l1 }).markLine ⟨.l1 core, line⟩ bad).liftL1 core

/-- The line that a load brings: as its home held it when it performed the load, or as a later act of the core has found it, under
the core's stores since; with the offsets of its poisoned bytes, and its moment. -/
def Pending.brings (p : Pending) (r : Reply) : List Byte × List Nat × Nat :=
  let at_ := p.at_.addr / 256 * 256
  let base := p.newer.getD (r.line, r.spoilt)
  (overLine at_ base.1 p.bytes, notOver at_ base.2 p.bytes, if p.newer.isSome then p.moment else r.moment)

/-- The line that a package-local load's reply brings takes its place in L1; a copy that stands there is replaced only by a later
one, and earlier ones of the core that are still on their way bring no older line, so that no read goes back (R177, R234). -/
def State.allocate (s : State) (p : Pending) (r : Reply) : State :=
  let at_ := p.at_.addr / 256 * 256
  if p.at_.space = .pkg ∧ p.op.isLoad = true ∧ p.const = false then
    let b := p.brings r
    let renew (q : Pending) : Pending :=
      if q.applied && q.op.isLoad && q.sameLine p && decide (q.moment < b.2.2) then
        { q with moment := b.2.2, bytes := [], newer := some (b.1, b.2.1) } else q
    let s : State := { s with fabric := { s.fabric with pending := s.fabric.pending.map renew } }
    match (s.core p.core).l1.find? fun l => l.line == at_ with
    | some l =>
      if l.moment < b.2.2 then
        let c := s.core p.core
        let new : L1Line := { l with bytes := b.1, moment := b.2.2 }
        (s.setCore p.core { c with l1 := c.l1.map fun x => if x.line == at_ then new else x }).markLine ⟨.l1 p.core, at_⟩ b.2.1
      else s
    | none => match p.alloc with
      | some rd => s.fillL1 p.core at_ rd b.2.2 b.1 b.2.1
      | none => s
  else s

/-- The line of an `ldc` is in the instruction cache from then on (R372). -/
def State.noteConst (s : State) (p : Pending) (r : Reply) : State :=
  if p.const then
    let c := s.core p.core
    let at_ : PAddr := { p.at_ with addr := p.at_.addr / 256 * 256 }
    (s.setCore p.core { c with consts := (at_, r.moment, r.line) :: c.consts.filter fun x => x.1 != at_ }).markLine
      (icachePlace p.core at_) r.spoilt
  else s

/-- A pending request leaves the list. -/
def State.dropPending (s : State) (id : Nat) : State :=
  { s with fabric := { s.fabric with pending := s.fabric.pending.filter fun p => p.id != id } }

/-- A request ends without a value: of a thread's the fault is deferred, and its flag is clear (R270); of another member's the reply
says so, in a flit. -/
def State.deferFault (s : State) (p : Pending) (cls : Cls) : State :=
  match p.owner with
  | .thread u =>
    let s := s.dropPending p.id
    let s := s.onThread u fun t => { t.dropFlag p.flag with holds := if p.acquire then t.holds - 1 else t.holds }
    let d : Deferred := { uid := u, cls, va := p.va, pc := p.pc, seq := p.seq, flag := p.flag }
    { s with fabric := if p.done then s.fabric else { s.fabric with deferred := s.fabric.deferred ++ [d] } }
  | .remote pkg => (s.dropPending p.id).sendFlit pkg
  | .shaft _ | .pref => s.dropPending p.id

/-- What waited for requests that are now over goes on; threads that only waited to exit take the stop of all their faults at once
(R274). -/
def State.settleReplies (s : State) : State := s.settleFences.settleRecords.settleExits

/-- A reply reaches its thread: the register, the L1 and the flag (R63, R371, R389); the line of a `pref` reaches L1 (R372). DESIGN CHOICE (log entry 10). -/
def State.deliver (s : State) (p : Pending) (r : Reply) : State :=
  match p.owner with
  | .thread u =>
    let s := s.dropPending p.id
    let s := if p.empties then s.emptyL1 p.core else s
    let s := (s.allocate p r).noteConst p r
    let write (t : Thread) : Thread := match p.dreg with
      | some d => if p.done then t else t.dst p.ty (BitVec.ofNat 9 d) (tyWrite p.ty false (tyVal p.ty r.value))
      | none => t
    let lifted : State := match p.dreg, s.thread? u with
      | some d, some t => s.liftRegs [(d, tyRegs p.ty, 1)] [t]
      | _, _ => s
    let s := lifted.onThread u fun t =>
      if p.acquire then ((write t).dropFlag p.flag).proceed s.nextId else (write t).dropFlag p.flag
    s.settleReplies
  | .remote pkg => (s.dropPending p.id).sendFlit pkg
  | .pref => (s.dropPending p.id).allocate p r
  | .shaft _ => s.dropPending p.id

/-- A reply is not delivered by this step: the shaft die takes its own (R471), and one for another member waits while its port is
under test or its replay buffer is full (R34, R67). -/
def State.replyWaits (s : State) (p : Pending) : Bool :=
  match p.owner with
  | .thread _ | .pref => false
  | .shaft _ => true
  | .remote pkg => !s.portOpen pkg

def execReplyDelivery (req : Nat) (s : State) : Host.Outcome State Fault Refusal :=
  match s.fabric.replies.find? (fun r => r.to_ == .owner req), s.fabric.pending.find? (fun p => p.id == req) with
  | some r, some p =>
    if s.replyWaits p then .next s
    else
      let fab : Fabric := { s.fabric with replies := s.fabric.replies.filter fun q => q.to_ != .owner req }
      let s : State := { s with fabric := fab }
      .next (if r.fatal then (s.deferFault p .eccFatal).settleReplies else s.deliver p r)
  | _, _ => .next s

/-! ## Timeouts (R69) -/

/-- The outermost part that carries a part. -/
def Fabric.rootOf (f : Fabric) : Nat → Back → Back
  | 0, b => b
  | n + 1, b => match f.sumps.find? fun e => e.parts.any fun p => p.1 == b with
    | some e => f.rootOf n (.entry e.id)
    | none => b

/-- Every entry under a part. -/
def Fabric.entriesOf (f : Fabric) : Nat → Back → List Nat
  | _, .owner _ => []
  | 0, .entry _ => []
  | n + 1, .entry e => e :: match f.sumps.find? fun p => p.id == e with
    | some p => p.parts.flatMap fun x => f.entriesOf n x.1
    | none => []

/-- A request of a core, whose time SHF_TIMEOUT limits: of the others, the shaft die's have no timeout (R471), and another member's is
its own. -/
def Owner.timed : Owner → Bool
  | .thread _ | .pref => true
  | .shaft _ | .remote _ => false

/-- A core's request has had no reply within its time. -/
def State.overdue (s : State) (p : Pending) : Bool := p.owner.timed && (match p.deadline with | some d => decide (d ≤ s.time) | none => false)

/-- An outermost sump entry that carries requests of other members only, and whose reply has not come within the timeout: its stage
frees it, and the members time out themselves (R69). DEDUCED (log entry 84). -/
def State.stale (s : State) (e : Sump) : Bool :=
  decide (e.since + s.fabricTimeoutUnits ≤ s.time) && !(s.fabric.sumps.any fun x => x.parts.any fun p => p.1 == .entry e.id) &&
    (s.fabric.ownersOf s.fabric.depth (.entry e.id)).all fun i => s.fabric.pending.all fun p =>
      p.id != i || (match p.owner with | .remote _ => true | _ => false)

/-- What a stale entry carried is given up: the entries under it are free, and its late reply will find nothing. -/
def State.freeStale (s : State) (e : Sump) : State :=
  let f := s.fabric
  let gone := f.entriesOf f.depth (.entry e.id)
  let own := f.ownersOf f.depth (.entry e.id)
  State.purge { s with fabric := { f with sumps := f.sumps.filter (fun x => !gone.contains x.id)
                                          pending := f.pending.filter fun p => !own.contains p.id } }

/-- The first request of a core whose time has run out takes FABRIC_TIMEOUT, with every part of the request that carries it. A request
of the shaft die that was merged with it (R471) goes on waiting, though the entry its reply was to pass is free: the spec says neither
that it is sent again nor that its reply finds it. DESIGN CHOICE (log entry 85). -/
def execFabricTimeout (s : State) : Host.Outcome State Fault Refusal :=
  match s.fabric.pending.find? s.overdue with
  | none => .next (match s.fabric.sumps.find? s.stale with
    | some e => s.freeStale e
    | none => s)
  | some p =>
    let n := s.fabric.depth
    let root := s.fabric.rootOf n (.owner p.id)
    let own := s.fabric.ownersOf n root
    let gone := s.fabric.entriesOf n root
    let fab : Fabric := { s.fabric with sumps := s.fabric.sumps.filter fun e => !gone.contains e.id }
    let s : State := { s with fabric := fab }
    let hit := s.fabric.pending.filter fun q => own.contains q.id && q.owner.timed
    let s := s.setReg (shf 0x28) (min (s.reg (shf 0x28) + hit.length) (2 ^ 32 - 1))
    .next (hit.foldl (fun s q => s.deferFault q .fabricTimeout) s).settleReplies.purge

/-! ## A request enters the fabric -/

/-- A thread's request: it takes a number, holds its flag, and waits at the collar of its core (R45, R276). -/
structure Ask where
  thread : Thread
  va : DWord
  at_ : PAddr
  op : ReqOp
  opnd : DWord
  dreg : Option Nat
  ty : Ty
  alloc : Option Nat
  acquire : Bool
  empties : Bool
  rd : Nat
  const : Bool := false

def State.ask (s : State) (g : Group) (flag : Option Nat) (a : Ask) : State :=
  let id := s.nextId
  let t := a.thread
  let bytes := bytesOfNat a.opnd.toNat a.op.size
  let p : Pending :=
    { id, owner := .thread t.uid, core := g.core, slot := t.slot, dreg := a.dreg, ty := a.ty, flag, pc := g.pc,
      seq := t.cmdseq, va := a.va, at_ := a.at_, op := a.op, bytes := if a.op.isStore then [(a.at_, bytes)] else [], deadline := none,
      alloc := a.alloc, acquire := a.acquire, empties := a.empties, done := false, const := a.const }
  let x : Req := { ctx := g.ctx, addr := a.at_, op := a.op, opnd := a.opnd, rank := t.slot, port := t.slot,
                   back := .owner id, threads := [t.uid], ready := 0, plain := a.const, rd := a.rd, turn := s.free }
  let fab : Fabric := { s.fabric with pending := s.fabric.pending ++ [p]
                                      arrivals := s.fabric.arrivals ++ [(.collar g.core, x)] }
  let s : State := { s with nextId := id + 1, fabric := fab }
  s.onThread t.uid fun t => { t.count.holdFlag flag with accessed := id, holds := if a.acquire then t.holds + 1 else t.holds }

/-- A request for a whole line that no thread waits for: it is to bring the line to its home slice and, with an insertion value, to the
core's L1 (R372). It takes the path of R45 like any other, and the reply that reaches the core is the last of it. -/
def State.askLine (s : State) (core ctx slot uid : Nat) (line : PAddr) (rd : Nat) (alloc : Option Nat) : State :=
  let id := s.nextId
  let p : Pending :=
    { id, owner := .pref, core, slot, dreg := none, ty := .w64, flag := none, pc := 0, seq := 0, va := 0, at_ := line, op := .load 256,
      bytes := [], deadline := none, alloc, acquire := false, empties := false, done := false }
  let x : Req := { ctx, addr := line, op := .load 256, opnd := 0, rank := slot, port := slot, back := .owner id, threads := [uid],
                   ready := 0, rd, turn := s.free }
  { s with nextId := id + 1, fabric := { s.fabric with pending := s.fabric.pending ++ [p], arrivals := s.fabric.arrivals ++ [(.collar core, x)] } }

end Sys2Proof.Machine
end

