-- ==== Sys2Proof/Machine/Lode.lean ====
section
/-! DEFINITION. Lode regions and their walkers (R216 to R227, R467, R472), and major 0x39 with `lode.grow` and `lode.trim`
of 0x3A (R435, R436, R438). -/

namespace Sys2Proof.Machine

/-! ## Regions (R216, R217) -/

/-- A valid region descriptor. -/
structure Region where
  at_ : Nat                  -- its package address
  vbase : Nat
  ety : Nat
  rank : Nat
  cap : Nat
  nsub : Nat
  ext : List Nat
  heads : Nat
  pool : Nat
  poolmax : Nat
  deriving DecidableEq, Repr

def Region.es (r : Region) : Nat := if r.ety = 1 then 2 else 4
/-- N: the elements of the region. -/
def Region.n (r : Region) : Nat := r.ext.foldl (· * ·) 1
/-- S: the indices of a subtree (R218). -/
def Region.sub (r : Region) : Nat := (r.n + r.nsub - 1) / r.nsub

/-- The fields of a descriptor and whether they keep to R216. -/
def regionAt (s : State) (pa : Nat) : Option Region :=
  let f (o n : Nat) := s.natAt ⟨.pkg, pa + o⟩ n
  let w := f 8 4
  let exts := (List.range 4).map fun k => f (0x10 + 4 * k) 4
  let r : Region := { at_ := pa, vbase := f 0 8, ety := bits w 29 28, rank := bits w 25 24 + 1, cap := bits w 19 16,
                      nsub := bits w 5 0 + 1, ext := exts, heads := f 0x20 8, pool := f 0x28 8, poolmax := f 0x30 4 }
  if r.vbase % 65536 = 0 ∧ bits w 31 30 = 0 ∧ bits w 27 26 = 0 ∧ bits w 23 20 = 0 ∧ bits w 15 6 = 0 ∧ 4 ≤ r.cap ∧
      f 0xC 4 = 0 ∧ (exts.zipIdx.all fun e => decide (1 ≤ e.1) && decide (e.1 ≤ 2 ^ 24) && (e.1 == 1 || decide (e.2 < r.rank))) ∧
      r.heads % 256 = 0 ∧ r.pool % 256 = 0 ∧ f 0x34 204 = 0 ∧ r.vbase + r.n * r.es ≤ 2 ^ 52
  then some r else none

/-- A region descriptor as an access reads it: poison is never a value (R32), and a bad descriptor is SEAM_BAD_TABLE (R216). -/
def regionRead (s : State) (pa : Nat) : Except Cls Region :=
  if s.poisoned ⟨.pkg, pa⟩ 256 then .error .eccFatal
  else match regionAt s pa with
    | none => .error .seamBadTable
    | some r => .ok r

/-- The coordinates of a linear index, and the key that they form (R217). -/
def Region.coords (r : Region) (lin : Nat) : List Nat :=
  let e (k : Nat) := r.ext.getD k 1
  [lin % e 0, lin / e 0 % e 1, lin / (e 0 * e 1) % e 2, lin / (e 0 * e 1 * e 2)]

def keyOfCoords (xs : List Nat) : Nat :=
  xs.getD 3 0 * 2 ^ 72 + xs.getD 2 0 * 2 ^ 48 + xs.getD 1 0 * 2 ^ 24 + xs.getD 0 0

def Region.key (r : Region) (lin : Nat) : Nat := keyOfCoords (r.coords lin)

/-- The linear index of coordinates. -/
def Region.linOf (r : Region) (xs : List Nat) : Nat :=
  let e (k : Nat) := r.ext.getD k 1
  xs.getD 0 0 + e 0 * (xs.getD 1 0 + e 1 * (xs.getD 2 0 + e 2 * xs.getD 3 0))

def coordsOfKey (k : Nat) : List Nat := (List.range 4).map fun i => bits k (24 * i + 23) (24 * i)

/-- The value that reads as absent: +0 or −0 of a float, 0 of an integer (R220). -/
def Region.isZero (r : Region) (v : Nat) : Bool :=
  match r.ety with
  | 0 => v % 2 ^ 31 == 0
  | 1 => v % 2 ^ 15 == 0
  | _ => v == 0

/-- An address of a region, or the fault of naming one (R420): a CLASS 2 page, a valid descriptor, the range. -/
def regionOf (s : State) (ctx : Nat) (va : DWord) (need : Need) : Except Cls (Nat × Region) :=
  if va.toNat % 4 ≠ 0 then .error .misalign
  else match translate s ctx va need with
    | .error e => .error e
    | .ok x =>
      if x.cls ≠ 2 then .error .stateIllegal
      else match regionRead s x.at_.addr with
        | .error e => .error e
        | .ok r => if va.toNat < r.vbase ∨ r.vbase + r.n * r.es ≤ va.toNat then .error .pagePerm else .ok (x.at_.addr, r)

/-- The regions that some operation under way is on. -/
def State.regionsInUse (s : State) (ctx : Nat) : List Nat :=
  dedup (((s.lodes.filter fun q => q.ctx == ctx).map (·.region)) ++ s.cores.flatMap fun e => e.2.copyq.filterMap fun c =>
    match c.op with
    | .lode va .. => if c.ctx = ctx then (regionOf s ctx va .load).toOption.map (·.1) else none
    | _ => none)

/-- A thread's store to a head, a node or the pool header of a region in use leaves that region's tree unspecified (R227).
DESIGN CHOICE (log entry 74). -/
def State.noteStray (s : State) (ctx : Nat) (va : DWord) : State :=
  let a := va.toNat
  let hit (d : Nat) : Bool := match regionAt s d with
    | some r => decide (r.heads ≤ a ∧ a < r.heads + 256 * r.nsub) || decide (r.pool ≤ a ∧ a < r.pool + 256 * (r.poolmax + 1))
    | none => false
  { s with strays := dedup ((s.regionsInUse ctx).filter hit ++ s.strays) }

/-! ## Nodes, heads and the pool (R218, R219) -/

def lodeNone : Nat := 0xFFFFFFFF

/-- A node: entries are keys with values, as many as CNT says. -/
structure LNode where
  leaf : Bool
  next : Nat
  ents : List (Nat × Nat)
  deriving DecidableEq, Repr

/-- What stops a walker: a class and an address. -/
abbrev Bad := Cls × DWord

/-- A page that an operation reads or writes: R and W, and CLASS 0 or 1 (R472). -/
def walkAt (s : State) (ctx va : Nat) : Except Bad PAddr :=
  let a : DWord := BitVec.ofNat 64 va
  match translate s ctx a .atomic with
  | .error e => .error (e, a)
  | .ok x =>
    if x.cls = 2 then .error (.pagePerm, a)
    else if s.poisoned x.at_ 256 then .error (.eccFatal, a)
    else .ok x.at_

def nodeAt (s : State) (p : PAddr) : LNode :=
  let w := s.natAt p 4
  { leaf := bitAt w 31, next := s.natAt (p.plus 4) 4,
    ents := (List.range (bits w 3 0)).map fun e => (s.natAt (p.plus (0x10 + 16 * e)) 12, s.natAt (p.plus (0x1C + 16 * e)) 4) }

/-- The bytes of a node (R219): the entry slots from CNT upwards hold zero (R467), and of a node on the free list every field but NEXT
does (R222). -/
def LNode.bytes (n : LNode) : List Byte :=
  let body := bytesOfNat (n.ents.length + (if n.leaf then 2 ^ 31 else 0)) 4 ++ bytesOfNat n.next 4 ++ bytesOfNat 0 8 ++
    n.ents.flatMap fun e => bytesOfNat e.1 12 ++ bytesOfNat e.2 4
  body ++ List.replicate (256 - body.length) 0

/-- The nodes that an operation has read or is to write, by number, over the state it began in. -/
structure Tree where
  s : State
  ctx : Nat
  r : Region
  dirty : List (Nat × PAddr × LNode) := []
  writes : List (PAddr × List Byte) := []

/-- The address of a node: a number beyond the pool, which only a stray store can leave, stays in the pool (R227).
DESIGN CHOICE (log entry 74). -/
def Region.nodeVa (r : Region) (i : Nat) : Nat := r.pool + 256 * ((if r.poolmax = 0 then 0 else i % r.poolmax) + 1)

def Tree.at_ (t : Tree) (i : Nat) : Except Bad (PAddr × LNode) :=
  match t.dirty.find? fun d => d.1 == i with
  | some d => .ok d.2
  | none => match walkAt t.s t.ctx (t.r.nodeVa i) with
    | .error e => .error e
    | .ok p => .ok (p, nodeAt t.s p)

/-- A free number below a limit, for contents that are unspecified (R227). -/
def State.freeBelow (s : State) (tag limit : Nat) : Nat :=
  natOfBytes ((List.range 8).map fun i => Config.freeByte ((s.free * 2 ^ 64 + tag) * 8 + i)) % (max limit 1)

/-- The region's tree is unspecified. -/
def Tree.stray (t : Tree) : Bool := t.s.strays.contains t.r.at_

/-- A node to be written. -/
def Tree.put (t : Tree) (i : Nat) (p : PAddr) (n : LNode) : Tree :=
  { t with dirty := (i, p, n) :: t.dirty.filter fun d => d.1 != i }

def Tree.raw (t : Tree) (p : PAddr) (bs : List Byte) : Tree := { t with writes := t.writes ++ [(p, bs)] }

/-- The operation's writes take place, in one act, at their home slices, which hold the lines (R178). -/
def Tree.commit (t : Tree) : State :=
  let s := t.dirty.foldl (fun (s : State) d => (s.homeWrite t.ctx d.2.1 d.2.2.bytes).noteHome d.2.1 256 1) t.s
  t.writes.foldl (fun (s : State) w => (s.homeWrite t.ctx w.1 w.2).noteHome w.1 w.2.length 1) s

/-- A head: its place, ROOT, DEPTH and KEYS. -/
def Tree.head (t : Tree) (k : Nat) : Except Bad (PAddr × Nat × Nat × Nat) :=
  match walkAt t.s t.ctx (t.r.heads + 256 * k) with
  | .error e => .error e
  | .ok p => .ok (p, t.s.natAt p 4, t.s.natAt (p.plus 4) 4, t.s.natAt (p.plus 8) 4)

def headBytes (root depth keys : Nat) : List Byte := bytesOfNat root 4 ++ bytesOfNat depth 4 ++ bytesOfNat keys 4

/-- The pool header: its place, NODES, FREE and FREEHEAD. -/
def Tree.pool (t : Tree) : Except Bad (PAddr × Nat × Nat × Nat) :=
  match walkAt t.s t.ctx t.r.pool with
  | .error e => .error e
  | .ok p => .ok (p, t.s.natAt p 4, t.s.natAt (p.plus 4) 4, t.s.natAt (p.plus 8) 4)

/-- A node on the way from the root to a leaf, with the entry that a search takes. -/
structure Step where
  i : Nat
  p : PAddr
  node : LNode
  pos : Nat

/-- The last entry whose KEY is at most the target, or entry 0. -/
def searchPos (ents : List (Nat × Nat)) (k : Nat) : Nat := (ents.filter fun e => decide (e.1 ≤ k)).length - 1

/-- The path to the leaf of a key, leaf first. -/
def Tree.path (t : Tree) (k : Nat) : Nat → Nat → List Step → Except Bad (List Step)
  | 0, _, acc => .ok acc
  | fuel + 1, i, acc =>
    match t.at_ i with
    | .error e => .error e
    | .ok (p, n) =>
      let pos := searchPos n.ents k
      let acc := { i, p, node := n, pos } :: acc
      if n.leaf then .ok acc else t.path k fuel (n.ents.getD pos (0, lodeNone)).2 acc

/-- A path has at most DEPTH nodes; no tree of 2^32 nodes is deeper than 64. -/
def pathFuel (depth : Nat) : Nat := min depth 64

/-! ## Search (R220, R225) -/

/-- The value of a key, if it is present. -/
def Tree.find (t : Tree) (sub k : Nat) : Except Bad (Option Nat) :=
  match t.head sub with
  | .error e => .error e
  | .ok (_, root, depth, _) =>
    match t.path k (pathFuel depth) root [] with
    | .error e => .error e
    | .ok [] => if t.stray then .ok (some (t.s.freeBelow k (2 ^ (8 * t.r.es)))) else .ok none
    | .ok (leaf :: _) =>
      if t.stray then .ok (some (t.s.freeBelow k (2 ^ (8 * t.r.es))))
      else .ok ((leaf.node.ents.find? fun e => e.1 == k).map (·.2))

/-- A key that a search of an unspecified tree may find: of the subtree, and not below the one sought. -/
def Tree.strayEntry (t : Tree) (sub k : Nat) : List (Nat × Nat) :=
  let first := t.r.linOf (coordsOfKey k)
  let n := min (t.r.sub * (sub + 1)) t.r.n - first
  if n = 0 ∨ Config.freeBit (t.s.free * 2 ^ 64 + 2 ^ 63) = true then []
  else [(t.r.key (first + t.s.freeBelow k n), t.s.freeBelow (k + 1) (2 ^ (8 * t.r.es)))]

/-- The entries at or above a key of the first leaf of a subtree that has one. -/
def Tree.seek (t : Tree) (sub k : Nat) : Except Bad (List (Nat × Nat)) :=
  match t.head sub with
  | .error e => .error e
  | .ok (_, root, depth, _) =>
    if t.stray then .ok (t.strayEntry sub k)
    else match t.path k (pathFuel depth) root [] with
    | .error e => .error e
    | .ok [] => .ok []
    | .ok (leaf :: _) =>
      match leaf.node.ents.filter fun e => decide (k ≤ e.1) with
      | x :: xs => .ok (x :: xs)
      | [] =>
        if leaf.node.next = lodeNone then .ok []
        else match t.at_ leaf.node.next with
          | .error e => .error e
          | .ok (_, n) => .ok (n.ents.filter fun e => decide (k ≤ e.1))

/-- The first key that a path's leaf cannot hold: that of the next entry on the way to it. -/
def pathEnd : List Step → Option Nat
  | [] => none
  | x :: up => match x.node.ents[x.pos + 1]? with
    | some e => some e.1
    | none => pathEnd up

/-- The leaf of a key: its entries, and the first key that it cannot hold, if the subtree has more (R226). -/
def Tree.leafAt (t : Tree) (sub k : Nat) : Except Bad (List (Nat × Nat) × Option Nat) :=
  match t.head sub with
  | .error e => .error e
  | .ok (_, root, depth, _) =>
    if t.stray then .ok (t.strayEntry sub k, none)
    else match t.path k (if root = lodeNone then 0 else pathFuel depth) root [] with
      | .error e => .error e
      | .ok [] => .ok ([], none)
      | .ok (leaf :: up) => .ok (leaf.node.ents, pathEnd up)

/-- The number of the leaf that a search for a linear index ends at, with its subtree; none where it ends at no leaf. -/
def leafOf (s : State) (ctx : Nat) (r : Region) (lin : Nat) : Option (Nat × Nat) :=
  let t : Tree := { s, ctx, r }
  match t.head (lin / r.sub) with
  | .error _ => none
  | .ok (_, root, depth, _) =>
    match t.path (r.key lin) (if root = lodeNone then 0 else pathFuel depth) root [] with
    | .ok (leaf :: _) => some (lin / r.sub, leaf.i)
    | _ => none

/-! ## Insertion (R221, R467) -/

/-- Takes nodes from the free list: each with its place, and the free list's new head. -/
def Tree.take (t : Tree) : Nat → Nat → Except Bad (List (Nat × PAddr) × Nat)
  | 0, h => .ok ([], h)
  | k + 1, h =>
    match t.at_ h with
    | .error e => .error e
    | .ok (p, n) => match t.take k n.next with
      | .error e => .error e
      | .ok (l, h') => .ok ((h, p) :: l, h')

/-- Nodes that an insertion needs: the full nodes from the leaf upwards, and a new root where all are full. -/
def nodesNeeded (cap : Nat) (steps : List Step) : Nat :=
  let full := (steps.takeWhile fun x => decide (cap ≤ x.node.ents.length)).length
  if full = steps.length then full + 1 else full

/-- An entry in key order. -/
def insertKey (e : Nat × Nat) (l : List (Nat × Nat)) : List (Nat × Nat) := insertBy (fun a b => decide (a.1 ≤ b.1)) e l

/-- An interior node's entry 0 takes the new key where that is lower. -/
def lowerFirst (k : Nat) : List (Nat × Nat) → List (Nat × Nat)
  | [] => []
  | e :: es => (min k e.1, e.2) :: es

/-- The entries of a node on the path once an entry has been put into it. -/
def Step.with_ (x : Step) (k : Nat) (e : Nat × Nat) : List (Nat × Nat) :=
  if x.node.leaf then insertKey e x.node.ents
  else let l := lowerFirst k x.node.ents; l.take (x.pos + 1) ++ e :: l.drop (x.pos + 1)

/-- Puts entries into the nodes of a path, leaf first, splitting full ones. Answers the tree, the nodes not used, and, if
the topmost node has split, its first key and the entry of the node split off. -/
def Tree.insUp (cap k : Nat) : List Step → Option (Nat × Nat) → List (Nat × PAddr) → Nat → Tree →
    Tree × List (Nat × PAddr) × Option (Nat × Nat × Nat)
  | [], carry, free, first, t => (t, free, carry.map fun c => (first, c))
  | x :: up, none, free, first, t =>
    let l := lowerFirst k x.node.ents
    Tree.insUp cap k up none free first (if l = x.node.ents then t else t.put x.i x.p { x.node with ents := l })
  | x :: up, some e, free, _, t =>
    let l := x.with_ k e
    if l.length ≤ cap then Tree.insUp cap k up none free 0 (t.put x.i x.p { x.node with ents := l })
    else match free with
      | [] => (t, [], none)
      | (f, fp) :: rest =>
        let left := l.take ((cap + 2) / 2)
        let right := l.drop ((cap + 2) / 2)
        let old : LNode := { x.node with ents := left, next := if x.node.leaf then f else x.node.next }
        let new : LNode := { leaf := x.node.leaf, next := if x.node.leaf then x.node.next else lodeNone, ents := right }
        Tree.insUp cap k up (some ((right.headD (0, 0)).1, f)) rest (left.headD (0, 0)).1 ((t.put x.i x.p old).put f fp new)

/-- An insertion of an absent key: the new tree, or what refuses it. -/
def Tree.insert (t : Tree) (hp : PAddr) (root depth keys : Nat) (steps : List Step) (k v : Nat) (elem : DWord) :
    Except Bad Tree :=
  let need := nodesNeeded t.r.cap steps
  if !steps.isEmpty && need == 0 then
    let r := Tree.insUp t.r.cap k steps (some (k, v)) [] 0 t
    .ok (r.1.raw hp (headBytes root depth (keys + 1)))
  else match t.pool with
    | .error e => .error e
    | .ok (pp, nodes, free, fh) =>
      if free < need then .error (.lodeExhausted, elem)
      else match t.take need fh with
        | .error e => .error e
        | .ok (l, fh') =>
          let t := t.raw pp (headBytes nodes (free - need) fh')
          match steps, l with
          | [], (f, fp) :: _ =>
            .ok ((t.put f fp { leaf := true, next := lodeNone, ents := [(k, v)] }).raw hp (headBytes f 1 (keys + 1)))
          | _, _ =>
            let r := Tree.insUp t.r.cap k steps (some (k, v)) l 0 t
            match r.2.2, r.2.1 with
            | some (first, e), (g, gp) :: _ =>
              .ok ((r.1.put g gp { leaf := false, next := lodeNone, ents := [(first, root), e] }).raw hp
                (headBytes g (depth + 1) (keys + 1)))
            | _, _ => .ok (r.1.raw hp (headBytes root depth (keys + 1)))
/-! ## Deletion (R222) -/

/-- Of two failures, the one at the lower address. -/
def lower (a b : Bad) : Bad := if a.2.toNat ≤ b.2.toNat then a else b

/-- The last leaf under a node. -/
def Tree.rightmost (t : Tree) : Nat → Nat → Except Bad Nat
  | 0, i => .ok i
  | fuel + 1, i => match t.at_ i with
    | .error e => .error e
    | .ok (_, n) => if n.leaf then .ok i else t.rightmost fuel ((n.ents.getLast?.getD (0, lodeNone)).2)

/-- The nodes that the search for the last leaf under a node reads. -/
def Tree.lastWay (t : Tree) : Nat → Nat → List Nat
  | 0, i => [i]
  | fuel + 1, i => i :: match t.at_ i with
    | .error _ => []
    | .ok (_, n) => if n.leaf then [] else t.lastWay fuel (n.ents.getLast?.getD (0, lodeNone)).2

/-- The leaf before the leaf of a path, which is given without its leaf. -/
def Tree.prevLeaf (t : Tree) (fuel : Nat) : List Step → Except Bad (Option Nat)
  | [] => .ok none
  | x :: up =>
    if 0 < x.pos then (t.rightmost fuel (x.node.ents.getD (x.pos - 1) (0, lodeNone)).2).map some
    else t.prevLeaf fuel up

/-- The nodes that the search for the leaf before reads. -/
def Tree.prevWay (t : Tree) (fuel : Nat) : List Step → List Nat
  | [] => []
  | x :: up => if 0 < x.pos then t.lastWay fuel (x.node.ents.getD (x.pos - 1) (0, lodeNone)).2 else t.prevWay fuel up

/-- Takes an entry out of a path, leaf first: nodes left empty go too. Answers the tree, the nodes to return, and whether
the root is among them. -/
def Tree.delUp : List Step → Tree → List (Nat × PAddr) → Tree × List (Nat × PAddr) × Bool
  | [], t, gone => (t, gone, true)
  | x :: up, t, gone =>
    match x.node.ents.eraseIdx x.pos with
    | [] => Tree.delUp up t (gone ++ [(x.i, x.p)])
    | e :: es => (t.put x.i x.p { x.node with ents := e :: es }, gone, false)

/-- While the root is an interior node with one entry, its child becomes the root. Answers the root, the depth, the nodes to return,
and what stopped it. -/
def Tree.collapse (t : Tree) : Nat → Nat → Nat → List (Nat × PAddr) → Nat × Nat × List (Nat × PAddr) × List Bad
  | 0, root, depth, gone => (root, depth, gone, [])
  | fuel + 1, root, depth, gone =>
    match t.at_ root with
    | .error e => (root, depth, gone, [e])
    | .ok (p, n) =>
      match n.leaf, n.ents with
      | false, [e] => t.collapse fuel e.2 (depth - 1) (gone ++ [(root, p)])
      | _, _ => (root, depth, gone, [])

/-- The nodes that become the root in turn, as far as they are read. -/
def Tree.rootWay (t : Tree) : Nat → Nat → List Nat
  | 0, _ => []
  | fuel + 1, root => root :: match t.at_ root with
    | .error _ => []
    | .ok (_, n) => match n.leaf, n.ents with
      | false, [e] => t.rootWay fuel e.2
      | _, _ => []

/-- The free nodes, as far as they can be read. -/
def Tree.freeWay (t : Tree) : Nat → Nat → List Nat
  | 0, _ => []
  | fuel + 1, h => if h = lodeNone then [] else h :: match t.at_ h with
    | .error _ => []
    | .ok (_, n) => t.freeWay fuel n.next

/-- The addresses of the pool header and of some of the free nodes. -/
def Tree.poolVas (t : Tree) (some_ : List Nat → List Nat) : List Nat :=
  t.r.pool :: match t.pool with
    | .ok (_, _, free, fh) => (some_ (t.freeWay (free + 1) fh)).map t.r.nodeVa
    | .error _ => []

/-- A node goes into the free list after the free node `at_`, in ascending order. -/
def Tree.link (i : Nat) (p : PAddr) : Nat → Nat → Tree → Except Bad Tree
  | 0, _, t => .ok t
  | fuel + 1, cur, t =>
    match t.at_ cur with
    | .error e => .error e
    | .ok (q, n) =>
      if n.next = lodeNone ∨ i < n.next then
        .ok ((t.put cur q { n with next := i }).put i p { leaf := false, next := n.next, ents := [] })
      else Tree.link i p fuel n.next t

/-- Returns nodes to the pool: each is cleared and linked (R222). Answers the free list's head too. -/
def Tree.giveBack : List (Nat × PAddr) → Nat → Nat → Tree → Except Bad (Tree × Nat)
  | [], _, fh, t => .ok (t, fh)
  | (i, p) :: rest, fuel, fh, t =>
    if fh = lodeNone ∨ i < fh then
      Tree.giveBack rest (fuel + 1) i (t.put i p { leaf := false, next := fh, ents := [] })
    else match Tree.link i p fuel fh t with
      | .error e => .error e
      | .ok t => Tree.giveBack rest (fuel + 1) fh t

/-- What failed, of some results. -/
def failed {α : Type} : Except Bad α → List Bad
  | .error b => [b]
  | .ok _ => []

/-- Nodes left empty go back to the pool, if there are any. -/
def Tree.giveAll (t : Tree) (gone : List (Nat × PAddr)) : Except Bad Tree :=
  if gone.isEmpty then .ok t
  else match t.pool with
    | .error e => .error e
    | .ok (pp, nodes, free, fh) => (Tree.giveBack gone (free + 1) fh t).map fun r => r.1.raw pp (headBytes nodes (free + gone.length) r.2)

/-- A deletion of a present key: what refuses it is the lowest of the pages that fail, as far as they can be known (R472). -/
def Tree.delete (t : Tree) (hp : PAddr) (root depth keys : Nat) (steps : List Step) : Except Bad Tree :=
  let d := Tree.delUp steps t []
  let leafGone := match steps with
    | x :: _ => d.2.1.any fun g => g.1 == x.i
    | [] => false
  let relink (i : Nat) : Except Bad Tree := match steps with
    | x :: _ => (d.1.at_ i).map fun n => d.1.put i n.1 { n.2 with next := x.node.next }
    | [] => .ok d.1
  let linked : Except Bad Tree := if leafGone then (t.prevLeaf (pathFuel depth) (steps.drop 1)).bind fun i => match i with
    | some i => relink i
    | none => .ok d.1 else .ok d.1
  let ends := if d.2.2 then (lodeNone, 0, d.2.1, []) else d.1.collapse (pathFuel depth) root depth d.2.1
  match failed linked ++ ends.2.2.2 ++ failed (d.1.giveAll ends.2.2.1) with
  | b :: bs => .error (bs.foldl lower b)
  | [] => linked.bind fun t => (t.raw hp (headBytes ends.1 ends.2.1 (keys - 1))).giveAll ends.2.2.1

/-! ## A tree whose contents are unspecified (R227) -/

/-- The lines beside the path to its leaf that a deletion reads: the leaf before, where the leaf goes, the nodes that may become the
root, and the free nodes up to where the nodes go back (R222). -/
def Tree.deleteVas (t : Tree) (root depth : Nat) (steps : List Step) : List Nat :=
  let d := Tree.delUp steps t []
  let leafGone := (steps.take 1).any fun x => d.2.1.any fun g => g.1 == x.i
  let prev := if leafGone then t.prevWay (pathFuel depth) (steps.drop 1) else []
  let roots := if d.2.2 then [] else d.1.rootWay (pathFuel depth) root
  let ends := if d.2.2 then d.2.1 else (d.1.collapse (pathFuel depth) root depth d.2.1).2.2.1
  let last := (ends.map (·.1)).foldl max 0
  (prev ++ roots).map t.r.nodeVa ++ if ends.isEmpty then [] else t.poolVas fun l => l.filter fun i => decide (i < last)

/-- The lines beside the path to its leaf that a store reads or writes. -/
def Tree.storeVas (t : Tree) (lin v : Nat) : List Nat :=
  match t.head (lin / t.r.sub) with
  | .error _ => []
  | .ok (_, root, depth, _) =>
    match t.path (t.r.key lin) (if root = lodeNone then 0 else pathFuel depth) root [] with
    | .error _ => []
    | .ok steps =>
      let i := match steps with
        | x :: _ => x.node.ents.findIdx? fun e => e.1 == t.r.key lin
        | [] => none
      match i, steps with
      | some i, x :: up => if t.r.isZero v then t.deleteVas root depth ({ x with pos := i } :: up) else []
      | _, _ =>
        if t.r.isZero v then []
        else
          let need := nodesNeeded t.r.cap steps
          if !steps.isEmpty && need == 0 then [] else t.poolVas (·.take need)

/-- The leaf that a search for the next key reads after the leaf of the key. -/
def Tree.nextVas (t : Tree) (lin : Nat) : List Nat :=
  match t.head (lin / t.r.sub) with
  | .error _ => []
  | .ok (_, root, depth, _) =>
    match t.path (t.r.key lin) (if root = lodeNone then 0 else pathFuel depth) root [] with
    | .ok (leaf :: _) =>
      if leaf.node.next = lodeNone ∨ (leaf.node.ents.any fun e => decide (t.r.key lin ≤ e.1)) = true then [] else [t.r.nodeVa leaf.node.next]
    | _ => []

/-- Bytes that nothing fixes. -/
def State.openBytesAt (s : State) (p : PAddr) (n : Nat) : List Byte := (List.range n).map fun i => Config.freeByte (s.free * 2 ^ 64 + p.addr + i)

/-- A change of an unspecified tree: some head, the pool header and some node hold what nothing fixes, and what refuses it is a page
that cannot be reached or, where `may` be, that no node is free. DESIGN CHOICE (log entry 74). -/
def Tree.strayAct (t : Tree) (sub : Nat) (may : Bool) (elem : DWord) : Except Bad State :=
  let node := t.s.freeBelow 2 (max 1 t.r.poolmax)
  match walkAt t.s t.ctx (t.r.heads + 256 * sub), walkAt t.s t.ctx t.r.pool, walkAt t.s t.ctx (t.r.nodeVa node) with
  | .error e, _, _ | _, .error e, _ | _, _, .error e => .error e
  | .ok h, .ok p, .ok n =>
    if may && Config.freeBit (t.s.free * 2 ^ 64 + 2 ^ 61) then .error (.lodeExhausted, elem)
    else .ok (((t.raw h (t.s.openBytesAt h 12)).raw p (t.s.openBytesAt p 12)).raw n (t.s.openBytesAt n 256)).commit

/-! ## One access (R220) -/

/-- A store of element bits at a linear index: the state after it, or what refuses it. -/
def lodeStore (s : State) (ctx : Nat) (r : Region) (lin v : Nat) (elem : DWord) : Except Bad State :=
  let t : Tree := { s, ctx, r }
  let k := r.key lin
  if t.stray then t.strayAct (lin / r.sub) (!r.isZero v) elem
  else match t.head (lin / r.sub) with
  | .error e => .error e
  | .ok (hp, root, depth, keys) =>
    match t.path k (if root = lodeNone then 0 else pathFuel depth) root [] with
    | .error e => .error e
    | .ok steps =>
      let i := match steps with
        | x :: _ => x.node.ents.findIdx? fun e => e.1 == k
        | [] => none
      match i, steps with
      | some i, x :: up =>
        if r.isZero v then (t.delete hp root depth keys ({ x with pos := i } :: up)).map Tree.commit
        else .ok (t.put x.i x.p { x.node with ents := x.node.ents.set i (k, v) }).commit
      | _, _ =>
        if r.isZero v then .ok s else (t.insert hp root depth keys steps k v elem).map Tree.commit

/-- The bits of an element: 0 when it is absent. -/
def lodeLoad (s : State) (ctx : Nat) (r : Region) (lin : Nat) : Except Bad Nat :=
  ((Tree.find { s, ctx, r } (lin / r.sub) (r.key lin)).map fun v => v.getD 0)

/-! ## Growing and trimming (R224) -/

/-- The free list as it stands. -/
def Tree.freeList (t : Tree) : Nat → Nat → Except Bad (List (Nat × PAddr × LNode))
  | 0, _ => .ok []
  | fuel + 1, h =>
    if h = lodeNone then .ok []
    else match t.at_ h with
      | .error e => .error e
      | .ok (p, n) => (t.freeList fuel n.next).map fun l => (h, p, n) :: l

/-- The donated nodes whose pages translate, from a number on, and what stopped them. -/
def Tree.donated (t : Tree) : Nat → Nat → List (Nat × PAddr) × Option Bad
  | 0, _ => ([], none)
  | k + 1, i => match walkAt t.s t.ctx (t.r.pool + 256 * (i + 1)) with
    | .error e => ([], some e)
    | .ok p => let d := t.donated k (i + 1); ((i, p) :: d.1, d.2)

/-- Donates `k` nodes: the state, the nodes still to donate, and what stopped the donation; or what stops it whole. -/
def lodeGrow (s : State) (ctx : Nat) (r : Region) (k : Nat) : Except Bad (State × Nat × Option Bad) :=
  let t : Tree := { s, ctx, r }
  if t.stray then (t.strayAct 0 false 0).map fun s => (s, 0, none)
  else match t.pool with
  | .error e => .error e
  | .ok (pp, nodes, free, fh) =>
    match t.freeList (free + 1) fh with
    | .error e => .error e
    | .ok list =>
      if r.poolmax < nodes + k then .error (.stateIllegal, 0)
      else
      let d := t.donated k nodes
      let n := d.1.length
      let new := d.1.zipIdx.map fun x => (x.1.1, x.1.2, if x.2 + 1 < n then x.1.1 + 1 else lodeNone)
      let t := new.foldl (fun t x => t.put x.1 x.2.1 { leaf := false, next := x.2.2, ents := [] }) t
      let t := match list.getLast?, n with
        | some (i, p, node), _ + 1 => t.put i p { node with next := nodes }
        | _, _ => t
      let fh' := if list.isEmpty && decide (0 < n) then nodes else fh
      let t := if n = 0 then t else t.raw pp (headBytes (nodes + n) (free + n) fh')
      .ok (t.commit, k - n, d.2)

/-- How many nodes at the top of the pool are free, up to `k`. -/
def topFree (frees : List Nat) : Nat → Nat → Nat
  | 0, _ => 0
  | _, 0 => 0
  | k + 1, nodes + 1 => if frees.contains nodes then topFree frees k nodes + 1 else 0

/-- Removes up to `k` free nodes at the top: the state, and how many. -/
def lodeTrim (s : State) (ctx : Nat) (r : Region) (k : Nat) : Except Bad (State × Nat) :=
  let t : Tree := { s, ctx, r }
  if t.stray then (t.strayAct 0 false 0).map fun x => (x, s.freeBelow 3 (k + 1))
  else match t.pool with
  | .error e => .error e
  | .ok (pp, nodes, free, fh) =>
    match t.freeList (free + 1) fh with
    | .error e => .error e
    | .ok list =>
      let n := topFree (list.map (·.1)) k nodes
      let keep := list.filter fun x => decide (x.1 < nodes - n)
      let fh' := match keep with | x :: _ => x.1 | [] => if n = 0 then fh else lodeNone
      let t := match keep.getLast?, n with
        | some (i, p, node), _ + 1 => t.put i p { node with next := lodeNone }
        | _, _ => t
      .ok ((if n = 0 then t else t.raw pp (headBytes (nodes - n) (free - n) fh')).commit, n)

end Sys2Proof.Machine
end

