-- ==== Sys2Proof/Machine/Memory.lean ====
section
/-! DEFINITION. Majors 0x20 to 0x28: loads, stores, constant loads, prefetch, the spill stack, atomics and fences (R367 to
R376), the accesses of threads to lode regions, and the walker's acts (R218, R223, R472). -/

namespace Sys2Proof

/-- Bytes of an access of the instruction's type (R370). -/
def Op.size (o : Op) : Nat := o.ty.bits / 8

/-- An acquire at `.cl` or wider (R177, R232): it empties L1. -/
def Op.empties (o : Op) : Bool := o.order.acquires && decide (2 ≤ o.scope.rank)

end Sys2Proof

namespace Sys2Proof.Machine

/-! ## Checks (R368, R272) -/

/-- What a checked global access reaches. -/
inductive Reached
  | line (x : Xlat)
  | lode (desc : Nat) (r : Region)

/-- The checks of a global access, in the order of R368 and R217. -/
def State.globalCheck (s : State) (ctx : Nat) (va : DWord) (n : Nat) (need : Need) : Except Cls Reached :=
  if va.toNat % n ≠ 0 then .error .misalign
  else match translate s ctx va need with
    | .error e => .error e
    | .ok x =>
      if x.cls = 2 then
        if need = .atomic then .error .classWidth
        else match regionRead s x.at_.addr with
          | .error e => .error e
          | .ok r =>
            if va.toNat < r.vbase ∨ r.vbase + r.n * r.es ≤ va.toNat then .error .pagePerm
            else if n ≠ r.es then .error .classWidth
            else .ok (.lode x.at_.addr r)
      else if need != .store && s.poisoned x.at_ n then .error .eccFatal
      else .ok (.line x)

/-- The faults of an access at an address. -/
def accessFaults {α : Type} (xs : List Thread) (addr : Thread → DWord) (chk : Thread → Except Cls α) : List (Thread × Flt) :=
  faultsOf xs fun t => match chk t with
    | .error e => some { cls := e, addr := addr t }
    | .ok _ => none

/-- An instruction that orders waits: for incomplete acquires and fences of its threads, and, with a release part, for
their earlier accesses (R63, R233, R376). -/
def State.mustWait (s : State) (o : Op) (xs : List Thread) : Bool :=
  heldBack xs || (o.order.releases && !(xs.all fun t => s.quiet t.uid))

/-! ## L1 hits (R177, R179) -/

/-- Some request of a thread waits to enter its collar: a load or an atomic, behind which its later loads take effect, or with `stores` a
buffered store too, behind which its later stores do (R237). -/
def State.holdsBack (s : State) (uid : Nat) (stores : Bool) : Bool :=
  (s.requestsOf uid).any fun q => (stores || !q.op.isStore) && s.fabric.buffered q.id

/-- The bytes that a package-local load finds in L1: none for an acquire that empties it, none while an earlier load or atomic of the
thread to the line is on its way or a store of the thread to it is in its buffer, and none while any load or atomic of the thread has
still to enter its collar, which would take effect after this one (R237). -/
def State.l1Hit (s : State) (core : Nat) (t : Thread) (p : PAddr) (n : Nat) (empties : Bool) : Option (List Byte) :=
  if p.space != .pkg || empties then none
  else if (s.requestsOf t.uid).any fun q => (!q.op.isStore || s.fabric.buffered q.id) && q.at_.space == .pkg && q.at_.addr / 256 == p.addr / 256 then none
  else if s.holdsBack t.uid false then none
  else ((s.core core).l1.find? fun l => l.line == p.addr / 256 * 256).map fun l => (l.bytes.drop (p.addr % 256)).take n

/-- What a thread has read in L1 of stores that their homes have not performed (R239). -/
def State.noteSeen (s : State) (core : Nat) (t : Thread) (p : PAddr) (n : Nat) : State :=
  let seen := (s.fabric.pending.filter fun q => q.core == core && q.op.isStore && !q.applied && q.owner != .thread t.uid && !s.fabric.buffered q.id &&
    q.at_.space == p.space && overlap q.at_.addr q.op.size p.addr n != 0).map (·.id)
  if seen.isEmpty then s else s.onThread t.uid fun t => { t with saw := dedup (seen ++ s.unperformed t.uid) }

/-- A hit sets the line's value to 0, unless the access is `.once`. -/
def State.touchL1 (s : State) (core : Nat) (p : PAddr) (rd : Nat) : State :=
  if rd = 3 then s
  else
    let c := s.core core
    s.setCore core { c with l1 := c.l1.map fun l => if l.line == p.addr / 256 * 256 then { l with rrv := 0 } else l }

/-- A load hits L1, and is counted (R453). DEDUCED (log entry 18). -/
def State.hitL1 (s : State) (core : Nat) (p : PAddr) (rd : Nat) : State := (s.bumpPerf core 10 1).touchL1 core p rd

/-! ## Loads, stores and atomics (R370, R371, R374) -/

/-- The lines of a region's descriptor are held at their home slice (R178). -/
def State.noteDesc (s : State) (desc : Nat) : State := s.noteHome ⟨.pkg, desc⟩ 256 1

/-- A lane's access to a lode region waits for its walker, and the group waits with it (R223). -/
def State.askLode (s : State) (g : Group) (t : Thread) (desc : Nat) (va : DWord) (kind : LodeKind) : State :=
  let op := s.nextId
  let r : LodeReq := { op, ctx := g.ctx, core := g.core, gid := g.gid, uid := t.uid, team := t.team, flag := g.flagNow, region := desc, va,
                       kind, pc := g.pc, seq := t.cmdseq, slot := t.slot, refused := none, halted := none }
  let s : State := { s.noteDesc desc with nextId := op + 1, lodes := s.lodes ++ [r] }
  s.charge [t.uid] g.flagNow true

/-- Lanes that have still to execute, or whose access is still with a walker, do not count as executed yet (R453). -/
def State.uncount (s : State) (core lanes : Nat) : State := s.bumpPerf core 3 (2 ^ 64 - lanes)

/-- The group of a lode access stays at the instruction until the walkers have answered. -/
def State.awaitLode (s : State) (g : Group) (lanes : Nat) : Body :=
  if lanes = 0 then .done s else .moved ((s.uncount g.core lanes).onGroup g.gid fun g => { g with wait := .lode })

def Reached.isLode : Reached → Bool
  | .lode .. => true
  | .line _ => false

/-- One lane of a load. DEDUCED (log entry 18). -/
def State.loadLane (s : State) (g : Group) (o : Op) (t : Thread) (r : Reached) : State :=
  let va := o.gaddr t
  let s := s.noteTlb g.core g.ctx va
  match r with
  | .lode desc _ => s.askLode g t desc va (.load o.d.toNat o.ty o.order.acquires o.empties)
  | .line x =>
    match s.l1Hit g.core t x.at_ o.size o.empties with
    | some bs =>
      let v : DWord := BitVec.ofNat 64 (natOfBytes bs)
      ((s.noteSeen g.core t x.at_ o.size).hitL1 g.core x.at_ o.rdCode).onThread t.uid fun t =>
        { t.dst o.ty o.d (tyWrite o.ty false (tyVal o.ty v)) with
            accessed := s.nextId, seen := if o.order.acquires then s.nextId else t.seen }
    | none =>
      let s := if x.at_.space = .pkg then s.bumpPerf g.core 11 1 else s
      s.ask g g.flagNow
        { thread := t, va, at_ := x.at_, op := .load o.size, opnd := 0, dreg := some o.d.toNat, ty := o.ty,
          alloc := if x.at_.space = .pkg ∧ o.rdCode ≠ 3 then some o.rdCode else none,
          acquire := o.order.acquires, empties := o.empties, rd := o.rdCode }

/-- One lane of a store. -/
def State.storeLane (s : State) (g : Group) (o : Op) (t : Thread) (r : Reached) : State :=
  let va := o.gaddr t
  let s := s.noteTlb g.core g.ctx va
  match r with
  | .lode desc _ => s.askLode g t desc va (.store ((o.srcB t o.ty).setWidth 32) o.ty)
  | .line x =>
    (s.noteStray g.ctx va).ask g g.flagNow
      { thread := t, va, at_ := x.at_, op := .store o.size, opnd := o.srcB t o.ty, dreg := none, ty := o.ty, alloc := none,
        acquire := false, empties := false, rd := o.rdCode }

/-- One lane of an atomic. -/
def State.atomLane (s : State) (g : Group) (o : Op) (op : ReqOp) (t : Thread) (r : Reached) : State :=
  let va := o.gaddr t
  let s := s.noteTlb g.core g.ctx va
  match r with
  | .lode .. => s
  | .line x =>
    (s.noteStray g.ctx va).ask g g.flagNow
      { thread := t, va, at_ := x.at_, op, opnd := o.srcB t o.ty, dreg := some o.d.toNat, ty := o.ty, alloc := none,
        acquire := o.order.acquires, empties := o.empties, rd := o.rdCode }

/-- Poison in the L1 bytes that a load would find (R32). -/
def State.l1Bad (s : State) (core : Nat) (o : Op) (t : Thread) : Reached → Bool
  | .line x => !s.poison.isEmpty && (s.l1Hit core t x.at_ o.size o.empties).isSome && s.poisoned ⟨.l1 core, x.at_.addr⟩ o.size
  | .lode .. => false

/-- A global access of every executing lane, in position order. -/
def State.globalAccess (k : Opc) (o : Op) (s : State) (need : Need) (lane : State → Group → Thread → Reached → State) :
    Host.Outcome State Fault Refusal :=
  s.issue k o fun g xs =>
    if s.mustWait o xs then .stall
    else
      let chk (t : Thread) := (s.globalCheck g.ctx (o.gaddr t) o.size need).bind fun r =>
        if need == .load && s.l1Bad g.core o t r then .error .eccFatal else .ok r
      match accessFaults xs o.gaddr chk with
      | f :: fs => .stop (f :: fs)
      | [] =>
        let run (s : State) (t : Thread) : State := match chk t with
          | .ok r => lane s g t r
          | .error _ => s
        (xs.foldl run s).awaitLode g (xs.countP fun t => match chk t with | .ok r => r.isLode | .error _ => false)

def execLd (o : Op) (s : State) : Host.Outcome State Fault Refusal :=
  s.globalAccess .ld o .load fun s g t r => s.loadLane g o t r

def execSt (o : Op) (s : State) : Host.Outcome State Fault Refusal :=
  s.globalAccess .st o .store fun s g t r => s.storeLane g o t r

def execXadd (o : Op) (s : State) : Host.Outcome State Fault Refusal :=
  s.globalAccess .xadd o .atomic fun s g t r => s.atomLane g o (.add o.ty) t r

def execXmax (o : Op) (s : State) : Host.Outcome State Fault Refusal :=
  s.globalAccess .xmax o .atomic fun s g t r => s.atomLane g o (.max o.ty) t r

def execXmin (o : Op) (s : State) : Host.Outcome State Fault Refusal :=
  s.globalAccess .xmin o .atomic fun s g t r => s.atomLane g o (.min o.ty) t r

def execXswp (o : Op) (s : State) : Host.Outcome State Fault Refusal :=
  s.globalAccess .xswp o .atomic fun s g t r => s.atomLane g o (.swap o.size) t r

def execXcas (o : Op) (s : State) : Host.Outcome State Fault Refusal :=
  s.globalAccess .xcas o .atomic fun s g t r => s.atomLane g o (.cas o.size (o.srcC t o.ty)) t r

def execXbit (o : Op) (s : State) : Host.Outcome State Fault Refusal :=
  s.globalAccess .xbit o .atomic fun s g t r => s.atomLane g o (.bit o.aux.toNat o.size) t r

/-! ## Team and die memory (R166 to R168, R370) -/

/-- A partition of die memory serves as a row cache, so that reads of it are unspecified (R210).
DEDUCED (log entry 32). -/
def State.rowCached (s : State) (stope part : Nat) : Bool :=
  s.quads.any fun x => x.1 / 32 == stope && x.2.rowCache.any fun r => r.1 == part

/-- What a thread reads at a place of team or die memory. DEDUCED (log entry 32). -/
def State.localValue (s : State) (t : Thread) (p : PAddr) (n : Nat) : Nat :=
  match p.space with
  | .die k =>
    if s.rowCached k (p.addr / 2 ^ 20) then
      natOfBytes ((List.range n).map fun i => Config.freeByte ((s.free * 2 ^ 32 + t.uid) * 2 ^ 32 + p.addr + i))
    else s.natAt p n
  | _ => s.natAt p n

/-- A load of every executing lane from a place that its own address gives, performed at once; not before the thread's earlier loads
and atomics have entered their collar (R237). -/
def localLoad (k : Opc) (o : Op) (s : State) (place : Group → Thread → Except Cls PAddr) :
    Host.Outcome State Fault Refusal :=
  s.issue k o fun g xs =>
    if s.mustWait o xs || xs.any (fun t => s.holdsBack t.uid false) then .stall
    else
      let chk (t : Thread) : Except Cls PAddr := match place g t with
        | .error e => .error e
        | .ok p => if s.poisoned p o.size then .error .eccFatal else .ok p
      match accessFaults xs (fun t => (o.laddr t).setWidth 64) chk with
      | f :: fs => .stop (f :: fs)
      | [] =>
        let read (t : Thread) : Thread := match chk t with
          | .ok p => { t.dst o.ty o.d (tyWrite o.ty false (tyVal o.ty (BitVec.ofNat 64 (s.localValue t p o.size)))) with
            accessed := s.nextId, seen := if o.order.acquires then s.nextId else t.seen }
          | .error _ => t
        let s' := s.onThreads (xs.map (·.uid)) read
        .done (if o.empties && !xs.isEmpty then s'.emptyL1 g.core else s')

/-- A store of every executing lane, in position order, performed at once; not before the thread's earlier accesses have
entered their collar (R237). -/
def localStore (k : Opc) (o : Op) (s : State) (place : Group → Thread → Except Cls PAddr) :
    Host.Outcome State Fault Refusal :=
  s.issue k o fun g xs =>
    if s.mustWait o xs || xs.any (fun t => s.holdsBack t.uid true) then .stall
    else
      match accessFaults xs (fun t => (o.laddr t).setWidth 64) (place g) with
      | f :: fs => .stop (f :: fs)
      | [] =>
        let write (s : State) (t : Thread) : State := match place g t with
          | .ok p => s.threadWrite t.uid p (bytesOfNat (o.srcB t o.ty).toNat o.size)
          | .error _ => s
        .done ((xs.foldl write s).onThreads (xs.map (·.uid)) fun t => { t with accessed := s.nextId })

/-- DESIGN CHOICE (log entry 10). -/
def execLdt (o : Op) (s : State) : Host.Outcome State Fault Refusal :=
  localLoad .ldt o s fun _ t => s.teamPlace t (o.laddr t) o.size o.size

def execStt (o : Op) (s : State) : Host.Outcome State Fault Refusal :=
  localStore .stt o s fun _ t => s.teamPlace t (o.laddr t) o.size o.size

def execLdd (o : Op) (s : State) : Host.Outcome State Fault Refusal :=
  localLoad .ldd o s fun g t => s.diePlace g.ctx g.core (o.laddr t) o.size o.size

def execStd (o : Op) (s : State) : Host.Outcome State Fault Refusal :=
  localStore .std o s fun g t => s.diePlace g.ctx g.core (o.laddr t) o.size o.size

/-! ## Constant loads and prefetch (R372) -/

/-- The bytes that a constant load finds in the core's instruction cache, which holds their line since no earlier than the thread's
latest `isync` and serves it or not, as the package chooses (R372). DESIGN CHOICE (log entry 77). -/
def State.constHit (s : State) (core : Nat) (t : Thread) (p : PAddr) (n : Nat) : Option (List Byte) :=
  (((s.core core).consts.find? fun c => c.1 == { p with addr := p.addr / 256 * 256 } && decide (t.synced ≤ c.2.1)).filter fun _ =>
    Config.freeBit (s.free * 2 ^ 64 + 2 ^ 62 + p.addr)).map fun c => (c.2.2.drop (p.addr % 256)).take n

/-- The checks of a constant load. -/
def State.constPlace (s : State) (ctx : Nat) (va : DWord) (n : Nat) : Except Cls PAddr :=
  if va.toNat % n ≠ 0 then .error .misalign
  else match translate s ctx va .load with
    | .error e => .error e
    | .ok x => if x.cls = 2 then .error .classWidth
               else if s.poisoned x.at_ n then .error .eccFatal else .ok x.at_

/-- Poison in the copy that a constant load would take from the instruction cache (R32). -/
def State.constBad (s : State) (core : Nat) (t : Thread) (p : PAddr) (n : Nat) : Bool :=
  !s.poison.isEmpty && (s.constHit core t p n).isSome && s.poisoned (icachePlace core p) n

/-- One lane of a constant load: from the instruction cache, or by a request that merges with none. -/
def State.constLane (s : State) (g : Group) (o : Op) (t : Thread) (p : PAddr) : State :=
  let s := s.noteTlb g.core g.ctx (o.gaddr t)
  match s.constHit g.core t p o.size with
  | some bs => s.onThread t.uid fun t => t.dst o.ty o.d (tyWrite o.ty false (tyVal o.ty (BitVec.ofNat 64 (natOfBytes bs))))
  | none => s.ask g g.flagNow
      { thread := t, va := o.gaddr t, at_ := p, op := .load o.size, opnd := 0, dreg := some o.d.toNat, ty := o.ty, alloc := none,
        acquire := false, empties := false, rd := o.rdCode, const := true }

def execLdc (o : Op) (s : State) : Host.Outcome State Fault Refusal :=
  s.issue .ldc o fun g xs =>
    if heldBack xs then .stall
    else
      let chk (t : Thread) := (s.constPlace g.ctx (o.gaddr t) o.size).bind fun p =>
        if s.constBad g.core t p o.size then .error .eccFatal else .ok p
      match accessFaults xs o.gaddr chk with
      | f :: fs => .stop (f :: fs)
      | [] =>
        let lane (s : State) (t : Thread) : State := match chk t with
          | .error _ => s
          | .ok p => s.constLane g o t p
        .done (xs.foldl lane s)

/-- A parameter of the thread's own launch. -/
def execLdcPar (o : Op) (s : State) : Host.Outcome State Fault Refusal :=
  s.lanes .ldcPar o
    (fun t =>
      let len := match s.launchOf t.team with | some l => l.kernel.paramlen | none => 0
      if o.imm.toNat % o.size ≠ 0 then some { cls := .misalign, addr := o.imm.setWidth 64 }
      else if len < o.imm.toNat + o.size then some { cls := .pageForm, addr := o.imm.setWidth 64 }
      else none)
    fun t =>
      let ps := match s.launchOf t.team with | some l => l.params | none => []
      let v := natOfBytes ((ps.drop o.imm.toNat).take o.size)
      t.dst o.ty o.d (tyWrite o.ty false (tyVal o.ty (BitVec.ofNat 64 v)))

/-- A prefetch brings a line to its home slice and, if package-local, to L1, with the core's stores that its home has not
performed; a failing check drops it. -/
def State.prefLane (s : State) (g : Group) (o : Op) (t : Thread) : State :=
  let va := o.gaddr t
  match translate s g.ctx va .nothing with
  | .error _ => s
  | .ok x =>
    let line : PAddr := { x.at_ with addr := x.at_.addr / 256 * 256 }
    if x.cls = 2 ∨ s.poisoned line 256 = true then s
    else
      let s := s.noteTlb g.core g.ctx va
      let s := if line.space = .pkg then s.touchL1 g.core line o.rdCode else s
      (s.askLine g.core g.ctx t.slot t.uid line o.rdCode (if line.space = .pkg then some o.rdCode else none)).onThread t.uid Thread.count

def execPref (o : Op) (s : State) : Host.Outcome State Fault Refusal :=
  s.issue .pref o fun g xs =>
    if heldBack xs then .stall else .done (xs.foldl (fun s t => s.prefLane g o t) s)

/-! ## Spill stack (R170, R373) -/

def State.spillBase (s : State) (ctx : Nat) : Nat := bits (s.reg (hifCtx ctx 0x50)) 51 16 * 2 ^ 16
def State.spillSize (s : State) (ctx : Nat) : Nat := 2 ^ (8 + bits (s.reg (hifCtx ctx 0x50)) 3 0)

/-- The address of a word of a thread's stack. -/
def State.stackAddr (s : State) (ctx core : Nat) (t : Thread) (i : Nat) : DWord :=
  BitVec.ofNat 64 (s.spillBase ctx + (8192 * core + t.slot) * s.spillSize ctx + 4 * i)

def State.stackPlace (s : State) (ctx core : Nat) (t : Thread) (need : Need) (i : Nat) : Except Cls PAddr :=
  match translate s ctx (s.stackAddr ctx core t i) need with
  | .error e => .error e
  | .ok x => if x.cls ≠ 0 then .error .pagePerm
             else if need = .load ∧ s.poisoned x.at_ 4 = true then .error .eccFatal else .ok x.at_

/-- The place of a word of the stack that is to be read, unless it would be read poisoned: at its home, or in L1 (R32). -/
def State.popPlace (s : State) (ctx core : Nat) (t : Thread) (i : Nat) : Except Cls PAddr :=
  match s.stackPlace ctx core t .load i with
  | .error e => .error e
  | .ok p => if !s.poison.isEmpty && (s.l1Hit core t p 4 false).isSome && s.poisoned ⟨.l1 core, p.addr⟩ 4 then .error .eccFatal else .ok p

/-- The first word of a stack move that fails. -/
def State.stackFault (s : State) (ctx core : Nat) (t : Thread) (need : Need) (first n : Nat) : Option Flt :=
  (List.range n).findSome? fun i => match (if need == .load then s.popPlace ctx core t (first + i) else s.stackPlace ctx core t need (first + i)) with
    | .error e => some { cls := e, addr := s.stackAddr ctx core t (first + i) }
    | .ok _ => none

/-- One word of a stack move, as a store or a load of the thread (R45, R165). -/
def State.pushWord (s : State) (g : Group) (t : Thread) (o : Op) (i : Nat) (p : PAddr) : State :=
  s.ask g g.flagNow
    { thread := t, va := s.stackAddr g.ctx g.core t (t.depth + i), at_ := p, op := .store 4,
      opnd := (t.reg (o.a.toNat + i)).setWidth 64, dreg := none, ty := .w32, alloc := none, acquire := false, empties := false, rd := 1 }

def State.popWord (s : State) (g : Group) (t : Thread) (o : Op) (first i : Nat) (p : PAddr) : State :=
  match s.l1Hit g.core t p 4 false with
  | some bs => ((s.noteSeen g.core t p 4).hitL1 g.core p 1).onThread t.uid fun t =>
      { t.setReg (o.d.toNat + i) (BitVec.ofNat 32 (natOfBytes bs)) with accessed := s.nextId }
  | none => (s.bumpPerf g.core 11 1).ask g g.flagNow
      { thread := t, va := s.stackAddr g.ctx g.core t (first + i), at_ := p, op := .load 4, opnd := 0, dreg := some (o.d.toNat + i),
        ty := .w32, alloc := some 1, acquire := false, empties := false, rd := 1 }

/-- The thread as its latest request left it. -/
def State.nowOf (s : State) (t : Thread) : Thread := (s.thread? t.uid).getD t

def execSpush (o : Op) (s : State) : Host.Outcome State Fault Refusal :=
  s.issue .spush o fun g xs =>
    let n := o.stackCount
    if heldBack xs then .stall
    else match faultsOf xs fun t =>
        if s.spillBase g.ctx = 0 ∨ s.spillSize g.ctx / 4 < t.depth + n then some { cls := .stateIllegal, addr := 0 }
        else s.stackFault g.ctx g.core t .store t.depth n with
      | f :: fs => .stop (f :: fs)
      | [] =>
        let put (t : Thread) (e : State) (i : Nat) : State := match s.stackPlace g.ctx g.core t .store (t.depth + i) with
          | .ok p => e.pushWord g (e.nowOf t) o i p
          | .error _ => e
        let lane (e : State) (t : Thread) : State :=
          ((List.range n).foldl (put t) ((List.range n).foldl (fun e i => e.noteTlb g.core g.ctx (s.stackAddr g.ctx g.core t (t.depth + i))) e)).onThread t.uid
            fun t => { t with depth := t.depth + n }
        .done (xs.foldl lane s)

def execSpop (o : Op) (s : State) : Host.Outcome State Fault Refusal :=
  s.issue .spop o fun g xs =>
    let n := o.stackCount
    if heldBack xs then .stall
    else match faultsOf xs fun t =>
        if s.spillBase g.ctx = 0 ∨ t.depth < n then some { cls := .stateIllegal, addr := 0 }
        else s.stackFault g.ctx g.core t .load (t.depth - n) n with
      | f :: fs => .stop (f :: fs)
      | [] =>
        let get (t : Thread) (e : State) (i : Nat) : State := match s.stackPlace g.ctx g.core t .load (t.depth - n + i) with
          | .ok p => e.popWord g (e.nowOf t) o (t.depth - n) i p
          | .error _ => e
        let lane (e : State) (t : Thread) : State :=
          ((List.range n).foldl (get t) ((List.range n).foldl (fun e i => e.noteTlb g.core g.ctx (s.stackAddr g.ctx g.core t (t.depth - n + i))) e)).onThread t.uid
            fun t => { t with depth := t.depth - n }
        .done (xs.foldl lane s)

/-! ## Fences (R376) -/

def execFence (o : Op) (s : State) : Host.Outcome State Fault Refusal :=
  s.issue .fence o fun g xs =>
    if heldBack xs then .stall
    else
      let put (s : State) (t : Thread) : State :=
        let reqs := (s.requestsOf t.uid).map (·.id) ++ s.unperformed t.uid ++ (s.lodes.filter fun l => l.uid == t.uid).map (·.op)
        let late : Late := .fence t.uid g.flagNow reqs (if o.empties then some g.core else none)
        let s : State := { s with late := s.late ++ [late] }
        s.onThread t.uid fun t => { t.holdFlag g.flagNow with holds := t.holds + 1 }
      .done (xs.foldl put s).settleFences

/-! ## The walker's acts (R218, R223, R225, R226, R472) -/

/-- The walker answers a lane: what it receives, and its flag. -/
def State.lodeAnswer (s : State) (q : LodeReq) (f : Thread → Thread) : State :=
  let s : State := { s with lodes := s.lodes.filter fun r => r.op != q.op }
  let s := if q.gid = 0 then s else s.bumpPerf q.core 3 1
  s.onThread q.uid fun t => (f t).dropFlag q.flag

/-- Once every lane of a group has been answered, it goes on past the instruction; or it stops exactly at it, and only the
lanes that were refused are to execute it again (R223). What a lane that is to exit was refused is over with it (R278, R458). -/
def State.settleLode (s : State) (gid : Nat) : State :=
  let lost (r : LodeReq) : Bool :=
    r.gid == gid && gid != 0 && r.refused.isSome && (match s.thread? r.uid with | some t => t.leaving | none => true)
  let s : State := { s with lodes := s.lodes.filter fun r => !lost r }
  match s.group? gid with
  | none => s
  | some g =>
    let mine := s.lodes.filter fun r => r.gid == gid
    if g.wait ≠ .lode ∨ (mine.any fun r => r.refused.isNone) = true then s
    else if mine.isEmpty then
      s.onGroup gid fun g => { g with wait := .none, ready := s.clock }.past (s.instrLen g) true
    else
      let bad := mine.filterMap fun r => match r.refused, s.thread? r.uid with
        | some f, some t => some (t, ({ cls := f.1, addr := f.2 } : Flt))
        | _, _ => none
      let undo (t : Thread) : Thread := match mine.find? fun r => r.uid == t.uid with
        | some r => { t.dropFlag r.flag with cmdseq := t.cmdseq - 1 }
        | none => t
      let lodes := s.lodes.filter fun r => r.gid != gid || r.refused.isNone
      let s : State := { s with lodes := lodes, threads := s.threads.map undo }
      let s := s.onGroup gid fun g => { g with redo := some (mine.map (·.uid)) }
      s.takeStop g g.pc false bad

/-- A walker operation that meets bad data stops as a command (R32); any other refusal is the lane's. -/
def State.lodeRefuse (s : State) (q : LodeReq) (b : Bad) : State :=
  let put (sid : Option Nat) (s : State) : State :=
    { s with lodes := s.lodes.map fun r => if r.op == q.op then { r with refused := (if sid.isSome then none else some b),
                                                                         halted := sid } else r }
  if b.1 = .eccFatal then
    let r := s.stopCmd q.ctx (.lode q.op) .eccFatal (b.2 / 65536 * 65536) q.pc q.seq q.core q.slot
    put (some r.1) r.2
  else put none s

/-- A command of the walker stops at a page (R224). -/
def State.lodeHalt (s : State) (q : LodeReq) (b : Bad) (kind : LodeKind) : State :=
  let r := s.stopCmd q.ctx (.lode q.op) b.1 (b.2 / 65536 * 65536) q.pc q.seq q.core q.slot
  { r.2 with lodes := r.2.lodes.map fun x => if x.op == q.op then { x with kind := kind, halted := some r.1 } else x }

/-- An earlier operation must reach the walker first: one of the thread on the region, or one on the same subtree. -/
def LodeReq.before (q r : LodeReq) (sub : LodeReq → Option Nat) : Bool :=
  r.refused.isNone && r.halted.isNone && r.region == q.region && (r.uid == q.uid || (sub r).isSome && sub r == sub q)

/-- The subtree that an operation is at. -/
def subOf (r : Region) (q : LodeReq) : Option Nat :=
  match q.kind with
  | .load .. | .store .. => some ((q.va.toNat - r.vbase) / r.es / r.sub)
  | .next c .. => some ((c + 1).toNat / r.sub)
  | .count _ _ _ pos _ => some (pos / r.sub)
  | _ => none

/-- A key lies in a box. -/
def inBox (orig ext : List Nat) (k : Nat) : Bool :=
  ((coordsOfKey k).zip (orig.zip ext)).all fun e => decide (e.2.1 ≤ e.1) && decide (e.1 < e.2.1 + e.2.2)

/-- An operation goes on at another subtree, where it arrives last. -/
def State.lodeMove (s : State) (q : LodeReq) (kind : LodeKind) : State :=
  { s with lodes := (s.lodes.filter fun r => r.op != q.op) ++ [{ q with kind }] }

/-- One act of `lode.next`: one subtree is searched (R225, R435). -/
def State.lodeNextAct (s : State) (q : LodeReq) (r : Region) (c : Int) (dreg creg pd : Nat) : State :=
  let answer (k : DWord) (v : Nat) (p : Bool) : State :=
    s.lodeAnswer q fun t => ((t.setPair dreg k).setReg creg (BitVec.ofNat 32 v)).setPred pd p
  let from_ := (c + 1).toNat
  if r.n ≤ from_ then answer (-1) 0 false
  else
    let sub := from_ / r.sub
    let stop := min (r.sub * (sub + 1)) r.n
    match Tree.seek { s, ctx := q.ctx, r } sub (r.key from_) with
    | .error b => s.lodeRefuse q b
    | .ok (e :: _) => answer (BitVec.ofNat 64 (r.linOf (coordsOfKey e.1))) e.2 true
    | .ok [] => if r.n ≤ stop then answer (-1) 0 false else s.lodeMove q (.next (stop - 1) dreg creg pd)

/-- The first coordinates in a box that are not before some others, outermost dimension first: each a coordinate, the box's
origin and its extent. -/
def boxFrom : List (Nat × Nat × Nat) → Option (List Nat)
  | [] => some []
  | (x, o, e) :: rest =>
    let low := rest.map fun d => d.2.1
    if x < o then some (o :: low)
    else if o + e ≤ x then none
    else match boxFrom rest with
      | some l => some (x :: l)
      | none => if x + 1 < o + e then some ((x + 1) :: low) else none

/-- The first linear index of a box from one on. -/
def Region.boxNext (r : Region) (orig ext : List Nat) (pos : Nat) : Option Nat :=
  (boxFrom ((r.coords pos).zip (orig.zip ext)).reverse).map fun l => r.linOf l.reverse

/-- One act of `lode.count`: one leaf that the box reaches is read (R226, R436). -/
def State.lodeCountAct (s : State) (q : LodeReq) (r : Region) (orig ext : List Nat) (dreg pos acc : Nat) : State :=
  let answer (n : Nat) : State := s.lodeAnswer q fun t => t.setReg dreg (BitVec.ofNat 32 (min n (2 ^ 32 - 1)))
  match if r.n ≤ pos then none else r.boxNext orig ext pos with
  | none => answer acc
  | some pos =>
    let sub := pos / r.sub
    match Tree.leafAt { s, ctx := q.ctx, r } sub (r.key pos) with
    | .error b => s.lodeRefuse q b
    | .ok (es, stop) =>
      let n := (es.filter fun x => decide (r.key pos ≤ x.1) && inBox orig ext x.1).length
      let next := match stop with
        | some k => r.linOf (coordsOfKey k)
        | none => r.sub * (sub + 1)
      s.lodeMove q (.count orig ext dreg (max next (pos + 1)) (acc + n))

/-- An operation acts on a valid region. DESIGN CHOICE (log entry 22). -/
def State.lodeAct (s : State) (q : LodeReq) (r : Region) : State :=
  let lin := (q.va.toNat - r.vbase) / r.es
  match q.kind with
  | .load dreg ty acquires empties =>
    match lodeLoad s q.ctx r lin with
    | .error b => s.lodeRefuse q b
    | .ok v =>
      let s := if empties then s.emptyL1 q.core else s
      s.lodeAnswer q fun t =>
        let t := t.dst ty (BitVec.ofNat 9 dreg) (tyWrite ty false (tyVal ty (BitVec.ofNat 64 v)))
        if acquires then t.observe s.nextId else t
  | .store v _ =>
    match lodeStore s q.ctx r lin (v.toNat % 2 ^ (8 * r.es)) q.va with
    | .error b => s.lodeRefuse q b
    | .ok s' => s'.lodeAnswer q id
  | .next c dreg creg pd => s.lodeNextAct q r c dreg creg pd
  | .count orig ext dreg pos acc => s.lodeCountAct q r orig ext dreg pos acc
  | .grow 0 => s.lodeAnswer q id
  | .grow k =>
    match lodeGrow s q.ctx r k with
    | .error b => s.lodeHalt q b (.grow k)
    | .ok (s', left, some b) => s'.lodeHalt q b (.grow left)
    | .ok (s', _, none) => s'.lodeAnswer q id
  | .trim k dreg =>
    match lodeTrim s q.ctx r k with
    | .error b => s.lodeHalt q b (.trim k dreg)
    | .ok (s', n) => s'.lodeAnswer q fun t => t.setReg dreg (BitVec.ofNat 32 n)

/-- The head and the nodes that an access to an element reads, as far as they can be known, by their addresses. -/
def pathVas (s : State) (ctx : Nat) (r : Region) (lin : Nat) : List Nat :=
  let t : Tree := { s, ctx, r }
  (r.heads + 256 * (lin / r.sub)) :: (match t.head (lin / r.sub) with
    | .ok (_, root, depth, _) => (match t.path (r.key lin) (if root = lodeNone then 0 else pathFuel depth) root [] with
      | .ok steps => steps.map fun x => r.nodeVa x.i
      | .error _ => [])
    | .error _ => [])

/-- The nodes, head and pool header that an operation's next act reads, as far as they can be known, and those it writes beside them, by
their addresses: 256 bytes each. -/
def lodeVas (s : State) (q : LodeReq) (r : Region) : List Nat :=
  let t : Tree := { s, ctx := q.ctx, r }
  let path := pathVas s q.ctx r
  let lin := (q.va.toNat - r.vbase) / r.es
  match q.kind with
  | .load .. => path lin
  | .store v _ => path lin ++ t.storeVas lin (v.toNat % 2 ^ (8 * r.es))
  | .next c .. => path (c + 1).toNat ++ t.nextVas (c + 1).toNat
  | .count orig ext _ pos _ => (match r.boxNext orig ext pos with | some k => path k | none => [])
  | .grow k => t.poolVas id ++ (match t.pool with | .ok (_, nodes, _, _) => (t.donated k nodes).1.map fun x => r.nodeVa x.1 | .error _ => [])
  | .trim .. => t.poolVas id

/-- The places of nodes, heads and headers that can be reached. -/
def nodePlaces (s : State) (ctx : Nat) (vas : List Nat) : List PAddr := vas.filterMap fun va => (walkAt s ctx va).toOption

/-- An access by a lane waits, as the thread's local accesses do, for what the thread has in its core's store buffer: a store for all
of it, a load for loads and atomics (R237, R247). -/
def State.laneHeld (s : State) (q : LodeReq) : Bool := q.gid != 0 && s.holdsBack q.uid (q.kind matches .store ..)

/-- A waiting operation may act: those before it are done; its accesses pass the fabric to their homes (R34, R45, R47, R218); and,
of a command that is still to begin, its context is not stopped and its core stands (R281, R282). -/
def State.lodeMay (s : State) (q : LodeReq) (r : Region) : Bool :=
  !((s.lodes.takeWhile fun x => x.op != q.op).any fun x => q.before x (subOf r)) && !s.laneHeld q &&
  s.allPass q.ctx (some q.core) ((nodePlaces s q.ctx (lodeVas s q r)).map fun p => (p, 256)) && !s.tablesWait q.ctx &&
  (q.gid != 0 || (!s.ctxStopped q.ctx && !s.images.any fun i => i.core == q.core && i.ctx == q.ctx))

/-- The lines that a walker's act reads are held at their home slices, their translations by the stope's TLB, and its flits are sent
(R65, R174, R178). -/
def State.noteWalk (s : State) (core ctx : Nat) (vas : List Nat) : State :=
  let ps := nodePlaces s ctx vas
  let s := vas.foldl (fun (s : State) va => s.noteStope core ctx (BitVec.ofNat 64 va)) s
  (ps.foldl (fun (s : State) p => s.noteHome p 256 1) s).sendTo ps

/-- An operation acts at its walker, which has read the region's descriptor. -/
def State.walk (s : State) (q : LodeReq) (r : Region) : State :=
  ((s.noteDesc q.region).noteWalk q.core q.ctx (lodeVas s q r)).lodeAct q r

/-- The walker performs a waiting operation, as one act, once those before it are done. -/
def execLodeOperation (op : Nat) (s : State) : Host.Outcome State Fault Refusal :=
  match s.lodes.find? fun q => q.op == op && q.refused.isNone && q.halted.isNone with
  | none => .next s
  | some q =>
    match regionRead s q.region with
    | .error e =>
      let s := s.noteDesc q.region
      if q.gid = 0 then .next (s.lodeHalt q (e, q.va) q.kind)
      else .next ((s.lodeRefuse q (e, q.va)).settleLode q.gid).settleExits
    | .ok r =>
      if !s.lodeMay q r then .next s
      else .next ((s.walk q r).settleLode q.gid).settleFences.settleExits

/-! ## `lode.next`, `lode.count`, `lode.grow`, `lode.trim` (R435, R436, R438) -/

/-- The signed value of a register pair. -/
def Thread.signedPair (t : Thread) (r : BitVec 9) : Int := (t.pair r.toNat).toInt

def execLodeNext (o : Op) (s : State) : Host.Outcome State Fault Refusal :=
  s.issue .lodeNext o fun g xs =>
    if heldBack xs then .stall
    else
      let va (t : Thread) := t.pair o.b.toNat
      match faultsOf xs fun t =>
          if t.signedPair o.a < -1 then some { cls := .stateIllegal, addr := 0 }
          else match regionOf s g.ctx (va t) .load with
            | .error e => some { cls := e, addr := va t }
            | .ok _ => none with
      | f :: fs => .stop (f :: fs)
      | [] =>
        let lane (s' : State) (t : Thread) : State := match regionOf s g.ctx (va t) .load with
          | .ok (d, _) => (s'.noteTlb g.core g.ctx (va t)).askLode g t d (va t) (.next (t.signedPair o.a) o.d.toNat o.c.toNat o.aux.toNat)
          | .error _ => s'
        (xs.foldl lane s).awaitLode g xs.length

/-- A box (R436). -/
structure Box where
  region : DWord
  orig : List Nat
  ext : List Nat
  clean : Bool               -- reserved fields are zero
  deriving DecidableEq, Repr

def State.boxAt (s : State) (p : PAddr) : Box :=
  let f (o n : Nat) := s.natAt (p.plus o) n
  { region := BitVec.ofNat 64 (f 0 8), orig := (List.range 4).map fun k => f (0x10 + 4 * k) 4,
    ext := (List.range 4).map fun k => f (0x20 + 4 * k) 4, clean := f 8 8 == 0 && f 0x30 16 == 0 }

/-- A box lies within a region. -/
def Region.holds (r : Region) (b : Box) : Bool :=
  (List.range 4).all fun k =>
    let e := b.ext.getD k 0
    decide (1 ≤ e) && decide (b.orig.getD k 0 + e ≤ r.ext.getD k 0)

/-- The box at a team address, once its own checks have passed (R32, R436). -/
def State.boxRead (s : State) (t : Thread) (va : Word) : Except Flt Box :=
  let at_ : DWord := va.setWidth 64
  match s.teamPlace t va 64 16 with
  | .error e => .error { cls := e, addr := at_ }
  | .ok p =>
    if s.poisoned p 64 then .error { cls := .eccFatal, addr := at_ }
    else
      let b := s.boxAt p
      if !b.clean || (b.ext.any fun e => e == 0) || (b.orig.any fun o => decide (2 ^ 24 ≤ o)) || (b.ext.any fun e => decide (2 ^ 24 < e)) then
        .error { cls := .stateIllegal, addr := 0 }
      else .ok b

/-- The box with its region (R436). -/
def State.boxOf (s : State) (ctx : Nat) (t : Thread) (va : Word) : Except Flt (Box × Nat × Region) :=
  match s.boxRead t va with
  | .error f => .error f
  | .ok b => match regionOf s ctx b.region .load with
    | .error e => .error { cls := e, addr := b.region }
    | .ok (d, r) => if r.holds b then .ok (b, d, r) else .error { cls := .stateIllegal, addr := 0 }

def execLodeCount (o : Op) (s : State) : Host.Outcome State Fault Refusal :=
  s.issue .lodeCount o fun g xs =>
    if heldBack xs then .stall
    else
      let box (t : Thread) := s.boxOf g.ctx t (t.reg o.a.toNat)
      match faultsOf xs fun t => match box t with | .error f => some f | .ok _ => none with
      | f :: fs => .stop (f :: fs)
      | [] =>
        let lane (s' : State) (t : Thread) : State := match box t with
          | .ok (b, d, r) => (s'.noteTlb g.core g.ctx b.region).askLode g t d b.region (.count b.orig b.ext o.d.toNat (r.linOf b.orig) 0)
          | .error _ => s'
        (xs.foldl lane s).awaitLode g xs.length

/-- The region operand of `lode.grow` and `lode.trim`, and its pool header's page, checked as stores. -/
def poolCheck (s : State) (ctx : Nat) (va : DWord) : Except Flt (Nat × Region × Nat) :=
  match regionOf s ctx va .store with
  | .error e => .error { cls := e, addr := va }
  | .ok (d, r) => match walkAt s ctx r.pool with
    | .error b => .error { cls := b.1, addr := b.2 }
    | .ok p => .ok (d, r, s.natAt p 4)

/-- The check has read the descriptor and the pool header (R178). -/
def State.notePool (s : State) (ctx desc : Nat) (r : Region) : State :=
  (nodePlaces s ctx [r.pool]).foldl (fun (s : State) p => s.noteHome p 256 1) (s.noteDesc desc)

/-- A walker command of the elected thread, which acts at once where its walker is free and reached; a page that stops it halts it
as a command. -/
def State.walkerCommand (s : State) (g : Group) (t : Thread) (desc : Nat) (r : Region) (va : DWord) (kind : LodeKind) : State :=
  let op := s.nextId
  let q : LodeReq := { op, ctx := g.ctx, core := g.core, gid := 0, uid := t.uid, team := t.team, flag := g.flagNow, region := desc, va,
                       kind, pc := g.pc, seq := t.cmdseq, slot := t.slot, refused := none, halted := none }
  let s : State := { s with nextId := op + 1, lodes := s.lodes ++ [q] }
  let s := s.charge [t.uid] g.flagNow true
  if s.lodeMay q r then s.walk q r else s

def execLodeGrow (o : Op) (s : State) : Host.Outcome State Fault Refusal :=
  s.issue .lodeGrow o fun g xs =>
    match elected xs with
    | none => .done s
    | some t =>
      let va := t.pair o.a.toNat
      let k := (o.srcB32 t).toNat
      if heldBack xs then .stall
      else match poolCheck s g.ctx va with
        | .error f => .stop [(t, f)]
        | .ok (d, r, nodes) =>
          if r.poolmax < nodes + k then .stop [(t, { cls := .stateIllegal, addr := 0 })]
          else if k = 0 then .done (((s.notePool g.ctx d r).charge [t.uid] g.flagNow true).onThread t.uid fun t => t.dropFlag g.flagNow)
          else .done ((s.notePool g.ctx d r).walkerCommand g t d r va (.grow k))

def execLodeTrim (o : Op) (s : State) : Host.Outcome State Fault Refusal :=
  s.issue .lodeTrim o fun g xs =>
    match elected xs with
    | none => .done s
    | some t =>
      let va := t.pair o.a.toNat
      if heldBack xs then .stall
      else match poolCheck s g.ctx va with
        | .error f => .stop [(t, f)]
        | .ok (d, r, _) => .done ((s.notePool g.ctx d r).walkerCommand g t d r va (.trim (o.srcB32 t).toNat o.d.toNat))

end Sys2Proof.Machine
end

