-- ==== Sys2Proof/Machine/Barrier.lean ====
section
/-! DEFINITION. Majors 0x29 to 0x2C: team and cluster barriers, transaction barriers, the tile table, tensor records and
command status (R377 to R381, R183 to R188). -/

namespace Sys2Proof.Machine

/-! ## Team and cluster barriers (R377) -/

/-- Something other than a barrier holds the threads: an earlier barrier of the other kind delays no arrival (R377). -/
def heldElse (xs : List Thread) : Bool :=
  xs.any fun t => decide (t.holds ≠ (if t.tbar.isSome then 1 else 0) + (if t.cbar.isSome then 1 else 0))

/-- Arrival: birth threads only, once their earlier accesses are done and their earlier barrier has departed.
DEDUCED (log entry 35). -/
def State.arrive (k : Opc) (o : Op) (s : State) (at_ : Thread → Option (Option Nat)) (put : Thread → Option Nat → Thread) :
    Host.Outcome State Fault Refusal :=
  s.issue k o fun g xs =>
    match faultsOf xs fun t => if t.kind = .birth then none else some { cls := .stateIllegal, addr := 0 } with
    | f :: fs => .stop (f :: fs)
    | [] =>
      if heldElse xs || (xs.any fun t => (at_ t).isSome) || !(xs.all fun t => s.quiet t.uid) then .stall
      else
        let arrive (t : Thread) : Thread := put { t.holdFlag g.flagNow with holds := t.holds + 1 } g.flagNow
        .done ((dedup (xs.map (·.team))).foldl State.settleBarriers (s.onThreads (xs.map (·.uid)) arrive))

def execTbar (o : Op) (s : State) : Host.Outcome State Fault Refusal :=
  s.arrive .tbar o (·.tbar) fun t f => { t with tbar := some f }

def execCbar (o : Op) (s : State) : Host.Outcome State Fault Refusal :=
  s.arrive .cbar o (·.cbar) fun t f => { t with cbar := some f }

/-! ## Acts of several lanes one after another -/

/-- The lanes act in position order, each on the state that the one before it left; if any of them faults, none acts. -/
def inOrder (s : State) (xs : List Thread) (act : State → Thread → Except Flt State) : Except (List (Thread × Flt)) State :=
  let r := xs.foldl (fun (a : State × List (Thread × Flt)) t => match act a.1 t with
    | .ok s => (s, a.2)
    | .error f => (a.1, a.2 ++ [(t, f)])) (s, [])
  if r.2.isEmpty then .ok r.1 else .error r.2

def Body.of : Except (List (Thread × Flt)) State → Body
  | .ok s => .done s
  | .error fs => .stop fs

def illegalState : Flt := { cls := .stateIllegal, addr := 0 }

/-! ## Transaction barriers (R186 to R188, R378) -/

/-- The place of a barrier. -/
def State.txbPlace (s : State) (t : Thread) (va : Word) : Except Flt PAddr :=
  match s.teamPlace t va 16 16 with
  | .error e => .error { cls := e, addr := va.setWidth 64 }
  | .ok p => if s.poisoned p 16 then .error { cls := .eccFatal, addr := va.setWidth 64 } else .ok p

/-- The whole object is stored, as a plain store is (R237). -/
def execTxbInit (o : Op) (s : State) : Host.Outcome State Fault Refusal :=
  s.issue .txbInit o fun _ xs =>
    if heldBack xs || xs.any (fun t => s.holdsBack t.uid true) then .stall
    else Body.of (inOrder s xs fun s t =>
      let b := (o.srcB32 t).toNat
      let va := o.laddr t
      if b = 0 ∨ 2 ^ 24 ≤ b then .error illegalState
      else match s.teamPlace t va 16 16 with
        | .error e => .error { cls := e, addr := va.setWidth 64 }
        | .ok p =>
          .ok (s.setTxb p { epoch := 0, arrivals := b, bytes := 0, reload := b,
                            scope := if o.scopeCode = 2 then 1 else 0, rest := 0 }))

/-- BYTES rises by the operand and ARRIVALS falls by one; then the epoch may close. -/
def execTxbArrive (o : Op) (s : State) : Host.Outcome State Fault Refusal :=
  s.issue .txbArrive o fun _ xs =>
    if heldBack xs || !(xs.all fun t => s.quiet t.uid) then .stall
    else Body.of (inOrder s xs fun s t =>
      match s.txbPlace t (o.laddr t) with
      | .error f => .error f
      | .ok p =>
        let b := s.txbAt p
        let bytes := b.bytes + (o.srcB32 t).toNat
        if b.bad || b.arrivals == 0 || !Txb.inRange bytes then .error illegalState
        else
          let s := s.setTxb p { b with bytes := bytes, arrivals := b.arrivals - 1 }.close
          .ok (s.onThread t.uid fun t => t.setReg o.d.toNat (BitVec.ofNat 32 b.epoch)))

def execTxbExpect (o : Op) (s : State) : Host.Outcome State Fault Refusal :=
  s.issue .txbExpect o fun _ xs =>
    if heldBack xs || !(xs.all fun t => s.quiet t.uid) then .stall
    else Body.of (inOrder s xs fun s t =>
      match s.txbPlace t (o.laddr t) with
      | .error f => .error f
      | .ok p =>
        let b := s.txbAt p
        let bytes := b.bytes + (o.srcB32 t).toNat
        if b.bad || !Txb.inRange bytes then .error illegalState
        else .ok (s.setTxb p { b with bytes := bytes }.close))

/-- Each thread waits until EPOCH has passed its operand. -/
def execTxbWait (o : Op) (s : State) : Host.Outcome State Fault Refusal :=
  s.issue .txbWait o fun g xs =>
    if heldBack xs then .stall
    else
      let r := inOrder s xs fun s t =>
        match s.txbPlace t (o.laddr t) with
        | .error f => .error f
        | .ok p =>
          if (s.txbAt p).bad then .error illegalState
          else
            let late : Late := .txbWait t.uid g.flagNow p ((o.srcB32 t).toNat % 2 ^ 16)
            let s : State := { s with late := s.late ++ [late] }
            .ok (s.onThread t.uid fun t => { t.holdFlag g.flagNow with holds := t.holds + 1 })
      Body.of (r.map State.settleTxb)

/-! ## The tile table (R184, R185, R379) -/

/-- An entry that a thread of a group may name: one of its own core, or of a core of the quad that hosts its context. -/
def State.tileReach (s : State) (g : Group) (idx : Nat) : Bool :=
  let c := 4 * quadOfCore g.core + idx / 16
  c == g.core || s.ctxOnCore c == some g.ctx

/-- A defined entry that a group may name. -/
def State.tileOf (s : State) (g : Group) (idx : Nat) : Option Tile :=
  if s.tileReach g idx then s.tile? (quadOfCore g.core) idx else none

/-- A range of team memory as a tile may cover it: on a core of the quad, and inside its team's memory. -/
def State.tileRange (s : State) (g : Group) (t : Thread) (va : Word) (len : Nat) : Except Flt PAddr :=
  let bad (c : Cls) : Flt := { cls := c, addr := va.setWidth 64 }
  if va.toNat % 256 ≠ 0 ∨ len % 256 ≠ 0 then .error (bad .misalign)
  else match s.teamPlace t va len 256 with
    | .error e => .error (bad e)
    | .ok p => match p.space with
      | .team c => if quadOfCore c = quadOfCore g.core then .ok p else .error (bad .pageForm)
      | _ => .error (bad .pageForm)

/-- The core whose team memory a place lies in. -/
def teamCore (p : PAddr) : Nat := match p.space with | .team c => c | _ => 0

/-- A new entry starts empty. `gen` tells one definition from another. -/
def State.defineTile (s : State) (g : Group) (t : Thread) (idx : Nat) (opbuf : Bool) (core base len : Nat) (res : Option ResRec) :
    State :=
  let tile : Tile := { state := .empty, hold := false, opbuf, core, pend := 0, base, len, team := t.team, gen := s.nextId, res,
                       readers := [], fillStart := none, fillEnd := none }
  let s : State := { s with nextId := s.nextId + 1 }
  s.setTile (quadOfCore g.core) idx tile

/-- A defined entry that is not empty, or an entry out of reach, may not be defined (R184, R185, R397). -/
def State.mayDefine (s : State) (g : Group) (idx : Nat) : Bool :=
  s.tileReach g idx && (match s.tile? (quadOfCore g.core) idx with | some t => t.state == .empty | none => true)

def execTileDef (o : Op) (s : State) : Host.Outcome State Fault Refusal :=
  s.issue .tileDef o fun g xs =>
    if heldBack xs then .stall
    else Body.of (inOrder s xs fun s t =>
      let len := (o.srcB32 t).toNat
      if len = 0 ∨ s.mayDefine g o.d.toNat = false then .error illegalState
      else match s.tileRange g t (o.laddr t) len with
        | .error f => .error f
        | .ok p => .ok (s.defineTile g t o.d.toNat false (teamCore p % 4) p.addr len none))

/-- The operation of `tile.set`. -/
def tileSetOp (o : Op) : Nat := if o.len.isExt then o.aux.toNat else o.b.toNat % 4

/-- What `tile.set` does to an entry that takes it at once (R185). DEDUCED (log entry 14). -/
def Tile.set (t : Tile) (op : Nat) : Option Tile :=
  match op with
  | 0 => if t.state = .ready ∨ t.state = .empty then some { t.unfilled with state := .empty } else none
  | 1 => if t.state = .empty then some { t.unfilled with state := .ready } else none
  | 2 => some (if t.state = .empty then { t.unfilled with state := .filling, hold := true } else { t with hold := true })
  | _ => some (if t.state = .filling then { t with hold := false }.settle else t)

def execTileSet (o : Op) (s : State) : Host.Outcome State Fault Refusal :=
  s.issue .tileSet o fun g xs =>
    let op := tileSetOp o
    if heldBack xs then .stall
    else match s.tileOf g o.d.toNat with
      | none => if xs.isEmpty then .done s else .stop (xs.map fun t => (t, illegalState))
      | some tile =>
        if op = 2 ∧ tile.canFill = false ∧ xs.isEmpty = false then .stall
        else Body.of (inOrder s xs fun s _ =>
          match (s.tileOf g o.d.toNat).bind fun t => t.set op with
          | none => .error illegalState
          | some t => .ok ((s.setTile (quadOfCore g.core) o.d.toNat t).settleQuad (quadOfCore g.core)))

def TileState.code : TileState → Nat
  | .empty => 0 | .filling => 1 | .ready => 2 | .draining => 3

/-- The 64-bit value of an entry (R184). DEDUCED (log entry 14). -/
def Tile.value (t : Tile) : Nat :=
  t.state.code * 2 ^ 62 + (if t.hold then 2 ^ 61 else 0) + (if t.opbuf then 2 ^ 60 else 0) + t.core % 4 * 2 ^ 58 +
    t.pend % 2 ^ 21 * 2 ^ 37 + t.base / 256 % 2 ^ 12 * 2 ^ 25 + t.len / 256 % 2 ^ 13 * 2 ^ 12

def execTileState (o : Op) (s : State) : Host.Outcome State Fault Refusal :=
  s.issue .tileState o fun g xs =>
    if heldBack xs then .stall
    else match s.tileOf g o.a.toNat with
      | none => if xs.isEmpty then .done s else .stop (xs.map fun t => (t, illegalState))
      | some tile => .done (s.onThreads (xs.map (·.uid)) fun t => t.setPair o.d.toNat (BitVec.ofNat 64 tile.value))

/-! ## Tensor records (R183, R380) -/

def execTrec (o : Op) (s : State) : Host.Outcome State Fault Refusal :=
  s.issue .trec o fun g xs =>
    if heldBack xs then .stall
    else Body.of (inOrder s xs fun s t =>
      let va := o.laddr t
      match s.teamPlace t va 64 8 with
      | .error e => .error { cls := e, addr := va.setWidth 64 }
      | .ok p =>
        if s.poisoned p 64 then .error { cls := .eccFatal, addr := va.setWidth 64 }
        else
          let c := s.core g.core
          .ok (s.setCore g.core { c with slots := Tab.set o.d.toNat (s.bytesAt p 64) c.slots }))

/-- A signed byte stride: [47:0], with [63:48] equal to bit 47. -/
def strideOf (x : Nat) : Option Int :=
  let v : Int := (bits x 47 0 : Int) - (if bitAt x 47 then 2 ^ 48 else 0)
  if bits x 63 48 = (if bitAt x 47 then 2 ^ 16 - 1 else 0) then some v else none

/-- The record that 64 bytes hold, if it keeps to R183. -/
def trecOf (bs : List Byte) : Option TRec :=
  let x := natOfBytes bs
  let f (o n : Nat) := x / 2 ^ (8 * o) % 2 ^ (8 * n)
  let c := f 8 4
  let ext := (List.range 4).map fun k => f (0x10 + 4 * k) 4
  let rank := bits c 5 4 + 1
  let es := 2 ^ bits c 2 0
  match strideOf (f 0x20 8), strideOf (f 0x28 8), strideOf (f 0x30 8) with
  | some s1, some s2, some s3 =>
    if f 0 8 < 2 ^ 52 ∧ bits c 31 10 = 0 ∧ bits c 7 6 = 0 ∧ bitAt c 3 = false ∧ bits c 2 0 ≤ 4 ∧ f 0xC 4 = 0 ∧ f 0x38 8 = 0 ∧
        f 0 8 % es = 0 ∧ s1 % es = 0 ∧ s2 % es = 0 ∧ s3 % es = 0 ∧
        (ext.zipIdx.all fun e => decide (1 ≤ e.1) && decide (e.1 ≤ 2 ^ 24) && (e.1 == 1 || decide (e.2 < rank)))
    then some { base := f 0 8, rd := bits c 9 8, rank, es, ext, str := [es, s1, s2, s3] } else none
  | _, _, _ => none

/-- The record in a slot of a core. -/
def State.slotRec (s : State) (core slot : Nat) : Option TRec :=
  trecOf (Tab.get (List.replicate 64 0) slot (s.core core).slots)

def TRec.n (r : TRec) : Nat := r.ext.foldl (· * ·) 1

/-- The coordinates of element i in traversal order. -/
def TRec.coords (r : TRec) (i : Nat) : List Nat :=
  let e (k : Nat) := r.ext.getD k 1
  [i % e 0, i / e 0 % e 1, i / (e 0 * e 1) % e 2, i / (e 0 * e 1 * e 2)]

/-- Where an element lies. -/
def TRec.addrOf (r : TRec) (xs : List Nat) : Int :=
  (r.base : Int) + ((xs.zip r.str).map fun e => (e.1 : Int) * e.2).sum

def TRec.elem (r : TRec) (i : Nat) : DWord := BitVec.ofInt 64 (r.addrOf (r.coords i))

/-- The lowest address of a record, and the one past its highest. -/
def TRec.span (r : TRec) : Int × Int :=
  let far := (r.ext.zip r.str).map fun e => ((e.1 : Int) - 1) * e.2
  ((r.base : Int) + (far.map fun x => min x 0).sum, (r.base : Int) + (far.map fun x => max x 0).sum + r.es)

/-! ## Command status (R381) -/

/-- The pair that `bstat` writes. DEDUCED (log entry 14). -/
def State.status (s : State) (core : Nat) (t : Thread) (a : Word) : Nat × Word :=
  let ahead := (t.cmdseq - a).toNat
  if ahead = 0 ∨ 2 ^ 31 ≤ ahead then (8, 0)
  else
    let pack (l g ab : Bool) (n : Nat) : Nat :=
      (if l then 1 else 0) + (if g then 2 else 0) + (if ab then 4 else 0) + min n (2 ^ 24 - 1) * 256
    match (s.core core).copyq.find? fun c => c.uid == t.uid && c.seq == a with
    | some c => (pack c.localDone c.globalDone c.abandoned c.nfail, c.lowfail)
    | none =>
      let later (f : Cmd → Bool) (k : Kept) : Bool := (s.core core).copyq.any fun c => c.uid == t.uid && f c && decide (k.id < c.id)
      match [t.keptRead.filter fun k => !later (·.op matches .bread ..) k, t.keptDrop.filter fun k => !later (·.abandoned) k].findSome? fun k => match k with
          | some k => if k.seq = a then some k else none
          | none => none with
      | some k => (pack true true k.abandoned k.nfail, k.lowfail)
      | none => (3, 0xFFFFFFFF)

def execBstat (o : Op) (s : State) : Host.Outcome State Fault Refusal :=
  s.issue .bstat o fun g xs =>
    .done (s.onThreads (xs.map (·.uid)) fun t =>
      let r := s.status g.core t (t.reg o.a.toNat)
      (t.setReg o.d.toNat (BitVec.ofNat 32 r.1)).setReg (o.d.toNat + 1) r.2)

def execBstatSeq (o : Op) (s : State) : Host.Outcome State Fault Refusal :=
  s.compute .bstatSeq o fun t => t.setReg o.d.toNat t.cmdseq

end Sys2Proof.Machine
end

