-- ==== Sys2Proof/Machine/Reserve.lean ====
section
/-! DEFINITION. Operand reservations: their layout, the reading and writing of their elements (R395, R396), and row lists
(R200). -/

namespace Sys2Proof.Machine

/-- Bits that one element occupies in the element plane (R395). -/
def elemBits : Ty → Nat
  | .kx2 => 3
  | .kx4 => 5
  | .i4 | .w4 => 4
  | .i8 | .w8 | .kx7 => 8
  | _ => 16

def ResRec.pitch (r : ResRec) : Nat := r.rowlen * elemBits r.fmt / 8

def roundUp256 (n : Nat) : Nat := (n + 255) / 256 * 256

def ResRec.scale (r : ResRec) : Nat := if isKx r.fmt then roundUp256 (r.rows * r.pitch) else 0

def ResRec.length (r : ResRec) : Nat :=
  if isKx r.fmt then r.scale + roundUp256 (r.rows * r.rowlen / 8) else roundUp256 (r.rows * r.pitch)

/-- The geometry register, within its limits (R395). -/
def geometry (fmt : Ty) (x : Nat) : Option ResRec :=
  let r : ResRec := { fmt, rows := bits x 12 0, rowlen := bits x 28 16 }
  if 1 ≤ r.rows ∧ r.rows ≤ 4096 ∧ 16 ≤ r.rowlen ∧ r.rowlen ≤ 4096 ∧ r.rowlen % 16 = 0 ∧ r.length ≤ 2 ^ 20 then some r else none

/-- Bytes that a row counts for in a fill: its elements, and its scale bytes for a kx format (R399, R429). -/
def ResRec.rowBytes (r : ResRec) : Nat := r.pitch + (if isKx r.fmt then r.rowlen / 8 else 0)

/-- Where a tile's range begins. -/
def Tile.place (t : Tile) (q : Nat) : PAddr := if t.opbuf then ⟨.opbuf q, t.base⟩ else ⟨.team (4 * q + t.core), t.base⟩

/-- An element of a row as an exact value (R264, R396). -/
def State.resElem (s : State) (q : Nat) (t : Tile) (r : ResRec) (row e : Nat) : FV :=
  let p := t.place q
  let f := fmtOf r.fmt
  if isKx r.fmt then
    let w := elemBits r.fmt
    let b := e / 16
    let el := s.natAt (p.plus (row * r.pitch + 2 * w * b)) (2 * w)
    let sc := s.natAt (p.plus (r.scale + 2 * (row * r.rowlen / 16 + b))) 2
    kxElem r.fmt (sc + 2 ^ 16 * el) (e % 16)
  else if r.fmt.isInt then
    let x := if elemBits r.fmt = 4 then bits (s.natAt (p.plus (row * r.pitch + e / 2)) 1) (4 * (e % 2) + 3) (4 * (e % 2))
             else s.natAt (p.plus (row * r.pitch + e)) 1
    .ofInt (tyVal r.fmt (BitVec.ofNat 64 x))
  else f.val (s.natAt (p.plus (row * r.pitch + 2 * e)) 2)

/-- A whole row from element 0 on, as values. -/
def State.resRow (s : State) (q : Nat) (t : Tile) (r : ResRec) (row first n : Nat) : List FV :=
  (List.range n).map fun i => s.resElem q t r row (first + i)

/-- Writes 16 consecutive elements of a row, from a multiple of 16 on, given as bits of the plain format, or as one kx
block with E and SH in its low 16 bits. -/
def State.putBlock (s : State) (q : Nat) (t : Tile) (r : ResRec) (row b : Nat) (x : Nat) : State :=
  let w := elemBits r.fmt
  let p := t.place q
  if isKx r.fmt then
    (s.localWrite (p.plus (row * r.pitch + 2 * w * b)) (bytesOfNat (x / 2 ^ 16) (2 * w))).localWrite
      (p.plus (r.scale + 2 * (row * r.rowlen / 16 + b))) (bytesOfNat (x % 2 ^ 16) 2)
  else s.localWrite (p.plus (row * r.pitch + 2 * w * b)) (bytesOfNat x (2 * w))

/-- One element of a value in a plain format: to nearest even, saturating (R258). -/
def plainBits (fmt : Ty) (v : FV) : Nat :=
  if fmt.isInt then ((v.toInt .rn fmt) % 2 ^ elemBits fmt).toNat else (fmtOf fmt).round .rn true v

/-- Sixteen values in a format: packed elements, or a quantised block (R263). `src` is the format they come from. -/
def blockBits (fmt : Ty) (src : Fmt) (vs : List FV) : Nat :=
  if isKx fmt then kxQuant fmt src vs else packFields (elemBits fmt) (vs.map (plainBits fmt))

/-- An element of a plain format as an exact value. -/
def plainVal (t : Ty) (x : Nat) : FV := if t.isInt then .ofInt (tyVal t (BitVec.ofNat 64 x)) else (fmtOf t).val x

/-- Sixteen elements of a plain format in a reservation's format: equal formats keep their bits.
DEDUCED (log entry 28). -/
def convertBlock (src dst : Ty) (xs : List Nat) : Nat :=
  if src = dst then packFields (elemBits dst) xs else blockBits dst (fmtOf src) (xs.map (plainVal src))

/-- The byte ranges of block b of a row. -/
def ResRec.blockAt (r : ResRec) (p : PAddr) (row b : Nat) : List (PAddr × Nat) :=
  let w := 2 * elemBits r.fmt
  (p.plus (row * r.pitch + w * b), w) ::
    (if isKx r.fmt then [(p.plus (r.scale + 2 * (row * r.rowlen / 16 + b)), 2)] else [])

/-- Whether an element of a row is read from poisoned bytes (R32). -/
def State.elemPoisoned (s : State) (q : Nat) (t : Tile) (r : ResRec) (row e : Nat) : Bool :=
  if isKx r.fmt then (r.blockAt (t.place q) row (e / 16)).any fun x => s.poisoned x.1 x.2
  else s.poisoned ((t.place q).plus (row * r.pitch + e * elemBits r.fmt / 8)) ((elemBits r.fmt + 7) / 8)

/-- Whether some elements of some rows are poisoned. -/
def State.rowsPoisoned (s : State) (q : Nat) (t : Tile) (r : ResRec) (row n : Nat) (es : List Nat) : Bool :=
  !s.poison.isEmpty && (List.range n).any fun i => es.any fun e => s.elemPoisoned q t r (row + i) e

/-- Writes a row whole: the given values, and zeros to the end of the row. -/
def State.putRow (s : State) (q : Nat) (t : Tile) (r : ResRec) (row : Nat) (src : Fmt) (vs : List FV) : State :=
  (List.range (r.rowlen / 16)).foldl (fun s b =>
    let part := (vs.drop (16 * b)).take 16
    let part := part ++ List.replicate (16 - part.length) (.fin false 0 0)
    s.putBlock q t r row b (blockBits r.fmt src part)) s

/-! ## Row lists (R200) -/

/-- The bytes of a row list. -/
def rowList (trunc : Bool) (ids : List Nat) : List Byte :=
  bytesOfNat (ids.length + (if trunc then 2 ^ 31 else 0)) 4 ++ ids.flatMap fun i => bytesOfNat i 4

/-- Some word of a row list is poisoned. -/
def State.listPoisoned (s : State) (q : Nat) (t : Tile) : Bool :=
  s.poisoned (t.place q) (4 + 4 * min (bits (s.natAt (t.place q) 4) 30 0) ((t.len - 4) / 4))

/-- The ids of a row list, no more than its tile's range holds (R429). -/
def State.listIds (s : State) (q : Nat) (t : Tile) : List Nat :=
  let p := t.place q
  let n := min (bits (s.natAt p 4) 30 0) ((t.len - 4) / 4)
  (List.range n).map fun i => s.natAt (p.plus (4 + 4 * i)) 4

end Sys2Proof.Machine
end

