-- ==== Sys2Proof/Machine/Copy.lean ====
section
/-! DEFINITION. Majors 0x2D to 0x2F and `lode.copy`: bulk commands, the copy queue and its ring, the landing of elements,
bursts and the bank event (R160, R161, R180 to R183, R243, R244, R382 to R388, R437). -/

namespace Sys2Proof.Machine

/-! ## The copy queue (R180, R182) -/

/-- The entries of a core's ring, and where one of them lies. -/
def State.ringEnts (s : State) (ctx : Nat) : Nat := 2 ^ (6 + bits (s.reg (hifCtx ctx 0x58)) 3 0)
def State.ringBase (s : State) (ctx : Nat) : Nat := bits (s.reg (hifCtx ctx 0x58)) 51 20 * 2 ^ 20
def State.ringVa (s : State) (ctx core k : Nat) : DWord :=
  BitVec.ofNat 64 (s.ringBase ctx + 64 * s.ringEnts ctx * core + 64 * k)

/-- A ring entry's place, if its page translates, is CLASS 0, and may be read and written, whichever is to come. DESIGN CHOICE (log entry 20). -/
def State.ringPlace (s : State) (ctx core k : Nat) : Option PAddr :=
  match translate s ctx (s.ringVa ctx core k) .atomic with
  | .ok x => if x.cls = 0 then some x.at_ else none
  | .error _ => none

/-- Where the next command of a queue goes: on chip, into a ring entry, or nowhere yet.
DESIGN CHOICE (log entry 20). -/
def State.queueRoom (s : State) (ctx core : Nat) : Option (Option Nat) :=
  let q := (s.core core).copyq
  let spilled := q.filterMap (·.ring)
  if spilled.isEmpty && decide (q.length < 64) then some none
  else if s.ringBase ctx = 0 ∨ s.ringEnts ctx ≤ spilled.length then none
  else some (some (match spilled.getLast? with
    | some k => (k + 1) % s.ringEnts ctx
    | none => 0))

/-- A spilled command's entry is written; what it holds is not stated (R182). DESIGN CHOICE (log entry 20). -/
def State.writeEntry (s : State) (ctx core : Nat) (p : PAddr) : State :=
  s.engineWrite ctx core p ((List.range 64).map fun i => Config.freeByte (s.free * 2 ^ 64 + i))

/-- A command of a thread enters its core's queue: it takes a number and holds its flag. One whose ring page fails is not spilled yet
(R182). -/
def State.enqueue (s : State) (g : Group) (t : Thread) (c : Cmd) (ring : Option Nat) : State :=
  let c := { c with id := s.nextId, ctx := g.ctx, core := g.core, team := t.team, uid := t.uid, slot := t.slot, pc := g.pc,
                    seq := t.cmdseq, flag := g.flagNow, ring, inRing := (ring.map fun k => (s.ringPlace g.ctx g.core k).isSome).getD true }
  let s := ({ s with nextId := s.nextId + 1 }.setCore g.core
    { s.core g.core with copyq := (s.core g.core).copyq ++ [c] }).charge [t.uid] g.flagNow true
  match ring.bind fun k => s.ringPlace g.ctx g.core k with
  | some p => s.writeEntry g.ctx g.core p
  | none => s

/-- Spilled commands return to the on-chip queue in order, while there is room and their ring entries can be read. -/
def refill (s : State) (core : Nat) : List Cmd → Nat → List Cmd
  | [], _ => []
  | c :: cs, n =>
    match c.ring with
    | none => c :: refill s core cs n
    | some k =>
      if n < 64 ∧ c.inRing = true ∧ (s.ringPlace c.ctx core k).isSome = true then { c with ring := none } :: refill s core cs (n + 1)
      else c :: cs

/-- The entries of commands that were not spilled yet are written, where their pages can be written now. -/
def State.respill (s : State) (core : Nat) : State :=
  (s.core core).copyq.foldl (fun (s : State) x =>
    match (if x.inRing then none else x.ring).bind fun k => s.ringPlace x.ctx core k with
    | some p => (s.writeEntry x.ctx core p).onCmd core x.id fun c => { c with inRing := true }
    | none => s) s

def State.refillQueue (s : State) (core : Nat) : State :=
  let c := s.core core
  if c.ringStop.isSome || c.copyq.all (fun x => x.ring.isNone) then s
  else
    let s := s.respill core
    let q := (s.core core).copyq
    s.setCore core { s.core core with copyq := refill s core q (q.filter fun x => x.ring.isNone).length }

/-- The command that is being spilled, or else the one that is to return to the on-chip queue now that it has room, where its ring page
fails (R182). -/
def State.ringFails (s : State) (core : Nat) : Option Cmd :=
  let q := (s.core core).copyq
  let spilling := q.find? fun x => x.ring.isSome && !x.inRing
  let next := if spilling.isNone && decide ((q.filter fun x => x.ring.isNone).length < 64) then q.find? fun x => x.ring.isSome else spilling
  next.filter fun x => match x.ring with | some k => (s.ringPlace x.ctx core k).isNone | none => false

/-- A ring page that fails stops the queue (R182). -/
def execCopyRingFault (core : Nat) (s : State) : Host.Outcome State Fault Refusal :=
  match s.ringFails core with
  | some x =>
    if (s.core core).ringStop.isSome then .next s
    else
      let r := s.stopCmd x.ctx (.ring core x.id) .copyRingFault (s.ringVa x.ctx core (x.ring.getD 0)) x.pc x.seq core x.slot
      .next (r.2.setCore core { r.2.core core with ringStop := some r.1 })
  | none => .next s

/-! ## Issue -/

/-- A command before its thread and its place in the queue are known. -/
def newCmd (op : CmdOp) (record : TRec) (n : Nat) : Cmd :=
  { id := 0, ctx := 0, core := 0, team := 0, uid := 0, slot := 0, pc := 0, seq := 0, op, record, srcTy := .none,
    dstTy := .none, n, todo := if n = 0 then [] else [(0, n)], barrier := none, tile := none, counter := none, flag := none,
    live := 0, nfail := 0, lowfail := 0xFFFFFFFF, localDone := false, globalDone := false, began := false, ring := none,
    halted := none, upTo := 0, abandoned := false, tbytes := 0, limit := none }

/-- Bytes that k elements of a command count for in the tile it fills. -/
def Cmd.tileBytes (c : Cmd) (k : Nat) : Nat := k * c.tbytes / 16

/-- A fill gains its PEND at issue (R185). -/
def State.fillTile (s : State) (q : Nat) (c : Cmd) : State :=
  match c.tile with
  | none => s
  | some (i, gen) => match s.tile? q i with
    | some t => if t.gen = gen then s.setTile q i (t.fill (c.tileBytes c.n) s.ns) else s
    | none => s

/-- The commands of a bulk instruction's lanes enter the queue in position order, as far as it has room; the rest wait, with
their checks passed (R182, R269). Where none has room the instruction waits to issue. DEDUCED (log entry 33). -/
def State.bulkLanes (s : State) (g : Group) (cs : List (Thread × Cmd)) : Body :=
  let step (a : State × List (Thread × Cmd)) (e : Thread × Cmd) : State × List (Thread × Cmd) :=
    match (if a.2.isEmpty then a.1.queueRoom g.ctx g.core else none) with
    | some ring => ((a.1.fillTile (quadOfCore g.core) e.2).enqueue g e.1 e.2 ring, [])
    | none => (a.1, a.2 ++ [e])
  let r := cs.foldl step (s, [])
  if r.2.length = cs.length ∧ cs ≠ [] then .stall
  else
    let s' : State := { r.1 with bulkWait := r.1.bulkWait.filter (fun e => e.1 != g.gid) ++ r.2.map fun e => (g.gid, { e.2 with uid := e.1.uid }) }
    if r.2.isEmpty then .done s'
    else .stopped ((s'.onGroup g.gid fun g => { g with redo := some (r.2.map fun e => e.1.uid) }).bumpPerf g.core 3 (cs.length - r.2.length))

/-- The tile that a fill names can take it, or is not defined as it was at the check. -/
def State.fillWaits (s : State) (g : Group) (tile : Option Nat) : Bool :=
  match tile.bind fun i => s.tile? (quadOfCore g.core) i with
  | some t => !t.canFill
  | none => false

/-- A bulk instruction: every executing lane is checked, once nothing holds it back (R432), and each issues one command. `tile` is the
entry that they fill. An instruction some of whose commands wait for room is not checked again. DEDUCED (log entry 33). -/
def State.bulk (k : Opc) (o : Op) (s : State) (tile : Option Nat) (cmd : Group → Thread → Except Flt Cmd) :
    Host.Outcome State Fault Refusal :=
  s.issue k o fun g xs =>
    let waiting := s.bulkWait.filterMap fun e => if e.1 = g.gid then (xs.find? fun t => t.uid == e.2.uid).map fun t => (t, e.2) else none
    if heldBack xs then .stall
    else if g.redo.isSome && !waiting.isEmpty then (if s.fillWaits g tile then .stall else s.bulkLanes g waiting)
    else match faultsOf xs fun t => match cmd g t with | .error f => some f | .ok _ => none with
    | f :: fs => .stop (f :: fs)
    | [] =>
      if s.fillWaits g tile && !xs.isEmpty then .stall
      else s.bulkLanes g (xs.filterMap fun t => (cmd g t).toOption.map fun c => (t, c))

/-- The first of some faults in the order of R272. -/
def firstOf (fs : List (Option Flt)) : Except Flt Unit :=
  match minBy (fun a b => decide (a.cls.order ≤ b.cls.order)) (fs.filterMap id) with
  | some f => .error f
  | none => .ok ()

def ofCheck {α : Type} (va : DWord) : Except Cls α → Option Flt
  | .error e => some { cls := e, addr := va }
  | .ok _ => none

def refuseIf (b : Bool) : Option Flt := if b then some illegalState else none

/-- An element of a record that lies in a bank window, which no submission port's page hides there (R20, R99, R388). -/
def windowFault (s : State) (ctx : Nat) (r : TRec) : Option Flt :=
  if (banks s ctx).isEmpty then none
  else
    let shown (a : Nat) : Bool := (portOf s ctx a).isNone && (bankOf s ctx a).isSome
    let inWindow (va : DWord) : Bool := shown va.toNat || shown (va.toNat + r.es - 1)
    (((List.range r.n).map r.elem).find? inWindow).map fun va => { cls := .pageForm, addr := va }

/-- The local place of a bulk instruction: team memory, or die memory. DEDUCED (log entry 19). -/
def State.localPlace (s : State) (g : Group) (t : Thread) (va : Word) (die : Bool) (n align : Nat) : Except Cls PAddr :=
  if die then s.diePlace g.ctx g.core va n align else s.teamPlace t va n align

/-- The entry that a fill may name: within reach, defined over team memory, and holding `n` bytes at a place. -/
def State.fillEntry (s : State) (g : Group) (idx : Nat) (p : PAddr) (n : Nat) : Option Tile :=
  (s.tileOf g idx).filter fun t =>
    !t.opbuf && p.space == (t.place (quadOfCore g.core)).space && decide (t.base ≤ p.addr) && decide (p.addr + n ≤ t.base + t.len)

/-- The source format in IMM[13:9] (R383). -/
def copySrcTy (o : Op) : Ty := (Ty.ofCode (o.imm.extractLsb' 9 5).toNat).getD .none

/-- The size of an element on one side of a copy. DEDUCED (log entry 19). -/
def sideSize (ty : Ty) (es : Nat) : Nat := if ty = .none then es else ty.bits / 8

/-- The command of one lane of `bcopy` (R383). -/
def bcopyCmd (s : State) (o : Op) (g : Group) (t : Thread) : Except Flt Cmd :=
  match s.slotRec g.core o.d.toNat with
  | none => .error illegalState
  | some r =>
    let src := if o.ty = .none then .none else copySrcTy o
    let dst := o.ty
    let dir := o.aux.toNat
    if dir = 2 then
      match s.slotRec g.core o.c.toNat with
      | none => .error illegalState
      | some r2 =>
        (firstOf [refuseIf (r.n != r2.n || (if src = .none then r.es != r2.es else r.es != src.bits / 8 || r2.es != dst.bits / 8)),
                  windowFault s g.ctx r, windowFault s g.ctx r2]).map fun _ =>
          let c : Cmd := { newCmd (.toRec r2) r r.n with srcTy := src, dstTy := dst }
          c
    else
      let va := t.reg o.a.toNat
      let side := if dir = 0 then dst else src
      let size := sideSize side r.es
      let n := r.n * size
      let place := s.localPlace g t va (o.imm.getLsbD 1) n size
      let bar := if o.imm.getLsbD 0 then some (t.reg o.b.toNat) else none
      let idx := (o.imm.extractLsb' 3 6).toNat
      let entry := match s.localPlace g t va (o.imm.getLsbD 1) n 1 with | .ok p => s.fillEntry g idx p n | .error _ => none
      (firstOf [refuseIf ((if dir = 0 then src else dst) != .none && r.es != (if dir = 0 then src else dst).bits / 8),
                refuseIf (o.imm.getLsbD 2 && entry.isNone),
                ofCheck (va.setWidth 64) place,
                bar.bind (fun b => ofCheck (b.setWidth 64) (s.teamPlace t b 16 16)),
                windowFault s g.ctx r]).bind fun _ =>
        match place with
        | .error e => .error { cls := e, addr := va.setWidth 64 }
        | .ok p =>
          let barrier := bar.bind fun b => (s.teamPlace t b 16 16).toOption
          let c : Cmd := { newCmd (if dir = 0 then .toLocal p else .fromLocal p) r r.n with
            srcTy := src, dstTy := dst, barrier := barrier,
            tile := if o.imm.getLsbD 2 then entry.map fun e => (idx, e.gen) else none, tbytes := 16 * size }
          .ok c

def execBcopy (o : Op) (s : State) : Host.Outcome State Fault Refusal :=
  s.bulk .bcopy o (if o.imm.getLsbD 2 then some (o.imm.extractLsb' 3 6).toNat else none) (bcopyCmd s o)

/-- One receiver of a multicast: its landing place, and the gate barrier that counts there (R68, R384).
DESIGN CHOICE (log entry 76). -/
def State.receiver (s : State) (u : Team) (a : Word) (n : Nat) : Except Flt (PAddr × Option PAddr × Nat) :=
  let c := s.core u.core
  let off := c.mcbase + a.toNat
  let gate := bits c.mcgate.toNat 19 4 * 16
  if u.tmLen < off + n then .error { cls := .pageForm, addr := a.setWidth 64 }
  else if bitAt c.mcgate.toNat 31 then
    if u.tmLen < gate + 16 then .error { cls := .pageForm, addr := a.setWidth 64 }
    else .ok (⟨.team u.core, u.tmBase + off⟩, some ⟨.team u.core, u.tmBase + gate⟩, u.tuid)
  else .ok (⟨.team u.core, u.tmBase + off⟩, none, u.tuid)

/-- The command of one lane of `bcopy.mc` (R384). A cluster mate that is saved has no memory to land in.
DESIGN CHOICE (log entries 76, 91). -/
def multicastCmd (s : State) (o : Op) (g : Group) (t : Thread) : Except Flt Cmd :=
  let src := if o.ty = .none then .none else copySrcTy o
  match s.slotRec g.core o.d.toNat, (s.team? t.team).bind fun u => s.cluster? u.cluster with
  | some r, some cl =>
    let a := t.reg o.a.toNat
    let mask := if o.len.isExt then (t.reg o.c.toNat).toNat % 2 ^ 12 else 2 ^ cl.count - 1
    let size := sideSize o.ty r.es
    let teams := (List.range 12).filterMap fun k =>
      if bitAt mask k then s.teams.find? fun u => u.cluster == cl.cuid && u.index == k else none
    let recv := teams.map fun u => if u.saved then .error { cls := .pageForm, addr := a.setWidth 64 } else s.receiver u a (r.n * size)
    let beyond : Option Flt := if 2 ^ cl.count ≤ mask then some { cls := .pageForm, addr := a.setWidth 64 } else none
    let bad := recv.map fun x => match x with | .error f => some f | .ok _ => none
    (firstOf ([refuseIf (mask == 0 || (src != .none && r.es != src.bits / 8)), beyond, windowFault s g.ctx r] ++ bad)).map fun _ =>
      let c : Cmd := { newCmd (.multicast (recv.filterMap fun x => x.toOption)) r r.n with srcTy := src, dstTy := o.ty }
      c
  | _, _ => .error illegalState

def execBcopyMc (o : Op) (s : State) : Host.Outcome State Fault Refusal := s.bulk .bcopyMc o none (multicastCmd s o)

/-- The window in which a record lies whole. -/
def windowFor (s : State) (ctx : Nat) (r : TRec) : Option BankWin :=
  (banks s ctx).find? fun w => !w.bad && decide ((w.vbase : Int) ≤ r.span.1) && decide (r.span.2 ≤ (w.vbase + w.len : Nat))

/-- The lowest byte of a record's rows that lies in the page of a submission port, which hides the window there (R99). -/
def portFault (s : State) (ctx : Nat) (r : TRec) : Option Flt :=
  let pages := ((List.range 16).map fun q => bits (s.reg (hifQ ctx q 0x20)) 51 16).filter fun p =>
    (portOf s ctx (65536 * p)).isSome && decide ((65536 * p : Int) < r.span.2) && decide (r.span.1 < (65536 * p + 65536 : Int))
  if pages.isEmpty then none
  else
    let len := r.ext.getD 0 1 * r.es
    let rows := (List.range (r.ext.getD 1 1 * r.ext.getD 2 1 * r.ext.getD 3 1)).map fun k =>
      (BitVec.ofInt 64 (r.addrOf [0, k % r.ext.getD 1 1, k / r.ext.getD 1 1 % r.ext.getD 2 1, k / (r.ext.getD 1 1 * r.ext.getD 2 1)])).toNat
    let hits := rows.flatMap fun a => (pages.filter fun p => overlap a len (65536 * p) 65536 != 0).map fun p => max a (65536 * p)
    (minBy (fun a b => decide (a ≤ b)) hits).map fun a => { cls := .pageForm, addr := BitVec.ofNat 64 a }

/-- What keeps a command from a record's window: there is none, or its descriptor cannot be read, or it does not permit the access, or a
submission port's page lies in the record (R20, R32, R99). -/
def windowOf (s : State) (ctx : Nat) (r : TRec) (write : Bool) : Except Flt BankWin :=
  let lo := BitVec.ofInt 64 r.span.1
  match windowFor s ctx r with
  | some w =>
    if !(if write then w.write else w.read) then .error { cls := .pageForm, addr := lo }
    else match portFault s ctx r with
      | some f => .error f
      | none => .ok w
  | none =>
    if banksBad s ctx then .error ((portFault s ctx r).getD { cls := .eccFatal, addr := lo })
    else .error { cls := .pageForm, addr := lo }

/-- Bursts of a record: along each row, of at most L bytes. -/
def TRec.rowBursts (r : TRec) (l : Nat) : Nat := (r.ext.getD 0 1 * r.es + l - 1) / l
def TRec.bursts (r : TRec) (l : Nat) : Nat := r.rowBursts l * r.ext.getD 1 1 * r.ext.getD 2 1 * r.ext.getD 3 1

/-- A team's launch has an entry record of one of some kinds at an address (R325). -/
def State.hasEntry (s : State) (t : Thread) (va : DWord) (kinds : List Nat) : Bool :=
  match s.launchOf t.team with
  | some l => l.kernel.entries.any fun e => kinds.contains e.1 && l.kernel.kaddr + BitVec.ofNat 64 e.2 == va
  | none => false

/-- The command of one lane of `bread` (R385). -/
def breadCmd (s : State) (o : Op) (g : Group) (t : Thread) : Except Flt Cmd :=
  let slot := if o.len.isExt then (o.imm.extractLsb' 0 5).toNat else o.b.toNat
  let lg := if o.len.isExt then (o.imm.extractLsb' 5 4).toNat else 0
  let handler := g.pc + o.litFor t
  let allowed := match s.launchOf t.team with | some l => l.kernel.embgrp != 0 | none => false
  match s.slotRec g.core slot with
  | none => .error illegalState
  | some r =>
    let win := windowOf s g.ctx r false
    let most := match windowFor s g.ctx r with | some w => 2 ^ w.maxburst | none => 4096
    let l := if lg = 0 then min most (2 ^ Nat.log2 (4 * t.n)) else 2 ^ lg
    (firstOf [refuseIf (!s.hasEntry t handler [1, 3] || !allowed || t.kind == .ember || decide (2 ^ 32 - 1 < r.bursts l)),
              refuseIf (decide (most < l) || decide (4 * t.n < l)),
              (match win with | .error f => some f | .ok _ => none)]).bind fun _ =>
      win.map fun w =>
        let c : Cmd := { newCmd (.bread handler (t.reg o.a.toNat) l w.vbase w.target w.kind) r (r.bursts l) with
          counter := some o.d.toNat }
        c

def execBread (o : Op) (s : State) : Host.Outcome State Fault Refusal := s.bulk .bread o none (breadCmd s o)

/-- The command of one lane of `bwrite` (R386): its bursts are as long as its window allows. DESIGN CHOICE (log entry 76). -/
def bwriteCmd (s : State) (o : Op) (g : Group) (t : Thread) : Except Flt Cmd :=
  match s.slotRec g.core o.d.toNat with
  | none => .error illegalState
  | some r =>
    let va := t.reg o.a.toNat
    let place := s.localPlace g t va (o.imm.getLsbD 1) (r.n * r.es) r.es
    let win := windowOf s g.ctx r true
    (firstOf [ofCheck (va.setWidth 64) place, (match win with | .error f => some f | .ok _ => none)]).bind fun _ =>
      win.bind fun w => match place with
        | .error e => .error { cls := e, addr := va.setWidth 64 }
        | .ok p =>
          let l := 2 ^ w.maxburst
          .ok (newCmd (.bwrite p l w.vbase w.target w.kind) r (r.bursts l))

def execBwrite (o : Op) (s : State) : Host.Outcome State Fault Refusal := s.bulk .bwrite o none (bwriteCmd s o)

/-- The command of one lane of `bzero` (R387), which is locally complete at issue. -/
def bzeroCmd (s : State) (o : Op) (g : Group) (_ : Thread) : Except Flt Cmd :=
  match s.slotRec g.core o.d.toNat with
  | none => .error illegalState
  | some r => (firstOf [windowFault s g.ctx r]).map fun _ =>
    let c : Cmd := { newCmd .bzero r r.n with localDone := true }
    c

def execBzero (o : Op) (s : State) : Host.Outcome State Fault Refusal := s.bulk .bzero o none (bzeroCmd s o)

/-! ## `lode.copy` (R226, R437) -/

/-- An elected bulk instruction. -/
def State.bulkElected (k : Opc) (o : Op) (s : State) (tile : Option Nat) (cmd : Group → Thread → Except Flt Cmd) :
    Host.Outcome State Fault Refusal :=
  s.issue k o fun g xs =>
    match elected xs with
    | none => .done s
    | some t =>
      if heldBack [t] then .stall
      else match cmd g t with
      | .error f => .stop [(t, f)]
      | .ok c =>
        if s.fillWaits g tile then .stall
        else match s.queueRoom g.ctx g.core with
          | none => .stall
          | some ring => .done ((s.fillTile (quadOfCore g.core) c).enqueue g t c ring)

def lodeCopyCmd (s : State) (o : Op) (g : Group) (t : Thread) : Except Flt Cmd :=
  let va := t.reg o.a.toNat
  let fill := o.imm.getLsbD 0
  let idx := (o.imm.extractLsb' 1 6).toNat
  match s.slotRec g.core o.d.toNat with
  | none => .error illegalState
  | some r =>
    let n := r.n
    let box := s.boxOf g.ctx t va
    let entry := if fill then (s.tileOf g idx).filter fun e => !e.opbuf && decide (n * r.es ≤ e.len) else none
    let unlike := (match s.boxRead t va with | .ok b => r.ext != b.ext | .error _ => false) ||
      (match box with | .ok (_, _, rg) => r.rank != rg.rank || r.es != rg.es | .error _ => false)
    (firstOf [refuseIf (unlike || (fill && entry.isNone)), (match box with | .error f => some f | .ok _ => none),
              if fill then none else windowFault s g.ctx r]).bind fun _ => box.map fun x =>
      let loc := entry.map fun e => e.place (quadOfCore g.core)
      let c : Cmd := { newCmd (.lode x.1.region x.1.orig x.1.ext loc) r n with
        tile := entry.map fun e => (idx, e.gen), tbytes := 16 * r.es }
      c

def execLodeCopy (o : Op) (s : State) : Host.Outcome State Fault Refusal :=
  s.bulkElected .lodeCopy o (if o.imm.getLsbD 0 then some (o.imm.extractLsb' 1 6).toNat else none) (lodeCopyCmd s o)

/-! ## What a command may do now (R180, R181, R243, R281) -/

/-- The accesses that precede the command in its thread have been performed, and so have the stores that they read (R239, R243). -/
def State.precededOnly (s : State) (c : Cmd) : Bool :=
  (s.requestsOf c.uid).all (fun p => decide (c.id < p.id)) && (s.unperformed c.uid).all (fun r => decide (c.id < r)) && !s.lodes.any fun q => q.uid == c.uid && decide (q.op < c.id)

/-- Every earlier command of the queue has begun, and none of them halts it. -/
def openBefore (id : Nat) : List Cmd → Bool
  | [] => true
  | c :: cs => c.id == id || (c.began && c.halted.isNone && openBefore id cs)

/-- A receiver of a multicast has been saved since it issued: its bytes wait for the load (R384). DESIGN CHOICE (log entry 91). -/
def State.receiverAway (s : State) (op : CmdOp) : Bool :=
  match op with
  | .multicast ds => ds.any fun d => s.teams.any fun u => u.tuid == d.2.2 && u.saved
  | _ => false

/-- A command may begin, or it has begun. -/
def State.mayMove (s : State) (c : Cmd) : Bool :=
  c.ring.isNone && !c.abandoned && s.precededOnly c && !s.tablesWait c.ctx && !s.receiverAway c.op &&
  (c.began || (!s.resting c.core && !s.failed && !s.ctxStopped c.ctx && (s.core c.core).ringStop.isNone && openBefore c.id (s.core c.core).copyq))

/-! ## Sources and destinations of elements -/

/-- The address of an element in global memory, if a command may access it. -/
def elemAddr (s : State) (ctx : Nat) (va : DWord) (need : Need) : Except Flt PAddr :=
  match translate s ctx va need with
  | .error e => .error { cls := e, addr := va }
  | .ok x => if x.cls = 2 then .error { cls := .classWidth, addr := va } else .ok x.at_

/-- The place of an element in global memory, as a command reaches it. -/
def elemPlace (s : State) (ctx : Nat) (va : DWord) (n : Nat) (need : Need) : Except Flt PAddr :=
  match elemAddr s ctx va need with
  | .error f => .error f
  | .ok p => if need ≠ .store ∧ s.poisoned p n = true then .error { cls := .eccFatal, addr := va } else .ok p

/-- The line of a multicast's source that it has fetched (R68). -/
def Cmd.lineAt (c : Cmd) (p : PAddr) : Option (PAddr × List Byte × List Nat) :=
  c.lines.find? fun l => l.1 == { p with addr := p.addr / 256 * 256 }

/-- Source data as a command reads it: from the lines that it has fetched, or else from their homes. None where it is poisoned. -/
def Cmd.sourceNat (s : State) (c : Cmd) (p : PAddr) (n : Nat) : Option Nat :=
  if c.lines.isEmpty then (if s.poisoned p n then none else some (s.natAt p n))
  else
    let byte (q : PAddr) : Option Byte := match c.lineAt q with
      | some l => if l.2.2.contains (q.addr % 256) then none else some (l.2.1.getD (q.addr % 256) 0)
      | none => if s.poisoned q 1 then none else some (s.byteAt q)
    let bs := (List.range n).map fun i => byte (p.plus i)
    if bs.all (·.isSome) then some (natOfBytes (bs.filterMap fun b => b)) else none

def Cmd.srcSize (c : Cmd) : Nat := sideSize c.srcTy c.record.es
def Cmd.dstSize (c : Cmd) : Nat := sideSize c.dstTy c.record.es

/-- Local data as a command reads it. -/
def localRead (s : State) (p : PAddr) (n : Nat) : Except Flt Nat :=
  if s.poisoned p n then .error { cls := .eccFatal, addr := 0 } else .ok (s.natAt p n)

/-- The virtual address, length and first coordinates of burst q. -/
def TRec.burst (r : TRec) (l q : Nat) : DWord × Nat × Nat × Nat × Nat :=
  let per := r.rowBursts l
  let row := q / per
  let off := q % per * l
  let x1 := row % r.ext.getD 1 1
  let x2 := row / r.ext.getD 1 1 % r.ext.getD 2 1
  let x3 := row / (r.ext.getD 1 1 * r.ext.getD 2 1)
  (BitVec.ofInt 64 (r.addrOf [0, x1, x2, x3] + off), min l (r.ext.getD 0 1 * r.es - off), off / r.es, x1,
   x2 + r.ext.getD 2 1 * x3)

/-- The host memory that `n` bytes at an address take through a window's copied descriptor: by the host's translation of TARGET's
addresses for KIND 0, or at the bus address for KIND 1 (R18, R21). DESIGN CHOICE (log entries 21, 67). -/
def State.hostPlaces (s : State) (ctx : Nat) (va : DWord) (n vbase target kind : Nat) : Option (List (PAddr × Nat)) :=
  s.hostRuns ctx (kind != 0) (target + (va.toNat - vbase)) n

/-- The linear index of an element of a `lode.copy`. -/
def Cmd.linAt (c : Cmd) (r : Region) (orig : List Nat) (i : Nat) : Nat :=
  r.linOf ((orig.zip (c.record.coords i)).map fun x => x.1 + x.2)

/-- The value of a source element. -/
def Cmd.read (s : State) (c : Cmd) (i : Nat) : Except Flt Nat :=
  match c.op with
  | .fromLocal p => localRead s (p.plus (i * c.srcSize)) c.srcSize
  | .bzero => .ok 0
  | .lode va orig _ _ =>
    match regionOf s c.ctx va .load with
    | .error e => .error { cls := e, addr := va }
    | .ok (_, r) =>
      match lodeLoad s c.ctx r (c.linAt r orig i) with
      | .error b => .error { cls := b.1, addr := b.2 }
      | .ok v => .ok v
  | _ => match elemAddr s c.ctx (c.record.elem i) .load with
    | .error f => .error f
    | .ok p => match c.sourceNat s p c.srcSize with
      | some v => .ok v
      | none => .error { cls := .eccFatal, addr := c.record.elem i }

/-- The bytes that element i is written to. -/
def Cmd.dests (s : State) (c : Cmd) (i : Nat) : Except Flt (List (PAddr × Nat)) :=
  let global (r : TRec) (n : Nat) : Except Flt (List (PAddr × Nat)) :=
    (elemPlace s c.ctx (r.elem i) n .store).map fun p => [(p, n)]
  match c.op with
  | .toLocal p => .ok [(p.plus (i * c.dstSize), c.dstSize)]
  | .fromLocal _ | .bzero => global c.record c.dstSize
  | .toRec r => global r (sideSize c.dstTy r.es)
  | .multicast ds => .ok (ds.map fun d => (d.1.plus (i * c.dstSize), c.dstSize))
  | .fill row =>
    match c.tile.bind fun x => s.tile? (quadOfCore c.core) x.1 with
    | some t => match t.res with
      | some r => .ok (r.blockAt (t.place (quadOfCore c.core)) (row + i / r.rowlen) (i % r.rowlen / 16))
      | none => .ok []
    | none => .ok []
  | .lode _ _ _ (some p) => .ok [(p.plus (i * c.record.es), c.record.es)]
  | .lode _ _ _ none => global c.record c.record.es
  | .bwrite _ l vbase target kind =>
    let b := c.record.burst l i
    .ok ((s.hostPlaces c.ctx b.1 b.2.1 vbase target kind).getD [])
  | .bread .. => .ok []

/-- The first of some elements that cannot move, with its fault. -/
def Cmd.stuck (s : State) (c : Cmd) : List Nat → Option (Nat × Flt)
  | [] => none
  | i :: is => match c.read s i with
    | .error f => some (i, f)
    | .ok _ => match c.dests s i with
      | .error f => some (i, f)
      | .ok _ => c.stuck s is

/-- The value of an element as its destinations take it. -/
def Cmd.converted (c : Cmd) (v : Nat) : Nat := if c.srcTy = .none then v else engineCvt c.srcTy c.dstTy v

/-- What one element writes, place by place. -/
def Cmd.writes (s : State) (c : Cmd) (i v : Nat) : List (PAddr × List Byte) :=
  ((c.dests s i).toOption.getD []).map fun d => (d.1, bytesOfNat (c.converted v) d.2)

/-- Writes that follow each other in a line travel in one flit (R65). -/
def joinWrites : List (PAddr × List Byte) → List (PAddr × List Byte)
  | [] => []
  | w :: ws =>
    match joinWrites ws with
    | [] => [w]
    | v :: vs =>
      if w.1.space = v.1.space ∧ v.1.addr = w.1.addr + w.2.length ∧ v.1.addr / 256 = w.1.addr / 256 then (w.1, w.2 ++ v.2) :: vs
      else w :: v :: vs

/-- A command's write: at a home of this package, in local memory, or captured in the replay buffer of a port on its way to the
member that homes it, which performs it later (R65, R66). -/
def State.bulkWrite (s : State) (ctx core owner rd : Nat) (w : PAddr × List Byte) : State :=
  match w.1.space with
  | .pkg => s.engineStore ctx core rd w.1 w.2
  | .pod =>
    if s.homePkg w.1 = s.self then s.engineStore ctx core rd w.1 w.2
    else
      let b : Bulk := { ctx, core, owner, at_ := w.1, bytes := w.2, flit := s.nextId }
      State.sendFlit { s with fabric := { s.fabric with bulk := s.fabric.bulk ++ [b] } } (s.homePkg w.1)
  | _ => s.localWrite w.1 w.2

/-- The reuse distance of a command's writes: that of the record it writes to (R179). -/
def Cmd.destRd (c : Cmd) : Nat := match c.op with | .toRec r => r.rd | _ => c.record.rd

/-- Writes some elements' values to their destinations. -/
def Cmd.put (c : Cmd) (s : State) (vs : List (Nat × Nat)) : State :=
  (joinWrites (vs.flatMap fun e => c.writes s e.1 e.2)).foldl (fun (s : State) w => s.bulkWrite c.ctx c.core c.id c.destRd w) s

/-- Some write of a command has been captured and not performed (R66). -/
def State.bulkAway (s : State) (id : Nat) : Bool := s.fabric.bulk.any fun b => b.owner == id

/-- Writes sixteen elements of a fill as one block (R399). DEDUCED (log entry 28). -/
def Cmd.putBlock (c : Cmd) (s : State) (row i : Nat) (vs : List Nat) : State :=
  let q := quadOfCore c.core
  match c.tile.bind fun x => (s.tile? q x.1).filter fun t => t.gen == x.2 with
  | some t => match t.res with
    | some r => s.putBlock q t r (row + i / r.rowlen) (i % r.rowlen / 16) (convertBlock c.srcTy r.fmt vs)
    | none => s
  | none => s

/-! ## Landing (R185, R187, R244) -/

/-- Takes a run of elements out of what is still to land. -/
def takeRun (first count : Nat) (todo : List (Nat × Nat)) : List (Nat × Nat) :=
  todo.flatMap fun r =>
    if r.1 ≤ first ∧ first + count ≤ r.1 + r.2 then
      (if r.1 < first then [(r.1, first - r.1)] else []) ++
        (if first + count < r.1 + r.2 then [(first + count, r.1 + r.2 - (first + count))] else [])
    else [r]

def inTodo (first count : Nat) (todo : List (Nat × Nat)) : Bool :=
  todo.any fun r => decide (r.1 ≤ first) && decide (first + count ≤ r.1 + r.2)

/-- The elements of a command that are still to land. -/
def Cmd.left (c : Cmd) : List Nat := c.todo.flatMap fun r => (List.range r.2).map (r.1 + ·)

/-- Those before one of them. -/
def Cmd.leftBefore (c : Cmd) (first : Nat) : List Nat := c.left.filter fun i => decide (i < first)

/-- The aligned 4-byte words that elements are written to. -/
def Cmd.wordsOf (s : State) (c : Cmd) (is : List Nat) : List (Space × Nat) :=
  is.flatMap fun i => ((c.dests s i).toOption.getD []).flatMap fun d =>
    (List.range ((d.1.addr % 4 + d.2 + 3) / 4)).map fun k => (d.1.space, d.1.addr / 4 + k)

/-- A `lode.copy` may move the elements before one apart from those from it on: they lie in different leaves, since each leaf is
read in one act (R226), or the command has stopped there (R181). -/
def Cmd.leafCut (s : State) (c : Cmd) (va : DWord) (orig : List Nat) (i : Nat) : Bool :=
  i == 0 || decide (c.record.n ≤ i) || (c.halted.isSome && c.upTo == i) || !(inTodo (i - 1) 2 c.todo) ||
    match (regionOf s c.ctx va .load).toOption with
    | some (_, r) => (match leafOf s c.ctx r (c.linAt r orig (i - 1)), leafOf s c.ctx r (c.linAt r orig i) with
      | some a, some b => a != b
      | _, _ => true)
    | none => true

/-- Every element of a record begins and ends at aligned 4-byte words. -/
def TRec.inWords (r : TRec) (size : Nat) : Bool := r.base % 4 == 0 && size % 4 == 0 && r.str.all fun k => k % 4 == 0

/-- Every element that a command writes begins and ends at aligned 4-byte words. -/
def Cmd.inWords (c : Cmd) : Bool :=
  match c.op with
  | .toLocal p => p.addr % 4 == 0 && c.dstSize % 4 == 0
  | .fromLocal _ | .bzero => c.record.inWords c.dstSize
  | .toRec r => r.inWords (sideSize c.dstTy r.es)
  | .multicast ds => c.dstSize % 4 == 0 && ds.all fun d => d.1.addr % 4 == 0
  | .lode _ _ _ (some p) => p.addr % 4 == 0 && c.record.es % 4 == 0
  | .lode _ _ _ none => c.record.inWords c.record.es
  | .bwrite _ _ vbase target _ =>
    c.record.inWords (c.record.ext.getD 0 1 * c.record.es) && (target + 4 * vbase - vbase) % 4 == 0
  | .fill _ => false
  | .bread .. => true

/-- A run may land as one: no element that is still to land, outside it, shares an aligned 4-byte word with one of it, so that every
word is written whole (R229, R244); a fill lands by blocks, and `lode.copy` by leaves (R226). -/
def Cmd.runWhole (s : State) (c : Cmd) (first count : Nat) : Bool :=
  let left := (c.todo.map (·.2)).sum
  let words :=
    if c.inWords then true
    else
      let mine := c.wordsOf s ((List.range count).map (first + ·))
      let others := c.left.filter fun i => !(decide (first ≤ i) && decide (i < first + count))
      !((c.wordsOf s others).any mine.contains)
  if count = left then true
  else match c.op with
    | .fill _ => first % 16 == 0 && count % 16 == 0 && words
    | .lode va orig .. => c.leafCut s va orig first && c.leafCut s va orig (first + count) && words
    | _ => words

/-- Where an element is read at a home: places and sizes. -/
def Cmd.sourceOf (s : State) (c : Cmd) (i : Nat) : List (PAddr × Nat) :=
  match c.op with
  | .fromLocal _ | .bzero | .bread .. | .bwrite .. => []
  | .lode va orig .. => match (regionOf s c.ctx va .load).toOption with
    | some (_, r) => (⟨.pkg, r.at_⟩ :: nodePlaces s c.ctx (pathVas s c.ctx r (c.linAt r orig i))).map fun p => (p, 256)
    | none => []
  | _ => ((elemPlace s c.ctx (c.record.elem i) c.srcSize .load).toOption).toList.map fun p => (p, c.srcSize)

/-- Where an element's traffic goes: its source and its destinations. -/
def Cmd.homesOf (s : State) (c : Cmd) (i : Nat) : List (PAddr × Nat) := c.sourceOf s i ++ (c.dests s i).toOption.getD []

/-- What a run reads at homes: the sources of its elements, or, of a multicast, the lines of them that it has not fetched yet, each once
(R68). -/
def Cmd.fetches (s : State) (c : Cmd) (is : List Nat) : List (PAddr × Nat) :=
  let all := is.flatMap (c.sourceOf s)
  match c.op with
  | .multicast _ => ((dedup (all.flatMap fun p => linesOf p.1 p.2)).filter fun l => (c.lineAt l).isNone).map fun l => (l, 256)
  | _ => all

/-- The command with the lines that a run of a multicast fetches (R68). -/
def Cmd.fetching (s : State) (c : Cmd) (is : List Nat) : Cmd :=
  match c.op with
  | .multicast _ => { c with lines := c.lines ++ (c.fetches s is).map fun p => (p.1, s.bytesAt p.1 256, s.spoiltIn p.1) }
  | _ => c

/-- The flits of a run's accesses to other members (R65). -/
def Cmd.flits (s : State) (c : Cmd) (is : List Nat) : List Nat :=
  if !s.podOn then []
  else
    let reads := (c.fetches s is).map (·.1)
    let writes := joinWrites ((is.flatMap fun i => (c.dests s i).toOption.getD []).map fun d => (d.1, List.replicate d.2 0))
    s.flitsTo (reads.filter fun p => p.space == .pod) ++
      ((writes.map (·.1)).filter fun p => p.space == .pod && s.homePkg p != s.self).map s.homePkg

/-- The accesses of a run pass the fabric, and no earlier element that is still to move goes to one of their home slices, nor is an
earlier write to a slice that they read on its way: one command's traffic to one slice keeps its order (R45, R47, R54, R64, R67). -/
def Cmd.mayTravel (s : State) (c : Cmd) (first count : Nat) : Bool :=
  let range := (List.range count).map (first + ·)
  let reads := c.fetches s range
  let homes := reads ++ range.flatMap fun i => (c.dests s i).toOption.getD []
  let before := (c.leftBefore first).flatMap (c.homesOf s)
  let remote (p : PAddr) : Bool := p.space == .pkg || p.space == .pod
  let oneSlice (p q : PAddr) : Bool := q.space == p.space && s.homePkg q == s.homePkg p && homeSlice q == homeSlice p
  homes.all (fun p => s.passes c.ctx (some c.core) p.1 p.2) && s.roomFor (c.flits s range) &&
  !(homes.any fun p => remote p.1 && before.any fun q => oneSlice p.1 q.1) &&
  !(reads.any fun p => s.fabric.bulk.any fun b => b.owner == c.id && oneSlice p.1 b.at_)

def meets (a b : PAddr × Nat) : Bool := a.1.space == b.1.space && overlap a.1.addr a.2 b.1.addr b.2 != 0

/-- Some earlier command of the queue still has to write a byte that these elements write (R180). -/
def State.blocked (s : State) (c : Cmd) (is : List Nat) : Bool :=
  let earlier := (s.core c.core).copyq.filter fun x => decide (x.id < c.id)
  if earlier.isEmpty then false
  else
    let places (c : Cmd) (is : List Nat) : List (PAddr × Nat) := is.flatMap fun i => (c.dests s i).toOption.getD []
    let mine := places c is
    earlier.any fun x =>
      let theirs := places x x.left
      mine.any fun a => theirs.any fun b => meets a b

/-- Landed elements leave the list, and count for the tile and the barriers. -/
def State.landed (s : State) (c : Cmd) (first count : Nat) : State :=
  let s := s.onCmd c.core c.id fun c => { c with todo := takeRun first count c.todo, began := true }
  let s := s.landTile (quadOfCore c.core) c.tile (c.tileBytes count)
  let s := match c.op with
    | .multicast ds => ds.foldl (fun (s : State) (d : PAddr × Option PAddr × Nat) => s.landTxb d.2.1 (count * c.dstSize)) s
    | _ => s.landTxb c.barrier (count * c.dstSize)
  s.settleQuad (quadOfCore c.core)

/-- The values of some elements, all read before any of them is written. -/
def Cmd.readAll (s : State) (c : Cmd) (is : List Nat) : List (Nat × Nat) :=
  is.filterMap fun i => (c.read s i).toOption.map fun v => (i, v)

/-- The walk-ahead TLB takes the pages of a run's elements, and that of the element after them (R180). -/
def Cmd.walkAhead (c : Cmd) (s : State) (first count : Nat) : State :=
  let note (r : TRec) (s : State) : State :=
    (dedup ((List.range (min (count + 1) (c.n - first))).map fun i => (r.elem (first + i)).toNat / 65536)).foldl (fun (s : State) v =>
      s.noteAhead c.core c.ctx (BitVec.ofNat 64 (65536 * v))) s
  match c.op with
  | .toRec r => note r (note c.record s)
  | .bread .. | .bwrite .. | .lode _ _ _ (some _) => s
  | _ => note c.record s

/-- Moves a run of elements that nothing hinders. DESIGN CHOICE (log entry 22). -/
def State.moveRun (s : State) (c : Cmd) (first count : Nat) : State :=
  let range := (List.range count).map fun i => first + i
  let reads := c.fetches s range
  let c := c.fetching s range
  let vs := c.readAll s range
  let s := c.walkAhead s first count
  let s := if c.lines.isEmpty then s else s.onCmd c.core c.id fun x => { x with lines := c.lines }
  let s := (reads.foldl (fun (s : State) p => s.noteHome p.1 p.2 c.record.rd) s).sendTo (reads.map (·.1))
  let s' := match c.op with
    | .fill row => (List.range (count / 16)).foldl (fun (s : State) b =>
        c.putBlock s row (first + 16 * b) (((vs.drop (16 * b)).take 16).map Prod.snd)) s
    | _ => c.put s vs
  s'.landed c first count

def CmdOp.isBurst : CmdOp → Bool
  | .bread .. | .bwrite .. => true
  | _ => false

/-- A run of elements lands; or the first page among them that fails halts the command, after what precedes it (R181). -/
def execBytesLand (core cmd first count : Nat) (s : State) : Host.Outcome State Fault Refusal :=
  match s.cmd? core cmd with
  | none => .next s
  | some c =>
    let range := (List.range count).map fun i => first + i
    if c.op.isBurst || count == 0 || !s.mayMove c || !inTodo first count c.todo ||
        (c.halted.isSome && decide (c.upTo < first + count)) || !c.runWhole s first count || s.blocked c range ||
        !c.mayTravel s first count then .next s
    else
      match c.stuck s (c.leftBefore first ++ range) with
      | some (i, f) =>
        if c.halted.isSome then .next s
        else
        let r := s.stopCmd c.ctx (.cmd core cmd) f.cls f.addr c.pc c.seq core c.slot
        let upTo := match c.op with | .fill _ => i / 16 * 16 | _ => i
        .next (r.2.onCmd core cmd fun c => { c with halted := some r.1, upTo := upTo, began := true })
      | none => .next (s.moveRun c first count)

/-! ## Completion (R66, R382, R389) -/

/-- What is kept of a command for `bstat`. -/
def Cmd.kept (c : Cmd) : Kept := { id := c.id, seq := c.seq, nfail := c.nfail, lowfail := c.lowfail, abandoned := c.abandoned }

/-- Of two commands, what is kept is that of the later issue (R381). -/
def Kept.later (k : Kept) : Option Kept → Option Kept
  | some old => if old.id < k.id then some k else some old
  | none => some k

/-- A command leaves its queue: its flag clears. -/
def State.finishCmd (s : State) (c : Cmd) : State :=
  let x := s.core c.core
  let s := s.setCore c.core { x with copyq := x.copyq.filter fun y => y.id != c.id }
  let s := s.onThread c.uid fun t =>
    { t with keptRead := (match c.op with | .bread .. => c.kept.later t.keptRead | _ => t.keptRead),
             keptDrop := if c.abandoned then c.kept.later t.keptDrop else t.keptDrop }
  ((s.complete c.uid c.flag).refillQueue c.core).settleQuad (quadOfCore c.core)

/-- A command whose destination is team, die or operand-buffer memory, where local and global completion coincide. -/
def CmdOp.landsLocal : CmdOp → Bool
  | .toLocal _ | .multicast _ | .fill _ | .lode _ _ _ (some _) => true
  | _ => false

/-- A command is locally complete: every byte has been captured in a replay buffer, or accepted by a home slice of the package (R66);
of a multicast, every line of its source has been fetched (R384). -/
def State.localDue (s : State) (c : Cmd) : Bool :=
  !c.localDone && (match c.op with
    | .multicast _ => (c.fetches s c.left).isEmpty && (c.stuck s c.left).isNone
    | _ => c.todo.isEmpty && !c.op.landsLocal)

def execLocalCompletion (core cmd : Nat) (s : State) : Host.Outcome State Fault Refusal :=
  match s.cmd? core cmd with
  | some c =>
    if s.localDue c then
      .next (s.onCmd core cmd fun c => { c with localDone := true })
    else .next s
  | none => .next s

/-- A `lode.copy` that fills a tile completes when the tile is ready (R439). -/
def State.tileWaits (s : State) (c : Cmd) : Bool :=
  match c.op, c.tile with
  | .lode .., some (i, gen) => !c.abandoned && (match s.tile? (quadOfCore c.core) i with
    | some t => t.gen == gen && t.state == .filling
    | none => false)
  | _, _ => false

/-- Every write has been acknowledged, and a tile that `lode.copy` fills is ready. A `bread` ends at its bank event instead. -/
def execGlobalCompletion (core cmd : Nat) (s : State) : Host.Outcome State Fault Refusal :=
  match s.cmd? core cmd with
  | some c =>
    match c.op with
    | .bread .. => .next s
    | op =>
      if c.todo.isEmpty && (c.localDone || op.landsLocal) && !s.bulkAway c.id && !s.tileWaits c then .next (s.finishCmd { c with globalDone := true })
      else .next s
  | none => .next s

/-! ## Bursts (R22, R159 to R161) -/

/-- The first burst of a command that is still to move. -/
def Cmd.headBurst (c : Cmd) : Option Nat := c.todo.head?.map (·.1)

/-- A burst leaves what is still to move: with the first one, the time of its request to the host ends (R103). -/
def Cmd.pastBurst (c : Cmd) (q : Nat) : Cmd :=
  { c with todo := takeRun q 1 c.todo, began := true, limit := if c.headBurst = some q then none else c.limit }

/-- A burst has failed: it counts, and is never delivered. -/
def State.failBurst (s : State) (c : Cmd) (q : Nat) : State :=
  s.onCmd c.core c.id fun c =>
    { c.pastBurst q with nfail := c.nfail + 1, lowfail := BitVec.ofNat 32 (min c.lowfail.toNat q) }

/-- The team of a command has executed `halt`, or is gone. -/
def State.teamHalted (s : State) (c : Cmd) : Bool := match s.team? c.team with | some t => t.halted | none => true

/-- A burst's request is with the host: it has not been delivered or written and has not failed, and nothing here holds it back. One
of a `bread` waits for room in the staging buffer of 256 bursts (R160), and one of a `bwrite` for its queue (R180). -/
def State.atHost (s : State) (c : Cmd) (q : Nat) : Bool :=
  s.mayMove c && inTodo q 1 c.todo && (match c.op with
    | .bread .. => s.teamHalted c || decide ((s.core c.core).staging.length < 256)
    | .bwrite .. => c.halted.isNone && !s.blocked c [q]
    | _ => false)

/-- The host has not answered a burst within HIF_CPL_TIMEOUT (R103). -/
def State.timedOutAtHost (s : State) (c : Cmd) (q : Nat) : Bool :=
  match c.limit with
  | some t => c.headBurst == some q && decide (t ≤ s.time)
  | none => false

/-- The bursts of a `bwrite` that are written in one act with one of them, so that every aligned word of the host's memory is written
whole (R229): those still to move, where rows do not begin and end at words. -/
def Cmd.burstMates (c : Cmd) (q : Nat) : List Nat :=
  if c.inWords then [q] else c.left

/-- A burst completes at the host: one of a `bread` waits in the staging buffer, or fails if its team has executed `halt`
(R458); one of a `bwrite` is written. DESIGN CHOICE (log entry 21). -/
def execBurstDelivered (core cmd burst : Nat) (s : State) : Host.Outcome State Fault Refusal :=
  match s.cmd? core cmd with
  | none => .next s
  | some c =>
    if !s.atHost c burst || s.timedOutAtHost c burst then .next s
    else match c.op with
      | .bread handler barg l vbase target kind =>
        let b := c.record.burst l burst
        if s.teamHalted c then .next (s.failBurst c burst)
        else match s.hostPlaces c.ctx b.1 b.2.1 vbase target kind with
        | none => .next s
        | some runs =>
          let bytes := s.runBytes runs
          let w (n : Nat) : Word := BitVec.ofNat 32 n
          let info : Ember := { bx := w b.2.2.1, bY := w b.2.2.2.1, bz := w b.2.2.2.2, bseq := w burst, bcount := w c.n,
                                blen := w b.2.1, barg, core, cmd }
          let x := s.core core
          let s := s.setCore core { x with staging := x.staging ++ [{ cmd, team := c.team, entry := handler, info, bytes }] }
          .next (s.onCmd core cmd (·.pastBurst burst))
      | .bwrite p l vbase target kind =>
        let per := c.record.rowBursts l
        let from_ (q : Nat) : PAddr := p.plus (q / per * (c.record.ext.getD 0 1 * c.record.es) + q % per * l)
        let all := c.burstMates burst
        if s.blocked c all then .next s
        else if all.any fun q => s.poisoned (from_ q) (c.record.burst l q).2.1 then
          let r := s.stopCmd c.ctx (.cmd core cmd) .eccFatal 0 c.pc c.seq core c.slot
          .next (r.2.onCmd core cmd fun c => { c with halted := some r.1, upTo := 0, began := true })
        else
          let runs (q : Nat) := s.hostPlaces c.ctx (c.record.burst l q).1 (c.record.burst l q).2.1 vbase target kind
          if all.any fun q => (runs q).isNone then .next s
          else
            let put (s' : State) (q : Nat) : State := s'.putRuns ((runs q).getD []) (s.bytesAt (from_ q) (c.record.burst l q).2.1)
            .next ((all.foldl put s).onCmd core cmd fun c => all.foldl Cmd.pastBurst c)
      | _ => .next s

def BurstFailure.cls : BurstFailure → Cls
  | .translation => .pageAbsent
  | .refused => .pagePerm
  | .poisoned => .eccFatal

/-- A burst fails at the host: one record, which stops nothing. -/
def execBurstFailed (core cmd burst : Nat) (why : BurstFailure) (s : State) : Host.Outcome State Fault Refusal :=
  match s.cmd? core cmd with
  | none => .next s
  | some c =>
    let l := match c.op with
      | .bread _ _ l _ _ _ | .bwrite _ l _ _ _ => l
      | _ => 0
    if !s.atHost c burst then .next s
    else
      .next ((s.failBurst c burst).addRec 0 c.ctx true true 0xFF (BurstFailure.cls why).code (c.record.burst l burst).1 c.pc c.seq core
        c.slot [])

/-- The bank event of a `bread`: every burst delivered or failed, and every ember of it gone. -/
def execBankEvent (core cmd : Nat) (s : State) : Host.Outcome State Fault Refusal :=
  match s.cmd? core cmd with
  | none => .next s
  | some c =>
    match c.op with
    | .bread .. =>
      if c.todo.isEmpty && c.live == 0 && !(s.core core).staging.any (fun b => b.cmd == cmd) then
        .next ((s.finishCmd { c with globalDone := true }).decOpt core c.counter)
      else .next s
    | _ => .next s

/-! ## A tile's drain (R185) -/

/-- The reads of a draining tile are done: it is empty. -/
def execDrainComplete (quad entry : Nat) (s : State) : Host.Outcome State Fault Refusal :=
  match s.tile? quad entry with
  | some t => .next ((s.setTile quad entry t.drained).settleQuad quad)
  | none => .next s

/-! ## What abandoning a command does (R279) -/

/-- An abandoned command moves no further byte: what it has not moved counts as landed, undelivered bursts as failed,
and it completes, once the writes that were captured for it have been performed (R66, R85). -/
def State.abandonCmd (s : State) (c : Cmd) : State :=
  let left := (c.todo.map (·.2)).sum
  let low := (c.todo.map (·.1)).foldl min c.lowfail.toNat
  let burst := c.op matches .bread ..
  let s := s.onCmd c.core c.id fun c =>
    { c with abandoned := true, halted := none, todo := [], began := true, localDone := true, limit := none,
             nfail := if burst then c.nfail + left else c.nfail,
             lowfail := if burst then BitVec.ofNat 32 low else c.lowfail }
  let s := s.landTile (quadOfCore c.core) c.tile (c.tileBytes left)
  let s := match c.op with
    | .multicast ds => ds.foldl (fun (s : State) (d : PAddr × Option PAddr × Nat) => s.landTxb d.2.1 (left * c.dstSize)) s
    | _ => s.landTxb c.barrier (left * c.dstSize)
  if burst || s.bulkAway c.id then s
  else match s.cmd? c.core c.id with
    | some c => s.finishCmd c
    | none => s

end Sys2Proof.Machine
end

