-- ==== Sys2Proof/Machine/Table.lean ====
section
/-! DEFINITION. Seam tables: descriptors, hash families and codes, buckets and their chains, and rows (R192 to R198, R201,
R208, R209). -/

namespace Sys2Proof.Machine

/-! ## Descriptors (R195, R196) -/

/-- A version block. -/
structure Version where
  bkt : Nat
  fam : Nat
  log2b : Nat
  lost : Nat
  deriving DecidableEq, Repr

structure Desc where
  policy : Nat
  mig : Bool
  cur : Nat
  cursor : Nat
  claim : Nat
  dir : Nat
  rows : Nat
  dim : Nat
  master : Nat
  ver0 : Version
  ver1 : Version
  pool : Nat
  pooln : Nat
  freehead : Nat
  rcen : Bool
  rcpart : Nat
  deriving DecidableEq, Repr

def Desc.now (d : Desc) : Version := if d.cur = 0 then d.ver0 else d.ver1
def Desc.next (d : Desc) : Version := if d.cur = 0 then d.ver1 else d.ver0
/-- The version that receives inserts (R194). -/
def Desc.receiving (d : Desc) : Version := if d.mig then d.next else d.now

def Version.ok (v : Version) : Bool := decide (v.bkt < 2 ^ 52) && v.bkt % 4096 == 0 && decide (v.log2b ≤ 24)

/-- The descriptor that 256 bytes hold, if it keeps to R195. -/
def descOf (bs : List Byte) : Option Desc :=
  let x := natOfBytes bs
  let f (o n : Nat) := x / 2 ^ (8 * o) % 2 ^ (8 * n)
  let ver (k : Nat) : Version :=
    { bkt := f (0x20 + 16 * k) 8, fam := bits (f (0x28 + 16 * k) 4) 10 8, log2b := bits (f (0x28 + 16 * k) 4) 4 0,
      lost := f (0x2C + 16 * k) 4 }
  let verZero (k : Nat) : Bool := bits (f (0x28 + 16 * k) 4) 31 11 == 0 && bits (f (0x28 + 16 * k) 4) 7 5 == 0
  let h := f 0 4
  let d : Desc :=
    { policy := bits h 31 30, mig := bitAt h 29, cur := bits h 28 28, cursor := bits h 24 0, claim := f 4 4, dir := f 8 8,
      rows := f 0x10 4, dim := f 0x14 4, master := f 0x18 8, ver0 := ver 0, ver1 := ver 1, pool := f 0x40 8,
      pooln := f 0x48 4, freehead := f 0x4C 4, rcen := bitAt (f 0x50 4) 7, rcpart := bits (f 0x50 4) 5 0 }
  if bits h 27 25 = 0 ∧ d.policy ≠ 3 ∧ d.cursor ≤ 2 ^ 24 ∧ d.claim ≤ 2 ^ 24 ∧ d.dir < 2 ^ 52 ∧ d.dir % 256 = 0 ∧ 1 ≤ d.rows ∧
      d.rows ≤ 0x7FFFFFFF ∧ 16 ≤ d.dim ∧ d.dim ≤ 4096 ∧ d.dim % 16 = 0 ∧ d.master < 2 ^ 52 ∧ d.ver0.ok ∧ d.ver1.ok ∧
      verZero 0 ∧ verZero 1 ∧ d.pool < 2 ^ 52 ∧ d.pool % 64 = 0 ∧ bits (f 0x50 4) 31 8 = 0 ∧ bitAt (f 0x50 4) 6 = false ∧
      x / 2 ^ (8 * 0x54) % 2 ^ (8 * 0xAC) = 0
  then some d else none

/-- The descriptor operand as an issue checks it (R420). -/
def descAt (s : State) (ctx : Nat) (va : DWord) (need : Need) : Except Flt (PAddr × TableRef × Desc) :=
  if va.toNat % 256 ≠ 0 then .error { cls := .misalign, addr := va }
  else match elemPlace s ctx va 256 need with
    | .error f => .error f
    | .ok p =>
      if s.poisoned p 256 then .error { cls := .eccFatal, addr := va }
      else
        let bs := s.bytesAt p 256
        match descOf bs with
        | none => .error { cls := .seamBadTable, addr := va }
        | some d => .ok (p, { desc := va, bytes := bs }, d)

def TableRef.parsed (r : TableRef) : Option Desc := descOf r.bytes

/-! ## Families (R192, R193) -/

/-- A hash-family register of a core that may be used: written, and its reservation still the one it names. -/
def State.family (s : State) (core k : Nat) : Option Family :=
  (Tab.find k (s.core core).fams).filter fun f =>
    match s.tile? (quadOfCore core) f.idx with
    | some t => t.gen == f.gen
    | none => false

/-- Checks a version's family for a seam instruction (R192, R196). DEDUCED (log entry 24). -/
def versionFault (s : State) (core : Nat) (d : Desc) (va : DWord) (v : Version) : Option Flt :=
  match s.family core v.fam with
  | none => some illegalState
  | some f => if f.p < v.log2b ∨ f.d ≠ d.dim then some { cls := .seamBadTable, addr := va } else none

/-- The exact sum of exact products, and whether R193 gives the bit 1: a sum of NaN, zero or more. -/
def dotBit (xs ys : List FV) : Bool :=
  let s := (xs.zip ys).foldl (fun a e => FV.add .rn a (FV.mul e.1 e.2)) (.fin false 0 0)
  s.isNan || !(s.below (.fin false 0 0))

/-- The D elements of plane i of a family. -/
def State.plane (s : State) (q : Nat) (f : Family) (i : Nat) : List FV :=
  match s.tile? q f.idx with
  | some t => (List.range f.d).map fun e => Fmt.f16.val (s.natAt ((t.place q).plus (2 * (i * f.d + e))) 2)
  | none => []

/-- Some plane of a family is poisoned. -/
def State.planesPoisoned (s : State) (q : Nat) (f : Family) : Bool :=
  match s.tile? q f.idx with
  | some t => s.poisoned (t.place q) (2 * f.p * f.d)
  | none => false

/-- hash_code (R193). -/
def State.hashCode (s : State) (q : Nat) (f : Family) (xs : List FV) : Nat :=
  ((List.range f.p).map fun i => if dotBit (s.plane q f i) xs then 2 ^ i else 0).sum

/-! ## Buckets (R197, R198, R201) -/

/-- A bucket of a version for a code. -/
def Version.bucket (v : Version) (code : Nat) : Nat := v.bkt + 64 * (code % 2 ^ v.log2b)

/-- A slot value that R197 allows. -/
def slotOk (d : Desc) (i v : Nat) : Bool :=
  v == 0xFFFFFFFF || (if d.policy == 2 && i == 15 then decide (0x80000000 ≤ v) && decide (v < 0x80000000 + d.pooln) else decide (v < d.rows))

/-- A bucket's place and slots. -/
def readBucket (s : State) (ctx : Nat) (d : Desc) (va : Nat) (need : Need) : Except Flt (PAddr × List Nat) :=
  let a : DWord := BitVec.ofNat 64 va
  match elemPlace s ctx a 64 need with
  | .error f => .error f
  | .ok p =>
    if s.poisoned p 64 then .error { cls := .eccFatal, addr := a }
    else
      let vs := (List.range 16).map fun i => s.natAt (p.plus (4 * i)) 4
      if vs.zipIdx.all fun e => slotOk d e.2 e.1 then .ok (p, vs) else .error { cls := .seamBadTable, addr := a }

/-- A chain: its buckets in order, each with its number in the pool, its place and its slots (R197). -/
def readChain (s : State) (ctx : Nat) (d : Desc) (need : Need) : Nat → Nat → Option Nat →
    Except Flt (List (Option Nat × PAddr × List Nat))
  | n, va, num =>
    match readBucket s ctx d va need with
    | .error f => .error f
    | .ok (p, vs) =>
      let link := vs.getD 15 0xFFFFFFFF
      if d.policy = 2 ∧ link ≠ 0xFFFFFFFF then
        match n with
        | 0 => .error { cls := .seamBadTable, addr := BitVec.ofNat 64 va }
        | n + 1 =>
          match readChain s ctx d need n (d.pool + 64 * (link - 0x80000000)) (some (link - 0x80000000)) with
          | .error f => .error f
          | .ok rest => .ok ((num, p, vs) :: rest)
      else .ok [(num, p, vs)]

def chainAt (s : State) (ctx : Nat) (d : Desc) (va : Nat) (need : Need) : Except Flt (List (Option Nat × PAddr × List Nat)) :=
  readChain s ctx d need d.pooln va none

/-- The id slots of a bucket. -/
def idSlots (d : Desc) (vs : List Nat) : List Nat := if d.policy = 2 then vs.take 15 else vs

/-- The ids of a chain in chain order. -/
def chainIds (d : Desc) (ch : List (Option Nat × PAddr × List Nat)) : List Nat :=
  (ch.flatMap fun b => idSlots d b.2.2).filter fun v => v != 0xFFFFFFFF

def wordsOf (vs : List Nat) : List Byte := vs.flatMap fun v => bytesOfNat v 4

/-- The lowest empty id slot of a chain. -/
def emptySlot (d : Desc) (ch : List (Option Nat × PAddr × List Nat)) : Option (PAddr × Nat) :=
  ch.findSome? fun b => ((idSlots d b.2.2).findIdx? (· == 0xFFFFFFFF)).map fun i => (b.2.1, i)

/-- The place of a free pool bucket, whose slot 0 links it (R197). -/
def poolPlace (s : State) (ctx : Nat) (d : Desc) (i : Nat) : Except Flt PAddr :=
  elemPlace s ctx (BitVec.ofNat 64 (d.pool + 64 * i)) 4 .atomic

/-- `seam.ins` of an id into the chain of a bucket: the status of R198, with the id that an eviction drops. -/
def insertId (s : State) (ctx core : Nat) (dp : PAddr) (d : Desc) (va id : Nat) : Except Flt (State × Nat) :=
  match chainAt s ctx d va .atomic with
  | .error f => .error f
  | .ok ch =>
    if (chainIds d ch).contains id then .ok (s, 1)
    else match emptySlot d ch with
      | some (p, i) => .ok (s.engineWrite ctx core (p.plus (4 * i)) (bytesOfNat id 4), 0)
      | none =>
        match d.policy, ch.getLast? with
        | 1, some b => .ok (s.engineWrite ctx core b.2.1 (wordsOf (b.2.2.drop 1 ++ [id])), 3)
        | 2, some b =>
          let free := s.natAt (dp.plus 0x4C) 4
          if free = 0xFFFFFFFF then .ok (s, 2)
          else if d.pooln ≤ free then .error { cls := .seamBadTable, addr := BitVec.ofNat 64 va }
          else match poolPlace s ctx d free with
            | .error f => .error f
            | .ok p =>
              let after := s.natAt p 4
              let s := s.engineWrite ctx core (dp.plus 0x4C) (bytesOfNat after 4)
              let s := s.engineWrite ctx core p (wordsOf (id :: List.replicate 15 0xFFFFFFFF))
              .ok (s.engineWrite ctx core (b.2.1.plus 60) (bytesOfNat (0x80000000 + free) 4), 0)
        | _, _ => .ok (s, 2)

/-- `seam.del` of an id from the chain of a bucket (R198). -/
def deleteId (s : State) (ctx core : Nat) (d : Desc) (va id : Nat) : Except Flt (State × Nat) :=
  match chainAt s ctx d va .atomic with
  | .error f => .error f
  | .ok ch =>
    match ch.findSome? fun b => ((idSlots d b.2.2).findIdx? (· == id)).map fun i => (b.2.1, b.2.2, i) with
    | none => .ok (s, 1)
    | some (p, vs, i) =>
      let vs' := if d.policy = 1 then vs.eraseIdx i ++ [0xFFFFFFFF] else vs.set i 0xFFFFFFFF
      .ok (s.engineWrite ctx core p (wordsOf vs'), 0)

/-- The buckets that one table of a probe visits, in order (R200, R201, R427). -/
def visits (d : Desc) (multi : Bool) (code oldc : Nat) : List Nat :=
  let around (v : Version) (c : Nat) : List Nat :=
    let c := c % 2 ^ v.log2b
    c :: (if multi then (List.range v.log2b).map fun i => c ^^^ 2 ^ i else [])
  if d.mig then
    ((around d.next code).map fun c => d.next.bkt + 64 * c) ++
      ((around d.now oldc).filter fun c => decide (d.cursor ≤ c)).map fun c => d.now.bkt + 64 * c
  else (around d.now code).map fun c => d.now.bkt + 64 * c

/-! ## Rows (R208, R209) -/

/-- A directory entry. -/
structure DirEntry where
  at_ : PAddr
  fmt : Ty
  home : Nat
  gen : Nat
  repl : Nat
  deriving DecidableEq, Repr

def dirFmt : Nat → Ty
  | 0 => .f16 | 1 => .kx7 | 2 => .kx4 | _ => .kx2

/-- DEDUCED (log entry 24). -/
def dirAt (s : State) (ctx : Nat) (d : Desc) (id : Nat) (need : Need) : Except Flt DirEntry :=
  match elemPlace s ctx (BitVec.ofNat 64 (d.dir + 16 * id)) 16 need with
  | .error f => .error f
  | .ok p =>
    if s.poisoned p 16 then .error { cls := .eccFatal, addr := BitVec.ofNat 64 (d.dir + 16 * id) }
    else
      let x := s.natAt p 8
      let y := s.natAt (p.plus 8) 8
      if bits x 63 58 ≠ 0 ∨ bits x 55 52 ≠ 0 then .error { cls := .seamBadTable, addr := BitVec.ofNat 64 (d.dir + 16 * id) }
      else .ok { at_ := p, fmt := dirFmt (bits x 57 56), home := bits x 51 0, gen := bits y 63 52, repl := bits y 51 0 }

/-- Bytes of 16 elements of a stored row. -/
def rowBlock (fmt : Ty) : Nat := if isKx fmt then kxBytes fmt else 32

/-- The places of the bytes of a stored row, in pieces that no page boundary cuts. -/
def rowPlaces (s : State) (ctx va n : Nat) (need : Need) : Except Flt (List PAddr) :=
  (List.range (n / 2)).foldr (fun i acc => match acc, elemPlace s ctx (BitVec.ofNat 64 (va + 2 * i)) 2 need with
    | .error f, .ok _ => .error f
    | _, .error f => .error f
    | .ok ps, .ok p => .ok (p :: ps)) (.ok [])

/-- The bytes of a stored row, as one number. -/
def readRow (s : State) (ctx : Nat) (d : Desc) (e : DirEntry) : Except Flt Nat :=
  match rowPlaces s ctx (if e.repl = 0 then e.home else e.repl) (rowBlock e.fmt * (d.dim / 16)) .load with
  | .error f => .error f
  | .ok ps => .ok (natOfBytes (ps.flatMap fun p => s.bytesAt p 2))

/-- The bytes of an aligned 4-byte word of a stored row of `n` bytes. -/
def wordLen (n k : Nat) : Nat := min 4 (n - 4 * k)

/-- An aligned 4-byte word of a stored row (R214). -/
def readRowWord (s : State) (ctx va n k : Nat) : Except Flt Nat :=
  (rowPlaces s ctx (va + 4 * k) (wordLen n k) .load).map fun ps => natOfBytes (ps.flatMap fun p => s.bytesAt p 2)

/-- The row that its words make. -/
def natOfWords (ws : List Nat) : Nat := ws.foldr (fun w acc => w + 2 ^ 32 * acc) 0

/-- The aligned 4-byte words of a row of `n` bytes, the last of which may be half a word. -/
def rowWords (n : Nat) (bs : List Byte) : List Nat := (List.range ((n + 3) / 4)).map fun k => natOfBytes ((bs.drop (4 * k)).take (wordLen n k))

/-- Block b of a stored row as 16 values. -/
def rowVals (fmt : Ty) (row b : Nat) : List FV :=
  if isKx fmt then
    let blk := row / 2 ^ (8 * kxBytes fmt * b) % 2 ^ (8 * kxBytes fmt)
    (List.range 16).map (kxElem fmt blk)
  else (List.range 16).map fun i => Fmt.f16.val (row / 2 ^ (16 * (16 * b + i)) % 2 ^ 16)

/-- Block b of a stored row in a reservation's format. A row of FP16 goes into a reservation of FP16 bit by bit. DESIGN CHOICE
(log entry 97). -/
def rowBlockIn (fmt dst : Ty) (row b : Nat) : Nat :=
  if fmt = .f16 ∧ dst = .f16 then row / 2 ^ (256 * b) % 2 ^ 256 else blockBits dst .f16 (rowVals fmt row b)

/-- A gathered row of an id in FP16 values, for hashing: a stored FP16 row as it stands (R204, R209). -/
def rowF16 (fmt : Ty) (dim row : Nat) : List FV :=
  (List.range (dim / 16)).flatMap fun b =>
    (rowVals fmt row b).map fun v => if fmt = .f16 then v else Fmt.f16.val (Fmt.f16.round .rn true v)

end Sys2Proof.Machine
end

