-- ==== Sys2Proof/Machine/Forge.lean ====
section
/-! DEFINITION. Majors 0x30 to 0x35: operand reservations, accumulator tiles, the forge's reservation table and its passes
(R128, R129, R391 to R418), and the passes of `seam.hash` (R425). -/

namespace Sys2Proof.Machine

/-! ## Elected issue (R392, R393, R417) -/

/-- An elected forge instruction: its elected thread waits for its fences, and every executing thread for its `forge.rdy` (R417). -/
def State.forge (k : Opc) (o : Op) (s : State) (body : Group → Thread → Body) : Host.Outcome State Fault Refusal :=
  s.issue k o fun g xs =>
    match elected xs with
    | none => .done s
    | some t => if heldBack [t] || xs.any (fun t => t.rdy != 0) then .stall else body g t

/-- Without a free entry, the elected thread is held alone before the instruction, which it has still to execute, and the others go on
after it (R393, R453). -/
def State.heldAlone (s : State) (g : Group) (t : Thread) (len : Nat) : Body :=
  if g.members = [t.uid] then .stall
  else .moved ((s.uncount g.core 1).splitGroup g [([t.uid], id), (g.members.filter (· != t.uid), fun h => h.past len true)])

def State.curLen (s : State) : Nat := match s.cur with | some c => c.len | none => 4

/-! ## What an entry names (R409) -/

/-- The tile entries that an entry consumes, and whether with release. -/
def ForgeOp.consumed : ForgeOp → List (Nat × Bool)
  | .mma _ _ _ _ _ aidx bidx midx _ _ mrel brel arel _ sparse _ =>
    [(aidx, arel), (bidx, brel)] ++ (if sparse then [(midx, mrel)] else [])
  | .smx .. => []
  | .flush .. => []
  | .hash xidx _ _ _ cur next _ xrel =>
    (xidx, xrel) :: (cur.idx, false) :: (match next with | some f => [(f.idx, false)] | none => [])

/-- The tile entry that an entry fills, with the bytes. -/
def ForgeOp.filled : ForgeOp → Option (Nat × Nat)
  | .smx m n _ _ _ pidx _ => some (pidx, 2 * m * n)
  | _ => none

def ForgeOp.accs : ForgeOp → List Nat
  | .mma _ _ _ _ acc .. => [acc]
  | .smx _ _ _ sacc oacc _ _ => [sacc, oacc]
  | .flush acc _ _ => [acc]
  | .hash .. => []

/-- The accumulator tile that an entry writes. -/
def ForgeOp.written : ForgeOp → Option Nat
  | .mma _ _ _ _ acc .. => some acc
  | .smx _ _ _ _ oacc _ _ => some oacc
  | _ => none

def ForgeOp.names (op : ForgeOp) (idx : Nat) : Bool :=
  (op.consumed.any fun c => c.1 == idx) || (match op.filled with | some f => f.1 == idx | none => false)

def ForgeOp.hashes : ForgeOp → Bool
  | .hash .. => true
  | _ => false

def SeamOp.tilesOf : SeamOp → List Nat
  | .probe _ _ o => [o]
  | .gather _ l r _ _ => [l, r]
  | .publish _ i => [i]
  | _ => []

/-- The names of the incomplete forge entries, seam entries and commands that name a tile entry (R400). -/
def State.naming (s : State) (q idx : Nat) : List Nat :=
  ((s.quad q).entries.filter fun e => e.op.names idx).map (·.id) ++
    ((s.quad q).seams.filter fun e => e.op.tilesOf.contains idx).map (·.id) ++
    (List.range 4).flatMap fun k => ((s.core (4 * q + k)).copyq.filter fun c => match c.tile with
      | some x => x.1 == idx
      | none => false).map (·.id)

/-! ## Reservations (R397 to R400) -/

def execOprel (o : Op) (s : State) : Host.Outcome State Fault Refusal :=
  s.forge .oprel o fun g t =>
    let idx := o.d.toNat
    let q := quadOfCore g.core
    match (s.tileOf g idx).bind (·.res) with
    | none => .stop [(t, illegalState)]
    | some _ =>
      let r : Release := .opres t.uid t.team idx g.flagNow (s.naming q idx)
      let x := s.quad q
      .done (((s.charge [t.uid] g.flagNow false).setQuad q { x with releases := x.releases ++ [r] }).settleQuad q)

/-- The lowest free range of 256-byte units of a quad's operand buffer, an old range of the entry counting as free. -/
def State.freeRange (s : State) (q idx len : Nat) : Option Nat :=
  let used := (s.quad q).tiles.filterMap fun e => if e.2.opbuf && e.1 != idx then some (e.2.base, e.2.len) else none
  let fits (b : Nat) : Bool := decide (b + len ≤ 2 ^ 20) && used.all fun u => overlap b len u.1 u.2 == 0
  minBy (fun a b => decide (a ≤ b)) ((0 :: used.map fun u => u.1 + u.2).filter fits)

def execOpres (o : Op) (s : State) : Host.Outcome State Fault Refusal :=
  s.forge .opres o fun g t =>
    let idx := o.d.toNat
    let q := quadOfCore g.core
    match (if s.mayDefine g idx then geometry o.ty (t.reg o.a.toNat).toNat else none) with
    | none => .stop [(t, illegalState)]
    | some r => match s.freeRange q idx r.length with
      | none => .done (s.onThread t.uid fun t => t.setPred o.aux.toNat false)
      | some base =>
        .done ((s.defineTile g t idx true 0 base r.length (some r)).onThread t.uid fun t => t.setPred o.aux.toNat true)

def execOpresTm (o : Op) (s : State) : Host.Outcome State Fault Refusal :=
  s.forge .opresTm o fun g t =>
    let idx := o.d.toNat
    match (if s.mayDefine g idx then geometry o.ty (t.reg o.a.toNat).toNat else none) with
    | none => .stop [(t, illegalState)]
    | some r => match s.tileRange g t (t.reg o.b.toNat) r.length with
      | .error f => .stop [(t, f)]
      | .ok p => .done (s.defineTile g t idx false (teamCore p % 4) p.addr r.length (some r))

/-- The command of `opres.S.fill` (R399). -/
def fillCmd (s : State) (o : Op) (g : Group) (t : Thread) : Except Flt Cmd :=
  let idx := o.d.toNat
  match s.slotRec g.core o.b.toNat, s.tileOf g idx with
  | some r, some e =>
    match e.res with
    | none => .error illegalState
    | some rr =>
      let row := (t.reg o.a.toNat).toNat % 2 ^ 13
      (firstOf [refuseIf (r.es != o.ty.bits / 8 || r.n % rr.rowlen != 0 || decide (rr.rows < row + r.n / rr.rowlen) ||
                  (o.ty.isInt && isKx rr.fmt)), windowFault s g.ctx r]).map fun _ =>
        let c : Cmd := { newCmd (.fill row) r r.n with
          srcTy := o.ty, tile := some (idx, e.gen), tbytes := 2 * elemBits rr.fmt + (if isKx rr.fmt then 2 else 0) }
        c
  | _, _ => .error illegalState

def execOpresFill (o : Op) (s : State) : Host.Outcome State Fault Refusal :=
  match s.cur.bind fun c => s.group? c.gid with
  | some g => if (s.executing g o).all (fun t => t.rdy == 0) then s.bulkElected .opresFill o (some o.d.toNat) (fillCmd s o)
              else s.issue .opresFill o fun _ _ => .stall
  | none => s.bulkElected .opresFill o (some o.d.toNat) (fillCmd s o)

/-! ## Accumulator tiles (R402, R403) -/

def execAccget (o : Op) (s : State) : Host.Outcome State Fault Refusal :=
  s.forge .accget o fun g t =>
    let n := (if o.len.isExt then (o.imm.extractLsb' 0 5).toNat else o.b.toNat) + 1
    let pd := if o.len.isExt then o.aux.toNat else o.a.toNat
    let q := quadOfCore g.core
    if t.acct != 0 then .stop [(t, illegalState)]
    else
      let step := match s.team? t.team with | some u => u.step | none => 0
      let w : Waiter := { uid := t.uid, gid := g.gid, core := g.core, team := t.team, launchSeq := step, posted := s.clock,
                          slot := t.slot, want := n, dreg := o.d.toNat, pd, flag := g.flagNow }
      let s' := (s.charge [t.uid] g.flagNow false).onThread t.uid fun t => { t with acct := t.acct + 1 }
      let x := s'.quad q
      let s' := (s'.setQuad q { x with waiters := x.waiters ++ [w] }).judgeWaiters q (x.waiters.length + 2)
      if s.entryRoom g.core || !((s'.quad q).waiters.any fun v => v.uid == t.uid) then .done s'
      else s.heldAlone g t s.curLen

def execAccrel (o : Op) (s : State) : Host.Outcome State Fault Refusal :=
  s.forge .accrel o fun g t =>
    let mask := t.reg o.a.toNat
    let q := quadOfCore g.core
    let named := (List.range 32).filter fun i => bitAt mask.toNat i
    if !(named.all fun i => (s.heldAcc q t.team i).isSome) then .stop [(t, illegalState)]
    else
      let before := ((s.quad q).entries.filter fun e => e.op.accs.any fun a => named.contains a).map (·.id)
      let r : Release := .acc t.uid t.team mask g.flagNow before
      let s := named.foldl (fun s i => s.onAcc q i fun a => { a with going := true }) (s.charge [t.uid] g.flagNow false)
      let x := s.quad q
      .done ((s.setQuad q { x with releases := x.releases ++ [r] }).settleQuad q)

/-! ## Direct access (R413, R414) DEDUCED (log entry 63). -/

def Acc.elem (a : Acc) (e : Nat) : Nat := (Tab.get 0 e a.elems).toNat
/-- DEDUCED (log entry 63). -/
def Acc.side (a : Acc) (i : Nat) : Nat × Nat := ((Tab.get 0xFF800000 i a.maxs).toNat, (Tab.get 0 i a.sums).toNat)

def putWord (dflt : Word) (k v : Nat) (t : Tab Word) : Tab Word :=
  let w : Word := BitVec.ofNat 32 v
  if w = dflt then Tab.del k t else Tab.set k w t

def Acc.setElem (a : Acc) (e v : Nat) : Acc := { a with elems := putWord 0 e v a.elems }
def Acc.setSide (a : Acc) (i mx sum : Nat) : Acc :=
  { a with maxs := putWord 0xFF800000 i mx a.maxs, sums := putWord 0 i sum a.sums }

/-- Sets every element from its number and its value. -/
def Acc.mapElems (a : Acc) (f : Nat → Nat → Nat) : Acc :=
  { a with elems := (List.range 16384).filterMap fun e =>
      let w : Word := BitVec.ofNat 32 (f e (a.elem e))
      if w = 0 then none else some (e, w) }

/-- The handle of a tile operand (R391). -/
def Op.handle (o : Op) (f : BitVec 9) (t : Thread) : Nat := if o.timm then f.toNat % 32 else (t.reg f.toNat).toNat % 32

/-- A direct access by each executing thread: the tile is held, and `n` elements from `e` on lie in it. -/
def State.direct (k : Opc) (o : Op) (s : State) (tile : Thread → Nat) (fault : State → Nat → Thread → Option Flt)
    (act : State → Nat → Nat → Acc → Thread → State) : Host.Outcome State Fault Refusal :=
  s.issue k o fun g xs =>
    let q := quadOfCore g.core
    if heldBack xs || xs.any (fun t => t.rdy != 0) then .stall
    else Body.of (inOrder s xs fun s t =>
      match s.heldAcc q t.team (tile t) with
      | none => .error illegalState
      | some a => match fault s q t with
        | none => .ok (act s q (tile t) a t)
        | some f => .error f)

/-- Element of a direct access. -/
def elemOf (o : Op) (t : Thread) : Nat := (t.reg o.a.toNat).toNat % 2 ^ 14
def rowOf (o : Op) (t : Thread) : Nat := (t.reg o.a.toNat).toNat % 2 ^ 7

/-- An element as a thread reads it: as it stands, or as it stood before the latest forge write, while the thread has waited on
nothing since (R246). DESIGN CHOICE (log entry 72). -/
def State.accSeen (s : State) (a : Acc) (t : Thread) (e : Nat) : Word :=
  if t.seen ≤ a.wrote ∧ t.uid ≤ a.wrote ∧ Config.freeBit (s.free * 2 ^ 64 + 2 ^ 60 + 128 * e + t.lane) = true then Tab.get 0 e a.prev
  else BitVec.ofNat 32 (a.elem e)

/-- DESIGN CHOICE (log entry 10). -/
def execAccrd (o : Op) (s : State) : Host.Outcome State Fault Refusal :=
  s.direct .accrd o (Op.handle o o.b)
    (fun s q t => if 16384 < elemOf o t + o.accCount then some illegalState
      else if s.poisoned ⟨.acc q, 65536 * Op.handle o o.b t + 4 * elemOf o t⟩ (4 * o.accCount) then some { cls := .eccFatal, addr := 0 }
      else none) fun s q i a t =>
    (s.onThread t.uid fun u => u.setRegs o.d.toNat
      ((List.range o.accCount).map fun k => s.accSeen a t (elemOf o t + k))).onAcc q i fun a => a.noteLast 6 s.ns

/-- A forge instruction that writes a tile is incomplete. -/
def State.accBusy (s : State) (q i : Nat) : Bool := (s.quad q).entries.any fun e => e.passes != 0 && e.op.written == some i

/-- An element of a tile is written directly; while a forge instruction on the tile is incomplete, its earlier value is kept
(R415). -/
def Acc.putDirect (a : Acc) (busy : Bool) (e v : Nat) : Acc :=
  let a := if busy && (Tab.find e a.direct).isNone then { a with direct := Tab.set e (BitVec.ofNat 32 (a.elem e)) a.direct } else a
  a.setElem e v

def execAccwr (o : Op) (s : State) : Host.Outcome State Fault Refusal :=
  s.direct .accwr o (Op.handle o o.d) (fun _ _ t => refuseIf (decide (16384 < elemOf o t + o.accCount))) fun s q i _ t =>
    (s.lift ⟨.acc q, 65536 * i + 4 * elemOf o t⟩ (4 * o.accCount)).onAcc q i fun a =>
      (List.range o.accCount).foldl (fun a k => a.putDirect (s.accBusy q i) (elemOf o t + k) (t.reg (o.b.toNat + k)).toNat) a

/-- It is no `accrd` of event 6 (R291). DEDUCED (log entry 30). -/
def execAccrdSide (o : Op) (s : State) : Host.Outcome State Fault Refusal :=
  s.direct .accrdSide o (Op.handle o o.b) (fun _ _ _ => none) fun s _ _ a t =>
    s.onThread t.uid fun t => t.setRegs o.d.toNat
      [BitVec.ofNat 32 (a.side (rowOf o t)).1, BitVec.ofNat 32 (a.side (rowOf o t)).2]

def execAccwrSide (o : Op) (s : State) : Host.Outcome State Fault Refusal :=
  s.direct .accwrSide o (Op.handle o o.d) (fun _ _ _ => none) fun s q i _ t =>
    s.onAcc q i fun a => a.setSide (rowOf o t) (t.reg o.b.toNat).toNat (t.reg (o.b.toNat + 1)).toNat

/-- Every element of a tile is written directly (R414, R415). -/
def Acc.scaleDirect (a : Acc) (busy : Bool) (f : Nat → Nat → Nat) : Acc :=
  let kept := if busy then (List.range 16384).map fun e => (e, (Tab.find e a.direct).getD (BitVec.ofNat 32 (a.elem e))) else a.direct
  { a.mapElems f with direct := kept }

def mulF32 (a b : Nat) : Nat := Fmt.f32.round .rn false (FV.mul (Fmt.f32.val a) (Fmt.f32.val b))
def divF32 (a b : Nat) : Nat := Fmt.f32.round .rn false (FV.div (Fmt.f32.val a) (Fmt.f32.val b))

def execAccscale (o : Op) (s : State) : Host.Outcome State Fault Refusal :=
  s.forge .accscale o fun g t =>
    let q := quadOfCore g.core
    let i := Op.handle o o.d t
    match s.heldAcc q t.team i with
    | none => .stop [(t, illegalState)]
    | some _ => if s.poisoned ⟨.acc q, 65536 * i⟩ 65536 then .stop [(t, { cls := .eccFatal, addr := 0 })]
      else .done (s.onAcc q i fun a => a.scaleDirect (s.accBusy q i) fun _ x => mulF32 x (o.srcB32 t).toNat)

def execAccscaleNorm (o : Op) (s : State) : Host.Outcome State Fault Refusal :=
  s.forge .accscaleNorm o fun g t =>
    let q := quadOfCore g.core
    let i := Op.handle o o.d t
    match s.heldAcc q t.team i with
    | none => .stop [(t, illegalState)]
    | some _ => if s.poisoned ⟨.acc q, 65536 * i⟩ 65536 then .stop [(t, { cls := .eccFatal, addr := 0 })]
      else .done (s.onAcc q i fun a => a.scaleDirect (s.accBusy q i) fun e x => divF32 x (a.side (e / 128)).2)

/-! ## Posting (R393, R394, R404, R405, R411, R416) -/

/-- KP of a format (R408). -/
def kpOf : Ty → Nat
  | .f16 | .bf16 => 64
  | .kx4 | .i4 | .w4 => 256
  | .kx2 => 512
  | _ => 128

/-- Every operand tile of an entry is ready. -/
def State.tilesReady (s : State) (q : Nat) (op : ForgeOp) : Bool :=
  op.consumed.all fun c => match s.tile? q c.1 with | some t => t.state == .ready | none => false

/-- An instruction takes an entry, or its elected thread is held alone. -/
def State.post (s : State) (g : Group) (t : Thread) (op : ForgeOp) (counter : Option Nat) (passes : Nat) : Body :=
  if !s.entryRoom g.core then s.heldAlone g t s.curLen
  else
    let q := quadOfCore g.core
    let prio := match s.launchOf t.team with | some l => l.prio | none => 0
    let wait := !s.tilesReady q op
    let e : Entry :=
      { id := s.nextId, core := g.core, ctx := g.ctx, team := t.team, uid := t.uid, slot := t.slot, prio, posted := s.clock,
        pc := g.pc, seq := t.cmdseq, flag := g.flagNow, op, counter, passes, started := false, eff := prio, idle := s.clock,
        opWait := wait, readyAt := none, rdyAt := t.rdyAt, turn := s.free, part := [], halted := none, flushed := 0 }
    let s := { s with nextId := s.nextId + 1 }.charge [t.uid] g.flagNow true
    let x := s.quad q
    let s := s.setQuad q { x with entries := x.entries ++ [e] }
    .done (if wait then op.accs.foldl (fun s i => s.onAcc q i fun a => a.noteFirst 2 s.ns) s else s)

/-- The parameter block of an elected instruction, as one number (R394, R422). -/
def State.paramBlock (s : State) (t : Thread) (va : Word) (n : Nat) : Except Flt Nat :=
  match s.teamPlace t va n 32 with
  | .error e => .error { cls := e, addr := va.setWidth 64 }
  | .ok p => if s.poisoned p n then .error { cls := .eccFatal, addr := va.setWidth 64 } else .ok (s.natAt p n)

/-- Field of n bytes at an offset. -/
def fieldAt (x o n : Nat) : Nat := x / 2 ^ (8 * o) % 2 ^ (8 * n)

def counterOf (flags : Nat) : Option Nat := if bitAt flags 7 then some (bits flags 15 8) else none

/-- A tile entry with its reservation record. -/
def State.resOf (s : State) (g : Group) (idx : Nat) : Option (Tile × ResRec) :=
  (s.tileOf g idx).bind fun t => t.res.map fun r => (t, r)

/-- The operation of an `mma` block, with the reservations it names, if it passes R405. -/
def mmaOf (s : State) (g : Group) (t : Thread) (sparse : Bool) (x : Nat) : Option (ForgeOp × Nat) :=
  let m := fieldAt x 0 2
  let n := fieldAt x 2 2
  let k := fieldAt x 4 2
  let koff := fieldAt x 6 2
  let acc := fieldAt x 8 1
  let aidx := fieldAt x 9 1
  let bidx := fieldAt x 0xA 1
  let midx := fieldAt x 0xB 1
  let arow := fieldAt x 0xC 2
  let brow := fieldAt x 0xE 2
  let fl := fieldAt x 0x10 4
  let one4 := sparse && bits fl 1 0 == 1
  let span := koff + k
  let fields := decide (1 ≤ m ∧ m ≤ 128 ∧ 1 ≤ n ∧ n ≤ 128 ∧ 1 ≤ k ∧ k ≤ 4096) && acc < 32 && aidx < 64 && bidx < 64 && midx < 64 &&
    bits fl 31 16 == 0 && !bitAt fl 6 && fieldAt x 0x14 12 == 0 &&
    (if sparse then k % 4 == 0 && koff % 64 == 0 && decide (bits fl 1 0 ≤ 1)
     else koff % 16 == 0 && midx == 0 && !bitAt fl 5 && bits fl 1 0 == 0)
  if !fields || (s.heldAcc (quadOfCore g.core) t.team acc).isNone then none
  else match s.resOf g aidx, s.resOf g bidx with
    | some (_, ra), some (_, rb) =>
      let depthA := if sparse then (if one4 then span / 4 else span / 2) else span
      let metaOk := if !sparse then true else match s.resOf g midx with
        | some (_, rm) => rm.fmt == .w8 && decide (arow + m ≤ rm.rows) &&
            decide ((if one4 then (span + 15) / 16 else (span + 7) / 8) ≤ rm.rowlen)
        | none => false
      if arow + m ≤ ra.rows ∧ brow + n ≤ rb.rows ∧ span ≤ rb.rowlen ∧ depthA ≤ ra.rowlen ∧ metaOk then
        let depth := min (kpOf ra.fmt) (kpOf rb.fmt) * (if sparse then (if one4 then 4 else 2) else 1)
        some (.mma m n k koff acc aidx bidx midx arow brow (bitAt fl 5) (bitAt fl 4) (bitAt fl 3) (bitAt fl 2) sparse one4,
              (k + depth - 1) / depth)
      else none
    | _, _ => none

def State.mma (k : Opc) (o : Op) (s : State) (sparse : Bool) : Host.Outcome State Fault Refusal :=
  s.forge k o fun g t =>
    match s.paramBlock t (o.laddr t) 32 with
    | .error f => .stop [(t, f)]
    | .ok x => match mmaOf s g t sparse x with
      | none => .stop [(t, illegalState)]
      | some (op, passes) => s.post g t op (counterOf (fieldAt x 0x10 4)) passes

def execMma (o : Op) (s : State) : Host.Outcome State Fault Refusal := s.mma .mma o false

def execMmaSp (o : Op) (s : State) : Host.Outcome State Fault Refusal := s.mma .mmaSp o true

/-- The operation of an `smx` block, if it passes R411. -/
def smxOf (s : State) (g : Group) (t : Thread) (x : Nat) : Option ForgeOp :=
  let m := fieldAt x 0 2
  let n := fieldAt x 2 2
  let sacc := fieldAt x 8 1
  let oacc := fieldAt x 9 1
  let pidx := fieldAt x 0xA 1
  let prow := fieldAt x 0xC 2
  let fl := fieldAt x 0x10 4
  let q := quadOfCore g.core
  let fields := decide (1 ≤ m ∧ m ≤ 128 ∧ 1 ≤ n ∧ n ≤ 128) && sacc < 32 && oacc < 32 && pidx < 64 && fieldAt x 0xB 1 == 0 &&
    fieldAt x 0xE 2 == 0 && bits fl 31 16 == 0 && bits fl 6 0 == 0 && fieldAt x 0x14 12 == 0
  match s.resOf g pidx with
  | some (_, r) =>
    if fields && sacc != oacc && (s.heldAcc q t.team sacc).isSome && (s.heldAcc q t.team oacc).isSome && r.fmt == .f16 &&
        decide (prow + m ≤ r.rows) && decide (n ≤ r.rowlen)
    then some (.smx m n (BitVec.ofNat 32 (fieldAt x 4 4)) sacc oacc pidx prow) else none
  | none => none

def execSmx (o : Op) (s : State) : Host.Outcome State Fault Refusal :=
  s.forge .smx o fun g t =>
    match s.paramBlock t (o.laddr t) 32 with
    | .error f => .stop [(t, f)]
    | .ok x => match smxOf s g t x with
      | none => .stop [(t, illegalState)]
      | some op => s.post g t op (counterOf (fieldAt x 0x10 4)) 1

def State.flushOf (k : Opc) (o : Op) (s : State) (add : Bool) : Host.Outcome State Fault Refusal :=
  s.forge k o fun g t =>
    let q := quadOfCore g.core
    let i := Op.handle o o.d t
    match s.slotRec g.core o.b.toNat with
    | none => .stop [(t, illegalState)]
    | some r =>
      if (s.heldAcc q t.team i).isNone || r.es != 4 || decide (128 < r.ext.getD 0 1) || decide (128 < r.ext.getD 1 1) ||
          r.ext.getD 2 1 != 1 || r.ext.getD 3 1 != 1 then .stop [(t, illegalState)]
      else match windowFault s g.ctx r with
        | some f => .stop [(t, f)]
        | none => s.post g t (.flush i r add) none 1

def execAccflush (o : Op) (s : State) : Host.Outcome State Fault Refusal := s.flushOf .accflush o true

def execAccflushSt (o : Op) (s : State) : Host.Outcome State Fault Refusal := s.flushOf .accflushSt o false

/-- It completes when the thread's earlier stores have been performed; its forge instructions wait for it (R417). -/
def execForgeRdy (o : Op) (s : State) : Host.Outcome State Fault Refusal :=
  s.issue .forgeRdy o fun g xs =>
    if heldBack xs || xs.any (fun t => t.rdy != 0) then .stall
    else
      let step (s : State) (t : Thread) : State :=
        let reqs := ((s.requestsOf t.uid).filter fun p => !p.op.isLoad).map (·.id) ++
          (s.lodes.filter fun q => q.uid == t.uid && (match q.kind with | .store .. => true | _ => false)).map (·.op)
        let late : Late := .rdy t.uid g.flagNow reqs
        let s := s.onThread t.uid fun t => { t.holdFlag g.flagNow with rdy := t.rdy + 1, rdyAt := s.free }
        { s with late := s.late ++ [late] }
      .done (xs.foldl step s).settleFences

/-! ## Eligibility and the grant (R129, R409) -/

/-- An earlier-posted entry on one of the tiles has not ended its last pass. -/
def earlierOn (op : ForgeOp) (id : Nat) : List Entry → Bool
  | [] => false
  | e :: es => e.id != id && ((e.passes != 0 && e.op.accs.any fun a => op.accs.contains a) || earlierOn op id es)

def State.eligible (s : State) (q : Nat) (e : Entry) : Bool :=
  e.passes != 0 && e.halted.isNone && (e.started || !s.ctxStopped e.ctx) && !s.underTest ⟨.quad, q⟩ &&
  !s.resting e.core && !s.failed &&
  (e.started || (s.tilesReady q e.op && (match e.op.filled with
    | some f => (match s.tile? q f.1 with | some t => t.canFill | none => false)
    | none => true))) &&
  (e.op.accs.all fun i => match Tab.find i (s.quad q).accs with | some a => a.team == e.team | none => false) &&
  !earlierOn e.op e.id (s.quad q).entries

def Entry.before (a b : Entry) : Bool :=
  decide (b.eff < a.eff) || (a.eff == b.eff && (decide (a.posted < b.posted) || (a.posted == b.posted &&
    (decide (a.core < b.core) || (a.core == b.core && decide (a.slot ≤ b.slot))))))

def State.onEntry (s : State) (q id : Nat) (f : Entry → Entry) : State :=
  let x := s.quad q
  s.setQuad q { x with entries := x.entries.map fun e => if e.id == id then f e else e }

/-- An event of the span at a given moment, of which the earliest is kept, or the latest. Nothing before the grant is in the span
(R291). -/
def Acc.noteMin (a : Acc) (i x : Nat) : Acc :=
  if x < a.since then a else a.noteLast i (min x ((a.eventTime i).getD x))
def Acc.noteMax (a : Acc) (i x : Nat) : Acc :=
  if x < a.since then a else a.noteLast i (max x ((a.eventTime i).getD x))

/-- The fills of a consumed operand tile, for the lamp record (R291). -/
def Acc.noteOperand (a : Acc) (t : Tile) : Acc :=
  let a := match t.fillStart with
    | some x => a.noteMin 0 x
    | none => a
  match t.fillEnd with
  | some x => a.noteMax 1 x
  | none => a

/-- The first grant: the tiles are consumed, and a fill gains its PEND (R185, R409). -/
def State.firstGrant (s : State) (q : Nat) (e : Entry) : State :=
  let now := s.ns
  let note (a : Acc) : Acc :=
    let a := e.op.consumed.foldl (fun a c => match s.tile? q c.1 with | some t => a.noteOperand t | none => a) a
    let a := if e.opWait then a.noteMax 3 (e.readyAt.getD now) else a
    if e.op matches .flush .. then a else a.noteFirst 4 now
  let s := e.op.accs.foldl (fun s i => s.onAcc q i note) s
  let s := e.op.consumed.foldl (fun s c => match s.tile? q c.1 with
    | some t => s.setTile q c.1 (t.consume e.id c.2)
    | none => s) s
  let s := match e.op.filled with
    | some f => (match s.tile? q f.1 with | some t => s.setTile q f.1 (t.fill f.2 now) | none => s)
    | none => s
  s.onEntry q e.id fun e => { e with started := true, turn := s.free }

/-- A pass lasts 64 cycles (R408). -/
def State.grant (s : State) (q : Nat) : State :=
  match minBy Entry.before ((s.quad q).entries.filter fun e => s.eligible q e) with
  | none => s
  | some e =>
    let s := if e.started then s else s.firstGrant q e
    let x := s.quad q
    s.setQuad q { x with pass := some (e.id, s.clock + 64) }

/-! ## What a pass does (R406, R407, R412, R416, R425) -/

/-- The exact product of two elements: that of two integers is an integer, which has one zero (R264). DEDUCED (log entry 29).
A zero product of an integer with a float or kx element has the exclusive or of the two signs. DESIGN CHOICE (log entry 96). -/
def elemProd (ints : Bool) (a b : FV) : FV :=
  match FV.mul a b with
  | .fin neg m e => .fin (neg && !(ints && m == 0)) m e
  | v => v

/-- One chunk's exact sum and its rounding (R265). -/
def chunkSum (ints : Bool) (acc : Nat) (ps : List (FV × FV)) : Nat :=
  Fmt.f32.round .rn false (ps.foldl (fun a p => FV.add .rn a (elemProd ints p.1 p.2)) (Fmt.f32.val acc))

/-- The kept elements of a group of four positions: index in the row of A, and position (R407). -/
def keptOf (one4 : Bool) (metaByte : Nat → Nat) (grp : Nat) : List (Nat × Nat) :=
  if one4 then [(grp, 4 * grp + bits (metaByte (grp / 4)) (2 * (grp % 4) + 1) (2 * (grp % 4)))]
  else
    let nib := bits (metaByte (grp / 2)) (4 * (grp % 2) + 3) (4 * (grp % 2))
    [(2 * grp, 4 * grp + bits nib 1 0), (2 * grp + 1, 4 * grp + bits nib 3 2)]

/-- An operand of a pass: its tile and reservation. -/
abbrev Operand := Tile × ResRec

/-- The metadata byte of a row of A. -/
def State.metaByte (s : State) (q : Nat) (mt : Operand) (row k : Nat) : Nat := s.natAt ((mt.1.place q).plus (row * mt.2.pitch + k)) 1

/-- The sums of one element over the chunks of positions lo to hi − 1. -/
def elemPass (s : State) (q : Nat) (a b : Operand) (mops : Option Operand) (one4 : Bool) (arow brow i j lo hi acc : Nat) : Nat :=
  let ea (k : Nat) : FV := s.resElem q a.1 a.2 (arow + i) k
  let eb (k : Nat) : FV := s.resElem q b.1 b.2 (brow + j) k
  let ints := a.2.fmt.isInt && b.2.fmt.isInt
  (List.range ((hi - lo + 15) / 16)).foldl (fun acc c =>
    let from_ := lo + 16 * c
    let n := min 16 (hi - from_)
    match mops with
    | none => chunkSum ints acc ((List.range n).map fun k => (ea (from_ + k), eb (from_ + k)))
    | some mt =>
      let kept := (List.range ((n + 3) / 4)).flatMap fun g => keptOf one4 (s.metaByte q mt (arow + i)) (from_ / 4 + g)
      chunkSum ints acc ((kept.filter fun k => decide (k.2 < from_ + n)).map fun k => (ea k.1, eb k.2))) acc

/-- A tile entry with its record as a pass finds it. -/
def State.operand (s : State) (q idx : Nat) : Option Operand := (s.tile? q idx).bind fun t => t.res.map fun r => (t, r)

/-- A command stop of an entry (R273). DEDUCED (log entry 27). -/
def State.haltEntry (s : State) (q : Nat) (e : Entry) (f : Flt) : State :=
  let r := s.stopCmd e.ctx (.entry q e.id) f.cls f.addr e.pc e.seq e.core e.slot
  r.2.onEntry q e.id fun e => { e with halted := some r.1 }

/-- An entry completes: it is free, its consumed tiles are read, its counter and its flag (R410). -/
def State.completeEntry (s : State) (q : Nat) (e : Entry) : State :=
  let x := s.quad q
  let s := s.setQuad q { x with entries := x.entries.filter fun y => y.id != e.id }
  let s := e.op.consumed.foldl (fun s c => s.readDone q c.1 e.id) s
  let s : State := match e.op.filled with
    | some f => (match s.tile? q f.1 with
      | some t => if e.started && t.state == TileState.filling then s.setTile q f.1 (t.land f.2 s.ns) else s
      | none => s)
    | none => s
  (((s.decOpt e.core e.counter).complete e.uid e.flag).settleQuad q)

/-- The operands as a pass reads them: a word that a thread wrote since the `forge.rdy` before the instruction, or that an engine
wrote since its first grant, is old or new, word by word (R246, R409). A `seam.hash` sees its own thread's stores (R211).
DESIGN CHOICE (log entry 72). -/
def State.forgeView (s : State) (q : Nat) (e : Entry) : State :=
  let open_ (w : OldWord) : Bool := (match w.at_.space with | .team c => quadOfCore c == q | .opbuf k => k == q | _ => false) &&
    (match w.writer with
      | some u => decide (e.rdyAt ≤ w.turn) && !(u == e.uid && e.op.hashes)
      | none => decide (e.turn ≤ w.turn))
  (s.oldWords.filter open_).zipIdx.foldl (fun (s : State) w =>
    if Config.freeBit (s.free * 2 ^ 64 + 2 ^ 61 + w.2) then s.putNat w.1.at_ 4 w.1.word else s) s

/-- An element's value before a forge instruction: where a direct write meets the instruction, the one before that write or the
one it wrote (R415). -/
def State.accIn (s : State) (a : Acc) (e : Nat) : Nat :=
  match Tab.find e a.direct with
  | some old => if Config.freeBit (s.free * 2 ^ 64 + 2 ^ 60 + 2 * e) then old.toNat else a.elem e
  | none => a.elem e

/-- An element's value after it: the result, or the direct write's value (R415). -/
def State.accOut (s : State) (a : Acc) (e res : Nat) : Nat :=
  if (Tab.find e a.direct).isSome && Config.freeBit (s.free * 2 ^ 64 + 2 ^ 60 + 2 * e + 1) then a.elem e else res

/-- A forge write of a tile by an entry: what `accrd` may still return, when it was, and the instruction (R246, R291). -/
def Acc.rewritten (old : Acc) (now : Nat) (e : Entry) (a : Acc) : Acc :=
  { a with prev := old.elems, wrote := now, direct := [], lastPc := e.pc, lastSeq := e.seq }

/-- Elements of the rows of a tile are poisoned (R32). -/
def State.accPoisoned (s : State) (q i rows cols : Nat) : Bool :=
  !s.poison.isEmpty && (List.range rows).any fun r => s.poisoned ⟨.acc q, 65536 * i + 512 * r⟩ (4 * cols)

/-- Whether what a pass over the positions lo to hi − 1 reads of its operands is poisoned: of a sparse row the metadata, the kept
elements, and the positions they name (R32, R407). -/
def State.passPoisoned (s : State) (q : Nat) (a b : Operand) (mops : Option Operand) (one4 : Bool) (arow brow m n lo hi : Nat) : Bool :=
  let rows (x : Operand) (row k : Nat) (es : List Nat) : Bool := s.rowsPoisoned q x.1 x.2 row k es
  match mops with
  | none => rows a arow m ((List.range (hi - lo)).map (lo + ·)) || rows b brow n ((List.range (hi - lo)).map (lo + ·))
  | some mt =>
    let groups := (List.range ((hi - lo + 3) / 4)).map (lo / 4 + ·)
    (List.range m).any fun i =>
      let kept := groups.flatMap fun g => keptOf one4 (s.metaByte q mt (arow + i)) g
      rows mt (arow + i) 1 (dedup (groups.map fun g => if one4 then g / 4 else g / 2)) || rows a (arow + i) 1 (kept.map (·.1)) ||
        rows b brow n (dedup (kept.map (·.2)))

/-- A pass of an `mma`: the sums of its positions, and with the last pass the accumulator tile.
DEDUCED (log entry 29). -/
def State.mmaPass (s : State) (q : Nat) (e : Entry) : State :=
  match e.op with
  | .mma m n k koff acc aidx bidx midx arow brow _ _ _ zero sparse one4 =>
    match s.operand q aidx, s.operand q bidx, Tab.find acc (s.quad q).accs with
    | some a, some b, some t =>
      let mt := if sparse then s.operand q midx else none
      let depth := min (kpOf a.2.fmt) (kpOf b.2.fmt) * (if sparse then (if one4 then 4 else 2) else 1)
      let total := (k + depth - 1) / depth
      let lo := koff + depth * (total - e.passes)
      let hi := min (lo + depth) (koff + k)
      let bad := !s.poison.isEmpty &&
        ((!zero && e.passes == total && s.accPoisoned q acc m n) || s.passPoisoned q a b mt one4 arow brow m n lo hi)
      if bad then s.haltEntry q e { cls := .eccFatal, addr := 0 }
      else
        let view := s.forgeView q e
        let sums := (List.range (m * n)).map fun ij =>
          let i := ij / n
          let j := ij % n
          let acc0 := if e.passes < total then (e.part.getD ij 0).toNat else if zero then 0 else s.accIn t (128 * i + j)
          elemPass view q a b mt one4 arow brow i j lo hi acc0
        let s := s.onEntry q e.id fun e => { e with passes := e.passes - 1, part := sums.map (BitVec.ofNat 32) }
        if e.passes ≤ 1 then
          let (now, s) := s.fresh
          let s := (List.range m).foldl (fun (s : State) r => s.lift ⟨.acc q, 65536 * acc + 512 * r⟩ (4 * n)) s
          s.onAcc q acc fun a => Acc.rewritten a now e (sums.zipIdx.foldl (fun a v =>
            let x := 128 * (v.2 / n) + v.2 % n
            a.setElem x (s.accOut a x v.1)) a)
        else s
    | _, _, _ => s
  | _ => s

def negInf32 : Nat := 0xFF800000

/-- One row of `smx`: P's elements, the factor r, the row's new maximum and sum (R412). -/
def smxRow (scale : Nat) (xs : List Nat) (mOld sum : Nat) : List Nat × Nat × Nat × Nat :=
  let xs := xs.map fun x => mulF32 scale x
  let mNew := xs.foldl maxF32 mOld
  let less (x : Nat) : FV := FV.exp2 (FV.add .rn (Fmt.f32.val x) (Fmt.f32.val mNew).negate)
  let ps := if mNew = negInf32 then xs.map fun _ => 0 else xs.map fun x => Fmt.f16.round .rn false (less x)
  let r := if mNew = negInf32 then 0x3F800000 else Fmt.f32.round .rn false (less mOld)
  let total := ps.foldl (fun a p => FV.add .rn a (Fmt.f16.val p)) (FV.mul (Fmt.f32.val sum) (Fmt.f32.val r))
  (ps, r, mNew, Fmt.f32.round .rn false total)

def State.smxPass (s : State) (q : Nat) (e : Entry) : State :=
  match e.op with
  | .smx m n scale sacc oacc pidx prow =>
    match s.operand q pidx, Tab.find sacc (s.quad q).accs, Tab.find oacc (s.quad q).accs with
    | some p, some sc, some ou =>
      if s.accPoisoned q sacc m n || s.accPoisoned q oacc m 128 then s.haltEntry q e { cls := .eccFatal, addr := 0 }
      else
      let rows := (List.range m).map fun i =>
        smxRow scale.toNat ((List.range n).map fun j => sc.elem (128 * i + j)) (ou.side i).1 (ou.side i).2
      let s := s.onEntry q e.id fun e => { e with passes := e.passes - 1 }
      let s := rows.zipIdx.foldl (fun s r =>
        s.localWrite ((p.1.place q).plus ((prow + r.2) * p.2.pitch)) (r.1.1.flatMap fun v => bytesOfNat v 2)) s
      let (now, s) := s.fresh
      s.onAcc q oacc fun a =>
        let b := a.mapElems fun x v => match rows[x / 128]? with | some r => s.accOut a x (mulF32 (s.accIn a x) r.2.1) | none => v
        Acc.rewritten a now e (rows.zipIdx.foldl (fun a r => a.setSide r.2 r.1.2.2.1 r.1.2.2.2) b)
    | _, _, _ => s
  | _ => s

/-- The tile's elements as the flush's one pass reads them, in the order of the record's elements (R416). -/
def Acc.flushVals (a : Acc) (r : TRec) : List Word :=
  (List.range r.n).map fun i =>
    let c := r.coords i
    BitVec.ofNat 32 (a.elem (128 * c.getD 1 0 + c.getD 0 0))

/-- The next access of a flush may set out: nothing of its context is on its way to the word, its home can be reached and a flit to it has
room (R54, R65). DEDUCED (log entry 83). -/
def State.flushPasses (s : State) (e : Entry) (p : PAddr) : Bool := s.allPass e.ctx (some e.core) [(p, 4)]

/-- The elements of a flush that are still to be performed: to the end, to the first page that fails, or to the first access that
cannot set out yet. A store to a line of another member may be captured on its way there (R65, R416). The elements are taken in the
order of the record. DESIGN CHOICE (log entry 99). -/
def State.flushFrom (s : State) (q : Nat) (e : Entry) (acc : Nat) (r : TRec) (add : Bool) : State :=
  let step (x : State × Option (Nat × Option Flt)) (i : Nat) : State × Option (Nat × Option Flt) :=
    match x.2 with
    | some _ => x
    | none =>
      let need : Need := if add then .atomic else .store
      match elemPlace x.1 e.ctx (r.elem i) 4 need with
      | .error f => (x.1, some (i, some f))
      | .ok p =>
        if !x.1.flushPasses e p then (x.1, some (i, none))
        else
          let v := (e.part.getD i 0).toNat
          (if add then (x.1.sendTo [p]).engineStore e.ctx e.core r.rd p (bytesOfNat (addF32 (x.1.natAt p 4) v) 4)
           else x.1.bulkWrite e.ctx e.core e.id r.rd (p, bytesOfNat v 4), none)
  let x := ((List.range r.n).drop e.flushed).foldl step (s, none)
  match x.2 with
  | some (i, some f) => (x.1.onEntry q e.id fun e => { e with flushed := i }).haltEntry q { e with flushed := i } f
  | some (i, none) => x.1.onEntry q e.id fun e => { e with flushed := i }
  | none =>
    let s := x.1.onEntry q e.id fun e => { e with flushed := r.n }
    if s.bulkAway e.id then s else (s.onAcc q acc fun a => a.noteLast 6 s.ns).completeEntry q e

/-- A flush that waits can go on: its next element can set out or its page stops it, or nothing of it is under way. -/
def State.flushMay (s : State) (e : Entry) : Bool :=
  match e.op with
  | .flush _ r add =>
    if s.tablesWait e.ctx then false
    else if e.flushed < r.n then
      match elemPlace s e.ctx (r.elem e.flushed) 4 (if add then .atomic else .store) with
      | .ok p => s.flushPasses e p
      | .error _ => true
    else !s.bulkAway e.id
  | _ => true

/-- The records of a `seam.hash` (R425). -/
def State.hashPass (s : State) (q : Nat) (e : Entry) : State :=
  match e.op with
  | .hash xidx xrow nvec out cur next dim _ =>
    let s := s.onEntry q e.id fun e => { e with passes := e.passes - 1 }
    if 1 < e.passes then s
    else match s.operand q xidx with
      | none => s
      | some x =>
        let bad := s.rowsPoisoned q x.1 x.2 xrow nvec (List.range dim) || s.planesPoisoned q cur ||
          (match next with | some f => s.planesPoisoned q f | none => false)
        if bad then s.haltEntry q e { cls := .eccFatal, addr := 0 }
        else
        let view := s.forgeView q e
        (List.range nvec).foldl (fun s v =>
          let xs := view.resRow q x.1 x.2 (xrow + v) 0 dim
          let rec_ := match next with
            | none => view.hashCode q cur xs
            | some f => view.hashCode q f xs + 2 ^ 32 * view.hashCode q cur xs
          s.localWrite (out.plus (8 * v)) (bytesOfNat rec_ 8)) s
  | _ => s

/-- A pass ends: its effects, and the completion of an instruction whose last pass it was. The pass of a flush is none of the
tile's forge passes, as the record of R292 shows (DEDUCED, log entry 30).
DESIGN CHOICE (log entry 22). -/
def State.endPass (s : State) (q id : Nat) : State :=
  let x := s.quad q
  let s := s.setQuad q { x with pass := none }
  match (s.quad q).entries.find? fun e => e.id == id with
  | none => s
  | some e =>
    let now := s.ns
    let s := if e.op matches .flush .. then s
      else e.op.accs.foldl (fun s i => s.onAcc q i fun a => { a.noteLast 5 now with passes := a.passes + 1 }) s
    let s' := match e.op with
      | .mma .. => s.mmaPass q e
      | .smx .. => s.smxPass q e
      | .hash .. => s.hashPass q e
      | .flush acc r _ => match Tab.find acc (s.quad q).accs with
        | none => s
        | some a =>
          if s.accPoisoned q acc (r.ext.getD 1 1) (r.ext.getD 0 1) then s.haltEntry q e { cls := .eccFatal, addr := 0 }
          else s.onEntry q e.id fun e => { e with passes := 0, part := a.flushVals r }
    match (s'.quad q).entries.find? fun e => e.id == id with
    | none => s'
    | some e' =>
      if e'.passes ≠ 0 ∨ e'.halted.isSome then s'
      else match e'.op with
        | .flush acc r add => if s'.flushMay e' then s'.flushFrom q e' acc r add else s'
        | _ => s'.completeEntry q e'

/-- A flush that a driver has resumed goes on at its faulting page, and one that waits for a home goes on with it. -/
def State.resumeFlush (s : State) (q : Nat) : State :=
  match (s.quad q).entries.find? fun e => e.passes == 0 && e.halted.isNone && s.flushMay e with
  | some e => match e.op with
    | .flush acc r add => s.flushFrom q e acc r add
    | _ => s.completeEntry q e
  | none => s

/-- The entries that wait are noted as cycles pass: since when one has been eligible without a break, and since when one has found its
operands ready (R129, R291). DESIGN CHOICE (log entry 88). -/
def State.noteEntries (s : State) (q : Nat) : State :=
  let x := s.quad q
  let note (e : Entry) : Entry :=
    let e := if s.eligible q e && (match x.pass with | some p => p.1 != e.id | none => true) then e else { e with idle := s.clock }
    if e.started || !e.opWait then e
    else if s.tilesReady q e.op then { e with readyAt := some (e.readyAt.getD s.ns) } else { e with readyAt := none }
  if x.entries.isEmpty then s else s.setQuad q { x with entries := x.entries.map note }

/-- A pass boundary: a pass that has run its 64 cycles ends, and the next one is granted. -/
def execPassBoundary (quad : Nat) (s : State) : Host.Outcome State Fault Refusal :=
  match (s.quad quad).pass with
  | some (id, stop) => if s.clock < stop then .next s else .next (((s.endPass quad id).resumeFlush quad).grant quad)
  | none => .next ((s.resumeFlush quad).grant quad)

/-- The first entry that has waited ONS_FAGE cycles while eligible and not granted rises by one class, up to 3 (R129). -/
def execForgeAgePromote (s : State) : Host.Outcome State Fault Refusal :=
  let period := bits (s.reg (ons 4)) 15 0
  let due := s.quads.flatMap fun x => (x.2.entries.filter fun e =>
    decide (e.eff < 3) && decide (e.idle + period ≤ s.clock) && s.eligible x.1 e).map fun e => (x.1, e.id)
  match due with
  | (q, id) :: _ => .next (s.onEntry q id fun e => { e with eff := e.eff + 1, idle := s.clock })
  | [] => .next s

end Sys2Proof.Machine
end

