-- ==== Sys2Proof/Machine/Seam.lean ====
section
/-! DEFINITION. Majors 0x36 to 0x38: the seam unit (R192 to R215, R419 to R434). -/

namespace Sys2Proof.Machine

/-! ## Issue (R211, R420 to R422) -/

/-- A thread has stores that are not performed, or has read such a store in L1: a seam instruction sees them, so it waits for them
(R211, R247). -/
def State.storing (s : State) (uid : Nat) : Bool :=
  ((s.requestsOf uid).any fun p => !p.op.isLoad) || !(s.unperformed uid).isEmpty ||
    s.lodes.any fun q => q.uid == uid && (match q.kind with | .store .. => true | _ => false)

/-- An elected seam instruction. -/
def State.seam (k : Opc) (o : Op) (s : State) (body : Group → Thread → Body) : Host.Outcome State Fault Refusal :=
  s.issue k o fun g xs =>
    match elected xs with
    | none => .done s
    | some t => if heldBack [t] || s.storing t.uid then .stall else body g t

/-- Whether a core's share of the seam queue has room (R421). -/
def State.seamRoom (s : State) (core : Nat) : Bool :=
  decide (((s.quad (quadOfCore core)).seams.filter fun e => e.core == core).length < 16)

/-- An entry of the seam queue for some threads, the first of which names it. DEDUCED (log entry 25). -/
def State.queueSeam (s : State) (g : Group) (t : Thread) (uids : List Nat) (op : SeamOp) (counter : Option Nat) : State :=
  let q := quadOfCore g.core
  let e : SeamEntry := { id := s.nextId, core := g.core, ctx := g.ctx, team := t.team, uids, slot := t.slot, pc := g.pc,
                         seq := t.cmdseq, flag := g.flagNow, op, counter, halted := none, began := false, done := 0,
                         kept := [], trunc := false }
  let s := { s with nextId := s.nextId + 1 }.charge uids g.flagNow true
  let x := s.quad q
  s.setQuad q { x with seams := x.seams ++ [e] }

/-- The places of a table's parts at their virtual addresses, with their bytes: those that translate. -/
def tablePlaces (s : State) (ctx : Nat) (vas : List (Nat × Nat)) : List (PAddr × Nat) :=
  vas.filterMap fun v => (translate s ctx (BitVec.ofNat 64 v.1) .load).toOption.map fun x => (x.at_, v.2)

/-- Reads of a table's parts set out: their translations and lines are held, and flits go to the homes elsewhere (R65, R174, R178). -/
def State.reachTable (s : State) (core ctx : Nat) (vas : List (Nat × Nat)) : State :=
  let ps := tablePlaces s ctx vas
  let s := vas.foldl (fun (s : State) v => s.noteStope core ctx (BitVec.ofNat 64 v.1)) s
  (ps.foldl (fun (s : State) p => s.noteHome p.1 p.2 1) s).sendTo (ps.map (·.1))

/-- An instruction that reads descriptors waits: a home cannot be reached, a pseudo-channel or a table of the walk is under test, or
an access of the context to a word is on its way (R34, R45, R47). -/
def State.descsAway (s : State) (ctx core : Nat) (vas : List DWord) : Bool :=
  s.tablesWait ctx || !s.allPass ctx (some core) (tablePlaces s ctx ((vas.filter fun v => v.toNat % 256 == 0).map fun v => (v.toNat, 256)))

/-- Descriptors are read at issue. -/
def State.readDescs (s : State) (g : Group) (vas : List DWord) : State :=
  (vas.foldl (fun (s : State) v => s.noteTlb g.core g.ctx v) s).reachTable g.core g.ctx (vas.map fun v => (v.toNat, 256))

/-- An elected instruction that has read descriptors takes its entry, or its elected thread is held alone (R393, R421). -/
def State.postSeam (s : State) (g : Group) (t : Thread) (vas : List DWord) (op : SeamOp) (counter : Option Nat) : Body :=
  if s.seamRoom g.core then .done ((s.readDescs g vas).queueSeam g t [t.uid] op counter) else s.heldAlone g t s.curLen

def flag7 (b : Bool) (n : Nat) : Option Nat := if b then some n else none

/-- The versions of a table that are in use: the current one, and while the table migrates the next one too. -/
def Desc.versions (d : Desc) : List Version := d.now :: (if d.mig then [d.next] else [])

/-- The faults of the versions that an instruction uses (R196). DEDUCED (log entry 24). -/
def versionFaults (s : State) (core : Nat) (d : Desc) (va : DWord) (vs : List Version) : List (Option Flt) :=
  vs.map (versionFault s core d va)

/-! ## Families and hashing (R423 to R425) -/

def execSeamFam (o : Op) (s : State) : Host.Outcome State Fault Refusal :=
  s.seam .seamFam o fun g t =>
    let x := (o.srcB32 t).toNat
    let p := bits x 4 0
    let d := bits x 28 16
    let idx := o.a.toNat
    match s.resOf g idx with
    | none => .stop [(t, illegalState)]
    | some (e, r) =>
      if !e.opbuf || r.fmt != .f16 || p == 0 || decide (24 < p) || d % 16 != 0 || d == 0 || decide (4096 < d) ||
          decide (r.rows * r.rowlen < p * d) then .stop [(t, illegalState)]
      else
        let c := s.core g.core
        let fam : Family := { idx, gen := e.gen, p, d }
        .done ((s.setCore g.core { c with fams := Tab.set o.d.toNat fam c.fams }).onThread t.uid Thread.count)

/-- The operation of a `seam.hash` block (R424, R425). -/
def hashOf (s : State) (g : Group) (t : Thread) (x : Nat) : Except Flt (ForgeOp × Nat) :=
  let table : DWord := BitVec.ofNat 64 (fieldAt x 0 8)
  let xidx := fieldAt x 8 1
  let xrow := fieldAt x 0xA 2
  let nvec := fieldAt x 0xC 2
  let out : Word := BitVec.ofNat 32 (fieldAt x 0x10 4)
  let fl := fieldAt x 0x14 4
  let fields := fieldAt x 9 1 == 0 && fieldAt x 0xE 2 == 0 && bits fl 31 16 == 0 && bits fl 6 1 == 0 && fieldAt x 0x18 8 == 0 &&
    decide (1 ≤ nvec ∧ nvec ≤ 128) && decide (xidx < 64)
  let input (dim : Nat) : Bool := match s.resOf g xidx with
    | some (_, r) => r.fmt == .f16 && decide (dim ≤ r.rowlen) && decide (xrow + nvec ≤ r.rows)
    | none => false
  let place := s.teamPlace t out (8 * nvec) 8
  let outFault : Option Flt := match place with
    | .error e => some { cls := e, addr := out.setWidth 64 }
    | .ok p => (match s.team? t.team with
      | some u => if p.space = .team u.core ∧ u.tmBase ≤ p.addr ∧ p.addr < u.tmBase + u.tmLen then none
                  else some { cls := .pagePerm, addr := out.setWidth 64 }
      | none => some { cls := .pagePerm, addr := out.setWidth 64 })
  if !fields then .error illegalState
  else match descAt s g.ctx table .load with
    | .error f => (firstOf [refuseIf !(input 0), some f, outFault]).bind fun _ => .error f
    | .ok (_, _, d) =>
      (firstOf ([refuseIf !(input d.dim), outFault] ++ versionFaults s g.core d table d.versions)).bind fun _ =>
        match place, s.family g.core d.now.fam with
        | .ok p, some cur =>
          let next := if d.mig then s.family g.core d.next.fam else none
          .ok (.hash xidx xrow nvec p cur next d.dim (bitAt fl 0), (d.dim + 63) / 64 * (if d.mig then 2 else 1))
        | _, _ => .error illegalState

def execSeamHash (o : Op) (s : State) : Host.Outcome State Fault Refusal :=
  s.seam .seamHash o fun g t =>
    match s.paramBlock t (t.reg o.a.toNat) 32 with
    | .error f => .stop [(t, f)]
    | .ok x =>
      let va : DWord := BitVec.ofNat 64 (fieldAt x 0 8)
      if s.descsAway g.ctx g.core [va] then .stall else match hashOf s g t x with
      | .error f => .stop [(t, f)]
      | .ok (op, passes) =>
        (if s.entryRoom g.core then s.readDescs g [va] else s).post g t op (counterOf (fieldAt x 0x14 4)) passes

/-! ## Probing (R426 to R428) -/

/-- A code record with its reserved fields zero: CODE and OLDC (R194). -/
def codeOf (x : Nat) : Option (Nat × Nat) :=
  if bits x 63 56 = 0 ∧ bits x 31 24 = 0 then some (bits x 23 0, bits x 55 32) else none

/-- The tables of a probe with their code records, as its issue reads and checks them; without a place of the records the tables
alone are judged. -/
def probeTabs (s : State) (g : Group) (codes : Option PAddr) (x nt : Nat) : Except Flt (List ProbeTab) :=
  (List.range nt).foldr (fun i acc =>
    let va : DWord := BitVec.ofNat 64 (fieldAt x (0x10 + 8 * i) 8)
    match descAt s g.ctx va .load, (match codes with | some p => codeOf (s.natAt (p.plus (8 * i)) 8) | none => some (0, 0)) with
    | .error f, c => (match acc with
        | .error f2 => (firstOf [some f, some f2, refuseIf c.isNone]).bind fun _ => .error f
        | .ok _ => (firstOf [some f, refuseIf c.isNone]).bind fun _ => .error f)
    | .ok (_, r, d), c => (match firstOf ((match acc with | .error f2 => some f2 | .ok _ => none) :: refuseIf c.isNone ::
          versionFaults s g.core d va d.versions) with
        | .error f => .error f
        | .ok _ => match acc, c with
          | .ok l, some (code, oldc) => .ok ({ table := r, code, oldc } :: l)
          | .error f, _ => .error f
          | _, none => .error illegalState)) (.ok [])

/-- The probe of a block: its tables, MULTI, OIDX and counter. -/
def probeOf (s : State) (g : Group) (t : Thread) (x : Nat) (pre : Bool) :
    Except Flt (List ProbeTab × Bool × Nat × Option Nat) :=
  let h := fieldAt x 0 4
  let nt := bits h 3 0 + 1
  let oidx := bits h 15 8
  let codesVa : Word := BitVec.ofNat 32 (fieldAt x 4 4)
  let fields := bits h 31 25 == 0 && bits h 7 5 == 0 && decide (nt ≤ 8) && decide (oidx < 64) && fieldAt x 8 8 == 0 &&
    ((List.range 8).all fun i => decide (i < nt) || fieldAt x (0x10 + 8 * i) 8 == 0) && fieldAt x 0x50 16 == 0 &&
    (!pre || bits h 24 8 == 0)
  let tile := s.tileOf g oidx
  let tileFault : Option Flt := if pre then none else match tile with
    | none => some illegalState
    | some e => if e.len < 260 then some { cls := .pagePerm, addr := BitVec.ofNat 64 e.base } else none
  if !fields then .error illegalState
  else match s.teamPlace t codesVa (8 * nt) 8 with
    | .error e =>
      let tabs := match probeTabs s g none x nt with | .error f => some f | .ok _ => none
      (firstOf [some { cls := e, addr := codesVa.setWidth 64 }, tileFault, tabs]).bind fun _ => .error illegalState
    | .ok p =>
      let tabs := probeTabs s g (some p) x nt
      let codes : Option Flt := if s.poisoned p (8 * nt) then some { cls := .eccFatal, addr := codesVa.setWidth 64 } else none
      (firstOf [tileFault, codes, (match tabs with | .error f => some f | .ok _ => none)]).bind fun _ =>
        tabs.map fun l => (l, bitAt h 4, oidx, flag7 (bitAt h 24) (bits h 23 16))

/-- The descriptors that a probe's block names. -/
def probeDescs (x : Nat) : List DWord :=
  (List.range (min (bits (fieldAt x 0 4) 3 0 + 1) 8)).map fun i => BitVec.ofNat 64 (fieldAt x (0x10 + 8 * i) 8)

/-- A tile that an instruction fills takes the fill at once, or the instruction waits (R185). -/
def State.fillsNow (s : State) (q idx : Nat) : Bool := match s.tile? q idx with | some t => t.canFill | none => true

def State.fillWith (s : State) (q idx n : Nat) : State :=
  match s.tile? q idx with
  | some t => s.setTile q idx (t.fill n s.ns)
  | none => s

def execSeamProbe (o : Op) (s : State) : Host.Outcome State Fault Refusal :=
  s.seam .seamProbe o fun g t =>
    let q := quadOfCore g.core
    match s.paramBlock t (t.reg o.a.toNat) 96 with
    | .error f => .stop [(t, f)]
    | .ok x => if s.descsAway g.ctx g.core (probeDescs x) then .stall else match probeOf s g t x false with
      | .error f => .stop [(t, f)]
      | .ok (tabs, multi, oidx, counter) =>
        if !s.fillsNow q oidx then .stall
        else if s.seamRoom g.core then
          .done (((s.readDescs g (probeDescs x)).fillWith q oidx 260).queueSeam g t [t.uid] (.probe tabs multi oidx) counter)
        else s.heldAlone g t s.curLen

def execSeamProbePre (o : Op) (s : State) : Host.Outcome State Fault Refusal :=
  s.seam .seamProbePre o fun g t =>
    match s.paramBlock t (t.reg o.a.toNat) 96 with
    | .error f => .stop [(t, f)]
    | .ok x => if s.descsAway g.ctx g.core (probeDescs x) then .stall else match probeOf s g t x true with
      | .error f => .stop [(t, f)]
      | .ok (tabs, multi, _, _) => s.postSeam g t (probeDescs x) (.pre tabs multi) none

/-! ## Gathering (R429) -/

/-- The bytes of a reservation's rows from one on. -/
def ResRec.bytesFrom (r : ResRec) (row : Nat) : Nat := (r.rows - row) * r.rowBytes

def execSeamGather (o : Op) (s : State) : Host.Outcome State Fault Refusal :=
  s.seam .seamGather o fun g t =>
    let q := quadOfCore g.core
    match s.paramBlock t (t.reg o.a.toNat) 32 with
    | .error f => .stop [(t, f)]
    | .ok x =>
      let va : DWord := BitVec.ofNat 64 (fieldAt x 0 8)
      let lidx := fieldAt x 8 1
      let ridx := fieldAt x 9 1
      let rrow := fieldAt x 0xA 2
      let fl := fieldAt x 0xC 4
      if lidx ≥ 64 ∨ ridx ≥ 64 ∨ bits fl 31 10 ≠ 0 ∨ fieldAt x 0x10 16 ≠ 0 then .stop [(t, illegalState)]
      else if s.descsAway g.ctx g.core [va] then .stall
      else match (s.resOf g ridx).filter (fun r => decide (rrow < r.2.rows)), s.tileOf g lidx, descAt s g.ctx va .load with
        | some (_, r), some _, .ok (_, table, d) =>
          if r.rowlen < d.dim then .stop [(t, illegalState)]
          else if !s.fillsNow q ridx then .stall
          else if s.seamRoom g.core then
            .done (((s.readDescs g [va]).fillWith q ridx (r.bytesFrom rrow)).queueSeam g t [t.uid]
              (.gather table lidx ridx rrow (bitAt fl 9)) (flag7 (bitAt fl 8) (bits fl 7 0)))
          else s.heldAlone g t s.curLen
        | some _, some _, .error f => .stop [(t, f)]
        | _, _, _ => .stop [(t, illegalState)]

/-! ## Inserting and deleting (R430) -/

/-- What one lane of `seam.ins` or `seam.del` acts on: an insertion uses the version that receives it, a deletion those in use
(R205). -/
def seamLane (s : State) (o : Op) (g : Group) (t : Thread) (del : Bool) : Except Flt SeamLane :=
  let va := t.pair o.a.toNat
  let id := (t.reg (if o.len.isExt then o.c.toNat else o.d.toNat)).toNat
  let code := codeOf (t.pair o.b.toNat).toNat
  match descAt s g.ctx va .atomic with
  | .error f => (firstOf [refuseIf (code.isNone || id == 0xFFFFFFFF), some f]).bind fun _ => .error f
  | .ok (_, table, d) =>
    (firstOf ([refuseIf (code.isNone || decide (d.rows ≤ id))] ++ versionFaults s g.core d va (if del then d.versions else [d.receiving]))).bind fun _ =>
      match code with
      | some (c, oldc) => .ok { uid := t.uid, table, code := c, oldc, id, dreg := o.d.toNat }
      | none => .error illegalState

/-- One entry for all the lanes; without room, the executing threads are held together and the others go on.
DEDUCED (log entry 25). -/
def State.seamEach (k : Opc) (o : Op) (s : State) (del : Bool) (op : List SeamLane → SeamOp) : Host.Outcome State Fault Refusal :=
  s.issue k o fun g xs =>
    match xs with
    | [] => .done s
    | t :: _ =>
      if heldBack xs || xs.any (fun t => s.storing t.uid) || s.descsAway g.ctx g.core (xs.map fun t => t.pair o.a.toNat) then .stall
      else match faultsOf xs fun t => match seamLane s o g t del with | .error f => some f | .ok _ => none with
      | f :: fs => .stop (f :: fs)
      | [] =>
        if s.seamRoom g.core then
          .done ((s.readDescs g (xs.map fun t => t.pair o.a.toNat)).queueSeam g t (xs.map (·.uid)) (op (xs.filterMap fun t => (seamLane s o g t del).toOption)) none)
        else
          let on := xs.map (·.uid)
          let off := g.members.filter fun u => !on.contains u
          if off.isEmpty then .stall
          else .moved ((s.uncount g.core on.length).splitGroup g [(on, id), (off, fun h => h.past s.curLen true)])

def execSeamIns (o : Op) (s : State) : Host.Outcome State Fault Refusal := s.seamEach .seamIns o false .ins

def execSeamDel (o : Op) (s : State) : Host.Outcome State Fault Refusal := s.seamEach .seamDel o true .del

/-! ## Versions and publication (R203 to R206, R213, R431, R433) -/

/-- Writes fields of a descriptor in one act. -/
def State.putDesc (s : State) (ctx core : Nat) (p : PAddr) (fs : List (Nat × Nat × Nat)) : State :=
  fs.foldl (fun s f => s.engineWrite ctx core (p.plus f.1) (bytesOfNat f.2.2 f.2.1)) s

/-- Word 0 of a descriptor. -/
def Desc.word0 (d : Desc) (mig : Bool) (cur cursor : Nat) : Nat :=
  d.policy * 2 ^ 30 + (if mig then 2 ^ 29 else 0) + cur * 2 ^ 28 + cursor

/-- DEDUCED (log entry 26). A bucket array above 2^52 does not fit its field (R203). DESIGN CHOICE (log entry 93). -/
def execSeamVer (o : Op) (s : State) : Host.Outcome State Fault Refusal :=
  s.seam .seamVer o fun g t =>
    let va := t.pair o.a.toNat
    let bkt := t.pair o.b.toNat
    let b := (o.imm.extractLsb' 0 5).toNat
    let k := (o.imm.extractLsb' 5 3).toNat
    let fam := s.family g.core k
    let align : Option Flt := if bkt.toNat % 4096 = 0 then none else some { cls := .misalign, addr := bkt }
    if s.descsAway g.ctx g.core [va] then .stall
    else match descAt s g.ctx va .atomic with
    | .error f =>
      (match firstOf [refuseIf fam.isNone, align, some f] with | .error f => .stop [(t, f)] | .ok _ => .stall)
    | .ok (p, _, d) =>
      let bad : Option Flt := match fam with
        | some f => if 24 < b ∨ f.p < b ∨ f.d ≠ d.dim ∨ 2 ^ 52 ≤ bkt.toNat then some { cls := .seamBadTable, addr := va } else none
        | none => none
      match firstOf [refuseIf (fam.isNone || d.mig), align, bad] with
      | .error f => .stop [(t, f)]
      | .ok _ =>
        if !s.seamRoom g.core then s.heldAlone g t s.curLen
        else
          let n := 1 - d.cur
          let s := (s.readDescs g [va]).putDesc g.ctx g.core p
            [(0, 4, d.word0 true d.cur 0), (4, 4, 0), (0x20 + 16 * n, 8, bkt.toNat), (0x28 + 16 * n, 4, k * 256 + b),
             (0x2C + 16 * n, 4, 0)]
          let s : State := { s with claims := s.claims.filter fun c => c.1 != p }
          .done (s.queueSeam g t [t.uid] .ver none)

/-- DEDUCED (log entry 26). -/
def execSeamRehash (o : Op) (s : State) : Host.Outcome State Fault Refusal :=
  s.seam .seamRehash o fun g t =>
    let va := t.pair o.a.toNat
    if s.descsAway g.ctx g.core [va] then .stall
    else match descAt s g.ctx va .atomic with
    | .error f => .stop [(t, f)]
    | .ok (p, table, d) =>
      match firstOf (refuseIf (!d.mig) :: versionFaults s g.core d va d.versions) with
      | .error f => .stop [(t, f)]
      | .ok _ =>
        if !s.seamRoom g.core then s.heldAlone g t s.curLen
        else
          let n := min (o.srcB32 t).toNat (2 ^ d.now.log2b - d.claim)
          let s := (s.readDescs g [va]).putDesc g.ctx g.core p [(4, 4, d.claim + n)]
          let s : State := { s with claims := s.claims ++ (List.range n).map fun i => (p, d.claim + i) }
          .done (s.queueSeam g t [t.uid] (.rehash table d.claim n) none)

def execSeamFin (o : Op) (s : State) : Host.Outcome State Fault Refusal :=
  s.seam .seamFin o fun g t =>
    let va := t.pair o.a.toNat
    if s.descsAway g.ctx g.core [va] then .stall
    else match descAt s g.ctx va .atomic with
    | .error f => .stop [(t, f)]
    | .ok (_, table, d) =>
      match firstOf (refuseIf (!d.mig || d.cursor != 2 ^ d.now.log2b) :: versionFaults s g.core d va [d.now]) with
      | .error f => .stop [(t, f)]
      | .ok _ => s.postSeam g t [va] (.fin table) none

def execSeamPub (o : Op) (s : State) : Host.Outcome State Fault Refusal :=
  s.seam .seamPub o fun g t =>
    let va := t.pair o.a.toNat
    let idx := o.b.toNat
    if s.descsAway g.ctx g.core [va] then .stall
    else match descAt s g.ctx va .atomic with
    | .error f => (match firstOf [refuseIf (s.tileOf g idx).isNone, some f] with | .error f => .stop [(t, f)] | .ok _ => .stall)
    | .ok (_, table, d) =>
      let bad : Option Flt := if d.master = 0 then some { cls := .seamBadTable, addr := va } else none
      match firstOf [refuseIf (s.tileOf g idx).isNone, bad] with
      | .error f => .stop [(t, f)]
      | .ok _ => s.postSeam g t [va] (.publish table idx) none

/-! ## Fences and the live-entry scan (R432, R434) -/

/-- The seam instructions of a thread that are incomplete. -/
def State.seamOps (s : State) (q uid : Nat) : List Nat :=
  ((s.quad q).seams.filter fun e => e.uids.contains uid).map (·.id) ++
    ((s.quad q).entries.filter fun e => e.uid == uid && (match e.op with | .hash .. => true | _ => false)).map (·.id) ++
    s.late.flatMap fun l => match l with
      | .scan id uids .. => if uids.contains uid then [id] else []
      | _ => []

def State.seamFence (k : Opc) (o : Op) (s : State) : Host.Outcome State Fault Refusal :=
  s.issue k o fun g xs =>
    if heldBack xs then .stall
    else
      let put (s : State) (t : Thread) : State :=
        let late : Late := .seamFence t.uid g.flagNow (s.seamOps (quadOfCore g.core) t.uid)
        let s : State := { s with late := s.late ++ [late] }
        s.onThread t.uid fun t => { t.count.holdFlag g.flagNow with holds := t.holds + 1 }
      .done (xs.foldl put s).settleUnits

def execSeamFencePkg (o : Op) (s : State) : Host.Outcome State Fault Refusal := s.seamFence .seamFencePkg o

def execSeamFencePod (o : Op) (s : State) : Host.Outcome State Fault Refusal := s.seamFence .seamFencePod o

/-- A vector element is live (R215). -/
def liveElem (ty : Ty) (x : Nat) : Bool :=
  if ty.isInt then x != 0 else match (fmtOf ty).val x with | .fin _ m _ => m != 0 | _ => true

/-- DESIGN CHOICE (log entry 22); DEDUCED (log entry 25). A list tile that is too short is reported at the tile's base. DESIGN CHOICE
(log entry 94). -/
def execNzscan (o : Op) (s : State) : Host.Outcome State Fault Refusal :=
  s.issue .nzscan o fun g xs =>
    match elected xs with
    | none => .done s
    | some t =>
      let q := quadOfCore g.core
      let idx := (o.imm.extractLsb' 0 6).toNat
      let l := (o.srcB32 t).toNat
      let es := o.ty.bits / 8
      let va := t.reg o.a.toNat
      let place := s.teamPlace t va (l * es) es
      let tile := s.tileOf g idx
      let short : Option Flt := match tile with
        | some e => if e.len < 4 + 4 * l then some { cls := .pagePerm, addr := BitVec.ofNat 64 e.base } else none
        | none => none
      if !g.isSealed then .stop (allTake xs .sealIllegal)
      else if heldBack xs then .stall
      else match firstOf [refuseIf (l == 0 || decide (8192 < l) || tile.isNone), ofCheck (va.setWidth 64) place, short] with
        | .error f => .stop [(t, f)]
        | .ok _ =>
          match place, tile with
          | .ok p, some e =>
            if !e.canFill then .stall
            else if s.poisoned p (l * es) then .stop [(t, { cls := .eccFatal, addr := va.setWidth 64 })]
            else
              let live := (List.range l).filter fun i => liveElem o.ty (s.natAt (p.plus (es * i)) es)
              let n := 4 + 4 * l
              let s := ((s.fillWith q idx n).localWrite (e.place q) (rowList false live)).landTile q (some (idx, e.gen)) n
              let late : Late := .scan s.nextId (xs.map (·.uid)) g.flagNow q idx o.d.toNat live.length t.team
              let s : State := { s with nextId := s.nextId + 1, late := s.late ++ [late] }
              .done ((s.charge (xs.map (·.uid)) g.flagNow true).settleQuad q)
          | _, _ => .stall

/-! ## The work of an entry (R199 to R202, R204 to R206, R209, R210, R213) -/

def State.onSeam (s : State) (q id : Nat) (f : SeamEntry → SeamEntry) : State :=
  let x := s.quad q
  s.setQuad q { x with seams := x.seams.map fun e => if e.id == id then f e else e }

/-- An asynchronous fault of an entry, which restarts it from its beginning when it is resumed (R202). -/
def State.haltSeam (s : State) (q : Nat) (e : SeamEntry) (f : Flt) : State :=
  let r := s.stopCmd e.ctx (.seam q e.id) f.cls f.addr e.pc e.seq e.core e.slot
  r.2.onSeam q e.id fun e => { e with halted := some r.1, done := 0, kept := [], trunc := false }

/-- An entry completes: what it consumed is read, its counter and its flags. -/
def State.completeSeam (s : State) (q : Nat) (e : SeamEntry) : State :=
  let x := s.quad q
  let s := s.setQuad q { x with seams := x.seams.filter fun y => y.id != e.id }
  let s := match e.op with
    | .gather _ l _ _ _ => s.readDone q l e.id
    | .publish _ i => s.readDone q i e.id
    | _ => s
  let s := s.decOpt e.core e.counter
  (e.uids.foldl (fun s u => s.complete u e.flag) s).settleQuad q

/-- The buckets of a lane: those that its acts name. -/
def laneBuckets (del : Bool) (l : SeamLane) : List Nat :=
  match l.table.parsed with
  | some d => d.receiving.bucket l.code :: (if del && d.mig then [d.now.bucket l.oldc] else [])
  | none => []

/-- Every bucket that a probe visits, with its table. -/
def probeVisits (tabs : List ProbeTab) (multi : Bool) : List (Desc × Nat) :=
  tabs.flatMap fun t => match t.table.parsed with
    | some d => (visits d multi t.code t.oldc).map fun v => (d, v)
    | none => []

/-- Old buckets of a table from one on, as a run. -/
def oldRun (table : TableRef) (first n : Nat) : List (Nat × Nat) :=
  match table.parsed with
  | some d => if n = 0 then [] else [(d.now.bkt + 64 * first, 64 * n)]
  | none => []

/-- The runs of buckets, by address and length, that an entry still has to act on, or those of its next act: a rehash names the old
buckets that it claimed, and `seam.fin`, where the policy chains, every old bucket. DEDUCED (log entry 26). -/
def SeamEntry.buckets (e : SeamEntry) (next : Bool) : List (Nat × Nat) :=
  let some_ {α : Type} (l : List α) : List α := if next then l.take 1 else l
  match e.op with
  | .probe tabs multi _ | .pre tabs multi => (some_ ((probeVisits tabs multi).drop e.done)).map fun v => (v.2, 64)
  | .ins ls => ((some_ (ls.drop e.done)).flatMap (laneBuckets false)).map fun b => (b, 64)
  | .del ls => ((some_ (ls.drop e.done)).flatMap (laneBuckets true)).map fun b => (b, 64)
  | .rehash table first count => oldRun table (first + e.done) (if next then min 1 (count - e.done) else count - e.done)
  | .fin table => match table.parsed with
    | some d => if d.policy = 2 then oldRun table 0 (2 ^ d.now.log2b) else []
    | none => []
  | .gather .. | .ver | .publish .. => []

/-- The tile that an entry consumes, and whether with release. -/
def SeamOp.consumed : SeamOp → Option (Nat × Bool)
  | .gather _ l _ _ rel => some (l, rel)
  | .publish _ i => some (i, false)
  | _ => none

/-- The free pool buckets, along their list; a page that fails, or a list that names no pool bucket or does not end, is an
asynchronous fault (R202). DEDUCED (log entry 24). -/
def freePool (s : State) (ctx : Nat) (d : Desc) (va : DWord) : Nat → Nat → Except Flt (List Nat)
  | n, i =>
    if i = 0xFFFFFFFF then .ok []
    else match n with
      | 0 => .error { cls := .seamBadTable, addr := va }
      | n + 1 =>
        if d.pooln ≤ i then .error { cls := .seamBadTable, addr := va }
        else match poolPlace s ctx d i with
          | .error f => .error f
          | .ok p => (freePool s ctx d va n (s.natAt p 4)).map (i :: ·)

/-- The buckets of a chain by their addresses, as far as they can be read. -/
def chainVas (s : State) (ctx : Nat) (d : Desc) (va : Nat) : List (Nat × Nat) :=
  match chainAt s ctx d va .load with
  | .ok ch => ch.map fun b => (match b.1 with | some i => d.pool + 64 * i | none => va, 64)
  | .error _ => [(va, 64)]

/-- What an insertion into a chain reads and writes: its buckets, and where the policy chains, the pool's first free bucket. -/
def insertVas (s : State) (ctx : Nat) (desc : Nat) (d : Desc) (va : Nat) : List (Nat × Nat) :=
  (desc, 256) :: chainVas s ctx d va ++ (if d.policy = 2 then
    match tablePlaces s ctx [(desc, 256)] with
    | (p, _) :: _ => (fun f => if f < d.pooln then [(d.pool + 64 * f, 64)] else []) (s.natAt (p.plus 0x4C) 4)
    | [] => []
  else [])

def dirVa (d : Desc) (id : Nat) : Nat × Nat := (d.dir + 16 * id, 16)

/-- The half-words of a stored row's bytes from one on, which no page boundary cuts. -/
def halfVas (va n : Nat) : List (Nat × Nat) := if va = 0 then [] else (List.range (n / 2)).map fun i => (va + 2 * i, 2)

/-- The whole row of an id with its directory entry. -/
def rowVas (s : State) (ctx : Nat) (d : Desc) (id : Nat) : List (Nat × Nat) :=
  dirVa d id :: (match dirAt s ctx d id .load with
    | .ok en => halfVas (if en.repl = 0 then en.home else en.repl) (rowBlock en.fmt * (d.dim / 16))
    | .error _ => [])

/-- What the migration of one old bucket reads and writes. -/
def rehashVas (s : State) (q : Nat) (e : SeamEntry) (desc : Nat) (d : Desc) (va : Nat) : List (Nat × Nat) :=
  let ids := match chainAt s e.ctx d va .load with | .ok ch => chainIds d ch | .error _ => []
  (desc, 256) :: chainVas s e.ctx d va ++ ids.flatMap fun i => rowVas s e.ctx d i ++
    (match dirAt s e.ctx d i .load, s.family e.core d.next.fam with
    | .ok en, some fam => (match readRow s e.ctx d en with
      | .ok bytes => insertVas s e.ctx desc d (d.next.bucket (s.hashCode q fam (rowF16 en.fmt d.dim bytes)))
      | .error _ => [])
    | _, _ => [])

/-- What the act of a `seam.fin` reads and writes: the descriptor, and where the policy chains, the old version's chains and the pool's
free list. -/
def finVas (s : State) (ctx : Nat) (desc : Nat) : List (Nat × Nat) :=
  (desc, 256) :: (match (tablePlaces s ctx [(desc, 256)]).head?.bind fun p => descOf (s.bytesAt p.1 256) with
    | some d =>
      if d.policy = 2 then
        ((List.range (2 ^ d.now.log2b)).flatMap fun b => chainVas s ctx d (d.now.bkt + 64 * b)) ++
          (match freePool s ctx d 0 d.pooln d.freehead with | .ok l => l.map fun i => (d.pool + 64 * i, 64) | .error _ => [])
      else []
    | none => [])

/-- The next word of a listed row that a gather reads: its half-words, after the directory entry. -/
def gatherVas (s : State) (e : SeamEntry) (d : Desc) (id : Nat) : List (Nat × Nat) :=
  dirVa d id :: (match dirAt s e.ctx d id .load with
    | .ok en =>
      let n := rowBlock en.fmt * (d.dim / 16)
      halfVas ((if en.repl = 0 then en.home else en.repl) + 4 * e.kept.length) (wordLen n e.kept.length)
    | .error _ => [])

/-- Where a publication's next word goes: into the replica or HOME, at a word of the row of `n` bytes of which `left` words remain. -/
def pubWord (home repl n left : Nat) : Nat × Nat :=
  let m := (n + 3) / 4
  let far := decide (left ≤ m) && repl != 0
  let k := if far then m - left else (if repl = 0 then m else 2 * m) - left
  ((if far then repl else home) + 4 * k, wordLen n k)

/-- What a publication's next act reads or writes: the row's master, one word of HOME or REPL, or the directory entry. -/
def pubVas (e : SeamEntry) (d : Desc) (id : Nat) : List (Nat × Nat) :=
  dirVa d id :: (match e.kept with
    | home :: repl :: n :: _ :: ws => (fun w => halfVas w.1 w.2) (pubWord home repl n (ws.length + 1))
    | [_, _, _] => []
    | _ => (List.range d.dim).map fun i => (d.master + 4 * (d.dim * id + i), 4))

/-- What the next act of an entry reads and writes of its table, by address and length. -/
def State.seamVas (s : State) (q : Nat) (e : SeamEntry) : List (Nat × Nat) :=
  let listed (t : TableRef) (idx : Nat) (f : Desc → Nat → List (Nat × Nat)) : List (Nat × Nat) := match t.parsed, s.tile? q idx with
    | some d, some lt => (match (s.listIds q lt)[e.done]? with
      | some i => if i < d.rows then f d i else []
      | none => [])
    | _, _ => []
  match e.op with
  | .probe tabs multi _ | .pre tabs multi => (((probeVisits tabs multi).drop e.done).take 1).flatMap fun v => chainVas s e.ctx v.1 v.2
  | .ins ls => ((ls.drop e.done).take 1).flatMap fun l => (match l.table.parsed with
      | some d => (laneBuckets false l).flatMap (insertVas s e.ctx l.table.desc.toNat d)
      | none => [])
  | .del ls => ((ls.drop e.done).take 1).flatMap fun l => (match l.table.parsed with
      | some d => (laneBuckets true l).flatMap (chainVas s e.ctx d)
      | none => [])
  | .gather table lidx _ _ _ => listed table lidx (gatherVas s e)
  | .publish table idx => listed table idx (pubVas e)
  | .rehash table first count => (match table.parsed with
      | some d => if count ≤ e.done then [] else rehashVas s q e table.desc.toNat d (d.now.bkt + 64 * (first + e.done))
      | none => [])
  | .fin table => finVas s e.ctx table.desc.toNat
  | .ver => []

/-- Nothing is on its way and no unit is under test, in a package that stands alone: every access can set out. -/
def State.allQuiet (s : State) : Bool :=
  let f := s.fabric
  s.tests.isEmpty && !s.podOn && f.arrivals.isEmpty && f.queues.isEmpty && f.homes.isEmpty && f.remote.isEmpty && f.bulk.isEmpty

/-- Another entry's probe of a table with policy 2 has read the descriptor during the migration that a `seam.fin` ends, and is still to
read chains of the old version: their pool buckets return to the free list only after it, so that it finds every id (R206, R207).
DEDUCED (log entry 83). -/
def State.probing (s : State) (e : SeamEntry) (table : TableRef) : Bool :=
  let old (t : ProbeTab) : Bool := t.table.desc == table.desc && (match t.table.parsed with | some d => d.mig && d.policy == 2 | none => false)
  let open_ (x : SeamEntry) : Bool := x.ctx == e.ctx && (match x.op with
    | .probe tabs multi _ | .pre tabs multi => tabs.any old && decide (x.done < (probeVisits tabs multi).length)
    | _ => false)
  s.quads.any (fun x => x.2.seams.any open_) || s.images.any fun i => i.seams.any open_

/-- The entry may act now: its accesses pass the fabric to their homes (R34, R45, R47, log entry 83). -/
def State.seamMay (s : State) (q : Nat) (e : SeamEntry) : Bool :=
  !(match e.op with | .fin table => s.probing e table | _ => false) &&
  let earlier := ((s.quad q).seams.takeWhile fun x => x.id != e.id).filter fun x => x.uids.any fun u => e.uids.contains u
  e.halted.isNone && (e.began || (!s.ctxStopped e.ctx && !s.resting e.core && !s.failed)) && !s.underTest ⟨.quad, q⟩ &&
  (e.began || (match e.op.consumed with
    | some c => (match s.tile? q c.1 with | some t => t.state == .ready | none => false)
    | none => true)) &&
  !((e.buckets true).any fun b => earlier.any fun x => (x.buckets false).any fun c => overlap b.1 b.2 c.1 c.2 != 0) &&
  (s.allQuiet || (!s.tablesWait e.ctx && s.allPass e.ctx (some e.core) (tablePlaces s e.ctx (s.seamVas q e))))

/-- An entry begins: it consumes its tile. -/
def State.beginSeam (s : State) (q : Nat) (e : SeamEntry) : State :=
  if e.began then s
  else
    let s := s.onSeam q e.id fun e => { e with began := true }
    match e.op.consumed with
    | some c => (match s.tile? q c.1 with | some t => s.setTile q c.1 (t.consume e.id c.2) | none => s)
    | none => s

/-- Ids that a bucket adds to those kept: each at its first occurrence, at most 64 (R200). -/
def keepIds (kept : List Nat) (trunc : Bool) : List Nat → List Nat × Bool
  | [] => (kept, trunc)
  | i :: is =>
    if kept.contains i then keepIds kept trunc is
    else if kept.length < 64 then keepIds (kept ++ [i]) trunc is
    else keepIds kept true is

/-- The list is written and its bytes land; the entry completes once the tile is no longer filling. -/
def State.probeEnd (s : State) (q : Nat) (e : SeamEntry) (oidx n : Nat) : State :=
  if e.done = n then
    match s.tile? q oidx with
    | some t =>
      let s := ((s.localWrite (t.place q) (rowList e.trunc e.kept)).landTile q (some (oidx, t.gen)) 260).onSeam q e.id fun e =>
        { e with done := n + 1 }
      if s.settled q oidx then s.completeSeam q e else s
    | none => s.completeSeam q e
  else if s.settled q oidx then s.completeSeam q e else s

def State.probeAct (s : State) (q : Nat) (e : SeamEntry) (tabs : List ProbeTab) (multi : Bool) (oidx : Nat) : State :=
  let vs := probeVisits tabs multi
  match vs[e.done]? with
  | none => s.probeEnd q e oidx vs.length
  | some (d, va) =>
    match chainAt s e.ctx d va .load with
    | .error f => s.haltSeam q e f
    | .ok ch =>
      let k := keepIds e.kept e.trunc (chainIds d ch)
      s.onSeam q e.id fun e => { e with done := e.done + 1, kept := k.1, trunc := k.2 }

/-- The table, by its number in the list, of each visit of a probe. -/
def visitTabs (tabs : List ProbeTab) (multi : Bool) : List Nat :=
  tabs.zipIdx.flatMap fun t => (probeVisits [t.1] multi).map fun _ => t.2

/-- The ids that a prefetch finds, each with the number of a table in which it was found: at most 64 of them (R200, R210). -/
def keepFound (tab : Nat) (kept : List Nat) : List Nat → List Nat
  | [] => kept
  | i :: is =>
    let x := i + 2 ^ 32 * tab
    if kept.contains x || (64 ≤ (dedup (kept.map (· % 2 ^ 32))).length && !kept.any (· % 2 ^ 32 == i)) then keepFound tab kept is
    else keepFound tab (kept ++ [x]) is

/-- The row cache holds the rows that a prefetch finds, each for the tables in which it was found, where the context owns the partition
(R210). -/
def State.cacheRows (s : State) (q : Nat) (e : SeamEntry) (tabs : List ProbeTab) : State :=
  tabs.zipIdx.foldl (fun s t => match t.1.table.parsed with
    | none => s
    | some d =>
      if d.rcen && bitAt (s.reg (hifCtx e.ctx (0x40 + 8 * (q / 32)))) d.rcpart then
        let rows := (e.kept.filter fun x => x / 2 ^ 32 == t.2).filterMap fun x => match dirAt s e.ctx d (x % 2 ^ 32) .load with
          | .ok r => some (d.rcpart, t.1.table.desc, x % 2 ^ 32, r.gen)
          | .error _ => none
        let x := s.quad q
        s.setQuad q { x with rowCache := x.rowCache ++ rows }
      else s) s

def State.preAct (s : State) (q : Nat) (e : SeamEntry) (tabs : List ProbeTab) (multi : Bool) : State :=
  match (probeVisits tabs multi)[e.done]? with
  | none => (s.cacheRows q e tabs).completeSeam q e
  | some (d, va) =>
    match chainAt s e.ctx d va .load with
    | .error _ => s.completeSeam q e
    | .ok ch =>
      let k := keepFound ((visitTabs tabs multi).getD e.done 0) e.kept (chainIds d ch)
      s.onSeam q e.id fun e => { e with done := e.done + 1, kept := k }

/-- Writes one gathered row: its elements in the reservation's format, and zeros after them. -/
def State.putGathered (s : State) (q : Nat) (t : Tile) (r : ResRec) (row : Nat) (fmt : Ty) (dim bytes : Nat) : State :=
  (List.range (r.rowlen / 16)).foldl (fun s b =>
    s.putBlock q t r row b (if b < dim / 16 then rowBlockIn fmt r.fmt bytes b else 0)) s

def State.zeroRow (s : State) (q : Nat) (t : Tile) (r : ResRec) (row : Nat) : State :=
  (List.range (r.rowlen / 16)).foldl (fun s b => s.putBlock q t r row b 0) s

/-- An act of a gather: one word of a row is read, and a row read whole is converted and stored (R209, R214, R429). -/
def State.gatherAct (s : State) (q : Nat) (e : SeamEntry) (table : TableRef) (lidx ridx rrow : Nat) : State :=
  match table.parsed, s.operand q ridx, s.tile? q lidx with
  | some d, some (t, r), some lt =>
    let ids := (s.listIds q lt).take (r.rows - rrow)
    if s.listPoisoned q lt then s.haltSeam q e { cls := .eccFatal, addr := 0 }
    else match ids[e.done]? with
    | none =>
      let s := if e.done = ids.length then
          (((List.range (r.rows - rrow - ids.length)).foldl (fun s i => s.zeroRow q t r (rrow + ids.length + i)) s).landTile q
            (some (ridx, t.gen)) (r.bytesFrom rrow)).onSeam q e.id fun e => { e with done := ids.length + 1 }
        else s
      if s.settled q ridx then s.completeSeam q e else s
    | some i =>
      let next (s : State) : State := s.onSeam q e.id fun e => { e with done := e.done + 1, kept := [] }
      if i = 0xFFFFFFFF then next (s.zeroRow q t r (rrow + e.done))
      else if d.rows ≤ i then s.haltSeam q e { cls := .seamBadTable, addr := table.desc }
      else match dirAt s e.ctx d i .load with
        | .error f => s.haltSeam q e f
        | .ok en =>
          let n := rowBlock en.fmt * (d.dim / 16)
          match readRowWord s e.ctx (if en.repl = 0 then en.home else en.repl) n e.kept.length with
          | .error f => s.haltSeam q e f
          | .ok w =>
            let ws := e.kept ++ [w]
            if 4 * ws.length < n then s.onSeam q e.id fun e => { e with kept := ws }
            else next (s.putGathered q t r (rrow + e.done) en.fmt d.dim (natOfWords ws))
  | _, _, _ => s.completeSeam q e

/-- The lanes receive their status, and the entry completes. -/
def State.lanesDone (s : State) (q : Nat) (e : SeamEntry) (ls : List SeamLane) : State :=
  ((ls.zip e.kept).foldl (fun s l => s.onThread l.1.uid fun t => t.setReg l.1.dreg (BitVec.ofNat 32 l.2)) s).completeSeam q e

def State.insAct (s : State) (q : Nat) (e : SeamEntry) (ls : List SeamLane) : State :=
  match ls[e.done]? with
  | none => s.lanesDone q e ls
  | some l =>
    match l.table.parsed, elemPlace s e.ctx l.table.desc 256 .atomic with
    | some d, .ok dp =>
      match insertId s e.ctx e.core dp d (d.receiving.bucket l.code) l.id with
      | .error f => s.haltSeam q e f
      | .ok (s, st) => s.onSeam q e.id fun e => { e with done := e.done + 1, kept := e.kept ++ [st] }
    | _, .error f => s.haltSeam q e f
    | none, _ => s.lanesDone q e ls

def State.delAct (s : State) (q : Nat) (e : SeamEntry) (ls : List SeamLane) : State :=
  match ls[e.done]? with
  | none => s.lanesDone q e ls
  | some l =>
    match l.table.parsed with
    | none => s.lanesDone q e ls
    | some d =>
      let old : Except Flt (State × Nat) := if d.mig then deleteId s e.ctx e.core d (d.now.bucket l.oldc) l.id else .ok (s, 1)
      match old with
      | .error f => s.haltSeam q e f
      | .ok (s1, a) =>
        match deleteId s1 e.ctx e.core d (d.receiving.bucket l.code) l.id with
        | .error f => s1.haltSeam q e f
        | .ok (s2, b) => s2.onSeam q e.id fun e => { e with done := e.done + 1, kept := e.kept ++ [min a b] }

/-- CURSOR after the claims of a table that remain: the lowest of them, or CLAIM. DEDUCED (log entry 26). -/
def State.cursorOf (s : State) (p : PAddr) (claim : Nat) : Nat :=
  (minBy (fun a b => decide (a ≤ b)) ((s.claims.filter fun c => c.1 == p).map (·.2))).getD claim

/-- The ids of one old bucket go into the next version (R204). DESIGN CHOICE (log entry 22). -/
def migrate (s : State) (e : SeamEntry) (q : Nat) (dp : PAddr) (d : Desc) (fam : Family) : List Nat → Except Flt State
  | [] => .ok s
  | i :: is =>
    match dirAt s e.ctx d i .load with
    | .error f => .error f
    | .ok en => match readRow s e.ctx d en with
      | .error f => .error f
      | .ok bytes =>
        let code := s.hashCode q fam (rowF16 en.fmt d.dim bytes)
        match insertId s e.ctx e.core dp d (d.next.bucket code) i with
        | .error f => .error f
        | .ok (s', st) =>
          let lostAt := dp.plus (0x2C + 16 * (1 - d.cur))
          let s' := if st = 2 ∨ st = 3 then s'.engineWrite e.ctx e.core lostAt (bytesOfNat (s'.natAt lostAt 4 + 1) 4) else s'
          migrate s' e q dp d fam is

/-- One old bucket of a rehash migrates (R204). DEDUCED (log entry 26). Where the family of the next version has been emptied since the
issue the command halts with SEAM_BAD_TABLE. DESIGN CHOICE (log entry 92). -/
def State.rehashAct (s : State) (q : Nat) (e : SeamEntry) (table : TableRef) (first count : Nat) : State :=
  if count ≤ e.done then s.completeSeam q e
  else match table.parsed, elemPlace s e.ctx table.desc 256 .atomic with
    | some d, .ok dp =>
      match s.family e.core d.next.fam with
      | none => s.haltSeam q e { cls := .seamBadTable, addr := table.desc }
      | some fam =>
        let b := first + e.done
        if s.planesPoisoned q fam then s.haltSeam q e { cls := .eccFatal, addr := 0 }
        else match chainAt s e.ctx d (d.now.bkt + 64 * b) .load with
        | .error f => s.haltSeam q e f
        | .ok ch => match migrate s e q dp d fam (chainIds d ch) with
          | .error f => s.haltSeam q e f
          | .ok s =>
            let s : State := { s with claims := s.claims.filter fun c => !(c.1 == dp && c.2 == b) }
            let cursor := s.cursorOf dp (bits (s.natAt (dp.plus 4) 4) 24 0)
            let w0 := s.natAt dp 4
            (s.putDesc e.ctx e.core dp [(0, 4, setBits w0 24 0 cursor)]).onSeam q e.id fun e => { e with done := e.done + 1 }
    | _, .error f => s.haltSeam q e f
    | none, _ => s.completeSeam q e

/-- The pool buckets of every chain of a version. -/
def poolUsed (s : State) (ctx : Nat) (d : Desc) (v : Version) : Except Flt (List Nat) :=
  (List.range (2 ^ v.log2b)).foldr (fun b acc => match acc, chainAt s ctx d (v.bkt + 64 * b) .load with
    | .error f, _ => .error f
    | _, .error f => .error f
    | .ok l, .ok ch => .ok (ch.filterMap (·.1) ++ l)) (.ok [])

/-- Links pool buckets into a list through their slot 0. DEDUCED (log entry 24). -/
def linkPool (s : State) (ctx core : Nat) (d : Desc) : List Nat → Except Flt State
  | [] => .ok s
  | i :: is => match poolPlace s ctx d i with
    | .error f => .error f
    | .ok p => linkPool (s.engineWrite ctx core p (bytesOfNat (is.head?.getD 0xFFFFFFFF) 4)) ctx core d is

def State.finAct (s : State) (q : Nat) (e : SeamEntry) (table : TableRef) : State :=
  match elemPlace s e.ctx table.desc 256 .atomic with
  | .error f => s.haltSeam q e f
  | .ok dp => match descOf (s.bytesAt dp 256) with
    | none => s.haltSeam q e { cls := .seamBadTable, addr := table.desc }
    | some d =>
      if !d.mig || d.cursor != 2 ^ d.now.log2b then s.completeSeam q e
      else
        let used := if d.policy = 2 then poolUsed s e.ctx d d.now else .ok []
        match used, (match used with | .ok (_ :: _) => freePool s e.ctx d table.desc d.pooln d.freehead | _ => .ok []) with
        | .error f, _ => s.haltSeam q e f
        | _, .error f => s.haltSeam q e f
        | .ok used, .ok list =>
          let free := sortBy (fun a b => decide (a ≤ b)) (dedup (list ++ used))
          match (if used.isEmpty then .ok s else linkPool s e.ctx e.core d free) with
          | .error f => s.haltSeam q e f
          | .ok s =>
            let head := if used.isEmpty then d.freehead else free.head?.getD 0xFFFFFFFF
            (s.putDesc e.ctx e.core dp [(0, 4, d.word0 false (1 - d.cur) d.cursor), (0x4C, 4, head)]).completeSeam q e

/-- The DIM master elements of a row, as FP32 bits. -/
def masterRow (s : State) (ctx : Nat) (d : Desc) (id : Nat) : Except Flt (List Nat) :=
  (List.range d.dim).foldr (fun i acc =>
    match acc, elemPlace s ctx (BitVec.ofNat 64 (d.master + 4 * (d.dim * id + i))) 4 .load with
    | .error f, .ok _ => .error f
    | _, .error f => .error f
    | .ok l, .ok p => .ok (s.natAt p 4 :: l)) (.ok [])

/-- Master elements in a stored row's format. -/
def storedRow (fmt : Ty) (xs : List Nat) : List Byte :=
  (List.range (xs.length / 16)).flatMap fun b =>
    let vs := (xs.drop (16 * b)).take 16
    if isKx fmt then bytesOfNat (kxQuant fmt .f32 (vs.map Fmt.f32.val)) (kxBytes fmt)
    else vs.flatMap fun v => bytesOfNat (engineCvt .f32 .f16 v) 2

/-- Writes a stored row at an address. -/
def State.writeRow (s : State) (ctx core va : Nat) (bs : List Byte) : Except Flt State :=
  match rowPlaces s ctx va bs.length .store with
  | .error f => .error f
  | .ok ps => .ok (ps.zipIdx.foldl (fun s p => s.engineWrite ctx core p.1 ((bs.drop (2 * p.2)).take 2)) s)

/-- An act of a publication: a row's master is read and converted, one word of HOME or then of REPL is written, or the generation
is (R213, R214). -/
def State.pubAct (s : State) (q : Nat) (e : SeamEntry) (table : TableRef) (idx : Nat) : State :=
  match table.parsed, s.tile? q idx with
  | some d, some lt =>
    let ids := s.listIds q lt
    if s.listPoisoned q lt then s.haltSeam q e { cls := .eccFatal, addr := 0 }
    else match ids[e.done]? with
    | none => s.completeSeam q e
    | some i =>
      let next (s : State) : State := s.onSeam q e.id fun e => { e with done := e.done + 1, kept := [] }
      if i = 0xFFFFFFFF then next s
      else if d.rows ≤ i then s.haltSeam q e { cls := .seamBadTable, addr := table.desc }
      else match dirAt s e.ctx d i .atomic, e.kept with
        | .error f, _ => s.haltSeam q e f
        | .ok _, home :: repl :: n :: w :: ws =>
          let at_ := pubWord home repl n (ws.length + 1)
          (match s.writeRow e.ctx e.core at_.1 (bytesOfNat w at_.2) with
          | .error f => s.haltSeam q e f
          | .ok s => s.onSeam q e.id fun e => { e with kept := home :: repl :: n :: ws })
        | .ok en, [_, _, _] =>
          next (s.engineWrite e.ctx e.core (en.at_.plus 8) (bytesOfNat ((en.gen + 1) % 4096 * 2 ^ 52 + en.repl) 8))
        | .ok en, _ => match masterRow s e.ctx d i with
          | .error f => s.haltSeam q e f
          | .ok xs =>
            let bs := storedRow en.fmt xs
            let ws := rowWords bs.length bs
            s.onSeam q e.id fun e => { e with kept := en.home :: en.repl :: bs.length :: (ws ++ (if en.repl = 0 then [] else ws)) }
  | _, _ => s.completeSeam q e

/-- The next act of an entry's work; after its last act, the entry completes. -/
def execSeamEntryComplete (quad entry : Nat) (s : State) : Host.Outcome State Fault Refusal :=
  match (s.quad quad).seams.find? fun e => e.id == entry with
  | none => .next s
  | some e =>
    if !s.seamMay quad e then .next s
    else
      let s := (s.beginSeam quad e).reachTable e.core e.ctx (s.seamVas quad e)
      match e.op with
      | .probe tabs multi oidx => .next (s.probeAct quad e tabs multi oidx)
      | .pre tabs multi => .next (s.preAct quad e tabs multi)
      | .gather table l r row _ => .next (s.gatherAct quad e table l r row)
      | .ins ls => .next (s.insAct quad e ls)
      | .del ls => .next (s.delAct quad e ls)
      | .rehash table first count => .next (s.rehashAct quad e table first count)
      | .ver => .next (s.completeSeam quad e)
      | .fin table => .next (s.finAct quad e table)
      | .publish table idx => .next (s.pubAct quad e table idx)

end Sys2Proof.Machine
end

