-- ==== Sys2Proof/Machine/Tasks.lean ====
section
/-! DEFINITION. Majors 0x3B and 0x3C: posting and arming tasks, dependence counters and receive windows (R118, R441 to
R449); and the submission port (R99, R450). -/

namespace Sys2Proof.Machine

/-- An instruction whose act on shared objects is a release at `.team`: it issues once the thread's earlier accesses have
been performed; the lanes act in position order (R442). DEDUCED (log entry 35). -/
def State.releasing (k : Opc) (o : Op) (s : State) (act : Group → State → Thread → Except Flt State) :
    Host.Outcome State Fault Refusal :=
  s.issue k o fun g xs =>
    if heldBack xs || !(xs.all fun t => s.quiet t.uid) then .stall else Body.of (inOrder s xs (act g))

/-! ## Tasks (R443, R444) -/

/-- The predicate of `task.post` and `task.arm`. -/
def taskPred (o : Op) : Nat := if o.len.isExt then o.aux.toNat else o.a.toNat % 8

/-- The entry that the literal names, if an entry record of the thread's launch has it (R325). -/
def State.taskEntry (s : State) (g : Group) (t : Thread) (o : Op) : Except Flt DWord :=
  let va := g.pc + o.litFor t
  if s.hasEntry t va [2, 3] then .ok va else .error illegalState

/-- Posts a task if the core has a free pool record. -/
def State.postTask (s : State) (core : Nat) (k : Task) : Option State :=
  let c := s.core core
  if 2048 ≤ c.pool.length then none
  else some ((s.setCore core { c with pool := c.pool ++ [k] }).bumpPerf core 9 1)

def execTaskPost (o : Op) (s : State) : Host.Outcome State Fault Refusal :=
  s.releasing .taskPost o fun g s t =>
    (s.taskEntry g t o).map fun va =>
      let k : Task := { team := t.team, entry := va, record := t.regsFrom o.b.toNat 8, posted := s.clock }
      match s.postTask g.core k with
      | some s => s.onThread t.uid fun t => t.setPred (taskPred o) true
      | none => s.onThread t.uid fun t => t.setPred (taskPred o) false

/-- The record of an armed task: in the issuing team's own memory (R444). -/
def State.armPlace (s : State) (t : Thread) (va : Word) : Except Flt Nat :=
  let a := va.toNat
  let bad (c : Cls) : Flt := { cls := c, addr := va.setWidth 64 }
  if a % 32 ≠ 0 then .error (bad .misalign)
  else if bits a 31 20 ≠ 15 then .error (bad .pageForm)
  else match s.teamPlace t va 32 32 with
    | .ok p => .ok p.addr
    | .error e => .error (bad e)

/-- An arm joins the end of its counter's list; on a counter that is 0 the list is posted at once. -/
def State.arm (s : State) (core : Nat) (a : Arm) : State :=
  let c := s.core core
  let zero := s.counter core a.counter == 0
  let arms := c.arms ++ [a]
  let arms := if zero then arms.map fun x => if x.counter == a.counter then { x with due := true } else x else arms
  (s.setCore core { c with arms := arms }).postDue core

def execTaskArm (o : Op) (s : State) : Host.Outcome State Fault Refusal :=
  s.releasing .taskArm o fun g s t =>
    (s.taskEntry g t o).bind fun va => (s.armPlace t (t.reg o.b.toNat)).map fun addr =>
      if 512 ≤ (s.core g.core).arms.length then s.onThread t.uid fun t => t.setPred (taskPred o) false
      else
        let a : Arm := { counter := o.d.toNat, team := t.team, entry := va, addr, due := false }
        (s.arm g.core a).onThread t.uid fun t => t.setPred (taskPred o) true

/-! ## Dependence counters (R445, R446) -/

/-- `cnt.init` posts nothing. -/
def execCntInit (o : Op) (s : State) : Host.Outcome State Fault Refusal :=
  s.releasing .cntInit o fun g s t => .ok (s.setCounter g.core o.d.toNat (o.srcB32 t) false)

def execCntAdd (o : Op) (s : State) : Host.Outcome State Fault Refusal :=
  s.releasing .cntAdd o fun g s t =>
    .ok (s.setCounter g.core o.d.toNat (s.counter g.core o.d.toNat + o.srcB32 t) true)

def execCntRd (o : Op) (s : State) : Host.Outcome State Fault Refusal :=
  s.issue .cntRd o fun g xs =>
    if heldBack xs then .stall
    else
      let v := s.counter g.core o.a.toNat
      .done (s.onThreads (xs.map (·.uid)) fun t => (t.observe s.nextId).setReg o.d.toNat v)

/-! ## Receive windows (R447) -/

/-- The pages of a range in turn: each one's place and length, or what it takes (R447). -/
def windowPages (s : State) (ctx : Nat) : Nat → Nat → Nat → List (Except Flt (PAddr × Nat))
  | 0, _, _ => []
  | k + 1, va, n =>
    if n = 0 then []
    else
      let here := min n (65536 - va % 65536)
      let page : Except Flt (PAddr × Nat) := match translate s ctx (BitVec.ofNat 64 va) .store with
        | .error e => .error { cls := e, addr := BitVec.ofNat 64 va }
        | .ok x => if x.cls = 2 then .error { cls := .pagePerm, addr := BitVec.ofNat 64 va } else .ok (x.at_, here)
      page :: windowPages s ctx k (va + here) (n - here)

/-- The places of a range, page by page, or the first class that one of its pages takes, at the lowest such page (R272, R447). -/
def windowRanges (s : State) (ctx k va n : Nat) : Except Flt (List (PAddr × Nat)) :=
  let ps := windowPages s ctx k va n
  (firstOf (ps.map fun p => match p with | .error f => some f | .ok _ => none)).map fun _ => ps.filterMap fun p => p.toOption

/-- The translations of a range enter the TLBs. -/
def State.notePages (s : State) (core ctx va n : Nat) : State :=
  (List.range ((va % 65536 + n + 65535) / 65536)).foldl (fun (s : State) i =>
    s.noteTlb core ctx (BitVec.ofNat 64 (va / 65536 * 65536 + 65536 * i))) s

def execWinArm (o : Op) (s : State) : Host.Outcome State Fault Refusal :=
  s.issue .winArm o fun g xs =>
    if heldBack xs then .stall
    else Body.of (inOrder s xs fun s t =>
      let va := t.pair o.a.toNat
      let n := (o.srcB32 t).toNat
      let idx := (o.imm.extractLsb' 0 4).toNat
      let c := s.core g.core
      let others := c.windows.filter fun w => w.index != idx
      if n = 0 then .ok (s.setCore g.core { c with windows := others })
      else if va.toNat % 256 ≠ 0 ∨ n % 256 ≠ 0 ∨ 2 ^ 31 < n then .error { cls := .misalign, addr := va }
      else (windowRanges s g.ctx 32769 va.toNat n).map fun rs =>
        let w : Window := { index := idx, counter := o.d.toNat, ranges := rs, len := n, count := 0, reload := o.imm.getLsbD 4 }
        (s.setCore g.core { c with windows := others ++ [w] }).notePages g.core g.ctx va.toNat n)

/-! ## The submission port (R99, R450) -/

def State.queue? (s : State) (c q : Nat) : Option Queue := Tab.find (16 * c + q) s.queues

/-- The place of slot `n` of a device-fed ring, or of a host-fed one, which the host translates under the context's PASID or
refuses (R82). DESIGN CHOICE (log entry 67). -/
def State.slotPlace (s : State) (c q n : Nat) : Except Cls PAddr :=
  match s.queue? c q with
  | none => .error .pageAbsent
  | some r =>
    let va := r.base + BitVec.ofNat 64 (64 * (n % 2 ^ r.log2))
    if r.device then
      match translate s c va .load with
      | .error e => .error e
      | .ok x => if x.cls = 0 then .ok x.at_ else .error .pagePerm
    else match s.hostRuns c false va.toNat 64 with
      | some ((p, _) :: _) => .ok p
      | _ => .error .pageAbsent

/-- What a queue answers a posted packet: its status, and the queue with the packet in it. Where several statuses hold, which R99
does not rank, the first of DISABLED, STOPPED, TYPE and FULL is answered; a packet whose slot does not translate, of which R99
does not speak, is accepted and lost to the ring, and the queue finds the slot unreadable (R98).
DESIGN CHOICE (log entry 69). -/
def State.postPacket (s : State) (c core q : Nat) (ws : List Word) : State × Nat :=
  let type := (ws.getD 0 0).toNat % 256
  let head := s.reg (hifQ c q 0x10)
  let tail := s.reg (hifQ c q 0x14)
  match s.queue? c q with
  | none => (s, 2)
  | some r =>
    if bitAt (s.reg (hifQ c q 8)) 31 = false then (s, 2)
    else if bitAt (s.reg (hifQ c q 0x18)) 1 then (s, 3)
    else if type = 6 ∨ type = 8 then (s, 4)
    else if 2 ^ r.log2 ≤ (tail + 2 ^ 32 - head) % 2 ^ 32 then (s, 1)
    else
      let s := match s.slotPlace c q tail with
        | .ok p => s.engineWrite c core p (ws.flatMap bytesOfWord)
        | .error _ => s
      (s.setReg (hifQ c q 0x14) ((tail + 1) % 2 ^ 32), 0)

/-- The queue whose port an address names. -/
def State.portAt (s : State) (c : Nat) (va : DWord) : Except Flt Nat :=
  match portOf s c va.toNat with
  | none => .error { cls := .pagePerm, addr := va }
  | some q => .ok q

def execPost64 (o : Op) (s : State) : Host.Outcome State Fault Refusal :=
  s.releasing .post64 o fun g s t =>
    let va := t.pair o.a.toNat
    if va.toNat % 64 ≠ 0 then .error { cls := .misalign, addr := va }
    else (s.portAt g.ctx va).map fun q =>
      let r := s.postPacket g.ctx g.core q (t.regsFrom o.b.toNat 16)
      r.1.onThread t.uid fun t => t.setReg o.d.toNat (BitVec.ofNat 32 r.2)

end Sys2Proof.Machine
end

