-- ==== Sys2Proof/Machine/Resume.lean ====
section
/-! DEFINITION. Fault queues (R100, R101), and the return from a stop: what RETRY, SKIP and KILL do to a stopped group and
to a stopped command (R277 to R279). -/

namespace Sys2Proof.Machine

/-! ## Writing a record (R100) -/

def FRec.toBytes (r : FRec) (seq pkg : Nat) : List Byte :=
  bytesOfNat seq 4 ++
  bytesOfNat ((if r.burst then 2 ^ 25 else 0) + (if r.isAsync then 2 ^ 24 else 0) + r.queue % 256 * 2 ^ 16 + r.code % 2 ^ 16) 4 ++
  bytesOfNat r.addr.toNat 8 ++ bytesOfNat r.pc.toNat 8 ++ bytesOfNat r.cmdseq.toNat 4 ++
  bytesOfNat (pkg % 64 * 256 + r.core % 256) 4 ++ bytesOfNat (r.threads % 2 ^ 16 * 2 ^ 16 + r.slot % 2 ^ 16) 4 ++ bytesOfNat 0 4 ++
  bytesOfNat r.stamp 8 ++ bytesOfNat 0 16

/-- The oldest record of a context that has not been written. -/
def State.heldRec (s : State) (c : Nat) : Option FRec := s.records.find? fun r => r.ctx == c && r.seq.isNone

/-- A record may be written: the queue has a place and is not full, and no refused write waits for the driver. -/
def State.fqOpen (s : State) (c : Nat) : Bool :=
  s.reg (hifCtx c 0x18) != 0 && !s.fqWait.contains c &&
  decide ((s.reg (hifCtx c 0x28) + 2 ^ 32 - s.reg (hifCtx c 0x2C)) % 2 ^ 32 < 2 ^ bits (s.reg (hifCtx c 0x20)) 4 0)

/-- Only the records of a stop, and a burst's, can be acted on once they are written. -/
def FRec.kept (r : FRec) : Bool := r.stop != 0 || r.burst

/-- The oldest held record is written and TAIL advances, and after the last record of its stop the interrupt follows; or
the host refuses the write, and the record stays held. PKG of a context that is no pod context is 0, also where the package is a
member with another SELF: the spec gives it for `$pkg` only (R318). DESIGN CHOICE (log entry 70). -/
def execFqRecordWrite (ctx : Nat) (accepted : Bool) (s : State) : Host.Outcome State Fault Refusal :=
  match s.heldRec ctx with
  | none => .next s
  | some r =>
    if !s.fqOpen ctx then .next s
    else if !accepted then
      .next ({ s with fqWait := ctx :: s.fqWait }.setReg (hifCtx ctx 0x38) (setBits (s.reg (hifCtx ctx 0x38)) 4 4 1))
    else
      let tail := s.reg (hifCtx ctx 0x28)
      let size := 2 ^ bits (s.reg (hifCtx ctx 0x20)) 4 0
      let place : PAddr := ⟨.host, s.reg (hifCtx ctx 0x18) + 64 * (tail % size)⟩
      let s := (s.putBytes place (r.toBytes tail (s.pkgOf ctx))).setReg (hifCtx ctx 0x28) ((tail + 1) % 2 ^ 32)
      let note (x : FRec) : FRec := if x.rid == r.rid then { x with seq := some (BitVec.ofNat 32 tail) } else x
      let s : State := { s with records := (s.records.map note).filter fun x => x.rid != r.rid || x.kept }
      .next (if r.isLast then s.raise (s.ctxFunc ctx) (bits (s.reg (hifCtx ctx 0x20)) 26 16) else s)

/-! ## A stopped group (R278) -/

/-- The action that a thread of a stopped group takes. -/
def actionOf (rs : List FRec) (uid : Nat) : Action :=
  match (rs.filter fun r => r.named.contains uid).filterMap (·.acted) with
  | [] => if rs.all fun r => r.acted == some .skip then .skip else .retry
  | as => if as.contains .kill then .kill else if as.contains .retry then .retry else .skip

/-- A word is a control transfer. -/
def isTransfer (bs : List Byte) : Bool :=
  match decodeBytes bs with
  | .ok i => match i.opc? with
    | some (k, _) => k.transfer
    | none => false
  | .error _ => false

/-- A word is a long-latency instruction (R311). -/
def isLong (bs : List Byte) : Bool :=
  match decodeBytes bs with
  | .ok i => match i.opc? with
    | some (k, _) => k.long
    | none => false
  | .error _ => false

/-- A group past an instruction that is skipped (R278): a control transfer, or the last of its clause, goes on at the clause
header that follows; after an unassigned encoding that is not the last, whose length finds no following instruction (R317), the clause
is read on from the next word. DEDUCED (log entry 48). -/
def State.skipOver (s : State) (g h : Group) : Group :=
  let bs := s.groupBytes g
  match h.clause with
  | none => { h.atHeader h.pc with ready := s.clock }
  | some c =>
    if isTransfer bs then { h.atHeader (h.pc + BitVec.ofNat 64 (4 * c.words.length)) with ready := s.clock }
    else
      let h := { h with wait := .none, ready := s.clock }
      if (decodeBytes bs).toOption.isSome || decide (c.left ≤ 1) then h.past (s.instrLen g) (isLong bs)
      else
        let rest := (fetchInstrs s g.ctx (s.leadLaunch g) (c.left - 1) (g.pc + 4)).toOption.getD []
        { h with clause := some { c with words := c.words.take 1 ++ rest } }.past 4 false

/-- What keeps a group from reading its clause on after an unassigned encoding. -/
def State.skipFails (s : State) (g : Group) : Option (Cls × DWord) :=
  match g.clause with
  | some c =>
    if isTransfer (s.groupBytes g) || (decodeBytes (s.groupBytes g)).toOption.isSome then none
    else match fetchInstrs s g.ctx (s.leadLaunch g) (c.left - 1) (g.pc + 4) with
      | .error e => some e
      | .ok _ => none
  | none => none

/-- RETURN FROM A STOP: each thread goes on as its record's action says. A stop at a clause boundary, or a deferred one, is
judged again there with the clause fetched afresh, but for a deferred one before an `exit`, which is issued again; an exact
stop is re-executed in its clause, or passed over; after a BREAK the clause is fetched afresh, and a fetch that fails stops the
group there. Threads that were to exit go on waiting to. DEDUCED (log entry 48). -/
def State.resumeGroup (s : State) (g : Group) (st : Stop) (rs : List FRec) : State :=
  let of_ (a : Action) : List Nat := g.members.filter fun u => actionOf rs u == a
  let dead := of_ .kill
  let n := s.nextId
  let s : State := { s with nextId := n + 1 }
  if (s.membersOf g).any (·.leaving) then
    (s.onGroup g.gid fun h => { h with wait := .exit }).settleExits
  else if st.boundary || g.clause.isNone then
    let back (h : Group) : Group :=
      if st.deferred && h.clause.isSome then { h with wait := .none, ready := s.clock }
      else { h.atHeader h.pc with bpSkip := if st.deferred then h.bpSkip else some h.pc, ready := s.clock }
    let s := s.onGroup g.gid back
    let s := if st.deferred then s else s.onThreads g.members fun t => { t with synced := n }
    s.endThreads dead
  else
    let s := if st.isBrk then s.onThreads g.members fun t => { t with synced := n } else s
    let fresh := fetchInstrs s g.ctx (s.leadLaunch g) (match g.clause with | some c => c.left | none => 0) g.pc
    let words := if st.isBrk then fresh.toOption else none
    let again (h : Group) : Group :=
      { h with wait := .none, ready := s.clock, bpSkip := if st.isBrk then some g.pc else h.bpSkip,
               clause := h.clause.map fun c => { c with words := words.getD c.words } }
    let parts := [(of_ .retry, again), (of_ .skip, s.skipOver g)].filter fun p => !p.1.isEmpty
    let s := (s.splitGroup g parts).endThreads dead
    let s := match s.skipFails g with
      | some e => (s.groups.filter fun h => h.members.any (of_ .skip).contains).foldl (fun (s : State) h =>
          s.takeStop h h.pc false ((s.membersOf h).map fun t => (t, { cls := e.1, addr := e.2 }))) s
      | none => s
    match st.isBrk, fresh with
    | true, .error e => (s.groups.filter fun h => h.pc == g.pc && h.members.any (of_ .retry).contains).foldl (fun (s : State) h =>
        let s := s.takeStop h h.pc false ((s.membersOf h).map fun t => (t, { cls := e.1, addr := e.2 }))
        { s with stops := s.stops.map fun x => if x.what == .group h.gid then { x with isBrk := true } else x }) s
    | _, _ => s

/-! ## A stopped command (R279) -/

/-- An abandoned seam instruction completes, and what it fills counts as landed. -/
def State.abandonSeam (s : State) (q : Nat) (e : SeamEntry) : State :=
  let s := match e.op with
    | .probe _ _ o => s.landTile q ((s.tile? q o).map fun (t : Tile) => (o, t.gen)) 260
    | .gather _ _ r row _ => (match s.operand q r with
      | some (t, rr) => s.landTile q (some (r, t.gen)) (rr.bytesFrom row)
      | none => s)
    | _ => s
  s.completeSeam q e

/-- RETRY restarts a command, a lode operation with its region translated afresh (R176); SKIP and KILL abandon it. -/
def State.resumeCmd (s : State) (what : StopOf) (again : Bool) : State :=
  match what with
  | .group _ | .context => s
  | .cmd core id =>
    match s.cmd? core id with
    | none => s
    | some c => if again then s.onCmd core id fun c => { c with halted := none, upTo := 0 } else s.abandonCmd c
  | .ring core id =>
    let s := s.setCore core { s.core core with ringStop := none }
    match s.cmd? core id with
    | some c => if again then s.refillQueue core else (s.abandonCmd c).refillQueue core
    | none => s
  | .entry q id =>
    match (s.quad q).entries.find? fun e => e.id == id with
    | none => s
    | some e =>
      if again then s.onEntry q id fun e => { e with halted := none }
      else if s.bulkAway id then
        s.onEntry q id fun e => { e with halted := none, flushed := match e.op with | .flush _ r _ => r.n | _ => e.flushed }
      else (match e.op with
        | .flush acc _ _ => s.onAcc q acc fun a => a.noteLast 6 s.ns
        | _ => s).completeEntry q e
  | .seam q id =>
    match (s.quad q).seams.find? fun e => e.id == id with
    | none => s
    | some e =>
      if again then s.onSeam q id fun e => { e with halted := none }
      else s.abandonSeam q e
  | .lode op =>
    match s.lodes.find? fun l => l.op == op with
    | none => s
    | some l =>
      if again then
        let back (f : LodeReq → LodeReq) : State := { s with lodes := s.lodes.map fun x => if x.op == op then f x else x }
        match regionOf s l.ctx (l.va.toNat / 4 * 4) (if l.kind matches .load .. | .next .. | .count .. then .load else .store) with
        | .ok (d, _) => back fun x => { x with region := d, halted := none }
        | .error f =>
          if l.gid = 0 then s.lodeHalt l (f, l.va) l.kind
          else ((back fun x => { x with halted := none }).lodeRefuse { l with halted := none } (f, l.va)).settleLode l.gid
      else ((((s.lodeAnswer l id).settleLode l.gid).settleFences).settleQuad (quadOfCore l.core)).settleExits

/-- What a stop halts is held in a saved image (R282). -/
def State.stopSaved (s : State) (w : StopOf) : Bool :=
  match w with
  | .group gid => s.images.any fun i => i.groups.any fun g => g.gid == gid
  | .cmd core id | .ring core id => s.images.any fun i => i.core == core && i.coreSt.copyq.any fun c => c.id == id
  | .entry _ id => s.images.any fun i => i.entries.any fun e => e.id == id
  | .seam _ id => s.images.any fun i => i.seams.any fun e => e.id == id
  | .lode op => s.lodes.any fun l => l.op == op && s.images.any fun i => i.core == l.core && i.ctx == l.ctx
  | .context => false

/-- The groups that a stop holds: the one it stopped, or the parts of it that a load has made of changed addresses (R285). -/
def State.groupsOfStop (s : State) (sid gid : Nat) : List Group :=
  s.groups.filter fun g => g.gid == gid || g.wait == .fault sid

/-- A stop all of whose records have been acted on ends, unless what it halts is saved: then it ends at the load (R282). -/
def State.endStop (s : State) (sid : Nat) : State :=
  match s.stops.find? fun x => x.sid == sid with
  | none => s
  | some st =>
    let rs := s.records.filter fun r => r.stop == sid
    if rs.any (fun r => r.acted.isNone) || s.stopSaved st.what then s
    else
      let done : State := { s with records := s.records.filter (fun r => r.stop != sid), stops := s.stops.filter fun x => x.sid != sid }
      match st.what with
      | .group gid => (s.groupsOfStop sid gid).foldl (fun (d : State) g => d.resumeGroup g st rs) done
      | w => done.resumeCmd w (rs.all fun r => r.acted == some .retry)

/-- What an action does with the record of a number: nothing, if none is outstanding or the context is stopped. -/
def State.act (s : State) (ctx : Nat) (seq : Word) (a : Action) : State :=
  if s.ctxStopped ctx then s
  else match s.records.find? fun r => r.ctx == ctx && r.seq == some seq && r.outstanding && r.acted.isNone with
    | none => s
    | some r =>
      if r.stop = 0 then { s with records := s.records.filter fun x => x.rid != r.rid }
      else
        let mark (x : FRec) : FRec := if x.rid == r.rid then { x with acted := some a } else x
        State.endStop { s with records := s.records.map mark } r.stop

def execRetry (ctx : Nat) (seq : BitVec 32) (s : State) : Host.Outcome State Fault Refusal := .next (s.linked (s.act ctx seq .retry))

def execSkip (ctx : Nat) (seq : BitVec 32) (s : State) : Host.Outcome State Fault Refusal := .next (s.linked (s.act ctx seq .skip))

def execKill (ctx : Nat) (seq : BitVec 32) (s : State) : Host.Outcome State Fault Refusal := .next (s.linked (s.act ctx seq .kill))

end Sys2Proof.Machine
end

