-- ==== Sys2Proof/Machine/Place.lean ====
section
/-! DEFINITION. What a core has room for (R107 to R109), a core that becomes free, and the removal of teams (R37, R120,
R126). -/

namespace Sys2Proof.Machine

/-! ## Resources (R108, R109) -/

/-- A team's group slots. -/
def Team.slots (t : Team) : List Nat := t.share ++ t.embers ++ t.lent

/-- Register units of one group slot: n / 8. -/
def Team.unitsPerSlot (t : Team) : Nat := t.units / (t.share.length + t.embers.length)

/-- Register units that a team holds, those of lent slots included (R119). -/
def Team.allUnits (t : Team) : Nat := t.units + t.lent.length * t.unitsPerSlot

/-- The teams of a core as the onsetter sees it: those resident, and those that have ended without its report (R109). -/
def State.viewOn (s : State) (core : Nat) : List Team :=
  s.teamsOn core ++ (s.views.map Prod.snd).filter fun t => t.core == core

/-- DEDUCED (log entry 37). -/
def freeSlots (ts : List Team) : List Nat := (List.range 64).filter fun k => !(ts.any fun t => t.slots.contains k)
def freeUnits (ts : List Team) : Nat := 512 - (ts.map Team.allUnits).sum
/-- DEDUCED (log entry 37). -/
def freePlace (ts : List Team) : Option Nat := (List.range 8).find? fun k => !(ts.any fun t => t.place == k)

/-- The team memory of a core: 384 KiB. -/
def teamMemory : Nat := 393216

/-- A range of team memory that no team holds. -/
def rangeFree (ts : List Team) (base len : Nat) : Bool :=
  decide (base + len ≤ teamMemory) && ts.all fun t => overlap base len t.tmBase t.tmLen == 0

/-- The lowest free range of team memory. -/
def openRange (ts : List Team) (len : Nat) : Option Nat :=
  minBy (fun a b => decide (a ≤ b)) ((0 :: ts.map fun t => t.tmBase + t.tmLen).filter fun b => rangeFree ts b len)

/-- No core of a quad holds a team of another context. -/
def State.quadOpen (s : State) (ctx core : Nat) : Bool :=
  (List.range 4).all fun k => (s.viewOn (4 * quadOfCore core + k)).all fun t => t.ctx == ctx

/-- What a team takes. -/
structure Share where
  slots : Nat                -- for birth threads and tasks
  embers : Nat
  units : Nat
  mem : Nat
  deriving DecidableEq, Repr

def Kernel.threads (k : Kernel) : Nat := k.tx * k.ty * k.tz

/-- A team's share (R108). -/
def Kernel.share (k : Kernel) : Share :=
  let g := (k.threads + 127) / 128
  { slots := g, embers := k.embgrp, units := (g + k.embgrp) * k.regs / 8, mem := (k.teammem + 1023) / 1024 * 1024 }

/-- A team fits on a core (R108). -/
def State.fits (s : State) (ctx : Nat) (h : Share) (core : Nat) : Bool :=
  let ts := s.viewOn core
  s.quadOpen ctx core && !s.coreFenced core && !s.resting core &&
  decide (h.slots + h.embers ≤ (freeSlots ts).length) && decide (h.units ≤ freeUnits ts) && (freePlace ts).isSome &&
  (openRange ts h.mem).isSome

/-- Group slots in use, lent ones included (R114). -/
def State.occupied (s : State) (core : Nat) : Nat := 64 - (freeSlots (s.viewOn core)).length

/-! ## A core becomes free (R37, R107) -/

/-- Team memory passes to a context: what another context left there is zeroed (R37). DESIGN CHOICE (log entry 58). -/
def State.claimTeamMem (s : State) (ctx core : Nat) : State :=
  if Tab.find core s.teamOwner = some ctx then s
  else
    let olds := s.oldWords.filter fun w => w.at_.space != .team core
    State.lift { s with teamOwner := Tab.set core ctx s.teamOwner, teamMem := Tab.del core s.teamMem, oldWords := olds } ⟨.team core, 0⟩ teamMemory

/-- The core's buffers are zeroed, and with its last core the quad's. Team memory is zeroed now or as another context takes
it: a later team of this one finds zero or what an earlier team wrote (R115). DESIGN CHOICE (log entry 58). -/
def State.freeCore (s : State) (core : Nat) : State :=
  let q := quadOfCore core
  let x := s.quad q
  let clean (n : Space → Bool) (s : State) : State := { s with poison := s.poison.filter fun p => !n p.space }
  let s : State := { s with fabric := { s.fabric with pending := s.fabric.pending.filter fun p => !(p.owner == .pref && p.core == core) } }
  let s := clean (fun sp => sp == .regs core || sp == .l1 core || sp == .pool core || sp == .staging core || sp == .icache core ||
    sp == .icachePod core) { s with cores := Tab.del core s.cores }
  let s : State := { s with oldWords := s.oldWords.filter fun w => w.at_.space != .team core }
  let s := if Config.freeBit (s.free * 2 ^ 64 + core) then s
    else clean (· == .team core) { s with teamMem := Tab.del core s.teamMem }
  if (List.range 4).all fun k => (s.teamsOn (4 * q + k)).isEmpty then
    let olds := s.oldWords.filter fun w => w.at_.space != .opbuf q
    clean (fun sp => sp == .opbuf q || sp == .acc q) { s with quads := Tab.del q s.quads, opBuf := Tab.del q s.opBuf, oldWords := olds }
  else s.setQuad q { x with tiles := x.tiles.filter fun t => t.1 / 16 != core % 4 }

def State.freeIfIdle (s : State) (core : Nat) : State := if (s.teamsOn core).isEmpty then s.freeCore core else s

/-! ## A context's residence (R121, R122, R131) -/

/-- ONS_CTX_EFF (R124). -/
def State.effSlice (s : State) (c : Nat) : Nat :=
  let slice := bits (s.reg (onsCtx c 0)) 19 0
  if slice = 0 then 0 else min (max slice (bits (s.reg (onsCtx c 8)) 19 0 + 20)) (2 ^ 20 - 1)

/-- The drain-and-switch time of a pre-emption that ends (R124). -/
def State.noteDrain (s : State) (p : Preempt) : State :=
  let us := (s.time - p.since) / Config.unitsPerNs / 1000
  let l := (us :: Tab.get [] p.ctx s.drains).take 8
  let s : State := { s with drains := Tab.set p.ctx l s.drains, preempt := none }
  let s := s.setReg (hifCtx p.ctx 0x38) (setBits (s.reg (hifCtx p.ctx 0x38)) 2 2 0)
  let s := s.setReg (onsCtx p.ctx 8) (min (l.foldl max 0) (2 ^ 20 - 1))
  let slice := bits (s.reg (onsCtx p.ctx 0)) 19 0
  if slice ≠ 0 ∧ slice < s.effSlice p.ctx then
    s.setReg (hifCtx p.ctx 0x38) (setBits (s.reg (hifCtx p.ctx 0x38)) 3 3 1)
  else s

/-- A context that has teams again is resident from now, and its slice clock runs (R121, R122). -/
def State.noteResident (s : State) (c : Nat) : State :=
  if (Tab.find c s.resident).isSome then s
  else { s with sliceStart := Tab.set c s.time s.sliceStart, resident := Tab.set c s.time s.resident }

/-- A context whose last team has gone is no longer resident, and what was to pre-empt it is over (R122). -/
def State.noteAbsent (s : State) (c : Nat) : State :=
  if s.running c then s
  else { s with sliceStart := Tab.del c s.sliceStart, resident := Tab.del c s.resident,
                sliceDue := s.sliceDue.filter (· != c) }.setReg (onsCtx c 0x10) 0

/-! ## Removal of teams -/

/-- The stepping register of a team's core is on for it, or for its place while it is saved (R301). -/
def named (s : State) (t : Team) : Bool :=
  bitAt (s.reg (stepReg t.core)) 63 && bits (s.reg (stepReg t.core)) 2 0 == t.place &&
    (if t.saved then t.stepState.isSome else !s.stepsSaved t.core)

/-- HELD of a core of which no team is held any more is 0 (R301). -/
def State.settleHeld (s : State) (core : Nat) : State :=
  if bitAt (s.reg (stepReg core)) 62 && !(s.teams.any fun u => u.core == core && (s.teamHeld u || u.stepState == some true)) then
    s.setReg (stepReg core) (setBits (s.reg (stepReg core)) 62 62 0)
  else s

/-- What the teams wrote to their memory is performed as they end: no forge instruction of a later team finds what stood there before
it (R242, R246). -/
def State.dropOld (s : State) (ts : List Team) : State :=
  { s with oldWords := s.oldWords.filter fun w => !(ts.any fun t => w.at_.space == .team t.core && overlap w.at_.addr 4 t.tmBase t.tmLen != 0) }

/-- Teams leave: their tiles' spans are over without a record where `quiet`; what they hold returns to the core, which
reports it (R109); stepping of them ends (R301). -/
def State.removeTeams (s₀ : State) (ts : List Team) : State :=
  let s := s₀.dropOld (ts.filter fun t => !t.saved)
  let ids := ts.map (·.tuid)
  let accs (x : QuadSt) : QuadSt :=
    { x with accs := x.accs.filter fun a => !ids.contains a.2.team,
             tiles := x.tiles.filter fun t => !ids.contains t.2.team }
  let drop (c : CoreSt) : CoreSt :=
    { c with arms := c.arms.filter (fun a => !ids.contains a.team), pool := c.pool.filter fun k => !ids.contains k.team }
  let s := s.cores.foldl (fun (s : State) (e : Nat × CoreSt) => s.renumberPool e.1 fun i =>
    match e.2.pool[i]? with | some k => !ids.contains k.team | none => true) s
  let live := ts.filter fun t => !t.saved
  let views := live.foldl (fun (v : Tab Team) (t : Team) => Tab.set t.tuid t v) s.views
  let s : State := { s with teams := s.teams.filter (fun t => !ids.contains t.tuid), views := views
                            quads := s.quads.map (fun e => (e.1, accs e.2)), cores := s.cores.map fun e => (e.1, drop e.2) }
  let s := (ts.filter (named s₀)).foldl (fun (s : State) (t : Team) => s.setReg (stepReg t.core) (bits (s.reg (stepReg t.core)) 2 0)) s
  let s := (dedup (ts.map (·.core))).foldl State.settleHeld s
  let s := (dedup (live.map (·.core))).foldl State.freeIfIdle s
  let s := (dedup (ts.map (·.ctx))).foldl State.noteAbsent s
  { s with clusters := s.clusters.filter fun c => s.teams.any fun t => t.cluster == c.cuid }

/-- FORCED RESET (R126), as a disable does it too (R80): every thread of the context stops, its engine commands are
abandoned, requests that have left the collar are applied and their replies discarded, its teams are removed, and its
launches never complete. DEDUCED (log entry 43). -/
def State.resetContext (s : State) (c : Nat) : State :=
  let ts := s.teams.filter fun t => t.ctx == c
  let own := ts.map (·.tuid)
  let mine (t : Thread) : Bool := own.contains t.team
  let ids := (s.threads.filter mine).map (·.uid)
  let cores := dedup ((ts.filter fun t => !t.saved).map (·.core))
  let quads := dedup (cores.map quadOfCore)
  let inCollar (q : StageId × Req) : Bool := isCollar q.1 && q.2.ctx == c
  let atCore (st : StageId) : Bool := match st with | .collar k => cores.contains k | _ => false
  let owned (p : Pending) : Bool := match p.owner with | .thread _ => cores.contains p.core | _ => false
  let fab : Fabric := { s.fabric with
    arrivals := s.fabric.arrivals.filter (fun q => !inCollar q)
    queues := s.fabric.queues.filter (fun q => !inCollar q)
    sumps := s.fabric.sumps.filter (fun e => !atCore e.stage)
    pending := s.fabric.pending.filter (fun p => !owned p)
    deferred := s.fabric.deferred.filter fun d => !ids.contains d.uid }
  let keep (l : Late) : Bool := match l with
    | .fence u _ _ _ | .rdy u _ _ | .txbWait u _ _ _ | .seamFence u _ _ | .tlbInv u _ _ => !ids.contains u
    | .scan _ us _ _ _ _ _ _ => !(us.any fun u => ids.contains u)
    | .record _ x .. => x != c
  let idle (e : Nat × QuadSt) : Nat × QuadSt :=
    if quads.contains e.1 then (e.1, { e.2 with entries := [], waiters := [], releases := [], seams := [], pass := none }) else e
  let s : State := { s with
    threads := s.threads.filter (fun t => !mine t), groups := s.groups.filter (fun g => g.ctx != c)
    bulkWait := s.bulkWait.filter (fun e => s.groups.any fun g => g.gid == e.1 && g.ctx != c)
    enrolments := s.enrolments.filter (fun e => !(e.members.any fun u => ids.contains u))
    late := s.late.filter keep, lodes := s.lodes.filter (fun l => l.ctx != c), fabric := fab.purge
    quads := s.quads.map idle, stops := s.stops.filter (fun x => x.ctx != c)
    records := (s.records.map fun r => if r.ctx == c then { r with stop := 0, outstanding := false } else r).filter fun r =>
      r.ctx != c || r.seq.isNone
    images := s.images.filter (fun i => i.ctx != c), saves := s.saves.filter (fun x => x.ctx != c)
    launches := s.launches.filter (fun l => l.ctx != c)
    pkts := s.pkts.map fun p => if p.ctx == c && p.launch.isSome then { p with launch := none } else p }
  let s := s.removeTeams ts
  match s.preempt with
  | some p => if p.ctx = c then s.noteDrain p else s
  | none => s

end Sys2Proof.Machine
end

