-- ==== Sys2Proof/Machine/Saves.lean ====
section
/-! DEFINITION. Saving a core and loading it again (R282 to R285, R456, R457), and the moves of R34. -/

namespace Sys2Proof.Machine

/-! ## Where a thread stands (R284) -/

/-- The WAIT state of a thread. -/
def State.waitCode (s : State) (t : Thread) : Nat :=
  match s.groupOf t.uid with
  | none => 5
  | some g => match g.wait with
    | .park .. => 1
    | .join _ => 2
    | .seal => 3
    | .fault _ => 4
    | _ => 0

/-- The address at which a thread goes on. -/
def State.pcOf (s : State) (t : Thread) : DWord :=
  match s.groupOf t.uid with
  | some g => g.pc
  | none =>
    let c := s.core t.core
    match c.bins.find? fun b => b.threads.contains t.uid with
    | some b => b.key
    | none => match (c.overflow ++ c.filing).find? fun f => f.uid == t.uid with
      | some f => f.key
      | none => 0

/-! ## The image in memory (R283) -/

/-- An image's offset of a thread's register k: units of 128 threads by 8 registers, in the order of the group slots
(DEDUCED). -/
def regOff (ts : List Team) (slot k : Nat) : Nat :=
  let below := (ts.map fun t => (t.slots.filter fun g => decide (g < slot / 128)).length * t.unitsPerSlot).sum
  4096 * (below + k / 8) + 32 * (slot % 128) + 4 * (k % 8)

def kindCode : Kind → Nat
  | .birth => 0 | .task => 1 | .ember => 2

def boolsNat : List Bool → Nat
  | [] => 0
  | b :: bs => (if b then 1 else 0) + 2 * boolsNat bs

/-- The record of a live thread. -/
def State.threadRec (s : State) (ts : List Team) (t : Thread) : List Byte :=
  let g? := s.groupOf t.uid
  let gs := s.groups.filter fun g => g.core == t.core
  let num := match g? with | some g => gs.findIdx fun h => h.gid == g.gid | none => 0
  let pos := match g? with | some g => if g.byLane then t.lane else g.members.findIdx fun u => u == t.uid | none => 0
  let sealed_ := match g? with | some g => g.isSealed | none => false
  let left := match g? with | some g => (match g.wait with | .park _ d _ _ _ => d - s.clock | _ => 0) | none => 0
  bytesOfNat (s.pcOf t).toNat 8 ++
  bytesOfNat (2 ^ 31 + s.waitCode t * 2 ^ 28 + kindCode t.kind * 2 ^ 26 + num % 4096 * 2 ^ 14 + pos % 128 * 2 ^ 7 + boolsNat t.preds) 4 ++
  bytesOfNat ((if sealed_ then 2 ^ 31 else 0) + boolsNat (t.flags.map fun n => n != 0)) 4 ++
  bytesOfNat (regOff ts t.slot 0) 4 ++ bytesOfNat t.cmdseq.toNat 4 ++
  (t.joins.flatMap fun j => bytesOfNat (match j with | some e => e % (2 ^ 32 - 1) | none => 2 ^ 32 - 1) 4) ++ bytesOfNat left 8

/-- Bytes that the spec leaves open. -/
def State.openBytes (s : State) (off : Nat) : List Byte := (List.range 64).map fun i => Config.freeByte (s.free * 2 ^ 64 + off + i)

/-- A section of an image whose layout the spec does not give, as runs of 64 bytes: a free function of what it holds.
DESIGN CHOICE (log entry 39). -/
def imageSection (lo size : Nat) (holds : List Nat) : List (Nat × List Byte) :=
  (List.range (size / 64)).map fun i => (lo + 64 * i, (List.range 64).map fun j => Config.imageByte lo holds (64 * i + j))

def word64 (x : DWord) : Nat := x.toNat

/-- What the sections of a core's image hold that the spec lists and does not lay out (R283): the header; the counters, families, records,
tile entries and spill depths; the bins and the overflow list; the copy queue; the task pool; the staging buffer, each burst with its
`$bx` to `$barg` (R284); and the operand-buffer reservations. -/
def State.headerHolds (s : State) (ctx core : Nat) : List Nat :=
  let n (t : Team) : Nat := match s.launchOf t.tuid with | some l => l.kernel.regs | none => 0
  [1, ctx, core, (s.teamsOn core).length] ++ ((s.teamsOn core).flatMap fun t => [n t, t.launch, t.lin, t.index]) ++ [(s.core core).binage]

def State.coreHolds (s : State) (core : Nat) : List Nat :=
  let c := s.core core
  let tiles := (s.quad (quadOfCore core)).tiles.filter fun t => t.1 / 16 == core % 4
  (c.counters.flatMap fun e => [e.1, e.2.toNat]) ++ (c.arms.flatMap fun a => [a.counter, a.team, word64 a.entry, a.addr]) ++
    (c.fams.flatMap fun f => [f.1, f.2.idx, f.2.p, f.2.d]) ++ (c.slots.flatMap fun r => [r.1, natOfBytes r.2]) ++
    (tiles.flatMap fun t => [t.1 % 16, t.2.value, t.2.base, t.2.team]) ++
    ((s.threads.filter fun t => t.core == core).flatMap fun t => [t.slot, t.depth])

def State.binsHold (s : State) (core : Nat) : List Nat :=
  let c := s.core core
  let slot (u : Nat) : Nat := match s.thread? u with | some t => t.slot | none => 0
  (c.bins.flatMap fun b => [word64 b.key, s.clock - b.since, b.threads.length] ++ b.threads.map slot) ++
    c.overflow.flatMap fun f => [word64 f.key, s.clock - f.at_, slot f.uid]

def optNat : Option Nat → Nat
  | some n => n + 1
  | none => 0

/-- A local place as one number. -/
def placeNat (p : PAddr) : Nat :=
  p.addr * 2 ^ 16 + (match p.space with | .team c => c | .die k => 256 + k | .opbuf q => 512 + q | _ => 1024)

/-- A record with its shape. -/
def TRec.holds (r : TRec) : List Nat := [r.base, r.es, r.rd, r.ext.length] ++ r.ext ++ r.str.map fun k => (k % 2 ^ 64).toNat

/-- An operation with its places. -/
def CmdOp.holds : CmdOp → List Nat
  | .toLocal p => [0, placeNat p]
  | .fromLocal p => [1, placeNat p]
  | .toRec r => 2 :: r.holds
  | .multicast ds => 3 :: ds.flatMap fun d => [placeNat d.1, optNat (d.2.1.map placeNat), d.2.2]
  | .bzero => [4]
  | .fill row => [5, row]
  | .lode va orig ext p => [6, word64 va, optNat (p.map placeNat)] ++ orig ++ ext
  | .bread h b l v t k => [7, word64 h, b.toNat, l, v, t, k]
  | .bwrite p l v t k => [8, placeNat p, l, v, t, k]

def State.queueHolds (s : State) (core : Nat) : List Nat :=
  (s.core core).copyq.flatMap fun c => [word64 c.pc, c.seq.toNat, c.slot, c.n] ++ c.op.holds ++ c.record.holds ++
    [c.srcTy.code, c.dstTy.code, c.tbytes, optNat (c.tile.map (·.1)), optNat (c.barrier.map placeNat), optNat c.counter, optNat c.flag,
      c.nfail, c.lowfail.toNat] ++ c.todo.flatMap fun r => [r.1, r.2]

def State.poolHolds (s : State) (core : Nat) : List Nat :=
  (s.core core).pool.flatMap fun k => [k.team, word64 k.entry, k.posted] ++ k.record.map (·.toNat)

def Ember.holds (e : Ember) : List Nat := [e.bx, e.bY, e.bz, e.bseq, e.bcount, e.blen, e.barg].map (·.toNat)

def State.stagingHolds (s : State) (core : Nat) : List Nat :=
  ((s.core core).staging.flatMap fun b => [b.team, word64 b.entry, natOfBytes b.bytes] ++ b.info.holds) ++
    (s.threads.filter fun t => t.core == core).flatMap fun t => match t.ember with | some e => t.slot :: e.holds | none => []

def State.reservedHolds (s : State) (core : Nat) : List Nat :=
  let q := quadOfCore core
  ((s.quad q).tiles.filter fun t => t.1 / 16 == core % 4 && t.2.opbuf).flatMap fun t =>
    [t.1 % 16, t.2.base, t.2.len, natOfBytes (s.bytesAt ⟨.opbuf q, t.2.base⟩ t.2.len)] ++
      (match t.2.res with | some r => [elemBits r.fmt, r.rows, r.rowlen] | none => [])

/-- The image of a core as runs of at most 64 bytes. DESIGN CHOICE (log entry 39). -/
def State.imageRuns (s : State) (ctx core : Nat) : List (Nat × List Byte) :=
  let ts := s.teamsOn core
  let ths := s.threads.filter fun t => t.core == core
  let q := quadOfCore core
  let mine (i : Nat) : Option Acc := (Tab.find i (s.quad q).accs).filter fun a => a.core == core
  let open_ (lo n : Nat) := (List.range (n / 64)).map fun i => (lo + 64 * i, s.openBytes (lo + 64 * i))
  imageSection 0 0x1000 (s.headerHolds ctx core) ++ imageSection 0x1000 0x3000 (s.coreHolds core) ++
  imageSection 0x4000 0x4000 (s.binsHold core) ++ imageSection 0x8000 0x8000 (s.queueHolds core) ++
  (open_ 0x10000 0x80000).map (fun r => (r.1, match ths.find? fun t => t.slot == (r.1 - 0x10000) / 64 with
    | some t => s.threadRec ts t
    | none => ((r.2.set 11 (r.2.getD 11 0 &&& 0x7F)).set 13 (r.2.getD 13 0 &&& 0x0F)).set 14 0 |>.set 15 (r.2.getD 15 0 &&& 0x80))) ++
  imageSection 0x90000 0x20000 (s.poolHolds core) ++
  ((List.range 6144).map fun i => (0xB0000 + 64 * i, s.bytesAt ⟨.team core, 64 * i⟩ 64)) ++
  open_ 0x110000 0x200000 ++
  (ths.flatMap fun t => (List.range t.n).map fun k => (0x110000 + regOff ts t.slot k, bytesOfWord (t.reg k))) ++
  imageSection 0x310000 0x100000 (s.stagingHolds core) ++ imageSection 0x410000 0x100000 (s.reservedHolds core) ++
  open_ 0x510000 0x208000 ++
  ((List.range 32).flatMap fun i => match mine i with
    | some a => ((List.range 16384).map fun e => (0x510000 + 65536 * i + 4 * e, bytesOfWord (Tab.get 0 e a.elems))) ++
        ((List.range 128).map fun r => (0x710000 + 1024 * i + 4 * r, bytesOfWord (Tab.get 0xFF800000 r a.maxs))) ++
        ((List.range 128).map fun r => (0x710200 + 1024 * i + 4 * r, bytesOfWord (Tab.get 0 r a.sums)))
    | none => []) ++
  ((List.range 14848).map fun i => (0x718000 + 64 * i, List.replicate 64 0))

/-- The place of a byte of an image, on a package-local page. -/
def imagePlace (s : State) (ctx va : Nat) (need : Need) : Option PAddr :=
  match translate s ctx (BitVec.ofNat 64 va) need with
  | .ok x => if x.cls = 0 then some x.at_ else none
  | .error _ => none

/-- Where an image keeps a byte of a core that carries a mark of poison: that byte for registers, team memory and accumulators, and the
whole section for what has no layout (R32, R283). -/
def markOffsets (core : Nat) (ts : List Team) (ths : List Thread) (p : PAddr) : List Nat :=
  let all (lo n : Nat) : List Nat := (List.range n).map (lo + ·)
  match p.space with
  | .regs _ => if ths.any fun t => t.core == core && t.slot == p.addr / 1280 && decide (p.addr % 1280 / 4 < t.n) then
      [0x110000 + regOff ts (p.addr / 1280) (p.addr % 1280 / 4) + p.addr % 4] else []
  | .team _ => [0xB0000 + p.addr]
  | .acc _ => [0x510000 + p.addr]
  | .pool _ => all 0x90000 0x20000
  | .staging _ => all 0x310000 0x100000
  | .opbuf _ => all 0x410000 0x100000
  | _ => []

/-- Writes an image at its address, poisoned where what it copies is (R32); a page that does not translate is passed over. The lines are
written at their homes. DESIGN CHOICE (log entry 39). -/
def State.putImage (s : State) (ctx core base : Nat) (marks : List PAddr) : State :=
  if base = 0 then s
  else
    let offs := dedup (marks.flatMap (markOffsets core (s.teamsOn core) (s.threads.filter fun t => t.core == core)))
    let s := (s.imageRuns ctx core).foldl (fun (s : State) (r : Nat × List Byte) => match imagePlace s ctx (base + r.1) .store with
      | some p => s.engineWrite ctx core p r.2
      | none => s) s
    { s with poison := (offs.filterMap fun o => imagePlace s ctx (base + o) .store) ++ s.poison }

/-- Where a part of an image stands in memory, if it can be read there. -/
def Image.at? (s : State) (i : Image) (off : Nat) : Option PAddr := if i.base = 0 then none else imagePlace s i.ctx (i.base + off) .load

/-- A number of an image as it now stands in memory; of bytes that cannot be read, or that are poisoned, as it was saved (R32).
DESIGN CHOICE (log entry 39). -/
def Image.read (s : State) (i : Image) (off n saved : Nat) : Nat :=
  match i.at? s off with
  | some p =>
    if s.poisoned p n then
      natOfBytes ((bytesOfNat saved n).zipIdx.map fun e => if s.poisoned (p.plus e.2) 1 then e.1 else s.byteAt (p.plus e.2))
    else s.natAt p n
  | none => saved

/-- The marks of poison that an image brings: those of registers and team memory where its bytes in memory are poisoned now, which the
driver lifts as it overwrites them; where they cannot be read there, and of everything else, those that were saved (R32, R285). -/
def Image.marks (s : State) (i : Image) (ts : List Team) : List PAddr :=
  let kept (p : PAddr) : Bool := match p.space with
    | .regs _ | .team _ => (markOffsets i.core ts i.threads p).all fun o => (i.at? s o).isNone
    | _ => true
  let now (o : Nat) : Bool := match i.at? s o with | some p => s.poisoned p 1 | none => false
  let clean := s.poison.isEmpty && (List.range 8).all fun k => s.reg (mgt (0x80 + 8 * k)) == 0
  let regs := i.threads.flatMap fun t => (List.range (4 * t.n)).filterMap fun b =>
    if now (0x110000 + regOff ts t.slot (b / 4) + b % 4) then some ⟨.regs i.core, 1280 * t.slot + b⟩ else none
  let mem := ts.flatMap fun u => (List.range u.tmLen).filterMap fun b =>
    if now (0xB0000 + u.tmBase + b) then some ⟨.team i.core, u.tmBase + b⟩ else none
  i.poison.filter kept ++ if clean then [] else regs ++ mem

/-- The home slices hold the lines that a load reads (R178). -/
def Image.noteRead (s : State) (i : Image) : State :=
  (List.range 128).foldl (fun (s : State) k => match i.at? s (65536 * k) with | some p => s.noteHome p 65536 1 | none => s) s

/-! ## The save (R282) -/

/-- A context's save area (R285). -/
def State.saveBase (s : State) (ctx : Nat) : Nat := bits (s.reg (hifCtx ctx 0x70)) 51 23 * 2 ^ 23

/-- Where the image of a core goes; 0 stands for the area that the management controller holds (R283, R285). -/
def State.imageBase (s : State) (ctx core : Nat) : Nat := if s.saveBase ctx = 0 then 0 else s.saveBase ctx + 8388608 * core

/-- Some pseudo-channel is under test. -/
def State.channelTests (s : State) : Bool := s.tests.any fun t => t.unit.kind == .pch && !t.retest

/-- A line of an image's area, or a table that translates it, is on a pseudo-channel under test: accesses to it wait (R34). -/
def State.areaWaits (s : State) (ctx base : Nat) : Bool :=
  s.channelTests && base != 0 && (s.tablesWait ctx || (List.range 128).any fun k =>
    match imagePlace s ctx (base + 65536 * k) .load with
    | some p => (linesOf p 65536).any s.channelWait
    | none => false)

/-- A moving command, which is to complete before the save; a `bread` is restarted at the load. -/
def Cmd.moving (c : Cmd) : Bool := c.began && c.halted.isNone && !(c.op matches .bread ..)

/-- A flush that has begun and is not halted: its pass ends when its adds and stores are performed. -/
def Entry.flushing (e : Entry) : Bool := e.op matches .flush .. && e.passes == 0 && e.halted.isNone

/-- Everything that precedes the save of a core is done: its accesses are performed, its moving commands and the current passes of its
forge instructions complete (R249, R282). Seam entries restart at the load (R440). DEDUCED (log entry 40). -/
def State.savable (s : State) (core : Nat) : Bool :=
  let x := s.quad (quadOfCore core)
  let ids := (s.threads.filter fun t => t.core == core).map (·.uid)
  !(s.fabric.pending.any fun p => match p.owner with | .thread u => ids.contains u | _ => false) &&
  !(s.lodes.any fun l => l.core == core && l.halted.isNone) && !((s.core core).copyq.any Cmd.moving) &&
  !((s.core core).copyq.any fun c => s.bulkAway c.id) && (s.core core).filing.isEmpty &&
  !(x.entries.any fun e => e.core == core && (e.flushing || s.bulkAway e.id)) &&
  !(match x.pass with | some p => x.entries.any fun e => e.id == p.1 && e.core == core | none => false)

def Late.uids : Late → List Nat
  | .fence u _ _ _ | .rdy u _ _ | .txbWait u _ _ _ | .seamFence u _ _ | .tlbInv u _ _ => [u]
  | .scan _ us _ _ _ _ _ _ => us
  | .record u .. => [u]

def Release.uid : Release → Nat
  | .acc u _ _ _ _ | .opres u _ _ _ _ => u

def Release.team : Release → Nat
  | .acc _ t _ _ _ | .opres _ t _ _ _ => t

/-- A seam entry as a load restarts it, from its beginning (R202, R440); one whose list or rows have landed only completes. -/
def State.restarted (s : State) (q : Nat) (e : SeamEntry) : SeamEntry :=
  let landed : Bool := match e.op with
    | .probe tabs multi _ => decide ((probeVisits tabs multi).length < e.done)
    | .gather _ l r row _ => (match s.operand q r, s.tile? q l with
      | some (_, rr), some lt => decide (((s.listIds q lt).take (rr.rows - row)).length < e.done)
      | _, _ => false)
    | _ => false
  if landed then e else { e with done := 0, kept := [], trunc := false }

/-- The places of a core that an image keeps, whose marks of poison it keeps too (R32). -/
def inImage (core : Nat) (ranges : Tab Tile) (accs : Tab Acc) (p : PAddr) : Bool :=
  let q := quadOfCore core
  p.space == .regs core || p.space == .team core || p.space == .pool core || p.space == .staging core ||
    (p.space == .opbuf q && ranges.any fun t => decide (t.2.base ≤ p.addr) && decide (p.addr < t.2.base + t.2.len)) ||
    (p.space == .acc q && accs.any fun a => a.1 == p.addr / 65536)

/-- The image of a core, and the state without it. DESIGN CHOICE (log entry 39). -/
def State.takeImage (s : State) (r : SaveReq) : State :=
  let core := r.core
  let q := quadOfCore core
  let x := s.quad q
  let ths := s.threads.filter fun t => t.core == core
  let ids := ths.map (·.uid)
  let tiles := x.tiles.filter fun t => t.1 / 16 == core % 4
  let ranges := tiles.filter fun t => t.2.opbuf
  let base := s.imageBase r.ctx core
  let accs := x.accs.filter fun a => a.2.core == core
  let asked := s.saves.filter fun y => y.core == core
  let img : Image :=
    { ctx := r.ctx, core, base, held := asked.any (·.by_.isSome), at_ := s.clock, mates := r.mates, threads := ths,
      groups := s.groups.filter fun g => g.core == core,
      enrolments := s.enrolments.filter fun e => e.members.any fun u => ids.contains u,
      late := s.late.filter fun l => l.uids.any fun u => ids.contains u, coreSt := s.core core,
      tiles := tiles.map fun t => (t.1 % 16, t.2), accs,
      entries := x.entries.filter fun e => e.core == core,
      seams := (x.seams.filter fun e => e.core == core).map (s.restarted q),
      waiters := x.waiters.filter fun w => w.core == core, releases := x.releases.filter fun w => ids.contains w.uid,
      team := s.cells (.team core), poison := s.poison.filter (inImage core ranges accs),
      opbuf := (s.cells (.opbuf q)).filter fun b => ranges.any fun t => decide (t.2.base ≤ b.1) && decide (b.1 < t.2.base + t.2.len) }
  let s := s.putImage r.ctx core base img.poison
  let y := s.quad q
  let s := s.setQuad q { y with
    accs := y.accs.filter fun a => a.2.core != core, entries := y.entries.filter fun e => e.core != core,
    seams := y.seams.filter fun e => e.core != core, waiters := y.waiters.filter fun w => w.core != core,
    releases := y.releases.filter fun w => !ids.contains w.uid }
  let gone := s.teamsOn core
  let armed (t : Team) : Option Bool := if s.stepped t || t.stepState.isSome then some (s.teamHeld t) else none
  let marked := s.teams.map fun t => if t.core == core && !t.saved then { t with saved := true, stepState := armed t } else t
  let views := gone.foldl (fun (v : Tab Team) (t : Team) => Tab.set t.tuid t v) s.views
  let s : State := { s with
    threads := s.threads.filter (fun t => t.core != core), groups := s.groups.filter (fun g => g.core != core)
    enrolments := s.enrolments.filter (fun e => !(e.members.any fun u => ids.contains u))
    late := s.late.filter (fun l => !(l.uids.any fun u => ids.contains u)), views := views
    teams := marked
    saves := s.saves.filter (fun y => y.core != core), images := s.images ++ [img] }
  let s := ((s.freeCore core).noteAbsent r.ctx).settleQuad q
  asked.foldl (fun (s : State) y => match y.by_ with
    | some (u, f) => s.complete u f
    | none => s) s

/-- The saves whose conditions have come complete. DEDUCED (log entry 40). -/
def State.settleSaves (s : State) : State :=
  if s.saves.isEmpty then s
  else s.saves.foldl (fun (s : State) (r : SaveReq) => if s.saves.contains r && s.savable r.core && !s.areaWaits r.ctx (s.imageBase r.ctx r.core) then s.takeImage r else s) s

/-! ## The load (R282, R457) -/

/-- A team takes its old places on a core if they are free, else the lowest free ones. -/
def State.seat (s : State) (core : Nat) (t : Team) : Option Team :=
  let ts := s.teamsOn core
  let free := freeSlots ts
  let pl := if ts.any fun u => u.place == t.place then freePlace ts else some t.place
  let base := if rangeFree ts t.tmBase t.tmLen then some t.tmBase else openRange ts t.tmLen
  let n := t.share.length
  let m := t.embers.length
  let slots := if t.slots.all free.contains then t.slots else free.take t.slots.length
  match pl, base with
  | some pl, some b =>
    if slots.length < t.slots.length ∨ freeUnits ts < t.allUnits then none
    else some { t with core, place := pl, tmBase := b, saved := false, share := slots.take n, embers := (slots.drop n).take m,
                       lent := slots.drop (n + m) }
  | _, _ => none

/-- Seats teams one after another. -/
def State.seatAll (s : State) (core : Nat) : List Team → Option (State × List (Team × Team))
  | [] => some (s, [])
  | t :: ts =>
    match s.seat core t with
    | none => none
    | some u =>
      match (s.onTeam t.tuid fun _ => u).seatAll core ts with
      | none => none
      | some r => some (r.1, (t, u) :: r.2)

/-- Stepping goes on, at its new place, for a team that was stepped when it was saved: held if it still is, and with its threads departed
if the hold has been released meanwhile (R301). It takes its register with it. A core steps one team: on a core whose register names
another, HELD becomes 1 all the same for a held one, and a release there lets it go on. `mine` says that the register of the old core
named it. DEDUCED (log entry 41). -/
def State.stepAgain (s : State) (core : Nat) (mine : Bool) (old new : Team) : State :=
  match old.stepState with
  | some held =>
    let s := if mine then (s.setReg (stepReg old.core) (bits (s.reg (stepReg old.core)) 2 0)) else s
    let v := s.reg (stepReg core)
    let s :=
      if bitAt v 63 then
        (s.onTeam new.tuid fun t => { t with stepState := if held then some true else none }).setReg (stepReg core)
          (if held then setBits v 62 62 1 else v)
      else (s.onTeam new.tuid fun t => { t with stepState := none }).setReg (stepReg core)
        (2 ^ 63 + (if held || bitAt v 62 then 2 ^ 62 else 0) + new.place)
    if !held && s.allArrived new.tuid then s.departTbar new.tuid else s
  | none => s

/-- The teams of an image. -/
def State.imageTeams (s : State) (i : Image) : List Team := s.teams.filter fun t => t.saved && t.core == i.core && t.ctx == i.ctx

/-- The quad of a core has free what an image holds there (R457). -/
def State.quadFree (s : State) (i : Image) (core : Nat) : Bool :=
  let x := s.quad (quadOfCore core)
  ((List.range 4).all fun k => (s.teamsOn (4 * quadOfCore core + k)).all fun t => t.ctx == i.ctx) && i.accs.all (fun a => (Tab.find a.1 x.accs).isNone) &&
  ((i.tiles.filter fun t => t.2.opbuf).all fun t => x.tiles.all fun u =>
    !u.2.opbuf || overlap t.2.base t.2.len u.2.base u.2.len == 0)

/-- Whether a load succeeds. -/
def State.canLoad (s : State) (i : Image) (core : Nat) : Bool :=
  !s.coreFenced core && s.quadFree i core && (s.seatAll core (s.imageTeams i)).isSome

/-- Where the parts of an image move. -/
structure Move where
  src : Nat
  dst : Nat
  seats : List (Team × Team)
  away : Nat                 -- cycles between the save and the load
  deriving DecidableEq, Repr

def Move.slot (m : Move) (k : Nat) : Nat :=
  match m.seats.findSome? fun p => match (p.1.slots.zip p.2.slots).find? fun e => e.1 == k / 128 with
    | some e => some e.2
    | none => none with
  | some g => 128 * g + k % 128
  | none => k

def Move.mem (m : Move) (a : Nat) : Nat :=
  match m.seats.find? fun p => decide (p.1.tmBase ≤ a) && decide (a < p.1.tmBase + p.1.tmLen) with
  | some p => a - p.1.tmBase + p.2.tmBase
  | none => a

def Move.place (m : Move) (p : PAddr) : PAddr :=
  match p.space with
  | .team c => if c = m.src then ⟨.team m.dst, m.mem p.addr⟩ else p
  | _ => p

/-- An entry of the core's part of the tile table. -/
def Move.tile (m : Move) (i : Nat) : Nat := if i / 16 = m.src % 4 then 16 * (m.dst % 4) + i % 16 else i

/-- A multicast's bytes land where the teams of the image have gone (R384). -/
def Move.receive (m : Move) : CmdOp → CmdOp
  | .multicast ds => .multicast (ds.map fun d =>
      if m.seats.any fun p => p.1.tuid == d.2.2 then (m.place d.1, d.2.1.map m.place, d.2.2) else d)
  | op => op

/-- The same for the commands of every core but the image's. -/
def Move.receiveAll (m : Move) (s : State) (i : Image) : State :=
  let q (c : CoreSt) : CoreSt := { c with copyq := c.copyq.map fun x => { x with op := m.receive x.op } }
  { s with cores := s.cores.map (fun e => (e.1, q e.2)), images := s.images.map (fun y => { y with coreSt := q y.coreSt }),
           bulkWait := s.bulkWait.map fun e =>
             if i.groups.any fun g => g.gid == e.1 then e else (e.1, { e.2 with op := m.receive e.2.op }) }

def Move.cmdOp (m : Move) : CmdOp → CmdOp
  | .toLocal p => .toLocal (m.place p)
  | .fromLocal p => .fromLocal (m.place p)
  | .multicast ds => m.receive (.multicast ds)
  | .bwrite p b v t k => .bwrite (m.place p) b v t k
  | .lode r o e p => .lode r o e (p.map m.place)
  | op => op

def Move.cmd (m : Move) (c : Cmd) : Cmd :=
  { c with core := m.dst, slot := m.slot c.slot, op := m.cmdOp c.op, limit := none, barrier := c.barrier.map m.place,
           tile := c.tile.map fun t => (m.tile t.1, t.2) }

def Move.family (m : Move) (f : Family) : Family := { f with idx := m.tile f.idx }

def Move.forgeOp (m : Move) : ForgeOp → ForgeOp
  | .mma a b c d e f g h i j x k1 k2 k3 k4 k5 => .mma a b c d e (m.tile f) (m.tile g) (m.tile h) i j x k1 k2 k3 k4 k5
  | .smx a b sc f g h i => .smx a b sc f g (m.tile h) i
  | .flush a r b => .flush a r b
  | .hash x r n p f g d rel => .hash (m.tile x) r n (m.place p) (m.family f) (g.map m.family) d rel

/-- A forge instruction's entry, whose wait for a grant is counted anew: in the image it was not eligible (R129). -/
def Move.entry (m : Move) (now : Nat) (e : Entry) : Entry := { e with core := m.dst, slot := m.slot e.slot, op := m.forgeOp e.op, idle := now }

def Move.seamOp (m : Move) : SeamOp → SeamOp
  | .probe t b o => .probe t b (m.tile o)
  | .gather t l r row rel => .gather t (m.tile l) (m.tile r) row rel
  | .publish t i => .publish t (m.tile i)
  | op => op

def Move.seam (m : Move) (e : SeamEntry) : SeamEntry := { e with core := m.dst, slot := m.slot e.slot, op := m.seamOp e.op }

def Move.release (m : Move) : Release → Release
  | .acc a b c d e => .acc a b c d e
  | .opres u t i f b => .opres u t (m.tile i) f b

def Move.late (m : Move) : Late → Late
  | .txbWait u f p k => .txbWait u f (m.place p) k
  | .fence u f r e => .fence u f r (e.map fun c => if c = m.src then m.dst else c)
  | .scan i us f _ idx d n u => .scan i us f (quadOfCore m.dst) (m.tile idx) d n u
  | l => l

/-- The registers of a saved thread as its image now holds them. -/
def Move.thread (m : Move) (s : State) (i : Image) (t : Thread) : Thread :=
  let old := m.seats.map Prod.fst
  { t with core := m.dst, slot := m.slot t.slot,
           regs := (List.range t.n).map fun k => BitVec.ofNat 32 (i.read s (0x110000 + regOff old t.slot k) 4 (t.reg k).toNat),
           ember := t.ember.map fun e => { e with core := if e.core = m.src then m.dst else e.core } }

/-- A saved group goes on at the addresses that its threads' records now hold: a thread whose PC the driver has changed
goes on at a clause boundary there, whatever its group waited for, but for a stop that holds it and its exit (R285).
DESIGN CHOICE (log entry 39). -/
def State.loadPcs (s : State) (i : Image) (g : Group) : State :=
  let pcs := g.members.map fun u =>
    let slot := match i.threads.find? fun t => t.uid == u with | some t => t.slot | none => 0
    (u, (BitVec.ofNat 64 (i.read s (0x10000 + 64 * slot) 8 g.pc.toNat) : DWord))
  if pcs.all fun e => e.2 == g.pc then s
  else
    let targets := (dedup (pcs.map (·.2)).reverse).reverse
    s.splitGroup g (targets.map fun pc => ((pcs.filter fun e => e.2 == pc).map (·.1), fun h =>
      if pc = g.pc then h
      else match h.wait with
        | .fault _ | .exit => { h with pc, clause := none, redo := none }
        | _ => h.atHeader pc))

/-- Team memory as the image now holds it, at the seats of its teams. -/
def Move.teamMem (m : Move) (s : State) (i : Image) : List (Nat × List Byte) :=
  m.seats.flatMap fun p => (List.range (p.1.tmLen / 64)).map fun k =>
    (p.2.tmBase + 64 * k,
     bytesOfNat (i.read s (0xB0000 + p.1.tmBase + 64 * k) 64 (natOfBytes (i.team.bytes (p.1.tmBase + 64 * k) 64))) 64)

/-- A word of a moved thread's spill stack: where it was, where it goes, its bytes, and whether they are poisoned (R170). -/
structure StackWord where
  src : PAddr
  dst : PAddr
  bytes : List Byte
  bad : Bool

/-- The words of the spill stacks of an image's threads whose place changes, as they stand. A word whose old or new page does not
translate, or is not CLASS 0, is not moved: R170 does not say what becomes of it. DESIGN CHOICE (log entry 39). -/
def State.stackWords (s : State) (m : Move) (i : Image) : List StackWord :=
  let r := s.reg (hifCtx i.ctx 0x50)
  let size := 2 ^ (8 + bits r 3 0)
  let va (core slot k : Nat) : Nat := bits r 51 16 * 65536 + (8192 * core + slot) * size + 4 * k
  i.threads.flatMap fun t =>
    if m.src = m.dst ∧ m.slot t.slot = t.slot then []
    else (List.range t.depth).filterMap fun k =>
      match imagePlace s i.ctx (va m.src t.slot k) .load, imagePlace s i.ctx (va m.dst (m.slot t.slot) k) .store with
      | some p, some p' => some { src := p, dst := p', bytes := s.bytesAt p 4, bad := s.poisoned p 4 }
      | _, _ => none

/-- They are written at their new places, once all of them have been read. -/
def State.putStacks (s : State) (ctx core : Nat) (ws : List StackWord) : State :=
  ws.foldl (fun (s : State) w =>
    let s := (s.noteHome w.src 4 1).engineWrite ctx core w.dst w.bytes
    if w.bad then { s with poison := (List.range 4).map (w.dst.plus ·) ++ s.poison } else s) s

/-- The filed threads of an image with the cycle from which their ages run on (R154): those of bins, then the overflow list. -/
def Image.filed (i : Image) (away : Nat) : List Filed :=
  (i.coreSt.bins.flatMap fun b => b.threads.map fun u => ({ uid := u, key := b.key, ctx := b.ctx, at_ := b.since + away } : Filed)) ++
    i.coreSt.overflow.map fun f => { f with at_ := f.at_ + away }

/-- The filed threads of an image enter the core's bins and overflow list, with their ages; one whose PC the driver has changed is filed
under its new address (R142, R143, R285). DEDUCED (log entry 41). -/
def State.loadFiled (s : State) (i : Image) (core : Nat) : State :=
  let s := (i.filed (s.clock - i.at_)).foldl (fun (s : State) (f : Filed) =>
    let slot := match i.threads.find? fun t => t.uid == f.uid with | some t => t.slot | none => 0
    let pc : DWord := BitVec.ofNat 64 (i.read s (0x10000 + 64 * slot) 8 f.key.toNat)
    if pc = f.key then s.enterBin core f else s.fileOne core f.ctx pc f.uid) s
  let c := s.core core
  s.setCore core { c with overflow := sortBy (fun a b => decide (a.at_ ≤ b.at_)) c.overflow }

/-- A parked group's timeout runs on from where the save left it (R154, R284); a ready one is ready anew. -/
def Move.group (m : Move) (now : Nat) (g : Group) : Group :=
  { g with core := m.dst, ready := now, wait := match g.wait with
      | .park ls d pd ids hit => .park ls (d + m.away) pd ids hit
      | w => w }

/-- The core's part of an image joins what the core holds. Its caches stay empty, its windows disarmed and MCBASE and MCGATE as they are,
which no section of the image holds, and the counts of R453 run on. -/
def Move.core (m : Move) (i c : CoreSt) : CoreSt :=
  { c with
    binage := i.binage,
    counters := i.counters.foldl (fun t e => Tab.set e.1 e.2 t) c.counters,
    arms := c.arms ++ i.arms.map (fun a => { a with addr := m.mem a.addr }),
    pool := c.pool ++ i.pool, staging := c.staging ++ i.staging,
    slots := i.slots.foldl (fun t e => Tab.set e.1 e.2 t) c.slots,
    fams := i.fams.foldl (fun t e => Tab.set e.1 (m.family e.2) t) c.fams,
    copyq := c.copyq ++ i.copyq.map m.cmd,
    ringStop := if i.ringStop.isSome then i.ringStop else c.ringStop }

/-- A mark of poison of an image at its new place. -/
def Move.mark (m : Move) (c : CoreSt) (p : PAddr) : PAddr :=
  match p.space with
  | .regs _ => ⟨.regs m.dst, 1280 * m.slot (p.addr / 1280) + p.addr % 1280⟩
  | .team _ => ⟨.team m.dst, m.mem p.addr⟩
  | .pool _ => ⟨.pool m.dst, 32 * c.pool.length + p.addr⟩
  | .staging _ => ⟨.staging m.dst, 4096 * c.staging.length + p.addr⟩
  | .opbuf _ => ⟨.opbuf (quadOfCore m.dst), p.addr⟩
  | .acc _ => ⟨.acc (quadOfCore m.dst), p.addr⟩
  | _ => p

/-- What a stop names moves with it. -/
def Move.stop (m : Move) (i : Image) (x : Stop) : Stop :=
  { x with what := match x.what with
      | .cmd core id => if core = m.src ∧ i.coreSt.copyq.any (fun c => c.id == id) then .cmd m.dst id else .cmd core id
      | .ring core id => if core = m.src ∧ i.coreSt.ringStop = some x.sid then .ring m.dst id else .ring core id
      | .entry q id => if i.entries.any fun e => e.id == id then .entry (quadOfCore m.dst) id else .entry q id
      | .seam q id => if i.seams.any fun e => e.id == id then .seam (quadOfCore m.dst) id else .seam q id
      | w => w }

/-- Where an image moves, if its teams find seats. -/
def State.moveOf (s : State) (i : Image) (core : Nat) : Option Move :=
  (s.seatAll core (s.imageTeams i)).map fun x => { src := i.core, dst := core, seats := x.2, away := s.clock - i.at_ }

/-- A LOAD: the image is written back at a core, in the order of its sections; its commands go on in their saved order,
and a record acted on meanwhile takes effect. The spill stacks move beside it. DESIGN CHOICE (log entry 39). -/
def State.loadImage (s₀ : State) (i : Image) (core : Nat) : State :=
  match s₀.seatAll core (s₀.imageTeams i) with
  | none => s₀
  | some (s, seats) =>
    let mine := seats.map fun p => named s₀ p.1
    let marks := i.marks s (seats.map Prod.fst)
    let s := (i.noteRead s).claimTeamMem i.ctx core
    let m : Move := { src := i.core, dst := core, seats, away := s.clock - i.at_ }
    let s := m.receiveAll s i
    let moved := (s.lodes.filter fun l => l.core == i.core && l.ctx == i.ctx).map (·.op)
    let q := quadOfCore core
    let x := s.quad q
    let ths := i.threads.map (m.thread s i)
    let mem := m.teamMem s i
    let s := s.setQuad q { x with
      tiles := i.tiles.foldl (fun t e => Tab.set (16 * (core % 4) + e.1)
        { e.2 with core := (if !e.2.opbuf && e.2.core == i.core % 4 then core % 4 else e.2.core),
                   base := if !e.2.opbuf && e.2.core == i.core % 4 then m.mem e.2.base else e.2.base } t) x.tiles,
      accs := i.accs.foldl (fun t e => Tab.set e.1 { e.2 with core } t) x.accs,
      entries := x.entries ++ i.entries.map (m.entry s.clock), seams := x.seams ++ i.seams.map m.seam,
      waiters := x.waiters ++ i.waiters.map (fun w => { w with core, slot := m.slot w.slot }),
      releases := x.releases ++ i.releases.map m.release }
    let held := s.core core
    let s := s.setCore core (m.core i.coreSt held)
    let s := seats.foldl (fun (s : State) p => s.lift ⟨.team core, p.2.tmBase⟩ p.2.tmLen) (s.dropOld (seats.map Prod.snd))
    let s : State := { s with oldWords := s.oldWords.filter fun w => !(w.at_.space == .opbuf q && i.tiles.any fun t =>
      t.2.opbuf && overlap w.at_.addr 4 t.2.base t.2.len != 0) }
    let s := mem.foldl (fun (s : State) (r : Nat × List Byte) => s.putBytes ⟨.team core, r.1⟩ r.2) s
    let s := i.opbuf.foldl (fun (s : State) (b : Host.Cell) => s.putBytes ⟨.opbuf q, b.1⟩ [b.2]) s
    let ids := ths.map (·.uid)
    let s : State := { s with
      poison := marks.map (m.mark held) ++ s.poison,
      threads := s.threads ++ ths, groups := s.groups ++ i.groups.map (m.group s.clock),
      enrolments := s.enrolments ++ i.enrolments, late := s.late ++ i.late.map m.late,
      lodes := s.lodes.map (fun l =>
        if ids.contains l.uid || (l.gid == 0 && l.core == i.core && l.ctx == i.ctx) then { l with core, slot := m.slot l.slot } else l),
      bulkWait := s.bulkWait.map (fun e => if i.groups.any fun g => g.gid == e.1 then (e.1, m.cmd e.2) else e),
      stops := s.stops.map (m.stop i), images := s.images.filter fun y => !(y.core == i.core && y.ctx == i.ctx) }
    let s := i.groups.foldl (fun (s : State) (g : Group) => match s.group? g.gid with
      | some h => s.loadPcs i h
      | none => s) s
    let s := i.late.foldl (fun (s : State) (l : Late) => match l with
      | .tlbInv u f v => if s.invals.any fun y => y.id == v then s
          else State.complete { s with late := s.late.filter fun y => y != m.late l } u f
      | _ => s) s
    let s := s.loadFiled i core
    let s := (seats.zip mine).foldl (fun (s : State) p => s.stepAgain core p.2 p.1.1 p.1.2) (s.noteResident i.ctx)
    let own (w : StopOf) : Bool := match w with
      | .group gid => i.groups.any fun g => g.gid == gid
      | .cmd k id | .ring k id => k == core && i.coreSt.copyq.any fun c => c.id == id
      | .entry _ id => i.entries.any fun e => e.id == id
      | .seam _ id => i.seams.any fun e => e.id == id
      | .lode op => moved.contains op
      | .context => false
    let s := (s.stops.filter fun y => own y.what).foldl (fun (s : State) y => s.endStop y.sid) s
    (((dedup (seats.map fun p => p.2.tuid)).foldl State.settleBarriers s).settleTxb.settleQuad q).emptyL1 core

/-- An image's move has to wait: for a pseudo-channel under test that holds a line of it, or of a spill stack that moves with it
(R34). -/
def State.loadWaits (s : State) (i : Image) (core : Nat) : Bool :=
  s.areaWaits i.ctx i.base || (match (if s.channelTests then s.moveOf i core else none) with
    | some m => (s.stackWords m i).any fun w => s.channelWait w.src || s.channelWait w.dst
    | none => false)

/-- A load with the move of its spill stacks (R170). -/
def State.loadMoved (s : State) (i : Image) (core : Nat) : State :=
  match s.moveOf i core with
  | some m => (s.loadImage i core).putStacks i.ctx core (s.stackWords m i)
  | none => s

/-! ## Images that R34 moves -/

/-- A team that stands on its core, or that was saved only because the core is under test (R34). -/
def State.standing (s : State) (t : Team) : Bool :=
  !t.saved || s.images.any fun i => !i.held && i.core == t.core && i.ctx == t.ctx

/-- The cores of all clusters that reach a core, in as many rounds as there are cores. DEDUCED (log entry 41). -/
def State.clusterCores (s : State) : Nat → List Nat → List Nat
  | 0, cs => cs
  | n + 1, cs =>
    let cl := dedup ((s.teams.filter fun t => cs.contains t.core && s.standing t).map (·.cluster))
    let more := dedup ((s.teams.filter fun t => cl.contains t.cluster && s.standing t).map (·.core))
    s.clusterCores n (dedup (cs ++ more))

/-- The cores whose teams rest while a unit is under test (R34). -/
def coresOf (u : UnitId) : List Nat :=
  match u.kind with
  | .core => [u.index]
  | .quad => (List.range 4).map (4 * u.index + ·)
  | _ => []

/-- The teams of a core or quad under test are to be saved, as in a context switch (R34). DEDUCED (log entry 41). -/
def State.saveForTest (s : State) (u : UnitId) : State :=
  let cs := (coresOf u).filter fun c => !(s.teamsOn c).isEmpty && !(s.saves.any fun r => r.core == c)
  { s with saves := s.saves ++ cs.map fun c => { ctx := (s.ctxOnCore c).getD 0, core := c, by_ := none, mates := [c] } }

/-- A passing test needs no save that has not been made (R34). DEDUCED (log entry 41). -/
def State.spareSaves (s : State) (u : UnitId) : State :=
  { s with saves := s.saves.filter fun r => !(r.by_.isNone && (coresOf u).contains r.core && !(r.mates.any s.coreFenced)) }

/-- A fenced core's teams are to be saved and placed again, whole clusters together (R34). DEDUCED (log entry 41). -/
def State.displace (s : State) (cores : List Nat) : State :=
  let all := (s.clusterCores 12 cores).filter fun c => !(s.teamsOn c).isEmpty
  let new := all.filter fun c => !(s.saves.any fun r => r.core == c)
  let whole := dedup (all ++ (s.clusterCores 12 cores).filter fun c => s.images.any fun i => !i.held && i.core == c)
  { s with saves := (s.saves.map fun r => if whole.contains r.core && r.by_.isNone then { r with mates := whole } else r) ++
             new.map fun c => { ctx := (s.ctxOnCore c).getD 0, core := c, by_ := none, mates := whole }
           images := s.images.map fun i => if !i.held && whole.contains i.core then { i with mates := whole } else i }

/-- Where the cores of a set stand once its top-left corner is moved to a mesh place of their stope. -/
def movedTo (cores : List Nat) (row col : Nat) : List (Nat × Nat) :=
  let r0 := (cores.map meshRow).foldl min 8
  let c0 := (cores.map meshCol).foldl min 16
  cores.map fun c => (c, coreAt (stopeOfCore c) (meshRow c - r0 + row) (meshCol c - c0 + col))

/-- The images that move together, once all of them are saved, find cores: the lowest places that take them all.
DEDUCED (log entry 41). -/
def State.placeDisplaced (s : State) (i : Image) : Option State :=
  let set := s.images.filter fun x => !x.held && i.mates.contains x.core && x.ctx == i.ctx
  let cores := set.map (·.core)
  if s.saves.any fun r => i.mates.contains r.core then none
  else
    let h := (cores.map meshRow).foldl max 0 - (cores.map meshRow).foldl min 8
    let w := (cores.map meshCol).foldl max 0 - (cores.map meshCol).foldl min 16
    let spots := (List.range (8 - h)).flatMap fun r => (List.range (16 - w)).map fun c => movedTo cores r c
    let put (a : Option (State × List StackWord)) (e : Nat × Nat) : Option (State × List StackWord) :=
      a.bind fun d => match set.find? fun x => x.core == e.1 with
        | some x =>
          if (d.1.viewOn e.2).isEmpty && !d.1.resting e.2 && d.1.canLoad x e.2 && !s.loadWaits x e.2 then
            (d.1.moveOf x e.2).map fun m => (d.1.loadImage x e.2, d.2 ++ s.stackWords m x)
          else none
        | none => none
    spots.findSome? fun l => (l.foldl put (some (s, []))).map fun d => d.1.putStacks i.ctx (l.headD (0, 0)).2 d.2

/-- The first image that can be placed again: in place, where no core that it moves with is fenced, once the test there has
passed; else with its mates elsewhere (R34). DEDUCED (log entry 41). -/
def State.replace (s : State) : Option State :=
  (s.images.filter fun i => !i.held).findSome? fun i =>
    if s.ctxStopped i.ctx || s.resting i.core then none
    else if i.mates.any s.coreFenced then s.placeDisplaced i
    else if s.canLoad i i.core && !s.loadWaits i i.core then some (s.loadMoved i i.core) else none

end Sys2Proof.Machine
end

