-- ==== Sys2Proof/Machine/System.lean ====
section
/-! DEFINITION. Major 0x3D: fetch, core state registers, performance counters, profiling records, invalidation, saved images
and `halt` (R451 to R458). -/

namespace Sys2Proof.Machine

/-! ## Fetch (R451) -/

/-- Every clause that the thread begins from now on is a fetch made after this moment. DEDUCED (log entry 38). -/
def execIsync (o : Op) (s : State) : Host.Outcome State Fault Refusal :=
  s.issue .isync o fun _ xs =>
    let n := s.nextId
    .done (State.onThreads { s with nextId := n + 1 } (xs.map (·.uid)) fun t => { t with synced := n })

/-- Lines of the pages that translate leave the instruction caches of the cores of the context. Which code a thread may
execute stays what R250 says. DEDUCED (log entry 36). -/
def State.dropCode (s : State) (ctx va n : Nat) : State :=
  let pages := (List.range ((va % 65536 + n + 65535) / 65536)).filterMap fun i =>
    let a := va / 65536 * 65536 + 65536 * i
    match translate s ctx (BitVec.ofNat 64 a) .nothing with
    | .ok x => some (x.at_.plus (max va a - a), min (va + n) (a + 65536) - max va a)
    | .error _ => none
  let hit (e : PAddr × Nat) : Bool := pages.any fun p => p.1.space == e.1.space && overlap p.1.addr p.2 e.1.addr e.2 != 0
  { s with cores := s.cores.map fun e =>
      if s.ctxOnCore e.1 = some ctx then (e.1, { e.2 with
        icache := e.2.icache.filter (fun l => !hit l)
        consts := e.2.consts.filter fun l => !hit (l.1, 256) }) else e }

def execIcinv (o : Op) (s : State) : Host.Outcome State Fault Refusal :=
  s.issue .icinv o fun g xs =>
    .done (xs.foldl (fun (s : State) t => s.dropCode g.ctx (t.pair o.a.toNat).toNat (o.srcB32 t).toNat) s)

/-! ## Core state registers and performance counters (R144, R452, R453) -/

/-- A core state register; R452 lists 0 to 4. -/
def CoreSt.sreg (c : CoreSt) (n : Nat) : Nat :=
  match n with
  | 0 => c.binage
  | 1 => c.mcbase
  | 2 => 512 - c.arms.length
  | 3 => 2048 - c.pool.length
  | _ => c.mcgate.toNat

/-- A write of one: BINAGE keeps 16 to 4,096, and reserved bits stay 0. -/
def CoreSt.setSreg (c : CoreSt) (n : Nat) (v : Word) : CoreSt :=
  match n with
  | 0 => { c with binage := min 4096 (max 16 v.toNat) }
  | 1 => { c with mcbase := v.toNat % 2 ^ 20 }
  | _ => { c with mcgate := v &&& 0x800FFFF0 }

def execSregR (o : Op) (s : State) : Host.Outcome State Fault Refusal :=
  s.issue .sregR o fun g xs =>
    .done (s.onThreads (xs.map (·.uid)) fun t => t.setReg o.d.toNat (BitVec.ofNat 32 ((s.core g.core).sreg o.a.toNat)))

/-- The value of the highest position remains. -/
def execSregW (o : Op) (s : State) : Host.Outcome State Fault Refusal :=
  s.issue .sregW o fun g xs =>
    .done (xs.foldl (fun (s : State) t => s.setCore g.core ((s.core g.core).setSreg o.d.toNat (o.srcB32 t))) s)

def execPerfRd (o : Op) (s : State) : Host.Outcome State Fault Refusal :=
  s.issue .perfRd o fun g xs =>
    .done (s.onThreads (xs.map (·.uid)) fun t => t.setPair o.d.toNat (Tab.get 0 o.a.toNat (s.core g.core).perf))

/-! ## Profiling records (R291 to R293, R454) -/

/-- One KIND 1 lamp record: the program's 64 bytes, with KIND, PKG and CORE set by the package. -/
def lampWords (pkg core : Nat) (ws : List Word) : List Byte :=
  (ws.set 3 (BitVec.ofNat 32 (2 ^ 31 + pkg % 64 * 2 ^ 25 + core % 256 * 2 ^ 17 + (ws.getD 3 0).toNat % 2 ^ 17))).flatMap bytesOfWord

def execLamp (o : Op) (s : State) : Host.Outcome State Fault Refusal :=
  s.issue .lamp o fun g xs =>
    .done (xs.foldl (fun (s : State) t =>
      s.record t.uid g.ctx false (lampWords (s.pkgOf g.ctx) g.core (t.regsFrom o.b.toNat 16))) s)

/-- The bytes of a flue record (R293). -/
def flueBytes (time kind pkg core info seq pc data : Nat) : List Byte :=
  bytesOfNat time 8 ++ bytesOfNat (kind % 16 * 2 ^ 28 + pkg % 64 * 2 ^ 16 + core % 256 * 2 ^ 8 + info % 256) 4 ++
  bytesOfNat seq 4 ++ bytesOfNat pc 8 ++ bytesOfNat data 8

def execTrc (o : Op) (s : State) : Host.Outcome State Fault Refusal :=
  s.issue .trc o fun g xs =>
    .done (xs.foldl (fun (s : State) t =>
      s.record t.uid g.ctx true
        (flueBytes s.ns 2 (s.pkgOf g.ctx) g.core 0 t.cmdseq.toNat g.pc.toNat (t.pair o.a.toNat).toNat)) s)

/-! ## Invalidation (R176, R191, R455) -/

/-- The pages of an invalidation: 2^LOG2N from a page, whose low bits are ignored. -/
def invalRange (vpage log2n : Nat) : Nat × Nat :=
  let n := 2 ^ min log2n 36
  (vpage / n * n, n)

/-- An invalidation is asked for, behind those in progress. -/
def State.invalidate (s : State) (ctx : Nat) (range : Option (Nat × Nat)) : State :=
  { s with nextId := s.nextId + 1, invals := s.invals ++ [{ id := s.nextId, ctx, range }] }

/-- A thread's invalidation, which it waits for with its flag. -/
def State.askInval (s : State) (g : Group) (t : Thread) (range : Option (Nat × Nat)) : State :=
  let l : Late := .tlbInv t.uid g.flagNow s.nextId
  let s : State := { s with late := s.late ++ [l] }
  (s.invalidate g.ctx range).onThread t.uid fun t => t.holdFlag g.flagNow

def execTlbInv (o : Op) (s : State) : Host.Outcome State Fault Refusal :=
  s.issue .tlbInv o fun g xs =>
    .done (xs.foldl (fun (s : State) t =>
      s.askInval g t (some (invalRange (bits (t.pair o.a.toNat).toNat 51 16) (o.srcB32 t).toNat))) s)

def execTlbInvAll (o : Op) (s : State) : Host.Outcome State Fault Refusal :=
  s.issue .tlbInvAll o fun g xs => .done (xs.foldl (fun (s : State) t => s.askInval g t none) s)

/-- An entry that an invalidation covers. -/
def Inval.covers (i : Inval) (t : TlbEntry) : Bool :=
  t.ctx == i.ctx && (match i.range with
    | none => true
    | some r => match t.cover with
      | .page v _ => decide (r.1 ≤ v) && decide (v < r.1 + r.2)
      | .region k _ _ _ => decide (r.1 < 2048 * (k + 1)) && decide (2048 * k < r.1 + r.2))

/-- Every access of a context that may have used an old translation has been performed: none is on its way, whoever made it, and no
lode access or captured write waits. A command that is halted translates its region afresh when it goes on. -/
def State.accessesDone (s : State) (ctx : Nat) : Bool :=
  let f := s.fabric
  !((f.arrivals ++ f.queues).any fun a => a.2.ctx == ctx) && !((f.homes ++ f.remote).any fun a => a.2.ctx == ctx) &&
    !(s.lodes.any fun q => q.ctx == ctx && q.halted.isNone) && !f.bulk.any fun b => b.ctx == ctx

/-- The first invalidation in progress completes: no TLB holds what it covers, and every access that used it is performed.
DEDUCED (log entry 44). -/
def execTlbInvalidateDone (s : State) : Host.Outcome State Fault Refusal :=
  match s.invals with
  | [] => .next s
  | i :: rest =>
    if !s.accessesDone i.ctx then .next s
    else
      let hit (l : Late) : Bool := match l with | .tlbInv _ _ n => n == i.id | _ => false
      let wake (s : State) (l : Late) : State := match l with
        | .tlbInv u f _ => s.complete u f
        | _ => s
      let s' : State := { s with invals := rest, tlb := s.tlb.filter (fun t => !i.covers t), late := s.late.filter fun l => !hit l }
      .next ((s.late.filter hit).foldl wake s')

/-! ## Saved images (R456, R457) -/

/-- A core of the context is saved and not yet loaded. -/
def State.imaged (s : State) (ctx core : Nat) : Bool := s.images.any fun i => i.core == core && i.ctx == ctx

def execCtxSave (o : Op) (s : State) : Host.Outcome State Fault Refusal :=
  s.issue .ctxSave o fun g xs =>
    Body.of (inOrder s xs fun s t =>
      let n := (t.reg o.a.toNat).toNat % 256
      if s.saveBase g.ctx = 0 ∨ n = g.core ∨ s.ctxOnCore n ≠ some g.ctx ∨ s.imaged g.ctx n = true then .error illegalState
      else
        let r : SaveReq := { ctx := g.ctx, core := n, by_ := some (t.uid, g.flagNow), mates := [n] }
        let s : State := { s with saves := s.saves ++ [r] }
        .ok (s.onThread t.uid fun t => t.holdFlag g.flagNow))

/-- The held image of a source core, if the target may be named for it. -/
def State.loadable (s : State) (ctx src dst : Nat) : Option Image :=
  match s.images.find? fun i => i.held && i.core == src && i.ctx == ctx with
  | none => none
  | some i =>
    let alone := (s.imageTeams i).all fun t => match s.cluster? t.cluster with
      | some c => c.count == 1
      | none => true
    if dst ≠ src ∧ alone = false then none else some i

def execCtxLoad (o : Op) (s : State) : Host.Outcome State Fault Refusal :=
  s.issue .ctxLoad o fun g xs =>
    let waits (t : Thread) : Bool :=
      let src := (t.reg o.a.toNat).toNat % 256
      match s.loadable g.ctx src ((t.reg o.b.toNat).toNat % 256) with
      | some i => s.loadWaits i ((t.reg o.b.toNat).toNat % 256)
      | none => false
    if xs.any waits then .stall
    else Body.of (inOrder s xs fun s t =>
      let src := (t.reg o.a.toNat).toNat % 256
      let dst := (t.reg o.b.toNat).toNat % 256
      match s.loadable g.ctx src dst with
      | none => .error illegalState
      | some i =>
        if s.canLoad i dst then .ok ((s.loadMoved i dst).onThread t.uid fun t => t.setPred o.aux.toNat true)
        else .ok (s.onThread t.uid fun t => t.setPred o.aux.toNat false))

/-! ## `halt` (R458) -/

/-- A staged burst of a halted team is not born: it counts as failed. -/
def State.failStaged (s : State) (team : Nat) (core : Nat) : State :=
  let c := s.core core
  let mine := c.staging.filter fun b => b.team == team
  let s := (s.renumberStaging core fun i => match c.staging[i]? with | some b => b.team != team | none => true).setCore core { c with staging := c.staging.filter fun b => b.team != team }
  mine.foldl (fun (s : State) b => s.onCmd core b.cmd fun c =>
    { c with nfail := c.nfail + 1, lowfail := BitVec.ofNat 32 (min c.lowfail.toNat b.info.bseq.toNat) }) s

/-- A team halts: its tasks and arms are discarded, its staged bursts fail, and its threads exit.
DEDUCED (log entry 42). -/
def State.haltTeam (s : State) (team : Nat) : State :=
  let core := match s.team? team with | some t => t.core | none => 0
  let c := s.core core
  let s := s.renumberPool core fun i => match c.pool[i]? with | some k => k.team != team | none => true
  let s := s.setCore core { c with pool := c.pool.filter (fun k => k.team != team), arms := c.arms.filter fun a => a.team != team }
  let s := (s.onTeam team fun t => { t with halted := true }).failStaged team core
  (s.endThreads ((s.threads.filter fun t => t.team == team).map (·.uid))).postDue core

/-- The executing threads end as by `exit`: their requests are done first, and a deferred fault stops them. The threads that
do not execute `halt` go on at the header that follows it, if their team goes on. DEDUCED (log entry 42). -/
def execHalt (o : Op) (s : State) : Host.Outcome State Fault Refusal :=
  s.issue .halt o fun g xs =>
    let ids := xs.map (·.uid)
    if xs.isEmpty then .done s
    else match s.deferredOf ids with
      | d :: ds => .stopped (s.takeDeferred g (d :: ds))
      | [] =>
        if ids.all s.quiet then
          .moved ((dedup (xs.map (·.team))).foldl State.haltTeam (s.onGroup g.gid fun g => g.atHeader (s.nextPc g)))
        else .stall

end Sys2Proof.Machine
end

