-- ==== Sys2Proof/Machine/Onsetter.lean ====
section
/-! DEFINITION. The onsetter: claims, placement, starvation, slices and pre-emption, tasks and embers that start, and the end
of teams (R107 to R126, R135, R138, R158 to R160). -/

namespace Sys2Proof.Machine

/-! ## Requests of the shaft die (R471) -/

/-- A request of the shaft die's own: it enters the upcast on port 64, with rank 64, and has no timeout. -/
def State.shaftAsk (s : State) (ctx : Nat) (act : ShaftAct) (at_ : PAddr) (op : ReqOp) (opnd : DWord) : State :=
  let id := s.nextId
  let p : Pending :=
    { id, owner := .shaft act, core := noCore, slot := 0, dreg := none, ty := .w64, flag := none, pc := 0, seq := 0, va := 0, at_,
      op, bytes := [], deadline := none, alloc := none, acquire := false, empties := false, done := false }
  let x : Req := { ctx, addr := at_, op, opnd, rank := 64, port := 64, back := .owner id, threads := [], ready := 0 }
  let fab : Fabric := { s.fabric with pending := s.fabric.pending ++ [p]
                                      arrivals := s.fabric.arrivals ++ [(.upcast (s.homePkg at_), x)] }
  { s with nextId := id + 1, fabric := fab }

/-- A request at a virtual address; it is dropped if the address no longer translates (R474). -/
def State.shaftAt (s : State) (ctx : Nat) (act : ShaftAct) (va : DWord) (need : Need) (op : ReqOp) (opnd : DWord) : State :=
  match translate s ctx va need with
  | .ok x => if x.cls = 2 then s else s.shaftAsk ctx act x.at_ op opnd
  | .error _ => s

/-! ## Launches (R110, R117) -/

def Launch.clusters (l : Launch) : Nat := l.gx * l.gy * l.gz

/-- The next cluster to place, with its origin if the launch is pinned. -/
def Launch.next (l : Launch) : Option (Nat × Option Nat) :=
  if l.pinned then l.list.head?.map fun e => (e.1, some e.2)
  else if l.nextLin < l.endLin then some (l.nextLin, none) else none

/-- A launch has placed its last cluster on the package. -/
def Launch.placed (l : Launch) : Bool := l.next.isNone && l.claimed && !l.claiming

/-- A launch that has placed its last cluster gives up its place (R110). -/
def Launch.settle (l : Launch) : Launch := if l.placed then { l with holds := false } else l

/-- The launch may claim its next batch. -/
def State.mayClaim (s : State) (l : Launch) : Bool :=
  !l.claimed && !l.claiming && l.next.isNone && !s.tablesWait l.ctx && !s.ctxStopped l.ctx && !s.failed

/-- The next batch of 16 clusters is claimed with one `xadd` on CLAIM. -/
def execClaimBatch (s : State) : Host.Outcome State Fault Refusal :=
  match s.launches.find? s.mayClaim with
  | none => .next s
  | some l =>
    .next ((s.onLaunch l.lid fun l => { l with claiming := true }).shaftAt l.ctx (.claim l.lid) l.claim .atomic (.add .w64) 16)

/-! ## Placement (R111 to R116) -/

/-- The cores of a rectangle, by team index. -/
def rectCores (stope row col cr cc : Nat) : List Nat :=
  (List.range (cr * cc)).map fun i => coreAt stope (row + i / cc) (col + i % cc)

/-- Every origin of a rectangle: stope, row and column. -/
def origins (cr cc : Nat) : List (Nat × Nat × Nat) :=
  (List.range 2).flatMap fun p => (List.range (9 - cr)).flatMap fun r => (List.range (17 - cc)).map fun c => (p, r, c)

/-- Where a rectangle with an origin core lies, if it does not leave the stope. -/
def originRect (core cr cc : Nat) : Option (List Nat) :=
  if meshRow core + cr ≤ 8 ∧ meshCol core + cc ≤ 16 then some (rectCores (stopeOfCore core) (meshRow core) (meshCol core) cr cc)
  else none

def State.stopeOccupied (s : State) (stope : Nat) : Nat :=
  ((List.range 128).map fun k => s.occupied (128 * stope + k)).sum

/-- The cores that the onsetter chooses for a cluster: the named rectangle, or that of the lowest score, then the stope with
fewer occupied slots, then stope 0, then the lowest origin (R114, R116). -/
def State.choose (s : State) (l : Launch) (origin : Option Nat) : Option (List Nat) :=
  let k := l.kernel
  let ok (cs : List Nat) : Bool := cs.all fun c => s.fits l.ctx k.share c
  match origin with
  | some c => (originRect c k.cr k.cc).filter ok
  | none =>
    let cands := (origins k.cr k.cc).filterMap fun o =>
      let cs := rectCores o.1 o.2.1 o.2.2 k.cr k.cc
      if ok cs then some ((cs.map s.occupied).sum, s.stopeOccupied o.1, o.1, cs) else none
    let le (a b : Nat × Nat × Nat × List Nat) : Bool :=
      decide (a.1 < b.1) || (a.1 == b.1 && (decide (a.2.1 < b.2.1) || (a.2.1 == b.2.1 && (decide (a.2.2.1 < b.2.2.1) ||
        (a.2.2.1 == b.2.2.1 && decide (a.2.2.2.headD 0 ≤ b.2.2.2.headD 0))))))
    (minBy le cands).map fun c => c.2.2.2

/-- A thread at its birth (R134). A launch's threads fetch as after an `isync` at its acceptance (R250). -/
def newThread (uid core slot team : Nat) (kind : Kind) (tid n synced : Nat) (words : List Word) (ember : Option Ember) : Thread :=
  { uid, core, slot, team, kind, tid, ember, n, regs := (words ++ List.replicate n 0).take n, preds := List.replicate 7 false,
    joins := List.replicate 8 none, flags := List.replicate 12 0, depth := 0, cmdseq := 0, keptRead := none, keptDrop := none,
    holds := 0, acct := 0, rdy := 0, tbar := none, cbar := none, synced, leaving := false, lit := none }

/-- A team becomes resident on a core: its places are the lowest free ones, its birth threads begin in their packs, and the
core acquires what the launch's packet acquired. -/
def State.addTeam (s : State) (l : Launch) (cluster lin index core : Nat) : State :=
  let k := l.kernel
  let h := k.share
  let ts := s.viewOn core
  let free := freeSlots ts
  let tuid := s.nextId
  let uid := tuid + 1
  let t : Team :=
    { tuid, launch := l.lid, ctx := l.ctx, core, place := (freePlace ts).getD 0, cluster, index, lin, step := s.steps,
      share := free.take h.slots, embers := (free.drop h.slots).take h.embers, lent := [], units := h.units,
      tmBase := (openRange ts h.mem).getD 0, tmLen := h.mem, halted := false, saved := false }
  let ths := (List.range k.threads).map fun i =>
    newThread (uid + i) core (128 * t.share.getD (i / 128) 0 + i % 128) tuid .birth i k.regs l.lid [] none
  let gid := uid + k.threads
  let packs := (List.range ((k.threads + 127) / 128)).map fun p =>
    let g : Group := { gid := gid + p, core, ctx := l.ctx, fam := gid + p,
                       members := (List.range (min 128 (k.threads - 128 * p))).map fun i => uid + 128 * p + i,
                       pc := k.kaddr + BitVec.ofNat 64 k.entry, clause := none, isSealed := true, byLane := true,
                       formed := s.clock, ready := s.clock, aged := false, wait := .none, bpSkip := none, redo := none }
    g
  let s := s.claimTeamMem l.ctx core
  let s : State := { s with nextId := gid + packs.length, teams := s.teams ++ [t], threads := s.threads ++ ths,
                            groups := s.groups ++ packs }
  s.emptyL1 core

/-- A cluster is placed whole, and the context's clocks start if it was not resident (R115, R121). -/
def State.place (s : State) (l : Launch) (lin : Nat) (cores : List Nat) : State :=
  let fresh := !s.running l.ctx
  let cuid := s.nextId
  let s : State := { s with nextId := cuid + 1, steps := s.steps + 1, lastPlace := s.clock,
                            clusters := s.clusters ++ [{ cuid, launch := l.lid, lin, count := cores.length }] }
  let s := cores.zipIdx.foldl (fun (s : State) (c : Nat × Nat) => s.addTeam l cuid lin c.2 c.1) s
  let s := s.onLaunch l.lid fun l =>
    { l with nextLin := lin + 1, list := l.list.drop 1, skipped := none, starved := false }.settle
  if fresh then { s with sliceStart := Tab.set l.ctx s.time s.sliceStart, resident := Tab.set l.ctx s.time s.resident } else s

/-- The order of R111. -/
def Launch.le (a b : Launch) : Bool :=
  decide (b.prio < a.prio) || (a.prio == b.prio && (decide (a.accepted < b.accepted) || (a.accepted == b.accepted &&
    (decide (a.ctx < b.ctx) || (a.ctx == b.ctx && decide (a.q ≤ b.q))))))

/-- The pending launches in the order of R111. -/
def State.pendingLaunches (s : State) : List Launch := sortBy Launch.le (s.launches.filter fun l => l.holds && l.next.isSome)

/-- The launches that are offered: their context may place, and while one is starved, only it and those of a higher class
(R112, R125, R281). -/
def State.offered (s : State) : List Launch :=
  let l := s.pendingLaunches.filter fun l => s.ctxOn l.ctx && !s.ctxStopped l.ctx && !s.preempting l.ctx && !s.failed
  match s.pendingLaunches.find? (·.starved) with
  | some st => l.filter fun x => x.lid == st.lid || decide (st.prio < x.prio)
  | none => l

/-- Where a launch's next cluster goes now. -/
def State.choice (s : State) (l : Launch) : Option (Nat × List Nat) :=
  l.next.bind fun n => (s.choose l n.2).map fun cs => (n.1, cs)

/-! ## Pre-emption (R122, R125) -/

/-- The class of a resident context. -/
def State.ctxClass (s : State) (c : Nat) : Nat :=
  ((s.teams.filter fun t => t.ctx == c && !t.saved).map fun t => match s.launch? t.launch with
    | some l => l.prio
    | none => 0).foldl max 0

/-- A launch's next cluster is skipped because the cores it needs hold another context's teams. -/
def State.blockedByOthers (s : State) (l : Launch) : Bool :=
  l.skipped.isSome && (s.choice l).isNone &&
  (State.choice { s with teams := s.teams.filter (fun t => t.ctx == l.ctx), views := s.views.filter fun v => v.2.ctx == l.ctx } l).isSome

/-- Launches for which their contexts wait. -/
def State.waitingLaunches (s : State) : List Launch :=
  s.pendingLaunches.filter fun l => s.ctxOn l.ctx && !s.ctxStopped l.ctx && !s.preempting l.ctx && s.blockedByOthers l

/-- The class of a waiting context, which R122 does not define where the context has no resident team: the highest class of its
pending launches. DESIGN CHOICE (log entry 78). -/
def State.waitClass (s : State) (c : Nat) : Nat :=
  ((s.pendingLaunches.filter fun l => l.ctx == c).map (·.prio)).foldl max 0

/-- The resident contexts, longest resident first. -/
def State.residents (s : State) : List Nat :=
  (sortBy (fun (a b : Nat × Nat) => decide (a.2 ≤ b.2)) (s.resident.filter fun e => s.running e.1)).map (·.1)

/-- A pre-emption of a context begins: PREEMPT is set, the deadline runs, and its parked groups wake (R125). -/
def State.preemptNow (s : State) (c : Nat) : State :=
  if s.preempt.isSome || !s.running c then s
  else
    let s := s.setReg (hifCtx c 0x38) (setBits (s.reg (hifCtx c 0x38)) 2 2 1)
    let us := bits (s.reg (onsCtx c 0xC)) 19 0
    let p : Preempt := { ctx := c, since := s.time, deadline := s.time + us * 1000 * Config.unitsPerNs }
    State.wakeContext ({ s with preempt := some p, sliceDue := s.sliceDue.filter (· != c) }.setReg (onsCtx c 0x10) 0) c

/-- The victim of a context that waits with a class above those of residents; of several that wait, the one whose launch comes first in
R111's order is judged first. DESIGN CHOICE (log entry 89). -/
def State.victim (s : State) : Option Nat :=
  (dedup (s.waitingLaunches.map (·.ctx))).findSome? fun w =>
    let below := s.residents.filter fun v => v != w && decide (s.ctxClass v < s.waitClass w)
    let low := (below.map s.ctxClass).foldl min 4
    below.find? fun v => s.ctxClass v == low

/-- Another context of a resident one's class waits (R122): its class is that of its resident teams, where it has some. -/
def State.equalWaits (s : State) (c : Nat) : Bool :=
  s.waitingLaunches.any fun l => l.ctx != c && (if s.running l.ctx then s.ctxClass l.ctx else s.waitClass l.ctx) == s.ctxClass c

/-- A pre-emption that may be requested now: by a driver's request that was held back, by a slice that ended during another
pre-emption and is judged again, or by a waiting context of a higher class (R122). DEDUCED (log entry 47). -/
def State.preemptDue (s : State) : Option Nat :=
  if s.preempt.isSome then none
  else match s.residents.find? fun c => s.reg (onsCtx c 0x10) != 0 || (s.sliceDue.contains c && s.equalWaits c) with
    | some c => some c
    | none => s.victim

/-- The launches that a round skips: those offered before the one placed that do not fit. -/
def State.skips (s : State) : List Launch := s.offered.takeWhile fun l => (s.choice l).isNone

/-- A round is due: eight cycles have passed, and something can be placed or is to be skipped or pre-empted. -/
def State.placeDue (s : State) : Bool :=
  decide (s.lastPlace + 8 ≤ s.clock) &&
  (s.offered.any (fun l => l.skipped.isNone || (s.choice l).isSome) || s.preemptDue.isSome || s.replace.isSome)

/-- Slices that ended during a pre-emption are judged again once none is in progress: those for which no context of equal class waits
are over (R122). -/
def State.judgeSlices (s : State) : State := if s.preempt.isSome then s else { s with sliceDue := s.sliceDue.filter s.equalWaits }

/-- One placement round (R111): the displaced images of R34 first, then the first offered cluster that fits; those before it
are skipped, which may make their context wait and request a pre-emption. DEDUCED (log entry 8). -/
def execPlaceCluster (s : State) : Host.Outcome State Fault Refusal :=
  if !s.placeDue then .next s
  else match s.replace with
    | some s' => .next { s' with steps := s'.steps + 1, lastPlace := s'.clock }
    | none =>
      let skipped := s.skips.map (·.lid)
      let s := (s.skips.foldl (fun (s : State) l => s.onLaunch l.lid fun l =>
        { l with skipped := some (l.skipped.getD s.time) }) s)
      let s := match s.offered.find? fun l => !skipped.contains l.lid with
        | some l => (match s.choice l with | some c => s.place l c.1 c.2 | none => s)
        | none => s
      .next (match s.preemptDue with | some c => s.preemptNow c | none => s).judgeSlices

/-- The first launch whose next cluster has been skipped for longer than ONS_STARVE. -/
def State.starving (s : State) : Option Launch :=
  s.pendingLaunches.find? fun l => !l.starved && (match l.skipped with
    | some t => decide (bits (s.reg (ons 0)) 19 0 * 1000 * Config.unitsPerNs < s.time - t)
    | none => false)

def execStarved (s : State) : Host.Outcome State Fault Refusal :=
  match s.starving with
  | some l => .next (s.onLaunch l.lid fun l => { l with starved := true })
  | none => .next s

/-- The first deduction that a core has reported back leaves the onsetter's view (R109). -/
def execCoreReport (s : State) : Host.Outcome State Fault Refusal := .next { s with views := s.views.drop 1 }

/-- The first resident context whose slice clock has reached its effective slice (R121). -/
def State.sliceOver (s : State) : Option Nat :=
  (s.sliceStart.find? fun e => s.running e.1 && s.effSlice e.1 != 0 &&
    decide (e.2 + s.effSlice e.1 * 1000 * Config.unitsPerNs ≤ s.time)).map (·.1)

/-- The clock restarts, and a waiting context of equal class has the resident one pre-empted (R122, R123). -/
def execSliceExpiry (s : State) : Host.Outcome State Fault Refusal :=
  match s.sliceOver with
  | none => .next s
  | some c =>
    let s : State := { s with sliceStart := Tab.set c s.time s.sliceStart }
    if !s.equalWaits c || s.preempting c then .next s
    else if s.preempt.isSome then .next { s with sliceDue := dedup (s.sliceDue ++ [c]) }
    else .next (s.preemptNow c)

/-- The driver's request: at once, or once the pre-emption in progress has ended. DEDUCED (log entry 47). -/
def execPreemptReq (ctx : Nat) (s : State) : Host.Outcome State Fault Refusal :=
  if !s.running ctx || s.preempting ctx then .next s
  else .next (s.linked (if s.preempt.isSome then s.setReg (onsCtx ctx 0x10) 1 else s.preemptNow ctx))

/-- The pre-emption in progress has drained its context. -/
def State.drained (s : State) : Option Preempt :=
  s.preempt.filter fun p => !s.running p.ctx && !(s.images.any fun i => i.ctx == p.ctx && !i.held)

def execPreemptEnd (s : State) : Host.Outcome State Fault Refusal :=
  match s.drained with
  | some p => .next (s.noteDrain p).judgeSlices
  | none => .next s

/-- FORCED RESET at the deadline (R126): the record of code 0xFE00 is written and the context is stopped.
DEDUCED (log entry 43). -/
def execDeadlineExpiry (s : State) : Host.Outcome State Fault Refusal :=
  match s.preempt with
  | some p =>
    if s.time < p.deadline then .next s
    else .next (((s.resetContext p.ctx).notice p.ctx Cls.forcedReset.code 0).stopContext p.ctx).judgeSlices
  | none => .next s

/-! ## The end of a team (R120) -/

/-- A team has ended. -/
def State.teamOver (s : State) (t : Team) : Bool :=
  let c := s.core t.core
  let x := s.quad (quadOfCore t.core)
  !t.saved && !s.resting t.core && !(s.threads.any fun u => u.team == t.tuid) && !(c.pool.any fun k => k.team == t.tuid) &&
  !(c.copyq.any fun k => k.team == t.tuid) && !(x.entries.any fun e => e.team == t.tuid) &&
  !(x.seams.any fun e => e.team == t.tuid) && !(s.lodes.any fun l => l.team == t.tuid) &&
  !(c.arms.any fun a => a.due && a.team == t.tuid) &&
  !(x.waiters.any fun w => w.team == t.tuid) && !(x.releases.any fun r => r.team == t.tuid) &&
  !(s.late.any fun l => match l with | .scan _ _ _ _ _ _ _ u => u == t.tuid | _ => false)

/-- The first team that has ended leaves: its tiles' spans end, its arms are discarded, and its share returns. -/
def execTeamEnd (s : State) : Host.Outcome State Fault Refusal :=
  match s.teams.find? s.teamOver with
  | none => .next s
  | some t =>
    let q := quadOfCore t.core
    let mine := ((s.quad q).accs.filter fun a => a.2.team == t.tuid).map (·.1)
    let s := (mine.foldl (fun (s : State) i => s.freeAcc q i) s).removeTeams [t]
    .next (s.settleQuad q)

/-! ## Tasks and embers (R119, R158 to R160) -/

/-- The lowest thread slot of some group slots that no live thread holds. DEDUCED (log entry 37). -/
def State.freeThreadSlot (s : State) (core : Nat) (gs : List Nat) : Option Nat :=
  let used := (s.threads.filter fun t => t.core == core).map (·.slot)
  ((sortBy (fun a b => decide (a ≤ b)) gs).flatMap fun g => (List.range 128).map fun i => 128 * g + i).find? fun k =>
    !used.contains k

/-- A slot for a task of a team: one of its share, else one of a lent group slot, else the group slot to lend it. -/
def State.taskSlot (s : State) (t : Team) : Option (Nat × Option Nat) :=
  match (s.freeThreadSlot t.core t.share).or (s.freeThreadSlot t.core t.lent) with
  | some k => some (k, none)
  | none =>
    let ts := s.viewOn t.core
    match freeSlots ts with
    | g :: _ => if t.unitsPerSlot ≤ freeUnits ts then some (128 * g, some g) else none
    | [] => none

/-- A core's tasks may start. DEDUCED (log entry 47). -/
def State.mayStart (s : State) (t : Team) : Bool :=
  !s.ctxStopped t.ctx && !s.resting t.core && !s.failed && !s.teamHeld t

/-- The first waiting task of a core that finds a slot. -/
def State.startable (s : State) (core : Nat) : Option (Nat × Task × Team × Nat × Option Nat) :=
  ((s.core core).pool.zipIdx.findSome? fun e => (s.team? e.1.team).bind fun t =>
    if s.mayStart t then (s.taskSlot t).map fun k => (e.2, e.1, t, k.1, k.2) else none)

/-- A task becomes a thread, and is filed under its entry; its pool record is free. -/
def execTaskStart (core : Nat) (s : State) : Host.Outcome State Fault Refusal :=
  match s.startable core with
  | none => .next s
  | some (i, k, t, slot, lend) =>
    let n := match s.launch? t.launch with | some l => l.kernel.regs | none => 8
    let uid := s.nextId
    let c := s.core core
    let s := (s.movePoison ⟨.pool core, 32 * i⟩ ⟨.regs core, 1280 * slot⟩ 32).renumberPool core (fun j => j != i)
    let s := ({ s with nextId := uid + 1 }.setCore core { c with pool := c.pool.eraseIdx i }).onTeam t.tuid fun t =>
      { t with lent := t.lent ++ lend.toList }
    let th := newThread uid core slot t.tuid .task 0 n t.launch k.record none
    .next ((State.file { s with threads := s.threads ++ [th] } core t.ctx k.entry [uid]).postDue core)

/-- The words of a burst, four bytes to a register. -/
def burstWords : Nat → List Byte → List Word
  | 0, _ => []
  | _, [] => []
  | n + 1, bs => BitVec.ofNat 32 (natOfBytes (bs.take 4)) :: burstWords n (bs.drop 4)

/-- The first staged burst of a core with a free allowance slot. -/
def State.hatchable (s : State) (core : Nat) : Option (Nat × Burst × Team × Nat) :=
  (s.core core).staging.zipIdx.findSome? fun e => (s.team? e.1.team).bind fun t =>
    if s.mayStart t then (s.freeThreadSlot core t.embers).map fun k => (e.2, e.1, t, k) else none

/-- A burst is born as an ember in the lowest free slot of its team's allowance, and is filed under the handler. -/
def execEmberBirth (s : State) : Host.Outcome State Fault Refusal :=
  match s.cores.findSome? fun c => (s.hatchable c.1).map fun h => (c.1, h) with
  | none => .next s
  | some (core, i, b, t, slot) =>
    let n := match s.launch? t.launch with | some l => l.kernel.regs | none => 8
    let uid := s.nextId
    let c := s.core core
    let th := newThread uid core slot t.tuid .ember 0 n t.launch (burstWords n b.bytes) (some { b.info with core })
    let s := (s.movePoison ⟨.staging core, 4096 * i⟩ ⟨.regs core, 1280 * slot⟩ b.bytes.length).renumberStaging core (fun j => j != i)
    let s := { s with nextId := uid + 1, threads := s.threads ++ [th] }.setCore core { c with staging := c.staging.eraseIdx i }
    let s := (s.onCmd core b.cmd fun c => { c with live := c.live + 1 }).bumpPerf core 8 1
    .next (s.file core t.ctx b.entry [uid])

end Sys2Proof.Machine
end

