-- ==== Sys2Proof/Machine/Host.lean ====
section
/-! DEFINITION. Command queues: the packets' checks (R98, R474), what each packet does as it begins (R83 to R97), completion
actions (R86), and the replies of the shaft die's requests (R471). -/

namespace Sys2Proof.Machine

/-! ## Packets (R83, R84) -/

/-- A number of `n` bytes at an offset of a packet. -/
def pktNat (ws : List Word) (off n : Nat) : Nat :=
  natOfBytes (((ws.flatMap bytesOfWord).drop off).take n)

def pktType (ws : List Word) : Nat := pktNat ws 0 1
def pktBarrier (ws : List Word) : Bool := bitAt (pktNat ws 0 4) 12
def pktScope (ws : List Word) : Nat := bits (pktNat ws 0 4) 14 13
def pktArg (ws : List Word) : Nat := pktNat ws 4 4
def pktSig (ws : List Word) : Nat := pktNat ws 8 8

def isLaunchType (t : Nat) : Bool := t == 1 || t == 2
def barrierLike (t : Nat) : Bool := decide (4 ≤ t) && decide (t ≤ 8)

/-- Bytes lo to hi − 1 of a packet are zero. -/
def zeroBytes (ws : List Word) (lo hi : Nat) : Bool := pktNat ws lo (hi - lo) == 0

/-- The check of a packet's own bytes (step 3 of R98). -/
def ownFields (ws : List Word) : Bool :=
  let h := pktNat ws 0 4
  let arg := pktArg ws
  let at_ (o : Nat) := pktNat ws o 8
  bits h 14 13 != 3 && bits h 31 16 == 0 && bits h 11 8 == 0 && pktSig ws % 8 == 0 &&
  (match pktType ws with
   | 1 | 2 =>
     bits arg 31 4 == 0 && at_ 0x10 % 256 == 0 && at_ 0x18 % 64 == 0 &&
     (if pktType ws = 1 then zeroBytes ws 0x2C 0x30 else at_ 0x20 % 16 == 0 && zeroBytes ws 0x28 0x30) &&
     (!bitAt arg 1 || at_ 0x30 % 4 == 0) && (!(bitAt arg 0 && !bitAt arg 1) || at_ 0x38 % 8 == 0)
   | 3 => bits arg 31 5 == 0 && decide (1 ≤ bits arg 3 0) && decide (bits arg 3 0 ≤ 12) && at_ 0x10 % 16 == 0 && zeroBytes ws 0x18 0x40
   | 4 => bits arg 31 1 == 0 && at_ 0x10 % 8 == 0 && zeroBytes ws 0x20 0x40
   | 5 => bits arg 31 18 == 0 && decide (bits arg 17 16 < 2) && zeroBytes ws 0x14 0x40
   | 6 => bits arg 31 9 == 0 && at_ 0x30 % 4 == 0 && zeroBytes ws 0x38 0x40 && (!bitAt arg 8 || zeroBytes ws 0x10 0x30)
   | 7 => at_ 0x10 % 16 == 0 && zeroBytes ws 0x18 0x40
   | _ => bits arg 31 1 == 0 && at_ 0x10 % 65536 == 0 && decide (1 ≤ pktNat ws 0x18 4) && decide (pktNat ws 0x18 4 ≤ 2 ^ 24) &&
     zeroBytes ws 0x1C 0x40)

/-! ## Addresses (R474) -/

/-- The address check of R474 over `n` bytes, page by page; the first address that fails. -/
def addrCheck (s : State) (c va n : Nat) (need : Need) (podOnly : Bool) : Option DWord :=
  let pages := va :: (List.range ((va % 65536 + n - 1) / 65536)).map fun i => va / 65536 * 65536 + 65536 * (i + 1)
  (pages.find? fun a =>
    if 2 ^ 52 ≤ a then true
    else match translate s c (BitVec.ofNat 64 a) need with
      | .ok x => x.cls == 2 || (podOnly && x.cls != 1)
      | .error _ => true).map (BitVec.ofNat 64)

/-- Memory that a packet names and that is read as it begins: it must pass the check of R474, and poisoned data, which is delivered
to nobody (R32), counts as an address that cannot be read. DESIGN CHOICE (log entry 70). -/
def readCheck (s : State) (c va n : Nat) : Option DWord :=
  match addrCheck s c va n .load false with
  | some a => some a
  | none =>
    if s.poison.isEmpty && (List.range 8).all (fun k => s.reg (mgt (0x80 + 8 * k)) == 0) then none
    else ((List.range n).find? fun i => match translate s c (BitVec.ofNat 64 (va + i)) .load with
      | .ok x => s.poisoned x.at_ 1
      | .error _ => true).map fun i => BitVec.ofNat 64 (va + i)

/-- The pieces of a range that lie in one line each. -/
def rangeLines (va n : Nat) : List (Nat × Nat) :=
  (List.range ((va % 256 + n + 255) / 256)).map fun i =>
    let lo := max va (va / 256 * 256 + 256 * i)
    (lo, min (va + n) (va / 256 * 256 + 256 * (i + 1)) - lo)

/-- Reads and writes of the shaft die set out: nothing of their context is on its way to their words, their homes can be reached, and
their flits have room; until then they wait, however long that takes (R47, R65, R471). DEDUCED (log entry 83). -/
def State.shaftPass (s : State) (c : Nat) (ps : List (PAddr × Nat)) : Bool :=
  s.allQuiet || (!s.tablesWait c && s.allPass c none ps)

/-- Their lines are held at their home slices, and their flits are sent (R65, R178). -/
def State.shaftReach (s : State) (ps : List (PAddr × Nat)) : State :=
  (ps.foldl (fun (s : State) p => s.noteHome p.1 p.2 1) s).sendTo (ps.map (·.1))

/-- Bytes at a virtual address that has been checked. -/
def readVa (s : State) (c va n : Nat) : List Byte :=
  (List.range n).map fun i => match translate s c (BitVec.ofNat 64 (va + i)) .load with
    | .ok x => s.byteAt x.at_
    | .error _ => 0

/-- A number at a virtual address within one page. -/
def natVa (s : State) (c va n : Nat) : Nat :=
  match translate s c (BitVec.ofNat 64 va) .load with
  | .ok x => s.natAt x.at_ n
  | .error _ => 0

/-! ## Kernel headers (R320 to R323) -/

def headField (h : List Byte) (off n : Nat) : Nat := natOfBytes ((h.drop off).take n)

/-- A header's fields. -/
def kernelOf (kaddr : DWord) (h : List Byte) : Kernel :=
  let e (i : Nat) := headField h (0x40 + 8 * i) 8
  let p (i : Nat) := headField h (0x80 + 8 * i) 8
  { kaddr, entry := headField h 8 4, codelen := headField h 0xC 4, tx := headField h 0x10 2, ty := headField h 0x12 2,
    tz := headField h 0x14 2, regs := headField h 0x16 2, cr := headField h 0x18 1, cc := headField h 0x19 1,
    embgrp := headField h 0x1A 2, teammem := headField h 0x1C 4, paramlen := headField h 0x20 4,
    entries := (List.range (headField h 0x24 1)).map fun i => (bits (e i) 33 32, bits (e i) 31 0),
    patches := (List.range (headField h 0x25 1)).map fun i => (bits (p i) 45 44, bits (p i) 43 32, bits (p i) 31 0) }

/-- No two patch records overlap. -/
def patchesApart : List (Nat × Nat × Nat) → Bool
  | [] => true
  | p :: ps => ps.all (fun q => overlap p.2.2 8 q.2.2 8 == 0) && patchesApart ps

/-- The checks of R323. -/
def kernelGood (h : List Byte) (k : Kernel) (paddr : Nat) : Bool :=
  let inCode (o : Nat) : Bool := o % 4 == 0 && decide (0x100 ≤ o) && decide (o + 4 ≤ 0x100 + k.codelen)
  let nent := headField h 0x24 1
  let npat := headField h 0x25 1
  headField h 0 4 == 0x4B484431 && headField h 4 4 == 1 && headField h 0x26 0x1A == 0 &&
  decide (nent ≤ 8) && decide (npat ≤ 16) &&
  ((List.range 8).all fun i => if i < nent then bits (headField h (0x40 + 8 * i) 8) 63 34 == 0 else headField h (0x40 + 8 * i) 8 == 0) &&
  ((List.range 16).all fun i => if i < npat then bits (headField h (0x80 + 8 * i) 8) 63 46 == 0 else headField h (0x80 + 8 * i) 8 == 0) &&
  k.codelen != 0 && k.codelen % 4 == 0 && k.regs % 8 == 0 && decide (8 ≤ k.regs) && decide (k.regs ≤ 320) &&
  k.threads != 0 && decide (k.threads ≤ 8192) && decide (1 ≤ k.cr) && decide (1 ≤ k.cc) && decide (k.cr * k.cc ≤ 12) &&
  decide (k.cr ≤ 8) && decide (k.cc ≤ 16) && decide (k.share.slots + k.share.embers ≤ 64) && decide (k.share.units ≤ 512) &&
  decide (k.teammem ≤ teamMemory) && inCode k.entry && k.entries.all (fun e => e.1 != 0 && inCode e.2) &&
  k.paramlen % 4 == 0 && decide (k.paramlen ≤ 4096) && (k.paramlen == 0 || paddr != 0) &&
  k.patches.all (fun p => p.1 != 3 && p.2.2 % 4 == 0 && decide (0x100 ≤ p.2.2) && decide (p.2.2 + 8 ≤ 0x100 + k.codelen) &&
    p.2.1 % (if p.1 = 2 then 8 else 4) == 0 && decide (p.2.1 + (if p.1 = 2 then 8 else 4) ≤ k.paramlen)) &&
  patchesApart k.patches

/-! ## The members of the pod (R46, R47, R72) -/

/-- Package k is a member and reachable, directly or by relay (R46, R47). -/
def State.reachable (s : State) (k : Nat) : Bool :=
  s.podOn && decide (k < 2 ^ s.podLog) && (s.routeTo k).isSome

/-! ## The order of checks (R98) -/

/-- A refusal: its ERRCODE, and the address of a failed address check. -/
abbrev Refused := Nat × DWord

/-- The placement list of a pinned launch: its entries, or the refusal. DEDUCED (log entry 45). -/
def placeList (s : State) (c : Nat) (pod : Bool) (k : Kernel) (place g : Nat) : Except Refused (List (Nat × Nat)) :=
  match readCheck s c place (4 * g) with
  | some a => .error (9, a)
  | none =>
    let es := (List.range g).map fun i => natVa s c (place + 4 * i) 4
    let good (e : Nat) : Bool :=
      let pkg := bits e 13 8
      let core := bits e 7 0
      bits e 31 14 == 0 && (if pod then s.reachable pkg else pkg == 0) &&
      !((!pod || pkg == s.self) && s.coreFenced core) && (originRect core k.cr k.cc).isSome
    if es.all good then
      .ok ((es.zipIdx.filter fun e => !pod || bits e.1 13 8 == s.self).map fun e => (e.2, bits e.1 7 0))
    else .error (5, 0)

/-- The words at DIMADDR that the head of a queue has read, or is reading (R89, R471). -/
def State.dimsOf (s : State) (c q : Nat) : Option (List (Option Word)) := Tab.find (16 * c + q) s.dims

/-- A side of the grid of a launch packet: of a LAUNCH_IND the word read at DIMADDR (R88, R89). -/
def gridOf (s : State) (c q : Nat) (ws : List Word) (i : Nat) : Nat :=
  if pktType ws = 2 then (match ((s.dimsOf c q).getD [])[i]? with | some (some w) => w.toNat | _ => 0)
  else pktNat ws (0x20 + 4 * i) 4

/-- The first part of step 5 of R98 for a launch: the header, the parameters and DIMADDR, in field order. Words at DIMADDR that have
been read are checked no more. DEDUCED (log entry 45). -/
def kernelCheck (s : State) (c q : Nat) (ws : List Word) : Except Refused Kernel :=
  let kaddr := pktNat ws 0x10 8
  let paddr := pktNat ws 0x18 8
  match readCheck s c kaddr 256 with
  | some a => .error (9, a)
  | none =>
    let h := readVa s c kaddr 256
    let k := kernelOf (BitVec.ofNat 64 kaddr) h
    if !kernelGood h k paddr then .error (3, 0)
    else match (if k.paramlen = 0 then none else readCheck s c paddr k.paramlen) with
      | some a => .error (9, a)
      | none => match (if pktType ws = 2 ∧ s.dimsOf c q = none then readCheck s c (pktNat ws 0x20 8) 12 else none) with
        | some a => .error (9, a)
        | none => .ok k

/-- Step 5 of R98 for a launch: the header, the parameters, the grid, the list and the claim counter, in field order.
DEDUCED (log entry 45). -/
def launchCheck (s : State) (c q : Nat) (ws : List Word) : Except Refused Launch :=
  let arg := pktArg ws
  let pinned := bitAt arg 1
  let pod := bitAt arg 0
  match kernelCheck s c q ws with
  | .error e => .error e
  | .ok k =>
    let g := gridOf s c q ws 0 * gridOf s c q ws 1 * gridOf s c q ws 2
    if 2 ^ 32 < g then .error (4, 0)
    else
      let claims := pod && !pinned && g != 0
      match (if pinned && g != 0 then placeList s c pod k (pktNat ws 0x30 8) g else .ok []) with
      | .error e => .error e
      | .ok list => match (if pod && !pinned then addrCheck s c (pktNat ws 0x38 8) 8 .atomic true else none) with
        | some a => .error (9, a)
        | none =>
          let l : Launch :=
            { lid := s.nextId, ctx := c, q, pkt := 0, prio := bits arg 3 2, pinned, pod, kernel := k,
              params := readVa s c (pktNat ws 0x18 8) k.paramlen, gx := gridOf s c q ws 0, gy := gridOf s c q ws 1, gz := gridOf s c q ws 2,
              claim := BitVec.ofNat 64 (pktNat ws 0x38 8), accepted := s.clock, nextLin := 0,
              endLin := if claims || pinned then 0 else g, list, claiming := false, claimed := !claims, skipped := none,
              starved := false, holds := true }
          .ok l.settle

/-- The entries of a FENCE. -/
def fenceEntries (s : State) (c : Nat) (ws : List Word) : List (DWord × DWord) :=
  let f := pktNat ws 0x10 8
  (List.range (bits (pktArg ws) 3 0)).map fun i =>
    (BitVec.ofNat 64 (natVa s c (f + 16 * i) 8), BitVec.ofNat 64 (natVa s c (f + 16 * i + 8) 8))

/-- The counter that an entry names. -/
def fenceAddr (e : DWord × DWord) : Nat := e.1.toNat / 8 * 8

def firstFail (fs : List (Option Refused)) : Except Refused Unit :=
  match fs.filterMap id with
  | f :: _ => .error f
  | [] => .ok ()

def at9 (a : Option DWord) : Option Refused := a.map fun v => (9, v)

/-- Steps 3 and 4 of R98, and SIGADDR, the first field of step 5. -/
def fieldCheck (s : State) (c : Nat) (ws : List Word) : Option Refused :=
  let t := pktType ws
  let arg := pktArg ws
  if !ownFields ws then some (2, 0)
  else if t = 8 ∧ c ≠ 0 then some (7, 0)
  else if (isLaunchType t && bitAt arg 0 && !s.ctxPod c) || (t == 8 && bitAt arg 0 && !s.podOn) then some (6, 0)
  else if pktSig ws = 0 then none else at9 (addrCheck s c (pktSig ws) 8 .atomic false)

/-- The checks of R98 from step 3 on; for a launch, what it is. DEDUCED (log entry 45). -/
def packetCheck (s : State) (c q : Nat) (ws : List Word) : Except Refused (Option Launch) :=
  let t := pktType ws
  let arg := pktArg ws
  let addr (o n : Nat) (need : Need) : Option Refused := at9 (addrCheck s c (pktNat ws o 8) n need false)
  match fieldCheck s c ws with
    | some f => .error f
    | none => match t with
      | 1 | 2 => (launchCheck s c q ws).map some
      | 3 =>
        let es := fenceEntries s c ws
        (firstFail ([at9 (readCheck s c (pktNat ws 0x10 8) (16 * bits arg 3 0)),
          (if es.any fun e => decide (4 ≤ bits e.1.toNat 2 0) then some (2, 0) else none)] ++
          es.map fun e => at9 (addrCheck s c (fenceAddr e) 8 .load false))).map fun _ => none
      | 4 => (firstFail [addr 0x10 8 (if bitAt arg 0 then .atomic else .store)]).map fun _ => none
      | 5 => if (s.teamsOn (bits arg 7 0)).any fun u => u.ctx == c then .ok none else .error (8, 0)
      | 6 => (firstFail [if pktNat ws 0x30 8 = 0 then none else addr 0x30 4 .store]).map fun _ => none
      | 7 => (firstFail [addr 0x10 16 .store]).map fun _ => none
      | _ => .ok none

/-! ## Beginning (R85, R98) -/

/-- The packets of a queue that have begun and whose actions are not all done, in ring order. -/
def State.pktsOf (s : State) (c q : Nat) : List Pkt := s.pkts.filter fun p => p.ctx == c && p.q == q

/-- A launch has completed: it places no more, and none of its teams is left (R85). -/
def State.launchOver (s : State) (lid : Nat) : Bool :=
  (match s.launch? lid with | some l => l.placed | none => false) && !(s.teams.any fun t => t.launch == lid)

/-- A packet has completed. -/
def State.pktDone (s : State) (p : Pkt) : Bool :=
  p.complete || (match p.launch with | some l => s.launchOver l | none => false)

/-- The memory that a packet reads as it begins, line by line: header, parameters and placement list of a launch, the entries of a
FENCE. -/
def packetVas (s : State) (c q : Nat) (ws : List Word) : List (Nat × Nat) :=
  let field (o n : Nat) : List (Nat × Nat) := rangeLines (pktNat ws o 8) n
  match pktType ws with
  | 1 | 2 =>
    let k := kernelOf 0 (readVa s c (pktNat ws 0x10 8) 256)
    let g := gridOf s c q ws 0 * gridOf s c q ws 1 * gridOf s c q ws 2
    field 0x10 256 ++ (if k.paramlen ≤ 4096 then field 0x18 k.paramlen else []) ++
      (if bitAt (pktArg ws) 1 && decide (g ≤ 2 ^ 32) then field 0x30 (4 * g) else [])
  | 3 => field 0x10 (16 * bits (pktArg ws) 3 0)
  | _ => []

/-- The range that a PAGE_ZERO zeroes, and one of its lines for every home that its first pages show. -/
def zeroSpan (ws : List Word) : PAddr × Nat := (⟨if bitAt (pktArg ws) 0 then .pod else .pkg, pktNat ws 0x10 8⟩, 65536 * pktNat ws 0x18 4)
def zeroLines (ws : List Word) : List PAddr :=
  (List.range (min 8192 (256 * pktNat ws 0x18 4))).map fun i => (zeroSpan ws).1.plus (256 * i)

/-- One line of each member among them. -/
def State.oneEach (s : State) (ps : List PAddr) : List PAddr :=
  (dedup (ps.map s.homePkg)).filterMap fun k => ps.find? fun p => s.homePkg p == k

/-- What a packet reads as it begins, and the pages that it zeroes, can be reached now (R471). -/
def packetReach (s : State) (c q : Nat) (ws : List Word) : Bool :=
  s.allQuiet ||
  (if pktType ws = 8 then
    (zeroLines ws).all s.canReach && s.passes c none (zeroSpan ws).1 (zeroSpan ws).2 && s.flitsFit (s.oneEach (zeroLines ws))
  else s.shaftPass c (tablePlaces s c (packetVas s c q ws)))

/-- The packet's reads and writes set out; a PAGE_ZERO is one flit to each member (DEDUCED, log entry 83). -/
def State.reachPacket (s : State) (c q : Nat) (ws : List Word) : State :=
  if pktType ws = 8 then (if bitAt (pktArg ws) 0 then s.sendTo (s.oneEach (zeroLines ws)) else s)
  else s.shaftReach (tablePlaces s c (packetVas s c q ws))

/-- What stands at a queue's head, where the queue may begin something. -/
inductive Head
  | unreadable (va : DWord)
  | packet (ws : List Word)
  deriving DecidableEq, Repr

def State.head (s : State) (c q : Nat) : Option Head :=
  let n := s.reg (hifQ c q 0x10)
  let open_ := s.ctxOn c && !s.ctxStopped c && !s.failed && bitAt (s.reg (hifQ c q 8)) 31 && !bitAt (s.reg (hifQ c q 0x18)) 1 &&
    n != s.reg (hifQ c q 0x14) &&
    (s.pktsOf c q).all fun p => !(p.type == 3 || barrierLike p.type) || s.pktDone p
  if !open_ then none
  else match s.queue? c q, s.slotPlace c q n with
    | some r, .error _ => some (.unreadable (r.base + BitVec.ofNat 64 (64 * (n % 2 ^ r.log2))))
    | some r, .ok p =>
      if !s.shaftPass c [(p, 64)] then none
      else if s.poisoned p 64 then some (.unreadable (r.base + BitVec.ofNat 64 (64 * (n % 2 ^ r.log2))))
      else
        let ws := wordsOfBytes (s.bytesAt p 64)
        if (pktBarrier ws || barrierLike (pktType ws)) && !((s.pktsOf c q).all s.pktDone) then none
        else if pktType ws = 2 ∧ ((s.dimsOf c q).getD []).contains none = true then none
        else if packetReach s c q ws then some (.packet ws) else none
    | none, _ => none

/-- A refusal (R98): the packet is consumed, the queue stops with its ERRCODE, and a record is written. -/
def State.refusePacket (s : State) (c q : Nat) (e : Refused) : State :=
  let n := s.reg (hifQ c q 0x10)
  let s := (s.setReg (hifQ c q 0x10) ((n + 1) % 2 ^ 32)).setReg (hifQ c q 0x18) (e.1 * 2 ^ 16 + 2)
  let s : State := { s with dims := Tab.del (16 * c + q) s.dims }
  s.addRec 0 c false false q (0xFF00 + e.1) e.2 0 0 0 0 []

/-- The packet at HEAD begins: HEAD passes it. -/
def State.pushPacket (s : State) (c q : Nat) (ws : List Word) (l : Option Launch) : Pkt × State :=
  let n := s.reg (hifQ c q 0x10)
  let pid := s.nextId + 1
  let p : Pkt :=
    { pid, ctx := c, q, num := n, type := pktType ws, scope := pktScope ws, irq := bitAt (pktNat ws 0 4) 15,
      sigaddr := BitVec.ofNat 64 (pktSig ws), body := ws, entries := if pktType ws = 3 then fenceEntries s c ws else [],
      launch := l.map (·.lid), met := [], asked := [], complete := false, phase := if pktType ws = 7 then 0 else 3,
      reread := s.time, install := none }
  let ls := (l.map fun (l : Launch) => { l with pkt := pid }).toList
  let s : State := { s with nextId := pid + 1, pkts := s.pkts ++ [p], launches := s.launches ++ ls, dims := Tab.del (16 * c + q) s.dims }
  (p, s.setReg (hifQ c q 0x10) ((n + 1) % 2 ^ 32))

/-- A free place among the onsetter's 32 (R110). -/
def State.placeFree (s : State) : Bool := decide ((s.launches.filter (·.holds)).length < 32)

/-- A type that R84 assigns, and that the queue's port would have taken (R98, R99). -/
def State.typeGood (s : State) (c q t : Nat) : Bool :=
  decide (1 ≤ t) && decide (t ≤ 8) && !((t == 6 || t == 8) && (match s.queue? c q with | some r => r.device | none => false))

/-- A LAUNCH_IND packet whose words at DIMADDR are next to be read. -/
def dimsWanted (s : State) (c q : Nat) (ws : List Word) : Bool :=
  pktType ws == 2 && (s.dimsOf c q).isNone && (fieldCheck s c ws).isNone && (kernelCheck s c q ws).isOk

/-- The three words at DIMADDR are asked for, each as a request of the shaft die (R89, R471). -/
def State.askDims (s : State) (c q d : Nat) : State :=
  (List.range 3).foldl (fun (s : State) i => s.shaftAt c (.dim c q i) (BitVec.ofNat 64 (d + 4 * i)) .load (.load 4) 0)
    { s with dims := Tab.set (16 * c + q) [none, none, none] s.dims }

/-- The packet at a queue's head begins if it is one of those wanted; a packet that breaks a rule is refused. A LAUNCH_IND first reads
the words at DIMADDR, and waits for them. DEDUCED (log entry 45). -/
def State.beginPacket (s : State) (c q : Nat) (want : List Word → Bool) (act : State → Pkt → State) : State :=
  match s.head c q with
  | none => s
  | some (.unreadable va) => s.refusePacket c q (9, va)
  | some (.packet ws) =>
    if !s.typeGood c q (pktType ws) then s.refusePacket c q (1, 0)
    else if !want ws then s
    else if isLaunchType (pktType ws) && !s.placeFree then s
    else if dimsWanted s c q ws then s.askDims c q (pktNat ws 0x20 8)
    else match packetCheck s c q ws with
      | .error e => s.refusePacket c q e
      | .ok l => let r := (s.reachPacket c q ws).pushPacket c q ws l; act r.2 r.1

/-! ## The packets -/

/-- A LAUNCH packet begins: the onsetter accepts it (R88, R110). -/
def execLaunch (ctx q : Nat) (s : State) : Host.Outcome State Fault Refusal :=
  .next (s.beginPacket ctx q (fun ws => pktType ws == 1) fun s _ => s)

/-- A LAUNCH_IND packet begins with the grid that stands at DIMADDR (R89). -/
def execLaunchInd (ctx q : Nat) (s : State) : Host.Outcome State Fault Refusal :=
  .next (s.beginPacket ctx q (fun ws => pktType ws == 2) fun s _ => s)

/-- A launch packet that waited for a free place is accepted (R110). -/
def execLaunchAccept (ctx q : Nat) (s : State) : Host.Outcome State Fault Refusal :=
  .next (s.beginPacket ctx q (fun ws => isLaunchType (pktType ws)) fun s _ => s)

/-- Reads every entry of a FENCE that is not met and not being read. -/
def State.readFence (s : State) (pid : Nat) : State :=
  match s.pkts.find? fun p => p.pid == pid with
  | none => s
  | some p =>
    let todo := p.entries.zipIdx.filter fun e => !p.met.contains e.2 && !p.asked.contains e.2
    let s := s.onPkt pid fun p => { p with asked := p.asked ++ todo.map (·.2), reread := s.time }
    todo.foldl (fun (s : State) (e : (DWord × DWord) × Nat) =>
      s.shaftAt p.ctx (.fenceRead pid e.2) (BitVec.ofNat 64 (fenceAddr e.1)) .load (.load 8) 0) s

def execFencePacket (ctx q : Nat) (s : State) : Host.Outcome State Fault Refusal :=
  .next (s.beginPacket ctx q (fun ws => pktType ws == 3) fun s p => s.readFence p.pid)

/-- The FENCE of a queue that waits reads its counters again (R92). -/
def execFenceReread (ctx q : Nat) (s : State) : Host.Outcome State Fault Refusal :=
  match (s.pktsOf ctx q).find? fun p => p.type == 3 && !p.complete with
  | some p => .next (s.readFence p.pid)
  | none => .next s

/-- A request of a packet, or, where its address no longer translates, what follows without it (R474). -/
def State.askOr (s : State) (p : Pkt) (act : ShaftAct) (va : DWord) (need : Need) (op : ReqOp) (opnd : DWord) (lost : Pkt → Pkt) :
    State :=
  let ok := match translate s p.ctx va need with | .ok x => x.cls != 2 | .error _ => false
  if ok then s.shaftAt p.ctx act va need op opnd else s.onPkt p.pid lost

def finished (p : Pkt) : Pkt := { p with complete := true }

def execSignalStore (ctx q : Nat) (s : State) : Host.Outcome State Fault Refusal :=
  .next (s.beginPacket ctx q (fun ws => pktType ws == 4 && !bitAt (pktArg ws) 0) fun s p =>
    s.askOr p (.signal p.pid) (BitVec.ofNat 64 (pktNat p.body 0x10 8)) .store (.store 8) (BitVec.ofNat 64 (pktNat p.body 0x18 8)) finished)

def execSignalAdd (ctx q : Nat) (s : State) : Host.Outcome State Fault Refusal :=
  .next (s.beginPacket ctx q (fun ws => pktType ws == 4 && bitAt (pktArg ws) 0) fun s p =>
    s.askOr p (.signal p.pid) (BitVec.ofNat 64 (pktNat p.body 0x10 8)) .atomic (.add .w64) (BitVec.ofNat 64 (pktNat p.body 0x18 8))
      finished)

/-- The counter of a COUNTER packet takes a new value, after the packet's acquire. DEDUCED (log entry 36). -/
def State.counterPacket (s : State) (p : Pkt) (f : Word → Word → Word) (posts : Bool) : State :=
  let core := bits (pktArg p.body) 7 0
  let k := bits (pktArg p.body) 15 8
  let v : Word := BitVec.ofNat 32 (pktNat p.body 0x10 4)
  ((s.emptyL1 core).setCounter core k (f (s.counter core k) v) posts).onPkt p.pid finished

def execCounterInit (ctx q : Nat) (s : State) : Host.Outcome State Fault Refusal :=
  .next (s.beginPacket ctx q (fun ws => pktType ws == 5 && bits (pktArg ws) 17 16 != 1) fun s p =>
    s.counterPacket p (fun _ v => v) false)

def execCounterAdd (ctx q : Nat) (s : State) : Host.Outcome State Fault Refusal :=
  .next (s.beginPacket ctx q (fun ws => pktType ws == 5 && bits (pktArg ws) 17 16 == 1) fun s p =>
    s.counterPacket p (fun old v => old - v) true)

/-! ## Bank windows (R18, R19, R95) -/

/-- A page counts as mapped: V and TABLE at levels 1 and 2, and V at level 3 (R19). -/
def pageMapped (s : State) (c page : Nat) : Bool :=
  let va := page * 65536
  let down (base idx : Nat) : Option Nat :=
    let e := s.natAt ⟨.pkg, base + 8 * idx⟩ 8
    if bitAt e 0 && bitAt e 1 then some (bits e 38 16 * 2 ^ 16) else none
  match (down (bits (s.reg (hifCtx c 8)) 38 16 * 2 ^ 16) (bits va 51 40)).bind fun t => down t (bits va 39 28) with
  | some t => bitAt (s.natAt ⟨.pkg, t + 8 * bits va 27 16⟩ 8) 0
  | none => false

/-- The status of an install: the lowest that applies (R95). -/
def windowStatus (s : State) (c index : Nat) (ws : List Word) : Nat :=
  let vbase := pktNat ws 0x10 8
  let len := pktNat ws 0x18 8
  let f := pktNat ws 0x28 4
  let good := vbase % 65536 == 0 && decide (vbase < 2 ^ 52) && len != 0 && len % 65536 == 0 && decide (vbase + len ≤ 2 ^ 52) &&
    pktNat ws 0x20 8 % 4096 == 0 && bits f 31 12 == 0 && bits f 7 4 == 0 && decide (4 ≤ bits f 11 8) && decide (bits f 11 8 ≤ 12) &&
    pktNat ws 0x2C 4 == 0
  if !good then 1
  else if 2 ≤ bits f 3 2 then 2
  else if (banks s c).any fun w => w.index != index && overlap vbase len w.vbase w.len != 0 then 3
  else if (List.range (len / 65536)).any fun i => pageMapped s c (vbase / 65536 + i) then 4
  else 0

/-- A WINDOW packet completes: the table entry takes its 32 bytes (R21). -/
def State.finishWindow (s : State) (pid : Nat) : State :=
  match (s.pkts.find? fun p => p.pid == pid).bind fun p => p.install.map fun e => (p, e) with
  | some (p, e) =>
    let at_ := bits (s.reg (hifCtx p.ctx 0x10)) 38 13 * 2 ^ 13 + 32 * bits (pktArg p.body) 7 0
    ((s.homeWrite p.ctx ⟨.pkg, at_⟩ e).noteHome ⟨.pkg, at_⟩ 32 1).onPkt pid fun p => { finished p with install := none }
  | none => s.onPkt pid finished

/-- The status goes to RESULT, and with it, or at once without a RESULT, the packet completes. -/
def State.windowPacket (s : State) (p : Pkt) (status : Nat) (entry : List Byte) : State :=
  let s := if status = 0 then s.onPkt p.pid fun p => { p with install := some entry } else s
  let va : DWord := BitVec.ofNat 64 (pktNat p.body 0x30 8)
  let ok := match translate s p.ctx va .store with | .ok x => x.cls != 2 | .error _ => false
  if va = 0 || !ok then s.finishWindow p.pid
  else s.shaftAt p.ctx (.result p.pid) va .store (.store 4) (BitVec.ofNat 64 status)

def execWindowInstall (ctx q : Nat) (s : State) : Host.Outcome State Fault Refusal :=
  .next (s.beginPacket ctx q (fun ws => pktType ws == 6 && !bitAt (pktArg ws) 8) fun s p =>
    s.windowPacket p (windowStatus s ctx (bits (pktArg p.body) 7 0) p.body) (bytesOfNat (pktNat p.body 0x10 32) 32))

/-- An invalid descriptor is one whose LENGTH is zero. DEDUCED (log entry 13). -/
def execWindowInvalidate (ctx q : Nat) (s : State) : Host.Outcome State Fault Refusal :=
  .next (s.beginPacket ctx q (fun ws => pktType ws == 6 && bitAt (pktArg ws) 8) fun s p =>
    s.windowPacket p 0 (List.replicate 32 0))

/-- A MARKER has nothing to do but its completion actions (R96). -/
def execMarker (ctx q : Nat) (s : State) : Host.Outcome State Fault Refusal :=
  .next (s.beginPacket ctx q (fun ws => pktType ws == 7) fun s p => s.onPkt p.pid finished)

/-- Zeroes a range at its home slices (R97). -/
def State.zeroRange (s : State) (ctx : Nat) (p : PAddr) (n : Nat) : State :=
  let inside (x : PAddr) : Bool := x.space == p.space && decide (p.addr ≤ x.addr) && decide (x.addr < p.addr + n)
  let wake (w : Wait) : Wait := match w with
    | .park lines d pd ids hit => .park lines d pd ids (hit || lines.any inside)
    | w => w
  let s := s.setCells p.space ((s.cells p.space).clear p.addr n)
  let s : State := { s with poison := s.poison.filter (fun x => !inside x),
                            groups := s.groups.map fun g => { g with wait := wake g.wait } }
  (linesOf p n).foldl (fun (s : State) a => s.noteHome a 1 1) (s.countWindows ctx p n)

def execPageZero (ctx q : Nat) (s : State) : Host.Outcome State Fault Refusal :=
  .next (s.beginPacket ctx q (fun ws => pktType ws == 8) fun s p =>
    (s.zeroRange ctx (zeroSpan p.body).1 (zeroSpan p.body).2).onPkt p.pid finished)

/-! ## Completion actions (R86) -/

/-- The packet of a queue whose completion actions are next: the earliest begun, if it is complete and no action of it is
on its way. -/
def State.acting (s : State) (c q : Nat) : Option Pkt :=
  ((s.pktsOf c q).head?).filter fun p => s.pktDone p && !s.tablesWait c && (p.phase == 0 || p.phase == 3 || p.phase == 5)

/-- The next action: a MARKER's two stores, then the decrement at SIGADDR, then the interrupt; then the packet is done. -/
def execCompletionActions (ctx q : Nat) (s : State) : Host.Outcome State Fault Refusal :=
  match s.acting ctx q with
  | none => .next s
  | some p =>
    let go (n : Nat) (s : State) : State := s.onPkt p.pid fun p => { p with phase := n }
    let up (p : Pkt) : Pkt := { p with phase := p.phase + 1 }
    if p.phase = 0 then
      let va : DWord := BitVec.ofNat 64 (pktNat p.body 0x10 8)
      let mark : DWord := BitVec.ofNat 64 (p.num % 2 ^ 32 * 2 ^ 32 + pktArg p.body)
      .next (((go 1 s).askOr p (.marker p.pid false) va .store (.store 8) (BitVec.ofNat 64 s.ns) up).askOr p (.marker p.pid true)
        (va + 8) .store (.store 8) mark up)
    else if p.phase = 3 then
      if p.sigaddr = 0 then .next (go 5 s)
      else .next ((go 4 s).askOr p (.sigaddr p.pid) p.sigaddr .atomic (.add .w64) (-1) up)
    else
      let s := if p.irq then s.raise (s.ctxFunc ctx) (bits (s.reg (hifQ ctx q 8)) 26 16) else s
      .next { s with pkts := s.pkts.filter (fun x => x.pid != p.pid),
                     launches := s.launches.filter fun l => p.launch != some l.lid }

/-! ## Replies of the shaft die's requests (R92, R117, R471) -/

/-- COND of a FENCE entry: ≤, =, ≥ or ≠ (R92). -/
def fenceMet (e : DWord × DWord) (v : DWord) : Bool :=
  match bits e.1.toNat 2 0 with
  | 0 => decide (v.toInt ≤ e.2.toInt)
  | 1 => v == e.2
  | 2 => decide (e.2.toInt ≤ v.toInt)
  | _ => v != e.2

/-- A FENCE is complete: every entry is met, or with ANY one of them. -/
def Pkt.settleFence (p : Pkt) : Pkt :=
  if (if bitAt (pktArg p.body) 4 then !p.met.isEmpty else decide (p.entries.length ≤ p.met.length)) then { p with complete := true } else p

/-- What a reply does. -/
def State.shaftDone (s : State) (act : ShaftAct) (v : DWord) : State :=
  match act with
  | .dim c q i => match s.dimsOf c q with
    | some ds => { s with dims := Tab.set (16 * c + q) (ds.set i (some (v.extractLsb' 0 32))) s.dims }
    | none => s
  | .apRead _ => { s with readback := some (v.extractLsb' 0 32) :: s.readback }
  | .apWrite _ => s
  | .claim lid => s.onLaunch lid fun l =>
    let g := l.clusters
    let b := v.toNat
    (if g ≤ b then { l with claiming := false, claimed := true }
     else { l with claiming := false, nextLin := b, endLin := min (b + 16) g }).settle
  | .sigaddr pid => s.onPkt pid fun p => { p with phase := 5 }
  | .signal pid => s.onPkt pid finished
  | .result pid => s.finishWindow pid
  | .marker pid _ => s.onPkt pid fun p => { p with phase := p.phase + 1 }
  | .fenceRead pid i => s.onPkt pid fun p =>
    let p := { p with asked := p.asked.filter (· != i) }
    match p.entries[i]? with
    | some e => if fenceMet e v && !p.met.contains i then { p with met := i :: p.met }.settleFence else p
    | none => p

/-- A reply waits for the pseudo-channel that holds the window table, which the end of a WINDOW packet writes (R34, R95). -/
def State.shaftWaits (s : State) (act : ShaftAct) : Bool :=
  match act with
  | .result pid => s.pkts.any fun p => p.pid == pid && p.install.isSome && s.tablesWait p.ctx
  | _ => false

/-- What a reply without a value does. An aperture read returns a poisoned completion (R79), and the words at DIMADDR are checked and
read again. DESIGN CHOICE (log entry 71). -/
def State.shaftFatal (s : State) (act : ShaftAct) : State :=
  match act with
  | .fenceRead pid i => s.onPkt pid fun p => { p with asked := p.asked.filter (· != i) }
  | .apRead _ => { s with readback := none :: s.readback }
  | .dim c q _ =>
    let other (p : Pending) : Bool := match p.owner with | .shaft (.dim c' q' _) => c' == c && q' == q | _ => false
    State.purge { s with dims := Tab.del (16 * c + q) s.dims
                         fabric := { s.fabric with pending := s.fabric.pending.filter fun p => !other p } }
  | act => s.shaftDone act (-1)

/-- An aperture access that has set out, and still waits at the upcast for a member that can no longer be reached: it reaches nothing
(R79, R471). -/
def State.stranded (s : State) (p : Pending) : Bool :=
  (match p.owner with | .shaft (.apRead _) | .shaft (.apWrite _) => true | _ => false) && (s.routeTo (s.homePkg p.at_)).isNone &&
    (s.fabric.arrivals ++ s.fabric.queues).any fun q => (s.fabric.ownersOf s.fabric.depth q.2.back).contains p.id

/-- The reply of a request of the shaft die arrives. Poisoned data is delivered to nobody (R32), and R70 names only threads: where
the reply is fatal, an act counts as done, a claim as one at or beyond the grid's end, and a FENCE's counter is to be read again.
DESIGN CHOICE (log entry 71). -/
def execShaftDieReply (req : Nat) (s : State) : Host.Outcome State Fault Refusal :=
  match s.fabric.replies.find? (fun r => r.to_ == .owner req), s.fabric.pending.find? (fun p => p.id == req) with
  | some r, some p =>
    match p.owner with
    | .shaft act =>
      if s.shaftWaits act then .next s
      else
        let fab : Fabric := { s.fabric with replies := s.fabric.replies.filter fun q => q.to_ != .owner req }
        let s := State.dropPending { s with fabric := fab } req
        .next (if r.fatal then s.shaftFatal act else s.shaftDone act r.value)
    | _ => .next s
  | none, some p =>
    if s.stranded p then
      let here (q : StageId × Req) : Bool := q.2.back == .owner req
      let fab : Fabric := { s.fabric with arrivals := s.fabric.arrivals.filter fun q => !here q
                                          queues := s.fabric.queues.filter fun q => !here q }
      let s := State.dropPending { s with fabric := fab } req
      .next (match p.owner with | .shaft act => s.shaftDone act (-1) | _ => s)
    else .next s
  | _, _ => .next s

/-! ## Doorbells and queues (R82, R106) DEDUCED (log entry 8). -/

def execDoorbell (ctx q : Nat) (tail : BitVec 32) (s : State) : Host.Outcome State Fault Refusal :=
  match s.queue? ctx q with
  | none => .next s
  | some r =>
    if !s.linkUp || r.device || !bitAt (s.reg (hifQ ctx q 8)) 31 then .next s
    else if 2 ^ r.log2 < (tail.toNat + 2 ^ 32 - s.reg (hifQ ctx q 0x10)) % 2 ^ 32 then
      .next ((s.setReg (hifQ ctx q 0x18) (10 * 2 ^ 16 + 2)).addRec 0 ctx false false q 0xFF0A 0 0 0 0 0 [])
    else .next (s.setReg (hifQ ctx q 0x14) tail.toNat)

/-- A store of HIF_Q_CTL without its ENABLE. -/
def qctlOf (value : Nat) : Nat := setBits (value &&& 0x47FF001F) 4 0 (min 16 (max 4 (bits value 4 0)))

/-- ENABLE goes from 0 to 1: BASE, SRC and LOG2SIZE take effect, and HEAD and TAIL become 0 (R82).
DEDUCED (log entry 8). -/
def execQueueEnable (ctx q : Nat) (value : BitVec 32) (s : State) : Host.Outcome State Fault Refusal :=
  if !s.linkUp || bitAt (s.reg (hifQ ctx q 8)) 31 then .next s
  else
    let v := qctlOf value.toNat
    let r : Queue := { base := BitVec.ofNat 64 (s.reg (hifQ ctx q 0)), log2 := bits v 4 0, device := bitAt v 30 }
    let s : State := { s with queues := Tab.set (16 * ctx + q) r s.queues }
    .next (((s.setReg (hifQ ctx q 8) (2 ^ 31 + v)).setReg (hifQ ctx q 0x10) 0).setReg (hifQ ctx q 0x14) 0)

/-- A write of 1 to ERROR lets the queue resume at HEAD; ERRCODE stays (R98). -/
def execQueueErrorClear (ctx q : Nat) (s : State) : Host.Outcome State Fault Refusal :=
  .next (s.linked (s.setReg (hifQ ctx q 0x18) (setBits (s.reg (hifQ ctx q 0x18)) 1 1 0)))

/-! ## Contexts (R80, R81) -/

/-- The fields of HIF_CTX_CTL that a write while ENABLE is 0 stores: context 0 keeps FUNC 0, no VF gets a ninth context, and
POD is stored only in a pod. -/
def State.ctlFields (s : State) (c v : Nat) : Nat :=
  let old := s.reg (hifCtx c 0)
  let f := bits v 24 20
  let others := (List.range 64).filter fun k => k != c && s.ctxFunc k == f
  let func := if c = 0 then 0 else if f ≠ 0 ∧ 8 ≤ others.length then bits old 24 20 else f
  (if bitAt v 30 && s.podOn then 2 ^ 30 else 0) + func * 2 ^ 20 + bits v 19 0

/-- No context can be created on a limited link, which does not present the register either (R17). -/
def State.mayEnable (s : State) : Bool := s.linkUp

/-- ENABLE goes from 0 to 1: STOPPED clears, and the onsetter's and the debug registers of the context reset.
DEDUCED (log entry 8). -/
def execContextEnable (ctx : Nat) (value : BitVec 32) (s : State) : Host.Outcome State Fault Refusal :=
  if s.ctxOn ctx || !s.mayEnable then .next s
  else
      let f := s.ctlFields ctx value.toNat
      let reset (e : Nat × DWord) : Bool :=
        (decide (onsCtx ctx 0 ≤ e.1) && decide (e.1 < onsCtx ctx 0x20)) || (decide (dbgCtx ctx 0 ≤ e.1) && decide (e.1 < dbgCtx ctx 0x40))
      let s : State := { s with regs := s.regs.filter (fun e => !reset e), drains := Tab.del ctx s.drains,
                                sampleAt := Tab.del ctx s.sampleAt, lostNoted := Tab.del ctx s.lostNoted }
      .next ((s.setReg (hifCtx ctx 0) (2 ^ 31 + f)).setReg (hifCtx ctx 0x38) (setBits (s.reg (hifCtx ctx 0x38)) 1 1 0))

/-- ENABLE goes from 1 to 0: the context is reset by force, its packets never complete, and its queues stop (R80). -/
def execContextDisable (ctx : Nat) (s : State) : Host.Outcome State Fault Refusal :=
  if !s.ctxOn ctx || !s.linkUp then .next s
  else
    let pids := (s.pkts.filter fun p => p.ctx == ctx).map (·.pid)
    let lids := (s.launches.filter fun l => l.ctx == ctx).map (·.lid)
    let gone (p : Pending) : Bool := match p.owner with
      | .shaft (.claim l) => lids.contains l
      | .shaft (.dim c _ _) => c == ctx
      | .shaft (.sigaddr p) | .shaft (.signal p) | .shaft (.result p) | .shaft (.marker p _) | .shaft (.fenceRead p _) => pids.contains p
      | _ => false
    let dead := (s.fabric.pending.filter gone).map (·.id)
    let drop (q : StageId × Req) : Bool := match q.2.back with
      | .owner r => dead.contains r
      | .entry _ => false
    let fab : Fabric := { s.fabric with
      pending := s.fabric.pending.filter (fun p => !gone p)
      arrivals := s.fabric.arrivals.filter (fun q => !drop q)
      queues := s.fabric.queues.filter fun q => !drop q }
    let s := State.resetContext { s with fabric := fab.purge, pkts := s.pkts.filter (fun p => p.ctx != ctx),
                                         dims := s.dims.filter fun e => e.1 / 16 != ctx } ctx
    let s := (List.range 16).foldl (fun (s : State) q =>
      (s.setReg (hifQ ctx q 8) (setBits (s.reg (hifQ ctx q 8)) 31 31 0)).setReg (hifQ ctx q 0x18)
        (setBits (s.reg (hifQ ctx q 0x18)) 1 1 0)) s
    let s : State := { s with queues := s.queues.filter fun e => e.1 / 16 != ctx }
    .next (s.setReg (hifCtx ctx 0) (setBits (s.reg (hifCtx ctx 0)) 31 31 0)).judgeSlices

/-! ## Fault-queue registers (R100) -/

/-- The rule under which a HEAD takes a new value. -/
def headOk (head tail h : Nat) : Bool := decide ((h + 2 ^ 32 - head) % 2 ^ 32 ≤ (tail + 2 ^ 32 - head) % 2 ^ 32)

/-- Records that the host refused are written again. -/
def State.fqAgain (s : State) (c : Nat) : State := { s with fqWait := s.fqWait.filter (· != c) }

def execFqHeadWrite (ctx : Nat) (value : BitVec 32) (s : State) : Host.Outcome State Fault Refusal :=
  if !s.linkUp then .next s
  else
  let s := s.fqAgain ctx
  if headOk (s.reg (hifCtx ctx 0x2C)) (s.reg (hifCtx ctx 0x28)) value.toNat then .next (s.setReg (hifCtx ctx 0x2C) value.toNat)
  else .next s

def execFqbaseWrite (ctx : Nat) (value : BitVec 64) (s : State) : Host.Outcome State Fault Refusal :=
  .next (s.linked ((s.fqAgain ctx).setReg (hifCtx ctx 0x18) (value.toNat / 4096 * 4096)))

/-! ## TLB invalidations and die memory (R169, R191) -/

def execTlbinvPages (ctx : Nat) (value : BitVec 64) (s : State) : Host.Outcome State Fault Refusal :=
  .next (s.linked (s.invalidate ctx (if bitAt value.toNat 0 then none
    else some (invalRange (bits value.toNat 51 16) (bits value.toNat 63 58)))))

def execTlbinvAll (ctx : Nat) (s : State) : Host.Outcome State Fault Refusal := .next (s.linked (s.invalidate ctx none))

/-- One bit of DIEMAP, which is written only while the context is not running (R189): refused while another context owns the partition, which is zeroed when it comes from another. -/
def State.dieBit (s : State) (ctx stope : Nat) (want : Nat) (i : Nat) : State :=
  let off (c : Nat) := hifCtx c (0x40 + 8 * stope)
  let now := bitAt (s.reg (off ctx)) i
  if bitAt want i = now then s
  else if now then s.setReg (off ctx) (setBits (s.reg (off ctx)) i i 0)
  else if (List.range 64).any fun c => c != ctx && bitAt (s.reg (off c)) i then s
  else
    let s := match Tab.find (64 * stope + i) s.dieOwner with
      | some c => if c = ctx then s else s.zeroCells ⟨.die stope, i * 2 ^ 20⟩ (2 ^ 20)
      | none => s
    { s with dieOwner := Tab.set (64 * stope + i) ctx s.dieOwner }.setReg (off ctx) (setBits (s.reg (off ctx)) i i 1)

def execDiemapWrite (ctx stope : Nat) (value : BitVec 64) (s : State) : Host.Outcome State Fault Refusal :=
  if s.running ctx || !s.linkUp then .next s
  else .next ((List.range 64).foldl (fun (s : State) i => s.dieBit ctx (stope % 2) value.toNat i) s)

/-! ## The aperture (R79) -/

/-- The context that a VF's aperture shows: the lowest of its first eight whose EN is 1 (R78). -/
def State.vfContext (s : State) (fn : Nat) : Option Nat :=
  (((List.range 64).filter fun c => s.ctxFunc c == fn && c != 0).take 8).find? fun c => bitAt (s.reg (hifCtx c 0x78)) 0

/-- Where an access through the aperture lands, or nowhere, with the context and address of a failed VF translation. -/
def State.aperture (s : State) (fn off : Nat) (need : Need) : Except (Option (Nat × DWord)) (PAddr × Option Nat) :=
  if off % 4 ≠ 0 ∨ s.linkUp = false then .error none
  else if fn = 0 then
    let a := bits (s.reg 0x10) 44 32 * 2 ^ 32 + off
    if 2 ^ 32 ≤ off then .error none
    else if bitAt (s.reg 0x10) 0 then
      if s.podOn && decide (a < 2 ^ (39 + s.podLog)) && s.reachable (podHomePkg s.podLog a) && !s.lost ⟨.pod, a⟩ then .ok (⟨.pod, a⟩, none)
      else .error none
    else if decide (a < 2 ^ 39) && !s.lost ⟨.pkg, a⟩ then .ok (⟨.pkg, a⟩, none) else .error none
  else if 2 ^ 28 ≤ off then .error none
  else match s.vfContext fn with
    | none => .error none
    | some c =>
      let va : DWord := BitVec.ofNat 64 (bits (s.reg (hifCtx c 0x78)) 51 28 * 2 ^ 28 + off)
      match translate s c va need with
      | .error _ => .error (some (c, va))
      | .ok x =>
        if x.cls = 2 ∨ s.lost x.at_ = true ∨ (x.at_.space = .pod ∧ s.homePkg x.at_ ≠ s.self ∧ s.reachable (s.homePkg x.at_) = false) then
          .error none
        else .ok (x.at_, some c)

/-- An access of a function has to wait: its access before is on its way, so that its accesses are performed in their order (R79), or a
table that translates it is on a pseudo-channel under test (R34). -/
def State.apertureWaits (s : State) (fn : Nat) : Bool :=
  (s.fabric.pending.any fun p => p.owner == .shaft (.apRead fn) || p.owner == .shaft (.apWrite fn)) ||
    (fn != 0 && (match s.vfContext fn with | some c => s.tablesWait c | none => false))

/-- The context to which a request belongs that has none: an access through the PF's aperture. -/
def noCtx : Nat := 64

/-- A failed VF translation writes a notice. -/
def State.apertureMiss (s : State) : Option (Nat × DWord) → State
  | some (c, va) => s.notice c 5 va
  | none => s

/-- A store of the shaft die (R79, R471). An access that has to wait takes place in a later turn. DEDUCED (log entry 8). -/
def execApertureWrite (fn offset : Nat) (value : BitVec 32) (s : State) : Host.Outcome State Fault Refusal :=
  if s.apertureWaits fn then .next s
  else match s.aperture fn offset .store with
    | .error e => .next (s.apertureMiss e)
    | .ok (p, by_) => .next (s.shaftAsk (by_.getD noCtx) (.apWrite fn) p (.store 4) (value.setWidth 64))

/-- A load of the shaft die (R79, R471). -/
def execApertureRead (fn offset : Nat) (s : State) : Host.Outcome State Fault Refusal :=
  if s.apertureWaits fn then .next s
  else match s.aperture fn offset .load with
    | .error e => let s := s.apertureMiss e; .next { s with readback := some (-1) :: s.readback }
    | .ok (p, by_) => .next (s.shaftAsk (by_.getD noCtx) (.apRead fn) p (.load 4) 0)

end Sys2Proof.Machine
end

