-- ==== Sys2Proof/Machine/Debug.lean ====
section
/-! DEFINITION. Debug, sampling and stepping as the host drives them (R288, R294 to R296, R300, R301). -/

namespace Sys2Proof.Machine

/-! ## Record rings (R296) -/

/-- A HEAD of a record ring, under the rule of R100. -/
def State.ringHead (s : State) (r : Ring) (v : Nat) : State :=
  if headOk (s.reg r.head) (s.reg r.tail) v then s.setReg r.head v else s

def execLampHeadWrite (ctx : Nat) (value : BitVec 32) (s : State) : Host.Outcome State Fault Refusal :=
  .next (s.linked (s.ringHead (lampRing ctx) value.toNat))

def execFlueHeadWrite (ctx : Nat) (value : BitVec 32) (s : State) : Host.Outcome State Fault Refusal :=
  .next (s.linked (s.ringHead (flueRing ctx) value.toNat))

/-! ## Stepping (R300, R301) -/

/-- A hold ends: HELD of the core clears, and the threads of its held teams depart from the barrier; a held team that is saved is held
no more when it is loaded. DEDUCED (log entry 49). -/
def State.releaseStep (s : State) (core : Nat) : State :=
  let v := s.reg (stepReg core)
  if !bitAt v 62 then s
  else
    let held := (s.teamsOn core).filter s.teamHeld
    let free (t : Team) : Team :=
      if t.core != core || t.stepState != some true then t else { t with stepState := if t.saved then some false else none }
    let s : State := { s.setReg (stepReg core) (setBits v 62 62 0) with teams := s.teams.map free }
    held.foldl (fun (s : State) t => s.departTbar t.tuid) s

def execStepGo (core : Nat) (s : State) : Host.Outcome State Fault Refusal :=
  .next (s.linked (if s.debugOn then s.releaseStep core else s))

/-- A write of 0 to ARM releases a hold as GO does; a saved team that the register names is stepped no more. -/
def execStepArmClear (core : Nat) (s : State) : Host.Outcome State Fault Refusal :=
  let t := s.releaseStep core
  let off (u : Team) : Team := if u.saved && u.core == core then { u with stepState := none } else u
  .next (s.linked ({ t with teams := t.teams.map off }.setReg (stepReg core) (setBits (t.reg (stepReg core)) 63 63 0)))

/-! ## Enablement (R288) -/

/-- EN and the register values that it gates, as measurement 5 hashes them: the sump limits, the breakpoints and the
stepping registers, in the order of their offsets. DEDUCED (log entry 49). -/
def debugBytes (s : State) : List Byte :=
  bytesOfNat (s.reg (dbg 0)) 4 ++ bytesOfNat (s.reg (dbg 8)) 4 ++
  ((List.range 64).flatMap fun q => bytesOfNat (s.reg (dbg (0x100 + 8 * q))) 4) ++
  ((List.range 2048).flatMap fun k => bytesOfNat (s.reg (dbg (0x2000 + 8 * k))) 8) ++
  ((List.range 256).flatMap fun n => bytesOfNat (s.reg (stepReg n)) 8)

/-- Each change of EN takes measurement 5; when EN goes to 0, no team is held any more. DEDUCED (log entry 49). -/
def execDebugEnable (value : BitVec 32) (s : State) : Host.Outcome State Fault Refusal :=
  let en := value.toNat % 2
  if s.reg (dbg 0) = en ∨ s.linkUp = false then .next s
  else
    let s := if en = 0 then (dedup (s.teams.map (·.core))).foldl State.releaseStep s else s
    let s := s.setReg (dbg 0) en
    .next { s with measured5 := Config.shake256 (debugBytes s) }

/-! ## The flue's samples (R294, R295) -/

/-- DBG_FLUECTL's current period, in cycles. -/
def State.samplePeriod (s : State) (ctx : Nat) : Nat := 2 ^ bits (s.reg (dbgCtx ctx 0x20)) 20 16

/-- A context's cores are sampled. -/
def State.sampling (s : State) (ctx : Nat) : Bool := s.ctxOn ctx && bitAt (s.reg (dbgCtx ctx 0x20)) 31 && s.running ctx

/-- A sample of the context is due. -/
def State.sampleDue (s : State) (ctx : Nat) : Bool :=
  s.sampling ctx &&
  decide (Tab.get 0 ctx s.sampleAt + s.samplePeriod ctx ≤ s.clock)

/-- The thread that a core's KIND 0 record names: the lowest live slot of the group that issued last on the vector pipe in
the period, or of the core. -/
def State.sampled (s : State) (ctx core : Nat) : Option Thread :=
  let low (l : List Thread) : Option Thread := minBy (fun a b => decide (a.slot ≤ b.slot)) l
  let mine := s.threads.filter fun t => t.core == core && (match s.team? t.team with
    | some m => m.ctx == ctx && !m.saved
    | none => false)
  let last := mine.filter fun t => (s.core core).lastVector.contains t.uid
  if last.isEmpty then low mine
  else minBy (fun a b => decide (a.uid < b.uid) || (a.uid == b.uid && decide (a.slot ≤ b.slot))) last

/-- The commands of the context that engines of a core work on: the engine's number, CMDSEQ and PC. -/
def State.working (s : State) (ctx core : Nat) : List (Nat × Word × DWord) :=
  let x := s.quad (quadOfCore core)
  let copy := ((s.core core).copyq.find? fun c => c.ctx == ctx && c.began && c.halted.isNone).map fun c => (0, c.seq, c.pc)
  let forge := (x.pass.bind fun p => x.entries.find? fun e => e.id == p.1 && e.core == core && e.ctx == ctx).map fun e =>
    (1, e.seq, e.pc)
  let seam := (x.seams.find? fun e => e.core == core && e.ctx == ctx && e.began && e.halted.isNone).map fun e => (2, e.seq, e.pc)
  let lode := (s.lodes.find? fun l => l.core == core && l.ctx == ctx && l.halted.isNone).map fun l => (3, l.seq, l.pc)
  copy.toList ++ forge.toList ++ seam.toList ++ lode.toList

/-- One core's sample. DEDUCED (log entry 30). -/
def State.sampleCore (s : State) (ctx core : Nat) : State :=
  let pkg := s.pkgOf ctx
  let s' := match s.sampled ctx core with
    | some t => s.logTo ctx (flueRing ctx) (flueBytes s.ns 0 pkg core (s.waitCode t) t.slot (s.pcOf t).toNat 0)
    | none => s
  let s' := (s.working ctx core).foldl (fun (s : State) (w : Nat × Word × DWord) =>
    s.logTo ctx (flueRing ctx) (flueBytes s.ns 1 pkg core w.1 w.2.1.toNat w.2.2.toNat 0)) s'
  s'.setCore core { s'.core core with lastVector := [] }

/-- The flue's period after a tick that judges an occupancy. DEDUCED (log entry 30). -/
def nextPeriod (cur per fill size : Nat) : Nat :=
  if 3 * size < 4 * fill then min (cur + 1) 24 else if 4 * fill < size ∧ per < cur then cur - 1 else cur

/-- One tick: the records of every core of the context, then the judgement of the occupancy, and the records that follow it. -/
def execFlueSample (ctx : Nat) (s : State) : Host.Outcome State Fault Refusal :=
  if !s.sampleDue ctx then .next s
  else
    let pkg := s.pkgOf ctx
    let r := flueRing ctx
    let cores := (List.range 256).filter fun n => s.ctxOnCore n == some ctx
    let s := cores.foldl (fun (s : State) n => s.sampleCore ctx n) { s with sampleAt := Tab.set ctx s.clock s.sampleAt }
    let ctl := s.reg r.ctl
    let cur := bits ctl 20 16
    let new := nextPeriod cur (bits ctl 12 8) (s.ringFill r) (s.ringSize r)
    let s := if new = cur then s
      else (s.setReg r.ctl (setBits ctl 20 16 new)).logTo ctx r (flueBytes s.ns 3 pkg (cores.headD 0) 0 0 0 new)
    let lost := s.reg r.lost
    if Tab.get 0 ctx s.lostNoted < lost ∧ s.ringFill r + 2 ≤ s.ringSize r then
      let s : State := { s with lostNoted := Tab.set ctx lost s.lostNoted }
      .next (s.logTo ctx r (flueBytes s.ns 4 pkg (cores.headD 0) 0 0 0 lost))
    else .next s

end Sys2Proof.Machine
end

