-- ==== Sys2Proof/Machine/Package.lean ====
section
/-! DEFINITION. The package: the host link and power (R17, R24, R25), errors, self-tests and fences (R29 to R36, R286),
firmware and attestation (R38 to R41), and the ports of the shaft fabric (R46, R65, R67, R71). -/

namespace Sys2Proof.Machine

/-! ## The host link, power and temperature (R16, R17, R24, R25) -/

/-- A bit of the stored part of MGT_HEALTH (R26). -/
def State.setHealth (s : State) (i v : Nat) : State := s.setReg (mgt 0) (setBits (s.reg (mgt 0)) i i v)

/-- The link has trained; narrower than ×4, slower than 16 GT/s or outside FLIT mode, it is limited.
DESIGN CHOICE (log entry 5). -/
def execLinkTrain (width rate : Nat) (flit : Bool) (s : State) : Host.Outcome State Fault Refusal :=
  let up := decide (4 ≤ width) && decide (16 ≤ rate) && flit
  .next ({ s with linkUp := up }.setHealth 7 (if up then 0 else 1))

/-- The package keeps no translation of the host beyond the transfer that asked for it, so an invalidation finds nothing.
DEDUCED (log entry 61). -/
def execAtsInvalidation (_pasid : Nat) (s : State) : Host.Outcome State Fault Refusal := .next s

/-- The core clock a step of 100 MHz lower, down to 1.2 GHz. DESIGN CHOICE (log entry 50). -/
def State.slower (s : State) : State := { s with mhz100 := max 12 (s.mhz100 - 1) }

/-- A step higher, up to 2.1 GHz. DESIGN CHOICE (log entry 50). -/
def State.faster (s : State) : State := { s with mhz100 := min 21 (s.mhz100 + 1) }

/-- At the trip temperature every context stops, and the package is Failed until a reset (R25). -/
def State.trip (s : State) : State := ((List.range 64).filter s.ctxOn).foldl State.stopContext { s with tripped := true }

/-- The hottest die sensor reads a temperature: at 95 °C the clock steps down; below, it steps up again, unless power capping
holds it; at 110 °C the package trips (R23 to R25). DESIGN CHOICE (log entry 50). -/
def execThermalThrottle (celsius : Nat) (s : State) : Host.Outcome State Fault Refusal :=
  let s : State := { s with celsius := celsius }
  if 110 ≤ celsius then .next (s.slower.setHealth 6 1).trip
  else if 95 ≤ celsius then .next (s.slower.setHealth 6 1)
  else if bitAt (s.reg (mgt 0)) 5 then .next (s.setHealth 6 0)
  else .next (s.faster.setHealth 6 (if s.mhz100 + 1 < 21 then bits (s.reg (mgt 0)) 6 6 else 0))

/-- Above the cap the clock steps down; at least 5 % below it, it steps up again, unless thermal throttling holds it.
DESIGN CHOICE (log entry 50). -/
def execPowerCapStep (watts : Nat) (s : State) : Host.Outcome State Fault Refusal :=
  let cap := bits (s.reg (mgt 8)) 15 0
  if cap < watts then .next (s.slower.setHealth 5 1)
  else if cap * 95 < watts * 100 then .next s
  else if bitAt (s.reg (mgt 0)) 6 then .next (s.setHealth 5 0)
  else .next (s.faster.setHealth 5 (if s.mhz100 + 1 < 21 then bits (s.reg (mgt 0)) 5 5 else 0))

/-- The hottest die sensor is at the trip temperature of 110 °C or above (R23, R25). -/
def execThermalTrip (s : State) : Host.Outcome State Fault Refusal := .next (State.trip { s with celsius := max 110 s.celsius })

/-! ## Held flits (R46, R76) -/

/-- A counter of SHF_REPLAY_k rises, to its largest value at most. DEDUCED (log entry 34). -/
def State.countPort (s : State) (port hi lo n : Nat) : State :=
  let off := shf (0x400 + 8 * port)
  let v := s.reg off
  s.setReg off (setBits v hi lo (min (2 ^ (hi + 1 - lo) - 1) (bits v hi lo + n)))

/-- Flits are re-sent from the replay buffer: of one whose data there is uncorrectable, what it carries arrives so (R32, R65). -/
def State.resendBad (s : State) (fs : List Flit) : State :=
  let bad := (fs.filter (·.bad)).map (·.id)
  if bad.isEmpty then s
  else { s with fabric := { s.fabric with
      remote := s.fabric.remote.map fun r => if bad.contains r.2.flit then (r.1, { r.2 with bad := true }) else r
      bulk := s.fabric.bulk.map fun b => if bad.contains b.flit then { b with bad := true } else b } }

/-- The flits held for a port that is out of service are re-sent, in their order, on the way that each now has, as far as its buffer
has room, and count as re-sent from that port's buffer; with no way a flit stays (R46, R47). A flit that goes another way begins to
count its re-sends anew. DESIGN CHOICE (log entries 65, 82). -/
def State.rerouteFrom (s : State) (m : Nat) : State :=
  if s.fibreUp s.self m then s
  else
    let step (a : Tab (List Flit) × Nat) (f : Flit) : Tab (List Flit) × Nat :=
      match s.routeTo f.pkg with
      | some k =>
        let to_ := Tab.get [] k a.1
        if to_.length < 4096 && !((Tab.get [] m a.1).any fun x => x.pkg == f.pkg) then
          (Tab.set k (to_ ++ [{ f with resent := 0 }]) a.1, a.2 + 1)
        else (Tab.set m (Tab.get [] m a.1 ++ [f]) a.1, a.2)
      | none => (Tab.set m (Tab.get [] m a.1 ++ [f]) a.1, a.2)
    let fs := Tab.get [] m s.fabric.bufHeld
    let r := fs.foldl step (Tab.set m [] s.fabric.bufHeld, 0)
    if r.2 = 0 then s
    else (State.countPort { s with fabric := { s.fabric with bufHeld := r.1 } } m 39 16 r.2).resendBad fs

/-- After a port has entered or left service, held flits take their ways. -/
def State.reroute (s : State) : State := (s.fabric.bufHeld.map (·.1)).foldl State.rerouteFrom s

/-- A port of another member enters or leaves service (R46). DESIGN CHOICE (log entry 60). -/
def State.setFarPort (s : State) (pkg port : Nat) (up : Bool) : State :=
  let rest := s.fabric.farPorts.filter fun x => x != (pkg, port)
  State.reroute { s with fabric := { s.fabric with farPorts := if up then rest else (pkg, port) :: rest } }

/-! ## Errors and self-tests (R29 to R34, R286) -/

/-- A unit that exists (R14). -/
def unitExists (u : UnitId) : Bool :=
  match u.kind with
  | .core => decide (u.index < 256)
  | .quad | .slice | .port => decide (u.index < 64)
  | .pch => decide (u.index < 512)
  | .shaft => decide (u.index = 0)

def unitCode (u : UnitId) : Nat :=
  match u.kind with
  | .core => 0 | .quad => 1 | .slice => 2 | .port => 3 | .pch => 4 | .shaft => 5

/-- MGT_LASTERR takes the outcome of an error of a unit (R30). -/
def State.noteError (s : State) (u : UnitId) (uncorrected : Bool) (outcome : Nat) : State :=
  s.setReg (mgt 0x100) (s.us % 2 ^ 32 * 2 ^ 32 + outcome * 2 ^ 18 + (if uncorrected then 2 ^ 17 else 0) + unitCode u * 2 ^ 14 + u.index)

/-- MGT_LASTERR's outcome, when the error it holds is of the unit and its test runs. The outcome of a retest goes there in any
case (R29); that of another test whose error a later one has displaced goes nowhere (R30). After a retest that followed no error the
register holds the time of the test's end, and UNCORR 0. DESIGN CHOICE (log entry 98). -/
def State.noteOutcome (s : State) (u : UnitId) (retest : Bool) (outcome : Nat) : State :=
  let v := s.reg (mgt 0x100)
  if bits v 16 14 = unitCode u ∧ bits v 13 0 = u.index ∧ bits v 19 18 = 0 ∧ (retest = false ∨ v ≠ 0) then s.setReg (mgt 0x100) (setBits v 19 18 outcome)
  else if retest then s.noteError u false outcome
  else s

/-- The other slice of a pair is under test, so that this one waits (R33). -/
def State.buddyTested (s : State) (u : UnitId) : Bool :=
  u.kind == .slice && s.tests.any fun t => t.unit == ⟨.slice, u.index ^^^ 1⟩

/-- A targeted self-test begins, and is counted; a home slice writes back its dirty lines and holds none from then on (R34).
DEDUCED (log entry 52). -/
def State.beginTest (s : State) (u : UnitId) (retest : Bool) : State :=
  let v := s.reg (mgt 0)
  let t : SelfTest := { unit := u, retest, since := s.time }
  let s : State := if u.kind = .slice then { s with slices := Tab.del u.index s.slices } else s
  State.setReg { s with tests := s.tests ++ [t] } (mgt 0) (setBits v 19 12 (min 255 (bits v 19 12 + 1)))

/-- A test of a unit in service begins, or waits for the buddy's; the teams of a core or quad are saved meanwhile (R34). -/
def State.testUnit (s : State) (u : UnitId) : State :=
  if s.buddyTested u then { s with held := s.held ++ [u] } else (s.beginTest u false).saveForTest u

/-- Retests run one after another, of units that are still fenced (R29), and of no unit that a test of its own holds. -/
def State.nextRetest (s : State) : State :=
  match s.retestWait.filter s.fenced with
  | u :: rest =>
    if s.tests.any (fun t => t.retest || t.unit == u) || s.held.contains u || s.buddyTested u then s else State.beginTest { s with retestWait := rest } u true
  | [] => { s with retestWait := [] }

/-- Tests that waited for a buddy begin once its test has ended. -/
def State.nextTests (s : State) : State :=
  let go := s.held.filter fun u => !s.buddyTested u
  let s : State := { s with held := s.held.filter fun u => s.buddyTested u }
  (go.foldl (fun (s : State) u => s.testUnit u) s).nextRetest

/-- Sets or clears the fence bit of a unit. -/
def State.setFence (s : State) (u : UnitId) (v : Nat) : State :=
  match fenceBit u with
  | some (off, i) => s.setReg off (setBits (s.reg off) i i v)
  | none => s

/-- A 64 KiB package page that holds a line of a pseudo-channel. DEDUCED (log entry 53). -/
def pageOnChannel (ch page : Nat) : Bool := (List.range 256).any fun i => channelOf ⟨.pkg, 65536 * page + 256 * i⟩ == ch

/-- The bits of the pages of a fenced pseudo-channel are set in the bitmap at MGT_RETMAP (R286).
DEDUCED (log entry 53). -/
def State.retirePages (s : State) (ch : Nat) : State :=
  let base := s.reg (mgt 0x108)
  if base = 0 then s
  else (List.range (2 ^ 20)).foldl (fun (s : State) k =>
    let new := boolsNat ((List.range 8).map fun j => pageOnChannel ch (8 * k + j))
    if new = 0 then s else s.putNat ⟨.host, base + k⟩ 1 (s.natAt ⟨.host, base + k⟩ 1 ||| new)) s

/-- The contents of a fenced pseudo-channel are lost (R34): once it serves again, what its bytes hold is open.
DESIGN CHOICE (log entry 80). -/
def State.loseChannel (s : State) (ch : Nat) : State :=
  let open_ (sp : Space) (m : Mem) : Mem := m.foldl (fun (a : Mem) (c : Host.Cell) =>
    if channelOf ⟨sp, c.1⟩ == ch && s.homePkg ⟨sp, c.1⟩ == s.self then Mem.set c.1 (Config.freeByte (s.free * 2 ^ 64 + c.1)) a else a) m
  { s with pkgMem := open_ .pkg s.pkgMem, podMem := open_ .pod s.podMem }

/-- A unit is fenced: its bit and REPLACE are set, its teams are to be placed elsewhere, traffic takes the ways that are left, and
context 0 is told (R34, R46, R286), of the pages of a channel also where BASE is 0 and no table holds their bits. The shaft die has no
fence bit: a failed self-test of it is what the boot ROM takes as its fault (R36). DESIGN CHOICE (log entries 90, 100). -/
def State.fence (s : State) (u : UnitId) : State :=
  let s := if u.kind = .shaft then { s with shaftFault := true } else (s.setFence u 1).setHealth 4 1
  let s := if u.kind = .quad then (coresOf u).foldl (fun (s : State) n => s.setFence ⟨.core, n⟩ 1) s else s
  let s := s.displace (coresOf u)
  let s := if u.kind = .port then s.reroute else if u.kind = .pch then s.loseChannel u.index else s
  let s := s.notice 0 Cls.unitFenced.code (BitVec.ofNat 64 (s.reg (mgt 0x100)))
  if u.kind = .pch then (s.retirePages u.index).notice 0 Cls.pagesRetired.code 0 else s

/-- A home slice serves its lines again: its buddy releases them (R34, R35). -/
def State.takeBack (s : State) (u : UnitId) : State :=
  if u.kind ≠ .slice ∨ s.servingSlice u.index ≠ u.index then s
  else
    let rest := (Tab.get [] (u.index ^^^ 1) s.slices).filter fun l => homeSlice l.at_ != u.index
    { s with slices := Tab.set (u.index ^^^ 1) rest s.slices }

/-- A test of a unit ends. A retest that passes clears the unit's bit; a test that fails fences it.
DEDUCED (log entry 52). -/
def State.endTest (s : State) (u : UnitId) (pass : Bool) : State :=
  match s.tests.find? fun t => t.unit == u with
  | none => s
  | some t =>
    let s : State := { s with tests := s.tests.filter fun x => x.unit != u }
    let s := s.noteOutcome u t.retest (if pass then 1 else 2)
    let s := if t.retest then (if pass then (s.setFence u 0).reroute else s) else if pass then s.spareSaves u else s.fence u
    (s.takeBack u).nextTests

/-- What an error leaves of the data at its place: an uncorrected one poisons the ECC unit there, or spoils the sump entry or the held
flit of that name; a corrected one is counted (R31, R32, R70). -/
def State.spoil (s : State) (u : UnitId) (uncorrected : Bool) (loc : Option PAddr) : State :=
  if !uncorrected then { s with corrected := s.corrected + 1 }
  else match loc with
    | none => s
    | some p =>
      if p.space = .sump then
        { s with fabric := { s.fabric with sumps := s.fabric.sumps.map fun x => if x.id == p.addr then { x with bad := true } else x } }
      else if p.space = .replay then
        { s with fabric := { s.fabric with bufHeld := s.fabric.bufHeld.map fun e =>
            (e.1, e.2.map fun f => if f.id == p.addr / 256 then { f with bad := true } else f) } }
      else { s with poison := dedup (eccUnit (u.kind == .pch) p ++ s.poison) }

/-- An error: what it spoils, MGT_LASTERR takes it, and the unit is tested. A unit already fenced is not; an error of a unit
during its own test fails that test (R30 to R33). -/
def State.error (s : State) (u : UnitId) (uncorrected : Bool) (loc : Option PAddr) : State :=
  let s := s.spoil u uncorrected loc
  if s.tests.any fun t => t.unit == u then (s.noteError u uncorrected 0).endTest u false
  else if s.fenced u then s.noteError u uncorrected 3
  else if s.held.contains u then s.noteError u uncorrected 0
  else (s.noteError u uncorrected 0).testUnit u

def execError (u : UnitId) (uncorrected : Bool) (loc : Option PAddr) (s : State) : Host.Outcome State Fault Refusal :=
  .next (if unitExists u then s.error u uncorrected loc else s)

/-- The unit that holds the sump entries of a stage (R13, R34). -/
def unitOfStage : StageId → UnitId
  | .collar c => ⟨.core, c⟩
  | .landing q => ⟨.quad, q⟩
  | .upcast _ | .downcast _ => ⟨.shaft, 0⟩

/-- DEDUCED (log entry 52). -/
def execSelfTestEnd (u : UnitId) (pass : Bool) (s : State) : Host.Outcome State Fault Refusal := .next (s.endTest u pass)

/-- The unit that KIND and INDEX name (R30). -/
def unitOf (kind index : Nat) : Option UnitId :=
  match kind with
  | 0 => some ⟨.core, index⟩
  | 1 => some ⟨.quad, index⟩
  | 2 => some ⟨.slice, index⟩
  | 3 => some ⟨.port, index⟩
  | 4 => some ⟨.pch, index⟩
  | _ => none

/-- A retest of a fenced unit is asked for; one already asked for waits its turn. The boot ROM ignores the write (R39). -/
def execRetest (kind index : Nat) (s : State) : Host.Outcome State Fault Refusal :=
  match unitOf kind index with
  | none => .next s
  | some u =>
    if !s.booted || !unitExists u || !s.fenced u then .next s
    else .next (State.nextRetest { s with retestWait := s.retestWait ++ [u] })

/-! ## Firmware (R39, R40) DESIGN CHOICE (log entry 7). -/

def State.slotImage (s : State) (k : Nat) : List Byte := Tab.get [] k s.slots

/-- The fused minimum security version. DESIGN CHOICE (log entry 6). -/
def State.minVersion (s : State) : Nat := bits (s.reg (mgt 0x190)) 25 20

/-- The checks of R39 on an image: 0 hash or signature failed, 1 version below the fused minimum.
DESIGN CHOICE (log entry 7). -/
def imageCheck (minver : Nat) (img : List Byte) : Option Nat :=
  if !Config.imageSignatureGood img then some 0 else if Config.imageVersion img < minver then some 1 else none

/-- The boot ROM runs the first slot whose image passes, or stays in the boot ROM.
DESIGN CHOICE (log entries 7, 54). -/
def State.boot (s : State) : State :=
  match [0, 1].find? fun k => (imageCheck s.minVersion (s.slotImage k)).isNone with
  | some k => { s with booted := true, runSlot := k }
  | none => { s with booted := false }

/-- A command of MGT_FWCTL begins, unless one is in progress. DESIGN CHOICE (log entry 54). -/
def State.beginFw (s : State) (c : FwCmd) : State :=
  if s.fwCmd.isSome then s
  else { s with fwCmd := some c }.setReg (mgt 0x190) (setBits (s.reg (mgt 0x190)) 3 0 1)

def execFwWriteSlot (slot pages : Nat) (s : State) : Host.Outcome State Fault Refusal :=
  .next (s.beginFw { cmd := 1, slot := slot % 2, pages })

def execFwRaiseMinimum (s : State) : Host.Outcome State Fault Refusal := .next (s.beginFw { cmd := 2, slot := 0, pages := 0 })

def execFwRestart (s : State) : Host.Outcome State Fault Refusal := .next (s.beginFw { cmd := 3, slot := 0, pages := 0 })

/-- What a command does as it ends, or the REASON of its refusal. Whether the host can be read is the host's.
DESIGN CHOICE (log entry 54). -/
def State.fwResult (s : State) (c : FwCmd) : Except Nat State :=
  if c.cmd = 1 then
    if c.pages = 0 ∨ 4096 < c.pages ∨ (s.booted = true ∧ c.slot = s.runSlot) then .error 3
    else if Config.freeBit s.free then .error 2
    else
      let img := s.bytesAt ⟨.host, s.reg (mgt 0x180)⟩ (4096 * c.pages)
      match imageCheck s.minVersion img with
      | some r => .error r
      | none => .ok { s with slots := Tab.set c.slot img s.slots }
  else if c.cmd = 2 then
    let v := Config.imageVersion (s.slotImage s.runSlot)
    if s.booted = false ∨ v ≤ s.minVersion ∨ 63 < v then .error 3
    else .ok (s.setReg (mgt 0x190) (setBits (s.reg (mgt 0x190)) 25 20 v))
  else if (List.range 64).any s.ctxOn && !s.failed then .error 3
  else .ok s.boot

/-- The command in progress ends: done, or refused with a reason. DESIGN CHOICE (log entry 54). -/
def execFwCommandDone (s : State) : Host.Outcome State Fault Refusal :=
  match s.fwCmd with
  | none => .next s
  | some c =>
    let r := s.fwResult c
    let s' := match r with | .ok s' => s' | .error _ => s
    let code := match r with | .ok _ => 2 | .error e => 4 * e + 3
    .next (State.setReg { s' with fwCmd := none } (mgt 0x190) (setBits (s'.reg (mgt 0x190)) 3 0 code))

/-- Registers whose value a reset keeps: fences, REPLACE and the fused minimum (R26, R28, R40). -/
def keptRegs (s : State) : Tab DWord :=
  let fences := s.regs.filter fun e => decide (mgt 0x40 ≤ e.1) && decide (e.1 < mgt 0xC0)
  let one (off v : Nat) : Tab DWord := if v = 0 then [] else [(off, BitVec.ofNat 64 v)]
  one (mgt 0) (bits (s.reg (mgt 0)) 4 4 * 2 ^ 4 + (if s.linkUp then 0 else 2 ^ 7)) ++ fences ++ one (mgt 0x190) (setBits 0 25 20 s.minVersion)

/-- POWER-ON RESET (R39): the state of reset, but for what the flash, the fuses, the host and the rest of the pod keep; then
the boot ROM's checks. A package that has tripped stays Failed while it is not below the throttle temperature (R25). A fault of the shaft die does not
survive it. DESIGN CHOICE (log entries 5, 55, 90). -/
def execPowerOnReset (s : State) : Host.Outcome State Fault Refusal :=
  let pod := if s.podOn then s.podMem.filter (fun c => podHomePkg s.podLog c.1 != s.self) else []
  .next (State.boot { State.reset with
    celsius := s.celsius, hostMaps := s.hostMaps, fabric := { farPorts := s.fabric.farPorts },
    tripped := s.tripped && decide (95 ≤ s.celsius), free := s.free, nextId := s.nextId, agenda := s.agenda, regs := keptRegs s, hostMem := s.hostMem, podMem := pod, irqs := s.irqs,
    readback := s.readback, spdm := s.spdm, linkUp := s.linkUp, slots := s.slots })

/-! ## Attestation (R38, R41) -/

/-- An answer; the boot ROM answers every request with an error (R39). -/
def State.answer (s : State) (a : Spdm) : State := { s with spdm := (if s.booted then a else .errorUnspecified) :: s.spdm }

def execGetVersion (s : State) : Host.Outcome State Fault Refusal := .next (s.answer .version)

def execGetCapabilities (s : State) : Host.Outcome State Fault Refusal := .next (s.answer .capabilities)

/-- Only Falcon-1024 and SHAKE256 are offered; a requester that selects neither is told so.
DESIGN CHOICE (log entry 56). -/
def execNegotiateAlgorithms (falcon shake : Bool) (s : State) : Host.Outcome State Fault Refusal :=
  if !s.booted then .next (s.answer .errorUnspecified)
  else if falcon || shake then .next (State.answer { s with algorithms := true } .algorithms)
  else .next (s.answer .errorUnsupported)

def execGetDigests (s : State) : Host.Outcome State Fault Refusal :=
  .next (s.answer (.digests (Config.shake256 Config.certificateChain)))

def execGetCertificate (s : State) : Host.Outcome State Fault Refusal := .next (s.answer (.certificate Config.certificateChain))

/-- A signature by the device identity key; the bytes it covers hold the requester's nonce, and are free.
DESIGN CHOICE (log entry 56). -/
def execChallenge (s : State) : Host.Outcome State Fault Refusal :=
  .next (s.answer (.challenge (Config.deviceSign (bytesOfNat s.free 8))))

/-- The sixteen words from offset 0x40 of the management page, which hold the fence registers, and then one byte with REPLACE: the spec
gives measurement 6 no layout. DESIGN CHOICE (log entry 23). -/
def fenceBytes (s : State) : List Byte :=
  ((List.range 16).flatMap fun k => bytesOfNat (s.reg (mgt (0x40 + 8 * k))) 8) ++ bytesOfNat (bits (s.reg (mgt 0)) 4 4) 1

/-- Measurements 1 to 6, in order. Measurement 2 covers the image and then one byte with its version: the spec gives it no layout.
DESIGN CHOICE (log entry 23). -/
def State.measurements (s : State) : List (List Byte) :=
  let img := s.slotImage s.runSlot
  [ Config.shake256 Config.bootRom, Config.shake256 (img ++ bytesOfNat (Config.imageVersion img) 1),
    Config.shake256 Config.onsetterMicrocode, Config.shake256 (Config.fusedConfiguration s.minVersion),
    if s.measured5.isEmpty then Config.shake256 (debugBytes { s with regs := [] }) else s.measured5,
    Config.shake256 (fenceBytes s) ]

def execGetMeasurements (s : State) : Host.Outcome State Fault Refusal := .next (s.answer (.measurements s.measurements))

/-! ## The pod map and the ports (R43, R46, R65, R67, R71, R76) -/

/-- SHF_PODMAP: ignored while a pod context exists; ENABLE starts the exchange of every port but the bypass. A write that changes
the register clears SHF_MISWIRE, with ENABLE 0 too: the spec does not say when its bits clear. DESIGN CHOICE (log entry 81). -/
def execPodmapWrite (value : BitVec 32) (s : State) : Host.Outcome State Fault Refusal :=
  if !s.linkUp || ((List.range 64).any fun c => s.ctxOn c && s.ctxPod c) then .next s
  else
    let v := value.toNat
    let lg := min 6 (bits v 8 6)
    let on := bitAt v 15 && decide (bits v 5 0 < 2 ^ lg)
    let new := bits v 31 16 * 2 ^ 16 + (if on then 2 ^ 15 else 0) + lg * 2 ^ 6 + bits v 5 0
    if new = s.reg (shf 0) then .next s
    else
      let down := if on then 2 ^ (2 ^ lg) - 1 - 2 ^ bits v 5 0 else 0
      let fab : Fabric := { s.fabric with downPorts := down }
      .next ((State.setReg { s with fabric := fab } (shf 0) new).setReg (shf 0x18) 0)

/-- A port has learnt its peer's POD_ID and number: it enters service, or is marked as miswired.
DEDUCED (log entry 51). -/
def execPortExchange (port podId number : Nat) (s : State) : Host.Outcome State Fault Refusal :=
  if !s.podOn || decide (2 ^ s.podLog ≤ port) || port == s.self then .next s
  else
    let good := podId == bits (s.reg (shf 0)) 31 16 && number == port
    let fab : Fabric := { s.fabric with downPorts := setBits s.fabric.downPorts port port (if good then 0 else 1) }
    .next (State.setReg { s with fabric := fab } (shf 0x18) (setBits (s.reg (shf 0x18)) port port (if good then 0 else 1))).reroute


/-- A flit arrives. A good one is acknowledged; what it carries is a request or a reply of its own step. -/
def execFlitReceive (port : Nat) (good : Bool) (s : State) : Host.Outcome State Fault Refusal :=
  .next (if good then s else s.countPort port 63 40 1)

/-- The peer's answer to the oldest flit in a port's replay buffer: it is freed, or re-sent with all that follow it. -/
def execFlitAcknowledgement (port : Nat) (accepted : Bool) (s : State) : Host.Outcome State Fault Refusal :=
  match Tab.get [] port s.fabric.bufHeld with
  | [] => .next s
  | f :: rest =>
    if accepted then .next (State.reroute { s with fabric := { s.fabric with bufHeld := Tab.set port rest s.fabric.bufHeld } })
    else
      let again := (f :: rest).map fun x => { x with resent := x.resent + 1 }
      let s : State := { s with fabric := { s.fabric with bufHeld := Tab.set port again s.fabric.bufHeld } }
      .next ((s.countPort port 39 16 again.length).resendBad again)

/-- A port retrains once a flit of it has been re-sent eight times without acknowledgement; at the third retrain within a second it is
tested. The spec does not say whether retrains before the test count towards another third: the model begins to count anew. The held
flits' counts of re-sends start anew at each retrain. DESIGN CHOICE (log entry 82). -/
def execPortRetrain (port : Nat) (s : State) : Host.Outcome State Fault Refusal :=
  let held := Tab.get [] port s.fabric.bufHeld
  if held.all fun f => decide (f.resent < 8) then .next s
  else
    let u : UnitId := ⟨.port, port⟩
    let recent := (Tab.get [] port s.fabric.retrains).filter fun t => decide (s.time < t + 10 ^ 9 * Config.unitsPerNs)
    let third := decide (2 ≤ recent.length) && !s.fenced u && !s.underTest u
    let fab : Fabric := { s.fabric with
      bufHeld := Tab.set port (held.map fun f => { f with resent := 0 }) s.fabric.bufHeld
      retrains := Tab.set port (if third then [] else recent ++ [s.time]) s.fabric.retrains }
    let s := State.countPort { s with fabric := fab } port 15 8 1
    .next (if third then (s.noteError u false 0).testUnit u else s)

end Sys2Proof.Machine
end

