-- ==== Sys2Proof/Machine/Register.lean ====
section
/-! DEFINITION. The memory-mapped registers as the host reads and writes them (R5, R6, R77, R78): their widths, what a read
returns, and what a write does. A write whose effect is a step of its own goes to that step's meaning. -/

namespace Sys2Proof.Machine

/-! ## Where registers stand (R77, R78) -/

/-- A register's block, with the numbers of its context, queue or unit. -/
inductive Block
  | global | ctx (c : Nat) | queue (c q : Nat) | shf | ons | onsCtx (c : Nat) | onsCore (n : Nat) | mgt | dbg
  | dbgCtx (c : Nat) | breakpoint (n k : Nat) | step (n : Nat) | doorbell (c q : Nat) | none
  deriving DecidableEq, Repr

/-- The block of an offset of the PF's BAR 0, and the offset in it. -/
def regBlock (off : Nat) : Block × Nat :=
  if off < 0x1000 then (.global, off)
  else if off < 0x10000 then (.none, 0)
  else if off < 0x14000 then (.ctx ((off - 0x10000) / 0x100), off % 0x100)
  else if off < 0x20000 then (.none, 0)
  else if off < 0x30000 then (.queue ((off - 0x20000) / 0x400) ((off - 0x20000) / 0x40 % 16), off % 0x40)
  else if off < 0x40000 then (.none, 0)
  else if off < 0x50000 then (.shf, off - 0x40000)
  else if off < 0x51000 then (.ons, off - 0x50000)
  else if off < 0x51800 then (.onsCtx ((off - 0x51000) / 0x20), off % 0x20)
  else if off < 0x52000 then (.none, 0)
  else if off < 0x52800 then (.onsCore ((off - 0x52000) / 8), off % 8)
  else if off < 0x60000 then (.none, 0)
  else if off < 0x70000 then (.mgt, off - 0x60000)
  else if off < 0x70400 then (.dbg, off - 0x70000)
  else if off < 0x71400 then (.dbgCtx ((off - 0x70400) / 0x40), off % 0x40)
  else if off < 0x72000 then (.none, 0)
  else if off < 0x76000 then (.breakpoint ((off - 0x72000) / 0x40) ((off - 0x72000) / 8 % 8), off % 8)
  else if off < 0x76800 then (.step ((off - 0x76000) / 8), off % 8)
  else if off < 0x400000 then (.none, 0)
  else if off < 0x800000 then (.doorbell ((off - 0x400000) / 0x10000) ((off - 0x400000) / 0x1000 % 16), off % 0x1000)
  else (.none, 0)

/-- The width in bytes of the register at an offset of a block; 0 where there is none. -/
def widthAt (b : Block) (r : Nat) : Nat :=
  match b with
  | .global => if r = 0 ∨ r = 8 then 4 else if r = 0x10 then 8 else 0
  | .ctx _ =>
    if r ∈ [0, 0x20, 0x28, 0x2C, 0x30, 0x34, 0x38, 0x68] then 4
    else if r ∈ [8, 0x10, 0x18, 0x40, 0x48, 0x50, 0x58, 0x60, 0x70, 0x78] then 8 else 0
  | .queue _ _ => if r = 0 ∨ r = 0x20 then 8 else if r ∈ [8, 0x10, 0x14, 0x18] then 4 else 0
  | .shf =>
    if r ∈ [0, 0x20, 0x24, 0x28] then 4 else if r ∈ [8, 0x10, 0x18] then 8
    else if 0x400 ≤ r ∧ r < 0x600 ∧ r % 8 = 0 then 8 else 0
  | .ons => if r = 0 ∨ r = 4 then 4 else 0
  | .onsCtx _ => if r % 4 = 0 ∧ r < 0x18 then 4 else 0
  | .onsCore _ | .breakpoint _ _ | .step _ => if r = 0 then 8 else 0
  | .mgt =>
    if r ∈ [0, 8, 0xC0, 0x188, 0x190] then 4
    else if r ∈ [0x40, 0x48, 0x50, 0x58, 0x60, 0x68, 0x70, 0x100, 0x108, 0x180] then 8
    else if 0x80 ≤ r ∧ r < 0xC0 ∧ r % 8 = 0 then 8 else 0
  | .dbg => if r = 0 ∨ r = 8 then 4 else if 0x100 ≤ r ∧ r < 0x300 ∧ r % 8 = 0 then 4 else 0
  | .dbgCtx _ => if r = 0 ∨ r = 0x18 then 8 else if r ∈ [8, 0xC, 0x10, 0x14, 0x20, 0x24, 0x28, 0x2C] then 4 else 0
  | .doorbell _ _ => if r = 0 then 4 else 0
  | .none => 0

/-- The contexts of a VF, by local slot (R78). -/
def State.vfSlots (s : State) (fn : Nat) : List Nat := ((List.range 64).filter fun c => s.ctxFunc c == fn && c != 0).take 8

/-- The block that a function's access reaches, and the offset in it. -/
def State.access (s : State) (fn off : Nat) : Block × Nat :=
  if fn = 0 then regBlock off
  else
    let slot (i : Nat) (f : Nat → Block × Nat) : Block × Nat := match (s.vfSlots fn)[i]? with
      | some c => f c
      | none => (.none, 0)
    if off < 0x800 then slot (off / 0x100) fun c => (.ctx c, off % 0x100)
    else if 0x10000 ≤ off ∧ off < 0x12000 then
      slot ((off - 0x10000) / 0x400) fun c => (.queue c ((off - 0x10000) / 0x40 % 16), off % 0x40)
    else if 0x100000 ≤ off ∧ off < 0x180000 then
      slot ((off - 0x100000) / 0x10000) fun c => (.doorbell c ((off - 0x100000) / 0x1000 % 16), off % 0x1000)
    else (.none, 0)

/-- Registers that answer: on a limited link those of the management block (R17), and from the boot ROM, of that block, only
MGT_HEALTH, MGT_LASTERR and the firmware registers (R39). DESIGN CHOICE (log entry 55). -/
def State.answers (s : State) (b : Block) (r : Nat) : Bool :=
  (s.linkUp || b == .mgt) && (s.booted || b != .mgt || decide (r = 0) || decide (r = 0x100) || decide (0x180 ≤ r))

/-! ## Writes (R6) -/

/-- A write that keeps the bits outside a mask. -/
def State.keepBits (s : State) (off mask v : Nat) : State :=
  s.setReg off (s.reg off &&& (2 ^ 64 - 1 ^^^ mask) ||| v &&& mask)

/-- A write of ones that clears bits of a mask. -/
def State.clearBits (s : State) (off mask v : Nat) : State := s.setReg off (s.reg off &&& (2 ^ 64 - 1 ^^^ (v &&& mask)))

/-- The mask of bits [hi:lo]. -/
def maskOf (hi lo : Nat) : Nat := 2 ^ (hi + 1) - 2 ^ lo

/-- A field clamped between two values. -/
def clampField (v hi lo least most : Nat) : Nat := setBits v hi lo (min most (max least (bits v hi lo)))

def State.writeCtx (s : State) (c r v : Nat) : Host.Outcome State Fault Refusal :=
  let off := hifCtx c r
  let idle (t : State) : Host.Outcome State Fault Refusal := .next (if s.running c then s else t)
  let free (t : State) : Host.Outcome State Fault Refusal := .next (if s.ctxOn c then s else t)
  if r = 0 then
    if s.ctxOn c then (if bitAt v 31 then .next s else execContextDisable c s)
    else if bitAt v 31 then execContextEnable c (BitVec.ofNat 32 v) s else .next (s.setReg off (s.ctlFields c v))
  else if r = 8 then free (s.keepBits off (maskOf 38 16) v)
  else if r = 0x10 then free (s.keepBits off (maskOf 38 13) v)
  else if r = 0x18 then execFqbaseWrite c (BitVec.ofNat 64 v) s
  else if r = 0x20 then
    let s := s.keepBits off (maskOf 26 16) v
    .next (if s.reg (hifCtx c 0x28) = s.reg (hifCtx c 0x2C) then s.keepBits off (maskOf 4 0) (clampField v 4 0 6 16) else s)
  else if r = 0x2C then execFqHeadWrite c (BitVec.ofNat 32 v) s
  else if r = 0x30 then
    match bits (s.reg (hifCtx c 0x34)) 1 0 with
    | 0 => execRetry c (BitVec.ofNat 32 v) s
    | 1 => execSkip c (BitVec.ofNat 32 v) s
    | _ => execKill c (BitVec.ofNat 32 v) s
  else if r = 0x34 then .next (s.setReg off (min 2 (bits v 1 0)))
  else if r = 0x38 then .next (s.clearBits off (maskOf 4 3) v)
  else if r = 0x40 ∨ r = 0x48 then execDiemapWrite c (if r = 0x40 then 0 else 1) (BitVec.ofNat 64 v) s
  else if r = 0x50 then idle (s.keepBits off (maskOf 51 16 + maskOf 3 0) (clampField v 3 0 0 8))
  else if r = 0x58 then idle (s.keepBits off (maskOf 51 20 + maskOf 3 0) (clampField v 3 0 0 10))
  else if r = 0x60 then (if bitAt v 0 then execTlbinvAll c s else execTlbinvPages c (BitVec.ofNat 64 v) s)
  else if r = 0x70 then idle (s.keepBits off (maskOf 51 23) v)
  else if r = 0x78 then .next (s.keepBits off (maskOf 51 28 + 1) v)
  else .next s

def State.writeQueue (s : State) (c q r v : Nat) : Host.Outcome State Fault Refusal :=
  let off := hifQ c q r
  let on := bitAt (s.reg (hifQ c q 8)) 31
  if r = 0 then .next (s.keepBits off (maskOf 63 12) v)
  else if r = 8 then
    if bitAt v 31 && !on then execQueueEnable c q (BitVec.ofNat 32 v) s
    else .next (s.setReg off ((if bitAt v 31 then 2 ^ 31 else 0) + qctlOf v))
  else if r = 0x18 then (if bitAt v 1 then execQueueErrorClear c q s else .next s)
  else if r = 0x20 then .next (if on then s else s.keepBits off (maskOf 51 16) v)
  else .next s

def State.writeShf (s : State) (r v : Nat) : Host.Outcome State Fault Refusal :=
  if r = 0 then execPodmapWrite (BitVec.ofNat 32 v) s
  else if r = 0x20 then .next (s.setReg (shf r) (clampField (bits v 19 0) 19 0 1 1000000))
  else if r = 0x24 then .next (s.setReg (shf r) (bits v 15 0))
  else if r = 0x28 then .next (s.clearBits (shf r) (maskOf 31 0) v)
  else if 0x400 ≤ r then .next (s.clearBits (shf r) (maskOf 63 8) v)
  else .next s

/-- ONS_CTX_SLICE; an effective slice above it sets SLICE_RAISED (R124). -/
def State.writeSlice (s : State) (c v : Nat) : State :=
  let s := s.setReg (onsCtx c 0) (bits v 19 0)
  if bits v 19 0 ≠ 0 ∧ bits v 19 0 < s.effSlice c then s.setReg (hifCtx c 0x38) (setBits (s.reg (hifCtx c 0x38)) 3 3 1) else s

def State.writeOnsCtx (s : State) (c r v : Nat) : Host.Outcome State Fault Refusal :=
  if r = 0 then .next (s.writeSlice c v)
  else if r = 0xC then .next (s.setReg (onsCtx c r) (max 100 (bits v 19 0)))
  else if r = 0x10 then (if bitAt v 0 then execPreemptReq c s else .next s)
  else .next s

def State.writeMgt (s : State) (r v : Nat) : Host.Outcome State Fault Refusal :=
  if r = 8 then .next (s.setReg (mgt r) (clampField (bits v 15 0) 15 0 1200 2400))
  else if r = 0xC0 then (if bitAt v 31 then execRetest (bits v 16 14) (bits v 13 0) s else .next s)
  else if r = 0x108 ∨ r = 0x180 then .next (s.keepBits (mgt r) (maskOf 63 12) v)
  else if r = 0x188 then
    match bits v 2 0 with
    | 1 => execFwWriteSlot (bits v 3 3) (bits v 31 12) s
    | 2 => execFwRaiseMinimum s
    | 3 => execFwRestart s
    | _ => .next s
  else .next s

/-- A field of a record ring takes effect only while HEAD = TAIL, and sets both to 0 (R296). -/
def State.writeRing (s : State) (r : Ring) (off mask v : Nat) : State :=
  if s.reg r.head = s.reg r.tail then ((s.keepBits off mask v).setReg r.head 0).setReg r.tail 0 else s

/-- DBG_FLUECTL: SAMPLE, LOG2PER with CURLOG2, and LOG2N (R295, R296). The sample ticks count from the write that sets SAMPLE, for all
cores of the context at once, and a change of the period starts no new count. DESIGN CHOICE (log entry 101). -/
def State.writeFlueCtl (s : State) (c v : Nat) : State :=
  let off := dbgCtx c 0x20
  let per := min 24 (max 10 (bits v 12 8))
  let s : State := if bitAt v 31 && !bitAt (s.reg off) 31 then { s with sampleAt := Tab.set c s.clock s.sampleAt } else s
  let s := s.keepBits off (2 ^ 31 + maskOf 20 16 + maskOf 12 8) ((if bitAt v 31 then 2 ^ 31 else 0) + per * 2 ^ 16 + per * 2 ^ 8)
  s.writeRing (flueRing c) off (maskOf 4 0) (clampField v 4 0 0 22)

def State.writeDbgCtx (s : State) (c r v : Nat) : Host.Outcome State Fault Refusal :=
  let off := dbgCtx c r
  if r = 0 then .next (s.writeRing (lampRing c) off (maskOf 51 6) v)
  else if r = 8 then .next (s.writeRing (lampRing c) off (maskOf 4 0) (clampField v 4 0 0 20))
  else if r = 0x10 then execLampHeadWrite c (BitVec.ofNat 32 v) s
  else if r = 0x14 then .next (s.clearBits off (maskOf 31 0) v)
  else if r = 0x18 then .next (s.writeRing (flueRing c) off (maskOf 51 5) v)
  else if r = 0x20 then .next (s.writeFlueCtl c v)
  else if r = 0x28 then execFlueHeadWrite c (BitVec.ofNat 32 v) s
  else if r = 0x2C then
    let s := s.clearBits off (maskOf 31 0) v
    .next { s with lostNoted := Tab.set c (min (Tab.get 0 c s.lostNoted) (s.reg off)) s.lostNoted }
  else .next s

/-- DBG_STEP_n: PLACE while ARM was 0, then GO, then ARM (R300, R301). -/
def State.writeStep (s : State) (n v : Nat) : Host.Outcome State Fault Refusal :=
  let s := if bitAt (s.reg (stepReg n)) 63 then s else s.keepBits (stepReg n) (maskOf 2 0) v
  let s := if bitAt v 8 && s.debugOn then s.releaseStep n else s
  if bitAt v 63 then .next (s.setReg (stepReg n) (setBits (s.reg (stepReg n)) 63 63 1)) else execStepArmClear n s

def State.writeDbg (s : State) (r v : Nat) : Host.Outcome State Fault Refusal :=
  if r = 0 then execDebugEnable (BitVec.ofNat 32 v) s
  else if r = 8 then .next (s.setReg (dbg r) (clampField (clampField (bits v 14 8 * 2 ^ 8 + bits v 6 0) 14 8 0 64) 6 0 0 64))
  else .next (s.setReg (dbg r) (clampField (clampField (bits v 22 16 * 2 ^ 16 + bits v 4 0) 22 16 0 64) 4 0 0 16))

/-- A write to a register of a block. A breakpoint reaches its core at once (R297). DESIGN CHOICE (log entry 101). -/
def State.writeBlock (s : State) (b : Block) (r v : Nat) : Host.Outcome State Fault Refusal :=
  match b with
  | .global =>
    if r = 8 then .next (s.setReg 8 (clampField (bits v 15 0) 15 0 1 1000))
    else if r = 0x10 then .next (s.keepBits 0x10 (maskOf 44 32 + 1) v) else .next s
  | .ctx c => s.writeCtx c r v
  | .queue c q => s.writeQueue c q r v
  | .shf => s.writeShf r v
  | .ons => .next (if r = 0 then s.setReg (ons 0) (max 1 (bits v 19 0)) else s.setReg (ons 4) (max 64 (bits v 15 0)))
  | .onsCtx c => s.writeOnsCtx c r v
  | .mgt => s.writeMgt r v
  | .dbg => s.writeDbg r v
  | .dbgCtx c => s.writeDbgCtx c r v
  | .breakpoint n k => .next (s.setReg (dbg (0x2000 + 0x40 * n + 8 * k)) (v &&& (2 ^ 63 + maskOf 57 52 + maskOf 51 2)))
  | .step n => s.writeStep n v
  | .doorbell c q => execDoorbell c q (BitVec.ofNat 32 v) s
  | .onsCore _ | .none => .next s

/-- Registers of a context's block that a VF reads and cannot write (R78, R189). -/
def vfReadOnly (b : Block) (r : Nat) : Bool :=
  match b with
  | .ctx _ => decide (r ∈ [0, 8, 0x10, 0x40, 0x48])
  | _ => false

/-- REGISTER WRITE: an access of another size or alignment than the register's writes nothing (R5). -/
def execRegisterWrite (fn offset bytes : Nat) (value : BitVec 64) (s : State) : Host.Outcome State Fault Refusal :=
  let a := s.access fn offset
  if widthAt a.1 a.2 = 0 ∨ bytes ≠ widthAt a.1 a.2 ∨ s.answers a.1 a.2 = false ∨ (fn ≠ 0 ∧ vfReadOnly a.1 a.2 = true) then .next s
  else s.writeBlock a.1 a.2 (value.toNat % 2 ^ (8 * bytes))

/-! ## Reads -/

/-- MGT_HEALTH.STATE (R36): 0 Sound, 1 Degraded, 2 Failed. -/
def State.health (s : State) : Nat :=
  if s.failed then 2
  else if (List.range 16).any fun k => s.reg (mgt (0x40 + 8 * k)) != 0 then 1 else 0

/-- The largest free range of a core's team memory, in KiB. -/
def widestFree (ts : List Team) : Nat :=
  ((List.range 385).filter fun k => (openRange ts (1024 * k)).isSome).foldl max 0

/-- ONS_CORE_n: the onsetter's view (R132). -/
def State.coreView (s : State) (n : Nat) : Nat :=
  let ts := s.viewOn n
  (if s.coreFenced n then 2 ^ 63 else 0) + (match ts with | t :: _ => t.ctx | [] => 0) * 2 ^ 50 + ts.length * 2 ^ 46 +
    (ts.map fun t => t.lent.length).sum * 2 ^ 39 + (freeSlots ts).length % 128 * 2 ^ 32 + freeUnits ts * 2 ^ 22 +
    widestFree ts * 2 ^ 9 + (teamMemory - (ts.map (·.tmLen)).sum) / 1024

/-- A set of packages or ports as a map of bits. -/
def mapBits (f : Nat → Bool) : Nat := boolsNat ((List.range 64).map f)

/-- What a read of a register returns: fields of its own, or the stored value; a field that is only written reads as zero. -/
def State.readBlock (s : State) (b : Block) (r : Nat) : Nat :=
  match b with
  | .global => s.reg r
  | .ctx c =>
    if r = 0x30 ∨ r = 0x60 then 0
    else if r = 0x38 then setBits (s.reg (hifCtx c r)) 0 0 (if s.running c then 1 else 0)
    else if r = 0x68 then (if s.invals.any fun i => i.ctx == c then 1 else 0)
    else s.reg (hifCtx c r)
  | .queue c q =>
    if r = 0x18 then setBits (s.reg (hifQ c q r)) 0 0
      (if s.reg (hifQ c q 0x10) = s.reg (hifQ c q 0x14) ∧ (s.pktsOf c q).all s.pktDone then 1 else 0)
    else s.reg (hifQ c q r)
  | .shf =>
    if r = 8 then mapBits s.reachable
    else if r = 0x10 then mapBits fun k => s.podOn && (k == s.self || s.portUp k)
    else s.reg (shf r)
  | .ons => s.reg (ons r)
  | .onsCtx c =>
    if r = 4 then s.effSlice c
    else if r = 0x10 then 0
    else if r = 0x14 then
      let ts := s.teams.filter fun t => t.ctx == c && !t.saved
      (dedup (ts.map (·.core))).length * 2 ^ 16 + ts.length
    else s.reg (onsCtx c r)
  | .onsCore n => s.coreView n
  | .mgt =>
    if r = 0 then setBits (s.reg (mgt 0)) 1 0 s.health
    else if r = 0xC0 ∨ r = 0x188 then 0
    else if r = 0x190 then setBits (s.reg (mgt r)) 19 14 (if s.booted then Config.imageVersion (s.slotImage s.runSlot) else 0)
    else s.reg (mgt r)
  | .dbg => s.reg (dbg r)
  | .dbgCtx c => s.reg (dbgCtx c r)
  | .breakpoint n k => s.reg (dbg (0x2000 + 0x40 * n + 8 * k))
  | .step n => s.reg (stepReg n)
  | .doorbell c q => s.reg (hifQ c q 0x14)
  | .none => 0

/-- A read by a function of `bytes` at an offset of its BAR 0 (R5, R6, R77, R78). -/
def State.readRegister (s : State) (fn offset bytes : Nat) : Nat :=
  let a := s.access fn offset
  if widthAt a.1 a.2 = 0 ∨ bytes ≠ widthAt a.1 a.2 ∨ s.answers a.1 a.2 = false then 0
  else s.readBlock a.1 a.2

end Sys2Proof.Machine
end

