-- ==== Sys2Proof/Machine/Dispatch.lean ====
section
/-! DEFINITION. One arm per constructor: each row of the opcode table and its meaning. -/

namespace Sys2Proof.Machine

def exec (i : Instr) (s : State) : Host.Outcome State Fault Refusal :=
  match i with
  | .linkTrain width rate flit => Sys2Proof.Machine.execLinkTrain width rate flit s
  | .thermalThrottle celsius => Sys2Proof.Machine.execThermalThrottle celsius s
  | .powerCapStep watts => Sys2Proof.Machine.execPowerCapStep watts s
  | .error u uncorrected loc => Sys2Proof.Machine.execError u uncorrected loc s
  | .selfTestEnd u pass => Sys2Proof.Machine.execSelfTestEnd u pass s
  | .retest kind index => Sys2Proof.Machine.execRetest kind index s
  | .fwWriteSlot slot pages => Sys2Proof.Machine.execFwWriteSlot slot pages s
  | .negotiateAlgorithms falcon shake => Sys2Proof.Machine.execNegotiateAlgorithms falcon shake s
  | .podmapWrite value => Sys2Proof.Machine.execPodmapWrite value s
  | .portExchange port podId number => Sys2Proof.Machine.execPortExchange port podId number s
  | .flitReceive port good => Sys2Proof.Machine.execFlitReceive port good s
  | .portRetrain port => Sys2Proof.Machine.execPortRetrain port s
  | .stageEnter st => Sys2Proof.Machine.execStageEnter st s
  | .stageLeave st => Sys2Proof.Machine.execStageLeave st s
  | .homeApply slice => Sys2Proof.Machine.execHomeApply slice s
  | .replySplit st entry => Sys2Proof.Machine.execReplySplit st entry s
  | .replyDelivery req => Sys2Proof.Machine.execReplyDelivery req s
  | .burstDelivered core cmd burst => Sys2Proof.Machine.execBurstDelivered core cmd burst s
  | .burstFailed core cmd burst why => Sys2Proof.Machine.execBurstFailed core cmd burst why s
  | .bankEvent core cmd => Sys2Proof.Machine.execBankEvent core cmd s
  | .bytesLand core cmd first count => Sys2Proof.Machine.execBytesLand core cmd first count s
  | .drainComplete quad entry => Sys2Proof.Machine.execDrainComplete quad entry s
  | .localCompletion core cmd => Sys2Proof.Machine.execLocalCompletion core cmd s
  | .globalCompletion core cmd => Sys2Proof.Machine.execGlobalCompletion core cmd s
  | .copyRingFault core => Sys2Proof.Machine.execCopyRingFault core s
  | .passBoundary quad => Sys2Proof.Machine.execPassBoundary quad s
  | .seamEntryComplete quad entry => Sys2Proof.Machine.execSeamEntryComplete quad entry s
  | .lodeOperation op => Sys2Proof.Machine.execLodeOperation op s
  | .doorbell ctx q tail => Sys2Proof.Machine.execDoorbell ctx q tail s
  | .launch ctx q => Sys2Proof.Machine.execLaunch ctx q s
  | .launchInd ctx q => Sys2Proof.Machine.execLaunchInd ctx q s
  | .fencePacket ctx q => Sys2Proof.Machine.execFencePacket ctx q s
  | .fenceReread ctx q => Sys2Proof.Machine.execFenceReread ctx q s
  | .signalStore ctx q => Sys2Proof.Machine.execSignalStore ctx q s
  | .signalAdd ctx q => Sys2Proof.Machine.execSignalAdd ctx q s
  | .counterInit ctx q => Sys2Proof.Machine.execCounterInit ctx q s
  | .counterAdd ctx q => Sys2Proof.Machine.execCounterAdd ctx q s
  | .windowInstall ctx q => Sys2Proof.Machine.execWindowInstall ctx q s
  | .windowInvalidate ctx q => Sys2Proof.Machine.execWindowInvalidate ctx q s
  | .marker ctx q => Sys2Proof.Machine.execMarker ctx q s
  | .pageZero ctx q => Sys2Proof.Machine.execPageZero ctx q s
  | .completionActions ctx q => Sys2Proof.Machine.execCompletionActions ctx q s
  | .launchAccept ctx q => Sys2Proof.Machine.execLaunchAccept ctx q s
  | .taskStart core => Sys2Proof.Machine.execTaskStart core s
  | .clauseBegin core group => Sys2Proof.Machine.execClauseBegin core group s
  | .parkWake core group => Sys2Proof.Machine.execParkWake core group s
  | .fqRecordWrite ctx accepted => Sys2Proof.Machine.execFqRecordWrite ctx accepted s
  | .flueSample ctx => Sys2Proof.Machine.execFlueSample ctx s
  | .apertureWrite fn offset value => Sys2Proof.Machine.execApertureWrite fn offset value s
  | .apertureRead fn offset => Sys2Proof.Machine.execApertureRead fn offset s
  | .contextEnable ctx value => Sys2Proof.Machine.execContextEnable ctx value s
  | .contextDisable ctx => Sys2Proof.Machine.execContextDisable ctx s
  | .queueEnable ctx q value => Sys2Proof.Machine.execQueueEnable ctx q value s
  | .queueErrorClear ctx q => Sys2Proof.Machine.execQueueErrorClear ctx q s
  | .fqHeadWrite ctx value => Sys2Proof.Machine.execFqHeadWrite ctx value s
  | .fqbaseWrite ctx value => Sys2Proof.Machine.execFqbaseWrite ctx value s
  | .retry ctx seq => Sys2Proof.Machine.execRetry ctx seq s
  | .skip ctx seq => Sys2Proof.Machine.execSkip ctx seq s
  | .kill ctx seq => Sys2Proof.Machine.execKill ctx seq s
  | .tlbinvPages ctx value => Sys2Proof.Machine.execTlbinvPages ctx value s
  | .tlbinvAll ctx => Sys2Proof.Machine.execTlbinvAll ctx s
  | .diemapWrite ctx stope value => Sys2Proof.Machine.execDiemapWrite ctx stope value s
  | .preemptReq ctx => Sys2Proof.Machine.execPreemptReq ctx s
  | .stepGo core => Sys2Proof.Machine.execStepGo core s
  | .stepArmClear core => Sys2Proof.Machine.execStepArmClear core s
  | .debugEnable value => Sys2Proof.Machine.execDebugEnable value s
  | .lampHeadWrite ctx value => Sys2Proof.Machine.execLampHeadWrite ctx value s
  | .flueHeadWrite ctx value => Sys2Proof.Machine.execFlueHeadWrite ctx value s
  | .registerWrite fn offset bytes value => Sys2Proof.Machine.execRegisterWrite fn offset bytes value s
  | .clauseHeader count set2 set1 wait => Sys2Proof.Machine.execClauseHeader count set2 set1 wait s
  | .add o => Sys2Proof.Machine.execAdd o s
  | .sub o => Sys2Proof.Machine.execSub o s
  | .lea o => Sys2Proof.Machine.execLea o s
  | .leaLabel o => Sys2Proof.Machine.execLeaLabel o s
  | .mul o => Sys2Proof.Machine.execMul o s
  | .mulh o => Sys2Proof.Machine.execMulh o s
  | .mad o => Sys2Proof.Machine.execMad o s
  | .madw o => Sys2Proof.Machine.execMadw o s
  | .div o => Sys2Proof.Machine.execDiv o s
  | .rem o => Sys2Proof.Machine.execRem o s
  | .abs o => Sys2Proof.Machine.execAbs o s
  | .min o => Sys2Proof.Machine.execMin o s
  | .max o => Sys2Proof.Machine.execMax o s
  | .and o => Sys2Proof.Machine.execAnd o s
  | .or o => Sys2Proof.Machine.execOr o s
  | .xor o => Sys2Proof.Machine.execXor o s
  | .andn o => Sys2Proof.Machine.execAndn o s
  | .not o => Sys2Proof.Machine.execNot o s
  | .shl o => Sys2Proof.Machine.execShl o s
  | .shr o => Sys2Proof.Machine.execShr o s
  | .sar o => Sys2Proof.Machine.execSar o s
  | .rol o => Sys2Proof.Machine.execRol o s
  | .bfe o => Sys2Proof.Machine.execBfe o s
  | .bfi o => Sys2Proof.Machine.execBfi o s
  | .popc o => Sys2Proof.Machine.execPopc o s
  | .clz o => Sys2Proof.Machine.execClz o s
  | .ctz o => Sys2Proof.Machine.execCtz o s
  | .brev o => Sys2Proof.Machine.execBrev o s
  | .perm o => Sys2Proof.Machine.execPerm o s
  | .sel o => Sys2Proof.Machine.execSel o s
  | .cmp o => Sys2Proof.Machine.execCmp o s
  | .pset o => Sys2Proof.Machine.execPset o s
  | .mov o => Sys2Proof.Machine.execMov o s
  | .movSpecial o => Sys2Proof.Machine.execMovSpecial o s
  | .movW64 o => Sys2Proof.Machine.execMovW64 o s
  | .moviW32 o => Sys2Proof.Machine.execMoviW32 o s
  | .moviW64 o => Sys2Proof.Machine.execMoviW64 o s
  | .cvt o => Sys2Proof.Machine.execCvt o s
  | .fadd o => Sys2Proof.Machine.execFadd o s
  | .fsub o => Sys2Proof.Machine.execFsub o s
  | .fmul o => Sys2Proof.Machine.execFmul o s
  | .ffma o => Sys2Proof.Machine.execFfma o s
  | .fmin o => Sys2Proof.Machine.execFmin o s
  | .fmax o => Sys2Proof.Machine.execFmax o s
  | .fcmp o => Sys2Proof.Machine.execFcmp o s
  | .fcls o => Sys2Proof.Machine.execFcls o s
  | .frcp o => Sys2Proof.Machine.execFrcp o s
  | .frsq o => Sys2Proof.Machine.execFrsq o s
  | .fsqrt o => Sys2Proof.Machine.execFsqrt o s
  | .fex2 o => Sys2Proof.Machine.execFex2 o s
  | .flg2 o => Sys2Proof.Machine.execFlg2 o s
  | .frnd o => Sys2Proof.Machine.execFrnd o s
  | .fcvt o => Sys2Proof.Machine.execFcvt o s
  | .shfl o => Sys2Proof.Machine.execShfl o s
  | .voteAny o => Sys2Proof.Machine.execVoteAny o s
  | .voteAll o => Sys2Proof.Machine.execVoteAll o s
  | .voteBallot o => Sys2Proof.Machine.execVoteBallot o s
  | .voteEq o => Sys2Proof.Machine.execVoteEq o s
  | .redux o => Sys2Proof.Machine.execRedux o s
  | .scan o => Sys2Proof.Machine.execScan o s
  | .scanEx o => Sys2Proof.Machine.execScanEx o s
  | .quant o => Sys2Proof.Machine.execQuant o s
  | .dequant o => Sys2Proof.Machine.execDequant o s
  | .bra o => Sys2Proof.Machine.execBra o s
  | .brx o => Sys2Proof.Machine.execBrx o s
  | .call o => Sys2Proof.Machine.execCall o s
  | .ret o => Sys2Proof.Machine.execRet o s
  | .exit o => Sys2Proof.Machine.execExit o s
  | .yield o => Sys2Proof.Machine.execYield o s
  | .nop o => Sys2Proof.Machine.execNop o s
  | .brk o => Sys2Proof.Machine.execBrk o s
  | .trap o => Sys2Proof.Machine.execTrap o s
  | .assert o => Sys2Proof.Machine.execAssert o s
  | .enrol o => Sys2Proof.Machine.execEnrol o s
  | .join o => Sys2Proof.Machine.execJoin o s
  | .reform o => Sys2Proof.Machine.execReform o s
  | .seal o => Sys2Proof.Machine.execSeal o s
  | .park o => Sys2Proof.Machine.execPark o s
  | .ld o => Sys2Proof.Machine.execLd o s
  | .st o => Sys2Proof.Machine.execSt o s
  | .ldt o => Sys2Proof.Machine.execLdt o s
  | .stt o => Sys2Proof.Machine.execStt o s
  | .ldd o => Sys2Proof.Machine.execLdd o s
  | .std o => Sys2Proof.Machine.execStd o s
  | .ldc o => Sys2Proof.Machine.execLdc o s
  | .ldcPar o => Sys2Proof.Machine.execLdcPar o s
  | .pref o => Sys2Proof.Machine.execPref o s
  | .spush o => Sys2Proof.Machine.execSpush o s
  | .spop o => Sys2Proof.Machine.execSpop o s
  | .xadd o => Sys2Proof.Machine.execXadd o s
  | .xmax o => Sys2Proof.Machine.execXmax o s
  | .xmin o => Sys2Proof.Machine.execXmin o s
  | .xswp o => Sys2Proof.Machine.execXswp o s
  | .xcas o => Sys2Proof.Machine.execXcas o s
  | .xbit o => Sys2Proof.Machine.execXbit o s
  | .fence o => Sys2Proof.Machine.execFence o s
  | .tbar o => Sys2Proof.Machine.execTbar o s
  | .cbar o => Sys2Proof.Machine.execCbar o s
  | .txbInit o => Sys2Proof.Machine.execTxbInit o s
  | .txbArrive o => Sys2Proof.Machine.execTxbArrive o s
  | .txbExpect o => Sys2Proof.Machine.execTxbExpect o s
  | .txbWait o => Sys2Proof.Machine.execTxbWait o s
  | .tileDef o => Sys2Proof.Machine.execTileDef o s
  | .tileSet o => Sys2Proof.Machine.execTileSet o s
  | .tileState o => Sys2Proof.Machine.execTileState o s
  | .trec o => Sys2Proof.Machine.execTrec o s
  | .bstat o => Sys2Proof.Machine.execBstat o s
  | .bstatSeq o => Sys2Proof.Machine.execBstatSeq o s
  | .bcopy o => Sys2Proof.Machine.execBcopy o s
  | .bcopyMc o => Sys2Proof.Machine.execBcopyMc o s
  | .bread o => Sys2Proof.Machine.execBread o s
  | .bwrite o => Sys2Proof.Machine.execBwrite o s
  | .bzero o => Sys2Proof.Machine.execBzero o s
  | .oprel o => Sys2Proof.Machine.execOprel o s
  | .opresFill o => Sys2Proof.Machine.execOpresFill o s
  | .opres o => Sys2Proof.Machine.execOpres o s
  | .opresTm o => Sys2Proof.Machine.execOpresTm o s
  | .accget o => Sys2Proof.Machine.execAccget o s
  | .accrel o => Sys2Proof.Machine.execAccrel o s
  | .mma o => Sys2Proof.Machine.execMma o s
  | .mmaSp o => Sys2Proof.Machine.execMmaSp o s
  | .smx o => Sys2Proof.Machine.execSmx o s
  | .accrd o => Sys2Proof.Machine.execAccrd o s
  | .accwr o => Sys2Proof.Machine.execAccwr o s
  | .accscale o => Sys2Proof.Machine.execAccscale o s
  | .accscaleNorm o => Sys2Proof.Machine.execAccscaleNorm o s
  | .accrdSide o => Sys2Proof.Machine.execAccrdSide o s
  | .accwrSide o => Sys2Proof.Machine.execAccwrSide o s
  | .accflush o => Sys2Proof.Machine.execAccflush o s
  | .accflushSt o => Sys2Proof.Machine.execAccflushSt o s
  | .forgeRdy o => Sys2Proof.Machine.execForgeRdy o s
  | .seamFam o => Sys2Proof.Machine.execSeamFam o s
  | .seamHash o => Sys2Proof.Machine.execSeamHash o s
  | .seamProbe o => Sys2Proof.Machine.execSeamProbe o s
  | .seamGather o => Sys2Proof.Machine.execSeamGather o s
  | .seamProbePre o => Sys2Proof.Machine.execSeamProbePre o s
  | .seamIns o => Sys2Proof.Machine.execSeamIns o s
  | .seamDel o => Sys2Proof.Machine.execSeamDel o s
  | .seamRehash o => Sys2Proof.Machine.execSeamRehash o s
  | .seamFin o => Sys2Proof.Machine.execSeamFin o s
  | .seamVer o => Sys2Proof.Machine.execSeamVer o s
  | .seamFencePkg o => Sys2Proof.Machine.execSeamFencePkg o s
  | .seamFencePod o => Sys2Proof.Machine.execSeamFencePod o s
  | .seamPub o => Sys2Proof.Machine.execSeamPub o s
  | .nzscan o => Sys2Proof.Machine.execNzscan o s
  | .lodeCount o => Sys2Proof.Machine.execLodeCount o s
  | .lodeNext o => Sys2Proof.Machine.execLodeNext o s
  | .lodeCopy o => Sys2Proof.Machine.execLodeCopy o s
  | .lodeGrow o => Sys2Proof.Machine.execLodeGrow o s
  | .lodeTrim o => Sys2Proof.Machine.execLodeTrim o s
  | .taskPost o => Sys2Proof.Machine.execTaskPost o s
  | .taskArm o => Sys2Proof.Machine.execTaskArm o s
  | .post64 o => Sys2Proof.Machine.execPost64 o s
  | .winArm o => Sys2Proof.Machine.execWinArm o s
  | .cntInit o => Sys2Proof.Machine.execCntInit o s
  | .cntAdd o => Sys2Proof.Machine.execCntAdd o s
  | .cntRd o => Sys2Proof.Machine.execCntRd o s
  | .isync o => Sys2Proof.Machine.execIsync o s
  | .sregR o => Sys2Proof.Machine.execSregR o s
  | .sregW o => Sys2Proof.Machine.execSregW o s
  | .perfRd o => Sys2Proof.Machine.execPerfRd o s
  | .icinv o => Sys2Proof.Machine.execIcinv o s
  | .lamp o => Sys2Proof.Machine.execLamp o s
  | .trc o => Sys2Proof.Machine.execTrc o s
  | .tlbInv o => Sys2Proof.Machine.execTlbInv o s
  | .tlbInvAll o => Sys2Proof.Machine.execTlbInvAll o s
  | .ctxSave o => Sys2Proof.Machine.execCtxSave o s
  | .ctxLoad o => Sys2Proof.Machine.execCtxLoad o s
  | .halt o => Sys2Proof.Machine.execHalt o s
  | .shaftDieReply req => Sys2Proof.Machine.execShaftDieReply req s
  | .flitAcknowledgement port accepted => Sys2Proof.Machine.execFlitAcknowledgement port accepted s
  | .atsInvalidation pasid => Sys2Proof.Machine.execAtsInvalidation pasid s
  | .powerOnReset => Sys2Proof.Machine.execPowerOnReset s
  | .thermalTrip => Sys2Proof.Machine.execThermalTrip s
  | .fwRaiseMinimum => Sys2Proof.Machine.execFwRaiseMinimum s
  | .fwRestart => Sys2Proof.Machine.execFwRestart s
  | .fwCommandDone => Sys2Proof.Machine.execFwCommandDone s
  | .getVersion => Sys2Proof.Machine.execGetVersion s
  | .getCapabilities => Sys2Proof.Machine.execGetCapabilities s
  | .getDigests => Sys2Proof.Machine.execGetDigests s
  | .getCertificate => Sys2Proof.Machine.execGetCertificate s
  | .challenge => Sys2Proof.Machine.execChallenge s
  | .getMeasurements => Sys2Proof.Machine.execGetMeasurements s
  | .fabricTimeout => Sys2Proof.Machine.execFabricTimeout s
  | .emberBirth => Sys2Proof.Machine.execEmberBirth s
  | .forgeAgePromote => Sys2Proof.Machine.execForgeAgePromote s
  | .claimBatch => Sys2Proof.Machine.execClaimBatch s
  | .placeCluster => Sys2Proof.Machine.execPlaceCluster s
  | .starved => Sys2Proof.Machine.execStarved s
  | .coreReport => Sys2Proof.Machine.execCoreReport s
  | .sliceExpiry => Sys2Proof.Machine.execSliceExpiry s
  | .preemptEnd => Sys2Proof.Machine.execPreemptEnd s
  | .deadlineExpiry => Sys2Proof.Machine.execDeadlineExpiry s
  | .teamEnd => Sys2Proof.Machine.execTeamEnd s
  | .priorityAge => Sys2Proof.Machine.execPriorityAge s
  | .binAgeRelease => Sys2Proof.Machine.execBinAgeRelease s
  | .overflowRelease => Sys2Proof.Machine.execOverflowRelease s
  | .parkTimeout => Sys2Proof.Machine.execParkTimeout s
  | .tlbInvalidateDone => Sys2Proof.Machine.execTlbInvalidateDone s
  | .unassignedEncoding => Sys2Proof.Machine.execUnassignedEncoding s

end Sys2Proof.Machine
end

