-- ==== Sys2Proof/Machine/Sched.lean ====
section
/-! DEFINITION. Which step of the package comes next where nothing else says so: the groups that may issue (R139, R146), and
the steps of the engines, the fabric, the onsetter and the queues that are due. -/

namespace Sys2Proof.Machine

/-! ## Groups (R139, R146, R393) -/

/-- The operation at which a group stands in its clause. -/
def State.opcAt (s : State) (g : Group) : Option Opc :=
  match decodeBytes (s.groupBytes g) with
  | .ok i => i.opc?.map (·.1)
  | .error _ => none

/-- An operation that takes an entry of the forge's table, or of the seam unit's queue. -/
def takesEntry (k : Opc) : Bool :=
  k matches .accget | .mma | .mmaSp | .smx | .accflush | .accflushSt | .seamHash
def takesSeam (k : Opc) : Bool :=
  k matches .seamProbe | .seamProbePre | .seamGather | .seamIns | .seamDel | .seamRehash | .seamPub | .seamVer | .seamFin

/-- A subgroup that is held before an instruction for want of an entry (R393, R421). -/
def State.heldForEntry (s : State) (g : Group) : Bool :=
  s.stalls.contains g.gid && (match s.opcAt g with
    | some k => (takesEntry k && !s.entryRoom g.core) || (takesSeam k && !s.seamRoom g.core)
    | none => false)

/-- A subgroup that the choice of R146 passes over: it waits at a `join` or a `seal` (R364), is parked, by a fault too (R273), or is held for
an entry (R393). DEDUCED (log entry 17). -/
def State.passedOver (s : State) (g : Group) : Bool :=
  match g.wait with
  | .join _ | .seal | .park .. | .fault _ => true
  | _ => s.heldForEntry g

/-- Of two subgroups, the one with the lower program counter, then the lower thread slot. -/
def State.subBefore (s : State) (a b : Group) : Bool :=
  decide (a.pc.toNat < b.pc.toNat) || (a.pc == b.pc && decide (s.lowestSlot a < s.lowestSlot b))

/-- The subgroup of its family that issues (R146). DEDUCED (log entry 17). -/
def State.leads (s : State) (g : Group) : Bool :=
  !(s.groups.any fun h => h.fam == g.fam && h.core == g.core && h.gid != g.gid && !s.passedOver h && s.subBefore h g)

/-- The pipe that a group's next instruction needs; none at a clause boundary. PRESUMED (log entry 9). -/
def State.pipeOf (s : State) (g : Group) : Option Bool :=
  if g.clause.isNone then none
  else some (match s.opcAt g with | some k => k.vector | none => false)

/-- A fetch at a group's clause boundary travels the path of R45: what it reads now, and the cache does not hold, may come. -/
def State.fetchMay (s : State) (g : Group) : Bool :=
  s.allQuiet || (match s.storedHeader g with
    | .error _ => true
    | .ok w =>
      let n := match headerOf (overlayWord (s.leadLaunch g) g.pc w) with
        | some (.clauseHeader count _ _ _) =>
          (match s.fetchWhole g (overlayWord (s.leadLaunch g) g.pc w) (count.toNat + 1) with
            | .ok (_, ws, fresh) => if fresh then 4 * (ws.length + 1) else 0
            | .error _ => 4)
        | _ => 4
      match codeRuns s g.ctx g.pc n with
      | some runs => s.allPass g.ctx (some g.core) (runs.flatMap fun r => linePieces r.1 r.2)
      | none => true)

/-- A group that may issue in this cycle. -/
def State.mayIssue (s : State) (g : Group) : Bool :=
  s.isReady g && (match s.pipeOf g with | some p => !s.spent.contains (g.core, p) | none => true) && s.leads g &&
    (g.clause.isSome || s.fetchMay g) && !s.tablesWait g.ctx

/-- The order of R139: the higher class, the earlier formation cycle, the lowest thread slot. -/
def State.issueBefore (s : State) (a b : Group) : Bool :=
  decide (s.classOf b < s.classOf a) || (s.classOf a == s.classOf b && (decide (a.formed < b.formed) ||
    (a.formed == b.formed && decide (s.lowestSlot a ≤ s.lowestSlot b))))

/-- Of the groups of its core that need its pipe, a group is the first by the order of R139. -/
def State.firstOf (s : State) (g : Group) : Bool :=
  match s.pipeOf g with
  | none => true
  | some p => s.groups.all fun h => h.core != g.core || h.gid == g.gid || s.pipeOf h != some p || !s.mayIssue h || s.issueBefore g h

/-- The group that issues next: on the lowest core with one, the first of the pipe by the order of R139.
DESIGN CHOICE (log entry 2). -/
def State.issuer (s : State) : Option Group :=
  match s.groups.filter s.mayIssue with
  | [] => none
  | g :: gs =>
    let core := (gs.map (·.core)).foldl min g.core
    minBy s.issueBefore ((g :: gs).filter fun h => h.core == core)

/-! ## Steps that are due -/

/-- A step of the fabric. -/
def State.dueFabric (s : State) : Option Instr :=
  let f := s.fabric
  let reply := f.replies.findSome? fun r => match r.to_ with
    | .entry e => (f.sumps.find? fun x => x.id == e).map fun x => Instr.replySplit x.stage e
    | .owner q => (f.pending.find? fun p => p.id == q).bind fun p => match p.owner with
      | .shaft act => if s.shaftWaits act then none else some (Instr.shaftDieReply q)
      | _ => if s.replyWaits p then none else some (Instr.replyDelivery q)
  let home := (f.homes.find? fun h => (s.nextAtHome h.1 [] f.homes).isSome).map fun h => Instr.homeApply h.1
  let enter := (f.arrivals.find? fun a => !(s.entering a.1).entered.isEmpty).map fun a => Instr.stageEnter a.1
  let leave := (f.queues.find? fun q => (s.leaver q.1).isSome).map fun q => Instr.stageLeave q.1
  let astray := (f.pending.find? s.stranded).map fun p => Instr.shaftDieReply p.id
  let late := f.pending.any s.overdue || f.sumps.any s.stale
  let retrain := (f.bufHeld.find? fun r => r.2.any fun x => decide (8 ≤ x.resent)).map fun r => Instr.portRetrain r.1
  reply.or (home.or (enter.or (leave.or (retrain.or (astray.or (if late then some .fabricTimeout else none))))))

/-- A step of a group that is no issue. -/
def State.dueGroup (s : State) : Option Instr :=
  let begins (g : Group) : Bool := match g.wait with
    | .header m => s.unheld g && (!(s.deferredOn g m).isEmpty || s.flagsClear g m)
    | _ => false
  let wakes (g : Group) : Bool := match g.wait with | .park _ _ _ _ hit => hit | _ => false
  let begin_ := (s.groups.find? begins).map fun g => Instr.clauseBegin g.core g.gid
  let wake := (s.groups.find? wakes).map fun g => Instr.parkWake g.core g.gid
  let binOld := s.cores.any fun e => e.2.bins.any fun b => decide (e.2.binage ≤ s.clock - b.since)
  let overOld := s.cores.any fun e => (match e.2.overflow.head? with
    | some f => decide (e.2.binage ≤ s.clock - f.at_)
    | none => false)
  let aged := s.groups.any fun g => decide (g.ready + 1024 ≤ s.clock) && !g.aged && s.isReady g
  begin_.or (wake.or (
    if binOld then some .binAgeRelease
    else if overOld then some .overflowRelease
    else if aged then some .priorityAge else none))

/-- A run of `k` elements of a command, from `f` on, can land now, or stops the command there (R181). -/
def State.landable (s : State) (c : Cmd) (f k : Nat) : Bool :=
  let range := (List.range k).map (f + ·)
  c.runWhole s f k && !s.blocked c range && c.mayTravel s f k &&
  (c.halted.isNone || (decide (f + k ≤ c.upTo) && (c.stuck s range).isNone))

/-- What becomes of a burst at the host: it times out, it is refused because the host does not translate it, or the host answers as
it will (R22, R103). -/
def State.dueBurst (s : State) (c : Cmd) (f : Nat) : Option Instr :=
  let lost (q : Nat) : Bool := match c.op with
    | .bread _ _ l v t k | .bwrite _ l v t k => (s.hostPlaces c.ctx (c.record.burst l q).1 (c.record.burst l q).2.1 v t k).isNone
    | _ => false
  let refused := match c.op with
    | .bwrite .. => (f :: c.burstMates f).find? lost
    | _ => [f].find? lost
  if s.timedOutAtHost c f then some (.burstFailed c.core c.id f .refused)
  else if let some q := refused then some (.burstFailed c.core c.id q .translation)
  else if Config.freeBit (s.free * 2 ^ 64 + f) then some (.burstDelivered c.core c.id f)
  else some (.burstFailed c.core c.id f .refused)

/-- A step of a core's copy engine. -/
def State.dueCmd (s₀ : State) (c : Cmd) : Option Instr :=
  let s : State := { s₀ with via := [.ahead c.core, .stope (stopeOfCore c.core)] }
  if s.localDue c && !(c.op matches .bread ..) then some (.localCompletion c.core c.id)
  else match c.todo with
  | [] =>
    match c.op with
    | .bread .. =>
      if c.live == 0 && !(s.core c.core).staging.any (fun b => b.cmd == c.id) then some (.bankEvent c.core c.id) else none
    | _ =>
      if s.bulkAway c.id || s.tileWaits c then none
      else some (.globalCompletion c.core c.id)
  | (f, n) :: _ =>
    if !s.mayMove c then none
    else match c.op with
      | .bread .. => if s.atHost c f then s.dueBurst c f else none
      | .bwrite .. => if s.atHost c f && !s.blocked c (c.burstMates f) then s.dueBurst c f else none
      | _ =>
        if s.landable c f n then some (.bytesLand c.core c.id f n)
        else ((List.range (min n 256)).find? fun k => s.landable c f (k + 1)).map fun k => .bytesLand c.core c.id f (k + 1)

def State.dueCopy (s : State) : Option Instr :=
  let ringFault (e : Nat × CoreSt) : Bool := e.2.ringStop.isNone && (s.ringFails e.1).isSome
  ((s.cores.find? ringFault).map fun e => Instr.copyRingFault e.1).or
    (s.cores.findSome? fun e => e.2.copyq.findSome? s.dueCmd)

/-- A step of a quad's forge or seam unit. -/
def State.dueQuad (s : State) : Option Instr :=
  let pass (e : Nat × QuadSt) : Bool := match e.2.pass with
    | some p => decide (p.2 ≤ s.clock)
    | none => e.2.entries.any fun x => s.eligible e.1 x || (x.passes == 0 && x.halted.isNone && s.flushMay x)
  let drain := s.quads.findSome? fun e => (e.2.tiles.find? fun t => t.2.state == .draining && t.2.readers.isEmpty).map fun t =>
    Instr.drainComplete e.1 t.1
  let grant := (s.quads.find? pass).map fun e => Instr.passBoundary e.1
  let seam := s.quads.findSome? fun e => (e.2.seams.find? fun x => s.seamMay e.1 x).map fun x => Instr.seamEntryComplete e.1 x.id
  let period := bits (s.reg (ons 4)) 15 0
  let promote := s.quads.any fun e => e.2.entries.any fun x =>
    decide (x.eff < 3) && decide (x.idle + period ≤ s.clock) && s.eligible e.1 x
  drain.or (grant.or (seam.or (if promote then some .forgeAgePromote else none)))

/-- A step of a lode walker. -/
def State.dueLode (s : State) : Option Instr :=
  (s.lodes.find? fun q => q.refused.isNone && q.halted.isNone && (match regionAt s q.region with
    | none => true
    | some r => s.lodeMay q r)).map fun q => .lodeOperation q.op

/-- The step with which a queue's head begins. -/
def headStep (c q : Nat) : Head → Instr
  | .unreadable _ => .launch c q
  | .packet ws =>
    match pktType ws with
    | 2 => .launchInd c q
    | 3 => .fencePacket c q
    | 4 => if bitAt (pktArg ws) 0 then .signalAdd c q else .signalStore c q
    | 5 => if bits (pktArg ws) 17 16 = 1 then .counterAdd c q else .counterInit c q
    | 6 => if bitAt (pktArg ws) 8 then .windowInvalidate c q else .windowInstall c q
    | 7 => .marker c q
    | 8 => .pageZero c q
    | _ => .launch c q

/-- A FENCE whose counters are to be read again: one now holds what its entry waits for, or 10 µs have passed (R92). -/
def State.fenceDue (s : State) (p : Pkt) : Bool :=
  p.type == 3 && !p.complete &&
  p.entries.zipIdx.any fun e => !p.met.contains e.2 && !p.asked.contains e.2 &&
    !s.tablesWait p.ctx && (decide (p.reread + 10000 * Config.unitsPerNs ≤ s.time) || fenceMet e.1 (BitVec.ofNat 64 (natVa s p.ctx (fenceAddr e.1) 8)))

/-- A step of a command queue. -/
def State.dueQueue (s : State) : Option Instr :=
  let wait (h : Head) : Bool := match h with
    | .packet ws => isLaunchType (pktType ws) && !s.placeFree
    | .unreadable _ => false
  let act := (s.pkts.find? fun p => (s.acting p.ctx p.q).isSome).map fun p => Instr.completionActions p.ctx p.q
  let begin_ := s.queues.findSome? fun e => match s.head (e.1 / 16) (e.1 % 16) with
    | some h => if wait h then none else some (headStep (e.1 / 16) (e.1 % 16) h)
    | none => none
  let fence := (s.pkts.find? s.fenceDue).map fun p => Instr.fenceReread p.ctx p.q
  let record := (s.records.find? fun r => (s.heldRec r.ctx).isSome && s.fqOpen r.ctx).map fun r =>
    Instr.fqRecordWrite r.ctx (Config.freeBit (s.free * 2 ^ 64))
  act.or (begin_.or (fence.or record))

/-- A step of the onsetter. -/
def State.dueOnsetter (s : State) : Option Instr :=
  let task := (s.cores.find? fun e => (s.startable e.1).isSome).map fun e => Instr.taskStart e.1
  let deadline := match s.preempt with | some p => decide (p.deadline ≤ s.time) | none => false
  task.or (
    if s.cores.any (fun e => (s.hatchable e.1).isSome) then some .emberBirth
    else if s.teams.any s.teamOver then some .teamEnd
    else if s.drained.isSome then some .preemptEnd
    else if !s.views.isEmpty then some .coreReport
    else if deadline then some .deadlineExpiry
    else if s.launches.any s.mayClaim then some .claimBatch
    else if s.placeDue then some .placeCluster
    else if s.starving.isSome then some .starved
    else if s.sliceOver.isSome then some .sliceExpiry else none)

/-- A step of the package's own: an invalidation that is done, a self-test at its end, a firmware command, a sample.
DEDUCED (log entry 52). -/
def State.duePackage (s : State) : Option Instr :=
  let inval := match s.invals with | i :: _ => s.accessesDone i.ctx | [] => false
  let cycle := Config.unitsPerCoreCycle s.mhz100
  let test := (s.tests.find? fun t => decide (t.since + 2000000 * Config.unitsPerNs < s.time + cycle)).map fun t =>
    Instr.selfTestEnd t.unit (Config.freeBit (s.free * 2 ^ 64 + 1))
  let sample := (s.teams.find? fun t => s.sampleDue t.ctx).map fun t => Instr.flueSample t.ctx
  test.or (if inval then some .tlbInvalidateDone else if s.fwCmd.isSome then some .fwCommandDone else sample)

/-- The first step that is due. DESIGN CHOICE (log entry 2). -/
def State.due (s : State) : Option Instr :=
  s.dueFabric.or (s.dueGroup.or (s.dueLode.or (s.dueQuad.or (s.dueCopy.or (s.dueQueue.or (s.dueOnsetter.or s.duePackage))))))

/-! ## What the world outside does -/

/-- A write of a register, of those that come after the posted writes through the aperture (R79). -/
def writesRegister (i : Instr) : Bool :=
  i matches .doorbell .. | .contextEnable .. | .contextDisable .. | .queueEnable .. | .queueErrorClear .. | .fqHeadWrite .. | .fqbaseWrite .. |
    .retry .. | .skip .. | .kill .. | .tlbinvPages .. | .tlbinvAll .. | .diemapWrite .. | .preemptReq .. | .stepGo .. | .stepArmClear .. |
    .debugEnable .. | .lampHeadWrite .. | .flueHeadWrite .. | .retest .. | .podmapWrite ..

/-- A write of a register by the host waits until the writes that were posted before it through an aperture are performed: of its own
function where the event names one, and else of any (R79). DEDUCED (log entry 8). -/
def State.behindPosted (s : State) (i : Instr) : Bool :=
  s.fabric.pending.any fun p => match p.owner, i with
    | .shaft (.apWrite fn), .registerWrite f .. => f == fn
    | .shaft (.apWrite _), i => writesRegister i
    | _, _ => false

/-- Two ranges of bytes share one. -/
def meetsAt (p : PAddr) (n : Nat) (q : PAddr) (m : Nat) : Bool := p.space == q.space && overlap p.addr n q.addr m != 0

/-- A request of a remote member, or of this one at another, is applied, after the earlier ones of its context to its word and the
captured writes to it that left before it (R54); the pod's memory is one store. DESIGN CHOICE (log entry 60). -/
def State.remoteApply (s : State) (index : Nat) : State :=
  match s.fabric.remote[index]? with
  | none => s
  | some (_, x) =>
    if ((s.fabric.remote.take index).any fun y => y.2.ctx == x.ctx && y.2.meets x) ||
        (s.fabric.bulk.any fun b => decide (b.flit < x.flit) && b.ctx == x.ctx && meetsAt b.at_ b.bytes.length x.addr x.op.size) then s
    else
    let fab : Fabric := { s.fabric with remote := s.fabric.remote.eraseIdx index }
    let r := State.applyReq { s with fabric := fab } x
    let fab : Fabric := { r.1.fabric with replies := r.1.fabric.replies ++ [r.2] }
    State.purge { r.1 with fabric := fab }

/-- A request of another member reaches the downcast on that member's port (R45). DESIGN CHOICE (log entry 60). -/
def State.remoteRequest (s : State) (pkg slice : Nat) (x : Req) : State :=
  let id := s.nextId
  let p : Pending :=
    { id, owner := .remote pkg, core := noCore, slot := 0, dreg := none, ty := .w64, flag := none, pc := 0, seq := 0, va := 0,
      at_ := x.addr, op := x.op, bytes := [], deadline := none, alloc := none, acquire := false, empties := false, done := false }
  let y : Req := { x with port := pkg, rank := pkg, back := .owner id, threads := [] }
  let fab : Fabric := { s.fabric with pending := s.fabric.pending ++ [p], arrivals := s.fabric.arrivals ++ [(.downcast slice, y)] }
  { s with nextId := id + 1, fabric := fab }

/-- A request of member `src` for member `dst` passes through this package, which is its relay: from the downcast's input into
the upcast and out on the port of its home, with no merging and no sump entry (R46). Its reply is the home's, and this package
has no part in it. DESIGN CHOICE (log entry 65). -/
def State.relayRequest (s : State) (src dst : Nat) (x : Req) : State :=
  if dst = s.self then s
  else
    let id := s.nextId
    let y : Req := { x with port := src, rank := src, back := .owner id, threads := [], ready := 0, plain := true }
    { s with nextId := id + 1, fabric := { s.fabric with arrivals := s.fabric.arrivals ++ [(.upcast dst, y)] } }

/-- The reply to a relayed request leaves on the port of the member that asked, in a flit; it waits while that port is shut (R45, R46).
DESIGN CHOICE (log entry 65). -/
def State.relayReply (s : State) (src : Nat) : State := if src ≠ s.self ∧ s.portOpen src = true then s.sendFlit src else s

/-- A captured bulk write may be performed: the earlier ones of its owner to its home slice have been (R64), and so have the earlier
writes and requests of its context to its bytes (R54, R180). -/
def State.bulkFirst (s : State) (index : Nat) (b : Bulk) : Bool :=
  !((s.fabric.bulk.take index).any fun y =>
      (y.owner == b.owner && s.homePkg y.at_ == s.homePkg b.at_ && homeSlice y.at_ == homeSlice b.at_) ||
      (y.ctx == b.ctx && meetsAt y.at_ y.bytes.length b.at_ b.bytes.length)) &&
  !(s.fabric.remote.any fun y => decide (y.2.flit < b.flit) && y.2.ctx == b.ctx && meetsAt y.2.addr y.2.op.size b.at_ b.bytes.length)

/-- Two captured writes of one command share an aligned 4-byte word. -/
def Bulk.sharesWord (a b : Bulk) : Bool :=
  a.owner == b.owner && a.at_.space == b.at_.space &&
    decide (a.at_.addr / 4 ≤ (b.at_.addr + b.bytes.length - 1) / 4) && decide (b.at_.addr / 4 ≤ (a.at_.addr + a.bytes.length - 1) / 4)

/-- The captured writes that are performed in one act with some of them, so that each aligned word is written whole (R229, R244). -/
def wordMates (all : List Bulk) : Nat → List Bulk → List Bulk
  | 0, ms => ms
  | n + 1, ms =>
    let next := all.filter fun b => ms.contains b || ms.any b.sharesWord
    if next.length ≤ ms.length then ms else wordMates all n next

/-- A captured write is performed at its home; one whose flit was re-sent with uncorrectable data leaves that data there (R32). -/
def State.landBulk (s : State) (b : Bulk) : State :=
  let s := s.engineWrite b.ctx b.core b.at_ b.bytes
  if b.bad then { s with poison := dedup ((List.range b.bytes.length).map (b.at_.plus ·) ++ s.poison) } else s

/-- Another member performs the captured bulk write at an index, with those of its command that share a word with it.
DESIGN CHOICE (log entry 60). -/
def State.bulkApply (s : State) (index : Nat) : State :=
  match s.fabric.bulk[index]? with
  | none => s
  | some b =>
    if !s.bulkFirst index b then s
    else
      let all := wordMates s.fabric.bulk s.fabric.bulk.length [b]
      all.foldl State.landBulk { s with fabric := { s.fabric with bulk := s.fabric.bulk.filter fun x => !all.contains x } }

/-- The host's translation of one page changes. DESIGN CHOICE (log entry 67). -/
def State.setHostMap (s : State) (m : HostMap) : State :=
  { s with hostMaps := m :: s.hostMaps.filter fun x => !(x.pasid == m.pasid && x.page == m.page) }

/-- DESIGN CHOICE (log entry 60). -/
def State.outside (s : State) : Env → State
  | .hostWrite a bs => s.putBytes ⟨.host, a⟩ bs
  | .hostMap m => s.setHostMap m
  | .farPort pkg port up => s.setFarPort pkg port up
  | .relayRequest src dst x => s.relayRequest src dst x
  | .relayReply src => s.relayReply src
  | .bulkApply i => s.bulkApply i
  | .remoteApply i => s.remoteApply i
  | .remoteRequest pkg slice x => s.remoteRequest pkg slice x
  | .memberAct x => (s.applyReq x).1
  | .sumpBad e => match s.fabric.sumps.find? fun x => x.id == e with
    | some x => s.error (unitOfStage x.stage) true (some ⟨.sump, e⟩)
    | none => s

/-! ## Time passes -/

/-- Requests that a unit under test holds back: at a stage, at a slice or behind one held there, or in the replay buffer of a port
(R34, R35). -/
def State.heldByTest (s : State) : List Nat :=
  let queued := (s.fabric.queues.filter fun q => match q.1 with
    | .collar c => s.underTest ⟨.core, c⟩
    | .landing k => s.underTest ⟨.quad, k⟩
    | .upcast k => k != s.self && (match s.routeTo k with | some m => s.underTest ⟨.port, m⟩ | none => false)
    | .downcast _ => false).map fun q => q.2.back
  let stuck := s.fabric.homes.foldl (fun (l : List (Nat × Req)) h =>
    if s.channelWait h.2.addr || l.any (fun y => y.1 != h.1 && homeSlice y.2.addr == homeSlice h.2.addr) then l ++ [h] else l) []
  let home := stuck.map fun h => h.2.back
  let away := (s.fabric.remote.filter fun r => match s.routeTo r.1 with
    | some m => s.underTest ⟨.port, m⟩
    | none => false).map fun r => r.2.back
  (queued ++ home ++ away).flatMap (s.fabric.ownersOf s.fabric.depth)

/-- The request for a bank window's next burst is with the host, and times out after HIF_CPL_TIMEOUT as it stood when the request was
made; while the burst is held back here there is none (R22, R103). -/
def State.noteHostLimits (s : State) : State :=
  let stamp (c : Cmd) : Cmd :=
    if !c.op.isBurst then c
    else match c.headBurst with
      | none => c
      | some q =>
        if !s.atHost c q then { c with limit := none }
        else if c.limit.isNone then { c with limit := some (s.time + s.hostTimeout) } else c
  if s.cores.any fun e => e.2.copyq.any fun c => c.op.isBurst then
    { s with cores := s.cores.map fun e => (e.1, { e.2 with copyq := e.2.copyq.map stamp }) }
  else s

/-- The end of a running self-test that may not wait for another cycle (R33). -/
def State.testsOver (s : State) : Bool :=
  s.tests.any fun t => decide (t.since + 2000000 * Config.unitsPerNs < s.time + Config.unitsPerCoreCycle s.mhz100)

/-- The cycles of `k` that may pass at once: none while a group may issue, a step of a group is due, a parked group's timeout has
passed or a self-test is at its end; one where that frees a pipe or ends the filing of threads; and not so many that a bin or an
overflow thread, a parked group, a ready group or a self-test passes its limit, nor a sample its tick (R33, R139, R140, R142, R153, R294). -/
def State.idleCycles (s : State) (k : Nat) : Nat :=
  if s.issuer.isSome || s.dueGroup.isSome || s.groups.any (·.timedOut s.clock) || s.testsOver then 0
  else
    let cycle := Config.unitsPerCoreCycle s.mhz100
    let old := s.cores.flatMap fun e => (e.2.bins.map fun b => b.since + e.2.binage - s.clock) ++
      (e.2.overflow.take 1).map fun f => f.at_ + e.2.binage - s.clock
    let groups := s.groups.filterMap fun g => match g.wait with
      | .park _ d _ _ _ => some (d - s.clock)
      | _ => if s.isReady g && !g.aged then some (g.ready + 1024 - s.clock) else none
    let tests := s.tests.map fun t => (t.since + 2000000 * Config.unitsPerNs - s.time) / cycle
    let samples := (dedup (s.teams.map (·.ctx))).filterMap fun c =>
      if s.sampling c then some (Tab.get 0 c s.sampleAt + s.samplePeriod c - s.clock) else none
    let next := if (State.issuer { s with spent := [] }).isSome || s.cores.any (fun e => !e.2.filing.isEmpty) then [1] else []
    (old ++ groups ++ tests ++ samples ++ next).foldl min k

/-- Cycles pass: the threads filed in the cycle that ends enter their bins (R142), the pipes are free again, the counter of cycles counts, the waiting forge entries are noted, requests that
a test holds have more time, and saves whose conditions have come complete. DEDUCED (log entry 62). -/
def State.pass (s : State) (k : Nat) : State :=
  let later := k * Config.unitsPerCoreCycle s.mhz100
  let held := if s.tests.isEmpty then [] else s.heldByTest
  let tired := s.stalls
  let s := s.cores.foldl (fun (s : State) e => if e.2.filing.isEmpty then s else s.settleFiling e.1) s
  let s := s.quads.foldl (fun (s : State) e => s.noteEntries e.1) s
  let s : State := { s.elapse k with spent := [] }
  let s : State := if tired.isEmpty then s
    else { s with groups := s.groups.map fun g => if tired.contains g.gid then { g with ready := s.clock } else g }
  let longer (p : Pending) : Pending := if held.contains p.id then { p with deadline := p.deadline.map (· + later) } else p
  let older (e : Sump) : Sump := if (s.fabric.ownersOf s.fabric.depth (.entry e.id)).any held.contains then { e with since := e.since + later } else e
  let s := if held.isEmpty then s
    else { s with fabric := { s.fabric with pending := s.fabric.pending.map longer, sumps := s.fabric.sumps.map older } }
  let s := (dedup (s.teams.map (·.core))).foldl (fun (s : State) n => s.bumpPerf n 0 k) s
  let s := s.quads.foldl (fun (s : State) e => s.noteEntries e.1) s
  s.noteHostLimits.settleRecords.settleSaves

/-- The model's own time step on request. -/
def State.passUpTo (s : State) (k : Nat) : State :=
  let n := s.idleCycles k
  if n = 0 then s else s.pass n

end Sys2Proof.Machine
end

