-- ==== Sys2Proof/Machine/Turn.lean ====
section
/-! DEFINITION. One turn of the package: a group issues the instruction at which it stands, a step of the package runs, time
passes, or the world outside acts; and which of these comes next. -/

namespace Sys2Proof.Machine

/-- What every turn leaves behind: no group is issuing, the free values are new ones, and the groups that waited to issue are
tried again, unless the turn did nothing but add one. DESIGN CHOICE (log entry 3). -/
def State.tidy (before after : State) : State :=
  { after with cur := none, via := [], free := after.free + 1,
               stalls := if before.stalls.length < after.stalls.length then after.stalls else [] }

def State.finish (before : State) : Host.Outcome State Fault Refusal → Host.Outcome State Fault Refusal
  | .next s => .next (before.tidy s)
  | .fault f => .fault f
  | .refused r => .refused r

/-- The state in which a group issues what stands at its program counter. -/
def State.issuing (s : State) (g : Group) (len : Nat) : State :=
  { s with cur := some { core := g.core, gid := g.gid, pc := g.pc, len } }

/-- A group at a clause boundary: the header is fetched and judged (R473); any other word there is illegal (R310). Threads whose
launches deliver different words there part first (R324). DEDUCED (log entry 57). -/
def State.atBoundary (s : State) (g : Group) : Host.Outcome State Fault Refusal :=
  match s.storedHeader g with
  | .error e => .next (s.takeFetchStop g e)
  | .ok w =>
    if !s.breakHit g && !(s.headerParts g w).isEmpty then .next (s.splitGroup g ((s.headerParts g w).map fun p => (p, id)))
    else match headerOf (overlayWord (s.leadLaunch g) g.pc w) with
    | some i => exec i (s.issuing g 4)
    | none => exec .unassignedEncoding (s.issuing g 4)

/-- A group in its clause: the instruction that its words and its launches' literals give runs; a header there, or no
encoding, is illegal (R310, R317). -/
def State.inClause (s : State) (g : Group) : Host.Outcome State Fault Refusal :=
  let s' := (s.presentLits g).issuing g (s.instrLen g)
  match decodeBytes (s.groupBytes g) with
  | .ok (.clauseHeader ..) => exec .unassignedEncoding s'
  | .ok i => exec i s'
  | .error _ => exec .unassignedEncoding s'

def State.issueGroup (s : State) (g : Group) : Host.Outcome State Fault Refusal :=
  if g.clause.isNone then s.atBoundary g else s.inClause g

/-- The TLBs that the accesses of an event go through: a group's at its clause, a copy engine's, or the last-level one of a stope (R174). -/
def State.viaOf (s : State) : Instr → List TlbPlace
  | .clauseBegin c _ => [.core c, .stope (stopeOfCore c)]
  | .bytesLand c _ _ _ | .burstDelivered c _ _ | .burstFailed c _ _ _ | .copyRingFault c => [.ahead c, .stope (stopeOfCore c)]
  | .passBoundary q | .seamEntryComplete q _ => [.stope (q / 32)]
  | .lodeOperation op => ((s.lodes.find? fun q => q.op == op).map fun q => TlbPlace.stope (stopeOfCore q.core)).toList
  | _ => []

/-- A park's timeout is judged as the last act of its cycle, which ends with it, so that every write of that cycle counts (R365).
DEDUCED (log entry 62). -/
def State.parkTurn (s : State) : Host.Outcome State Fault Refusal :=
  if !(s.groups.any (·.timedOut s.clock)) || s.issuer.isSome || s.due.isSome then .next s
  else match exec .parkTimeout s with
    | .next t => .next (t.pass 1)
    | r => r

/-- One turn. A group named by one issues only if it may, and no time passes over a group that may issue or over a release that is due (R139, R140).
DESIGN CHOICE (log entry 2). -/
def State.turn (s : State) : Turn → Host.Outcome State Fault Refusal
  | .event .parkTimeout => s.finish (State.parkTurn { s with cur := none, via := [] })
  | .event i => if s.behindPosted i then .next (s.tidy s) else s.finish (exec i { s with cur := none, via := s.viaOf i })
  | .issue core gid =>
    match s.group? gid with
    | some g =>
      if g.core = core ∧ s.mayIssue g = true ∧ s.firstOf g = true then
        s.finish (State.issueGroup { s with via := [.core core, .stope (stopeOfCore core)] } g)
      else .next (s.tidy s)
    | none => .next (s.tidy s)
  | .elapse k => .next (s.tidy (s.passUpTo k))
  | .env e => .next (s.tidy (s.outside e))

/-- What comes next where the agenda names nothing: a step that is due, else a group, else a cycle passes.
DESIGN CHOICE (log entry 2). -/
def State.nextTurn (s : State) : Turn :=
  match s.due with
  | some i => .event i
  | none =>
    match s.issuer with
    | some g => .issue g.core g.gid
    | none => if s.groups.any (·.timedOut s.clock) then .event .parkTimeout else .elapse 1

/-! ## An instruction placed as the next one -/

/-- Where the placed instruction stands: the second page of the context's virtual addresses. -/
def placedPc : DWord := 0x10000

/-- The tables that map it: a level-1, a level-2 and a level-3 entry, for a page that may be read, written and fetched. -/
def State.placeTables (s : State) : State :=
  ((s.putNat ⟨.pkg, 0x10000⟩ 8 0x20003).putNat ⟨.pkg, 0x20000⟩ 8 0x30003).putNat ⟨.pkg, 0x30008⟩ 8 0x40039

/-- A kernel of one thread with 320 registers. -/
def placedKernel : Kernel :=
  { kaddr := placedPc, entry := 0, codelen := 24, tx := 1, ty := 1, tz := 1, regs := 320, cr := 1, cc := 1, embgrp := 0, teammem := 4096,
    paramlen := 0, entries := [], patches := [] }

def placedLaunch (lid : Nat) : Launch :=
  { lid, ctx := 0, q := 0, pkt := 0, prio := 0, pinned := false, pod := false, kernel := placedKernel, params := [], gx := 1, gy := 1,
    gz := 1, claim := 0, accepted := 0, nextLin := 1, endLin := 1, list := [], claiming := false, claimed := true, skipped := none,
    starved := false, holds := false }

def placedTeam (tuid lid cuid : Nat) : Team :=
  { tuid, launch := lid, ctx := 0, core := 0, place := 0, cluster := cuid, index := 0, lin := 0, step := 0, share := [0], embers := [],
    lent := [], units := 40, tmBase := 0, tmLen := 4096, halted := false, saved := false }

/-- The group of the placed thread: at a clause boundary for a clause header, else in a clause of that one instruction. -/
def placedGroup (gid uid : Nat) (header : Bool) (words : List Word) (clock : Nat) : Group :=
  { gid, core := 0, ctx := 0, fam := gid, members := [uid], pc := placedPc,
    clause := if header then none else some { set1 := 15, set2 := 15, left := 1, long := false, words },
    isSealed := true, byLane := true, formed := clock, ready := clock, aged := false, wait := .none, bpSkip := none, redo := none }

/-- The words of an instruction are placed as the next to issue: context 0 exists with tables that map a page of code, a team
of one thread is resident on core 0, and its group stands at the instruction and has the next turn.
DEDUCED (log entry 8). -/
def State.placeWords (s : State) (words : List Word) : State :=
  let n := s.nextId
  let header := match words with | w :: _ => (headerOf w).isSome | [] => false
  let s := ((s.setReg (hifCtx 0 0) (2 ^ 31)).setReg (hifCtx 0 8) 0x10000).setReg (hifCtx 0 0x38) 0
  let s := s.placeTables.putBytes ⟨.pkg, 0x40000⟩ (words.flatMap bytesOfWord)
  let t : Thread := newThread n 0 0 (n + 1) .birth 0 320 n [] none
  { s with nextId := n + 5, threads := s.threads ++ [t], teams := s.teams ++ [placedTeam (n + 1) (n + 2) (n + 3)],
           launches := s.launches ++ [placedLaunch (n + 2)],
           clusters := s.clusters ++ [{ cuid := n + 3, launch := n + 2, lin := 0, count := 1 }],
           groups := s.groups ++ [placedGroup (n + 4) n header words s.clock], spent := [],
           agenda := .issue 0 (n + 4) :: s.agenda }

end Sys2Proof.Machine
end

