-- ==== Sys2Proof/Machine/Step.lean ====
section
/-! DEFINITION. The step: the agenda's next turn, or the one that is due. -/

namespace Sys2Proof.Machine

/-- One step of the package. DESIGN CHOICE (log entry 2). -/
def step (s : State) : Host.Outcome State Fault Refusal :=
  match s.agenda with
  | t :: rest => State.turn { s with agenda := rest } t
  | [] => s.turn s.nextTurn

/-- The state with an opcode-table word as the next instruction to issue. DEDUCED (log entry 8). -/
def State.withFetchWord (s : State) (nbits w : Nat) : State := s.placeWords (tableWords (w % 2 ^ nbits) 5)

end Sys2Proof.Machine
end

