-- ==== Sys2Proof/Safety.lean ====
section
/-! DEFINITION. What the claims call a good state, an instruction that is ready to issue, and what an issue leaves. -/

namespace Sys2Proof.Machine

/-- Every store of the package is in its canonical form (`Mem.wf`). -/
def State.MemWf (s : State) : Prop :=
  s.pkgMem.wf = true ∧ s.podMem.wf = true ∧ s.hostMem.wf = true ∧ s.die0.wf = true ∧ s.die1.wf = true ∧
  (∀ e ∈ s.teamMem, Mem.wf e.2 = true) ∧ (∀ e ∈ s.opBuf, Mem.wf e.2 = true) ∧
  ∀ i ∈ s.images, Mem.wf i.team = true ∧ Mem.wf i.opbuf = true

/-- A step that neither faults nor is refused. -/
def Answers (o : Host.Outcome State Fault Refusal) : Prop := ∃ s, o = .next s

/-- The group that issues, and the instruction's length. -/
def State.Issuing (s : State) (c : Cur) (g : Group) : Prop := s.cur = some c ∧ s.group? c.gid = some g

/-- An instruction that stands next to issue and passes the decoding checks of R272 (orders 1 to 3): no breakpoint matches, the
form is legal where it stands, and its registers lie within every member's allocation; and no register it reads is poisoned
(R32). -/
def State.Ready (s : State) (k : Opc) (o : Op) (c : Cur) (g : Group) : Prop :=
  s.Issuing c g ∧ s.breakHit g = false ∧ k.illegal o = false ∧ (k.transfer = true → g.atEnd = true) ∧
  (∀ t ∈ s.membersOf g, k.beyond o t.n = false) ∧ s.badReaders k o (s.executing g o) = []

/-- The names of the threads that execute an instruction (R304). -/
def State.uids (s : State) (g : Group) (o : Op) : List Nat := (s.executing g o).map (·.uid)

/-- What an instruction whose own effect made `e` of `s` leaves: its group stands past it, and the issue is counted (R139, R453). -/
def State.wentOn (s e : State) (k : Opc) (o : Op) (c : Cur) (g : Group) : State :=
  ((e.liftRegs (k.outs o) (writersOf k (s.executing g o))).onGroup g.gid fun h => h.past c.len k.long).noteIssue k g (s.executing g o).length

/-- The same for an instruction that has placed its group itself. -/
def State.wentTo (s e : State) (k : Opc) (o : Op) (g : Group) : State :=
  (e.liftRegs (k.outs o) (writersOf k (s.executing g o))).noteIssue k g (s.executing g o).length

/-- A stop that an instruction takes exactly (R269). -/
def State.stopped (s : State) (g : Group) (fs : List (Thread × Flt)) : State := s.takeStop g g.pc false fs

/-- A ready instruction completes, and each executing thread is changed by `f` and no other. -/
def Computes (k : Opc) (i : Op → Instr) (f : Op → Thread → Thread) : Prop :=
  ∀ (o : Op) (s : State) (c : Cur) (g : Group), s.Ready k o c g →
    exec (i o) s = .next (s.wentOn (s.onThreads (s.uids g o) (f o)) k o c g)

/-- The same for a value that the threads of the group decide together: the group is sealed, and some thread executes (R353). -/
def ComputesTogether (k : Opc) (i : Op → Instr) (f : Op → List Thread → Thread → Thread) : Prop :=
  ∀ (o : Op) (s : State) (c : Cur) (g : Group), s.Ready k o c g → g.isSealed = true → s.executing g o ≠ [] →
    exec (i o) s = .next (s.wentOn (s.onThreads (s.uids g o) (f o (s.executing g o))) k o c g)

/-- Operands A, B and C as numbers of the instruction's type (R254). -/
def opA (o : Op) (t : Thread) : Int := tyVal o.ty (t.src o.ty o.a)
def opB (o : Op) (t : Thread) : Int := tyVal o.ty (o.srcB t o.ty)
def opC (o : Op) (t : Thread) : Int := tyVal o.ty (o.srcC t o.ty)

/-- Operand A as the w bits of the type (R340). -/
def bitsA (o : Op) (t : Thread) : Nat := (t.src o.ty o.a).toNat

/-- Nothing of memory differs. -/
def SameMemory (s t : State) : Prop := ∀ p : PAddr, t.byteAt p = s.byteAt p

/-- A range of bytes holds a place. -/
def inRange (p : PAddr) (n : Nat) (q : PAddr) : Prop := q.space = p.space ∧ p.addr ≤ q.addr ∧ q.addr < p.addr + n

/-- An act of each lane in position order, each on what the one before it left: `Chained act s xs e` says that the acts on `xs`
lead from `s` to `e`. -/
def Chained (act : State → Thread → State → Prop) : State → List Thread → State → Prop
  | s, [], e => e = s
  | s, x :: xs, e => ∃ m, act s x m ∧ Chained act m xs e

/-- A ready instruction completes, its lanes acting one after another. `free` is what lets it issue. -/
def Acts (k : Opc) (i : Op → Instr) (free : State → List Thread → Prop) (act : Op → Group → State → Thread → State → Prop) : Prop :=
  ∀ (o : Op) (s e : State) (c : Cur) (g : Group), s.Ready k o c g → free s (s.executing g o) →
    Chained (act o g) s (s.executing g o) e → exec (i o) s = .next (s.wentOn e k o c g)

/-- No incomplete fence, acquire or wait of the threads holds their accesses back (R376, R377, R378). -/
def Unheld (_ : State) (xs : List Thread) : Prop := heldBack xs = false

/-- And every earlier access of theirs has been performed, as a release needs it (R233, R442).
DEDUCED (log entry 35). -/
def Drained (s : State) (xs : List Thread) : Prop := heldBack xs = false ∧ ∀ t ∈ xs, s.quiet t.uid = true

/-- A ready elected instruction: its elected thread, the first that executes, acts for the group (R392); where none executes, nothing
happens. -/
def Elects (k : Opc) (i : Op → Instr) (free : State → List Thread → Thread → Prop) (act : Op → Group → State → Thread → State → Prop) : Prop :=
  ∀ (o : Op) (s : State) (c : Cur) (g : Group), s.Ready k o c g →
    (s.executing g o = [] → exec (i o) s = .next (s.wentOn s k o c g)) ∧
    ∀ (t : Thread) (e : State), elected (s.executing g o) = some t → free s (s.executing g o) t → act o g s t e →
      exec (i o) s = .next (s.wentOn e k o c g)

/-- A forge instruction issues: nothing holds its thread back, and no `forge.rdy` of a thread that executes is incomplete (R417). -/
def ForgeFree (_ : State) (xs : List Thread) (t : Thread) : Prop := heldBack [t] = false ∧ ∀ u ∈ xs, u.rdy = 0

/-- A seam instruction issues: nothing holds its thread back, and its stores are done (R420). -/
def SeamFree (s : State) (_ : List Thread) (t : Thread) : Prop := heldBack [t] = false ∧ s.storing t.uid = false

/-- An elected instruction that finds no free entry: where its elected thread is the whole group, the group waits; else the elected
thread alone is held before it, and the others go on after it as a subgroup (R393, R421). -/
def SplitsOff (k : Opc) (i : Op → Instr) (free : State → List Thread → Thread → Prop) (full : Op → Group → State → Thread → Prop) : Prop :=
  ∀ (o : Op) (s : State) (c : Cur) (g : Group) (t : Thread), s.Ready k o c g → elected (s.executing g o) = some t →
    free s (s.executing g o) t → full o g s t →
    (g.members = [t.uid] → exec (i o) s = .next { s with stalls := g.gid :: s.stalls }) ∧
    (g.members ≠ [t.uid] → exec (i o) s = .next (s.wentTo ((s.uncount g.core 1).splitGroup g
      [([t.uid], id), (g.members.filter fun u => u != t.uid, fun h => h.past c.len true)]) k o g))

/-- A lane's access to a lode region stands with its walker: the thread's registers are as they were, it has taken a sequence number, and
neither memory nor the fabric has changed (R220, R223, R276). -/
def AsksWalker (s e : State) (g : Group) (t : Thread) (desc : Nat) (va : DWord) (kind : LodeKind) : Prop :=
  (∃ q : LodeReq, e.lodes = s.lodes ++ [q] ∧ q.op = s.nextId ∧ q.ctx = g.ctx ∧ q.core = g.core ∧ q.gid = g.gid ∧ q.uid = t.uid ∧
    q.flag = g.flagNow ∧ q.region = desc ∧ q.va = va ∧ q.kind = kind ∧ q.pc = g.pc ∧ q.seq = t.cmdseq ∧ q.refused = none ∧ q.halted = none) ∧
  (∀ x, s.thread? t.uid = some x → ∃ y, e.thread? t.uid = some y ∧ y.cmdseq = x.cmdseq + 1 ∧ y.regs = x.regs ∧ y.preds = x.preds) ∧
  (∀ u, u ≠ t.uid → e.thread? u = s.thread? u) ∧ e.fabric = s.fabric ∧ SameMemory s e

/-- A step that writes one memory-mapped register, and nothing else of the state. -/
def PutsReg (s : State) (o : Host.Outcome State Fault Refusal) (off v : Nat) : Prop :=
  ∃ t, o = .next t ∧ t.reg off = v ∧ (∀ r, r ≠ off → t.reg r = s.reg r) ∧ t = { s with regs := t.regs }

/-- What one lane of a global access that passed its checks leaves: a load that L1 serves writes its register and asks nothing; any
other, a store and an atomic put one request of their operation, operand and place before the core's collar, whose reply is awaited,
and take a command sequence number (R45, R177, R276, R370, R371, R374). -/
def AsksFor (s e : State) (g : Group) (t : Thread) (va : DWord) (p : PAddr) (op : ReqOp) (opnd : DWord) (dreg : Option Nat)
    (ty : Ty) : Prop :=
  (∃ x : Req, e.fabric.arrivals = s.fabric.arrivals ++ [(.collar g.core, x)] ∧ x.addr = p ∧ x.op = op ∧ x.opnd = opnd ∧
    x.back = .owner s.nextId ∧ x.threads = [t.uid]) ∧
  (∃ q ∈ e.fabric.pending, q.id = s.nextId ∧ q.owner = .thread t.uid ∧ q.dreg = dreg ∧ q.ty = ty ∧ q.va = va ∧ q.at_ = p ∧ q.op = op ∧
    q.flag = g.flagNow ∧ q.pc = g.pc ∧ q.seq = t.cmdseq) ∧
  (∀ x, s.thread? t.uid = some x → ∃ y, e.thread? t.uid = some y ∧ y.cmdseq = x.cmdseq + 1 ∧ y.regs = x.regs ∧ y.preds = x.preds) ∧
  (∀ u, u ≠ t.uid → e.thread? u = s.thread? u) ∧ SameMemory s e

/-- The tile that a fill names takes it now (R185). -/
def TileTakes (s : State) (g : Group) (idx : Option Nat) : Prop :=
  ∀ i t, idx = some i → s.tile? (quadOfCore g.core) i = some t → t.canFill = true

end Sys2Proof.Machine

namespace Sys2Proof

/-- The registers that a computing instruction writes (R254, R335, R342, R347, R355). -/
def Opc.dests (k : Opc) (o : Op) : List Nat :=
  match k with
  | .cmp | .pset | .fcmp | .fcls | .voteAny | .voteAll | .voteEq => []
  | .voteBallot => [o.d.toNat, o.d.toNat + 1, o.d.toNat + 2, o.d.toNat + 3]
  | .lea | .leaLabel | .madw | .movW64 | .moviW64 => [o.d.toNat, o.d.toNat + 1]
  | .movSpecial => if o.a.toNat = 0x20 then [o.d.toNat, o.d.toNat + 1] else [o.d.toNat]
  | .fcvt => if o.fcvtUnpack || o.ty.isPair then [o.d.toNat, o.d.toNat + 1] else [o.d.toNat]
  | .popc | .clz | .ctz | .perm | .mov | .moviW32 | .bstatSeq | .quant | .dequant | .fadd | .fsub | .fmul | .ffma | .fmin | .fmax
  | .frcp | .frsq | .fsqrt | .fex2 | .flg2 | .frnd => [o.d.toNat]
  | _ => if o.ty.isPair then [o.d.toNat, o.d.toNat + 1] else [o.d.toNat]

/-- The computing instructions that write a predicate, named by D[2:0] (R344, R345, R350, R351, R355). -/
def Opc.writesPred : Opc → Bool
  | .cmp | .pset | .fcmp | .fcls | .voteAny | .voteAll | .voteEq => true
  | _ => false

end Sys2Proof
end

