-- ==== Sys2Proof/Certificates/Slice0/Obligations.lean ====
section
/-! DEFINITION. The statements for the provers. -/

open Sys2Proof Sys2Proof.Machine

/-! ## Encoding -/

/-- Every well-formed instruction of the code, every operand at every value that its encoding admits, reads back from its own
bytes, whatever bytes follow (R302 to R309, R317). -/
def Obligations.DecodeAfterEncode : Prop :=
  ∀ (i : Instr) (rest : List Byte), encode i ≠ [] → i.wf = true → decodeBytes (encodeBytes i ++ rest) = .ok i

/-- What the decoder answers is well formed, and but for `brk` (R363: what stands after its first word is ignored) its encoding is
the words it was read from. -/
def Obligations.EncodeAfterDecode : Prop :=
  ∀ (ws : List Word) (i : Instr), decode ws = .ok i →
    i.wf = true ∧ ((∀ o, i ≠ .brk o) → ws.take (encode i).length = encode i)

/-- Words written out bit by bit from the layouts of R303, R305 and R309, and the words worked in R366. -/
def Obligations.WorkedWordsDecode : Prop :=
  (∃ o, decode [0x07185708] = .ok (.add o) ∧ o.d = 5 ∧ o.a = 6 ∧ o.b = 7 ∧ o.g = 7 ∧ o.neg = false ∧ o.ty = .w32) ∧
  (∃ o, decode [0x40082909, 0x00000064, 0] = .ok (.sub o) ∧ o.d = 2 ∧ o.a = 2 ∧ o.lit = 100 ∧ o.g = 1 ∧ o.neg = true) ∧
  (∃ o, decode [0x09112730] = .ok (.cmp o) ∧ o.d = 0x12 ∧ o.a = 4 ∧ o.b = 9 ∧ o.ty = .i32) ∧
  (∃ o, decode [0x09000742, 0x580C0446, 0] = .ok (.fadd o) ∧ o.d = 70 ∧ o.a = 2 ∧ o.b = 3 ∧ o.ty = .f16 ∧ o.x2 = true ∧ o.rm = .rz) ∧
  (∃ o, decode [0x00000771, 0xFFFFFFC0, 0xFFFFFFFF] = .ok (.bra o) ∧ o.lit = -0x40) ∧
  decode [0x4F000004] = .ok (.clauseHeader 4 15 0 0) ∧
  decode [0xC0000774] = .ok (.brk (brkOp .base)) ∧
  decode [0x00000000] = .error .unassigned

/-! ## The machine -/

/-- A turn runs the instruction that the bytes at the group's program counter decode to. The group that the agenda names is in a
clause, may issue and comes first at its pipe (R139): its clause's words, patched for its launches (R324), decode to `i`, which is no clause header, and the
step is `exec i` with the group issuing, within what every turn leaves (`State.finish`).
Where the spec is silent it rests on the model's choice in log entry 2. -/
def Obligations.StepRunsDecoded : Prop :=
  ∀ (s : State) (core : Nat) (g : Group) (rest : List Turn) (i : Instr),
    s.agenda = .issue core g.gid :: rest →
    let p : State := { s with agenda := rest }
    let q : State := { p with via := [.core core, .stope (stopeOfCore core)] }
    p.group? g.gid = some g → g.core = core → p.mayIssue g = true → p.firstOf g = true → g.clause ≠ none →
    decodeBytes (q.groupBytes g) = .ok i → (∀ a b c d, i ≠ .clauseHeader a b c d) →
    step s = p.finish (exec i ((q.presentLits g).issuing g (q.instrLen g)))

/-- Where the agenda names nothing, a step of the package that is due runs; else the group that R139 picks issues; else the parks whose
timeout has come are judged, which ends the cycle (R365); else a core cycle passes. A write of a register that the agenda names does
nothing while an earlier aperture write is on its way (R79). A group at a clause boundary runs the row of its clause header (R309, R310),
or that of the unassigned encodings; one whose launches deliver different words there is parted first (R324).
Where the spec is silent it rests on the model's choices in log entries 2, 9, and on its readings in log entries 8, 57, 62. -/
def Obligations.TurnsFollowTheAgenda : Prop :=
  (∀ (s : State), s.agenda = [] →
     (∀ i, s.due = some i → i ≠ .parkTimeout → s.behindPosted i = false → step s = s.finish (exec i { s with cur := none, via := s.viaOf i })) ∧
     (∀ g, s.due = none → s.issuer = some g → step s = s.turn (.issue g.core g.gid)) ∧
     (s.due = none → s.issuer = none → s.groups.any (·.timedOut s.clock) = true →
       ∃ t, exec .parkTimeout { s with cur := none, via := [] } = .next t ∧ step s = .next (s.tidy (t.pass 1))) ∧
     (s.due = none → s.issuer = none → s.groups.any (·.timedOut s.clock) = false → 0 < Config.unitsPerCoreCycle s.mhz100 →
       step s = .next (s.tidy (s.pass 1)))) ∧
  (∀ (s : State) (i : Instr) (rest : List Turn), s.agenda = .event i :: rest → i ≠ .parkTimeout →
     let p : State := { s with agenda := rest }
     (p.behindPosted i = true → step s = .next (p.tidy p)) ∧
     (p.behindPosted i = false → step s = p.finish (exec i { p with cur := none, via := p.viaOf i }))) ∧
  (∀ (s : State) (core : Nat) (g : Group) (rest : List Turn) (w : Word),
     s.agenda = .issue core g.gid :: rest →
     let p : State := { s with agenda := rest }
     let q : State := { p with via := [.core core, .stope (stopeOfCore core)] }
     p.group? g.gid = some g → g.core = core → p.mayIssue g = true → p.firstOf g = true → g.clause = none →
     q.storedHeader g = .ok w →
     (q.breakHit g = true ∨ q.headerParts g w = [] →
       step s = p.finish (exec ((headerOf (overlayWord (q.leadLaunch g) g.pc w)).getD .unassignedEncoding) (q.issuing g 4))) ∧
     (q.breakHit g = false → q.headerParts g w ≠ [] →
       step s = p.finish (.next (q.splitGroup g ((q.headerParts g w).map fun ids => (ids, id))))))

/-- No step of the machine stops it: whatever the state, a step answers a next state. What the spec calls a fault is taken as a stop
of a group, a command or a context (R269), and the machine goes on. -/
def Obligations.EveryStepAnswers : Prop := ∀ s : State, Answers (step s)

/-- Every step keeps every store of memory in its canonical form: addresses rise, and no listed byte reads as unlisted.
Where the spec is silent it rests on the model's choice in log entry 1. -/
def Obligations.StepKeepsMemoryCanonical : Prop := ∀ s t : State, s.MemWf → step s = .next t → t.MemWf

/-- The state after reset (R37, R39): every store is in canonical form, and die memory, team memory and operand buffers read 0; no
thread, group, team, launch or packet exists, no word is poisoned, `$clock` is 0, and the registers hold the values of R102, R103, R27, R73, R74, R130, R131,
R104, R105, R289 and R296.
Where the spec is silent it rests on the model's choices in log entries 1, 5, 6. -/
def Obligations.ResetState : Prop :=
  State.reset.MemWf ∧
  (∀ k a, State.reset.byteAt ⟨.die k, a⟩ = 0 ∧ State.reset.byteAt ⟨.team k, a⟩ = 0 ∧ State.reset.byteAt ⟨.opbuf k, a⟩ = 0) ∧
  State.reset.threads = [] ∧ State.reset.groups = [] ∧ State.reset.teams = [] ∧ State.reset.launches = [] ∧ State.reset.pkts = [] ∧
  State.reset.poison = [] ∧ State.reset.clock = 0 ∧
  State.reset.reg 0 = 0x104001 ∧ State.reset.reg 8 = 50 ∧ State.reset.reg (mgt 8) = 2400 ∧
  State.reset.reg (shf 0x20) = 50 ∧ State.reset.reg (shf 0x24) = 0x2448 ∧ State.reset.reg (ons 0) = 100 ∧ State.reset.reg (ons 4) = 4096 ∧
  (∀ c < 64, State.reset.reg (onsCtx c 0xC) = 5000 ∧ State.reset.reg (hifCtx c 0x20) = 6 ∧ State.reset.reg (hifCtx c 0) = 0 ∧
    State.reset.reg (dbgCtx c 8) = 10 ∧ ∀ q < 16, State.reset.reg (hifQ c q 8) = 4) ∧
  State.reset.reg (dbg 0) = 0 ∧ State.reset.reg (dbg 8) = 0x4040 ∧ ∀ k < 64, State.reset.reg (dbg (0x100 + 8 * k)) = 0x400010

/-- The decoding checks come in the order of R272 and stop the group exactly (R269), for every instruction that the group stands at
and whatever its guards: a breakpoint before an illegal form, and that before a register beyond the allocation, which each thread that
names one takes, in one stop with what the later checks find: the instruction's own checks, `body`, of the threads that execute it and
name no such register, and the poisoned registers that those read (R32). `body` is what the instruction does once its decoding checks
pass (`State.issue`). -/
def Obligations.DecodingChecksInOrder : Prop :=
  ∀ (k : Opc) (o : Op), ∃ body : State → Group → List Thread → Body,
    (∀ s : State, exec (Instr.ofOpc k o) s = s.issue k o (body s)) ∧
    ∀ (s : State) (c : Cur) (g : Group), s.Issuing c g →
    let low := (s.membersOf g).filter fun t => k.beyond o t.n
    let rest := (s.executing g o).filter fun t => !low.any fun u => u.uid == t.uid
    let bad := s.badReaders k o (s.executing g o)
    (s.breakHit g = true → exec (Instr.ofOpc k o) s = .next (s.stopped g (allTake (s.membersOf g) .brk))) ∧
    (s.breakHit g = false → (k.illegal o = true ∨ (k.transfer = true ∧ g.atEnd = false)) →
      exec (Instr.ofOpc k o) s = .next (s.stopped g (allTake (s.membersOf g) .illegalOp))) ∧
    (s.breakHit g = false → k.illegal o = false → (k.transfer = true → g.atEnd = true) →
      (s.membersOf g).any (fun t => k.beyond o t.n) = true →
      exec (Instr.ofOpc k o) s = .next (s.stopped g (mixedStop k low bad (s.executing g o) (body s g))) ∧
      (∀ f ∈ allTake low .regRange, f ∈ mixedStop k low bad (s.executing g o) (body s g)) ∧
      ∀ f ∈ mixedStop k low bad (s.executing g o) (body s g),
        f ∈ allTake low .regRange ∨ (∃ fs, body s g rest = .stop fs ∧ f ∈ fs) ∨
        f ∈ allTake (rest.filter fun t => bad.any fun u => u.uid == t.uid) .eccFatal)

/-- What taking a stop leaves (R269, R274, R281): the group waits on the stop and keeps its program counter and clause; no thread, no
memory and no other group changes; every faulting pair of class and page has one record, which names the threads that take it, the
records stand in the order of R272 (`keyLe` on `Flt.key`), and the last of them is marked so; and STOPPED is set if and only if a
class that stops the context is among them, or it was set.
Where the spec is silent it rests on the model's reading in log entry 59. -/
def Obligations.StopIsExact : Prop :=
  ∀ (s : State) (g : Group) (pc : DWord) (b : Bool) (fs : List (Thread × Flt)),
    let t := s.takeStop g pc b fs
    t.threads = s.threads ∧ SameMemory s t ∧
    (∀ h ∈ s.groups, h.gid ≠ g.gid → h ∈ t.groups) ∧
    (∀ h ∈ s.groups, h.gid = g.gid → ({ h with wait := .fault s.nextId } : Group) ∈ t.groups) ∧
    (∃ (keys : List (Nat × Nat × Cls)) (rs : List FRec), t.records = s.records ++ rs ∧
      (∀ r ∈ rs, r.stop = s.nextId ∧ r.ctx = g.ctx ∧ r.pc = pc ∧ r.core = g.core) ∧
      keys.Nodup ∧ keys.Pairwise (fun a b => keyLe a b = true) ∧ (∀ k, k ∈ keys ↔ ∃ x ∈ fs, x.2.key = k) ∧
      List.Forall₂ (fun k r => r.code = k.2.2.code ∧ ∀ u, u ∈ r.named ↔ ∃ x ∈ fs, x.2.key = k ∧ x.1.uid = u) keys rs ∧
      ∀ i (h : i < rs.length), rs[i].isLast = decide (i + 1 = rs.length)) ∧
    (g.ctx < 64 → t.ctxStopped g.ctx = (s.ctxStopped g.ctx || fs.any fun x => x.2.cls.stopsContext))

/-! ## Integer instructions (R337 to R348) -/

/-- Integer arithmetic (R338): r from the operands read as T, written wrapped or saturated (R337); `lea` of a pair and a signed index,
`lea` of a label, and the wide product `madw`. -/
def Obligations.IntegerArithmetic : Prop :=
  Computes .add .add (fun o t => t.dst o.ty o.d (tyWrite o.ty o.sat (opA o t + opB o t))) ∧
  Computes .sub .sub (fun o t => t.dst o.ty o.d (tyWrite o.ty o.sat (opA o t - opB o t))) ∧
  Computes .mul .mul (fun o t => t.dst o.ty o.d (tyWrite o.ty o.sat (opA o t * opB o t))) ∧
  Computes .mad .mad (fun o t => t.dst o.ty o.d (tyWrite o.ty o.sat (opA o t * opB o t + opC o t))) ∧
  Computes .mulh .mulh (fun o t => t.dst o.ty o.d (tyWrite o.ty o.sat ((opA o t * opB o t).fdiv (2 ^ o.ty.bits)))) ∧
  Computes .min .min (fun o t => t.dst o.ty o.d (tyWrite o.ty o.sat (min (opA o t) (opB o t)))) ∧
  Computes .max .max (fun o t => t.dst o.ty o.d (tyWrite o.ty o.sat (max (opA o t) (opB o t)))) ∧
  Computes .abs .abs (fun o t => t.dst o.ty o.d (tyWrite o.ty o.sat ((opA o t).natAbs : Int))) ∧
  Computes .lea .lea (fun o t => t.setPair o.d.toNat (t.pair o.a.toNat + ((o.srcB32 t).signExtend 64 <<< o.aux.toNat))) ∧
  (∀ (o : Op) (s : State) (c : Cur) (g : Group), s.Ready .leaLabel o c g →
    exec (.leaLabel o) s =
      .next (s.wentOn (s.onThreads (s.uids g o) fun t => t.setPair o.d.toNat (g.pc + o.litFor t)) .leaLabel o c g)) ∧
  Computes .madw .madw (fun o t => t.setPair o.d.toNat
    (BitVec.ofInt 64 (opA o t * tyVal o.ty ((o.srcB32 t).setWidth 64)) + o.srcC t .w64))

/-- `div` and `rem` complete where no executing thread's b is 0, with the quotient rounded toward zero; where one's is, the group stops
exactly with DIV_ZERO in those threads (R338, R339).
Where the spec is silent it rests on the model's choice in log entry 10. -/
def Obligations.DivideAndRemainder : Prop :=
  ∀ (o : Op) (s : State) (c : Cur) (g : Group),
    (s.Ready .div o c g → (∀ t ∈ s.executing g o, opB o t ≠ 0) →
      exec (.div o) s = .next (s.wentOn (s.onThreads (s.uids g o) fun t =>
        t.dst o.ty o.d (tyWrite o.ty false ((opA o t).tdiv (opB o t)))) .div o c g)) ∧
    (s.Ready .rem o c g → (∀ t ∈ s.executing g o, opB o t ≠ 0) →
      exec (.rem o) s = .next (s.wentOn (s.onThreads (s.uids g o) fun t =>
        t.dst o.ty o.d (tyWrite o.ty false (opA o t - opB o t * (opA o t).tdiv (opB o t)))) .rem o c g)) ∧
    (∀ t ∈ s.executing g o, opB o t = 0 →
      (s.Ready .div o c g → exec (.div o) s = .next (s.stopped g
        (allTake ((s.executing g o).filter fun t => opB o t = 0) .divZero))) ∧
      (s.Ready .rem o c g → exec (.rem o) s = .next (s.stopped g
        (allTake ((s.executing g o).filter fun t => opB o t = 0) .divZero))))

/-- Logical instructions and shifts (R340): their majors and codes, their types, and r. The count is bits [7:0] of one register or
literal. -/
def Obligations.LogicAndShifts : Prop :=
  Computes .and .and (fun o t => t.dst o.ty o.d (t.src o.ty o.a &&& o.srcB t o.ty)) ∧
  Computes .or .or (fun o t => t.dst o.ty o.d (t.src o.ty o.a ||| o.srcB t o.ty)) ∧
  Computes .xor .xor (fun o t => t.dst o.ty o.d (t.src o.ty o.a ^^^ o.srcB t o.ty)) ∧
  Computes .andn .andn (fun o t => t.dst o.ty o.d (t.src o.ty o.a &&& ~~~(o.srcB t o.ty))) ∧
  Computes .not .not (fun o t => t.dst o.ty o.d (~~~(t.src o.ty o.a))) ∧
  Computes .shl .shl (fun o t => t.dst o.ty o.d (BitVec.ofNat 64
    (if o.ty.bits ≤ o.shiftCount t then 0 else bitsA o t * 2 ^ o.shiftCount t % 2 ^ o.ty.bits))) ∧
  Computes .shr .shr (fun o t => t.dst o.ty o.d (BitVec.ofNat 64
    (if o.ty.bits ≤ o.shiftCount t then 0 else bitsA o t / 2 ^ o.shiftCount t))) ∧
  Computes .sar .sar (fun o t => t.dst o.ty o.d (BitVec.ofNat 64
    ((((bitsA o t : Int) - (if bitAt (bitsA o t) (o.ty.bits - 1) then 2 ^ o.ty.bits else 0)).fdiv
      (2 ^ min (o.shiftCount t) (o.ty.bits - 1)) % 2 ^ o.ty.bits).toNat))) ∧
  Computes .rol .rol (fun o t => t.dst o.ty o.d (BitVec.ofNat 64
    ((bitsA o t * 2 ^ (o.shiftCount t % o.ty.bits) + bitsA o t / 2 ^ (o.ty.bits - o.shiftCount t % o.ty.bits)) % 2 ^ o.ty.bits))) ∧
  (∀ (o : Op) (t : Thread), o.shiftCount t = bits (if o.len.hasLit then (o.litFor t).toNat else (t.reg o.b.toNat).toNat) 7 0) ∧
  [Opc.and, .or, .xor, .andn, .not, .shl, .shr, .sar, .rol].map (fun k => (k.row.major, k.row.funcs)) =
    [(7, [0]), (7, [1]), (7, [2]), (7, [3]), (7, [4]), (8, [0]), (8, [1]), (8, [2]), (8, [3])] ∧
  ∀ (k : Opc) (o : Op), k ∈ [Opc.and, .or, .xor, .andn, .not, .shl, .shr, .sar, .rol] → o.wf k = true →
    o.ty = .w32 ∨ (o.len.isExt = true ∧ o.ty = .w64)

/-- Fields, counts, bytes and selection (R341 to R343): their majors and codes, types and operands, and r. -/
def Obligations.BitsAndBytes : Prop :=
  Computes .bfe .bfe (fun o t => t.dst o.ty o.d (BitVec.ofInt 64
    (let pos := bits (o.srcB32 t).toNat 7 0
     let len := bits (o.srcB32 t).toNat 15 8
     let l := min len (o.ty.bits - pos)
     let f := bitsA o t / 2 ^ pos % 2 ^ l
     if len = 0 ∨ o.ty.bits ≤ pos then 0 else if o.ty.isSigned && bitAt f (l - 1) then (f : Int) - 2 ^ l else f))) ∧
  Computes .bfi .bfi (fun o t => t.dst o.ty o.d (BitVec.ofNat 64
    (let pos := bits (o.srcB32 t).toNat 7 0
     let len := bits (o.srcB32 t).toNat 15 8
     if len = 0 ∨ o.ty.bits ≤ pos then (o.srcC t o.ty).toNat
     else setBits (o.srcC t o.ty).toNat (pos + min len (o.ty.bits - pos) - 1) pos (bitsA o t)))) ∧
  Computes .popc .popc (fun o t => t.setReg o.d.toNat (BitVec.ofNat 32 ((List.range o.ty.bits).countP fun i => bitAt (bitsA o t) i))) ∧
  Computes .clz .clz (fun o t => t.setReg o.d.toNat
    (BitVec.ofNat 32 ((bitList o.ty.bits (bitsA o t)).reverse.takeWhile (!·)).length)) ∧
  Computes .ctz .ctz (fun o t => t.setReg o.d.toNat (BitVec.ofNat 32 ((bitList o.ty.bits (bitsA o t)).takeWhile (!·)).length)) ∧
  Computes .brev .brev (fun o t => t.dst o.ty o.d (BitVec.ofNat 64 (natOfBits (bitList o.ty.bits (bitsA o t)).reverse))) ∧
  Computes .perm .perm (fun o t => t.setReg o.d.toNat
    (BitVec.ofNat 32 (natOfBytes ((List.range 4).map fun i =>
      let sel := bits (o.srcC t .w32).toNat (4 * i + 3) (4 * i)
      let src := bytesOfWord (t.reg o.a.toNat) ++ bytesOfWord (o.srcB32 t)
      if bitAt sel 3 then (0 : Byte) else src.getD (sel % 8) 0)))) ∧
  Computes .sel .sel (fun o t => t.dst o.ty o.d (if t.pred o.aux.toNat then t.src o.ty o.a else o.srcB t o.ty)) ∧
  [Opc.bfe, .bfi, .popc, .clz, .ctz, .brev, .perm, .sel].map (fun k => (k.row.major, k.row.funcs)) =
    [(9, [0]), (9, [1]), (10, [0]), (10, [1]), (10, [2]), (10, [3]), (11, [0]), (11, [4])] ∧
  (∀ k : Opc, k.row.major = 11 → k = .perm ∨ k = .sel) ∧
  (∀ (o : Op) (t : Thread) (ty : Ty), o.srcC t ty = t.src ty (if o.len.isExt then o.c else o.d)) ∧
  (∀ (o : Op) (t : Thread), o.srcB32 t = if o.len.hasLit then (o.litFor t).setWidth 32 else t.reg o.b.toNat) ∧
  ∀ (o : Op),
    (o.wf .bfe = true → o.ty = .w32 ∨ (o.len.isExt = true ∧ o.ty ∈ [Ty.i32, .i64, .w64])) ∧
    (∀ k ∈ [Opc.bfi, .popc, .clz, .ctz, .brev, .sel], o.wf k = true → o.ty = .w32 ∨ (o.len.isExt = true ∧ o.ty = .w64)) ∧
    (o.wf .perm = true → o.ty = .w32) ∧ (o.wf .sel = true → o.len = .ext) ∧
    ∀ k ∈ [Opc.popc, .clz, .ctz, .brev], o.wf k = true → o.len.hasLit = false

/-- Comparisons, predicates, moves and conversions (R344 to R348), and the command sequence number (R276, R381). -/
def Obligations.ComparesAndMoves : Prop :=
  Computes .cmp .cmp (fun o t => t.setPred (o.d.toNat % 8) (cmpCode (o.d.toNat / 8) (opA o t) (opB o t))) ∧
  Computes .pset .pset (fun o t => t.setPred (o.d.toNat % 8)
    (psetCode (if o.len.isExt then o.aux.toNat else o.d.toNat / 8) (t.pred o.a.toNat) (t.pred o.b.toNat))) ∧
  Computes .mov .mov (fun o t => t.setReg o.d.toNat (t.reg o.a.toNat)) ∧
  Computes .movW64 .movW64 (fun o t => t.setPair o.d.toNat (t.pair o.a.toNat)) ∧
  (∀ (o : Op) (s : State) (c : Cur) (g : Group), s.Ready .movSpecial o c g →
    exec (.movSpecial o) s = .next (s.wentOn (s.onThreads (s.uids g o) fun t =>
      if o.a.toNat = 0x20 then t.setPair o.d.toNat (BitVec.ofNat 64 s.clock)
      else t.setReg o.d.toNat (special s g t o.a.toNat)) .movSpecial o c g)) ∧
  Computes .moviW32 .moviW32 (fun o t => t.setReg o.d.toNat ((o.constant t).setWidth 32)) ∧
  Computes .moviW64 .moviW64 (fun o t => t.setPair o.d.toNat (o.constant t)) ∧
  Computes .cvt .cvt (fun o t => t.dst o.ty o.d (tyWrite o.ty o.sat (tyVal o.srcTy (t.src o.srcTy o.a)))) ∧
  Computes .bstatSeq .bstatSeq (fun o t => t.setReg o.d.toNat t.cmdseq)

/-- What an executing thread's destination reads as after `add`, as a number of T (R254, R337): the sum clamped to T's limits with
`.sat`, and congruent to the sum modulo 2^w within T's limits without; and every other register of every thread reads as before. The
destination lies within the thread's registers. -/
def Obligations.AddWrapsOrSaturates : Prop :=
  ∀ (o : Op) (s : State) (c : Cur) (g : Group) (u : Nat) (x : Thread), s.Ready .add o c g → o.wf .add = true →
    s.thread? u = some x → o.d.toNat + tyRegs o.ty ≤ x.regs.length →
    ∃ t y, exec (.add o) s = .next t ∧ t.thread? u = some y ∧
      (u ∈ s.uids g o →
        (o.sat = true → tyVal o.ty (y.src o.ty o.d) = max (tyMin o.ty) (min (tyMax o.ty) (opA o x + opB o x))) ∧
        (o.sat = false → ∃ n : Int, tyVal o.ty (y.src o.ty o.d) = opA o x + opB o x + n * 2 ^ o.ty.bits) ∧
        tyMin o.ty ≤ tyVal o.ty (y.src o.ty o.d) ∧ tyVal o.ty (y.src o.ty o.d) ≤ tyMax o.ty) ∧
      (∀ r, u ∉ s.uids g o ∨ r < o.d.toNat ∨ o.d.toNat + tyRegs o.ty ≤ r → y.reg r = x.reg r) ∧ y.preds = x.preds

/-! ## Floating instructions (R349 to R352) -/

/-- One rounding of an exact value of the operands as T, or of each pair of halves with `.x2` (R251, R253, R257, R349); comparisons, classes
and conversions with a floating side (R350 to R352).
Where the spec is silent it rests on the model's reading in log entry 15. -/
def Obligations.FloatInstructions : Prop :=
  (let one (o : Op) (f : FV → FV) (t : Thread) : Thread :=
     t.setReg o.d.toNat (halves1 o (fun a => (fmtOf o.ty).round o.rm false (f ((fmtOf o.ty).val a))) (t.reg o.a.toNat))
   let two (o : Op) (f : FV → FV → FV) (t : Thread) : Thread :=
     t.setReg o.d.toNat (halves2 o (fun a b => (fmtOf o.ty).round o.rm false (f ((fmtOf o.ty).val a) ((fmtOf o.ty).val b)))
       (t.reg o.a.toNat) (o.srcB32 t))
   Computes .fadd .fadd (fun o => two o (FV.add o.rm)) ∧
   Computes .fsub .fsub (fun o => two o fun a b => FV.add o.rm a b.negate) ∧
   Computes .fmul .fmul (fun o => two o FV.mul) ∧
   Computes .ffma .ffma (fun o t => t.setReg o.d.toNat (halves3 o
     (fun a b c => (fmtOf o.ty).round o.rm false
       (FV.add o.rm (((fmtOf o.ty).val a).mul ((fmtOf o.ty).val b)) ((fmtOf o.ty).val c)))
     (t.reg o.a.toNat) (o.srcB32 t) ((o.srcC t .f32).setWidth 32))) ∧
   Computes .fmin .fmin (fun o => two o FV.fmin) ∧ Computes .fmax .fmax (fun o => two o FV.fmax) ∧
   Computes .frcp .frcp (fun o => one o fun a => FV.div (.fin false 1 0) a) ∧
   Computes .frsq .frsq (fun o => one o FV.rsqrt) ∧ Computes .fsqrt .fsqrt (fun o => one o FV.sqrt) ∧
   Computes .fex2 .fex2 (fun o => one o FV.exp2) ∧ Computes .flg2 .flg2 (fun o => one o FV.log2) ∧
   Computes .frnd .frnd (fun o => one o (FV.integral o.rm))) ∧
  (Computes .fcmp .fcmp (fun o t => t.setPred (o.d.toNat % 8) (fcmpCode (o.d.toNat / 8)
     ((fmtOf o.ty).val ((t.reg o.a.toNat).toNat % 2 ^ (fmtOf o.ty).width))
     ((fmtOf o.ty).val ((o.srcB32 t).toNat % 2 ^ (fmtOf o.ty).width)))) ∧
   Computes .fcls .fcls (fun o t => t.setPred (o.d.toNat % 8)
     (bitAt (o.srcB32 t).toNat ((fmtOf o.ty).classOf ((t.reg o.a.toNat).toNat % 2 ^ (fmtOf o.ty).width)))) ∧
   Computes .fcvt .fcvt (fun o t =>
     let half (x : Word) : Word := (convert o o.srcTy o.ty (x.setWidth 64)).setWidth 32
     if o.fcvtPack then t.setReg o.d.toNat (half (t.reg o.a.toNat) ||| (half (t.reg o.b.toNat) <<< 16))
     else if o.fcvtUnpack then
       (t.setReg o.d.toNat (half (t.reg o.a.toNat &&& 0xFFFF))).setReg (o.d.toNat + 1) (half (t.reg o.a.toNat >>> 16))
     else t.dst o.ty o.d (convert o o.srcTy o.ty (t.src o.srcTy o.a))))

/-! ## Cross-lane instructions (R353 to R357) -/

/-- The cross-lane instructions complete in a sealed group: each present lane receives what the present lanes together give
(R353 to R356), a segment of 16 lanes making one kx block or receiving its elements (R263, R357). In a group that is not sealed, one
that some thread executes stops the group with SEAL_ILLEGAL in every executing thread; where no thread executes it, nothing happens.
Where the spec is silent it rests on the model's choice in log entry 95. -/
def Obligations.CrossLaneResults : Prop :=
  ComputesTogether .shfl .shfl (fun o xs t => t.dst o.ty o.d
    (match (shflLane o.func.toNat t.lane (o.srcB32 t).toNat).bind (laneOf xs) with
     | some u => u.src o.ty o.a
     | none => t.src o.ty o.a)) ∧
  ComputesTogether .voteAny .voteAny (fun o xs t => t.setPred (o.d.toNat % 8) (xs.any fun u => u.pred o.a.toNat)) ∧
  ComputesTogether .voteAll .voteAll (fun o xs t => t.setPred (o.d.toNat % 8) (xs.all fun u => u.pred o.a.toNat)) ∧
  ComputesTogether .voteBallot .voteBallot (fun o xs t => t.setRegs o.d.toNat
    ((List.range 4).map fun i => BitVec.ofNat 32 (ballot o.a.toNat xs / 2 ^ (32 * i)))) ∧
  ComputesTogether .voteEq .voteEq (fun o xs t => t.setPred (o.d.toNat % 8)
    (xs.all fun u => xs.all fun v => u.src o.ty o.a == v.src o.ty o.a)) ∧
  ComputesTogether .redux .redux (fun o xs t => t.dst o.ty o.d
    ((if o.ty = .f32 ∧ o.redOp = 0 then f32Tree ((List.range 128).map fun l => (laneOf xs l).map fun u => u.src o.ty o.a)
      else reduce o.ty o.redOp ((laneVals o.ty o.a xs).map (·.2))).getD 0)) ∧
  ComputesTogether .scan .scan (fun o xs t => t.dst o.ty o.d
    ((reduce o.ty o.redOp (((laneVals o.ty o.a xs).filter fun e => decide (e.1 ≤ t.lane)).map (·.2))).getD 0)) ∧
  ComputesTogether .scanEx .scanEx (fun o xs t => t.dst o.ty o.d
    ((reduce o.ty o.redOp (((laneVals o.ty o.a xs).filter fun e => decide (e.1 < t.lane)).map (·.2))).getD
      (redIdent o.ty o.redOp))) ∧
  ComputesTogether .quant .quant (fun o xs t =>
    let vals := (segment xs (t.lane / 16)).map fun u => match u with
      | some u => (fmtOf o.kxFloat).val ((u.reg o.a.toNat).toNat % 2 ^ (fmtOf o.kxFloat).width)
      | none => .fin false 0 0
    let blk := kxQuant o.kxTy (fmtOf o.kxFloat) vals
    t.setReg o.d.toNat (BitVec.ofNat 32 (blk / 2 ^ (32 * (t.lane % 16))))) ∧
  ComputesTogether .dequant .dequant (fun o xs t =>
    let words := (segment xs (t.lane / 16)).map fun u => match u with
      | some u => (u.reg o.a.toNat).toNat
      | none => 0
    let blk := packFields 32 words % 2 ^ (8 * kxBytes o.kxTy)
    t.setReg o.d.toNat (BitVec.ofNat 32 ((fmtOf o.kxFloat).round .rn true (kxElem o.kxTy blk (t.lane % 16))))) ∧
  ∀ (k : Opc) (o : Op) (s : State) (c : Cur) (g : Group),
    k ∈ [Opc.shfl, .voteAny, .voteAll, .voteBallot, .voteEq, .redux, .scan, .scanEx, .quant, .dequant] → s.Ready k o c g →
    (g.isSealed = false → s.executing g o ≠ [] →
      exec (Instr.ofOpc k o) s = .next (s.stopped g (allTake (s.executing g o) .sealIllegal))) ∧
    (s.executing g o = [] → exec (Instr.ofOpc k o) s = .next (s.wentOn s k o c g))

/-- What the computing instructions leave unchanged: memory, the memory-mapped registers, every thread that does not execute, every
register and predicate of the others but the destination, every other group, every poison mark but those of the destination (R32), and
of every core all but its counters of R453 and the pipe's latest group (R294). Their own group stands past the instruction, or in its clause one instruction further.
Where the spec is silent it rests on the model's choice in log entry 9. -/
def Obligations.ComputeFrame : Prop :=
  ∀ (k : Opc) (o : Op) (s t : State) (c : Cur) (g : Group),
    k ∈ [Opc.add, .sub, .lea, .leaLabel, .mul, .mulh, .mad, .madw, .div, .rem, .abs, .min, .max, .and, .or, .xor, .andn, .not, .shl,
      .shr, .sar, .rol, .bfe, .bfi, .popc, .clz, .ctz, .brev, .perm, .sel, .cmp, .pset, .mov, .movSpecial, .movW64, .moviW32, .moviW64,
      .cvt, .fadd, .fsub, .fmul, .ffma, .fmin, .fmax, .fcmp, .fcls, .frcp, .frsq, .fsqrt, .fex2, .flg2, .frnd, .fcvt, .bstatSeq,
      .shfl, .voteAny, .voteAll, .voteBallot, .voteEq, .redux, .scan, .scanEx, .quant, .dequant] →
    s.Ready k o c g → (k = .div ∨ k = .rem → ∀ x ∈ s.executing g o, opB o x ≠ 0) →
    (k ∈ [Opc.shfl, .voteAny, .voteAll, .voteBallot, .voteEq, .redux, .scan, .scanEx, .quant, .dequant] → g.isSealed = true) →
    exec (Instr.ofOpc k o) s = .next t →
    t = { s with threads := t.threads, groups := t.groups, cores := t.cores, spent := t.spent, poison := t.poison } ∧ SameMemory s t ∧
    (∀ p, p ∈ t.poison ↔ p ∈ s.poison ∧
      ∀ x ∈ s.executing g o, ∀ u ∈ k.outs o, ¬inRange (x.regCells u).1 (x.regCells u).2 p) ∧
    (∀ n, t.core n = { s.core n with perf := (t.core n).perf, lastVector := (t.core n).lastVector }) ∧
    (∀ h ∈ s.groups, h.gid ≠ g.gid → h ∈ t.groups) ∧
    (∀ h ∈ s.groups, h.gid = g.gid →
      ({ h.past c.len k.long with ready := s.clock, aged := false } : Group) ∈ t.groups) ∧
    (∀ u, u ∉ s.uids g o → t.thread? u = s.thread? u) ∧
    ∀ u x, s.thread? u = some x → ∃ y, t.thread? u = some y ∧ y = { x with regs := y.regs, preds := y.preds } ∧
      (∀ r, r ∉ k.dests o → y.reg r = x.reg r) ∧
      (∀ p, p ≠ o.d.toNat % 8 ∨ k.writesPred = false → y.pred p = x.pred p)

/-! ## Control and grouping (R358 to R366) -/

/-- The transfers send each executing thread to its target and the others to the header that follows; `call` writes the link pair.
A target that is not 4-byte aligned in some executing thread stops the group exactly with MISALIGN (R146, R314, R358, R359).
Where the spec is silent it rests on the model's reading in log entry 16. -/
def Obligations.TransfersGoToTargets : Prop :=
  let goes (k : Opc) (i : Op → Instr) (target : Op → Group → Thread → DWord) (link : Op → State → Group → Thread → Thread) : Prop :=
    ∀ (o : Op) (s : State) (c : Cur) (g : Group), s.Ready k o c g →
      ((∀ t ∈ s.executing g o, (target o g t).toNat % 4 = 0) →
        exec (i o) s = .next (s.wentTo ((s.goTo g fun t =>
          if t.uid ∈ s.uids g o then target o g t else g.pc + BitVec.ofNat 64 c.len).onThreads (s.uids g o) (link o s g)) k o g)) ∧
      ((∃ t ∈ s.executing g o, (target o g t).toNat % 4 ≠ 0) →
        exec (i o) s = .next (s.stopped g (((s.executing g o).filter fun t => (target o g t).toNat % 4 ≠ 0).map fun t =>
          (t, { cls := .misalign, addr := target o g t }))))
  goes .bra .bra (fun o g t => g.pc + o.litFor t) (fun _ _ _ t => t) ∧
  goes .brx .brx (fun o _ t => t.pair o.a.toNat) (fun _ _ _ t => t) ∧
  goes .call .call (fun o g t => g.pc + o.litFor t) (fun o s g t => t.setPair o.d.toNat (s.nextPc g)) ∧
  goes .ret .ret (fun o _ t => t.pair o.a.toNat) (fun _ _ _ t => t)

/-- A group whose threads go to several addresses splits into one part for each of them, at a clause boundary there; one part keeps the
group's seal, several are all unsealed; nobody else's group and no thread changes (R146, R151).
Where the spec is silent it rests on the model's reading in log entry 16. -/
def Obligations.TargetsSplitTheGroup : Prop :=
  ∀ (s : State) (g : Group) (target : Thread → DWord), g ∈ s.groups → (∀ h ∈ s.groups, h.gid = g.gid → h = g) →
    g.gid < s.nextId → (∀ u ∈ g.members, s.thread? u ≠ none) →
    (s.goTo g target).threads = s.threads ∧
    ∃ ps : List Group, (∀ h, h ∈ (s.goTo g target).groups ↔ (h ∈ s.groups ∧ h.gid ≠ g.gid) ∨ h ∈ ps) ∧
      (ps.map (·.pc)).Nodup ∧
      (∀ h ∈ ps, h.clause = none ∧ h.wait = .none ∧ h.core = g.core ∧ h.ctx = g.ctx ∧
        ∀ u, u ∈ h.members ↔ u ∈ g.members ∧ ∃ x, s.thread? u = some x ∧ target x = h.pc) ∧
      (∀ u ∈ g.members, ∃ h ∈ ps, u ∈ h.members) ∧
      (ps.length = 1 → ∀ h ∈ ps, h.gid = g.gid ∧ h.isSealed = g.isSealed) ∧ (1 < ps.length → ∀ h ∈ ps, h.isSealed = false)

/-- `exit` ends each executing thread once every request of it has its reply, the accesses of others that it has seen are performed
(R239, R242) and no deferred fault of it waits: the thread exists no longer and no group holds it, and the others go on at the next header
(R360). Until then the group waits at the `exit`; a deferred fault stops it there (R270). -/
def Obligations.ExitEndsThreads : Prop :=
  (∀ (o : Op) (s : State) (c : Cur) (g : Group), s.Ready .exit o c g → s.deferredOf (s.uids g o) = [] →
    (∀ u ∈ s.uids g o, s.quiet u = true) →
    ∃ t, exec (.exit o) s = .next t ∧
      t = s.wentTo ((s.onGroup g.gid fun h => h.atHeader (g.pc + BitVec.ofNat 64 c.len)).exitThreads (s.uids g o)) .exit o g ∧
      ∀ u ∈ s.uids g o, t.thread? u = none ∧ ∀ h ∈ t.groups, u ∉ h.members) ∧
  (∀ (o : Op) (s : State) (c : Cur) (g : Group), s.Ready .exit o c g → s.deferredOf (s.uids g o) = [] →
    (∃ u ∈ s.uids g o, s.quiet u = false) → exec (.exit o) s = .next { s with stalls := g.gid :: s.stalls }) ∧
  ∀ (o : Op) (s : State) (c : Cur) (g : Group), s.Ready .exit o c g → s.deferredOf (s.uids g o) ≠ [] →
    exec (.exit o) s = .next (s.takeDeferred g (s.deferredOf (s.uids g o)))

/-- `yield` makes the group the newest of its class, and splits off the threads that do not execute it; one that no thread executes, and
`nop`, change nothing (R361). `brk` takes BREAK in every thread of the group, `trap` in every executing thread with its code as the
address, and `assert` has no effect where no thread fails and else stops the group with ASSERT in those that do (R362, R363).
Where the spec is silent it rests on the model's reading in log entry 16. -/
def Obligations.YieldNopBreakTrapAssert : Prop :=
  (∀ (o : Op) (s : State) (c : Cur) (g : Group),
     (s.Ready .nop o c g → exec (.nop o) s = .next (s.wentOn s .nop o c g)) ∧
     (s.Ready .yield o c g → s.uids g o = [] → exec (.yield o) s = .next (s.wentOn s .yield o c g)) ∧
     (s.Ready .yield o c g → s.uids g o ≠ [] → (∀ u ∈ g.members, u ∈ s.uids g o) →
       exec (.yield o) s = .next (s.wentTo (s.onGroup g.gid fun h =>
         { h.atHeader (g.pc + BitVec.ofNat 64 c.len) with formed := s.clock }) .yield o g)) ∧
     (s.Ready .yield o c g → s.uids g o ≠ [] → (∃ u ∈ g.members, u ∉ s.uids g o) →
       exec (.yield o) s = .next (s.wentTo (s.splitGroup g
         [(s.uids g o, fun h => { h.atHeader (g.pc + BitVec.ofNat 64 c.len) with formed := s.clock }),
          (g.members.filter fun u => !(s.uids g o).contains u,
           fun h => { h.atHeader (g.pc + BitVec.ofNat 64 c.len) with formed := g.formed })]) .yield o g))) ∧
  (∀ (o : Op) (s : State) (c : Cur) (g : Group),
     (s.Ready .brk o c g → exec (.brk o) s = .next (s.stopped g (allTake (s.membersOf g) .brk))) ∧
     (s.Ready .trap o c g → s.executing g o ≠ [] →
       exec (.trap o) s = .next (s.stopped g ((s.executing g o).map fun t => (t, { cls := .brk, addr := o.imm.setWidth 64 })))) ∧
     (s.Ready .trap o c g → s.executing g o = [] → exec (.trap o) s = .next (s.wentOn s .trap o c g)) ∧
     (s.Ready .assert o c g → (∀ t ∈ s.executing g o, t.pred o.a.toNat = true) →
       exec (.assert o) s = .next (s.wentOn (s.onThreads (s.uids g o) id) .assert o c g)) ∧
     (s.Ready .assert o c g → (∃ t ∈ s.executing g o, t.pred o.a.toNat = false) →
       exec (.assert o) s = .next (s.stopped g (((s.executing g o).filter fun t => !t.pred o.a.toNat).map fun t =>
         (t, { cls := .assertion, addr := t.pair o.b.toNat })))))

/-- `enrol` gives the executing threads an enrolment in their empty join register; `join` has each thread that holds one wait at the
`join`, in a part for each enrolment, and releases what is complete; each stops the group with STATE_ILLEGAL otherwise. `reform` files the
executing threads, whose join registers are empty, under the next header in slot order, and `seal` has them wait for their pack, which it
seals when all its live threads have arrived; one stop names the threads that are no birth threads with SEAL_ILLEGAL and the others
that hold an enrolment with STATE_ILLEGAL (R141, R147 to R152, R272, R364).
Where the spec is silent it rests on the model's reading in log entry 64. -/
def Obligations.EnrolJoinReformSeal : Prop :=
  (∀ (o : Op) (s : State) (c : Cur) (g : Group),
     (s.Ready .enrol o c g → s.executing g o ≠ [] → (∀ t ∈ s.executing g o, joinReg o t = none) →
       exec (.enrol o) s = .next (s.wentOn (State.onThreads
         { s with nextId := s.nextId + 1, enrolments := s.enrolments ++ [⟨s.nextId, s.uids g o, g.members, g.fam, g.isSealed, false⟩] }
         (s.uids g o) fun t => { t with joins := t.joins.set o.d.toNat (some s.nextId) }) .enrol o c g)) ∧
     (s.Ready .enrol o c g → (∃ t ∈ s.executing g o, joinReg o t ≠ none) →
       exec (.enrol o) s = .next (s.stopped g
         (allTake ((s.executing g o).filter fun t => (joinReg o t).isSome) .stateIllegal))) ∧
     (s.Ready .join o c g → (∀ t ∈ s.executing g o, joinReg o t ≠ none) →
       exec (.join o) s = .next (s.wentTo ((s.stayParts g
         ((dedup ((s.executing g o).map (joinReg o)).reverse).reverse.map fun e =>
           ((s.executing g o).filter fun t => joinReg o t == e).map (·.uid)) (.join o.d.toNat)).settleJoins) .join o g)) ∧
     (s.Ready .join o c g → (∃ t ∈ s.executing g o, joinReg o t = none) →
       exec (.join o) s = .next (s.stopped g
         (allTake ((s.executing g o).filter fun t => (joinReg o t).isNone) .stateIllegal)))) ∧
  (let filed (o : Op) (s : State) (g : Group) : List Nat :=
     (sortBy (fun (a b : Thread) => decide (a.slot ≤ b.slot)) (s.executing g o)).map (·.uid)
   ∀ (o : Op) (s : State) (c : Cur) (g : Group),
     (s.Ready .reform o c g → openJoin (s.executing g o) = [] →
       exec (.reform o) s = .next (s.wentTo (((s.onGroup g.gid fun h =>
           { h.atHeader (g.pc + BitVec.ofNat 64 c.len) with members := h.members.filter fun u => !(filed o s g).contains u }).pruneGroups).file
             g.core g.ctx (g.pc + BitVec.ofNat 64 c.len) (filed o s g)) .reform o g)) ∧
     (s.Ready .seal o c g → (∀ t ∈ s.executing g o, t.kind = .birth) → openJoin (s.executing g o) = [] → s.executing g o ≠ [] →
       exec (.seal o) s = .next (s.wentTo ((s.stayParts g [s.uids g o] .seal).settleSeals) .seal o g)) ∧
     (s.Ready .seal o c g → (∃ t ∈ s.executing g o, t.kind ≠ .birth ∨ t.joins.any Option.isSome = true) →
       ∃ fs, exec (.seal o) s = .next (s.stopped g fs) ∧ ∀ t ∈ s.executing g o, ∀ f, (t, f) ∈ fs ↔
         (t.kind ≠ .birth ∧ f = { cls := .sealIllegal, addr := 0 }) ∨
         (t.kind = .birth ∧ t.joins.any Option.isSome = true ∧ f = { cls := .stateIllegal, addr := 0 }))) ∧
  (∀ (s : State) (e : Enrolment),
     let live := s.threads.filter fun t => e.members.contains t.uid
     ((∃ t ∈ live, s.joiningAt t ≠ some e.eid) → s.settleJoin e = s) ∧
     ∀ g rest, live ≠ [] → (∀ t ∈ live, s.joiningAt t = some e.eid) →
       s.groups.filter (fun h => live.any fun t => h.members.contains t.uid) = g :: rest → (∀ h ∈ rest, h.pc = g.pc ∧ h.gid ≠ g.gid) →
       (∃ h ∈ (s.settleJoin e).groups, h.gid = g.gid ∧
         h.members = (sortBy (fun (a b : Thread) => decide (a.slot ≤ b.slot)) live).map (·.uid) ∧ h.wait = .none ∧
         h.isSealed = (e.wasSealed && !e.foreign) ∧ h.pc = g.pc + BitVec.ofNat 64 (s.instrLen g)) ∧
       ∀ t ∈ (s.settleJoin e).threads, t.uid ∈ e.members → some e.eid ∉ t.joins) ∧
  ∀ (s : State) (team pack : Nat),
    let live := s.threads.filter fun t => t.team == team && t.kind == .birth && t.tid / 128 == pack
    ((∃ t ∈ live, s.sealing t = false) → s.settleSeal team pack = s) ∧
    ∀ g rest, live ≠ [] → (∀ t ∈ live, s.sealing t = true) →
      s.groups.filter (fun h => live.any fun t => h.members.contains t.uid) = g :: rest → (∀ h ∈ rest, h.pc = g.pc) →
      ∃ h ∈ (s.settleSeal team pack).groups, h.gid = s.nextId ∧
        h.members = (sortBy (fun (a b : Thread) => decide (a.lane ≤ b.lane)) live).map (·.uid) ∧ h.isSealed = true ∧ h.byLane = true ∧
        h.wait = .none ∧ h.pc = g.pc + BitVec.ofNat 64 (s.instrLen g)

/-- `park` parks the group on the lines that its executing threads name, until a write of one of them or the smallest timeout; a timeout
of 0, or a pre-emption of the context, passes at once with 0 in the predicates, and one that no thread executes changes nothing. A parked
group wakes whole: with 1 in its predicates once a watched line has been written, with 0 once its timeout has passed without one; the
groups whose timeout has passed wake together (R153, R365).
Where the spec is silent it rests on the model's reading in log entry 62. -/
def Obligations.ParkWaitsForWrite : Prop :=
  (∀ (o : Op) (s : State) (c : Cur) (g : Group) (line : Thread → PAddr) (n : Nat), s.Ready .park o c g →
     (∀ t ∈ s.executing g o, s.parkLine g.ctx (t.pair o.a.toNat) = .ok (line t)) →
     minBy (fun a b => decide (a ≤ b)) ((s.executing g o).map fun t => (o.srcB32 t).toNat) = some n →
     let s' := (s.executing g o).foldl (fun s t => s.noteTlb g.core g.ctx (t.pair o.a.toNat)) s
     let waiting := Wait.park (dedup ((s.executing g o).map line)) (s'.clock + n) (o.d.toNat % 8) (s.uids g o) false
     (n ≠ 0 → s'.preempting g.ctx = false →
       exec (.park o) s = .next (s.wentTo (s'.onGroup g.gid fun h => { h with wait := waiting }) .park o g)) ∧
     (n = 0 ∨ s'.preempting g.ctx = true →
       exec (.park o) s = .next (s.wentOn (s'.onThreads (s.uids g o) fun t => t.setPred (o.d.toNat % 8) false) .park o c g))) ∧
  (∀ (o : Op) (s : State) (c : Cur) (g : Group), s.Ready .park o c g → s.executing g o = [] →
     exec (.park o) s = .next (s.wentOn s .park o c g)) ∧
  (let woken (s : State) (g : Group) (pd : Nat) (ids : List Nat) (hit : Bool) : State :=
     (s.onThreads ids fun t => t.setPred pd hit).onGroup g.gid fun h =>
       ({ h with wait := .none, ready := s.clock } : Group).past (s.instrLen h) false
   (∀ (s : State) (g : Group) (ls : List PAddr) (d pd : Nat) (ids : List Nat), g.wait = .park ls d pd ids true →
      s.group? g.gid = some g → exec (.parkWake g.core g.gid) s = .next (woken s g pd ids true)) ∧
   (∀ (s : State), exec .parkTimeout s = .next ((s.groups.filter fun h => h.timedOut s.clock).foldl (fun e h => match h.wait with
      | .park _ _ pd ids hit => woken e h pd ids hit
      | _ => e) s)) ∧
   ∀ (s : State) (g : Group), g.timedOut s.clock = true ↔ ∃ ls d pd ids hit, g.wait = .park ls d pd ids hit ∧ d ≤ s.clock)

/-! ## Memory (R367 to R376) -/

/-- The global accesses complete where every executing thread's passes its checks (R368, R217), a load finds no poison in its L1 (R32), and
none is held (R233, R376): the lanes act in position order. An access to a lode region leaves the group waiting for its walker (R223); no other waits. -/
def Obligations.GlobalAccessesIssue : Prop :=
  let issues (k : Opc) (i : Op → Instr) (need : Need) (lane : Op → State → Group → Thread → Reached → State) : Prop :=
    ∀ (o : Op) (s : State) (c : Cur) (g : Group) (r : Thread → Reached), s.Ready k o c g → s.mustWait o (s.executing g o) = false →
      (∀ t ∈ s.executing g o, s.globalCheck g.ctx (o.gaddr t) o.size need = .ok (r t)) →
      (need = .load → ∀ t ∈ s.executing g o, s.l1Bad g.core o t (r t) = false) →
      (∀ t ∈ s.executing g o, (r t).isLode = false) →
      exec (i o) s = .next (s.wentOn ((s.executing g o).foldl (fun e t => lane o e g t (r t)) s) k o c g)
  let walks (k : Opc) (i : Op → Instr) (need : Need) (lane : Op → State → Group → Thread → Reached → State) : Prop :=
    ∀ (o : Op) (s : State) (c : Cur) (g : Group) (r : Thread → Reached), s.Ready k o c g → s.mustWait o (s.executing g o) = false →
      (∀ t ∈ s.executing g o, s.globalCheck g.ctx (o.gaddr t) o.size need = .ok (r t)) →
      (need = .load → ∀ t ∈ s.executing g o, s.l1Bad g.core o t (r t) = false) →
      (∃ t ∈ s.executing g o, (r t).isLode = true) →
      exec (i o) s = .next (s.wentTo
        ((((s.executing g o).foldl (fun e t => lane o e g t (r t)) s).uncount g.core
          ((s.executing g o).countP fun t => (r t).isLode)).onGroup g.gid fun h => { h with wait := .lode }) k o g)
  let held (k : Opc) (i : Op → Instr) : Prop :=
    ∀ (o : Op) (s : State) (c : Cur) (g : Group), s.Ready k o c g → s.mustWait o (s.executing g o) = true →
      exec (i o) s = .next { s with stalls := g.gid :: s.stalls }
  (held .ld .ld ∧ held .st .st ∧ held .xadd .xadd ∧ held .xmax .xmax ∧ held .xmin .xmin ∧ held .xswp .xswp ∧ held .xcas .xcas ∧
    held .xbit .xbit) ∧
  walks .ld .ld .load (fun o s g t r => s.loadLane g o t r) ∧
  walks .st .st .store (fun o s g t r => s.storeLane g o t r) ∧
  issues .ld .ld .load (fun o s g t r => s.loadLane g o t r) ∧
  issues .st .st .store (fun o s g t r => s.storeLane g o t r) ∧
  issues .xadd .xadd .atomic (fun o s g t r => s.atomLane g o (.add o.ty) t r) ∧
  issues .xmax .xmax .atomic (fun o s g t r => s.atomLane g o (.max o.ty) t r) ∧
  issues .xmin .xmin .atomic (fun o s g t r => s.atomLane g o (.min o.ty) t r) ∧
  issues .xswp .xswp .atomic (fun o s g t r => s.atomLane g o (.swap o.size) t r) ∧
  issues .xcas .xcas .atomic (fun o s g t r => s.atomLane g o (.cas o.size (o.srcC t o.ty)) t r) ∧
  issues .xbit .xbit .atomic (fun o s g t r => s.atomLane g o (.bit o.aux.toNat o.size) t r)

/-- The act of one lane of a global access: it asks the fabric (`AsksFor`), and the register of a load or an atomic keeps its value until
the reply; a load that L1 serves writes its register at once; at a lode region it asks the region's walker (`AsksWalker`, R45, R177, R220,
R223, R276, R368 to R371, R374). The other threads keep their registers, and no memory changes.
Where the spec is silent it rests on the model's choice in log entry 10, and on its readings in log entries 18, 73. -/
def Obligations.GlobalLaneActs : Prop :=
  ∀ (s : State) (g : Group) (o : Op) (t : Thread) (x : Xlat),
    (s.l1Hit g.core t x.at_ o.size o.empties = none →
      AsksFor s (s.loadLane g o t (.line x)) g t (o.gaddr t) x.at_ (.load o.size) 0 (some o.d.toNat) o.ty) ∧
    (∀ bs, s.l1Hit g.core t x.at_ o.size o.empties = some bs →
      let e := s.loadLane g o t (.line x)
      e.fabric = s.fabric ∧ SameMemory s e ∧
      (∀ u, u ≠ t.uid → e.thread? u = s.thread? u) ∧
      ∀ y, s.thread? t.uid = some y → ∃ z, e.thread? t.uid = some z ∧
        z = { y.dst o.ty o.d (tyWrite o.ty false (tyVal o.ty (BitVec.ofNat 64 (natOfBytes bs)))) with
                saw := z.saw, accessed := s.nextId, seen := if o.order.acquires then s.nextId else y.seen }) ∧
    AsksFor s (s.storeLane g o t (.line x)) g t (o.gaddr t) x.at_ (.store o.size) (o.srcB t o.ty) none o.ty ∧
    (∀ op : ReqOp, AsksFor s (s.atomLane g o op t (.line x)) g t (o.gaddr t) x.at_ op (o.srcB t o.ty) (some o.d.toNat) o.ty) ∧
    ∀ (desc : Nat) (r : Region),
      AsksWalker s (s.loadLane g o t (.lode desc r)) g t desc (o.gaddr t) (.load o.d.toNat o.ty o.order.acquires o.empties) ∧
      AsksWalker s (s.storeLane g o t (.lode desc r)) g t desc (o.gaddr t) (.store ((o.srcB t o.ty).setWidth 32) o.ty)

/-- A global access that fails a check in some executing thread stops the group exactly, with the class of R368's order in each thread
that fails and the address it named; no thread's access is performed. A load whose check passes takes ECC_FATAL where its core's L1 holds
its bytes poisoned (R32).
Where the spec is silent it rests on the model's reading in log entry 59. -/
def Obligations.GlobalAccessFaults : Prop :=
  let fails (k : Opc) (i : Op → Instr) (need : Need) : Prop :=
    ∀ (o : Op) (s : State) (c : Cur) (g : Group), s.Ready k o c g → s.mustWait o (s.executing g o) = false →
      let check (t : Thread) : Except Cls Reached := match s.globalCheck g.ctx (o.gaddr t) o.size need with
        | .error e => .error e
        | .ok r => if need == .load && s.l1Bad g.core o t r then .error .eccFatal else .ok r
      accessFaults (s.executing g o) o.gaddr check ≠ [] →
      exec (i o) s = .next (s.stopped g (accessFaults (s.executing g o) o.gaddr check))
  (fails .ld .ld .load ∧ fails .st .st .store ∧ fails .xadd .xadd .atomic ∧ fails .xmax .xmax .atomic ∧ fails .xmin .xmin .atomic ∧
    fails .xswp .xswp .atomic ∧ fails .xcas .xcas .atomic ∧ fails .xbit .xbit .atomic) ∧
  ∀ (s : State) (ctx n : Nat) (va : DWord) (need : Need),
    (va.toNat % n ≠ 0 → s.globalCheck ctx va n need = .error .misalign) ∧
    (va.toNat % n = 0 → 2 ^ 52 ≤ va.toNat → s.globalCheck ctx va n need = .error .pageForm) ∧
    (∀ e, va.toNat % n = 0 → translate s ctx va need = .error e → s.globalCheck ctx va n need = .error e)

/-- Loads of team and die memory write their registers at once, extended as R254 says; stores write their bytes, little-endian, in
position order. No other byte of memory changes. An atomic of the thread, or for a store any access of it but a load, that still stands in
its core's store buffer comes first (R166 to R168, R188, R234, R370).
Where the spec is silent it rests on the model's choice in log entry 10, and on its reading in log entry 73. -/
def Obligations.LocalLoadsAndStores : Prop :=
  let loads (k : Opc) (i : Op → Instr) (place : Op → State → Group → Thread → Except Cls PAddr) : Prop :=
    ∀ (o : Op) (s : State) (c : Cur) (g : Group), s.Ready k o c g → s.mustWait o (s.executing g o) = false →
      (∀ t ∈ s.executing g o, s.holdsBack t.uid false = false) →
      (∀ t ∈ s.executing g o, ∃ p, place o s g t = .ok p ∧ s.poisoned p o.size = false) →
      let read (x : Thread) : Thread := match place o s g x with
        | .error _ => x
        | .ok p => if s.poisoned p o.size then x
                   else { x.dst o.ty o.d (tyWrite o.ty false (tyVal o.ty (BitVec.ofNat 64 (s.localValue x p o.size)))) with
                            accessed := s.nextId, seen := if o.order.acquires then s.nextId else x.seen }
      let e := s.onThreads (s.uids g o) read
      exec (i o) s = .next (s.wentOn (if o.empties && !(s.executing g o).isEmpty then e.emptyL1 g.core else e) k o c g)
  let stores (k : Opc) (i : Op → Instr) (place : Op → State → Group → Thread → Except Cls PAddr) : Prop :=
    ∀ (o : Op) (s : State) (c : Cur) (g : Group) (p : Thread → PAddr), s.Ready k o c g → s.mustWait o (s.executing g o) = false →
      (∀ t ∈ s.executing g o, s.holdsBack t.uid true = false) → s.MemWf → g.core < 256 → (∀ t ∈ s.executing g o, place o s g t = .ok (p t)) →
      ∃ t, exec (i o) s = .next t ∧
        t = s.wentOn (((s.executing g o).foldl (fun e x =>
          e.threadWrite x.uid (p x) (bytesOfNat (o.srcB x o.ty).toNat o.size)) s).onThreads (s.uids g o) fun x =>
            { x with accessed := s.nextId }) k o c g ∧
        (∀ q : PAddr, (∀ d, q.space = .die d → d < 2) → (∀ x ∈ s.executing g o, ¬inRange (p x) o.size q) →
          t.byteAt q = s.byteAt q) ∧
        (∀ x, s.executing g o = [x] → ∀ j < o.size,
          t.byteAt ((p x).plus j) = BitVec.ofNat 8 ((o.srcB x o.ty).toNat / 256 ^ j))
  let waits (k : Opc) (i : Op → Instr) (store : Bool) : Prop :=
    ∀ (o : Op) (s : State) (c : Cur) (g : Group), s.Ready k o c g →
      s.mustWait o (s.executing g o) = true ∨ (∃ t ∈ s.executing g o, s.holdsBack t.uid store = true) →
      exec (i o) s = .next { s with stalls := g.gid :: s.stalls }
  (waits .ldt .ldt false ∧ waits .ldd .ldd false ∧ waits .stt .stt true ∧ waits .std .std true) ∧
  loads .ldt .ldt (fun o s _ t => s.teamPlace t (o.laddr t) o.size o.size) ∧
  loads .ldd .ldd (fun o s g t => s.diePlace g.ctx g.core (o.laddr t) o.size o.size) ∧
  stores .stt .stt (fun o s _ t => s.teamPlace t (o.laddr t) o.size o.size) ∧
  stores .std .std (fun o s g t => s.diePlace g.ctx g.core (o.laddr t) o.size o.size)

/-- Constant loads, parameters and prefetch (R372): `ldc` writes what a line of the instruction cache answers with, or asks the fabric for
its bytes unmerged, `ldc.par` writes the parameters of the thread's own launch, and `pref` never faults.
Where the spec is silent it rests on the model's choice in log entry 77, and on its reading in log entry 18. -/
def Obligations.ConstantLoadsAndPrefetch : Prop :=
  ∀ (o : Op) (s : State) (c : Cur) (g : Group),
    (∀ p : Thread → PAddr, s.Ready .ldc o c g → heldBack (s.executing g o) = false →
      (∀ t ∈ s.executing g o, (o.gaddr t).toNat % o.size = 0 ∧
        ∃ x, translate s g.ctx (o.gaddr t) .load = .ok x ∧ x.cls ≠ 2 ∧ s.poisoned x.at_ o.size = false ∧ p t = x.at_) →
      exec (.ldc o) s = .next (s.wentOn ((s.executing g o).foldl (fun e t => e.constLane g o t (p t)) s) .ldc o c g)) ∧
    (∀ (t : Thread) (p : PAddr), match s.constHit g.core t p o.size with
      | none => AsksFor s (s.constLane g o t p) g t (o.gaddr t) p (.load o.size) 0 (some o.d.toNat) o.ty
      | some bs => ∃ e : State, e = { s with tlb := e.tlb } ∧ s.constLane g o t p = e.onThread t.uid fun y =>
          y.dst o.ty o.d (tyWrite o.ty false (tyVal o.ty (BitVec.ofNat 64 (natOfBytes bs))))) ∧
    (s.Ready .ldcPar o c g → o.imm.toNat % o.size = 0 →
      (∀ t ∈ s.executing g o, ∃ l, s.launchOf t.team = some l ∧ o.imm.toNat + o.size ≤ l.kernel.paramlen) →
      exec (.ldcPar o) s = .next (s.wentOn (s.onThreads (s.uids g o) fun t =>
        t.dst o.ty o.d (tyWrite o.ty false (tyVal o.ty (BitVec.ofNat 64
          (natOfBytes (((match s.launchOf t.team with | some l => l.params | none => []).drop o.imm.toNat).take o.size))))))
        .ldcPar o c g)) ∧
    (s.Ready .pref o c g → heldBack (s.executing g o) = false →
      exec (.pref o) s = .next (s.wentOn ((s.executing g o).foldl (fun s t => s.prefLane g o t) s) .pref o c g))

/-- `spush` stores words on the thread's spill stack at its depth, which rises by their number, and `spop` loads them back and the depth
falls: each word is an access of its own, which the fabric carries or, for a load, L1 serves. They complete where nothing holds the
thread back, the context has a stack, the depth stays within it, and each word's page of CLASS 0 may be stored to, or loaded from without
poison. An overflow, an underflow and a context without a stack take STATE_ILLEGAL (R32, R170, R173, R373).
Where the spec is silent it rests on the model's reading in log entry 18. -/
def Obligations.SpillStack : Prop :=
  ∀ (o : Op) (s : State) (c : Cur) (g : Group), heldBack (s.executing g o) = false →
    (s.Ready .spush o c g → s.spillBase g.ctx ≠ 0 →
      (∀ t ∈ s.executing g o, t.depth + o.stackCount ≤ s.spillSize g.ctx / 4 ∧ ∀ i < o.stackCount, ∃ x : Xlat,
        translate s g.ctx (s.stackAddr g.ctx g.core t (t.depth + i)) .store = .ok x ∧ x.cls = 0) →
      let word (t : Thread) (e : State) (i : Nat) : State :=
        match translate s g.ctx (s.stackAddr g.ctx g.core t (t.depth + i)) .store with
        | .ok x => e.pushWord g (e.nowOf t) o i x.at_
        | .error _ => e
      let lane (e : State) (t : Thread) : State :=
        ((List.range o.stackCount).foldl (word t) ((List.range o.stackCount).foldl (fun e i =>
          e.noteTlb g.core g.ctx (s.stackAddr g.ctx g.core t (t.depth + i))) e)).onThread t.uid
            fun y => { y with depth := y.depth + o.stackCount }
      exec (.spush o) s = .next (s.wentOn ((s.executing g o).foldl lane s) .spush o c g)) ∧
    (s.Ready .spop o c g → s.spillBase g.ctx ≠ 0 →
      (∀ t ∈ s.executing g o, o.stackCount ≤ t.depth ∧ ∀ i < o.stackCount, ∃ x : Xlat,
        translate s g.ctx (s.stackAddr g.ctx g.core t (t.depth - o.stackCount + i)) .load = .ok x ∧ x.cls = 0 ∧
        s.poisoned x.at_ 4 = false ∧ s.poisoned ⟨.l1 g.core, x.at_.addr⟩ 4 = false) →
      let word (t : Thread) (e : State) (i : Nat) : State :=
        match translate s g.ctx (s.stackAddr g.ctx g.core t (t.depth - o.stackCount + i)) .load with
        | .ok x => e.popWord g (e.nowOf t) o (t.depth - o.stackCount) i x.at_
        | .error _ => e
      let lane (e : State) (t : Thread) : State :=
        ((List.range o.stackCount).foldl (word t) ((List.range o.stackCount).foldl (fun e i =>
          e.noteTlb g.core g.ctx (s.stackAddr g.ctx g.core t (t.depth - o.stackCount + i))) e)).onThread t.uid
            fun y => { y with depth := y.depth - o.stackCount }
      exec (.spop o) s = .next (s.wentOn ((s.executing g o).foldl lane s) .spop o c g)) ∧
    (∀ (t : Thread) (first i : Nat) (p : PAddr),
      AsksFor s (s.pushWord g t o i p) g t (s.stackAddr g.ctx g.core t (t.depth + i)) p (.store 4)
        ((t.reg (o.a.toNat + i)).setWidth 64) none .w32 ∧
      (s.l1Hit g.core t p 4 false = none →
        AsksFor s (s.popWord g t o first i p) g t (s.stackAddr g.ctx g.core t (first + i)) p (.load 4) 0 (some (o.d.toNat + i)) .w32) ∧
      ∀ bs, s.l1Hit g.core t p 4 false = some bs →
        let e := s.popWord g t o first i p
        e.fabric = s.fabric ∧ SameMemory s e ∧ (∀ u, u ≠ t.uid → e.thread? u = s.thread? u) ∧
        ∀ y, s.thread? t.uid = some y → ∃ z, e.thread? t.uid = some z ∧
          z = { y.setReg (o.d.toNat + i) (BitVec.ofNat 32 (natOfBytes bs)) with saw := z.saw, accessed := s.nextId }) ∧
    ((∃ t ∈ s.executing g o, s.spillBase g.ctx = 0 ∨ s.spillSize g.ctx / 4 < t.depth + o.stackCount) → s.Ready .spush o c g →
      ∃ fs, exec (.spush o) s = .next (s.stopped g fs) ∧
        ∀ t ∈ s.executing g o, s.spillBase g.ctx = 0 ∨ s.spillSize g.ctx / 4 < t.depth + o.stackCount →
          (t, ({ cls := .stateIllegal, addr := 0 } : Flt)) ∈ fs) ∧
    ((∃ t ∈ s.executing g o, s.spillBase g.ctx = 0 ∨ t.depth < o.stackCount) → s.Ready .spop o c g →
      ∃ fs, exec (.spop o) s = .next (s.stopped g fs) ∧
        ∀ t ∈ s.executing g o, s.spillBase g.ctx = 0 ∨ t.depth < o.stackCount →
          (t, ({ cls := .stateIllegal, addr := 0 } : Flt)) ∈ fs)

/-- `fence` has each executing thread's later accesses wait until its earlier ones are performed, and those whose values it has seen, and
completes at once where there is none (R233, R239, R376). `tbar` and `cbar`: a birth thread that has no earlier barrier of the same kind
open, nothing else that holds it and no access outstanding arrives, and the barrier
departs when every live birth thread of the team, or of the cluster, has arrived, but that a stepped team is held there (R301); a task or an
ember takes STATE_ILLEGAL (R377).
Where the spec is silent it rests on the model's readings in log entries 35, 49. -/
def Obligations.FencesAndBarriers : Prop :=
  (∀ (o : Op) (s : State) (c : Cur) (g : Group), s.Ready .fence o c g → heldBack (s.executing g o) = false →
     exec (.fence o) s = .next (s.wentOn ((s.executing g o).foldl (fun (e : State) t =>
       let late : Late := .fence t.uid g.flagNow
         ((e.requestsOf t.uid).map (·.id) ++ e.unperformed t.uid ++ (e.lodes.filter fun l => l.uid == t.uid).map (·.op)) (if o.empties then some g.core else none)
       ({ e with late := e.late ++ [late] } : State).onThread t.uid fun t => { t.holdFlag g.flagNow with holds := t.holds + 1 })
       s).settleFences .fence o c g)) ∧
  (∀ (o : Op) (s : State) (c : Cur) (g : Group),
     (s.Ready .tbar o c g → heldElse (s.executing g o) = false → (∀ t ∈ s.executing g o, s.quiet t.uid = true) → (∀ t ∈ s.executing g o, t.kind = .birth ∧ t.tbar = none) →
       exec (.tbar o) s = .next (s.wentOn ((dedup ((s.executing g o).map (·.team))).foldl State.settleBarriers
         (s.onThreads (s.uids g o) fun t =>
           { t.holdFlag g.flagNow with holds := t.holds + 1, tbar := some g.flagNow })) .tbar o c g)) ∧
     (s.Ready .cbar o c g → heldElse (s.executing g o) = false → (∀ t ∈ s.executing g o, s.quiet t.uid = true) → (∀ t ∈ s.executing g o, t.kind = .birth ∧ t.cbar = none) →
       exec (.cbar o) s = .next (s.wentOn ((dedup ((s.executing g o).map (·.team))).foldl State.settleBarriers
         (s.onThreads (s.uids g o) fun t =>
           { t.holdFlag g.flagNow with holds := t.holds + 1, cbar := some g.flagNow })) .cbar o c g)) ∧
     ((∃ t ∈ s.executing g o, t.kind ≠ .birth) →
       (s.Ready .tbar o c g → exec (.tbar o) s = .next (s.stopped g
         (allTake ((s.executing g o).filter fun t => t.kind ≠ .birth) .stateIllegal))) ∧
       (s.Ready .cbar o c g → exec (.cbar o) s = .next (s.stopped g
         (allTake ((s.executing g o).filter fun t => t.kind ≠ .birth) .stateIllegal))))) ∧
  (∀ (s : State) (team : Team),
     let births := s.threads.filter fun x => x.team == team.tuid && x.kind == .birth
     s.team? team.tuid = some team →
     ((∃ x ∈ births, x.tbar = none) → s.settleTbar team.tuid = s) ∧
     (team.saved = false → s.stepped team = false → team.stepState ≠ some true → births ≠ [] → (∀ x ∈ births, x.tbar ≠ none) →
       ∀ x ∈ (s.settleTbar team.tuid).threads, x.team = team.tuid → x.tbar = none) ∧
     (team.saved = false → s.stepped team = true ∨ team.stepState = some true → births ≠ [] → (∀ x ∈ births, x.tbar ≠ none) →
       s.settleTbar team.tuid = s.setReg (stepReg team.core) (setBits (s.reg (stepReg team.core)) 62 62 1))) ∧
  ∀ (s : State) (cluster : Nat),
    let teams := s.teams.filter fun t => t.cluster == cluster
    let births := s.threads.filter fun x => x.kind == .birth && teams.any fun t => t.tuid == x.team
    ((∃ x ∈ births, x.cbar = none) → s.settleCbar cluster = s) ∧
    ((∀ t ∈ teams, t.saved = false) → births ≠ [] → (∀ x ∈ births, x.cbar ≠ none) →
      ∀ x ∈ (s.settleCbar cluster).threads, (∃ t ∈ teams, t.tuid = x.team) → x.cbar = none)

/-! ## Barriers, tiles, records, counters and tasks (R186 to R188, R378 to R381, R441 to R450) -/

/-- The transaction barriers (R186 to R188, R378): `txb.init` stores a whole object, after what its thread has in the store buffer (R237),
`txb.arrive` and `txb.expect` add to what is owed and close the epoch when nothing is, and `txb.wait` waits until the epoch has passed.
Where the spec is silent it rests on the model's choice in log entry 10, and on its readings in log entries 35, 73. -/
def Obligations.TransactionBarriers : Prop :=
  Acts .txbInit .txbInit (fun s xs => heldBack xs = false ∧ ∀ t ∈ xs, s.holdsBack t.uid true = false) (fun o _ s t e =>
    (o.srcB32 t).toNat ≠ 0 ∧ (o.srcB32 t).toNat < 2 ^ 24 ∧ ∃ p, s.teamPlace t (o.laddr t) 16 16 = .ok p ∧
      e = s.setTxb p ⟨0, (o.srcB32 t).toNat, 0, (o.srcB32 t).toNat, if o.scopeCode = 2 then 1 else 0, 0⟩) ∧
  Acts .txbArrive .txbArrive Drained (fun o _ s t e =>
    ∃ p, s.txbPlace t (o.laddr t) = .ok p ∧ (s.txbAt p).bad = false ∧ (s.txbAt p).arrivals ≠ 0 ∧
      Txb.inRange ((s.txbAt p).bytes + (o.srcB32 t).toNat) = true ∧
      e = (s.setTxb p (Txb.close { s.txbAt p with
          bytes := (s.txbAt p).bytes + (o.srcB32 t).toNat, arrivals := (s.txbAt p).arrivals - 1 })).onThread t.uid
        fun y => y.setReg o.d.toNat (BitVec.ofNat 32 (s.txbAt p).epoch)) ∧
  Acts .txbExpect .txbExpect Drained (fun o _ s t e =>
    ∃ p, s.txbPlace t (o.laddr t) = .ok p ∧ (s.txbAt p).bad = false ∧
      Txb.inRange ((s.txbAt p).bytes + (o.srcB32 t).toNat) = true ∧
      e = s.setTxb p (Txb.close { s.txbAt p with bytes := (s.txbAt p).bytes + (o.srcB32 t).toNat })) ∧
  ∀ (o : Op) (s e : State) (c : Cur) (g : Group), s.Ready .txbWait o c g → heldBack (s.executing g o) = false →
    Chained (fun s t e => ∃ p, s.txbPlace t (o.laddr t) = .ok p ∧ (s.txbAt p).bad = false ∧
      e = ({ s with late := s.late ++ [.txbWait t.uid g.flagNow p ((o.srcB32 t).toNat % 2 ^ 16)] } : State).onThread t.uid
        fun y => { y.holdFlag g.flagNow with holds := y.holds + 1 }) s (s.executing g o) e →
    exec (.txbWait o) s = .next (s.wentOn e.settleTxb .txbWait o c g)

/-- A transaction barrier's object reads back as it was stored, in its 16 bytes (R186), and an epoch closes exactly when nothing is
owed: EPOCH then advances by one modulo 2^16 and ARRIVALS is reloaded (R187). -/
def Obligations.TransactionBarrierObject : Prop :=
  (∀ b : Txb, b.epoch < 2 ^ 16 → b.arrivals < 2 ^ 24 → Txb.inRange b.bytes = true → b.reload < 2 ^ 24 → b.scope < 4 → b.rest = 0 →
    b.toNat < 2 ^ 128 ∧ txbOf b.toNat = b) ∧
  (∀ b : Txb, (b.arrivals = 0 ∧ b.bytes = 0 → b.close = { b with epoch := (b.epoch + 1) % 2 ^ 16, arrivals := b.reload }) ∧
    (b.arrivals ≠ 0 ∨ b.bytes ≠ 0 → b.close = b))

/-- The tile table, tensor records and command status (R183 to R185, R379 to R381).
Where the spec is silent it rests on the model's choice in log entry 10, and on its reading in log entry 14. -/
def Obligations.TilesAndRecords : Prop :=
  Acts .tileDef .tileDef Unheld (fun o g s t e =>
    (o.srcB32 t).toNat ≠ 0 ∧ s.mayDefine g o.d.toNat = true ∧ ∃ p, s.tileRange g t (o.laddr t) (o.srcB32 t).toNat = .ok p ∧
      e = s.defineTile g t o.d.toNat false (teamCore p % 4) p.addr (o.srcB32 t).toNat none) ∧
  (∀ (o : Op) (s e : State) (c : Cur) (g : Group) (tile : Tile), s.Ready .tileSet o c g → heldBack (s.executing g o) = false →
    s.tileOf g o.d.toNat = some tile → (tileSetOp o ≠ 2 ∨ tile.canFill = true) →
    Chained (fun s _ e => ∃ x y, s.tileOf g o.d.toNat = some x ∧ x.set (tileSetOp o) = some y ∧
      e = (s.setTile (quadOfCore g.core) o.d.toNat y).settleQuad (quadOfCore g.core)) s (s.executing g o) e →
    exec (.tileSet o) s = .next (s.wentOn e .tileSet o c g)) ∧
  (∀ (o : Op) (s : State) (c : Cur) (g : Group) (tile : Tile), s.Ready .tileState o c g → heldBack (s.executing g o) = false →
    s.tileOf g o.a.toNat = some tile →
    exec (.tileState o) s = .next (s.wentOn (s.onThreads (s.uids g o) fun t =>
      t.setPair o.d.toNat (BitVec.ofNat 64 tile.value)) .tileState o c g)) ∧
  Acts .trec .trec Unheld (fun o g s t e =>
    ∃ p, s.teamPlace t (o.laddr t) 64 8 = .ok p ∧ s.poisoned p 64 = false ∧
      e = s.setCore g.core { s.core g.core with slots := Tab.set o.d.toNat (s.bytesAt p 64) (s.core g.core).slots }) ∧
  ∀ (o : Op) (s : State) (c : Cur) (g : Group), s.Ready .bstat o c g →
    exec (.bstat o) s = .next (s.wentOn (s.onThreads (s.uids g o) fun t =>
      (t.setReg o.d.toNat (BitVec.ofNat 32 (s.status g.core t (t.reg o.a.toNat)).1)).setReg (o.d.toNat + 1)
        (s.status g.core t (t.reg o.a.toNat)).2) .bstat o c g)

/-- Tasks and dependence counters (R118, R442 to R446): `task.post` posts its record while the pool has room, `task.arm` joins its
counter's list while the table has, and the predicate says which; `cnt.init` posts nothing, `cnt.add` posts the arms of a counter that
it brings to zero, and `cnt.rd` reads. `win.arm` arms its window over its translated pages, or disarms it with a length of 0; `post64` puts
a packet into the queue of the port that its address names and answers whether it did (R99, R447, R450).
Where the spec is silent it rests on the model's choices in log entries 10, 69, and on its reading in log entry 35. -/
def Obligations.TasksCountersWindowsPosts : Prop :=
  (Acts .taskPost .taskPost Drained (fun o g s t e =>
     ∃ va, s.taskEntry g t o = .ok va ∧
       ((s.postTask g.core ⟨t.team, va, t.regsFrom o.b.toNat 8, s.clock⟩ = none ∧
           e = s.onThread t.uid fun y => y.setPred (taskPred o) false) ∨
         ∃ m, s.postTask g.core ⟨t.team, va, t.regsFrom o.b.toNat 8, s.clock⟩ = some m ∧
           e = m.onThread t.uid fun y => y.setPred (taskPred o) true)) ∧
   Acts .taskArm .taskArm Drained (fun o g s t e =>
     ∃ va addr, s.taskEntry g t o = .ok va ∧ s.armPlace t (t.reg o.b.toNat) = .ok addr ∧
       ((512 ≤ (s.core g.core).arms.length ∧ e = s.onThread t.uid fun y => y.setPred (taskPred o) false) ∨
         ((s.core g.core).arms.length < 512 ∧
           e = (s.arm g.core ⟨o.d.toNat, t.team, va, addr, false⟩).onThread t.uid fun y => y.setPred (taskPred o) true))) ∧
   Acts .cntInit .cntInit Drained (fun o g s t e => e = s.setCounter g.core o.d.toNat (o.srcB32 t) false) ∧
   Acts .cntAdd .cntAdd Drained (fun o g s t e =>
     e = s.setCounter g.core o.d.toNat (s.counter g.core o.d.toNat + o.srcB32 t) true) ∧
   ∀ (o : Op) (s : State) (c : Cur) (g : Group), s.Ready .cntRd o c g → heldBack (s.executing g o) = false →
     exec (.cntRd o) s = .next (s.wentOn (s.onThreads (s.uids g o) fun t =>
       (t.observe s.nextId).setReg o.d.toNat (s.counter g.core o.a.toNat)) .cntRd o c g)) ∧
  (Acts .winArm .winArm Unheld (fun o g s t e =>
     let n := (o.srcB32 t).toNat
     let va := t.pair o.a.toNat
     let idx := (o.imm.extractLsb' 0 4).toNat
     let others := (s.core g.core).windows.filter fun w => w.index != idx
     (n = 0 ∧ e = s.setCore g.core { s.core g.core with windows := others }) ∨
     (n ≠ 0 ∧ va.toNat % 256 = 0 ∧ n % 256 = 0 ∧ n ≤ 2 ^ 31 ∧ ∃ rs, windowRanges s g.ctx 32769 va.toNat n = .ok rs ∧
       e = (s.setCore g.core { s.core g.core with
         windows := others ++ [⟨idx, o.d.toNat, rs, n, 0, o.imm.getLsbD 4⟩] }).notePages g.core g.ctx va.toNat n)) ∧
   Acts .post64 .post64 Drained (fun o g s t e =>
     (t.pair o.a.toNat).toNat % 64 = 0 ∧ ∃ q, s.portAt g.ctx (t.pair o.a.toNat) = .ok q ∧
       e = (s.postPacket g.ctx g.core q (t.regsFrom o.b.toNat 16)).1.onThread t.uid fun y =>
         y.setReg o.d.toNat (BitVec.ofNat 32 (s.postPacket g.ctx g.core q (t.regsFrom o.b.toNat 16)).2)))

/-- A counter reads as it was written, and no other counter changes; a write that posts and brings a non-zero counter to zero leaves no
arm of the counter in the table while the pool has a free record (R118, R445, R446). -/
def Obligations.CountersReadBack : Prop :=
  ∀ (s : State) (core k : Nat) (v : Word) (posts : Bool),
    (s.setCounter core k v posts).counter core k = v ∧
    (∀ c j, (c ≠ core ∨ j ≠ k) → (s.setCounter core k v posts).counter c j = s.counter c j) ∧
    (posts = true → v = 0 → s.counter core k ≠ 0 → (s.core core).pool.length + (s.core core).arms.length ≤ 2048 →
      ∀ a ∈ ((s.setCounter core k v posts).core core).arms, a.counter ≠ k)

/-! ## System instructions (R451 to R458) -/

/-- Instruction cache, core registers, counters and records (R290, R292, R293, R295, R451 to R455): a record is written once the
accesses before it are performed and its ring can be reached, at once where neither is awaited.
Where the spec is silent it rests on the model's reading in log entry 75. -/
def Obligations.SystemInstructions : Prop :=
  ∀ (o : Op) (s : State) (c : Cur) (g : Group),
    (s.Ready .isync o c g → exec (.isync o) s = .next (s.wentOn (State.onThreads { s with nextId := s.nextId + 1 } (s.uids g o) fun t =>
      { t with synced := s.nextId }) .isync o c g)) ∧
    (s.Ready .icinv o c g → exec (.icinv o) s = .next (s.wentOn ((s.executing g o).foldl (fun (e : State) t =>
      e.dropCode g.ctx (t.pair o.a.toNat).toNat (o.srcB32 t).toNat) s) .icinv o c g)) ∧
    (s.Ready .sregR o c g → exec (.sregR o) s = .next (s.wentOn (s.onThreads (s.uids g o) fun t =>
      t.setReg o.d.toNat (BitVec.ofNat 32 ((s.core g.core).sreg o.a.toNat))) .sregR o c g)) ∧
    (s.Ready .sregW o c g → exec (.sregW o) s = .next (s.wentOn ((s.executing g o).foldl (fun (e : State) t =>
      e.setCore g.core ((e.core g.core).setSreg o.d.toNat (o.srcB32 t))) s) .sregW o c g)) ∧
    (s.Ready .perfRd o c g → exec (.perfRd o) s = .next (s.wentOn (s.onThreads (s.uids g o) fun t =>
      t.setPair o.d.toNat (Tab.get 0 o.a.toNat (s.core g.core).perf)) .perfRd o c g)) ∧
    (s.Ready .lamp o c g → exec (.lamp o) s = .next (s.wentOn ((s.executing g o).foldl (fun (e : State) t =>
      e.record t.uid g.ctx false (lampWords (e.pkgOf g.ctx) g.core (t.regsFrom o.b.toNat 16))) s) .lamp o c g)) ∧
    (s.Ready .trc o c g → exec (.trc o) s = .next (s.wentOn ((s.executing g o).foldl (fun (e : State) t =>
      e.record t.uid g.ctx true
        (flueBytes e.ns 2 (e.pkgOf g.ctx) g.core 0 t.cmdseq.toNat g.pc.toNat (t.pair o.a.toNat).toNat)) s) .trc o c g)) ∧
    (∀ (uid ctx : Nat) (flue : Bool) (bs : List Byte), s.unwritten uid = [] → s.late.any (Late.recordsOf uid) = false →
      s.ringHeld ctx (if flue then flueRing ctx else lampRing ctx) = false →
      s.record uid ctx flue bs = s.logTo ctx (if flue then flueRing ctx else lampRing ctx) bs) ∧
    (∀ (uid ctx : Nat) (flue : Bool) (bs : List Byte), s.unwritten uid ≠ [] →
      s.record uid ctx flue bs = { s with late := s.late ++ [.record uid ctx flue (s.unwritten uid) bs] }) ∧
    (∀ (uid ctx : Nat) (flue : Bool) (reqs : List Nat) (bs : List Byte), s.late = [.record uid ctx flue reqs bs] →
      (∀ p ∈ s.fabric.pending, p.id ∈ reqs → p.applied = true) → (∀ l ∈ s.lodes, l.op ∉ reqs) →
      s.ringHeld ctx (if flue then flueRing ctx else lampRing ctx) = false →
      s.settleRecords = { s.logTo ctx (if flue then flueRing ctx else lampRing ctx) bs with late := [] }) ∧
    (s.Ready .tlbInv o c g → exec (.tlbInv o) s = .next (s.wentOn ((s.executing g o).foldl (fun (e : State) t =>
      e.askInval g t (some (invalRange (bits (t.pair o.a.toNat).toNat 51 16) (o.srcB32 t).toNat))) s) .tlbInv o c g)) ∧
    (s.Ready .tlbInvAll o c g → exec (.tlbInvAll o) s = .next (s.wentOn ((s.executing g o).foldl (fun (e : State) t =>
      e.askInval g t none) s) .tlbInvAll o c g))

/-- `ctx.save` asks for the save of another core of its context that has no image, and waits for it by its flag; `ctx.load` loads an
image onto a core if the core can take it, once no test holds the memory that it names (R34), and its predicate says whether it did;
`halt` ends the executing threads' teams (R456 to R458).
Where the spec is silent it rests on the model's choices in log entries 10, 39, and on its readings in log entries 40, 41, 42, 68. -/
def Obligations.SaveLoadHalt : Prop :=
  Acts .ctxSave .ctxSave (fun _ _ => True) (fun o g s t e =>
    s.saveBase g.ctx ≠ 0 ∧ (t.reg o.a.toNat).toNat % 256 ≠ g.core ∧ s.ctxOnCore ((t.reg o.a.toNat).toNat % 256) = some g.ctx ∧
      s.imaged g.ctx ((t.reg o.a.toNat).toNat % 256) = false ∧
      e = ({ s with saves := s.saves ++ [⟨g.ctx, (t.reg o.a.toNat).toNat % 256, some (t.uid, g.flagNow),
          [(t.reg o.a.toNat).toNat % 256]⟩] } : State).onThread t.uid fun y => y.holdFlag g.flagNow) ∧
  (∀ (o : Op) (s e : State) (c : Cur) (g : Group), s.Ready .ctxLoad o c g →
    let dst (t : Thread) : Nat := (t.reg o.b.toNat).toNat % 256
    (∀ t ∈ s.executing g o, ∀ i, s.loadable g.ctx ((t.reg o.a.toNat).toNat % 256) (dst t) = some i → s.loadWaits i (dst t) = false) →
    Chained (fun s t e => ∃ i, s.loadable g.ctx ((t.reg o.a.toNat).toNat % 256) ((t.reg o.b.toNat).toNat % 256) = some i ∧
      ((s.canLoad i ((t.reg o.b.toNat).toNat % 256) = true ∧
          e = (s.loadMoved i ((t.reg o.b.toNat).toNat % 256)).onThread t.uid fun y => y.setPred o.aux.toNat true) ∨
        (s.canLoad i ((t.reg o.b.toNat).toNat % 256) = false ∧ e = s.onThread t.uid fun y => y.setPred o.aux.toNat false)))
      s (s.executing g o) e → exec (.ctxLoad o) s = .next (s.wentOn e .ctxLoad o c g)) ∧
  ∀ (o : Op) (s : State) (c : Cur) (g : Group), s.Ready .halt o c g →
    (s.executing g o ≠ [] → s.deferredOf (s.uids g o) = [] → (∀ u ∈ s.uids g o, s.quiet u = true) →
      exec (.halt o) s = .next (s.wentTo ((dedup ((s.executing g o).map (·.team))).foldl State.haltTeam
        (s.onGroup g.gid fun h => h.atHeader (g.pc + BitVec.ofNat 64 c.len))) .halt o g)) ∧
    (s.executing g o = [] → exec (.halt o) s = .next (s.wentOn s .halt o c g))

/-! ## The copy engine's commands (R180 to R183, R382 to R389, R399, R437) -/

/-- Each executing lane of a bulk instruction whose checks pass queues its command, in position order, on chip or in the ring, and goes
on, and the lanes that had no room before queue the commands that were judged then: `bcopy`, `bcopy.mc`, `bread`, `bwrite` and `bzero` (R180, R382 to R387), and for their elected thread `lode.copy` and
`opres.S.fill` (R399, R437).
Where the spec is silent it rests on the model's choice in log entry 76, and on its readings in log entries 19, 33. -/
def Obligations.BulkCommandsQueue : Prop :=
  let queues (k : Opc) (i : Op → Instr) (tile : Op → Option Nat) (cmd : State → Op → Group → Thread → Except Flt Cmd) : Prop :=
    ∀ (o : Op) (s e : State) (c : Cur) (g : Group), s.Ready k o c g →
      let queued (x : Thread → Cmd → Prop) (xs : List Thread) : Prop := Chained (fun m t e => ∃ y ring, x t y ∧
        m.queueRoom g.ctx g.core = some ring ∧ e = (m.fillTile (quadOfCore g.core) y).enqueue g t y ring) s xs e
      let done : State := { e with bulkWait := e.bulkWait.filter fun x => x.1 != g.gid }
      let waiting := s.bulkWait.filter fun x => x.1 == g.gid
      (g.redo = none ∨ waiting = [] → heldBack (s.executing g o) = false → TileTakes s g (tile o) →
        queued (fun t y => cmd s o g t = .ok y) (s.executing g o) → exec (i o) s = .next (s.wentOn done k o c g)) ∧
      (g.redo.isSome = true → waiting ≠ [] → heldBack (s.executing g o) = false → TileTakes s g (tile o) →
        (s.uids g o).Nodup → s.uids g o = waiting.map (·.2.uid) →
        queued (fun t y => (g.gid, y) ∈ s.bulkWait ∧ y.uid = t.uid) (s.executing g o) → exec (i o) s = .next (s.wentOn done k o c g))
  queues .bcopy .bcopy (fun o => if o.imm.getLsbD 2 then some (o.imm.extractLsb' 3 6).toNat else none) bcopyCmd ∧
  queues .bcopyMc .bcopyMc (fun _ => none) multicastCmd ∧
  queues .bread .bread (fun _ => none) breadCmd ∧
  queues .bwrite .bwrite (fun _ => none) bwriteCmd ∧
  queues .bzero .bzero (fun _ => none) bzeroCmd ∧
  Elects .lodeCopy .lodeCopy (fun _ _ t => heldBack [t] = false) (fun o g s t e =>
    TileTakes s g (if o.imm.getLsbD 0 then some (o.imm.extractLsb' 1 6).toNat else none) ∧
    ∃ x ring, lodeCopyCmd s o g t = .ok x ∧ s.queueRoom g.ctx g.core = some ring ∧
      e = (s.fillTile (quadOfCore g.core) x).enqueue g t x ring) ∧
  Elects .opresFill .opresFill ForgeFree (fun o g s t e =>
    TileTakes s g (some o.d.toNat) ∧ ∃ x ring, fillCmd s o g t = .ok x ∧ s.queueRoom g.ctx g.core = some ring ∧
      e = (s.fillTile (quadOfCore g.core) x).enqueue g t x ring)

/-- A queued command stands last in its core's queue under its two-level name, its thread takes the next command sequence number and
holds the clause's flag, and no other thread changes (R180, R276, R311). A ring slot is what a command beyond the 64 takes (R182).
Where the spec is silent it rests on the model's choice in log entry 20, and on its reading in log entry 18. -/
def Obligations.QueuedCommand : Prop :=
  ∀ (s : State) (g : Group) (t : Thread) (x : Cmd) (ring : Option Nat), s.queueRoom g.ctx g.core = some ring →
    (ring = none ↔ (∀ y ∈ (s.core g.core).copyq, y.ring = none) ∧ (s.core g.core).copyq.length < 64) ∧
    ∃ y : Cmd, ((s.enqueue g t x ring).core g.core).copyq = (s.core g.core).copyq ++ [y] ∧
      y.op = x.op ∧ y.record = x.record ∧ y.todo = x.todo ∧ y.pc = g.pc ∧ y.seq = t.cmdseq ∧ y.uid = t.uid ∧ y.flag = g.flagNow ∧
      y.ring = ring ∧
      (∀ z, s.thread? t.uid = some z → (s.enqueue g t x ring).thread? t.uid = some (z.count.holdFlag g.flagNow)) ∧
      ∀ u, u ≠ t.uid → (s.enqueue g t x ring).thread? u = s.thread? u

/-! ## The forge (R391 to R418) -/

/-- Reservations (R395 to R400): `opres` takes the lowest free range of the operand buffer, or 0 in its predicate where none is free;
`opres.tm` defines over team memory; `oprel` releases once what names the entry is done.
Where the spec is silent it rests on the model's choice in log entry 10, and on its reading in log entry 37. -/
def Obligations.ReservationInstructions : Prop :=
  Elects .opres .opres ForgeFree (fun o g s t e =>
    s.mayDefine g o.d.toNat = true ∧ ∃ r, geometry o.ty (t.reg o.a.toNat).toNat = some r ∧
      ((s.freeRange (quadOfCore g.core) o.d.toNat r.length = none ∧ e = s.onThread t.uid fun y => y.setPred o.aux.toNat false) ∨
        ∃ b, s.freeRange (quadOfCore g.core) o.d.toNat r.length = some b ∧
          e = (s.defineTile g t o.d.toNat true 0 b r.length (some r)).onThread t.uid fun y => y.setPred o.aux.toNat true)) ∧
  Elects .opresTm .opresTm ForgeFree (fun o g s t e =>
    s.mayDefine g o.d.toNat = true ∧ ∃ r p, geometry o.ty (t.reg o.a.toNat).toNat = some r ∧
      s.tileRange g t (t.reg o.b.toNat) r.length = .ok p ∧
      e = s.defineTile g t o.d.toNat false (teamCore p % 4) p.addr r.length (some r)) ∧
  Elects .oprel .oprel ForgeFree (fun o g s t e =>
    ∃ r, (s.tileOf g o.d.toNat).bind (·.res) = some r ∧
      let q := quadOfCore g.core
      let m := s.charge [t.uid] g.flagNow false
      e = (m.setQuad q { m.quad q with
        releases := (m.quad q).releases ++ [.opres t.uid t.team o.d.toNat g.flagNow (s.naming q o.d.toNat)] }).settleQuad q)

/-- Accumulator tiles (R162, R401 to R403, R413 to R415): `accget` waits in the quad's list and is served in order, `accrel` releases
once the entries that name its tiles are done, and the direct accesses and the scalings act at once on a tile that the team holds; a direct
read gives the element, or the one before the latest forge write of the tile (R246). An `accget` that is served at once needs no free
entry; one that must wait and finds none holds its elected thread back (R393).
Where the spec is silent it rests on the model's choices in log entries 10, 72, and on its readings in log entries 31, 63. -/
def Obligations.AccumulatorInstructions : Prop :=
  let readyFor (_s : State) (xs : List Thread) : Prop := heldBack xs = false ∧ ∀ t ∈ xs, t.rdy = 0
  (let judged (o : Op) (g : Group) (s : State) (t : Thread) : State :=
     let q := quadOfCore g.core
     let m := (s.charge [t.uid] g.flagNow false).onThread t.uid fun y => { y with acct := y.acct + 1 }
     let w : Waiter := ⟨t.uid, g.gid, g.core, t.team, match s.team? t.team with | some u => u.step | none => 0, s.clock, t.slot,
       (if o.len.isExt then (o.imm.extractLsb' 0 5).toNat else o.b.toNat) + 1, o.d.toNat,
       if o.len.isExt then o.aux.toNat else o.a.toNat, g.flagNow⟩
     (m.setQuad q { m.quad q with waiters := (m.quad q).waiters ++ [w] }).judgeWaiters q ((m.quad q).waiters.length + 2)
   let waits (g : Group) (t : Thread) (e : State) : Bool := (e.quad (quadOfCore g.core)).waiters.any fun w => w.uid == t.uid
   Elects .accget .accget ForgeFree (fun o g s t e =>
     t.acct = 0 ∧ e = judged o g s t ∧ (s.entryRoom g.core = true ∨ waits g t e = false)) ∧
   SplitsOff .accget .accget ForgeFree (fun o g s t =>
     t.acct = 0 ∧ s.entryRoom g.core = false ∧ waits g t (judged o g s t) = true)) ∧
  Elects .accrel .accrel ForgeFree (fun o g s t e =>
    let q := quadOfCore g.core
    let named := (List.range 32).filter fun i => bitAt (t.reg o.a.toNat).toNat i
    (∀ i ∈ named, s.heldAcc q t.team i ≠ none) ∧
      let m := named.foldl (fun (m : State) i => m.onAcc q i fun a => { a with going := true }) (s.charge [t.uid] g.flagNow false)
      e = (m.setQuad q { m.quad q with releases := (m.quad q).releases ++ [.acc t.uid t.team (t.reg o.a.toNat) g.flagNow
        (((s.quad q).entries.filter fun x => x.op.accs.any fun a => named.contains a).map (·.id))] }).settleQuad q) ∧
  Acts .accrd .accrd readyFor (fun o g s t e =>
    ∃ a, s.heldAcc (quadOfCore g.core) t.team (Op.handle o o.b t) = some a ∧ elemOf o t + o.accCount ≤ 16384 ∧
      s.poisoned ⟨.acc (quadOfCore g.core), 65536 * Op.handle o o.b t + 4 * elemOf o t⟩ (4 * o.accCount) = false ∧
      e = (s.onThread t.uid fun y => y.setRegs o.d.toNat
        ((List.range o.accCount).map fun k => s.accSeen a t (elemOf o t + k))).onAcc (quadOfCore g.core) (Op.handle o o.b t)
          fun a => a.noteLast 6 s.ns) ∧
  Acts .accwr .accwr readyFor (fun o g s t e =>
    s.heldAcc (quadOfCore g.core) t.team (Op.handle o o.d t) ≠ none ∧ elemOf o t + o.accCount ≤ 16384 ∧
      e = (s.lift ⟨.acc (quadOfCore g.core), 65536 * Op.handle o o.d t + 4 * elemOf o t⟩ (4 * o.accCount)).onAcc (quadOfCore g.core)
        (Op.handle o o.d t) fun a => (List.range o.accCount).foldl (fun a k =>
          a.putDirect (s.accBusy (quadOfCore g.core) (Op.handle o o.d t)) (elemOf o t + k) (t.reg (o.b.toNat + k)).toNat) a) ∧
  Acts .accrdSide .accrdSide readyFor (fun o g s t e =>
    ∃ a, s.heldAcc (quadOfCore g.core) t.team (Op.handle o o.b t) = some a ∧
      e = s.onThread t.uid fun y => y.setRegs o.d.toNat
        [BitVec.ofNat 32 (a.side (rowOf o t)).1, BitVec.ofNat 32 (a.side (rowOf o t)).2]) ∧
  Acts .accwrSide .accwrSide readyFor (fun o g s t e =>
    s.heldAcc (quadOfCore g.core) t.team (Op.handle o o.d t) ≠ none ∧
      e = s.onAcc (quadOfCore g.core) (Op.handle o o.d t) fun a =>
        a.setSide (rowOf o t) (t.reg o.b.toNat).toNat (t.reg (o.b.toNat + 1)).toNat) ∧
  Elects .accscale .accscale ForgeFree (fun o g s t e =>
    s.heldAcc (quadOfCore g.core) t.team (Op.handle o o.d t) ≠ none ∧
      s.poisoned ⟨.acc (quadOfCore g.core), 65536 * Op.handle o o.d t⟩ 65536 = false ∧
      e = s.onAcc (quadOfCore g.core) (Op.handle o o.d t) fun a =>
        a.scaleDirect (s.accBusy (quadOfCore g.core) (Op.handle o o.d t)) fun _ x => mulF32 x (o.srcB32 t).toNat) ∧
  Elects .accscaleNorm .accscaleNorm ForgeFree (fun o g s t e =>
    s.heldAcc (quadOfCore g.core) t.team (Op.handle o o.d t) ≠ none ∧
      s.poisoned ⟨.acc (quadOfCore g.core), 65536 * Op.handle o o.d t⟩ 65536 = false ∧
      e = s.onAcc (quadOfCore g.core) (Op.handle o o.d t) fun a =>
        a.scaleDirect (s.accBusy (quadOfCore g.core) (Op.handle o o.d t)) fun n x => divF32 x (a.side (n / 128)).2) ∧
  ∀ (s : State) (a : Acc) (t : Thread) (busy : Bool) (e v : Nat) (f : Nat → Nat → Nat),
    (s.accSeen a t e = Tab.get 0 e a.elems ∨ s.accSeen a t e = Tab.get 0 e a.prev) ∧
    (v < 2 ^ 32 → (a.putDirect busy e v).elem e = v) ∧ (∀ k, k ≠ e → (a.putDirect busy e v).elem k = a.elem k) ∧
    (∀ k < 16384, (a.scaleDirect busy f).elem k = f k (a.elem k) % 2 ^ 32) ∧
    (∀ k, (a.putDirect busy e v).side k = a.side k ∧ (a.scaleDirect busy f).side k = a.side k) ∧
    ∀ (q n : Nat) (w : Waiter) (ws : List Waiter), sortBy Waiter.le (s.quad q).waiters = w :: ws →
      (w.want ≤ (s.freeAccs q).length →
        s.judgeWaiters q (n + 1) = (s.answerWaiter q w ((s.freeAccs q).take w.want)).judgeWaiters q n) ∧
      ((s.freeAccs q).length < w.want → ws = [] → s.judgeWaiters q (n + 1) = s)

/-- `mma`, `mma.sp`, `smx`, `accflush` and `accflush.st` post an entry that their parameters describe (R394, R404, R411, R416); without a
free entry the elected thread is held back alone (R393); and `forge.rdy` waits for its thread's earlier stores (R417). -/
def Obligations.ForgeInstructionsPost : Prop :=
  Elects .mma .mma ForgeFree (fun o g s t e => ∃ x op n, s.paramBlock t (o.laddr t) 32 = .ok x ∧
    mmaOf s g t false x = some (op, n) ∧ s.post g t op (counterOf (fieldAt x 0x10 4)) n = .done e) ∧
  Elects .mmaSp .mmaSp ForgeFree (fun o g s t e => ∃ x op n, s.paramBlock t (o.laddr t) 32 = .ok x ∧
    mmaOf s g t true x = some (op, n) ∧ s.post g t op (counterOf (fieldAt x 0x10 4)) n = .done e) ∧
  Elects .smx .smx ForgeFree (fun o g s t e => ∃ x op, s.paramBlock t (o.laddr t) 32 = .ok x ∧
    smxOf s g t x = some op ∧ s.post g t op (counterOf (fieldAt x 0x10 4)) 1 = .done e) ∧
  (let flushes (o : Op) (g : Group) (s : State) (t : Thread) (r : TRec) : Prop :=
    s.slotRec g.core o.b.toNat = some r ∧ s.heldAcc (quadOfCore g.core) t.team (Op.handle o o.d t) ≠ none ∧ r.es = 4 ∧
      r.ext.getD 0 1 ≤ 128 ∧ r.ext.getD 1 1 ≤ 128 ∧ r.ext.getD 2 1 = 1 ∧ r.ext.getD 3 1 = 1 ∧ windowFault s g.ctx r = none
   let posts (add : Bool) (o : Op) (g : Group) (s : State) (t : Thread) (e : State) : Prop :=
     ∃ r, flushes o g s t r ∧ s.post g t (.flush (Op.handle o o.d t) r add) none 1 = .done e
   let full (o : Op) (g : Group) (s : State) (t : Thread) : Prop := s.entryRoom g.core = false ∧ ∃ r, flushes o g s t r
   Elects .accflush .accflush ForgeFree (posts true) ∧ Elects .accflushSt .accflushSt ForgeFree (posts false) ∧
   SplitsOff .accflush .accflush ForgeFree full ∧ SplitsOff .accflushSt .accflushSt ForgeFree full) ∧
  (let full (sparse : Bool) (o : Op) (g : Group) (s : State) (t : Thread) : Prop :=
     s.entryRoom g.core = false ∧ ∃ x, s.paramBlock t (o.laddr t) 32 = .ok x ∧ (mmaOf s g t sparse x).isSome = true
   SplitsOff .mma .mma ForgeFree (full false) ∧ SplitsOff .mmaSp .mmaSp ForgeFree (full true)) ∧
  SplitsOff .smx .smx ForgeFree (fun o g s t =>
    s.entryRoom g.core = false ∧ ∃ x, s.paramBlock t (o.laddr t) 32 = .ok x ∧ (smxOf s g t x).isSome = true) ∧
  ∀ (o : Op) (s : State) (c : Cur) (g : Group), s.Ready .forgeRdy o c g → heldBack (s.executing g o) = false →
    (∀ t ∈ s.executing g o, t.rdy = 0) →
    exec (.forgeRdy o) s = .next (s.wentOn ((s.executing g o).foldl (fun (e : State) t =>
      let late : Late := .rdy t.uid g.flagNow (((e.requestsOf t.uid).filter fun p => !p.op.isLoad).map (·.id) ++
        (e.lodes.filter fun q => q.uid == t.uid && (match q.kind with | .store .. => true | _ => false)).map (·.op))
      { e.onThread t.uid fun y => { y.holdFlag g.flagNow with rdy := y.rdy + 1, rdyAt := e.free } with late := e.late ++ [late] }) s).settleFences
      .forgeRdy o c g)

/-! ## The seam unit (R419 to R434) -/

/-- Families, hashing, probes and gathers (R423 to R429); without a free entry the elected thread is held back alone (R393, R421).
Where the spec is silent it rests on the model's readings in log entries 24, 83. -/
def Obligations.SeamLookups : Prop :=
  Elects .seamFam .seamFam SeamFree (fun o g s t e =>
    let p := bits (o.srcB32 t).toNat 4 0
    let d := bits (o.srcB32 t).toNat 28 16
    ∃ x r, s.resOf g o.a.toNat = some (x, r) ∧ x.opbuf = true ∧ r.fmt = .f16 ∧ 1 ≤ p ∧ p ≤ 24 ∧ d % 16 = 0 ∧ 1 ≤ d ∧ d ≤ 4096 ∧
      p * d ≤ r.rows * r.rowlen ∧
      e = (s.setCore g.core { s.core g.core with
        fams := Tab.set o.d.toNat ⟨o.a.toNat, x.gen, p, d⟩ (s.core g.core).fams }).onThread t.uid Thread.count) ∧
  Elects .seamHash .seamHash SeamFree (fun o g s t e => ∃ x op n, s.paramBlock t (t.reg o.a.toNat) 32 = .ok x ∧
    s.descsAway g.ctx g.core [BitVec.ofNat 64 (fieldAt x 0 8)] = false ∧ hashOf s g t x = .ok (op, n) ∧ s.entryRoom g.core = true ∧
    (s.readDescs g [BitVec.ofNat 64 (fieldAt x 0 8)]).post g t op (counterOf (fieldAt x 0x14 4)) n = .done e) ∧
  Elects .seamProbe .seamProbe SeamFree (fun o g s t e => ∃ x tabs multi oidx ctr, s.paramBlock t (t.reg o.a.toNat) 96 = .ok x ∧
    s.descsAway g.ctx g.core (probeDescs x) = false ∧ probeOf s g t x false = .ok (tabs, multi, oidx, ctr) ∧ s.fillsNow (quadOfCore g.core) oidx = true ∧ s.seamRoom g.core = true ∧
    e = ((s.readDescs g (probeDescs x)).fillWith (quadOfCore g.core) oidx 260).queueSeam g t [t.uid] (.probe tabs multi oidx) ctr) ∧
  Elects .seamProbePre .seamProbePre SeamFree (fun o g s t e => ∃ x tabs multi oidx ctr, s.paramBlock t (t.reg o.a.toNat) 96 = .ok x ∧
    s.descsAway g.ctx g.core (probeDescs x) = false ∧ probeOf s g t x true = .ok (tabs, multi, oidx, ctr) ∧ s.seamRoom g.core = true ∧
    e = (s.readDescs g (probeDescs x)).queueSeam g t [t.uid] (.pre tabs multi) none) ∧
  Elects .seamGather .seamGather SeamFree (fun o g s t e => ∃ x tile r list d p table, s.paramBlock t (t.reg o.a.toNat) 32 = .ok x ∧
    fieldAt x 8 1 < 64 ∧ fieldAt x 9 1 < 64 ∧ bits (fieldAt x 0xC 4) 31 10 = 0 ∧ fieldAt x 0x10 16 = 0 ∧
    s.descsAway g.ctx g.core [BitVec.ofNat 64 (fieldAt x 0 8)] = false ∧
    s.resOf g (fieldAt x 9 1) = some (tile, r) ∧ s.tileOf g (fieldAt x 8 1) = some list ∧
    descAt s g.ctx (BitVec.ofNat 64 (fieldAt x 0 8)) .load = .ok (p, table, d) ∧ d.dim ≤ r.rowlen ∧ fieldAt x 0xA 2 < r.rows ∧
    s.fillsNow (quadOfCore g.core) (fieldAt x 9 1) = true ∧ s.seamRoom g.core = true ∧
    e = ((s.readDescs g [BitVec.ofNat 64 (fieldAt x 0 8)]).fillWith (quadOfCore g.core) (fieldAt x 9 1) (r.bytesFrom (fieldAt x 0xA 2))).queueSeam g t [t.uid]
      (.gather table (fieldAt x 8 1) (fieldAt x 9 1) (fieldAt x 0xA 2) (bitAt (fieldAt x 0xC 4) 9))
      (flag7 (bitAt (fieldAt x 0xC 4) 8) (bits (fieldAt x 0xC 4) 7 0))) ∧
  SplitsOff .seamHash .seamHash SeamFree (fun o g s t => s.entryRoom g.core = false ∧ ∃ x, s.paramBlock t (t.reg o.a.toNat) 32 = .ok x ∧
    s.descsAway g.ctx g.core [BitVec.ofNat 64 (fieldAt x 0 8)] = false ∧ (hashOf s g t x).isOk = true) ∧
  SplitsOff .seamProbe .seamProbe SeamFree (fun o g s t => s.seamRoom g.core = false ∧
    ∃ x tabs multi oidx ctr, s.paramBlock t (t.reg o.a.toNat) 96 = .ok x ∧ s.descsAway g.ctx g.core (probeDescs x) = false ∧
      probeOf s g t x false = .ok (tabs, multi, oidx, ctr) ∧ s.fillsNow (quadOfCore g.core) oidx = true) ∧
  SplitsOff .seamProbePre .seamProbePre SeamFree (fun o g s t => s.seamRoom g.core = false ∧
    ∃ x, s.paramBlock t (t.reg o.a.toNat) 96 = .ok x ∧ s.descsAway g.ctx g.core (probeDescs x) = false ∧
      (probeOf s g t x true).isOk = true) ∧
  SplitsOff .seamGather .seamGather SeamFree (fun o g s t => s.seamRoom g.core = false ∧
    ∃ x tile r list d p table, s.paramBlock t (t.reg o.a.toNat) 32 = .ok x ∧
      fieldAt x 8 1 < 64 ∧ fieldAt x 9 1 < 64 ∧ bits (fieldAt x 0xC 4) 31 10 = 0 ∧ fieldAt x 0x10 16 = 0 ∧
      s.descsAway g.ctx g.core [BitVec.ofNat 64 (fieldAt x 0 8)] = false ∧
      s.resOf g (fieldAt x 9 1) = some (tile, r) ∧ s.tileOf g (fieldAt x 8 1) = some list ∧
      descAt s g.ctx (BitVec.ofNat 64 (fieldAt x 0 8)) .load = .ok (p, table, d) ∧ d.dim ≤ r.rowlen ∧ fieldAt x 0xA 2 < r.rows ∧
      s.fillsNow (quadOfCore g.core) (fieldAt x 9 1) = true)

/-- Changing tables (R204 to R206, R213, R430 to R433): one entry for the lanes of `seam.ins` and `seam.del`; `seam.ver` begins a
migration in the descriptor, `seam.rehash` claims buckets, `seam.fin` ends the migration, and `seam.pub` publishes rows. Where the queue
has no room the executing threads are held back, and the others go on (R393, R421).
Where the spec is silent it rests on the model's choices in log entries 22, 93, and on its readings in log entries 24, 26. -/
def Obligations.SeamUpdates : Prop :=
  let each (k : Opc) (i : Op → Instr) (del : Bool) (op : List SeamLane → SeamOp) : Prop :=
    ∀ (o : Op) (s : State) (c : Cur) (g : Group) (t : Thread) (rest : List Thread) (l : Thread → SeamLane), s.Ready k o c g →
      s.executing g o = t :: rest → heldBack (t :: rest) = false → (∀ x ∈ t :: rest, s.storing x.uid = false) →
      s.descsAway g.ctx g.core ((t :: rest).map fun x => x.pair o.a.toNat) = false →
      (∀ x ∈ t :: rest, seamLane s o g x del = .ok (l x)) →
      let off := g.members.filter fun u => !(s.uids g o).contains u
      (s.seamRoom g.core = true →
        exec (i o) s = .next (s.wentOn ((s.readDescs g ((t :: rest).map fun x => x.pair o.a.toNat)).queueSeam g t (s.uids g o)
          (op ((t :: rest).map l)) none) k o c g)) ∧
      (s.seamRoom g.core = false → off = [] → exec (i o) s = .next { s with stalls := g.gid :: s.stalls }) ∧
      (s.seamRoom g.core = false → off ≠ [] → exec (i o) s = .next (s.wentTo ((s.uncount g.core (t :: rest).length).splitGroup g
        [(s.uids g o, id), (off, fun h => h.past c.len true)]) k o g))
  each .seamIns .seamIns false .ins ∧ each .seamDel .seamDel true .del ∧
  Elects .seamVer .seamVer SeamFree (fun o g s t e =>
    let k := (o.imm.extractLsb' 5 3).toNat
    let b := (o.imm.extractLsb' 0 5).toNat
    let bkt := (t.pair o.b.toNat).toNat
    ∃ p table d f, descAt s g.ctx (t.pair o.a.toNat) .atomic = .ok (p, table, d) ∧ s.family g.core k = some f ∧ d.mig = false ∧
      b ≤ 24 ∧ b ≤ f.p ∧ f.d = d.dim ∧ bkt < 2 ^ 52 ∧ bkt % 4096 = 0 ∧ s.descsAway g.ctx g.core [t.pair o.a.toNat] = false ∧ s.seamRoom g.core = true ∧
      let m := (s.readDescs g [t.pair o.a.toNat]).putDesc g.ctx g.core p
        [(0, 4, d.word0 true d.cur 0), (4, 4, 0), (0x20 + 16 * (1 - d.cur), 8, bkt), (0x28 + 16 * (1 - d.cur), 4, k * 256 + b),
         (0x2C + 16 * (1 - d.cur), 4, 0)]
      e = ({ m with claims := m.claims.filter fun x => x.1 != p } : State).queueSeam g t [t.uid] .ver none) ∧
  Elects .seamRehash .seamRehash SeamFree (fun o g s t e =>
    ∃ p table d, descAt s g.ctx (t.pair o.a.toNat) .atomic = .ok (p, table, d) ∧ d.mig = true ∧
      firstOf (versionFaults s g.core d (t.pair o.a.toNat) d.versions) = .ok () ∧
      s.descsAway g.ctx g.core [t.pair o.a.toNat] = false ∧ s.seamRoom g.core = true ∧
      let n := min (o.srcB32 t).toNat (2 ^ d.now.log2b - d.claim)
      let m := (s.readDescs g [t.pair o.a.toNat]).putDesc g.ctx g.core p [(4, 4, d.claim + n)]
      e = ({ m with claims := m.claims ++ (List.range n).map fun i => (p, d.claim + i) } : State).queueSeam g t [t.uid]
        (.rehash table d.claim n) none) ∧
  Elects .seamFin .seamFin SeamFree (fun o g s t e =>
    ∃ p table d, descAt s g.ctx (t.pair o.a.toNat) .atomic = .ok (p, table, d) ∧ d.mig = true ∧ d.cursor = 2 ^ d.now.log2b ∧
      firstOf (versionFaults s g.core d (t.pair o.a.toNat) [d.now]) = .ok () ∧
      s.descsAway g.ctx g.core [t.pair o.a.toNat] = false ∧ s.seamRoom g.core = true ∧
      e = (s.readDescs g [t.pair o.a.toNat]).queueSeam g t [t.uid] (.fin table) none) ∧
  Elects .seamPub .seamPub SeamFree (fun o g s t e =>
    ∃ p table d tile, descAt s g.ctx (t.pair o.a.toNat) .atomic = .ok (p, table, d) ∧ s.tileOf g o.b.toNat = some tile ∧
      d.master ≠ 0 ∧ s.descsAway g.ctx g.core [t.pair o.a.toNat] = false ∧ s.seamRoom g.core = true ∧
      e = (s.readDescs g [t.pair o.a.toNat]).queueSeam g t [t.uid] (.publish table o.b.toNat) none) ∧
  (let full (o : Op) (g : Group) (s : State) (t : Thread) (holds : TableRef → Desc → Prop) : Prop :=
     s.seamRoom g.core = false ∧ s.descsAway g.ctx g.core [t.pair o.a.toNat] = false ∧
       ∃ p table d, descAt s g.ctx (t.pair o.a.toNat) .atomic = .ok (p, table, d) ∧ holds table d
   SplitsOff .seamVer .seamVer SeamFree (fun o g s t => full o g s t fun _ d =>
     ∃ f, s.family g.core (o.imm.extractLsb' 5 3).toNat = some f ∧ d.mig = false ∧ (o.imm.extractLsb' 0 5).toNat ≤ 24 ∧
       (o.imm.extractLsb' 0 5).toNat ≤ f.p ∧ f.d = d.dim ∧ (t.pair o.b.toNat).toNat < 2 ^ 52 ∧ (t.pair o.b.toNat).toNat % 4096 = 0) ∧
   SplitsOff .seamRehash .seamRehash SeamFree (fun o g s t => full o g s t fun _ d =>
     d.mig = true ∧ firstOf (versionFaults s g.core d (t.pair o.a.toNat) d.versions) = .ok ()) ∧
   SplitsOff .seamFin .seamFin SeamFree (fun o g s t => full o g s t fun _ d =>
     d.mig = true ∧ d.cursor = 2 ^ d.now.log2b ∧ firstOf (versionFaults s g.core d (t.pair o.a.toNat) [d.now]) = .ok ()) ∧
   SplitsOff .seamPub .seamPub SeamFree (fun o g s t => full o g s t fun _ d => d.master ≠ 0 ∧ (s.tileOf g o.b.toNat).isSome = true))

/-- `seam.fence` waits for its thread's seam operations, and `nzscan` lists the live elements of a vector into its tile in one act and
completes when the tile is ready (R215, R432, R434).
Where the spec is silent it rests on the model's choice in log entry 22, and on its reading in log entry 25. -/
def Obligations.SeamFenceAndScan : Prop :=
  (let fences (k : Opc) (i : Op → Instr) : Prop := ∀ (o : Op) (s : State) (c : Cur) (g : Group), s.Ready k o c g →
      heldBack (s.executing g o) = false →
      exec (i o) s = .next (s.wentOn ((s.executing g o).foldl (fun (e : State) t =>
        let late : Late := .seamFence t.uid g.flagNow (e.seamOps (quadOfCore g.core) t.uid)
        ({ e with late := e.late ++ [late] } : State).onThread t.uid fun y =>
          { y.count.holdFlag g.flagNow with holds := y.holds + 1 }) s).settleUnits k o c g)
   fences .seamFencePkg .seamFencePkg ∧ fences .seamFencePod .seamFencePod) ∧
  ∀ (o : Op) (s : State) (c : Cur) (g : Group) (t : Thread) (p : PAddr) (tile : Tile), s.Ready .nzscan o c g →
    elected (s.executing g o) = some t → g.isSealed = true → heldBack (s.executing g o) = false →
    let q := quadOfCore g.core
    let idx := (o.imm.extractLsb' 0 6).toNat
    let l := (o.srcB32 t).toNat
    let es := o.ty.bits / 8
    1 ≤ l → l ≤ 8192 → s.teamPlace t (t.reg o.a.toNat) (l * es) es = .ok p → s.tileOf g idx = some tile → 4 + 4 * l ≤ tile.len →
    tile.canFill = true → s.poisoned p (l * es) = false →
    let live := (List.range l).filter fun i => liveElem o.ty (s.natAt (p.plus (es * i)) es)
    let m := ((s.fillWith q idx (4 + 4 * l)).localWrite (tile.place q) (rowList false live)).landTile q (some (idx, tile.gen)) (4 + 4 * l)
    let m : State := { m with nextId := m.nextId + 1, late := m.late ++
      [.scan m.nextId (s.uids g o) g.flagNow q idx o.d.toNat live.length t.team] }
    exec (.nzscan o) s = .next (s.wentOn
      ((m.charge (s.uids g o) g.flagNow true).settleQuad q) .nzscan o c g)

/-! ## The lode (R218 to R226, R436 to R438, R472) -/

/-- The walker's instructions (R436 to R438): `lode.next` and `lode.count` leave the group waiting for its walkers, and `lode.grow` and
`lode.trim` act at once for their elected thread within the pool's limit. A grow by 0 completes at once. The walker performs a waiting operation as one act once those
before it on its subtree and the thread's buffered stores are done, the lines that it visits can be reached and, for `lode.grow` and
`lode.trim`, the context runs; a bad region descriptor refuses it with SEAM_BAD_TABLE; the act of a load gives the thread its element,
that of a store writes it (R34, R218, R223, R237, R281, R472).
Where the spec is silent it rests on the model's choice in log entry 22, and on its readings in log entries 73, 83, 87. -/
def Obligations.LodeInstructionsAndWalker : Prop :=
  ((∀ (o : Op) (s : State) (c : Cur) (g : Group) (r : Thread → Nat × Region), s.Ready .lodeNext o c g →
     heldBack (s.executing g o) = false → s.executing g o ≠ [] →
     (∀ t ∈ s.executing g o, -1 ≤ t.signedPair o.a ∧ regionOf s g.ctx (t.pair o.b.toNat) .load = .ok (r t)) →
     exec (.lodeNext o) s = .next (s.wentTo ((((s.executing g o).foldl (fun (e : State) t =>
       (e.noteTlb g.core g.ctx (t.pair o.b.toNat)).askLode g t (r t).1 (t.pair o.b.toNat)
         (.next (t.signedPair o.a) o.d.toNat o.c.toNat o.aux.toNat)) s).uncount g.core (s.executing g o).length).onGroup g.gid
         fun h => { h with wait := .lode }) .lodeNext o g)) ∧
   (∀ (o : Op) (s : State) (c : Cur) (g : Group) (r : Thread → Box × Nat × Region), s.Ready .lodeCount o c g →
     heldBack (s.executing g o) = false → s.executing g o ≠ [] →
     (∀ t ∈ s.executing g o, s.boxOf g.ctx t (t.reg o.a.toNat) = .ok (r t)) →
     exec (.lodeCount o) s = .next (s.wentTo ((((s.executing g o).foldl (fun (e : State) t =>
       (e.noteTlb g.core g.ctx (r t).1.region).askLode g t (r t).2.1 (r t).1.region
         (.count (r t).1.orig (r t).1.ext o.d.toNat ((r t).2.2.linOf (r t).1.orig) 0)) s).uncount g.core (s.executing g o).length).onGroup g.gid
         fun h => { h with wait := .lode }) .lodeCount o g)) ∧
   (∀ (o : Op) (s : State) (c : Cur) (g : Group) (t : Thread) (d n : Nat) (r : Region),
     elected (s.executing g o) = some t → heldBack (s.executing g o) = false →
     poolCheck s g.ctx (t.pair o.a.toNat) = .ok (d, r, n) →
     (s.Ready .lodeGrow o c g → n + (o.srcB32 t).toNat ≤ r.poolmax → (o.srcB32 t).toNat ≠ 0 →
       exec (.lodeGrow o) s = .next (s.wentOn
         ((s.notePool g.ctx d r).walkerCommand g t d r (t.pair o.a.toNat) (.grow (o.srcB32 t).toNat)) .lodeGrow o c g)) ∧
     (s.Ready .lodeGrow o c g → n ≤ r.poolmax → (o.srcB32 t).toNat = 0 →
       exec (.lodeGrow o) s = .next (s.wentOn (((s.notePool g.ctx d r).charge [t.uid] g.flagNow true).onThread t.uid
         fun y => y.dropFlag g.flagNow) .lodeGrow o c g)) ∧
     (s.Ready .lodeTrim o c g →
       exec (.lodeTrim o) s = .next (s.wentOn
         ((s.notePool g.ctx d r).walkerCommand g t d r (t.pair o.a.toNat) (.trim (o.srcB32 t).toNat o.d.toNat)) .lodeTrim o c g)))) ∧
  (∀ (s : State) (q : LodeReq), s.lodes.find? (fun x => x.op == q.op && x.refused.isNone && x.halted.isNone) = some q →
     (∀ r, regionRead s q.region = .ok r → (∀ x ∈ s.lodes.takeWhile (fun x => x.op != q.op), q.before x (subOf r) = false) →
       s.laneHeld q = false →
       s.allPass q.ctx (some q.core) ((nodePlaces s q.ctx (lodeVas s q r)).map fun p => (p, 256)) = true → s.tablesWait q.ctx = false →
       (q.gid ≠ 0 ∨ (s.ctxStopped q.ctx = false ∧ s.images.any (fun i => i.core == q.core && i.ctx == q.ctx) = false)) →
       exec (.lodeOperation q.op) s =
         .next (((((s.noteDesc q.region).noteWalk q.core q.ctx (lodeVas s q r)).lodeAct q r).settleLode q.gid).settleFences.settleExits)) ∧
     (∀ e, regionRead s q.region = .error e → q.gid ≠ 0 →
       exec (.lodeOperation q.op) s = .next ((((s.noteDesc q.region).lodeRefuse q (e, q.va)).settleLode q.gid).settleExits))) ∧
  ∀ (s : State) (q : LodeReq) (r : Region),
    let lin := (q.va.toNat - r.vbase) / r.es
    (∀ dreg ty acquires empties v, q.kind = .load dreg ty acquires empties → lodeLoad s q.ctx r lin = .ok v →
      s.lodeAct q r = (if empties then s.emptyL1 q.core else s).lodeAnswer q fun t =>
        let y := t.dst ty (BitVec.ofNat 9 dreg) (tyWrite ty false (tyVal ty (BitVec.ofNat 64 v)))
        if acquires then y.observe (if empties then s.emptyL1 q.core else s).nextId else y) ∧
    ∀ v ty m, q.kind = .store v ty → lodeStore s q.ctx r lin (v.toNat % 2 ^ (8 * r.es)) q.va = .ok m → s.lodeAct q r = m.lodeAnswer q id

/-! ## Clauses and scheduling (R139, R142, R143, R309 to R312, R317, R473) -/

/-- A clause header fetches its clause, the group waits at it, and the clause begins once the flags that it waits for are clear; a fetch
that fails, or a word that is no clause header or no instruction, stops the group there, and threads whose launches patch the clause
differently part (R324). A deferred fault of a flag that the header names is taken at the header, before any other test, and a SET1 or
SET2 of 12 to 14 is ILLEGAL_OP once the flags are clear (R473). A bin and an overflow thread of BINAGE cycles
are released as a subgroup, and a ready group of 1,024 cycles becomes class 3.
Where the spec is silent it rests on the model's readings in log entries 16, 38, 57. -/
def Obligations.ClausesAndAges : Prop :=
  ∀ (s : State) (c : Cur) (g : Group),
    (∀ (count set2 set1 : BitVec 4) (wait : BitVec 12) (ws : List Word), s.Issuing c g → s.breakHit g = false →
      let hdr : Word := count ++ set2 ++ set1 ++ wait ++ (0x04 : BitVec 8)
      s.fetchClause g hdr (count.toNat + 1) = .ok ws → s.fetchParts g hdr (count.toNat + 1) = [] →
      let cl : Clause := { set1 := set1.toNat, set2 := set2.toNat, left := count.toNat + 1, long := false, words := ws }
      let m := (s.noteClause g hdr (count.toNat + 1)).onGroup g.gid fun h => { h with clause := some cl, wait := .header wait.toNat }
      ∀ h, m.group? c.gid = some h → exec (.clauseHeader count set2 set1 wait) s = .next (m.tryBegin h)) ∧
    (∀ (count set2 set1 : BitVec 4) (wait : BitVec 12), s.Issuing c g → s.breakHit g = false →
      let hdr : Word := count ++ set2 ++ set1 ++ wait ++ (0x04 : BitVec 8)
      s.fetchParts g hdr (count.toNat + 1) ≠ [] →
      exec (.clauseHeader count set2 set1 wait) s =
        .next (s.splitGroup g ((s.fetchParts g hdr (count.toNat + 1)).map fun p => (p, id)))) ∧
    (∀ (count set2 set1 : BitVec 4) (wait : BitVec 12) (e : Cls × DWord), s.Issuing c g → s.breakHit g = false →
      s.fetchClause g (count ++ set2 ++ set1 ++ wait ++ (0x04 : BitVec 8)) (count.toNat + 1) = .error e →
      s.fetchParts g (count ++ set2 ++ set1 ++ wait ++ (0x04 : BitVec 8)) (count.toNat + 1) = [] →
      exec (.clauseHeader count set2 set1 wait) s =
        .next (s.takeStop g g.pc true ((s.membersOf g).map fun t => (t, { cls := e.1, addr := e.2 })))) ∧
    (∀ (mask : Nat) (cl : Clause), s.group? g.gid = some g → g.wait = .header mask → g.clause = some cl →
      s.ctxStopped g.ctx = false → s.deferredOn g mask = [] → (cl.set1 < 12 ∨ cl.set1 = 15) → (cl.set2 < 12 ∨ cl.set2 = 15) →
      (s.flagsClear g mask = true → exec (.clauseBegin g.core g.gid) s = .next (State.onGroup
        (if mask = 0 then s else s.onThreads g.members fun t => t.observe s.nextId) g.gid fun h =>
          { h with pc := h.pc + 4, wait := .none, bpSkip := none, ready := s.clock })) ∧
      (s.flagsClear g mask = false → exec (.clauseBegin g.core g.gid) s = .next s)) ∧
    (∀ (mask : Nat) (cl : Clause), s.group? g.gid = some g → g.wait = .header mask → g.clause = some cl → s.ctxStopped g.ctx = false →
      let m := s.onGroup g.gid fun h => { h with clause := none }
      (s.deferredOn g mask ≠ [] → exec (.clauseBegin g.core g.gid) s = .next (m.takeDeferred g (s.deferredOn g mask))) ∧
      (s.deferredOn g mask = [] → s.flagsClear g mask = true → (12 ≤ cl.set1 ∧ cl.set1 ≤ 14) ∨ (12 ≤ cl.set2 ∧ cl.set2 ≤ 14) →
        exec (.clauseBegin g.core g.gid) s = .next (m.takeStop g g.pc true (allTake (s.membersOf g) .illegalOp)))) ∧
    (s.Issuing c g → s.breakHit g = false →
      exec .unassignedEncoding s = .next (s.takeStop g g.pc g.clause.isNone (allTake (s.membersOf g) .illegalOp))) ∧
    (s.groups.find? (fun h => s.isReady h && !h.aged && decide (1024 ≤ s.clock - h.ready)) = some g →
      exec .priorityAge s = .next (s.onGroup g.gid fun h => { h with aged := true })) ∧
    (∀ n b, s.cores.findSome? (fun e => (e.2.bins.find? fun b => decide (e.2.binage ≤ s.clock - b.since)).map fun b => (e.1, b)) =
        some (n, b) →
      exec .binAgeRelease s = .next ((s.setCore n { s.core n with
        bins := (s.core n).bins.filter fun x => !(x.key == b.key && x.ctx == b.ctx) }).releaseGroup n b.ctx b.key b.threads 5)) ∧
    ∀ n f, s.cores.findSome? (fun e => e.2.overflow.head?.bind fun f =>
        if e.2.binage ≤ s.clock - f.at_ then some (e.1, f) else none) = some (n, f) →
      let ids := (((s.core n).overflow.filter fun x => x.key == f.key && x.ctx == f.ctx).map (·.uid)).take 128
      exec .overflowRelease s = .next ((s.setCore n { s.core n with
        overflow := (s.core n).overflow.filter fun x => !ids.contains x.uid }).releaseGroup n f.ctx f.key ids 5)

/-! ## The shaft fabric (R43 to R70) -/

/-- A request enters a stage and merges only with the last request to its word that entered, while it waits, leaves it for the next stage, acts
once at its home slice, and its reply comes back by the same entries: split in serial order at each merge, delivered to the thread or to the shaft
die (R45, R54 to R60, R63). One whose time has run out takes FABRIC_TIMEOUT with all that were merged with it (R69).
Where the spec is silent it rests on the model's choices in log entries 22, 85, and on its readings in log entries 34, 73. -/
def Obligations.FabricCarriesRequests : Prop :=
  ∀ s : State,
    (∀ (f : Fabric) (limit nid now ready : Nat) (st : StageId) (x : Req),
      let w : Req := { x with ready := if x.op.key.isSome && !x.plain then ready else 0, passed := false }
      let last := (f.queues.filter fun q => q.1 == st && q.2.meets x).getLast?
      let room := (f.sumps.filter fun p => p.stage == st).length < limit
      let merges (y : Req) : Prop := x.ctx = y.ctx ∧ x.addr = y.addr ∧ x.op.key ≠ none ∧ x.op.key = y.op.key ∧ x.plain = false ∧
        y.plain = false ∧ y.passed = false ∧ (isCollar st = true → (∀ t ∈ x.threads, t ∉ y.threads) ∧ (f.entryOf st y ≠ none ∨ room)) ∧
        (isCollar st = false → room)
      ((∀ q, last = some q → ¬merges q.2) → f.enter limit nid now st ready x = { f with queues := f.queues ++ [(st, w)] }) ∧
      ∀ q, last = some q → merges q.2 → ∃ (z : Req) (e : Sump),
        (f.enter limit nid now st ready x).queues = f.queues.map (fun p => if p.1 == st && p.2.back == q.2.back then (st, z) else p) ∧
        e ∈ (f.enter limit nid now st ready x).sumps ∧ e.stage = st ∧ e.op = q.2.op ∧ e.parts = partsOf f st w q.2 ∧
        z = { q.2 with opnd := forward q.2.op (e.parts.map (·.2.1)), rank := min x.rank q.2.rank, back := .entry e.id,
                       threads := q.2.threads ++ x.threads }) ∧
    (∀ st x, s.fabric.arrivals.filter (fun a => a.1 == st) = [(st, x)] → (∀ c, st ≠ .collar c) →
      let fab : Fabric := { s.fabric with arrivals := s.fabric.arrivals.filter fun a => a.1 != st }
      exec (.stageEnter st) s = .next { s with
        nextId := s.nextId + 1, fabric := fab.enter (s.sumpLimit st) s.nextId s.time st (s.time + s.window st) x }) ∧
    (∀ st x, s.leaver st = some x → exec (.stageLeave st) s = .next (State.send { s with fabric := s.fabric.leave st x } st x)) ∧
    (∀ (f : Fabric) st (x y : Req) (pre post : List (StageId × Req)), f.queues = pre ++ (st, y) :: post → y.back = x.back →
      (∀ q ∈ pre, ¬(q.1 = st ∧ q.2.back = x.back)) → (∀ q ∈ post, ¬(q.1 = st ∧ q.2.back = x.back)) →
      let seen (q : StageId × Req) : StageId × Req := if q.1 == st && q.2.meets x then (q.1, { q.2 with passed := true }) else q
      f.leave st x = { f with queues := pre.map seen ++ post }) ∧
    (∀ slice x, s.nextAtHome slice [] s.fabric.homes = some (slice, x) →
      x.bad = false → (x.op.isStore = true ∨ s.poisoned x.addr x.op.size = false) →
      let fab : Fabric := { s.fabric with homes := s.fabric.homes.filter fun h => h.2.back != x.back }
      let m : State := { s with fabric := fab }
      let old : DWord := BitVec.ofNat 64 (s.natAt x.addr x.op.size)
      let line := if x.op.isLoad then s.bytesAt { x.addr with addr := x.addr.addr / 256 * 256 } 256 else []
      let n := if x.op.isLoad then m else m.homeWriteNat x.ctx x.addr x.op.size (x.op.apply old x.opnd).toNat
      let e := (n.fresh.2.noteHome x.addr x.op.size x.rd).noteApplied x n.nextId
      let spoilt := if x.op.isLoad then n.spoiltIn { x.addr with addr := x.addr.addr / 256 * 256 } else []
      exec (.homeApply slice) s = .next (State.purge { e with fabric := { e.fabric with
        replies := e.fabric.replies ++ [⟨x.back, old, line, spoilt, false, n.nextId⟩] } }) ∧ SameMemory n e) ∧
    (∀ st r e, s.fabric.replies.find? (fun r => r.to_ == .entry e.id) = some r →
      s.fabric.sumps.find? (fun x => x.id == e.id && x.stage == st) = some e →
      let out := (e.parts.zip (shares e.op r.value (e.parts.map (·.2.1)))).map fun p =>
        (⟨p.1.1, p.2, r.line, r.spoilt, r.fatal || e.bad, r.moment⟩ : Reply)
      let fab : Fabric := { s.fabric with
        sumps := s.fabric.sumps.filter (fun p => p.id != e.id)
        replies := (s.fabric.replies.filter fun q => q.to_ != .entry e.id) ++ out }
      exec (.replySplit st e.id) s = .next (State.purge { s with fabric := fab })) ∧
    (∀ r p, s.fabric.replies.find? (fun r => r.to_ == .owner p.id) = some r →
      s.fabric.pending.find? (fun x => x.id == p.id) = some p →
      let fab : Fabric := { s.fabric with replies := s.fabric.replies.filter fun q => q.to_ != .owner p.id }
      let m : State := { s with fabric := fab }
      (∀ u, p.owner = .thread u →
        exec (.replyDelivery p.id) s = .next (if r.fatal then (m.deferFault p .eccFatal).settleReplies else m.deliver p r)) ∧
      ∀ act, p.owner = .shaft act → s.shaftWaits act = false →
        (r.fatal = false → exec (.shaftDieReply p.id) s = .next ((m.dropPending p.id).shaftDone act r.value)) ∧
        (r.fatal = true → exec (.shaftDieReply p.id) s = .next ((m.dropPending p.id).shaftFatal act))) ∧
    ∀ p, s.fabric.pending.find? (fun p => p.owner.timed && (match p.deadline with | some d => decide (d ≤ s.time) | none => false)) =
        some p →
      let root := s.fabric.rootOf s.fabric.depth (.owner p.id)
      let hit := s.fabric.pending.filter fun q => (s.fabric.ownersOf s.fabric.depth root).contains q.id && q.owner.timed
      let gone := s.fabric.entriesOf s.fabric.depth root
      let fab : Fabric := { s.fabric with sumps := s.fabric.sumps.filter fun e => !gone.contains e.id }
      exec .fabricTimeout s = .next (hit.foldl (fun m q => m.deferFault q .fabricTimeout)
        (State.setReg { s with fabric := fab } (shf 0x28) (min (s.reg (shf 0x28) + hit.length) (2 ^ 32 - 1)))).settleReplies.purge

/-- A merge of any number of parts is invisible to them, however it is made (R57, R58, R60): for the keys of R54 but `addf32` the forwarded
operand leaves in the word what the parts would leave one after the other; for every key each part's share of the reply is what the
parts before it make of the value found; and for `addf32` the word becomes its value plus the rounded forwarded sum, which is the first
operand plus the forwarded sum of the others (R59, R61). -/
def Obligations.MergesAreSerial : Prop :=
  ∀ (op : ReqOp) (v : DWord) (xs : List DWord), xs ≠ [] →
    ((∃ t ∈ [Ty.w32, .w64, .i32, .i64], op = .add t ∨ op = .max t ∨ op = .min t) ∨ op = .max .f32 ∨ op = .min .f32 ∨
        (∃ n, op = .load n ∨ op = .swap n) →
      (op.apply v (forward op xs)).toNat % 2 ^ (8 * op.size) = (xs.foldl op.apply v).toNat % 2 ^ (8 * op.size)) ∧
    shares op v xs = (List.range xs.length).map (fun i => (xs.take i).foldl op.apply v) ∧
    (op = .add .f32 →
      (∀ x, (op.apply v x).toNat = Fmt.f32.round .rn false (FV.add .rn (Fmt.f32.val v.toNat) (Fmt.f32.val x.toNat))) ∧
      ∀ a b rest, xs = a :: b :: rest → forward op xs = op.apply a (forward op (b :: rest)))

/-! ## The copy engine, the forge and the seam unit at work (R127 to R129, R180 to R185, R203, R393) -/

/-- The engines' own steps: bytes of a command land, bursts are delivered or fail, commands complete, drained tiles empty, a ring slot
that cannot be written stops the ring, a forge pass ends and the next is granted, a seam entry does its next act, and an entry that has
waited the ageing period rises one class.
Where the spec is silent it rests on the model's choices in log entries 20, 22, 88, and on its readings in log entries 14, 83. -/
def Obligations.EnginesWork : Prop :=
  ∀ s : State,
    (∀ core cmd first count c, s.cmd? core cmd = some c →
      let range := (List.range count).map fun i => first + i
      c.op.isBurst = false → count ≠ 0 → s.mayMove c = true → inTodo first count c.todo = true → c.halted = none →
      c.runWhole s first count = true → s.blocked c range = false → c.mayTravel s first count = true → c.stuck s (c.leftBefore first ++ range) = none →
      exec (.bytesLand core cmd first count) s = .next (s.moveRun c first count)) ∧
    (∀ core cmd q c handler barg l vbase target kind runs, s.cmd? core cmd = some c → s.mayMove c = true → inTodo q 1 c.todo = true →
      c.op = .bread handler barg l vbase target kind → s.timedOutAtHost c q = false → s.teamHalted c = false →
      (s.core c.core).staging.length < 256 →
      let b := c.record.burst l q
      s.hostPlaces c.ctx b.1 b.2.1 vbase target kind = some runs →
      let w (n : Nat) : Word := BitVec.ofNat 32 n
      let info : Ember := { bx := w b.2.2.1, bY := w b.2.2.2.1, bz := w b.2.2.2.2, bseq := w q, bcount := w c.n, blen := w b.2.1,
                            barg, core, cmd }
      exec (.burstDelivered core cmd q) s = .next ((s.setCore core { s.core core with staging := (s.core core).staging ++
        [⟨cmd, c.team, handler, info, s.runBytes runs⟩] }).onCmd core cmd fun x =>
          { x with todo := takeRun q 1 x.todo, began := true, limit := if x.headBurst = some q then none else x.limit })) ∧
    (∀ core cmd q c why, s.cmd? core cmd = some c → s.atHost c q = true →
      let l := match c.op with | .bread _ _ l _ _ _ | .bwrite _ l _ _ _ => l | _ => 0
      exec (.burstFailed core cmd q why) s = .next ((s.failBurst c q).addRec 0 c.ctx true true 0xFF (BurstFailure.cls why).code
        (c.record.burst l q).1 c.pc c.seq core c.slot [])) ∧
    (∀ core cmd c, s.cmd? core cmd = some c → c.todo = [] →
      (∀ a b d e f k, c.op = .bread a b d e f k → c.live = 0 → (s.core core).staging.any (fun b => b.cmd == cmd) = false →
        exec (.bankEvent core cmd) s = .next ((s.finishCmd { c with globalDone := true }).decOpt core c.counter)) ∧
      ((∀ a b d e f k, c.op ≠ .bread a b d e f k) → c.localDone = true ∨ c.op.landsLocal = true → s.bulkAway c.id = false →
        s.tileWaits c = false →
        exec (.globalCompletion core cmd) s = .next (s.finishCmd { c with globalDone := true })) ∧
      (c.localDone = false → (∀ ds, c.op ≠ .multicast ds) → c.op.landsLocal = false →
        exec (.localCompletion core cmd) s = .next (s.onCmd core cmd fun x => { x with localDone := true }))) ∧
    (∀ core cmd c ds, s.cmd? core cmd = some c → c.op = .multicast ds → c.localDone = false → c.fetches s c.left = [] →
      c.stuck s c.left = none →
      exec (.localCompletion core cmd) s = .next (s.onCmd core cmd fun x => { x with localDone := true })) ∧
    (∀ core x, s.ringFails core = some x → (s.core core).ringStop = none →
      let r := s.stopCmd x.ctx (.ring core x.id) .copyRingFault (s.ringVa x.ctx core (x.ring.getD 0)) x.pc x.seq core x.slot
      exec (.copyRingFault core) s = .next (r.2.setCore core { r.2.core core with ringStop := some r.1 })) ∧
    (∀ quad i t, s.tile? quad i = some t →
      exec (.drainComplete quad i) s = .next ((s.setTile quad i t.drained).settleQuad quad)) ∧
    (∀ quad id stop, (s.quad quad).pass = some (id, stop) → stop ≤ s.clock →
      exec (.passBoundary quad) s = .next (((s.endPass quad id).resumeFlush quad).grant quad)) ∧
    (∀ quad, (s.quad quad).pass = none → exec (.passBoundary quad) s = .next ((s.resumeFlush quad).grant quad)) ∧
    (∀ quad e, (s.quad quad).seams.find? (fun x => x.id == e.id) = some e → s.seamMay quad e = true →
      let m := (s.beginSeam quad e).reachTable e.core e.ctx (s.seamVas quad e)
      exec (.seamEntryComplete quad e.id) s = .next (match e.op with
        | .probe tabs multi oidx => m.probeAct quad e tabs multi oidx
        | .pre tabs multi => m.preAct quad e tabs multi
        | .gather table l r row _ => m.gatherAct quad e table l r row
        | .ins ls => m.insAct quad e ls
        | .del ls => m.delAct quad e ls
        | .rehash table first count => m.rehashAct quad e table first count
        | .ver => m.completeSeam quad e
        | .fin table => m.finAct quad e table
        | .publish table idx => m.pubAct quad e table idx)) ∧
    ∀ quad e rest, s.quads.flatMap (fun x => (x.2.entries.filter fun e =>
        decide (e.eff < 3) && decide (e.idle + bits (s.reg (ons 4)) 15 0 ≤ s.clock) && s.eligible x.1 e).map fun e => (x.1, e.id)) =
          (quad, e) :: rest →
      exec .forgeAgePromote s = .next (s.onEntry quad e fun x => { x with eff := x.eff + 1, idle := s.clock })

/-! ## Command queues (R82 to R99, R474) -/

/-- The packet at a queue's head begins if it passes the checks of R98: HEAD passes it, and it does what its type does. One that fails a
check is refused with its ERRCODE, and one whose type is not assigned with BAD_TYPE. A LAUNCH_IND first asks its home slices for the three
words at DIMADDR (R89).
Where the spec is silent it rests on the model's readings in log entries 45, 83. -/
def Obligations.PacketsBegin : Prop :=
  let begins (i : Nat → Nat → Instr) (mine : List Word → Bool) (act : Nat → State → Pkt → State) : Prop :=
    ∀ (s : State) (ctx q : Nat) (ws : List Word), s.head ctx q = some (.packet ws) →
      (∀ l, s.typeGood ctx q (pktType ws) = true → mine ws = true → (isLaunchType (pktType ws) = true → s.placeFree = true) →
        dimsWanted s ctx q ws = false → packetCheck s ctx q ws = .ok l →
        let r := (s.reachPacket ctx q ws).pushPacket ctx q ws l
        exec (i ctx q) s = .next (act ctx r.2 r.1) ∧
          r.2.reg (hifQ ctx q 0x10) = (s.reg (hifQ ctx q 0x10) + 1) % 2 ^ 32 ∧ r.1 ∈ r.2.pkts ∧ r.1.body = ws) ∧
      (∀ e, s.typeGood ctx q (pktType ws) = true → mine ws = true → (isLaunchType (pktType ws) = true → s.placeFree = true) →
        dimsWanted s ctx q ws = false → packetCheck s ctx q ws = .error e → exec (i ctx q) s = .next (s.refusePacket ctx q e)) ∧
      (s.typeGood ctx q (pktType ws) = true → mine ws = true → (isLaunchType (pktType ws) = true → s.placeFree = true) →
        dimsWanted s ctx q ws = true → exec (i ctx q) s = .next (s.askDims ctx q (pktNat ws 0x20 8))) ∧
      (s.typeGood ctx q (pktType ws) = false → exec (i ctx q) s = .next (s.refusePacket ctx q (1, 0)))
  begins .launch (fun ws => pktType ws == 1) (fun _ m _ => m) ∧
  begins .launchInd (fun ws => pktType ws == 2) (fun _ m _ => m) ∧
  begins .launchAccept (fun ws => pktType ws == 1 || pktType ws == 2) (fun _ m _ => m) ∧
  begins .fencePacket (fun ws => pktType ws == 3) (fun _ m p => m.readFence p.pid) ∧
  begins .signalStore (fun ws => pktType ws == 4 && !bitAt (pktArg ws) 0) (fun _ m p => m.askOr p (.signal p.pid)
    (BitVec.ofNat 64 (pktNat p.body 0x10 8)) .store (.store 8) (BitVec.ofNat 64 (pktNat p.body 0x18 8)) finished) ∧
  begins .signalAdd (fun ws => pktType ws == 4 && bitAt (pktArg ws) 0) (fun _ m p => m.askOr p (.signal p.pid)
    (BitVec.ofNat 64 (pktNat p.body 0x10 8)) .atomic (.add .w64) (BitVec.ofNat 64 (pktNat p.body 0x18 8)) finished) ∧
  begins .counterInit (fun ws => pktType ws == 5 && bits (pktArg ws) 17 16 == 0) (fun _ m p => ((m.emptyL1 (bits (pktArg p.body) 7 0)).setCounter
    (bits (pktArg p.body) 7 0) (bits (pktArg p.body) 15 8) (BitVec.ofNat 32 (pktNat p.body 0x10 4)) false).onPkt p.pid finished) ∧
  begins .counterAdd (fun ws => pktType ws == 5 && bits (pktArg ws) 17 16 == 1) (fun _ m p => ((m.emptyL1 (bits (pktArg p.body) 7 0)).setCounter
    (bits (pktArg p.body) 7 0) (bits (pktArg p.body) 15 8) (m.counter (bits (pktArg p.body) 7 0) (bits (pktArg p.body) 15 8) -
      BitVec.ofNat 32 (pktNat p.body 0x10 4)) true).onPkt p.pid finished) ∧
  begins .windowInstall (fun ws => pktType ws == 6 && !bitAt (pktArg ws) 8) (fun ctx m p => m.windowPacket p
    (windowStatus m ctx (bits (pktArg p.body) 7 0) p.body) (bytesOfNat (pktNat p.body 0x10 32) 32)) ∧
  begins .windowInvalidate (fun ws => pktType ws == 6 && bitAt (pktArg ws) 8) (fun _ m p => m.windowPacket p 0 (List.replicate 32 0)) ∧
  begins .marker (fun ws => pktType ws == 7) (fun _ m p => m.onPkt p.pid finished) ∧
  begins .pageZero (fun ws => pktType ws == 8) (fun ctx m p =>
    (m.zeroRange ctx ⟨if bitAt (pktArg p.body) 0 then .pod else .pkg, pktNat p.body 0x10 8⟩ (65536 * pktNat p.body 0x18 4)).onPkt p.pid
      finished)

/-- What follows a packet's beginning, and the queue's registers: a waiting FENCE reads again, completion actions follow in order, a
doorbell moves TAIL unless the ring would overflow, enabling a queue empties it, and a write of 1 to ERROR lets it resume; on a limited
link none of these writes is answered (R17, R82, R86, R92, R98). -/
def Obligations.QueuesAdvance : Prop :=
  ∀ (s : State) (ctx q : Nat),
    (∀ p, (s.pktsOf ctx q).find? (fun p => p.type == 3 && !p.complete) = some p →
      exec (.fenceReread ctx q) s = .next (s.readFence p.pid)) ∧
    (∀ p, s.acting ctx q = some p →
      (p.phase = 3 → p.sigaddr ≠ 0 → exec (.completionActions ctx q) s = .next (State.askOr (s.onPkt p.pid fun p => { p with phase := 4 })
        p (.sigaddr p.pid) p.sigaddr .atomic (.add .w64) (-1) fun p => { p with phase := p.phase + 1 })) ∧
      (p.phase = 3 → p.sigaddr = 0 → exec (.completionActions ctx q) s = .next (s.onPkt p.pid fun p => { p with phase := 5 })) ∧
      (p.phase = 5 → p.irq = false → exec (.completionActions ctx q) s = .next { s with
        pkts := s.pkts.filter (fun x => x.pid != p.pid), launches := s.launches.filter fun l => p.launch != some l.lid })) ∧
    (∀ (tail : BitVec 32) r, s.linkUp = true → s.queue? ctx q = some r → r.device = false → bitAt (s.reg (hifQ ctx q 8)) 31 = true →
      (tail.toNat + 2 ^ 32 - s.reg (hifQ ctx q 0x10)) % 2 ^ 32 ≤ 2 ^ r.log2 →
      PutsReg s (exec (.doorbell ctx q tail) s) (hifQ ctx q 0x14) tail.toNat) ∧
    (∀ (tail : BitVec 32) r, s.linkUp = true → s.queue? ctx q = some r → r.device = false → bitAt (s.reg (hifQ ctx q 8)) 31 = true →
      2 ^ r.log2 < (tail.toNat + 2 ^ 32 - s.reg (hifQ ctx q 0x10)) % 2 ^ 32 →
      ∃ t, exec (.doorbell ctx q tail) s = .next t ∧ t.reg (hifQ ctx q 0x14) = s.reg (hifQ ctx q 0x14) ∧
        t.reg (hifQ ctx q 0x18) = 10 * 2 ^ 16 + 2 ∧ ∃ r, t.records = s.records ++ [r] ∧ r.code = 0xFF0A ∧ r.ctx = ctx ∧ r.queue = q) ∧
    (∀ value : BitVec 32, s.linkUp = true → bitAt (s.reg (hifQ ctx q 8)) 31 = false →
      ∃ t, exec (.queueEnable ctx q value) s = .next t ∧ t = { s with regs := t.regs, queues := t.queues } ∧
        t.reg (hifQ ctx q 8) = 2 ^ 31 + qctlOf value.toNat ∧ t.reg (hifQ ctx q 0x10) = 0 ∧ t.reg (hifQ ctx q 0x14) = 0 ∧
        t.queue? ctx q = some ⟨BitVec.ofNat 64 (s.reg (hifQ ctx q 0)), bits (qctlOf value.toNat) 4 0, bitAt (qctlOf value.toNat) 30⟩ ∧
        ∀ off, off ≠ hifQ ctx q 8 → off ≠ hifQ ctx q 0x10 → off ≠ hifQ ctx q 0x14 → t.reg off = s.reg off) ∧
    (s.linkUp = true → PutsReg s (exec (.queueErrorClear ctx q) s) (hifQ ctx q 0x18) (setBits (s.reg (hifQ ctx q 0x18)) 1 1 0)) ∧
    (s.linkUp = false → exec (.queueErrorClear ctx q) s = .next s ∧ (∀ value, exec (.queueEnable ctx q value) s = .next s) ∧
      ∀ tail, exec (.doorbell ctx q tail) s = .next s)

/-! ## The host's registers (R5, R6, R77 to R81, R100, R169, R189, R191) -/

/-- Contexts are enabled and disabled, fault-queue registers, invalidations and DIEMAP are written, and the host's loads and stores reach
memory through the aperture. A register write of another width than the register's writes nothing, and one of its width stores the bits
the register has.
Where the spec is silent it rests on the model's choice in log entry 21. -/
def Obligations.HostWritesRegisters : Prop :=
  ∀ (s : State),
    (∀ (ctx : Nat) (value : BitVec 32), ctx < 64 → s.ctxOn ctx = false → s.linkUp = true →
      ∃ t, exec (.contextEnable ctx value) s = .next t ∧ t.ctxOn ctx = true ∧ t.ctxStopped ctx = false ∧
        t.reg (hifCtx ctx 0) = 2 ^ 31 + s.ctlFields ctx value.toNat ∧
        (∀ r < 0x20, t.reg (onsCtx ctx r) = regReset (onsCtx ctx r)) ∧ (∀ r < 0x40, t.reg (dbgCtx ctx r) = regReset (dbgCtx ctx r)) ∧
        t.threads = s.threads ∧ SameMemory s t) ∧
    (∀ ctx < 64, s.ctxOn ctx = true → s.linkUp = true →
      ∃ t, exec (.contextDisable ctx) s = .next t ∧ t.ctxOn ctx = false ∧ (∀ p ∈ t.pkts, p.ctx ≠ ctx) ∧ (∀ x ∈ t.teams, x.ctx ≠ ctx) ∧
        (∀ g ∈ t.groups, g.ctx ≠ ctx) ∧ (∀ l ∈ t.launches, l.ctx ≠ ctx) ∧
        ∀ q < 16, t.queue? ctx q = none ∧ bitAt (t.reg (hifQ ctx q 8)) 31 = false) ∧
    (∀ (ctx : Nat) (value : BitVec 32), s.linkUp = true →
      let m : State := { s with fqWait := s.fqWait.filter (· != ctx) }
      (headOk (s.reg (hifCtx ctx 0x2C)) (s.reg (hifCtx ctx 0x28)) value.toNat = true →
        PutsReg m (exec (.fqHeadWrite ctx value) s) (hifCtx ctx 0x2C) value.toNat) ∧
      (headOk (s.reg (hifCtx ctx 0x2C)) (s.reg (hifCtx ctx 0x28)) value.toNat = false →
        exec (.fqHeadWrite ctx value) s = .next m) ∧
      ∀ base : BitVec 64, PutsReg m (exec (.fqbaseWrite ctx base) s) (hifCtx ctx 0x18) (base.toNat / 4096 * 4096)) ∧
    (∀ (ctx : Nat) (value : BitVec 64), s.linkUp = true →
      exec (.tlbinvPages ctx value) s = .next { s with nextId := s.nextId + 1, invals := s.invals ++ [⟨s.nextId, ctx,
        if bitAt value.toNat 0 then none else some (invalRange (bits value.toNat 51 16) (bits value.toNat 63 58))⟩] } ∧
      exec (.tlbinvAll ctx) s = .next { s with nextId := s.nextId + 1, invals := s.invals ++ [⟨s.nextId, ctx, none⟩] }) ∧
    (∀ i rest, s.invals = i :: rest → s.accessesDone i.ctx = true →
      ∃ t, exec .tlbInvalidateDone s = .next t ∧ t.invals = rest ∧ (∀ e, e ∈ t.tlb ↔ e ∈ s.tlb ∧ i.covers e = false)) ∧
    (∀ (ctx stope : Nat) (value : BitVec 64),
      (s.running ctx = true → exec (.diemapWrite ctx stope value) s = .next s) ∧
      (s.running ctx = false → s.linkUp = true → exec (.diemapWrite ctx stope value) s =
        .next ((List.range 64).foldl (fun m i => m.dieBit ctx (stope % 2) value.toNat i) s))) ∧
    (∀ fn off,
      (s.apertureWaits fn = true → exec (.apertureRead fn off) s = .next s ∧ ∀ value, exec (.apertureWrite fn off value) s = .next s) ∧
      (s.apertureWaits fn = false → ∀ p c,
        (∀ value, s.aperture fn off .store = .ok (p, c) →
          exec (.apertureWrite fn off value) s = .next (s.shaftAsk (c.getD noCtx) (.apWrite fn) p (.store 4) (value.setWidth 64))) ∧
        (s.aperture fn off .load = .ok (p, c) →
          exec (.apertureRead fn off) s = .next (s.shaftAsk (c.getD noCtx) (.apRead fn) p (.load 4) 0))) ∧
      (s.apertureWaits fn = false → ∀ e,
        (∀ value, s.aperture fn off .store = .error e → exec (.apertureWrite fn off value) s = .next (s.apertureMiss e)) ∧
        (s.aperture fn off .load = .error e →
          exec (.apertureRead fn off) s = .next { s.apertureMiss e with readback := some (-1) :: (s.apertureMiss e).readback })) ∧
      ∀ v, s.shaftDone (.apRead fn) v = { s with readback := some (v.extractLsb' 0 32) :: s.readback } ∧ s.shaftDone (.apWrite fn) v = s) ∧
    (∀ ctx act at_ op opnd, let t := s.shaftAsk ctx act at_ op opnd
      (∃ x : Req, t.fabric.arrivals = s.fabric.arrivals ++ [(.upcast (s.homePkg at_), x)] ∧ x.ctx = ctx ∧ x.addr = at_ ∧ x.op = op ∧
        x.opnd = opnd ∧ x.port = 64 ∧ x.back = .owner s.nextId) ∧
      (∃ p ∈ t.fabric.pending, p.id = s.nextId ∧ p.owner = .shaft act ∧ p.at_ = at_ ∧ p.op = op) ∧ t.threads = s.threads ∧ SameMemory s t) ∧
    (∀ fn off n (value : BitVec 64), n ≠ widthAt (s.access fn off).1 (s.access fn off).2 →
      exec (.registerWrite fn off n value) s = .next s) ∧
    ∀ value : BitVec 64,
      (s.linkUp = true →
        PutsReg s (exec (.registerWrite 0 8 4 value) s) 8 (min 1000 (max 1 (value.toNat % 2 ^ 16))) ∧
        PutsReg s (exec (.registerWrite 0 0x40020 4 value) s) (shf 0x20) (min 1000000 (max 1 (value.toNat % 2 ^ 20))) ∧
        PutsReg s (exec (.registerWrite 0 0x50000 4 value) s) (ons 0) (max 1 (value.toNat % 2 ^ 20)) ∧
        PutsReg s (exec (.registerWrite 0 0x50004 4 value) s) (ons 4) (max 64 (value.toNat % 2 ^ 16))) ∧
      (s.booted = true → PutsReg s (exec (.registerWrite 0 0x60008 4 value) s) (mgt 8) (min 2400 (max 1200 (value.toNat % 2 ^ 16))))

/-- The fault queue takes the oldest held record and TAIL passes it, and a retry, a skip or a kill marks the record that its sequence
number names, where its context is not stopped (R272 to R283); record rings take their HEAD under the same rule, stepping holds are
released, and enabling debug, or disabling it, is measured (R288, R296, R300, R301); the flue is sampled when its period has passed
(R294). On a limited link no write is answered (R17).
Where the spec is silent it rests on the model's readings in log entries 41, 48, 49, 53. -/
def Obligations.FaultQueueAndDebug : Prop :=
  ∀ (s : State) (ctx : Nat),
    (∀ r, s.heldRec ctx = some r → s.fqOpen ctx = true →
      (∃ t, exec (.fqRecordWrite ctx true) s = .next t ∧ t.reg (hifCtx ctx 0x28) = (s.reg (hifCtx ctx 0x28) + 1) % 2 ^ 32 ∧
        t.hostMem = s.hostMem.setBytes (s.reg (hifCtx ctx 0x18) + 64 * (s.reg (hifCtx ctx 0x28) % 2 ^ bits (s.reg (hifCtx ctx 0x20)) 4 0))
          (r.toBytes (s.reg (hifCtx ctx 0x28)) (s.pkgOf ctx)) ∧ t.threads = s.threads ∧ t.groups = s.groups) ∧
      exec (.fqRecordWrite ctx false) s = .next ({ s with fqWait := ctx :: s.fqWait }.setReg (hifCtx ctx 0x38)
        (setBits (s.reg (hifCtx ctx 0x38)) 4 4 1))) ∧
    (∀ r, s.heldRec ctx = some r → s.fqOpen ctx = false → ∀ b, exec (.fqRecordWrite ctx b) s = .next s) ∧
    (s.heldRec ctx = none → ∀ b, exec (.fqRecordWrite ctx b) s = .next s) ∧
    (∀ (seq : BitVec 32) r, s.linkUp = true → s.ctxStopped ctx = false →
      s.records.find? (fun r => r.ctx == ctx && r.seq == some seq && r.outstanding && r.acted.isNone) = some r →
      let acted (a : Action) : State := { s with records := s.records.map fun x => if x.rid == r.rid then { x with acted := some a } else x }
      (r.stop ≠ 0 → exec (.retry ctx seq) s = .next ((acted .retry).endStop r.stop) ∧
        exec (.skip ctx seq) s = .next ((acted .skip).endStop r.stop) ∧ exec (.kill ctx seq) s = .next ((acted .kill).endStop r.stop)) ∧
      (r.stop = 0 → ∀ i ∈ [Instr.retry ctx seq, .skip ctx seq, .kill ctx seq],
        exec i s = .next { s with records := s.records.filter fun x => x.rid != r.rid })) ∧
    (∀ (seq : BitVec 32) (i : Instr), i ∈ [Instr.retry ctx seq, .skip ctx seq, .kill ctx seq] → s.linkUp = false ∨ s.ctxStopped ctx = true ∨
      s.records.find? (fun r => r.ctx == ctx && r.seq == some seq && r.outstanding && r.acted.isNone) = none → exec i s = .next s) ∧
    (∀ value : BitVec 32, s.linkUp = true →
      (headOk (s.reg (lampRing ctx).head) (s.reg (lampRing ctx).tail) value.toNat = true →
        PutsReg s (exec (.lampHeadWrite ctx value) s) (lampRing ctx).head value.toNat) ∧
      (headOk (s.reg (lampRing ctx).head) (s.reg (lampRing ctx).tail) value.toNat = false → exec (.lampHeadWrite ctx value) s = .next s) ∧
      (headOk (s.reg (flueRing ctx).head) (s.reg (flueRing ctx).tail) value.toNat = false → exec (.flueHeadWrite ctx value) s = .next s) ∧
      (headOk (s.reg (flueRing ctx).head) (s.reg (flueRing ctx).tail) value.toNat = true →
        PutsReg s (exec (.flueHeadWrite ctx value) s) (flueRing ctx).head value.toNat)) ∧
    (∀ core, s.linkUp = true →
      let v := s.reg (stepReg core)
      let held (u : Nat) : Prop := ∃ h ∈ s.teamsOn core, s.teamHeld h = true ∧ h.tuid = u
      let released (t : State) : Prop :=
        (∀ x ∈ s.threads, ¬held x.team → x ∈ t.threads) ∧ (∀ x ∈ t.threads, held x.team → x.tbar = none) ∧
          (∀ h ∈ t.teams, h.core = core → h.saved = false → h.stepState ≠ some true) ∧ t.groups = s.groups ∧ SameMemory s t
      (bitAt v 62 = true →
        (s.debugOn = true → ∃ t, exec (.stepGo core) s = .next t ∧ t.reg (stepReg core) = setBits v 62 62 0 ∧ released t) ∧
        ∃ t, exec (.stepArmClear core) s = .next t ∧ t.reg (stepReg core) = setBits (setBits v 62 62 0) 63 63 0 ∧ released t) ∧
      (bitAt v 62 = false → exec (.stepGo core) s = .next s ∧
        ∃ t, exec (.stepArmClear core) s = .next t ∧ t.reg (stepReg core) = setBits v 63 63 0 ∧ t.threads = s.threads ∧
          t.groups = s.groups ∧ SameMemory s t)) ∧
    (∀ value : BitVec 32, s.linkUp = true → s.reg (dbg 0) = 1 → value.toNat % 2 = 0 →
      exec (.debugEnable value) s = .next
        (let m := ((dedup (s.teams.map (·.core))).foldl State.releaseStep s).setReg (dbg 0) 0
         { m with measured5 := Config.shake256 (debugBytes m) })) ∧
    (∀ value : BitVec 32, s.linkUp = false ∨ s.reg (dbg 0) = value.toNat % 2 → exec (.debugEnable value) s = .next s) ∧
    (∀ value : BitVec 32, s.linkUp = true → s.reg (dbg 0) = 0 → value.toNat % 2 = 1 →
      ∃ t, exec (.debugEnable value) s = .next t ∧ t.reg (dbg 0) = 1 ∧ t.measured5 = Config.shake256 (debugBytes t) ∧
        t = { s with regs := t.regs, measured5 := t.measured5 }) ∧
    (s.sampleDue ctx = false → exec (.flueSample ctx) s = .next s) ∧
    (s.sampleDue ctx = true →
      let cores := (List.range 256).filter fun n => s.ctxOnCore n == some ctx
      let m := cores.foldl (fun (m : State) n => m.sampleCore ctx n) { s with sampleAt := Tab.set ctx s.clock s.sampleAt }
      let r := flueRing ctx
      nextPeriod (bits (m.reg r.ctl) 20 16) (bits (m.reg r.ctl) 12 8) (m.ringFill r) (m.ringSize r) = bits (m.reg r.ctl) 20 16 →
      m.reg r.lost ≤ Tab.get 0 ctx m.lostNoted → exec (.flueSample ctx) s = .next m)

/-! ## The package (R16, R17, R24, R25, R29 to R41, R46, R65 to R67, R71) -/

/-- Link, temperature and power, and the ports: a narrow or slow link is limited; the clock steps down and up by 100 MHz within its bounds as
temperature and power ask; a trip, at 110 degrees, stops every context until a reset; a port learns its peer; flits are counted and
answered, a refused flit and those behind it are sent again, and a port's third retrain within a second begins its test.
Where the spec is silent it rests on the model's choices in log entries 50, 65, 81, 82, and on its reading in log entry 51. -/
def Obligations.PackageEvents : Prop :=
  ∀ s : State,
    (∀ (width rate : Nat) (flit : Bool), ∃ t, exec (.linkTrain width rate flit) s = .next t ∧
      (t.linkUp = true ↔ 4 ≤ width ∧ 16 ≤ rate ∧ flit = true) ∧ bitAt (t.reg (mgt 0)) 7 = !t.linkUp ∧
      t = { s with regs := t.regs, linkUp := t.linkUp }) ∧
    (∀ pasid, exec (.atsInvalidation pasid) s = .next s) ∧
    (∀ celsius, 95 ≤ celsius → ∃ t, exec (.thermalThrottle celsius) s = .next t ∧ t.mhz100 = max 12 (s.mhz100 - 1) ∧
      bitAt (t.reg (mgt 0)) 6 = true ∧ (celsius < 110 → t.tripped = s.tripped) ∧
      (110 ≤ celsius → t.tripped = true ∧ ∀ c < 64, s.ctxOn c = true → t.ctxStopped c = true) ∧
      t = { s with regs := t.regs, mhz100 := t.mhz100, celsius, tripped := t.tripped }) ∧
    (∀ watts, bits (s.reg (mgt 8)) 15 0 < watts → ∃ t, exec (.powerCapStep watts) s = .next t ∧ t.mhz100 = max 12 (s.mhz100 - 1) ∧
      bitAt (t.reg (mgt 0)) 5 = true ∧ t = { s with regs := t.regs, mhz100 := t.mhz100 }) ∧
    (∀ watts, let cap := bits (s.reg (mgt 8)) 15 0
      (watts ≤ cap → cap * 95 < watts * 100 → exec (.powerCapStep watts) s = .next s) ∧
      (watts * 100 ≤ cap * 95 → ∃ t, exec (.powerCapStep watts) s = .next t ∧
        t.mhz100 = (if bitAt (s.reg (mgt 0)) 6 then s.mhz100 else min 21 (s.mhz100 + 1)) ∧
        bitAt (t.reg (mgt 0)) 5 = (!bitAt (s.reg (mgt 0)) 6 && bitAt (s.reg (mgt 0)) 5 && decide (s.mhz100 + 1 < 21)) ∧
        t = { s with regs := t.regs, mhz100 := t.mhz100 })) ∧
    (∀ celsius < 95, ∃ t, exec (.thermalThrottle celsius) s = .next t ∧
      t.mhz100 = (if bitAt (s.reg (mgt 0)) 5 then s.mhz100 else min 21 (s.mhz100 + 1)) ∧
      bitAt (t.reg (mgt 0)) 6 = (!bitAt (s.reg (mgt 0)) 5 && bitAt (s.reg (mgt 0)) 6 && decide (s.mhz100 + 1 < 21)) ∧
      t = { s with regs := t.regs, mhz100 := t.mhz100, celsius }) ∧
    (∃ t, exec .thermalTrip s = .next t ∧ t.tripped = true ∧ (∀ c < 64, s.ctxOn c = true → t.ctxStopped c = true) ∧
      t = { s with regs := t.regs, tripped := true, celsius := max 110 s.celsius }) ∧
    (∀ value : BitVec 32, ((List.range 64).any fun c => s.ctxOn c && s.ctxPod c) = true → exec (.podmapWrite value) s = .next s) ∧
    (∀ value : BitVec 32, s.linkUp = true → ((List.range 64).any fun c => s.ctxOn c && s.ctxPod c) = false →
      let v := value.toNat
      let lg := min 6 (bits v 8 6)
      let on := bitAt v 15 && decide (bits v 5 0 < 2 ^ lg)
      let new := bits v 31 16 * 2 ^ 16 + (if on then 2 ^ 15 else 0) + lg * 2 ^ 6 + bits v 5 0
      new ≠ s.reg (shf 0) →
      ∃ t, exec (.podmapWrite value) s = .next t ∧ t.reg (shf 0) = new ∧ t.reg (shf 0x18) = 0 ∧
        t.fabric.downPorts = if on then 2 ^ 2 ^ lg - 1 - 2 ^ bits v 5 0 else 0) ∧
    (∀ port podId number, s.podOn = true → port < 2 ^ s.podLog → port ≠ s.self →
      ∃ t, exec (.portExchange port podId number) s = .next t ∧
        (bitAt t.fabric.downPorts port = !(podId == bits (s.reg (shf 0)) 31 16 && number == port)) ∧
        (port < 64 → bitAt (t.reg (shf 0x18)) port = !(podId == bits (s.reg (shf 0)) 31 16 && number == port))) ∧
    (∀ port, exec (.flitReceive port true) s = .next s ∧
      PutsReg s (exec (.flitReceive port false) s) (shf (0x400 + 8 * port))
        (setBits (s.reg (shf (0x400 + 8 * port))) 63 40 (min (2 ^ 24 - 1) (bits (s.reg (shf (0x400 + 8 * port))) 63 40 + 1)))) ∧
    (∀ port x rest, Tab.get [] port s.fabric.bufHeld = x :: rest →
      ((∀ e ∈ s.fabric.bufHeld, s.fibreUp s.self e.1 = true) → exec (.flitAcknowledgement port true) s =
        .next { s with fabric := { s.fabric with bufHeld := Tab.set port rest s.fabric.bufHeld } }) ∧
      (∃ t, exec (.flitAcknowledgement port false) s = .next t ∧
        Tab.get [] port t.fabric.bufHeld = (x :: rest).map (fun f => { f with resent := f.resent + 1 }) ∧
        bits (t.reg (shf (0x400 + 8 * port))) 39 16 = min (2 ^ 24 - 1) (bits (s.reg (shf (0x400 + 8 * port))) 39 16 + rest.length + 1))) ∧
    (∀ port, (∃ f ∈ Tab.get [] port s.fabric.bufHeld, 8 ≤ f.resent) →
      let recent := (Tab.get [] port s.fabric.retrains).filter fun t => decide (s.time < t + 10 ^ 9 * Config.unitsPerNs)
      let counted (times : List Nat) : State := State.countPort { s with fabric := { s.fabric with
        bufHeld := Tab.set port ((Tab.get [] port s.fabric.bufHeld).map fun f => { f with resent := 0 }) s.fabric.bufHeld, retrains := Tab.set port times s.fabric.retrains } } port 15 8 1
      (recent.length < 2 ∨ s.fenced ⟨.port, port⟩ = true ∨ s.underTest ⟨.port, port⟩ = true →
        exec (.portRetrain port) s = .next (counted (recent ++ [s.time])) ∧
        bits ((counted (recent ++ [s.time])).reg (shf (0x400 + 8 * port))) 15 8 =
          min 255 (bits (s.reg (shf (0x400 + 8 * port))) 15 8 + 1)) ∧
      (2 ≤ recent.length → s.fenced ⟨.port, port⟩ = false → s.underTest ⟨.port, port⟩ = false →
        exec (.portRetrain port) s = .next (((counted []).noteError ⟨.port, port⟩ false 0).testUnit ⟨.port, port⟩)))

/-- Errors and self-tests (R29 to R34): an uncorrected error poisons the unit of data that its check code covers, of HBM 256 bits and else
64, and a corrected one is only counted; an error of a unit in service begins the unit's test, which is counted, and one of a fenced unit
is only noted. A test that ends has its outcome noted where it is that of the latest error, one that fails fences its unit, and a retest
that passes brings it back. A retest of a fenced unit waits its turn.
Where the spec is silent it rests on the model's readings in log entries 46, 52. -/
def Obligations.ErrorsAndSelfTests : Prop :=
  ∀ (s : State) (u : UnitId),
    (∀ loc, s.spoil u false loc = { s with corrected := s.corrected + 1 }) ∧
    (∀ p, p.space ≠ .sump → p.space ≠ .replay → ∃ t, s.spoil u true (some p) = t ∧ t = { s with poison := t.poison } ∧
      ∀ x, x ∈ t.poison ↔ x ∈ s.poison ∨
        x.space = p.space ∧ x.addr / (if u.kind = .pch then 32 else 8) = p.addr / (if u.kind = .pch then 32 else 8)) ∧
    (∀ (unc : Bool) (loc : Option PAddr), unitExists u = true → s.tests.any (fun t => t.unit == u) = false →
      let m : State := s.spoil u unc loc
      (s.fenced u = true → exec (.error u unc loc) s = .next (m.noteError u unc 3)) ∧
      (s.fenced u = false → s.held.contains u = false → s.buddyTested u = false →
        ∃ t, exec (.error u unc loc) s = .next t ∧ t.tests = s.tests ++ [⟨u, false, s.time⟩] ∧ t.poison = m.poison ∧
          bits (t.reg (mgt 0)) 19 12 = min 255 (bits (s.reg (mgt 0)) 19 12 + 1) ∧ bits (t.reg (mgt 0x100)) 13 0 = u.index ∧
          bits (t.reg (mgt 0x100)) 16 14 = unitCode u ∧ bitAt (t.reg (mgt 0x100)) 17 = unc ∧
          t = { m with regs := t.regs, tests := t.tests, saves := t.saves, slices := t.slices })) ∧
    (∀ t, s.tests.find? (fun t => t.unit == u) = some t →
      let m : State := { s with tests := s.tests.filter fun x => x.unit != u }
      (t.retest = false → exec (.selfTestEnd u true) s = .next (((m.noteOutcome u false 1).spareSaves u).takeBack u).nextTests) ∧
      (t.retest = true → exec (.selfTestEnd u true) s = .next (((m.noteOutcome u true 1).setFence u 0).reroute.takeBack u).nextTests) ∧
      (t.retest = false → exec (.selfTestEnd u false) s = .next (((m.noteOutcome u false 2).fence u).takeBack u).nextTests) ∧
      (t.retest = true → exec (.selfTestEnd u false) s = .next ((m.noteOutcome u true 2).takeBack u).nextTests)) ∧
    ∀ kind index, s.booted = true → unitOf kind index = some u → unitExists u = true → s.fenced u = true →
      exec (.retest kind index) s = .next (State.nextRetest { s with retestWait := s.retestWait ++ [u] })

/-- Firmware and attestation (R38 to R41): a command of MGT_FWCTL begins unless one is in progress and ends with its status; a power-on
reset leaves the state of reset but for what the flash, the fuses and the host keep; the package answers each attestation request, and
from the boot ROM with an error.
Where the spec is silent it rests on the model's choices in log entries 23, 54, 55, 56, 90. -/
def Obligations.FirmwareAndAttestation : Prop :=
  ∀ s : State,
    (s.fwCmd = none → ∀ slot pages,
      (∃ t, exec (.fwWriteSlot slot pages) s = .next t ∧ t.fwCmd = some ⟨1, slot % 2, pages⟩ ∧ bits (t.reg (mgt 0x190)) 3 0 = 1) ∧
      (∃ t, exec .fwRaiseMinimum s = .next t ∧ t.fwCmd = some ⟨2, 0, 0⟩ ∧ bits (t.reg (mgt 0x190)) 3 0 = 1) ∧
      (∃ t, exec .fwRestart s = .next t ∧ t.fwCmd = some ⟨3, 0, 0⟩ ∧ bits (t.reg (mgt 0x190)) 3 0 = 1)) ∧
    (∀ c, s.fwCmd = some c →
      (∀ m, s.fwResult c = .ok m → ∃ t, exec .fwCommandDone s = .next t ∧ t.fwCmd = none ∧ bits (t.reg (mgt 0x190)) 3 0 = 2 ∧
        t.slots = m.slots ∧ t.runSlot = m.runSlot) ∧
      ∀ e < 4, s.fwResult c = .error e → ∃ t, exec .fwCommandDone s = .next t ∧ t.fwCmd = none ∧
        bits (t.reg (mgt 0x190)) 3 0 = 4 * e + 3 ∧ t = { s with regs := t.regs, fwCmd := none }) ∧
    (∃ t, exec .powerOnReset s = .next t ∧ t.threads = [] ∧ t.groups = [] ∧ t.teams = [] ∧ t.launches = [] ∧ t.pkts = [] ∧ t.clock = 0 ∧
      (∀ r < 0x60000, t.reg r = regReset r) ∧ t.hostMem = s.hostMem ∧ t.slots = s.slots ∧ t.minVersion = s.minVersion ∧
      (∀ k a, t.byteAt ⟨.die k, a⟩ = 0 ∧ t.byteAt ⟨.team k, a⟩ = 0) ∧ ∀ k < 16, t.reg (mgt (0x40 + 8 * k)) = s.reg (mgt (0x40 + 8 * k))) ∧
    (let tells (i : Instr) (a : Spdm) : Prop := exec i s = .next { s with spdm := a :: s.spdm }
     (s.booted = true → tells .getVersion .version ∧ tells .getCapabilities .capabilities ∧
        tells .getDigests (.digests (Config.shake256 Config.certificateChain)) ∧ tells .getCertificate (.certificate Config.certificateChain) ∧
        tells .getMeasurements (.measurements s.measurements) ∧ tells (.negotiateAlgorithms false false) .errorUnsupported ∧
        tells .challenge (.challenge (Config.deviceSign (bytesOfNat s.free 8))) ∧
        exec (.negotiateAlgorithms true true) s = .next { s with algorithms := true, spdm := .algorithms :: s.spdm }) ∧
     (s.booted = false → ∀ i ∈ [Instr.getVersion, .getCapabilities, .getDigests, .getCertificate, .getMeasurements, .challenge,
        .negotiateAlgorithms true true], tells i .errorUnspecified))

/-! ## The onsetter (R107 to R126) -/

/-- The onsetter claims, places and starts: batches of 16 clusters, the first offered cluster that fits, tasks, embers and the ends of
teams; slices and the driver's requests pre-empt, and a pre-emption ends when its context has drained or by force at its deadline.
Where the spec is silent it rests on the model's choice in log entry 89, and on its reading in log entry 37. -/
def Obligations.OnsetterActs : Prop :=
  ∀ s : State,
    (∀ l, s.launches.find? s.mayClaim = some l → exec .claimBatch s = .next
      ((s.onLaunch l.lid fun l => { l with claiming := true }).shaftAt l.ctx (.claim l.lid) l.claim .atomic (.add .w64) 16)) ∧
    (∀ t, s.placeDue = true → s.replace = some t →
      exec .placeCluster s = .next { t with steps := t.steps + 1, lastPlace := t.clock }) ∧
    (∀ l rest n cs, s.placeDue = true → s.replace = none → s.offered = l :: rest → s.choice l = some (n, cs) →
      ((s.place l n cs).preemptDue = none → exec .placeCluster s = .next (s.place l n cs).judgeSlices) ∧
      ∀ c, (s.place l n cs).preemptDue = some c → exec .placeCluster s = .next ((s.place l n cs).preemptNow c).judgeSlices) ∧
    (∀ l, s.starving = some l → exec .starved s = .next (s.onLaunch l.lid fun l => { l with starved := true })) ∧
    exec .coreReport s = .next { s with views := s.views.drop 1 } ∧
    (∀ c, s.sliceOver = some c →
      let m : State := { s with sliceStart := Tab.set c s.time s.sliceStart }
      (m.equalWaits c = true → s.preempt = none → exec .sliceExpiry s = .next (m.preemptNow c)) ∧
      (m.equalWaits c = true → s.preempt ≠ none → s.preempting c = false →
        exec .sliceExpiry s = .next { m with sliceDue := dedup (s.sliceDue ++ [c]) }) ∧
      (m.equalWaits c = false ∨ s.preempting c = true → exec .sliceExpiry s = .next m)) ∧
    (∀ ctx, s.linkUp = true → s.running ctx = true → s.preempting ctx = false →
      (s.preempt = none → exec (.preemptReq ctx) s = .next (s.preemptNow ctx)) ∧
      (s.preempt ≠ none → PutsReg s (exec (.preemptReq ctx) s) (onsCtx ctx 0x10) 1)) ∧
    (∀ p, s.drained = some p → exec .preemptEnd s = .next (s.noteDrain p).judgeSlices) ∧
    (s.judgeSlices = if s.preempt = none then { s with sliceDue := s.sliceDue.filter s.equalWaits } else s) ∧
    (∀ p, s.preempt = some p → p.deadline ≤ s.time → ∃ t, exec .deadlineExpiry s = .next t ∧ t.ctxStopped p.ctx = true ∧
      (∀ x ∈ t.teams, x.ctx ≠ p.ctx) ∧ (∀ g ∈ t.groups, g.ctx ≠ p.ctx) ∧ ∃ r ∈ t.records, r.ctx = p.ctx ∧ r.code = 0xFE00) ∧
    (∀ x, s.teams.find? s.teamOver = some x → ∃ t, exec .teamEnd s = .next t ∧ ∀ y ∈ t.teams, y.tuid ≠ x.tuid) ∧
    (∀ core i k x slot lend, s.startable core = some (i, k, x, slot, lend) → ∃ t y, exec (.taskStart core) s = .next t ∧
      t.threads = s.threads ++ [y] ∧ y.uid = s.nextId ∧ y.core = core ∧ y.slot = slot ∧ y.team = x.tuid ∧ y.kind = .task) ∧
    ∀ core i b x slot, s.cores.findSome? (fun c => (s.hatchable c.1).map fun h => (c.1, h)) = some (core, i, b, x, slot) →
      ∃ t y, exec .emberBirth s = .next t ∧ y ∈ t.threads ∧ y.uid = s.nextId ∧ y.core = core ∧ y.slot = slot ∧ y.team = x.tuid ∧
        y.kind = .ember ∧ y.ember = some { b.info with core := core }
end

