-- ==== Sys2Proof/Laws/Store.lean ====
section
/-! SUPPORT. Tables, stores of bytes and memory-mapped registers: what a read finds after a write, and that every operation on a
store keeps its canonical form. -/

namespace Sys2Proof.Machine

/-! ## Tables -/

@[simp] theorem Tab.find_set_self {α : Type} (k : Nat) (v : α) (t : Tab α) : Tab.find k (Tab.set k v t) = some v := by
  induction t with
  | nil => simp [Tab.set, Tab.find]
  | cons e t ih =>
    obtain ⟨i, x⟩ := e
    unfold Tab.set
    split
    · simp [Tab.find]
    · split
      · simp [Tab.find]
      · rename_i h; simp [Tab.find, h, ih]

theorem Tab.find_set_other {α : Type} {k j : Nat} (v : α) (t : Tab α) (h : j ≠ k) :
    Tab.find j (Tab.set k v t) = Tab.find j t := by
  induction t with
  | nil => simp [Tab.set, Tab.find, Ne.symm h]
  | cons e t ih =>
    obtain ⟨i, x⟩ := e
    unfold Tab.set
    split
    · simp [Tab.find, Ne.symm h]
    · split
      · rename_i h'; subst h'; simp [Tab.find, Ne.symm h]
      · simp [Tab.find, ih]

@[simp] theorem Tab.find_del_self {α : Type} (k : Nat) (t : Tab α) : Tab.find k (Tab.del k t) = none := by
  induction t with
  | nil => rfl
  | cons e t ih =>
    obtain ⟨i, x⟩ := e
    by_cases h : i = k
    · simpa [Tab.del, h] using ih
    · have := ih; unfold Tab.del at this ⊢; simp [h, Tab.find, this]

theorem Tab.find_del_other {α : Type} {k j : Nat} (t : Tab α) (h : j ≠ k) : Tab.find j (Tab.del k t) = Tab.find j t := by
  induction t with
  | nil => rfl
  | cons e t ih =>
    obtain ⟨i, x⟩ := e
    unfold Tab.del at ih ⊢
    by_cases hi : i = k
    · subst hi; simp [Tab.find, Ne.symm h, ih]
    · simp [hi, Tab.find, ih]

theorem Tab.get_eq_find {α : Type} (d : α) (k : Nat) (t : Tab α) : Tab.get d k t = (Tab.find k t).getD d := by
  induction t with
  | nil => rfl
  | cons e t ih => obtain ⟨i, x⟩ := e; by_cases h : i = k <;> simp [Tab.get, Tab.find, h, ih]

@[simp] theorem Tab.get_set_self {α : Type} (d : α) (k : Nat) (v : α) (t : Tab α) : Tab.get d k (Tab.set k v t) = v := by
  simp [Tab.get_eq_find]

theorem Tab.get_set_other {α : Type} (d : α) {k j : Nat} (v : α) (t : Tab α) (h : j ≠ k) :
    Tab.get d j (Tab.set k v t) = Tab.get d j t := by
  simp [Tab.get_eq_find, Tab.find_set_other v t h]

/-- What a table holds after a write was there before, or was written. -/
theorem Tab.mem_set {α : Type} {k : Nat} {v : α} {t : Tab α} {e : Nat × α} (h : e ∈ Tab.set k v t) : e = (k, v) ∨ e ∈ t := by
  induction t with
  | nil => simpa [Tab.set] using h
  | cons x t ih =>
    obtain ⟨i, y⟩ := x
    unfold Tab.set at h
    split at h
    · simpa using h
    · split at h
      · rcases List.mem_cons.1 h with h | h
        · exact .inl h
        · exact .inr (List.mem_cons_of_mem _ h)
      · rcases List.mem_cons.1 h with h | h
        · exact .inr (h ▸ List.mem_cons_self ..)
        · exact (ih h).imp id (List.mem_cons_of_mem _)

theorem Tab.mem_of_find {α : Type} {k : Nat} {v : α} {t : Tab α} (h : Tab.find k t = some v) : (k, v) ∈ t := by
  induction t with
  | nil => simp [Tab.find] at h
  | cons x t ih =>
    obtain ⟨i, y⟩ := x
    unfold Tab.find at h
    split at h
    · rename_i hi; subst hi; simp_all
    · exact List.mem_cons_of_mem _ (ih h)

/-! ## Memory-mapped registers -/

theorem State.reg_setReg_self (s : State) (off v : Nat) (h : v < 2 ^ 64) : (s.setReg off v).reg off = v := by
  unfold State.reg State.setReg
  by_cases hv : v = regReset off
  · simp [hv]
  · simp [hv]; omega

theorem State.reg_setReg_other (s : State) {off r : Nat} (v : Nat) (h : r ≠ off) : (s.setReg off v).reg r = s.reg r := by
  unfold State.reg State.setReg
  by_cases hv : v = regReset off
  · simp [hv, Tab.find_del_other _ h]
  · simp [hv, Tab.find_set_other _ _ h]

/-! ## Stores of bytes -/

theorem Mem.wf_cons {i : Nat} {b : Byte} {t : Mem} :
    Mem.wf ((i, b) :: t) = true ↔ b ≠ Mem.unlisted ∧ (∀ c ∈ t, i < c.1) ∧ Mem.wf t = true := by
  induction t generalizing i b with
  | nil => simp [Mem.wf]
  | cons c t ih =>
    obtain ⟨j, d⟩ := c
    have := @ih j d
    simp only [Mem.wf, Bool.and_eq_true, bne_iff_ne, ne_eq, decide_eq_true_eq, List.mem_cons, forall_eq_or_imp]
    constructor
    · rintro ⟨⟨hb, hij⟩, hw⟩
      exact ⟨hb, ⟨hij, fun c hc => Nat.lt_trans hij ((this.1 hw).2.1 c hc)⟩, hw⟩
    · rintro ⟨hb, ⟨hij, _⟩, hw⟩
      exact ⟨⟨hb, hij⟩, hw⟩

theorem Mem.get_eq_of_lt {a : Nat} {m : Mem} (h : ∀ c ∈ m, a < c.1) : Mem.get a m = Mem.unlisted := by
  induction m with
  | nil => rfl
  | cons c t ih =>
    obtain ⟨i, b⟩ := c
    have := h (i, b) (by simp)
    simp [Mem.get, Nat.ne_of_gt this, ih fun c hc => h c (List.mem_cons_of_mem _ hc)]

theorem Mem.mem_set {a : Nat} {v : Byte} {m : Mem} {c : Nat × Byte} (h : c ∈ Mem.set a v m) : c = (a, v) ∨ c ∈ m := by
  induction m with
  | nil => unfold Mem.set at h; split at h <;> simp_all
  | cons x t ih =>
    obtain ⟨i, b⟩ := x
    unfold Mem.set at h
    split at h
    · split at h <;> simp_all
    · split at h
      · split at h <;> simp_all <;> tauto
      · rcases List.mem_cons.1 h with h | h
        · exact .inr (h ▸ List.mem_cons_self ..)
        · exact (ih h).imp id (List.mem_cons_of_mem _)

/-- A write of one byte keeps the canonical form. -/
theorem Mem.set_wf {m : Mem} (a : Nat) (v : Byte) (h : Mem.wf m = true) : Mem.wf (Mem.set a v m) = true := by
  induction m with
  | nil => unfold Mem.set; split <;> simp_all [Mem.wf]
  | cons x t ih =>
    obtain ⟨i, b⟩ := x
    obtain ⟨hb, hlt, ht⟩ := Mem.wf_cons.1 h
    unfold Mem.set
    split
    · rename_i hai
      split
      · exact h
      · rename_i hv
        exact Mem.wf_cons.2 ⟨hv, by simpa using ⟨hai, fun c d hc => Nat.lt_trans hai (hlt _ hc)⟩, h⟩
    · rename_i hai
      split
      · rename_i hia
        subst hia
        split
        · exact ht
        · rename_i hv; exact Mem.wf_cons.2 ⟨hv, hlt, ht⟩
      · rename_i hia
        refine Mem.wf_cons.2 ⟨hb, fun c hc => ?_, ih ht⟩
        rcases Mem.mem_set hc with rfl | hc
        · show i < a; omega
        · exact hlt c hc

/-- The byte that was written is read back. -/
theorem Mem.get_set_self {m : Mem} (a : Nat) (v : Byte) (h : Mem.wf m = true) : Mem.get a (Mem.set a v m) = v := by
  induction m with
  | nil => unfold Mem.set; split <;> simp_all [Mem.get]
  | cons x t ih =>
    obtain ⟨i, b⟩ := x
    obtain ⟨_, hlt, ht⟩ := Mem.wf_cons.1 h
    unfold Mem.set
    split
    · rename_i hai
      split
      · rename_i hv
        rw [hv]
        exact Mem.get_eq_of_lt (by simpa using ⟨hai, fun c d hc => Nat.lt_trans hai (hlt _ hc)⟩)
      · simp [Mem.get]
    · split
      · rename_i hia
        split
        · rename_i hv; rw [hv]; exact Mem.get_eq_of_lt (fun c hc => hia ▸ hlt c hc)
        · simp [Mem.get]
      · rename_i hia; simp [Mem.get, hia, ih ht]

/-- Every other address reads as before. -/
theorem Mem.get_set_other (m : Mem) {a j : Nat} (v : Byte) (h : j ≠ a) : Mem.get j (Mem.set a v m) = Mem.get j m := by
  induction m with
  | nil => unfold Mem.set; split <;> simp [Mem.get, Ne.symm h]
  | cons x t ih =>
    obtain ⟨i, b⟩ := x
    unfold Mem.set
    split
    · split <;> simp [Mem.get, Ne.symm h]
    · split
      · rename_i hia
        subst hia
        split <;> simp [Mem.get, Ne.symm h]
      · simp [Mem.get, ih]

theorem Mem.setBytes_wf {m : Mem} (a : Nat) (bs : List Byte) (h : Mem.wf m = true) : Mem.wf (m.setBytes a bs) = true := by
  induction bs generalizing m a with
  | nil => exact h
  | cons b bs ih => exact ih (a + 1) (Mem.set_wf a b h)

/-- A write of bytes leaves every address outside them alone. -/
theorem Mem.get_setBytes_out (m : Mem) (a : Nat) (bs : List Byte) {j : Nat} (h : j < a ∨ a + bs.length ≤ j) :
    Mem.get j (m.setBytes a bs) = Mem.get j m := by
  induction bs generalizing m a with
  | nil => rfl
  | cons b bs ih =>
    simp only [List.length_cons] at h
    rw [Mem.setBytes, ih _ _ (by omega), Mem.get_set_other _ _ (by omega)]

/-- And the bytes are read back. -/
theorem Mem.get_setBytes_in {m : Mem} (a : Nat) (bs : List Byte) (hw : Mem.wf m = true) {i : Nat} (h : i < bs.length) :
    Mem.get (a + i) (m.setBytes a bs) = bs[i] := by
  induction bs generalizing m a i with
  | nil => simp at h
  | cons b bs ih =>
    rw [Mem.setBytes]
    cases i with
    | zero => rw [Mem.get_setBytes_out _ _ _ (by omega)]; exact Mem.get_set_self a b hw
    | succ i =>
      have := ih (a + 1) (Mem.set_wf a b hw) (i := i) (by simpa using h)
      simpa [Nat.add_assoc, Nat.add_comm 1 i] using this

theorem Mem.clear_wf {m : Mem} (lo n : Nat) (h : Mem.wf m = true) : Mem.wf (m.clear lo n) = true := by
  induction m with
  | nil => rfl
  | cons x t ih =>
    obtain ⟨i, b⟩ := x
    obtain ⟨hb, hlt, ht⟩ := Mem.wf_cons.1 h
    unfold Mem.clear at ih ⊢
    rw [List.filter_cons]
    split
    · exact Mem.wf_cons.2 ⟨hb, fun c hc => hlt c (List.mem_filter.1 hc).1, ih ht⟩
    · exact ih ht

/-- A cleared range reads as unlisted, and nothing else changes. -/
theorem Mem.get_clear (m : Mem) (lo n j : Nat) :
    Mem.get j (m.clear lo n) = if lo ≤ j ∧ j < lo + n then Mem.unlisted else Mem.get j m := by
  induction m with
  | nil => simp [Mem.clear, Mem.get]
  | cons x t ih =>
    obtain ⟨i, b⟩ := x
    unfold Mem.clear at ih ⊢
    rw [List.filter_cons]
    by_cases hi : i < lo ∨ lo + n ≤ i
    · rw [if_pos (by simpa using hi)]
      by_cases hij : i = j
      · subst hij; rw [if_neg (by omega)]; simp [Mem.get]
      · simp [Mem.get, hij, ih]
    · rw [if_neg (by simpa using hi), ih]
      by_cases hij : i = j
      · subst hij; rw [if_pos (by omega), if_pos (by omega)]
      · simp [Mem.get, hij]

/-! ## Places -/

@[simp] theorem State.cells_setCells_self (s : State) (sp : Space) (m : Mem) (h : sp.hasBytes = true) :
    (s.setCells sp m).cells sp = m := by
  cases sp <;> simp [State.setCells, State.cells, Space.hasBytes] at h ⊢ <;> (split <;> simp_all)

/-- A write of one space leaves the others alone. Die memories beyond the second are the second. -/
theorem State.cells_setCells_other (s : State) (sp q : Space) (m : Mem) (h : q ≠ sp) (hd : ∀ d, q = .die d → d < 2)
    (hs : ∀ d, sp = .die d → d < 2) : (s.setCells sp m).cells q = s.cells q := by
  cases sp <;> cases q <;> simp_all [State.setCells, State.cells] <;> (try split) <;> (try split) <;>
    (first | rfl | omega | (apply Tab.get_set_other; exact h))

end Sys2Proof.Machine
end

