-- ==== Sys2Proof/Laws/State.lean ====
section
/-! SUPPORT. What each update of the state leaves alone, field by field. -/

namespace Sys2Proof.Machine

section
variable (s : State) (off v : Nat)
@[simp] theorem State.setReg_time : (s.setReg off v).time = s.time := rfl
@[simp] theorem State.setReg_clock : (s.setReg off v).clock = s.clock := rfl
@[simp] theorem State.setReg_mhz100 : (s.setReg off v).mhz100 = s.mhz100 := rfl
@[simp] theorem State.setReg_free : (s.setReg off v).free = s.free := rfl
@[simp] theorem State.setReg_nextId : (s.setReg off v).nextId = s.nextId := rfl
@[simp] theorem State.setReg_agenda : (s.setReg off v).agenda = s.agenda := rfl
@[simp] theorem State.setReg_cur : (s.setReg off v).cur = s.cur := rfl
@[simp] theorem State.setReg_stalls : (s.setReg off v).stalls = s.stalls := rfl
@[simp] theorem State.setReg_spent : (s.setReg off v).spent = s.spent := rfl
@[simp] theorem State.setReg_pkgMem : (s.setReg off v).pkgMem = s.pkgMem := rfl
@[simp] theorem State.setReg_podMem : (s.setReg off v).podMem = s.podMem := rfl
@[simp] theorem State.setReg_hostMem : (s.setReg off v).hostMem = s.hostMem := rfl
@[simp] theorem State.setReg_die0 : (s.setReg off v).die0 = s.die0 := rfl
@[simp] theorem State.setReg_die1 : (s.setReg off v).die1 = s.die1 := rfl
@[simp] theorem State.setReg_teamMem : (s.setReg off v).teamMem = s.teamMem := rfl
@[simp] theorem State.setReg_opBuf : (s.setReg off v).opBuf = s.opBuf := rfl
@[simp] theorem State.setReg_teamOwner : (s.setReg off v).teamOwner = s.teamOwner := rfl
@[simp] theorem State.setReg_dieOwner : (s.setReg off v).dieOwner = s.dieOwner := rfl
@[simp] theorem State.setReg_poison : (s.setReg off v).poison = s.poison := rfl
@[simp] theorem State.setReg_oldWords : (s.setReg off v).oldWords = s.oldWords := rfl
@[simp] theorem State.setReg_slices : (s.setReg off v).slices = s.slices := rfl
@[simp] theorem State.setReg_tlb : (s.setReg off v).tlb = s.tlb := rfl
@[simp] theorem State.setReg_via : (s.setReg off v).via = s.via := rfl
@[simp] theorem State.setReg_invals : (s.setReg off v).invals = s.invals := rfl
@[simp] theorem State.setReg_cores : (s.setReg off v).cores = s.cores := rfl
@[simp] theorem State.setReg_quads : (s.setReg off v).quads = s.quads := rfl
@[simp] theorem State.setReg_threads : (s.setReg off v).threads = s.threads := rfl
@[simp] theorem State.setReg_groups : (s.setReg off v).groups = s.groups := rfl
@[simp] theorem State.setReg_enrolments : (s.setReg off v).enrolments = s.enrolments := rfl
@[simp] theorem State.setReg_fabric : (s.setReg off v).fabric = s.fabric := rfl
@[simp] theorem State.setReg_bulkWait : (s.setReg off v).bulkWait = s.bulkWait := rfl
@[simp] theorem State.setReg_late : (s.setReg off v).late = s.late := rfl
@[simp] theorem State.setReg_lodes : (s.setReg off v).lodes = s.lodes := rfl
@[simp] theorem State.setReg_strays : (s.setReg off v).strays = s.strays := rfl
@[simp] theorem State.setReg_claims : (s.setReg off v).claims = s.claims := rfl
@[simp] theorem State.setReg_records : (s.setReg off v).records = s.records := rfl
@[simp] theorem State.setReg_stops : (s.setReg off v).stops = s.stops := rfl
@[simp] theorem State.setReg_fqWait : (s.setReg off v).fqWait = s.fqWait := rfl
@[simp] theorem State.setReg_queues : (s.setReg off v).queues = s.queues := rfl
@[simp] theorem State.setReg_dims : (s.setReg off v).dims = s.dims := rfl
@[simp] theorem State.setReg_pkts : (s.setReg off v).pkts = s.pkts := rfl
@[simp] theorem State.setReg_launches : (s.setReg off v).launches = s.launches := rfl
@[simp] theorem State.setReg_teams : (s.setReg off v).teams = s.teams := rfl
@[simp] theorem State.setReg_clusters : (s.setReg off v).clusters = s.clusters := rfl
@[simp] theorem State.setReg_steps : (s.setReg off v).steps = s.steps := rfl
@[simp] theorem State.setReg_lastPlace : (s.setReg off v).lastPlace = s.lastPlace := rfl
@[simp] theorem State.setReg_views : (s.setReg off v).views = s.views := rfl
@[simp] theorem State.setReg_sliceStart : (s.setReg off v).sliceStart = s.sliceStart := rfl
@[simp] theorem State.setReg_sliceDue : (s.setReg off v).sliceDue = s.sliceDue := rfl
@[simp] theorem State.setReg_resident : (s.setReg off v).resident = s.resident := rfl
@[simp] theorem State.setReg_preempt : (s.setReg off v).preempt = s.preempt := rfl
@[simp] theorem State.setReg_drains : (s.setReg off v).drains = s.drains := rfl
@[simp] theorem State.setReg_tests : (s.setReg off v).tests = s.tests := rfl
@[simp] theorem State.setReg_held : (s.setReg off v).held = s.held := rfl
@[simp] theorem State.setReg_retestWait : (s.setReg off v).retestWait = s.retestWait := rfl
@[simp] theorem State.setReg_saves : (s.setReg off v).saves = s.saves := rfl
@[simp] theorem State.setReg_images : (s.setReg off v).images = s.images := rfl
@[simp] theorem State.setReg_irqs : (s.setReg off v).irqs = s.irqs := rfl
@[simp] theorem State.setReg_readback : (s.setReg off v).readback = s.readback := rfl
@[simp] theorem State.setReg_linkUp : (s.setReg off v).linkUp = s.linkUp := rfl
@[simp] theorem State.setReg_hostMaps : (s.setReg off v).hostMaps = s.hostMaps := rfl
@[simp] theorem State.setReg_celsius : (s.setReg off v).celsius = s.celsius := rfl
@[simp] theorem State.setReg_corrected : (s.setReg off v).corrected = s.corrected := rfl
@[simp] theorem State.setReg_tripped : (s.setReg off v).tripped = s.tripped := rfl
@[simp] theorem State.setReg_shaftFault : (s.setReg off v).shaftFault = s.shaftFault := rfl
@[simp] theorem State.setReg_booted : (s.setReg off v).booted = s.booted := rfl
@[simp] theorem State.setReg_runSlot : (s.setReg off v).runSlot = s.runSlot := rfl
@[simp] theorem State.setReg_slots : (s.setReg off v).slots = s.slots := rfl
@[simp] theorem State.setReg_fwCmd : (s.setReg off v).fwCmd = s.fwCmd := rfl
@[simp] theorem State.setReg_spdm : (s.setReg off v).spdm = s.spdm := rfl
@[simp] theorem State.setReg_algorithms : (s.setReg off v).algorithms = s.algorithms := rfl
@[simp] theorem State.setReg_measured5 : (s.setReg off v).measured5 = s.measured5 := rfl
@[simp] theorem State.setReg_sampleAt : (s.setReg off v).sampleAt = s.sampleAt := rfl
@[simp] theorem State.setReg_lostNoted : (s.setReg off v).lostNoted = s.lostNoted := rfl
end

section
variable (s : State) (n : Nat) (c : CoreSt)
@[simp] theorem State.setCore_time : (s.setCore n c).time = s.time := rfl
@[simp] theorem State.setCore_clock : (s.setCore n c).clock = s.clock := rfl
@[simp] theorem State.setCore_mhz100 : (s.setCore n c).mhz100 = s.mhz100 := rfl
@[simp] theorem State.setCore_free : (s.setCore n c).free = s.free := rfl
@[simp] theorem State.setCore_nextId : (s.setCore n c).nextId = s.nextId := rfl
@[simp] theorem State.setCore_agenda : (s.setCore n c).agenda = s.agenda := rfl
@[simp] theorem State.setCore_cur : (s.setCore n c).cur = s.cur := rfl
@[simp] theorem State.setCore_stalls : (s.setCore n c).stalls = s.stalls := rfl
@[simp] theorem State.setCore_spent : (s.setCore n c).spent = s.spent := rfl
@[simp] theorem State.setCore_regs : (s.setCore n c).regs = s.regs := rfl
@[simp] theorem State.setCore_pkgMem : (s.setCore n c).pkgMem = s.pkgMem := rfl
@[simp] theorem State.setCore_podMem : (s.setCore n c).podMem = s.podMem := rfl
@[simp] theorem State.setCore_hostMem : (s.setCore n c).hostMem = s.hostMem := rfl
@[simp] theorem State.setCore_die0 : (s.setCore n c).die0 = s.die0 := rfl
@[simp] theorem State.setCore_die1 : (s.setCore n c).die1 = s.die1 := rfl
@[simp] theorem State.setCore_teamMem : (s.setCore n c).teamMem = s.teamMem := rfl
@[simp] theorem State.setCore_opBuf : (s.setCore n c).opBuf = s.opBuf := rfl
@[simp] theorem State.setCore_teamOwner : (s.setCore n c).teamOwner = s.teamOwner := rfl
@[simp] theorem State.setCore_dieOwner : (s.setCore n c).dieOwner = s.dieOwner := rfl
@[simp] theorem State.setCore_poison : (s.setCore n c).poison = s.poison := rfl
@[simp] theorem State.setCore_oldWords : (s.setCore n c).oldWords = s.oldWords := rfl
@[simp] theorem State.setCore_slices : (s.setCore n c).slices = s.slices := rfl
@[simp] theorem State.setCore_tlb : (s.setCore n c).tlb = s.tlb := rfl
@[simp] theorem State.setCore_via : (s.setCore n c).via = s.via := rfl
@[simp] theorem State.setCore_invals : (s.setCore n c).invals = s.invals := rfl
@[simp] theorem State.setCore_quads : (s.setCore n c).quads = s.quads := rfl
@[simp] theorem State.setCore_threads : (s.setCore n c).threads = s.threads := rfl
@[simp] theorem State.setCore_groups : (s.setCore n c).groups = s.groups := rfl
@[simp] theorem State.setCore_enrolments : (s.setCore n c).enrolments = s.enrolments := rfl
@[simp] theorem State.setCore_fabric : (s.setCore n c).fabric = s.fabric := rfl
@[simp] theorem State.setCore_bulkWait : (s.setCore n c).bulkWait = s.bulkWait := rfl
@[simp] theorem State.setCore_late : (s.setCore n c).late = s.late := rfl
@[simp] theorem State.setCore_lodes : (s.setCore n c).lodes = s.lodes := rfl
@[simp] theorem State.setCore_strays : (s.setCore n c).strays = s.strays := rfl
@[simp] theorem State.setCore_claims : (s.setCore n c).claims = s.claims := rfl
@[simp] theorem State.setCore_records : (s.setCore n c).records = s.records := rfl
@[simp] theorem State.setCore_stops : (s.setCore n c).stops = s.stops := rfl
@[simp] theorem State.setCore_fqWait : (s.setCore n c).fqWait = s.fqWait := rfl
@[simp] theorem State.setCore_queues : (s.setCore n c).queues = s.queues := rfl
@[simp] theorem State.setCore_dims : (s.setCore n c).dims = s.dims := rfl
@[simp] theorem State.setCore_pkts : (s.setCore n c).pkts = s.pkts := rfl
@[simp] theorem State.setCore_launches : (s.setCore n c).launches = s.launches := rfl
@[simp] theorem State.setCore_teams : (s.setCore n c).teams = s.teams := rfl
@[simp] theorem State.setCore_clusters : (s.setCore n c).clusters = s.clusters := rfl
@[simp] theorem State.setCore_steps : (s.setCore n c).steps = s.steps := rfl
@[simp] theorem State.setCore_lastPlace : (s.setCore n c).lastPlace = s.lastPlace := rfl
@[simp] theorem State.setCore_views : (s.setCore n c).views = s.views := rfl
@[simp] theorem State.setCore_sliceStart : (s.setCore n c).sliceStart = s.sliceStart := rfl
@[simp] theorem State.setCore_sliceDue : (s.setCore n c).sliceDue = s.sliceDue := rfl
@[simp] theorem State.setCore_resident : (s.setCore n c).resident = s.resident := rfl
@[simp] theorem State.setCore_preempt : (s.setCore n c).preempt = s.preempt := rfl
@[simp] theorem State.setCore_drains : (s.setCore n c).drains = s.drains := rfl
@[simp] theorem State.setCore_tests : (s.setCore n c).tests = s.tests := rfl
@[simp] theorem State.setCore_held : (s.setCore n c).held = s.held := rfl
@[simp] theorem State.setCore_retestWait : (s.setCore n c).retestWait = s.retestWait := rfl
@[simp] theorem State.setCore_saves : (s.setCore n c).saves = s.saves := rfl
@[simp] theorem State.setCore_images : (s.setCore n c).images = s.images := rfl
@[simp] theorem State.setCore_irqs : (s.setCore n c).irqs = s.irqs := rfl
@[simp] theorem State.setCore_readback : (s.setCore n c).readback = s.readback := rfl
@[simp] theorem State.setCore_linkUp : (s.setCore n c).linkUp = s.linkUp := rfl
@[simp] theorem State.setCore_hostMaps : (s.setCore n c).hostMaps = s.hostMaps := rfl
@[simp] theorem State.setCore_celsius : (s.setCore n c).celsius = s.celsius := rfl
@[simp] theorem State.setCore_corrected : (s.setCore n c).corrected = s.corrected := rfl
@[simp] theorem State.setCore_tripped : (s.setCore n c).tripped = s.tripped := rfl
@[simp] theorem State.setCore_shaftFault : (s.setCore n c).shaftFault = s.shaftFault := rfl
@[simp] theorem State.setCore_booted : (s.setCore n c).booted = s.booted := rfl
@[simp] theorem State.setCore_runSlot : (s.setCore n c).runSlot = s.runSlot := rfl
@[simp] theorem State.setCore_slots : (s.setCore n c).slots = s.slots := rfl
@[simp] theorem State.setCore_fwCmd : (s.setCore n c).fwCmd = s.fwCmd := rfl
@[simp] theorem State.setCore_spdm : (s.setCore n c).spdm = s.spdm := rfl
@[simp] theorem State.setCore_algorithms : (s.setCore n c).algorithms = s.algorithms := rfl
@[simp] theorem State.setCore_measured5 : (s.setCore n c).measured5 = s.measured5 := rfl
@[simp] theorem State.setCore_sampleAt : (s.setCore n c).sampleAt = s.sampleAt := rfl
@[simp] theorem State.setCore_lostNoted : (s.setCore n c).lostNoted = s.lostNoted := rfl
end

section
variable (s : State) (q : Nat) (x : QuadSt)
@[simp] theorem State.setQuad_time : (s.setQuad q x).time = s.time := rfl
@[simp] theorem State.setQuad_clock : (s.setQuad q x).clock = s.clock := rfl
@[simp] theorem State.setQuad_mhz100 : (s.setQuad q x).mhz100 = s.mhz100 := rfl
@[simp] theorem State.setQuad_free : (s.setQuad q x).free = s.free := rfl
@[simp] theorem State.setQuad_nextId : (s.setQuad q x).nextId = s.nextId := rfl
@[simp] theorem State.setQuad_agenda : (s.setQuad q x).agenda = s.agenda := rfl
@[simp] theorem State.setQuad_cur : (s.setQuad q x).cur = s.cur := rfl
@[simp] theorem State.setQuad_stalls : (s.setQuad q x).stalls = s.stalls := rfl
@[simp] theorem State.setQuad_spent : (s.setQuad q x).spent = s.spent := rfl
@[simp] theorem State.setQuad_regs : (s.setQuad q x).regs = s.regs := rfl
@[simp] theorem State.setQuad_pkgMem : (s.setQuad q x).pkgMem = s.pkgMem := rfl
@[simp] theorem State.setQuad_podMem : (s.setQuad q x).podMem = s.podMem := rfl
@[simp] theorem State.setQuad_hostMem : (s.setQuad q x).hostMem = s.hostMem := rfl
@[simp] theorem State.setQuad_die0 : (s.setQuad q x).die0 = s.die0 := rfl
@[simp] theorem State.setQuad_die1 : (s.setQuad q x).die1 = s.die1 := rfl
@[simp] theorem State.setQuad_teamMem : (s.setQuad q x).teamMem = s.teamMem := rfl
@[simp] theorem State.setQuad_opBuf : (s.setQuad q x).opBuf = s.opBuf := rfl
@[simp] theorem State.setQuad_teamOwner : (s.setQuad q x).teamOwner = s.teamOwner := rfl
@[simp] theorem State.setQuad_dieOwner : (s.setQuad q x).dieOwner = s.dieOwner := rfl
@[simp] theorem State.setQuad_poison : (s.setQuad q x).poison = s.poison := rfl
@[simp] theorem State.setQuad_oldWords : (s.setQuad q x).oldWords = s.oldWords := rfl
@[simp] theorem State.setQuad_slices : (s.setQuad q x).slices = s.slices := rfl
@[simp] theorem State.setQuad_tlb : (s.setQuad q x).tlb = s.tlb := rfl
@[simp] theorem State.setQuad_via : (s.setQuad q x).via = s.via := rfl
@[simp] theorem State.setQuad_invals : (s.setQuad q x).invals = s.invals := rfl
@[simp] theorem State.setQuad_cores : (s.setQuad q x).cores = s.cores := rfl
@[simp] theorem State.setQuad_threads : (s.setQuad q x).threads = s.threads := rfl
@[simp] theorem State.setQuad_groups : (s.setQuad q x).groups = s.groups := rfl
@[simp] theorem State.setQuad_enrolments : (s.setQuad q x).enrolments = s.enrolments := rfl
@[simp] theorem State.setQuad_fabric : (s.setQuad q x).fabric = s.fabric := rfl
@[simp] theorem State.setQuad_bulkWait : (s.setQuad q x).bulkWait = s.bulkWait := rfl
@[simp] theorem State.setQuad_late : (s.setQuad q x).late = s.late := rfl
@[simp] theorem State.setQuad_lodes : (s.setQuad q x).lodes = s.lodes := rfl
@[simp] theorem State.setQuad_strays : (s.setQuad q x).strays = s.strays := rfl
@[simp] theorem State.setQuad_claims : (s.setQuad q x).claims = s.claims := rfl
@[simp] theorem State.setQuad_records : (s.setQuad q x).records = s.records := rfl
@[simp] theorem State.setQuad_stops : (s.setQuad q x).stops = s.stops := rfl
@[simp] theorem State.setQuad_fqWait : (s.setQuad q x).fqWait = s.fqWait := rfl
@[simp] theorem State.setQuad_queues : (s.setQuad q x).queues = s.queues := rfl
@[simp] theorem State.setQuad_dims : (s.setQuad q x).dims = s.dims := rfl
@[simp] theorem State.setQuad_pkts : (s.setQuad q x).pkts = s.pkts := rfl
@[simp] theorem State.setQuad_launches : (s.setQuad q x).launches = s.launches := rfl
@[simp] theorem State.setQuad_teams : (s.setQuad q x).teams = s.teams := rfl
@[simp] theorem State.setQuad_clusters : (s.setQuad q x).clusters = s.clusters := rfl
@[simp] theorem State.setQuad_steps : (s.setQuad q x).steps = s.steps := rfl
@[simp] theorem State.setQuad_lastPlace : (s.setQuad q x).lastPlace = s.lastPlace := rfl
@[simp] theorem State.setQuad_views : (s.setQuad q x).views = s.views := rfl
@[simp] theorem State.setQuad_sliceStart : (s.setQuad q x).sliceStart = s.sliceStart := rfl
@[simp] theorem State.setQuad_sliceDue : (s.setQuad q x).sliceDue = s.sliceDue := rfl
@[simp] theorem State.setQuad_resident : (s.setQuad q x).resident = s.resident := rfl
@[simp] theorem State.setQuad_preempt : (s.setQuad q x).preempt = s.preempt := rfl
@[simp] theorem State.setQuad_drains : (s.setQuad q x).drains = s.drains := rfl
@[simp] theorem State.setQuad_tests : (s.setQuad q x).tests = s.tests := rfl
@[simp] theorem State.setQuad_held : (s.setQuad q x).held = s.held := rfl
@[simp] theorem State.setQuad_retestWait : (s.setQuad q x).retestWait = s.retestWait := rfl
@[simp] theorem State.setQuad_saves : (s.setQuad q x).saves = s.saves := rfl
@[simp] theorem State.setQuad_images : (s.setQuad q x).images = s.images := rfl
@[simp] theorem State.setQuad_irqs : (s.setQuad q x).irqs = s.irqs := rfl
@[simp] theorem State.setQuad_readback : (s.setQuad q x).readback = s.readback := rfl
@[simp] theorem State.setQuad_linkUp : (s.setQuad q x).linkUp = s.linkUp := rfl
@[simp] theorem State.setQuad_hostMaps : (s.setQuad q x).hostMaps = s.hostMaps := rfl
@[simp] theorem State.setQuad_celsius : (s.setQuad q x).celsius = s.celsius := rfl
@[simp] theorem State.setQuad_corrected : (s.setQuad q x).corrected = s.corrected := rfl
@[simp] theorem State.setQuad_tripped : (s.setQuad q x).tripped = s.tripped := rfl
@[simp] theorem State.setQuad_shaftFault : (s.setQuad q x).shaftFault = s.shaftFault := rfl
@[simp] theorem State.setQuad_booted : (s.setQuad q x).booted = s.booted := rfl
@[simp] theorem State.setQuad_runSlot : (s.setQuad q x).runSlot = s.runSlot := rfl
@[simp] theorem State.setQuad_slots : (s.setQuad q x).slots = s.slots := rfl
@[simp] theorem State.setQuad_fwCmd : (s.setQuad q x).fwCmd = s.fwCmd := rfl
@[simp] theorem State.setQuad_spdm : (s.setQuad q x).spdm = s.spdm := rfl
@[simp] theorem State.setQuad_algorithms : (s.setQuad q x).algorithms = s.algorithms := rfl
@[simp] theorem State.setQuad_measured5 : (s.setQuad q x).measured5 = s.measured5 := rfl
@[simp] theorem State.setQuad_sampleAt : (s.setQuad q x).sampleAt = s.sampleAt := rfl
@[simp] theorem State.setQuad_lostNoted : (s.setQuad q x).lostNoted = s.lostNoted := rfl
end

section
variable (s : State) (ids : List Nat) (f : Thread → Thread)
@[simp] theorem State.onThreads_time : (s.onThreads ids f).time = s.time := rfl
@[simp] theorem State.onThreads_clock : (s.onThreads ids f).clock = s.clock := rfl
@[simp] theorem State.onThreads_mhz100 : (s.onThreads ids f).mhz100 = s.mhz100 := rfl
@[simp] theorem State.onThreads_free : (s.onThreads ids f).free = s.free := rfl
@[simp] theorem State.onThreads_nextId : (s.onThreads ids f).nextId = s.nextId := rfl
@[simp] theorem State.onThreads_agenda : (s.onThreads ids f).agenda = s.agenda := rfl
@[simp] theorem State.onThreads_cur : (s.onThreads ids f).cur = s.cur := rfl
@[simp] theorem State.onThreads_stalls : (s.onThreads ids f).stalls = s.stalls := rfl
@[simp] theorem State.onThreads_spent : (s.onThreads ids f).spent = s.spent := rfl
@[simp] theorem State.onThreads_regs : (s.onThreads ids f).regs = s.regs := rfl
@[simp] theorem State.onThreads_pkgMem : (s.onThreads ids f).pkgMem = s.pkgMem := rfl
@[simp] theorem State.onThreads_podMem : (s.onThreads ids f).podMem = s.podMem := rfl
@[simp] theorem State.onThreads_hostMem : (s.onThreads ids f).hostMem = s.hostMem := rfl
@[simp] theorem State.onThreads_die0 : (s.onThreads ids f).die0 = s.die0 := rfl
@[simp] theorem State.onThreads_die1 : (s.onThreads ids f).die1 = s.die1 := rfl
@[simp] theorem State.onThreads_teamMem : (s.onThreads ids f).teamMem = s.teamMem := rfl
@[simp] theorem State.onThreads_opBuf : (s.onThreads ids f).opBuf = s.opBuf := rfl
@[simp] theorem State.onThreads_teamOwner : (s.onThreads ids f).teamOwner = s.teamOwner := rfl
@[simp] theorem State.onThreads_dieOwner : (s.onThreads ids f).dieOwner = s.dieOwner := rfl
@[simp] theorem State.onThreads_poison : (s.onThreads ids f).poison = s.poison := rfl
@[simp] theorem State.onThreads_oldWords : (s.onThreads ids f).oldWords = s.oldWords := rfl
@[simp] theorem State.onThreads_slices : (s.onThreads ids f).slices = s.slices := rfl
@[simp] theorem State.onThreads_tlb : (s.onThreads ids f).tlb = s.tlb := rfl
@[simp] theorem State.onThreads_via : (s.onThreads ids f).via = s.via := rfl
@[simp] theorem State.onThreads_invals : (s.onThreads ids f).invals = s.invals := rfl
@[simp] theorem State.onThreads_cores : (s.onThreads ids f).cores = s.cores := rfl
@[simp] theorem State.onThreads_quads : (s.onThreads ids f).quads = s.quads := rfl
@[simp] theorem State.onThreads_groups : (s.onThreads ids f).groups = s.groups := rfl
@[simp] theorem State.onThreads_enrolments : (s.onThreads ids f).enrolments = s.enrolments := rfl
@[simp] theorem State.onThreads_fabric : (s.onThreads ids f).fabric = s.fabric := rfl
@[simp] theorem State.onThreads_bulkWait : (s.onThreads ids f).bulkWait = s.bulkWait := rfl
@[simp] theorem State.onThreads_late : (s.onThreads ids f).late = s.late := rfl
@[simp] theorem State.onThreads_lodes : (s.onThreads ids f).lodes = s.lodes := rfl
@[simp] theorem State.onThreads_strays : (s.onThreads ids f).strays = s.strays := rfl
@[simp] theorem State.onThreads_claims : (s.onThreads ids f).claims = s.claims := rfl
@[simp] theorem State.onThreads_records : (s.onThreads ids f).records = s.records := rfl
@[simp] theorem State.onThreads_stops : (s.onThreads ids f).stops = s.stops := rfl
@[simp] theorem State.onThreads_fqWait : (s.onThreads ids f).fqWait = s.fqWait := rfl
@[simp] theorem State.onThreads_queues : (s.onThreads ids f).queues = s.queues := rfl
@[simp] theorem State.onThreads_dims : (s.onThreads ids f).dims = s.dims := rfl
@[simp] theorem State.onThreads_pkts : (s.onThreads ids f).pkts = s.pkts := rfl
@[simp] theorem State.onThreads_launches : (s.onThreads ids f).launches = s.launches := rfl
@[simp] theorem State.onThreads_teams : (s.onThreads ids f).teams = s.teams := rfl
@[simp] theorem State.onThreads_clusters : (s.onThreads ids f).clusters = s.clusters := rfl
@[simp] theorem State.onThreads_steps : (s.onThreads ids f).steps = s.steps := rfl
@[simp] theorem State.onThreads_lastPlace : (s.onThreads ids f).lastPlace = s.lastPlace := rfl
@[simp] theorem State.onThreads_views : (s.onThreads ids f).views = s.views := rfl
@[simp] theorem State.onThreads_sliceStart : (s.onThreads ids f).sliceStart = s.sliceStart := rfl
@[simp] theorem State.onThreads_sliceDue : (s.onThreads ids f).sliceDue = s.sliceDue := rfl
@[simp] theorem State.onThreads_resident : (s.onThreads ids f).resident = s.resident := rfl
@[simp] theorem State.onThreads_preempt : (s.onThreads ids f).preempt = s.preempt := rfl
@[simp] theorem State.onThreads_drains : (s.onThreads ids f).drains = s.drains := rfl
@[simp] theorem State.onThreads_tests : (s.onThreads ids f).tests = s.tests := rfl
@[simp] theorem State.onThreads_held : (s.onThreads ids f).held = s.held := rfl
@[simp] theorem State.onThreads_retestWait : (s.onThreads ids f).retestWait = s.retestWait := rfl
@[simp] theorem State.onThreads_saves : (s.onThreads ids f).saves = s.saves := rfl
@[simp] theorem State.onThreads_images : (s.onThreads ids f).images = s.images := rfl
@[simp] theorem State.onThreads_irqs : (s.onThreads ids f).irqs = s.irqs := rfl
@[simp] theorem State.onThreads_readback : (s.onThreads ids f).readback = s.readback := rfl
@[simp] theorem State.onThreads_linkUp : (s.onThreads ids f).linkUp = s.linkUp := rfl
@[simp] theorem State.onThreads_hostMaps : (s.onThreads ids f).hostMaps = s.hostMaps := rfl
@[simp] theorem State.onThreads_celsius : (s.onThreads ids f).celsius = s.celsius := rfl
@[simp] theorem State.onThreads_corrected : (s.onThreads ids f).corrected = s.corrected := rfl
@[simp] theorem State.onThreads_tripped : (s.onThreads ids f).tripped = s.tripped := rfl
@[simp] theorem State.onThreads_shaftFault : (s.onThreads ids f).shaftFault = s.shaftFault := rfl
@[simp] theorem State.onThreads_booted : (s.onThreads ids f).booted = s.booted := rfl
@[simp] theorem State.onThreads_runSlot : (s.onThreads ids f).runSlot = s.runSlot := rfl
@[simp] theorem State.onThreads_slots : (s.onThreads ids f).slots = s.slots := rfl
@[simp] theorem State.onThreads_fwCmd : (s.onThreads ids f).fwCmd = s.fwCmd := rfl
@[simp] theorem State.onThreads_spdm : (s.onThreads ids f).spdm = s.spdm := rfl
@[simp] theorem State.onThreads_algorithms : (s.onThreads ids f).algorithms = s.algorithms := rfl
@[simp] theorem State.onThreads_measured5 : (s.onThreads ids f).measured5 = s.measured5 := rfl
@[simp] theorem State.onThreads_sampleAt : (s.onThreads ids f).sampleAt = s.sampleAt := rfl
@[simp] theorem State.onThreads_lostNoted : (s.onThreads ids f).lostNoted = s.lostNoted := rfl
end

section
variable (s : State) (uid : Nat) (f : Thread → Thread)
@[simp] theorem State.onThread_time : (s.onThread uid f).time = s.time := rfl
@[simp] theorem State.onThread_clock : (s.onThread uid f).clock = s.clock := rfl
@[simp] theorem State.onThread_mhz100 : (s.onThread uid f).mhz100 = s.mhz100 := rfl
@[simp] theorem State.onThread_free : (s.onThread uid f).free = s.free := rfl
@[simp] theorem State.onThread_nextId : (s.onThread uid f).nextId = s.nextId := rfl
@[simp] theorem State.onThread_agenda : (s.onThread uid f).agenda = s.agenda := rfl
@[simp] theorem State.onThread_cur : (s.onThread uid f).cur = s.cur := rfl
@[simp] theorem State.onThread_stalls : (s.onThread uid f).stalls = s.stalls := rfl
@[simp] theorem State.onThread_spent : (s.onThread uid f).spent = s.spent := rfl
@[simp] theorem State.onThread_regs : (s.onThread uid f).regs = s.regs := rfl
@[simp] theorem State.onThread_pkgMem : (s.onThread uid f).pkgMem = s.pkgMem := rfl
@[simp] theorem State.onThread_podMem : (s.onThread uid f).podMem = s.podMem := rfl
@[simp] theorem State.onThread_hostMem : (s.onThread uid f).hostMem = s.hostMem := rfl
@[simp] theorem State.onThread_die0 : (s.onThread uid f).die0 = s.die0 := rfl
@[simp] theorem State.onThread_die1 : (s.onThread uid f).die1 = s.die1 := rfl
@[simp] theorem State.onThread_teamMem : (s.onThread uid f).teamMem = s.teamMem := rfl
@[simp] theorem State.onThread_opBuf : (s.onThread uid f).opBuf = s.opBuf := rfl
@[simp] theorem State.onThread_teamOwner : (s.onThread uid f).teamOwner = s.teamOwner := rfl
@[simp] theorem State.onThread_dieOwner : (s.onThread uid f).dieOwner = s.dieOwner := rfl
@[simp] theorem State.onThread_poison : (s.onThread uid f).poison = s.poison := rfl
@[simp] theorem State.onThread_oldWords : (s.onThread uid f).oldWords = s.oldWords := rfl
@[simp] theorem State.onThread_slices : (s.onThread uid f).slices = s.slices := rfl
@[simp] theorem State.onThread_tlb : (s.onThread uid f).tlb = s.tlb := rfl
@[simp] theorem State.onThread_via : (s.onThread uid f).via = s.via := rfl
@[simp] theorem State.onThread_invals : (s.onThread uid f).invals = s.invals := rfl
@[simp] theorem State.onThread_cores : (s.onThread uid f).cores = s.cores := rfl
@[simp] theorem State.onThread_quads : (s.onThread uid f).quads = s.quads := rfl
@[simp] theorem State.onThread_groups : (s.onThread uid f).groups = s.groups := rfl
@[simp] theorem State.onThread_enrolments : (s.onThread uid f).enrolments = s.enrolments := rfl
@[simp] theorem State.onThread_fabric : (s.onThread uid f).fabric = s.fabric := rfl
@[simp] theorem State.onThread_bulkWait : (s.onThread uid f).bulkWait = s.bulkWait := rfl
@[simp] theorem State.onThread_late : (s.onThread uid f).late = s.late := rfl
@[simp] theorem State.onThread_lodes : (s.onThread uid f).lodes = s.lodes := rfl
@[simp] theorem State.onThread_strays : (s.onThread uid f).strays = s.strays := rfl
@[simp] theorem State.onThread_claims : (s.onThread uid f).claims = s.claims := rfl
@[simp] theorem State.onThread_records : (s.onThread uid f).records = s.records := rfl
@[simp] theorem State.onThread_stops : (s.onThread uid f).stops = s.stops := rfl
@[simp] theorem State.onThread_fqWait : (s.onThread uid f).fqWait = s.fqWait := rfl
@[simp] theorem State.onThread_queues : (s.onThread uid f).queues = s.queues := rfl
@[simp] theorem State.onThread_dims : (s.onThread uid f).dims = s.dims := rfl
@[simp] theorem State.onThread_pkts : (s.onThread uid f).pkts = s.pkts := rfl
@[simp] theorem State.onThread_launches : (s.onThread uid f).launches = s.launches := rfl
@[simp] theorem State.onThread_teams : (s.onThread uid f).teams = s.teams := rfl
@[simp] theorem State.onThread_clusters : (s.onThread uid f).clusters = s.clusters := rfl
@[simp] theorem State.onThread_steps : (s.onThread uid f).steps = s.steps := rfl
@[simp] theorem State.onThread_lastPlace : (s.onThread uid f).lastPlace = s.lastPlace := rfl
@[simp] theorem State.onThread_views : (s.onThread uid f).views = s.views := rfl
@[simp] theorem State.onThread_sliceStart : (s.onThread uid f).sliceStart = s.sliceStart := rfl
@[simp] theorem State.onThread_sliceDue : (s.onThread uid f).sliceDue = s.sliceDue := rfl
@[simp] theorem State.onThread_resident : (s.onThread uid f).resident = s.resident := rfl
@[simp] theorem State.onThread_preempt : (s.onThread uid f).preempt = s.preempt := rfl
@[simp] theorem State.onThread_drains : (s.onThread uid f).drains = s.drains := rfl
@[simp] theorem State.onThread_tests : (s.onThread uid f).tests = s.tests := rfl
@[simp] theorem State.onThread_held : (s.onThread uid f).held = s.held := rfl
@[simp] theorem State.onThread_retestWait : (s.onThread uid f).retestWait = s.retestWait := rfl
@[simp] theorem State.onThread_saves : (s.onThread uid f).saves = s.saves := rfl
@[simp] theorem State.onThread_images : (s.onThread uid f).images = s.images := rfl
@[simp] theorem State.onThread_irqs : (s.onThread uid f).irqs = s.irqs := rfl
@[simp] theorem State.onThread_readback : (s.onThread uid f).readback = s.readback := rfl
@[simp] theorem State.onThread_linkUp : (s.onThread uid f).linkUp = s.linkUp := rfl
@[simp] theorem State.onThread_hostMaps : (s.onThread uid f).hostMaps = s.hostMaps := rfl
@[simp] theorem State.onThread_celsius : (s.onThread uid f).celsius = s.celsius := rfl
@[simp] theorem State.onThread_corrected : (s.onThread uid f).corrected = s.corrected := rfl
@[simp] theorem State.onThread_tripped : (s.onThread uid f).tripped = s.tripped := rfl
@[simp] theorem State.onThread_shaftFault : (s.onThread uid f).shaftFault = s.shaftFault := rfl
@[simp] theorem State.onThread_booted : (s.onThread uid f).booted = s.booted := rfl
@[simp] theorem State.onThread_runSlot : (s.onThread uid f).runSlot = s.runSlot := rfl
@[simp] theorem State.onThread_slots : (s.onThread uid f).slots = s.slots := rfl
@[simp] theorem State.onThread_fwCmd : (s.onThread uid f).fwCmd = s.fwCmd := rfl
@[simp] theorem State.onThread_spdm : (s.onThread uid f).spdm = s.spdm := rfl
@[simp] theorem State.onThread_algorithms : (s.onThread uid f).algorithms = s.algorithms := rfl
@[simp] theorem State.onThread_measured5 : (s.onThread uid f).measured5 = s.measured5 := rfl
@[simp] theorem State.onThread_sampleAt : (s.onThread uid f).sampleAt = s.sampleAt := rfl
@[simp] theorem State.onThread_lostNoted : (s.onThread uid f).lostNoted = s.lostNoted := rfl
end

section
variable (s : State) (gid : Nat) (f : Group → Group)
@[simp] theorem State.onGroup_time : (s.onGroup gid f).time = s.time := rfl
@[simp] theorem State.onGroup_clock : (s.onGroup gid f).clock = s.clock := rfl
@[simp] theorem State.onGroup_mhz100 : (s.onGroup gid f).mhz100 = s.mhz100 := rfl
@[simp] theorem State.onGroup_free : (s.onGroup gid f).free = s.free := rfl
@[simp] theorem State.onGroup_nextId : (s.onGroup gid f).nextId = s.nextId := rfl
@[simp] theorem State.onGroup_agenda : (s.onGroup gid f).agenda = s.agenda := rfl
@[simp] theorem State.onGroup_cur : (s.onGroup gid f).cur = s.cur := rfl
@[simp] theorem State.onGroup_stalls : (s.onGroup gid f).stalls = s.stalls := rfl
@[simp] theorem State.onGroup_spent : (s.onGroup gid f).spent = s.spent := rfl
@[simp] theorem State.onGroup_regs : (s.onGroup gid f).regs = s.regs := rfl
@[simp] theorem State.onGroup_pkgMem : (s.onGroup gid f).pkgMem = s.pkgMem := rfl
@[simp] theorem State.onGroup_podMem : (s.onGroup gid f).podMem = s.podMem := rfl
@[simp] theorem State.onGroup_hostMem : (s.onGroup gid f).hostMem = s.hostMem := rfl
@[simp] theorem State.onGroup_die0 : (s.onGroup gid f).die0 = s.die0 := rfl
@[simp] theorem State.onGroup_die1 : (s.onGroup gid f).die1 = s.die1 := rfl
@[simp] theorem State.onGroup_teamMem : (s.onGroup gid f).teamMem = s.teamMem := rfl
@[simp] theorem State.onGroup_opBuf : (s.onGroup gid f).opBuf = s.opBuf := rfl
@[simp] theorem State.onGroup_teamOwner : (s.onGroup gid f).teamOwner = s.teamOwner := rfl
@[simp] theorem State.onGroup_dieOwner : (s.onGroup gid f).dieOwner = s.dieOwner := rfl
@[simp] theorem State.onGroup_poison : (s.onGroup gid f).poison = s.poison := rfl
@[simp] theorem State.onGroup_oldWords : (s.onGroup gid f).oldWords = s.oldWords := rfl
@[simp] theorem State.onGroup_slices : (s.onGroup gid f).slices = s.slices := rfl
@[simp] theorem State.onGroup_tlb : (s.onGroup gid f).tlb = s.tlb := rfl
@[simp] theorem State.onGroup_via : (s.onGroup gid f).via = s.via := rfl
@[simp] theorem State.onGroup_invals : (s.onGroup gid f).invals = s.invals := rfl
@[simp] theorem State.onGroup_cores : (s.onGroup gid f).cores = s.cores := rfl
@[simp] theorem State.onGroup_quads : (s.onGroup gid f).quads = s.quads := rfl
@[simp] theorem State.onGroup_threads : (s.onGroup gid f).threads = s.threads := rfl
@[simp] theorem State.onGroup_enrolments : (s.onGroup gid f).enrolments = s.enrolments := rfl
@[simp] theorem State.onGroup_fabric : (s.onGroup gid f).fabric = s.fabric := rfl
@[simp] theorem State.onGroup_bulkWait : (s.onGroup gid f).bulkWait = s.bulkWait := rfl
@[simp] theorem State.onGroup_late : (s.onGroup gid f).late = s.late := rfl
@[simp] theorem State.onGroup_lodes : (s.onGroup gid f).lodes = s.lodes := rfl
@[simp] theorem State.onGroup_strays : (s.onGroup gid f).strays = s.strays := rfl
@[simp] theorem State.onGroup_claims : (s.onGroup gid f).claims = s.claims := rfl
@[simp] theorem State.onGroup_records : (s.onGroup gid f).records = s.records := rfl
@[simp] theorem State.onGroup_stops : (s.onGroup gid f).stops = s.stops := rfl
@[simp] theorem State.onGroup_fqWait : (s.onGroup gid f).fqWait = s.fqWait := rfl
@[simp] theorem State.onGroup_queues : (s.onGroup gid f).queues = s.queues := rfl
@[simp] theorem State.onGroup_dims : (s.onGroup gid f).dims = s.dims := rfl
@[simp] theorem State.onGroup_pkts : (s.onGroup gid f).pkts = s.pkts := rfl
@[simp] theorem State.onGroup_launches : (s.onGroup gid f).launches = s.launches := rfl
@[simp] theorem State.onGroup_teams : (s.onGroup gid f).teams = s.teams := rfl
@[simp] theorem State.onGroup_clusters : (s.onGroup gid f).clusters = s.clusters := rfl
@[simp] theorem State.onGroup_steps : (s.onGroup gid f).steps = s.steps := rfl
@[simp] theorem State.onGroup_lastPlace : (s.onGroup gid f).lastPlace = s.lastPlace := rfl
@[simp] theorem State.onGroup_views : (s.onGroup gid f).views = s.views := rfl
@[simp] theorem State.onGroup_sliceStart : (s.onGroup gid f).sliceStart = s.sliceStart := rfl
@[simp] theorem State.onGroup_sliceDue : (s.onGroup gid f).sliceDue = s.sliceDue := rfl
@[simp] theorem State.onGroup_resident : (s.onGroup gid f).resident = s.resident := rfl
@[simp] theorem State.onGroup_preempt : (s.onGroup gid f).preempt = s.preempt := rfl
@[simp] theorem State.onGroup_drains : (s.onGroup gid f).drains = s.drains := rfl
@[simp] theorem State.onGroup_tests : (s.onGroup gid f).tests = s.tests := rfl
@[simp] theorem State.onGroup_held : (s.onGroup gid f).held = s.held := rfl
@[simp] theorem State.onGroup_retestWait : (s.onGroup gid f).retestWait = s.retestWait := rfl
@[simp] theorem State.onGroup_saves : (s.onGroup gid f).saves = s.saves := rfl
@[simp] theorem State.onGroup_images : (s.onGroup gid f).images = s.images := rfl
@[simp] theorem State.onGroup_irqs : (s.onGroup gid f).irqs = s.irqs := rfl
@[simp] theorem State.onGroup_readback : (s.onGroup gid f).readback = s.readback := rfl
@[simp] theorem State.onGroup_linkUp : (s.onGroup gid f).linkUp = s.linkUp := rfl
@[simp] theorem State.onGroup_hostMaps : (s.onGroup gid f).hostMaps = s.hostMaps := rfl
@[simp] theorem State.onGroup_celsius : (s.onGroup gid f).celsius = s.celsius := rfl
@[simp] theorem State.onGroup_corrected : (s.onGroup gid f).corrected = s.corrected := rfl
@[simp] theorem State.onGroup_tripped : (s.onGroup gid f).tripped = s.tripped := rfl
@[simp] theorem State.onGroup_shaftFault : (s.onGroup gid f).shaftFault = s.shaftFault := rfl
@[simp] theorem State.onGroup_booted : (s.onGroup gid f).booted = s.booted := rfl
@[simp] theorem State.onGroup_runSlot : (s.onGroup gid f).runSlot = s.runSlot := rfl
@[simp] theorem State.onGroup_slots : (s.onGroup gid f).slots = s.slots := rfl
@[simp] theorem State.onGroup_fwCmd : (s.onGroup gid f).fwCmd = s.fwCmd := rfl
@[simp] theorem State.onGroup_spdm : (s.onGroup gid f).spdm = s.spdm := rfl
@[simp] theorem State.onGroup_algorithms : (s.onGroup gid f).algorithms = s.algorithms := rfl
@[simp] theorem State.onGroup_measured5 : (s.onGroup gid f).measured5 = s.measured5 := rfl
@[simp] theorem State.onGroup_sampleAt : (s.onGroup gid f).sampleAt = s.sampleAt := rfl
@[simp] theorem State.onGroup_lostNoted : (s.onGroup gid f).lostNoted = s.lostNoted := rfl
end

section
variable (s : State) (tuid : Nat) (f : Team → Team)
@[simp] theorem State.onTeam_time : (s.onTeam tuid f).time = s.time := rfl
@[simp] theorem State.onTeam_clock : (s.onTeam tuid f).clock = s.clock := rfl
@[simp] theorem State.onTeam_mhz100 : (s.onTeam tuid f).mhz100 = s.mhz100 := rfl
@[simp] theorem State.onTeam_free : (s.onTeam tuid f).free = s.free := rfl
@[simp] theorem State.onTeam_nextId : (s.onTeam tuid f).nextId = s.nextId := rfl
@[simp] theorem State.onTeam_agenda : (s.onTeam tuid f).agenda = s.agenda := rfl
@[simp] theorem State.onTeam_cur : (s.onTeam tuid f).cur = s.cur := rfl
@[simp] theorem State.onTeam_stalls : (s.onTeam tuid f).stalls = s.stalls := rfl
@[simp] theorem State.onTeam_spent : (s.onTeam tuid f).spent = s.spent := rfl
@[simp] theorem State.onTeam_regs : (s.onTeam tuid f).regs = s.regs := rfl
@[simp] theorem State.onTeam_pkgMem : (s.onTeam tuid f).pkgMem = s.pkgMem := rfl
@[simp] theorem State.onTeam_podMem : (s.onTeam tuid f).podMem = s.podMem := rfl
@[simp] theorem State.onTeam_hostMem : (s.onTeam tuid f).hostMem = s.hostMem := rfl
@[simp] theorem State.onTeam_die0 : (s.onTeam tuid f).die0 = s.die0 := rfl
@[simp] theorem State.onTeam_die1 : (s.onTeam tuid f).die1 = s.die1 := rfl
@[simp] theorem State.onTeam_teamMem : (s.onTeam tuid f).teamMem = s.teamMem := rfl
@[simp] theorem State.onTeam_opBuf : (s.onTeam tuid f).opBuf = s.opBuf := rfl
@[simp] theorem State.onTeam_teamOwner : (s.onTeam tuid f).teamOwner = s.teamOwner := rfl
@[simp] theorem State.onTeam_dieOwner : (s.onTeam tuid f).dieOwner = s.dieOwner := rfl
@[simp] theorem State.onTeam_poison : (s.onTeam tuid f).poison = s.poison := rfl
@[simp] theorem State.onTeam_oldWords : (s.onTeam tuid f).oldWords = s.oldWords := rfl
@[simp] theorem State.onTeam_slices : (s.onTeam tuid f).slices = s.slices := rfl
@[simp] theorem State.onTeam_tlb : (s.onTeam tuid f).tlb = s.tlb := rfl
@[simp] theorem State.onTeam_via : (s.onTeam tuid f).via = s.via := rfl
@[simp] theorem State.onTeam_invals : (s.onTeam tuid f).invals = s.invals := rfl
@[simp] theorem State.onTeam_cores : (s.onTeam tuid f).cores = s.cores := rfl
@[simp] theorem State.onTeam_quads : (s.onTeam tuid f).quads = s.quads := rfl
@[simp] theorem State.onTeam_threads : (s.onTeam tuid f).threads = s.threads := rfl
@[simp] theorem State.onTeam_groups : (s.onTeam tuid f).groups = s.groups := rfl
@[simp] theorem State.onTeam_enrolments : (s.onTeam tuid f).enrolments = s.enrolments := rfl
@[simp] theorem State.onTeam_fabric : (s.onTeam tuid f).fabric = s.fabric := rfl
@[simp] theorem State.onTeam_bulkWait : (s.onTeam tuid f).bulkWait = s.bulkWait := rfl
@[simp] theorem State.onTeam_late : (s.onTeam tuid f).late = s.late := rfl
@[simp] theorem State.onTeam_lodes : (s.onTeam tuid f).lodes = s.lodes := rfl
@[simp] theorem State.onTeam_strays : (s.onTeam tuid f).strays = s.strays := rfl
@[simp] theorem State.onTeam_claims : (s.onTeam tuid f).claims = s.claims := rfl
@[simp] theorem State.onTeam_records : (s.onTeam tuid f).records = s.records := rfl
@[simp] theorem State.onTeam_stops : (s.onTeam tuid f).stops = s.stops := rfl
@[simp] theorem State.onTeam_fqWait : (s.onTeam tuid f).fqWait = s.fqWait := rfl
@[simp] theorem State.onTeam_queues : (s.onTeam tuid f).queues = s.queues := rfl
@[simp] theorem State.onTeam_dims : (s.onTeam tuid f).dims = s.dims := rfl
@[simp] theorem State.onTeam_pkts : (s.onTeam tuid f).pkts = s.pkts := rfl
@[simp] theorem State.onTeam_launches : (s.onTeam tuid f).launches = s.launches := rfl
@[simp] theorem State.onTeam_clusters : (s.onTeam tuid f).clusters = s.clusters := rfl
@[simp] theorem State.onTeam_steps : (s.onTeam tuid f).steps = s.steps := rfl
@[simp] theorem State.onTeam_lastPlace : (s.onTeam tuid f).lastPlace = s.lastPlace := rfl
@[simp] theorem State.onTeam_views : (s.onTeam tuid f).views = s.views := rfl
@[simp] theorem State.onTeam_sliceStart : (s.onTeam tuid f).sliceStart = s.sliceStart := rfl
@[simp] theorem State.onTeam_sliceDue : (s.onTeam tuid f).sliceDue = s.sliceDue := rfl
@[simp] theorem State.onTeam_resident : (s.onTeam tuid f).resident = s.resident := rfl
@[simp] theorem State.onTeam_preempt : (s.onTeam tuid f).preempt = s.preempt := rfl
@[simp] theorem State.onTeam_drains : (s.onTeam tuid f).drains = s.drains := rfl
@[simp] theorem State.onTeam_tests : (s.onTeam tuid f).tests = s.tests := rfl
@[simp] theorem State.onTeam_held : (s.onTeam tuid f).held = s.held := rfl
@[simp] theorem State.onTeam_retestWait : (s.onTeam tuid f).retestWait = s.retestWait := rfl
@[simp] theorem State.onTeam_saves : (s.onTeam tuid f).saves = s.saves := rfl
@[simp] theorem State.onTeam_images : (s.onTeam tuid f).images = s.images := rfl
@[simp] theorem State.onTeam_irqs : (s.onTeam tuid f).irqs = s.irqs := rfl
@[simp] theorem State.onTeam_readback : (s.onTeam tuid f).readback = s.readback := rfl
@[simp] theorem State.onTeam_linkUp : (s.onTeam tuid f).linkUp = s.linkUp := rfl
@[simp] theorem State.onTeam_hostMaps : (s.onTeam tuid f).hostMaps = s.hostMaps := rfl
@[simp] theorem State.onTeam_celsius : (s.onTeam tuid f).celsius = s.celsius := rfl
@[simp] theorem State.onTeam_corrected : (s.onTeam tuid f).corrected = s.corrected := rfl
@[simp] theorem State.onTeam_tripped : (s.onTeam tuid f).tripped = s.tripped := rfl
@[simp] theorem State.onTeam_shaftFault : (s.onTeam tuid f).shaftFault = s.shaftFault := rfl
@[simp] theorem State.onTeam_booted : (s.onTeam tuid f).booted = s.booted := rfl
@[simp] theorem State.onTeam_runSlot : (s.onTeam tuid f).runSlot = s.runSlot := rfl
@[simp] theorem State.onTeam_slots : (s.onTeam tuid f).slots = s.slots := rfl
@[simp] theorem State.onTeam_fwCmd : (s.onTeam tuid f).fwCmd = s.fwCmd := rfl
@[simp] theorem State.onTeam_spdm : (s.onTeam tuid f).spdm = s.spdm := rfl
@[simp] theorem State.onTeam_algorithms : (s.onTeam tuid f).algorithms = s.algorithms := rfl
@[simp] theorem State.onTeam_measured5 : (s.onTeam tuid f).measured5 = s.measured5 := rfl
@[simp] theorem State.onTeam_sampleAt : (s.onTeam tuid f).sampleAt = s.sampleAt := rfl
@[simp] theorem State.onTeam_lostNoted : (s.onTeam tuid f).lostNoted = s.lostNoted := rfl
end

section
variable (s : State) (lid : Nat) (f : Launch → Launch)
@[simp] theorem State.onLaunch_time : (s.onLaunch lid f).time = s.time := rfl
@[simp] theorem State.onLaunch_clock : (s.onLaunch lid f).clock = s.clock := rfl
@[simp] theorem State.onLaunch_mhz100 : (s.onLaunch lid f).mhz100 = s.mhz100 := rfl
@[simp] theorem State.onLaunch_free : (s.onLaunch lid f).free = s.free := rfl
@[simp] theorem State.onLaunch_nextId : (s.onLaunch lid f).nextId = s.nextId := rfl
@[simp] theorem State.onLaunch_agenda : (s.onLaunch lid f).agenda = s.agenda := rfl
@[simp] theorem State.onLaunch_cur : (s.onLaunch lid f).cur = s.cur := rfl
@[simp] theorem State.onLaunch_stalls : (s.onLaunch lid f).stalls = s.stalls := rfl
@[simp] theorem State.onLaunch_spent : (s.onLaunch lid f).spent = s.spent := rfl
@[simp] theorem State.onLaunch_regs : (s.onLaunch lid f).regs = s.regs := rfl
@[simp] theorem State.onLaunch_pkgMem : (s.onLaunch lid f).pkgMem = s.pkgMem := rfl
@[simp] theorem State.onLaunch_podMem : (s.onLaunch lid f).podMem = s.podMem := rfl
@[simp] theorem State.onLaunch_hostMem : (s.onLaunch lid f).hostMem = s.hostMem := rfl
@[simp] theorem State.onLaunch_die0 : (s.onLaunch lid f).die0 = s.die0 := rfl
@[simp] theorem State.onLaunch_die1 : (s.onLaunch lid f).die1 = s.die1 := rfl
@[simp] theorem State.onLaunch_teamMem : (s.onLaunch lid f).teamMem = s.teamMem := rfl
@[simp] theorem State.onLaunch_opBuf : (s.onLaunch lid f).opBuf = s.opBuf := rfl
@[simp] theorem State.onLaunch_teamOwner : (s.onLaunch lid f).teamOwner = s.teamOwner := rfl
@[simp] theorem State.onLaunch_dieOwner : (s.onLaunch lid f).dieOwner = s.dieOwner := rfl
@[simp] theorem State.onLaunch_poison : (s.onLaunch lid f).poison = s.poison := rfl
@[simp] theorem State.onLaunch_oldWords : (s.onLaunch lid f).oldWords = s.oldWords := rfl
@[simp] theorem State.onLaunch_slices : (s.onLaunch lid f).slices = s.slices := rfl
@[simp] theorem State.onLaunch_tlb : (s.onLaunch lid f).tlb = s.tlb := rfl
@[simp] theorem State.onLaunch_via : (s.onLaunch lid f).via = s.via := rfl
@[simp] theorem State.onLaunch_invals : (s.onLaunch lid f).invals = s.invals := rfl
@[simp] theorem State.onLaunch_cores : (s.onLaunch lid f).cores = s.cores := rfl
@[simp] theorem State.onLaunch_quads : (s.onLaunch lid f).quads = s.quads := rfl
@[simp] theorem State.onLaunch_threads : (s.onLaunch lid f).threads = s.threads := rfl
@[simp] theorem State.onLaunch_groups : (s.onLaunch lid f).groups = s.groups := rfl
@[simp] theorem State.onLaunch_enrolments : (s.onLaunch lid f).enrolments = s.enrolments := rfl
@[simp] theorem State.onLaunch_fabric : (s.onLaunch lid f).fabric = s.fabric := rfl
@[simp] theorem State.onLaunch_bulkWait : (s.onLaunch lid f).bulkWait = s.bulkWait := rfl
@[simp] theorem State.onLaunch_late : (s.onLaunch lid f).late = s.late := rfl
@[simp] theorem State.onLaunch_lodes : (s.onLaunch lid f).lodes = s.lodes := rfl
@[simp] theorem State.onLaunch_strays : (s.onLaunch lid f).strays = s.strays := rfl
@[simp] theorem State.onLaunch_claims : (s.onLaunch lid f).claims = s.claims := rfl
@[simp] theorem State.onLaunch_records : (s.onLaunch lid f).records = s.records := rfl
@[simp] theorem State.onLaunch_stops : (s.onLaunch lid f).stops = s.stops := rfl
@[simp] theorem State.onLaunch_fqWait : (s.onLaunch lid f).fqWait = s.fqWait := rfl
@[simp] theorem State.onLaunch_queues : (s.onLaunch lid f).queues = s.queues := rfl
@[simp] theorem State.onLaunch_dims : (s.onLaunch lid f).dims = s.dims := rfl
@[simp] theorem State.onLaunch_pkts : (s.onLaunch lid f).pkts = s.pkts := rfl
@[simp] theorem State.onLaunch_teams : (s.onLaunch lid f).teams = s.teams := rfl
@[simp] theorem State.onLaunch_clusters : (s.onLaunch lid f).clusters = s.clusters := rfl
@[simp] theorem State.onLaunch_steps : (s.onLaunch lid f).steps = s.steps := rfl
@[simp] theorem State.onLaunch_lastPlace : (s.onLaunch lid f).lastPlace = s.lastPlace := rfl
@[simp] theorem State.onLaunch_views : (s.onLaunch lid f).views = s.views := rfl
@[simp] theorem State.onLaunch_sliceStart : (s.onLaunch lid f).sliceStart = s.sliceStart := rfl
@[simp] theorem State.onLaunch_sliceDue : (s.onLaunch lid f).sliceDue = s.sliceDue := rfl
@[simp] theorem State.onLaunch_resident : (s.onLaunch lid f).resident = s.resident := rfl
@[simp] theorem State.onLaunch_preempt : (s.onLaunch lid f).preempt = s.preempt := rfl
@[simp] theorem State.onLaunch_drains : (s.onLaunch lid f).drains = s.drains := rfl
@[simp] theorem State.onLaunch_tests : (s.onLaunch lid f).tests = s.tests := rfl
@[simp] theorem State.onLaunch_held : (s.onLaunch lid f).held = s.held := rfl
@[simp] theorem State.onLaunch_retestWait : (s.onLaunch lid f).retestWait = s.retestWait := rfl
@[simp] theorem State.onLaunch_saves : (s.onLaunch lid f).saves = s.saves := rfl
@[simp] theorem State.onLaunch_images : (s.onLaunch lid f).images = s.images := rfl
@[simp] theorem State.onLaunch_irqs : (s.onLaunch lid f).irqs = s.irqs := rfl
@[simp] theorem State.onLaunch_readback : (s.onLaunch lid f).readback = s.readback := rfl
@[simp] theorem State.onLaunch_linkUp : (s.onLaunch lid f).linkUp = s.linkUp := rfl
@[simp] theorem State.onLaunch_hostMaps : (s.onLaunch lid f).hostMaps = s.hostMaps := rfl
@[simp] theorem State.onLaunch_celsius : (s.onLaunch lid f).celsius = s.celsius := rfl
@[simp] theorem State.onLaunch_corrected : (s.onLaunch lid f).corrected = s.corrected := rfl
@[simp] theorem State.onLaunch_tripped : (s.onLaunch lid f).tripped = s.tripped := rfl
@[simp] theorem State.onLaunch_shaftFault : (s.onLaunch lid f).shaftFault = s.shaftFault := rfl
@[simp] theorem State.onLaunch_booted : (s.onLaunch lid f).booted = s.booted := rfl
@[simp] theorem State.onLaunch_runSlot : (s.onLaunch lid f).runSlot = s.runSlot := rfl
@[simp] theorem State.onLaunch_slots : (s.onLaunch lid f).slots = s.slots := rfl
@[simp] theorem State.onLaunch_fwCmd : (s.onLaunch lid f).fwCmd = s.fwCmd := rfl
@[simp] theorem State.onLaunch_spdm : (s.onLaunch lid f).spdm = s.spdm := rfl
@[simp] theorem State.onLaunch_algorithms : (s.onLaunch lid f).algorithms = s.algorithms := rfl
@[simp] theorem State.onLaunch_measured5 : (s.onLaunch lid f).measured5 = s.measured5 := rfl
@[simp] theorem State.onLaunch_sampleAt : (s.onLaunch lid f).sampleAt = s.sampleAt := rfl
@[simp] theorem State.onLaunch_lostNoted : (s.onLaunch lid f).lostNoted = s.lostNoted := rfl
end

section
variable (s : State) (pid : Nat) (f : Pkt → Pkt)
@[simp] theorem State.onPkt_time : (s.onPkt pid f).time = s.time := rfl
@[simp] theorem State.onPkt_clock : (s.onPkt pid f).clock = s.clock := rfl
@[simp] theorem State.onPkt_mhz100 : (s.onPkt pid f).mhz100 = s.mhz100 := rfl
@[simp] theorem State.onPkt_free : (s.onPkt pid f).free = s.free := rfl
@[simp] theorem State.onPkt_nextId : (s.onPkt pid f).nextId = s.nextId := rfl
@[simp] theorem State.onPkt_agenda : (s.onPkt pid f).agenda = s.agenda := rfl
@[simp] theorem State.onPkt_cur : (s.onPkt pid f).cur = s.cur := rfl
@[simp] theorem State.onPkt_stalls : (s.onPkt pid f).stalls = s.stalls := rfl
@[simp] theorem State.onPkt_spent : (s.onPkt pid f).spent = s.spent := rfl
@[simp] theorem State.onPkt_regs : (s.onPkt pid f).regs = s.regs := rfl
@[simp] theorem State.onPkt_pkgMem : (s.onPkt pid f).pkgMem = s.pkgMem := rfl
@[simp] theorem State.onPkt_podMem : (s.onPkt pid f).podMem = s.podMem := rfl
@[simp] theorem State.onPkt_hostMem : (s.onPkt pid f).hostMem = s.hostMem := rfl
@[simp] theorem State.onPkt_die0 : (s.onPkt pid f).die0 = s.die0 := rfl
@[simp] theorem State.onPkt_die1 : (s.onPkt pid f).die1 = s.die1 := rfl
@[simp] theorem State.onPkt_teamMem : (s.onPkt pid f).teamMem = s.teamMem := rfl
@[simp] theorem State.onPkt_opBuf : (s.onPkt pid f).opBuf = s.opBuf := rfl
@[simp] theorem State.onPkt_teamOwner : (s.onPkt pid f).teamOwner = s.teamOwner := rfl
@[simp] theorem State.onPkt_dieOwner : (s.onPkt pid f).dieOwner = s.dieOwner := rfl
@[simp] theorem State.onPkt_poison : (s.onPkt pid f).poison = s.poison := rfl
@[simp] theorem State.onPkt_oldWords : (s.onPkt pid f).oldWords = s.oldWords := rfl
@[simp] theorem State.onPkt_slices : (s.onPkt pid f).slices = s.slices := rfl
@[simp] theorem State.onPkt_tlb : (s.onPkt pid f).tlb = s.tlb := rfl
@[simp] theorem State.onPkt_via : (s.onPkt pid f).via = s.via := rfl
@[simp] theorem State.onPkt_invals : (s.onPkt pid f).invals = s.invals := rfl
@[simp] theorem State.onPkt_cores : (s.onPkt pid f).cores = s.cores := rfl
@[simp] theorem State.onPkt_quads : (s.onPkt pid f).quads = s.quads := rfl
@[simp] theorem State.onPkt_threads : (s.onPkt pid f).threads = s.threads := rfl
@[simp] theorem State.onPkt_groups : (s.onPkt pid f).groups = s.groups := rfl
@[simp] theorem State.onPkt_enrolments : (s.onPkt pid f).enrolments = s.enrolments := rfl
@[simp] theorem State.onPkt_fabric : (s.onPkt pid f).fabric = s.fabric := rfl
@[simp] theorem State.onPkt_bulkWait : (s.onPkt pid f).bulkWait = s.bulkWait := rfl
@[simp] theorem State.onPkt_late : (s.onPkt pid f).late = s.late := rfl
@[simp] theorem State.onPkt_lodes : (s.onPkt pid f).lodes = s.lodes := rfl
@[simp] theorem State.onPkt_strays : (s.onPkt pid f).strays = s.strays := rfl
@[simp] theorem State.onPkt_claims : (s.onPkt pid f).claims = s.claims := rfl
@[simp] theorem State.onPkt_records : (s.onPkt pid f).records = s.records := rfl
@[simp] theorem State.onPkt_stops : (s.onPkt pid f).stops = s.stops := rfl
@[simp] theorem State.onPkt_fqWait : (s.onPkt pid f).fqWait = s.fqWait := rfl
@[simp] theorem State.onPkt_queues : (s.onPkt pid f).queues = s.queues := rfl
@[simp] theorem State.onPkt_dims : (s.onPkt pid f).dims = s.dims := rfl
@[simp] theorem State.onPkt_launches : (s.onPkt pid f).launches = s.launches := rfl
@[simp] theorem State.onPkt_teams : (s.onPkt pid f).teams = s.teams := rfl
@[simp] theorem State.onPkt_clusters : (s.onPkt pid f).clusters = s.clusters := rfl
@[simp] theorem State.onPkt_steps : (s.onPkt pid f).steps = s.steps := rfl
@[simp] theorem State.onPkt_lastPlace : (s.onPkt pid f).lastPlace = s.lastPlace := rfl
@[simp] theorem State.onPkt_views : (s.onPkt pid f).views = s.views := rfl
@[simp] theorem State.onPkt_sliceStart : (s.onPkt pid f).sliceStart = s.sliceStart := rfl
@[simp] theorem State.onPkt_sliceDue : (s.onPkt pid f).sliceDue = s.sliceDue := rfl
@[simp] theorem State.onPkt_resident : (s.onPkt pid f).resident = s.resident := rfl
@[simp] theorem State.onPkt_preempt : (s.onPkt pid f).preempt = s.preempt := rfl
@[simp] theorem State.onPkt_drains : (s.onPkt pid f).drains = s.drains := rfl
@[simp] theorem State.onPkt_tests : (s.onPkt pid f).tests = s.tests := rfl
@[simp] theorem State.onPkt_held : (s.onPkt pid f).held = s.held := rfl
@[simp] theorem State.onPkt_retestWait : (s.onPkt pid f).retestWait = s.retestWait := rfl
@[simp] theorem State.onPkt_saves : (s.onPkt pid f).saves = s.saves := rfl
@[simp] theorem State.onPkt_images : (s.onPkt pid f).images = s.images := rfl
@[simp] theorem State.onPkt_irqs : (s.onPkt pid f).irqs = s.irqs := rfl
@[simp] theorem State.onPkt_readback : (s.onPkt pid f).readback = s.readback := rfl
@[simp] theorem State.onPkt_linkUp : (s.onPkt pid f).linkUp = s.linkUp := rfl
@[simp] theorem State.onPkt_hostMaps : (s.onPkt pid f).hostMaps = s.hostMaps := rfl
@[simp] theorem State.onPkt_celsius : (s.onPkt pid f).celsius = s.celsius := rfl
@[simp] theorem State.onPkt_corrected : (s.onPkt pid f).corrected = s.corrected := rfl
@[simp] theorem State.onPkt_tripped : (s.onPkt pid f).tripped = s.tripped := rfl
@[simp] theorem State.onPkt_shaftFault : (s.onPkt pid f).shaftFault = s.shaftFault := rfl
@[simp] theorem State.onPkt_booted : (s.onPkt pid f).booted = s.booted := rfl
@[simp] theorem State.onPkt_runSlot : (s.onPkt pid f).runSlot = s.runSlot := rfl
@[simp] theorem State.onPkt_slots : (s.onPkt pid f).slots = s.slots := rfl
@[simp] theorem State.onPkt_fwCmd : (s.onPkt pid f).fwCmd = s.fwCmd := rfl
@[simp] theorem State.onPkt_spdm : (s.onPkt pid f).spdm = s.spdm := rfl
@[simp] theorem State.onPkt_algorithms : (s.onPkt pid f).algorithms = s.algorithms := rfl
@[simp] theorem State.onPkt_measured5 : (s.onPkt pid f).measured5 = s.measured5 := rfl
@[simp] theorem State.onPkt_sampleAt : (s.onPkt pid f).sampleAt = s.sampleAt := rfl
@[simp] theorem State.onPkt_lostNoted : (s.onPkt pid f).lostNoted = s.lostNoted := rfl
end

end Sys2Proof.Machine
end

