-- ==== Sys2Proof/Laws/Issue.lean ====
section
/-! SUPPORT. What an issue does, said once: where the checks of decoding pass, what the body answers decides. -/

namespace Sys2Proof.Machine

/-- A ready instruction does what its body says. -/
theorem State.issue_ready {s : State} {k : Opc} {o : Op} {c : Cur} {g : Group} (h : s.Ready k o c g)
    (body : Group → List Thread → Body) :
    s.issue k o body = match body g (s.executing g o) with
      | .done e => .next (s.wentOn e k o c g)
      | .moved e => .next (s.wentTo e k o g)
      | .stopped e => .next e
      | .stall => .next { s with stalls := g.gid :: s.stalls }
      | .stop fs => .next (s.stopped g fs) := by
  obtain ⟨⟨hc, hg⟩, hb, hi, ht, hr, hp⟩ := h
  have h2 : (k.transfer && !g.atEnd) = false := by
    cases hk : k.transfer <;> simp_all
  have h3 : (s.membersOf g).any (fun t => k.beyond o t.n) = false := by
    simpa using hr
  simp only [State.issue, hc, hg, hb, hi, h2, h3, hp, State.wentOn, State.wentTo, State.stopped, Bool.or_self, Bool.false_eq_true,
    if_false, List.isEmpty_nil, Bool.not_true]
  all_goals rfl

theorem State.issue_done {s e : State} {k : Opc} {o : Op} {c : Cur} {g : Group} (h : s.Ready k o c g)
    {body : Group → List Thread → Body} (hb : body g (s.executing g o) = .done e) :
    s.issue k o body = .next (s.wentOn e k o c g) := by
  rw [State.issue_ready h, hb]

theorem State.issue_moved {s e : State} {k : Opc} {o : Op} {c : Cur} {g : Group} (h : s.Ready k o c g)
    {body : Group → List Thread → Body} (hb : body g (s.executing g o) = .moved e) :
    s.issue k o body = .next (s.wentTo e k o g) := by
  rw [State.issue_ready h, hb]

theorem State.issue_stop {s : State} {k : Opc} {o : Op} {c : Cur} {g : Group} (h : s.Ready k o c g)
    {body : Group → List Thread → Body} {fs : List (Thread × Flt)} (hb : body g (s.executing g o) = .stop fs) :
    s.issue k o body = .next (s.stopped g fs) := by
  rw [State.issue_ready h, hb]

/-- A lane instruction that finds no fault changes each executing thread. -/
theorem State.lanes_ready {s : State} {k : Opc} {o : Op} {c : Cur} {g : Group} (h : s.Ready k o c g)
    {chk : Thread → Option Flt} {wr : Thread → Thread} (hf : faultsOf (s.executing g o) chk = []) :
    s.lanes k o chk wr = .next (s.wentOn (s.onThreads (s.uids g o) wr) k o c g) :=
  State.issue_done h (by simp [hf, State.uids])

theorem State.lanes_stop {s : State} {k : Opc} {o : Op} {c : Cur} {g : Group} (h : s.Ready k o c g)
    {chk : Thread → Option Flt} {wr : Thread → Thread} (hf : faultsOf (s.executing g o) chk ≠ []) :
    s.lanes k o chk wr = .next (s.stopped g (faultsOf (s.executing g o) chk)) := by
  refine State.issue_stop h ?_
  split
  · contradiction
  · simp_all

/-- A lane instruction that no operand makes fault. -/
theorem State.compute_ready {s : State} {k : Opc} {o : Op} {c : Cur} {g : Group} (h : s.Ready k o c g) (wr : Thread → Thread) :
    s.compute k o wr = .next (s.wentOn (s.onThreads (s.uids g o) wr) k o c g) :=
  State.lanes_ready h (by simp [faultsOf])

/-- A cross-lane instruction of a sealed group: each executing thread receives what the threads together give. -/
theorem State.crossLane_ready {s : State} {k : Opc} {o : Op} {c : Cur} {g : Group} (h : s.Ready k o c g)
    (hs : g.isSealed = true) (hne : s.executing g o ≠ []) (wr : List Thread → Thread → Thread) :
    s.crossLane k o wr = .next (s.wentOn (s.onThreads (s.uids g o) (wr (s.executing g o))) k o c g) :=
  State.issue_done h (by simp [hs, hne, State.uids])

theorem State.crossLane_unsealed {s : State} {k : Opc} {o : Op} {c : Cur} {g : Group} (h : s.Ready k o c g)
    (hs : g.isSealed = false) (hne : s.executing g o ≠ []) (wr : List Thread → Thread → Thread) :
    s.crossLane k o wr = .next (s.stopped g (allTake (s.executing g o) .sealIllegal)) :=
  State.issue_stop h (by simp [hs, hne])

theorem State.crossLane_nobody {s : State} {k : Opc} {o : Op} {c : Cur} {g : Group} (h : s.Ready k o c g)
    (hne : s.executing g o = []) (wr : List Thread → Thread → Thread) : s.crossLane k o wr = .next (s.wentOn s k o c g) :=
  State.issue_done h (by simp [hne])

/-- Lanes that each act without a fault, one after another. -/
theorem inOrder_ok {act : State → Thread → Except Flt State} {R : State → Thread → State → Prop}
    (hR : ∀ s t e, R s t e → act s t = .ok e) {s e : State} {xs : List Thread} (h : Chained R s xs e) : inOrder s xs act = .ok e := by
  have key : ∀ (xs : List Thread) (s : State), Chained R s xs e → xs.foldl (fun (a : State × List (Thread × Flt)) t =>
      match act a.1 t with
      | .ok s => (s, a.2)
      | .error f => (a.1, a.2 ++ [(t, f)])) (s, []) = (e, []) := by
    intro xs
    induction xs with
    | nil => intro s h; simp only [Chained] at h; simp [h]
    | cons x xs ih =>
      intro s h
      obtain ⟨m, hm, hc⟩ := h
      simpa [hR _ _ _ hm] using ih m hc
  unfold inOrder
  dsimp only
  erw [key xs s h]
  rfl

/-- An elected forge instruction does for its elected thread what its body says, or nothing where no thread executes. -/
theorem State.forge_ready {s e : State} {k : Opc} {o : Op} {c : Cur} {g : Group} {t : Thread} (h : s.Ready k o c g)
    (ht : elected (s.executing g o) = some t) (hf : ForgeFree s (s.executing g o) t) {body : Group → Thread → Body} (hb : body g t = .done e) :
    s.forge k o body = .next (s.wentOn e k o c g) :=
  State.issue_done h (by
    have hr : (s.executing g o).any (fun t => t.rdy != 0) = false := by simpa using hf.2
    simp [ht, hf.1, hr, hb])

theorem State.forge_nobody {s : State} {k : Opc} {o : Op} {c : Cur} {g : Group} (h : s.Ready k o c g)
    (hx : s.executing g o = []) (body : Group → Thread → Body) : s.forge k o body = .next (s.wentOn s k o c g) :=
  State.issue_done h (by simp [hx, elected])

/-- An elected seam instruction likewise. -/
theorem State.seam_ready {s e : State} {k : Opc} {o : Op} {c : Cur} {g : Group} {t : Thread} (h : s.Ready k o c g)
    (ht : elected (s.executing g o) = some t) (hf : SeamFree s (s.executing g o) t) {body : Group → Thread → Body} (hb : body g t = .done e) :
    s.seam k o body = .next (s.wentOn e k o c g) :=
  State.issue_done h (by simp [ht, hf.1, hf.2, hb])

theorem State.seam_nobody {s : State} {k : Opc} {o : Op} {c : Cur} {g : Group} (h : s.Ready k o c g)
    (hx : s.executing g o = []) (body : Group → Thread → Body) : s.seam k o body = .next (s.wentOn s k o c g) :=
  State.issue_done h (by simp [hx, elected])

/-- The faults of a check that finds none. -/
theorem faultsOf_nil {xs : List Thread} {chk : Thread → Option Flt} (h : ∀ t ∈ xs, chk t = none) : faultsOf xs chk = [] := by
  simpa [faultsOf] using h

/-- The faults of a check, in position order. -/
theorem faultsOf_eq (xs : List Thread) (p : Thread → Bool) (f : Thread → Flt) :
    faultsOf xs (fun t => if p t then some (f t) else none) = (xs.filter p).map fun t => (t, f t) := by
  induction xs with
  | nil => rfl
  | cons t l ih => by_cases ht : p t <;> simp [faultsOf, ht] <;> simpa [faultsOf] using ih

/-- An issue never stops the machine. -/
theorem State.issue_answers (s : State) (k : Opc) (o : Op) (body : Group → List Thread → Body) : Answers (s.issue k o body) := by
  unfold State.issue Answers
  dsimp only
  repeat' split
  all_goals exact ⟨_, rfl⟩

theorem State.lanes_answers (s : State) (k : Opc) (o : Op) (chk : Thread → Option Flt) (wr : Thread → Thread) :
    Answers (s.lanes k o chk wr) := State.issue_answers ..

theorem State.compute_answers (s : State) (k : Opc) (o : Op) (wr : Thread → Thread) : Answers (s.compute k o wr) :=
  State.lanes_answers ..

end Sys2Proof.Machine
end

