-- ==== Sys2Proof/Laws/PerInstr.lean ====
section
/-! SUPPORT. Facts about instructions as syntax, one lemma for each constructor. -/

namespace Sys2Proof.Laws

/-- An instruction of the code is named by its row and its operands. -/
def Coded.Statement (i : Instr) : Prop := ∀ k o, i.opc? = some (k, o) → Instr.ofOpc k o = i

theorem Coded.linkTrain (width rate : Nat) (flit : Bool) : Coded.Statement (.linkTrain width rate flit) := fun _ _ h => by cases h
theorem Coded.thermalThrottle (celsius : Nat) : Coded.Statement (.thermalThrottle celsius) := fun _ _ h => by cases h
theorem Coded.powerCapStep (watts : Nat) : Coded.Statement (.powerCapStep watts) := fun _ _ h => by cases h
theorem Coded.error (u : UnitId) (uncorrected : Bool) (loc : Option PAddr) : Coded.Statement (.error u uncorrected loc) := fun _ _ h => by cases h
theorem Coded.selfTestEnd (u : UnitId) (pass : Bool) : Coded.Statement (.selfTestEnd u pass) := fun _ _ h => by cases h
theorem Coded.retest (kind index : Nat) : Coded.Statement (.retest kind index) := fun _ _ h => by cases h
theorem Coded.fwWriteSlot (slot pages : Nat) : Coded.Statement (.fwWriteSlot slot pages) := fun _ _ h => by cases h
theorem Coded.negotiateAlgorithms (falcon shake : Bool) : Coded.Statement (.negotiateAlgorithms falcon shake) := fun _ _ h => by cases h
theorem Coded.podmapWrite (value : BitVec 32) : Coded.Statement (.podmapWrite value) := fun _ _ h => by cases h
theorem Coded.portExchange (port podId number : Nat) : Coded.Statement (.portExchange port podId number) := fun _ _ h => by cases h
theorem Coded.flitReceive (port : Nat) (good : Bool) : Coded.Statement (.flitReceive port good) := fun _ _ h => by cases h
theorem Coded.portRetrain (port : Nat) : Coded.Statement (.portRetrain port) := fun _ _ h => by cases h
theorem Coded.stageEnter (st : StageId) : Coded.Statement (.stageEnter st) := fun _ _ h => by cases h
theorem Coded.stageLeave (st : StageId) : Coded.Statement (.stageLeave st) := fun _ _ h => by cases h
theorem Coded.homeApply (slice : Nat) : Coded.Statement (.homeApply slice) := fun _ _ h => by cases h
theorem Coded.replySplit (st : StageId) (entry : Nat) : Coded.Statement (.replySplit st entry) := fun _ _ h => by cases h
theorem Coded.replyDelivery (req : Nat) : Coded.Statement (.replyDelivery req) := fun _ _ h => by cases h
theorem Coded.burstDelivered (core cmd burst : Nat) : Coded.Statement (.burstDelivered core cmd burst) := fun _ _ h => by cases h
theorem Coded.burstFailed (core cmd burst : Nat) (why : BurstFailure) : Coded.Statement (.burstFailed core cmd burst why) := fun _ _ h => by cases h
theorem Coded.bankEvent (core cmd : Nat) : Coded.Statement (.bankEvent core cmd) := fun _ _ h => by cases h
theorem Coded.bytesLand (core cmd first count : Nat) : Coded.Statement (.bytesLand core cmd first count) := fun _ _ h => by cases h
theorem Coded.drainComplete (quad entry : Nat) : Coded.Statement (.drainComplete quad entry) := fun _ _ h => by cases h
theorem Coded.localCompletion (core cmd : Nat) : Coded.Statement (.localCompletion core cmd) := fun _ _ h => by cases h
theorem Coded.globalCompletion (core cmd : Nat) : Coded.Statement (.globalCompletion core cmd) := fun _ _ h => by cases h
theorem Coded.copyRingFault (core : Nat) : Coded.Statement (.copyRingFault core) := fun _ _ h => by cases h
theorem Coded.passBoundary (quad : Nat) : Coded.Statement (.passBoundary quad) := fun _ _ h => by cases h
theorem Coded.seamEntryComplete (quad entry : Nat) : Coded.Statement (.seamEntryComplete quad entry) := fun _ _ h => by cases h
theorem Coded.lodeOperation (op : Nat) : Coded.Statement (.lodeOperation op) := fun _ _ h => by cases h
theorem Coded.doorbell (ctx q : Nat) (tail : BitVec 32) : Coded.Statement (.doorbell ctx q tail) := fun _ _ h => by cases h
theorem Coded.launch (ctx q : Nat) : Coded.Statement (.launch ctx q) := fun _ _ h => by cases h
theorem Coded.launchInd (ctx q : Nat) : Coded.Statement (.launchInd ctx q) := fun _ _ h => by cases h
theorem Coded.fencePacket (ctx q : Nat) : Coded.Statement (.fencePacket ctx q) := fun _ _ h => by cases h
theorem Coded.fenceReread (ctx q : Nat) : Coded.Statement (.fenceReread ctx q) := fun _ _ h => by cases h
theorem Coded.signalStore (ctx q : Nat) : Coded.Statement (.signalStore ctx q) := fun _ _ h => by cases h
theorem Coded.signalAdd (ctx q : Nat) : Coded.Statement (.signalAdd ctx q) := fun _ _ h => by cases h
theorem Coded.counterInit (ctx q : Nat) : Coded.Statement (.counterInit ctx q) := fun _ _ h => by cases h
theorem Coded.counterAdd (ctx q : Nat) : Coded.Statement (.counterAdd ctx q) := fun _ _ h => by cases h
theorem Coded.windowInstall (ctx q : Nat) : Coded.Statement (.windowInstall ctx q) := fun _ _ h => by cases h
theorem Coded.windowInvalidate (ctx q : Nat) : Coded.Statement (.windowInvalidate ctx q) := fun _ _ h => by cases h
theorem Coded.marker (ctx q : Nat) : Coded.Statement (.marker ctx q) := fun _ _ h => by cases h
theorem Coded.pageZero (ctx q : Nat) : Coded.Statement (.pageZero ctx q) := fun _ _ h => by cases h
theorem Coded.completionActions (ctx q : Nat) : Coded.Statement (.completionActions ctx q) := fun _ _ h => by cases h
theorem Coded.launchAccept (ctx q : Nat) : Coded.Statement (.launchAccept ctx q) := fun _ _ h => by cases h
theorem Coded.taskStart (core : Nat) : Coded.Statement (.taskStart core) := fun _ _ h => by cases h
theorem Coded.clauseBegin (core group : Nat) : Coded.Statement (.clauseBegin core group) := fun _ _ h => by cases h
theorem Coded.parkWake (core group : Nat) : Coded.Statement (.parkWake core group) := fun _ _ h => by cases h
theorem Coded.fqRecordWrite (ctx : Nat) (accepted : Bool) : Coded.Statement (.fqRecordWrite ctx accepted) := fun _ _ h => by cases h
theorem Coded.flueSample (ctx : Nat) : Coded.Statement (.flueSample ctx) := fun _ _ h => by cases h
theorem Coded.apertureWrite (fn offset : Nat) (value : BitVec 32) : Coded.Statement (.apertureWrite fn offset value) := fun _ _ h => by cases h
theorem Coded.apertureRead (fn offset : Nat) : Coded.Statement (.apertureRead fn offset) := fun _ _ h => by cases h
theorem Coded.contextEnable (ctx : Nat) (value : BitVec 32) : Coded.Statement (.contextEnable ctx value) := fun _ _ h => by cases h
theorem Coded.contextDisable (ctx : Nat) : Coded.Statement (.contextDisable ctx) := fun _ _ h => by cases h
theorem Coded.queueEnable (ctx q : Nat) (value : BitVec 32) : Coded.Statement (.queueEnable ctx q value) := fun _ _ h => by cases h
theorem Coded.queueErrorClear (ctx q : Nat) : Coded.Statement (.queueErrorClear ctx q) := fun _ _ h => by cases h
theorem Coded.fqHeadWrite (ctx : Nat) (value : BitVec 32) : Coded.Statement (.fqHeadWrite ctx value) := fun _ _ h => by cases h
theorem Coded.fqbaseWrite (ctx : Nat) (value : BitVec 64) : Coded.Statement (.fqbaseWrite ctx value) := fun _ _ h => by cases h
theorem Coded.retry (ctx : Nat) (seq : BitVec 32) : Coded.Statement (.retry ctx seq) := fun _ _ h => by cases h
theorem Coded.skip (ctx : Nat) (seq : BitVec 32) : Coded.Statement (.skip ctx seq) := fun _ _ h => by cases h
theorem Coded.kill (ctx : Nat) (seq : BitVec 32) : Coded.Statement (.kill ctx seq) := fun _ _ h => by cases h
theorem Coded.tlbinvPages (ctx : Nat) (value : BitVec 64) : Coded.Statement (.tlbinvPages ctx value) := fun _ _ h => by cases h
theorem Coded.tlbinvAll (ctx : Nat) : Coded.Statement (.tlbinvAll ctx) := fun _ _ h => by cases h
theorem Coded.diemapWrite (ctx stope : Nat) (value : BitVec 64) : Coded.Statement (.diemapWrite ctx stope value) := fun _ _ h => by cases h
theorem Coded.preemptReq (ctx : Nat) : Coded.Statement (.preemptReq ctx) := fun _ _ h => by cases h
theorem Coded.stepGo (core : Nat) : Coded.Statement (.stepGo core) := fun _ _ h => by cases h
theorem Coded.stepArmClear (core : Nat) : Coded.Statement (.stepArmClear core) := fun _ _ h => by cases h
theorem Coded.debugEnable (value : BitVec 32) : Coded.Statement (.debugEnable value) := fun _ _ h => by cases h
theorem Coded.lampHeadWrite (ctx : Nat) (value : BitVec 32) : Coded.Statement (.lampHeadWrite ctx value) := fun _ _ h => by cases h
theorem Coded.flueHeadWrite (ctx : Nat) (value : BitVec 32) : Coded.Statement (.flueHeadWrite ctx value) := fun _ _ h => by cases h
theorem Coded.registerWrite (fn offset bytes : Nat) (value : BitVec 64) : Coded.Statement (.registerWrite fn offset bytes value) := fun _ _ h => by cases h
theorem Coded.clauseHeader (count set2 set1 : BitVec 4) (wait : BitVec 12) : Coded.Statement (.clauseHeader count set2 set1 wait) := fun _ _ h => by cases h
theorem Coded.add (o : Op) : Coded.Statement (.add o) := fun _ _ h => by cases h; rfl
theorem Coded.sub (o : Op) : Coded.Statement (.sub o) := fun _ _ h => by cases h; rfl
theorem Coded.lea (o : Op) : Coded.Statement (.lea o) := fun _ _ h => by cases h; rfl
theorem Coded.leaLabel (o : Op) : Coded.Statement (.leaLabel o) := fun _ _ h => by cases h; rfl
theorem Coded.mul (o : Op) : Coded.Statement (.mul o) := fun _ _ h => by cases h; rfl
theorem Coded.mulh (o : Op) : Coded.Statement (.mulh o) := fun _ _ h => by cases h; rfl
theorem Coded.mad (o : Op) : Coded.Statement (.mad o) := fun _ _ h => by cases h; rfl
theorem Coded.madw (o : Op) : Coded.Statement (.madw o) := fun _ _ h => by cases h; rfl
theorem Coded.div (o : Op) : Coded.Statement (.div o) := fun _ _ h => by cases h; rfl
theorem Coded.rem (o : Op) : Coded.Statement (.rem o) := fun _ _ h => by cases h; rfl
theorem Coded.abs (o : Op) : Coded.Statement (.abs o) := fun _ _ h => by cases h; rfl
theorem Coded.min (o : Op) : Coded.Statement (.min o) := fun _ _ h => by cases h; rfl
theorem Coded.max (o : Op) : Coded.Statement (.max o) := fun _ _ h => by cases h; rfl
theorem Coded.and (o : Op) : Coded.Statement (.and o) := fun _ _ h => by cases h; rfl
theorem Coded.or (o : Op) : Coded.Statement (.or o) := fun _ _ h => by cases h; rfl
theorem Coded.xor (o : Op) : Coded.Statement (.xor o) := fun _ _ h => by cases h; rfl
theorem Coded.andn (o : Op) : Coded.Statement (.andn o) := fun _ _ h => by cases h; rfl
theorem Coded.not (o : Op) : Coded.Statement (.not o) := fun _ _ h => by cases h; rfl
theorem Coded.shl (o : Op) : Coded.Statement (.shl o) := fun _ _ h => by cases h; rfl
theorem Coded.shr (o : Op) : Coded.Statement (.shr o) := fun _ _ h => by cases h; rfl
theorem Coded.sar (o : Op) : Coded.Statement (.sar o) := fun _ _ h => by cases h; rfl
theorem Coded.rol (o : Op) : Coded.Statement (.rol o) := fun _ _ h => by cases h; rfl
theorem Coded.bfe (o : Op) : Coded.Statement (.bfe o) := fun _ _ h => by cases h; rfl
theorem Coded.bfi (o : Op) : Coded.Statement (.bfi o) := fun _ _ h => by cases h; rfl
theorem Coded.popc (o : Op) : Coded.Statement (.popc o) := fun _ _ h => by cases h; rfl
theorem Coded.clz (o : Op) : Coded.Statement (.clz o) := fun _ _ h => by cases h; rfl
theorem Coded.ctz (o : Op) : Coded.Statement (.ctz o) := fun _ _ h => by cases h; rfl
theorem Coded.brev (o : Op) : Coded.Statement (.brev o) := fun _ _ h => by cases h; rfl
theorem Coded.perm (o : Op) : Coded.Statement (.perm o) := fun _ _ h => by cases h; rfl
theorem Coded.sel (o : Op) : Coded.Statement (.sel o) := fun _ _ h => by cases h; rfl
theorem Coded.cmp (o : Op) : Coded.Statement (.cmp o) := fun _ _ h => by cases h; rfl
theorem Coded.pset (o : Op) : Coded.Statement (.pset o) := fun _ _ h => by cases h; rfl
theorem Coded.mov (o : Op) : Coded.Statement (.mov o) := fun _ _ h => by cases h; rfl
theorem Coded.movSpecial (o : Op) : Coded.Statement (.movSpecial o) := fun _ _ h => by cases h; rfl
theorem Coded.movW64 (o : Op) : Coded.Statement (.movW64 o) := fun _ _ h => by cases h; rfl
theorem Coded.moviW32 (o : Op) : Coded.Statement (.moviW32 o) := fun _ _ h => by cases h; rfl
theorem Coded.moviW64 (o : Op) : Coded.Statement (.moviW64 o) := fun _ _ h => by cases h; rfl
theorem Coded.cvt (o : Op) : Coded.Statement (.cvt o) := fun _ _ h => by cases h; rfl
theorem Coded.fadd (o : Op) : Coded.Statement (.fadd o) := fun _ _ h => by cases h; rfl
theorem Coded.fsub (o : Op) : Coded.Statement (.fsub o) := fun _ _ h => by cases h; rfl
theorem Coded.fmul (o : Op) : Coded.Statement (.fmul o) := fun _ _ h => by cases h; rfl
theorem Coded.ffma (o : Op) : Coded.Statement (.ffma o) := fun _ _ h => by cases h; rfl
theorem Coded.fmin (o : Op) : Coded.Statement (.fmin o) := fun _ _ h => by cases h; rfl
theorem Coded.fmax (o : Op) : Coded.Statement (.fmax o) := fun _ _ h => by cases h; rfl
theorem Coded.fcmp (o : Op) : Coded.Statement (.fcmp o) := fun _ _ h => by cases h; rfl
theorem Coded.fcls (o : Op) : Coded.Statement (.fcls o) := fun _ _ h => by cases h; rfl
theorem Coded.frcp (o : Op) : Coded.Statement (.frcp o) := fun _ _ h => by cases h; rfl
theorem Coded.frsq (o : Op) : Coded.Statement (.frsq o) := fun _ _ h => by cases h; rfl
theorem Coded.fsqrt (o : Op) : Coded.Statement (.fsqrt o) := fun _ _ h => by cases h; rfl
theorem Coded.fex2 (o : Op) : Coded.Statement (.fex2 o) := fun _ _ h => by cases h; rfl
theorem Coded.flg2 (o : Op) : Coded.Statement (.flg2 o) := fun _ _ h => by cases h; rfl
theorem Coded.frnd (o : Op) : Coded.Statement (.frnd o) := fun _ _ h => by cases h; rfl
theorem Coded.fcvt (o : Op) : Coded.Statement (.fcvt o) := fun _ _ h => by cases h; rfl
theorem Coded.shfl (o : Op) : Coded.Statement (.shfl o) := fun _ _ h => by cases h; rfl
theorem Coded.voteAny (o : Op) : Coded.Statement (.voteAny o) := fun _ _ h => by cases h; rfl
theorem Coded.voteAll (o : Op) : Coded.Statement (.voteAll o) := fun _ _ h => by cases h; rfl
theorem Coded.voteBallot (o : Op) : Coded.Statement (.voteBallot o) := fun _ _ h => by cases h; rfl
theorem Coded.voteEq (o : Op) : Coded.Statement (.voteEq o) := fun _ _ h => by cases h; rfl
theorem Coded.redux (o : Op) : Coded.Statement (.redux o) := fun _ _ h => by cases h; rfl
theorem Coded.scan (o : Op) : Coded.Statement (.scan o) := fun _ _ h => by cases h; rfl
theorem Coded.scanEx (o : Op) : Coded.Statement (.scanEx o) := fun _ _ h => by cases h; rfl
theorem Coded.quant (o : Op) : Coded.Statement (.quant o) := fun _ _ h => by cases h; rfl
theorem Coded.dequant (o : Op) : Coded.Statement (.dequant o) := fun _ _ h => by cases h; rfl
theorem Coded.bra (o : Op) : Coded.Statement (.bra o) := fun _ _ h => by cases h; rfl
theorem Coded.brx (o : Op) : Coded.Statement (.brx o) := fun _ _ h => by cases h; rfl
theorem Coded.call (o : Op) : Coded.Statement (.call o) := fun _ _ h => by cases h; rfl
theorem Coded.ret (o : Op) : Coded.Statement (.ret o) := fun _ _ h => by cases h; rfl
theorem Coded.exit (o : Op) : Coded.Statement (.exit o) := fun _ _ h => by cases h; rfl
theorem Coded.yield (o : Op) : Coded.Statement (.yield o) := fun _ _ h => by cases h; rfl
theorem Coded.nop (o : Op) : Coded.Statement (.nop o) := fun _ _ h => by cases h; rfl
theorem Coded.brk (o : Op) : Coded.Statement (.brk o) := fun _ _ h => by cases h; rfl
theorem Coded.trap (o : Op) : Coded.Statement (.trap o) := fun _ _ h => by cases h; rfl
theorem Coded.assert (o : Op) : Coded.Statement (.assert o) := fun _ _ h => by cases h; rfl
theorem Coded.enrol (o : Op) : Coded.Statement (.enrol o) := fun _ _ h => by cases h; rfl
theorem Coded.join (o : Op) : Coded.Statement (.join o) := fun _ _ h => by cases h; rfl
theorem Coded.reform (o : Op) : Coded.Statement (.reform o) := fun _ _ h => by cases h; rfl
theorem Coded.seal (o : Op) : Coded.Statement (.seal o) := fun _ _ h => by cases h; rfl
theorem Coded.park (o : Op) : Coded.Statement (.park o) := fun _ _ h => by cases h; rfl
theorem Coded.ld (o : Op) : Coded.Statement (.ld o) := fun _ _ h => by cases h; rfl
theorem Coded.st (o : Op) : Coded.Statement (.st o) := fun _ _ h => by cases h; rfl
theorem Coded.ldt (o : Op) : Coded.Statement (.ldt o) := fun _ _ h => by cases h; rfl
theorem Coded.stt (o : Op) : Coded.Statement (.stt o) := fun _ _ h => by cases h; rfl
theorem Coded.ldd (o : Op) : Coded.Statement (.ldd o) := fun _ _ h => by cases h; rfl
theorem Coded.std (o : Op) : Coded.Statement (.std o) := fun _ _ h => by cases h; rfl
theorem Coded.ldc (o : Op) : Coded.Statement (.ldc o) := fun _ _ h => by cases h; rfl
theorem Coded.ldcPar (o : Op) : Coded.Statement (.ldcPar o) := fun _ _ h => by cases h; rfl
theorem Coded.pref (o : Op) : Coded.Statement (.pref o) := fun _ _ h => by cases h; rfl
theorem Coded.spush (o : Op) : Coded.Statement (.spush o) := fun _ _ h => by cases h; rfl
theorem Coded.spop (o : Op) : Coded.Statement (.spop o) := fun _ _ h => by cases h; rfl
theorem Coded.xadd (o : Op) : Coded.Statement (.xadd o) := fun _ _ h => by cases h; rfl
theorem Coded.xmax (o : Op) : Coded.Statement (.xmax o) := fun _ _ h => by cases h; rfl
theorem Coded.xmin (o : Op) : Coded.Statement (.xmin o) := fun _ _ h => by cases h; rfl
theorem Coded.xswp (o : Op) : Coded.Statement (.xswp o) := fun _ _ h => by cases h; rfl
theorem Coded.xcas (o : Op) : Coded.Statement (.xcas o) := fun _ _ h => by cases h; rfl
theorem Coded.xbit (o : Op) : Coded.Statement (.xbit o) := fun _ _ h => by cases h; rfl
theorem Coded.fence (o : Op) : Coded.Statement (.fence o) := fun _ _ h => by cases h; rfl
theorem Coded.tbar (o : Op) : Coded.Statement (.tbar o) := fun _ _ h => by cases h; rfl
theorem Coded.cbar (o : Op) : Coded.Statement (.cbar o) := fun _ _ h => by cases h; rfl
theorem Coded.txbInit (o : Op) : Coded.Statement (.txbInit o) := fun _ _ h => by cases h; rfl
theorem Coded.txbArrive (o : Op) : Coded.Statement (.txbArrive o) := fun _ _ h => by cases h; rfl
theorem Coded.txbExpect (o : Op) : Coded.Statement (.txbExpect o) := fun _ _ h => by cases h; rfl
theorem Coded.txbWait (o : Op) : Coded.Statement (.txbWait o) := fun _ _ h => by cases h; rfl
theorem Coded.tileDef (o : Op) : Coded.Statement (.tileDef o) := fun _ _ h => by cases h; rfl
theorem Coded.tileSet (o : Op) : Coded.Statement (.tileSet o) := fun _ _ h => by cases h; rfl
theorem Coded.tileState (o : Op) : Coded.Statement (.tileState o) := fun _ _ h => by cases h; rfl
theorem Coded.trec (o : Op) : Coded.Statement (.trec o) := fun _ _ h => by cases h; rfl
theorem Coded.bstat (o : Op) : Coded.Statement (.bstat o) := fun _ _ h => by cases h; rfl
theorem Coded.bstatSeq (o : Op) : Coded.Statement (.bstatSeq o) := fun _ _ h => by cases h; rfl
theorem Coded.bcopy (o : Op) : Coded.Statement (.bcopy o) := fun _ _ h => by cases h; rfl
theorem Coded.bcopyMc (o : Op) : Coded.Statement (.bcopyMc o) := fun _ _ h => by cases h; rfl
theorem Coded.bread (o : Op) : Coded.Statement (.bread o) := fun _ _ h => by cases h; rfl
theorem Coded.bwrite (o : Op) : Coded.Statement (.bwrite o) := fun _ _ h => by cases h; rfl
theorem Coded.bzero (o : Op) : Coded.Statement (.bzero o) := fun _ _ h => by cases h; rfl
theorem Coded.oprel (o : Op) : Coded.Statement (.oprel o) := fun _ _ h => by cases h; rfl
theorem Coded.opresFill (o : Op) : Coded.Statement (.opresFill o) := fun _ _ h => by cases h; rfl
theorem Coded.opres (o : Op) : Coded.Statement (.opres o) := fun _ _ h => by cases h; rfl
theorem Coded.opresTm (o : Op) : Coded.Statement (.opresTm o) := fun _ _ h => by cases h; rfl
theorem Coded.accget (o : Op) : Coded.Statement (.accget o) := fun _ _ h => by cases h; rfl
theorem Coded.accrel (o : Op) : Coded.Statement (.accrel o) := fun _ _ h => by cases h; rfl
theorem Coded.mma (o : Op) : Coded.Statement (.mma o) := fun _ _ h => by cases h; rfl
theorem Coded.mmaSp (o : Op) : Coded.Statement (.mmaSp o) := fun _ _ h => by cases h; rfl
theorem Coded.smx (o : Op) : Coded.Statement (.smx o) := fun _ _ h => by cases h; rfl
theorem Coded.accrd (o : Op) : Coded.Statement (.accrd o) := fun _ _ h => by cases h; rfl
theorem Coded.accwr (o : Op) : Coded.Statement (.accwr o) := fun _ _ h => by cases h; rfl
theorem Coded.accscale (o : Op) : Coded.Statement (.accscale o) := fun _ _ h => by cases h; rfl
theorem Coded.accscaleNorm (o : Op) : Coded.Statement (.accscaleNorm o) := fun _ _ h => by cases h; rfl
theorem Coded.accrdSide (o : Op) : Coded.Statement (.accrdSide o) := fun _ _ h => by cases h; rfl
theorem Coded.accwrSide (o : Op) : Coded.Statement (.accwrSide o) := fun _ _ h => by cases h; rfl
theorem Coded.accflush (o : Op) : Coded.Statement (.accflush o) := fun _ _ h => by cases h; rfl
theorem Coded.accflushSt (o : Op) : Coded.Statement (.accflushSt o) := fun _ _ h => by cases h; rfl
theorem Coded.forgeRdy (o : Op) : Coded.Statement (.forgeRdy o) := fun _ _ h => by cases h; rfl
theorem Coded.seamFam (o : Op) : Coded.Statement (.seamFam o) := fun _ _ h => by cases h; rfl
theorem Coded.seamHash (o : Op) : Coded.Statement (.seamHash o) := fun _ _ h => by cases h; rfl
theorem Coded.seamProbe (o : Op) : Coded.Statement (.seamProbe o) := fun _ _ h => by cases h; rfl
theorem Coded.seamGather (o : Op) : Coded.Statement (.seamGather o) := fun _ _ h => by cases h; rfl
theorem Coded.seamProbePre (o : Op) : Coded.Statement (.seamProbePre o) := fun _ _ h => by cases h; rfl
theorem Coded.seamIns (o : Op) : Coded.Statement (.seamIns o) := fun _ _ h => by cases h; rfl
theorem Coded.seamDel (o : Op) : Coded.Statement (.seamDel o) := fun _ _ h => by cases h; rfl
theorem Coded.seamRehash (o : Op) : Coded.Statement (.seamRehash o) := fun _ _ h => by cases h; rfl
theorem Coded.seamFin (o : Op) : Coded.Statement (.seamFin o) := fun _ _ h => by cases h; rfl
theorem Coded.seamVer (o : Op) : Coded.Statement (.seamVer o) := fun _ _ h => by cases h; rfl
theorem Coded.seamFencePkg (o : Op) : Coded.Statement (.seamFencePkg o) := fun _ _ h => by cases h; rfl
theorem Coded.seamFencePod (o : Op) : Coded.Statement (.seamFencePod o) := fun _ _ h => by cases h; rfl
theorem Coded.seamPub (o : Op) : Coded.Statement (.seamPub o) := fun _ _ h => by cases h; rfl
theorem Coded.nzscan (o : Op) : Coded.Statement (.nzscan o) := fun _ _ h => by cases h; rfl
theorem Coded.lodeCount (o : Op) : Coded.Statement (.lodeCount o) := fun _ _ h => by cases h; rfl
theorem Coded.lodeNext (o : Op) : Coded.Statement (.lodeNext o) := fun _ _ h => by cases h; rfl
theorem Coded.lodeCopy (o : Op) : Coded.Statement (.lodeCopy o) := fun _ _ h => by cases h; rfl
theorem Coded.lodeGrow (o : Op) : Coded.Statement (.lodeGrow o) := fun _ _ h => by cases h; rfl
theorem Coded.lodeTrim (o : Op) : Coded.Statement (.lodeTrim o) := fun _ _ h => by cases h; rfl
theorem Coded.taskPost (o : Op) : Coded.Statement (.taskPost o) := fun _ _ h => by cases h; rfl
theorem Coded.taskArm (o : Op) : Coded.Statement (.taskArm o) := fun _ _ h => by cases h; rfl
theorem Coded.post64 (o : Op) : Coded.Statement (.post64 o) := fun _ _ h => by cases h; rfl
theorem Coded.winArm (o : Op) : Coded.Statement (.winArm o) := fun _ _ h => by cases h; rfl
theorem Coded.cntInit (o : Op) : Coded.Statement (.cntInit o) := fun _ _ h => by cases h; rfl
theorem Coded.cntAdd (o : Op) : Coded.Statement (.cntAdd o) := fun _ _ h => by cases h; rfl
theorem Coded.cntRd (o : Op) : Coded.Statement (.cntRd o) := fun _ _ h => by cases h; rfl
theorem Coded.isync (o : Op) : Coded.Statement (.isync o) := fun _ _ h => by cases h; rfl
theorem Coded.sregR (o : Op) : Coded.Statement (.sregR o) := fun _ _ h => by cases h; rfl
theorem Coded.sregW (o : Op) : Coded.Statement (.sregW o) := fun _ _ h => by cases h; rfl
theorem Coded.perfRd (o : Op) : Coded.Statement (.perfRd o) := fun _ _ h => by cases h; rfl
theorem Coded.icinv (o : Op) : Coded.Statement (.icinv o) := fun _ _ h => by cases h; rfl
theorem Coded.lamp (o : Op) : Coded.Statement (.lamp o) := fun _ _ h => by cases h; rfl
theorem Coded.trc (o : Op) : Coded.Statement (.trc o) := fun _ _ h => by cases h; rfl
theorem Coded.tlbInv (o : Op) : Coded.Statement (.tlbInv o) := fun _ _ h => by cases h; rfl
theorem Coded.tlbInvAll (o : Op) : Coded.Statement (.tlbInvAll o) := fun _ _ h => by cases h; rfl
theorem Coded.ctxSave (o : Op) : Coded.Statement (.ctxSave o) := fun _ _ h => by cases h; rfl
theorem Coded.ctxLoad (o : Op) : Coded.Statement (.ctxLoad o) := fun _ _ h => by cases h; rfl
theorem Coded.halt (o : Op) : Coded.Statement (.halt o) := fun _ _ h => by cases h; rfl
theorem Coded.shaftDieReply (req : Nat) : Coded.Statement (.shaftDieReply req) := fun _ _ h => by cases h
theorem Coded.flitAcknowledgement (port : Nat) (accepted : Bool) : Coded.Statement (.flitAcknowledgement port accepted) := fun _ _ h => by cases h
theorem Coded.atsInvalidation (pasid : Nat) : Coded.Statement (.atsInvalidation pasid) := fun _ _ h => by cases h
theorem Coded.powerOnReset : Coded.Statement .powerOnReset := fun _ _ h => by cases h
theorem Coded.thermalTrip : Coded.Statement .thermalTrip := fun _ _ h => by cases h
theorem Coded.fwRaiseMinimum : Coded.Statement .fwRaiseMinimum := fun _ _ h => by cases h
theorem Coded.fwRestart : Coded.Statement .fwRestart := fun _ _ h => by cases h
theorem Coded.fwCommandDone : Coded.Statement .fwCommandDone := fun _ _ h => by cases h
theorem Coded.getVersion : Coded.Statement .getVersion := fun _ _ h => by cases h
theorem Coded.getCapabilities : Coded.Statement .getCapabilities := fun _ _ h => by cases h
theorem Coded.getDigests : Coded.Statement .getDigests := fun _ _ h => by cases h
theorem Coded.getCertificate : Coded.Statement .getCertificate := fun _ _ h => by cases h
theorem Coded.challenge : Coded.Statement .challenge := fun _ _ h => by cases h
theorem Coded.getMeasurements : Coded.Statement .getMeasurements := fun _ _ h => by cases h
theorem Coded.fabricTimeout : Coded.Statement .fabricTimeout := fun _ _ h => by cases h
theorem Coded.emberBirth : Coded.Statement .emberBirth := fun _ _ h => by cases h
theorem Coded.forgeAgePromote : Coded.Statement .forgeAgePromote := fun _ _ h => by cases h
theorem Coded.claimBatch : Coded.Statement .claimBatch := fun _ _ h => by cases h
theorem Coded.placeCluster : Coded.Statement .placeCluster := fun _ _ h => by cases h
theorem Coded.starved : Coded.Statement .starved := fun _ _ h => by cases h
theorem Coded.coreReport : Coded.Statement .coreReport := fun _ _ h => by cases h
theorem Coded.sliceExpiry : Coded.Statement .sliceExpiry := fun _ _ h => by cases h
theorem Coded.preemptEnd : Coded.Statement .preemptEnd := fun _ _ h => by cases h
theorem Coded.deadlineExpiry : Coded.Statement .deadlineExpiry := fun _ _ h => by cases h
theorem Coded.teamEnd : Coded.Statement .teamEnd := fun _ _ h => by cases h
theorem Coded.priorityAge : Coded.Statement .priorityAge := fun _ _ h => by cases h
theorem Coded.binAgeRelease : Coded.Statement .binAgeRelease := fun _ _ h => by cases h
theorem Coded.overflowRelease : Coded.Statement .overflowRelease := fun _ _ h => by cases h
theorem Coded.parkTimeout : Coded.Statement .parkTimeout := fun _ _ h => by cases h
theorem Coded.tlbInvalidateDone : Coded.Statement .tlbInvalidateDone := fun _ _ h => by cases h
theorem Coded.unassignedEncoding : Coded.Statement .unassignedEncoding := fun _ _ h => by cases h

end Sys2Proof.Laws
end

