-- ==== Sys2Proof/Tests/Slice0.lean ====
section
/-! SUPPORT. Tests: words written out from the layouts of R303 and R305 and from the worked examples decode to their instructions; ill-formed
records are refused; single steps whose results the spec gives; and for every statement a state that meets its hypotheses. -/

namespace Sys2Proof.Tests

set_option Elab.async false
set_option maxRecDepth 20000
open Sys2Proof.Machine

/-! ## Decoding -/

/-- The operation and operands that the words give, with zeros behind them. -/
def read (ws : List Word) : Option (Opc × Op) :=
  match decode (ws ++ [0, 0, 0, 0]) with
  | .ok i => i.opc?
  | .error _ => none

def opc (ws : List Word) : Option Opc := (read ws).map (·.1)
def op (ws : List Word) : Op := ((read ws).map (·.2)).getD (brkOp .base)

/-- First words with GUARD 7 and the MAJOR, SUB or FUNC that each description assigns. -/
def words1 : List (Opc × List Word) :=
  [(.add, [0x00000708]), (.sub, [0x40000708]), (.lea, [0x80000708]), (.mul, [0x0000070C]), (.mulh, [0x4000070C]),
   (.mad, [0x00000710]), (.madw, [0x40000710]), (.div, [0x00000714]), (.rem, [0x40000714]), (.abs, [0x00000718]),
   (.min, [0x40000718]), (.max, [0x80000718]), (.and, [0x0000071C]), (.or, [0x4000071C]), (.xor, [0x8000071C]),
   (.andn, [0xC000071C]), (.shl, [0x00000720]), (.shr, [0x40000720]), (.sar, [0x80000720]), (.rol, [0xC0000720]),
   (.bfe, [0x00000724]), (.bfi, [0x40000724]), (.popc, [0x00000728]), (.clz, [0x40000728])]

/-- First words with GUARD 7 and the MAJOR, SUB or FUNC that each description assigns. -/
def words2 : List (Opc × List Word) :=
  [(.ctz, [0x80000728]), (.brev, [0xC0000728]), (.perm, [0x0000072C]), (.cmp, [0x00000730]), (.pset, [0x40000730]),
   (.mov, [0x00000734]), (.movSpecial, [0x40000734]), (.movW64, [0x80000734]), (.moviW32, [0x00000738]),
   (.moviW64, [0x40000738]), (.cvt, [0x0000073C]), (.fadd, [0x00000740]), (.fsub, [0x40000740]), (.fmul, [0x00000744]),
   (.ffma, [0x40000744]), (.fmin, [0x00000748]), (.fmax, [0x40000748]), (.fcmp, [0x0000074C]), (.fcls, [0x4000074C]),
   (.frcp, [0x00000750]), (.frsq, [0x40000750]), (.fsqrt, [0x80000750]), (.fex2, [0x00000754]), (.flg2, [0x40000754])]

/-- First words with GUARD 7 and the MAJOR, SUB or FUNC that each description assigns. -/
def words3 : List (Opc × List Word) :=
  [(.frnd, [0x00000758]), (.fcvt, [0x0000075C]), (.shfl, [0x00000760]), (.voteAny, [0x00000764]),
   (.voteAll, [0x40000764]), (.voteBallot, [0x80000764]), (.voteEq, [0xC0000764]), (.redux, [0x00000768]),
   (.scan, [0x40000768]), (.scanEx, [0x80000768]), (.quant, [0x0000076C]), (.dequant, [0x4000076C]), (.brx, [0x40000770]),
   (.ret, [0xC0000770]), (.exit, [0x00000774]), (.yield, [0x40000774]), (.nop, [0x80000774]), (.brk, [0xC0000774]),
   (.enrol, [0x00000778]), (.join, [0x40000778]), (.reform, [0x80000778]), (.seal, [0xC0000778]), (.park, [0x0000077C]),
   (.ld, [0x00000780])]

/-- First words with GUARD 7 and the MAJOR, SUB or FUNC that each description assigns. -/
def words4 : List (Opc × List Word) :=
  [(.st, [0x00000784]), (.ldt, [0x00000788]), (.stt, [0x40000788]), (.ldd, [0x0000078C]), (.std, [0x4000078C]),
   (.ldc, [0x00000790]), (.pref, [0x80000790]), (.spush, [0x00000794]), (.spop, [0x40000794]), (.xadd, [0x00000798]),
   (.xmax, [0x40000798]), (.xmin, [0x80000798]), (.xswp, [0x0000079C]), (.xcas, [0x4000079C]), (.xbit, [0x8000079C]),
   (.fence, [0x000007A0]), (.tbar, [0x000007A4]), (.cbar, [0x400007A4]), (.txbInit, [0x000007A8]),
   (.txbArrive, [0x400007A8]), (.txbExpect, [0x800007A8]), (.txbWait, [0xC00007A8]), (.tileDef, [0x000007AC]),
   (.tileSet, [0x400007AC])]

/-- First words with GUARD 7 and the MAJOR, SUB or FUNC that each description assigns. -/
def words5 : List (Opc × List Word) :=
  [(.tileState, [0x800007AC]), (.trec, [0x000007B0]), (.bstat, [0x400007B0]), (.bstatSeq, [0x800007B0]),
   (.bcopy, [0x000007B4]), (.bcopyMc, [0x400007B4]), (.bwrite, [0x400007B8]), (.bzero, [0x000007BC]),
   (.oprel, [0x000007C0]), (.opresFill, [0x400007C0]), (.accget, [0x000007C4]), (.accrel, [0x400007C4]),
   (.mma, [0x000007C8]), (.mmaSp, [0x400007C8]), (.smx, [0x000007CC]), (.accrd, [0x000007D0]), (.accwr, [0x400007D0]),
   (.accscale, [0x800007D0]), (.accflush, [0x000007D4]), (.forgeRdy, [0x400007D4]), (.seamFam, [0x000007D8]),
   (.seamHash, [0x400007D8]), (.seamProbe, [0x800007D8]), (.seamGather, [0xC00007D8])]

/-- First words with GUARD 7 and the MAJOR, SUB or FUNC that each description assigns. -/
def words6 : List (Opc × List Word) :=
  [(.seamIns, [0x000007DC]), (.seamDel, [0x400007DC]), (.seamRehash, [0x800007DC]), (.seamFin, [0xC00007DC]),
   (.seamFencePkg, [0x000007E0]), (.seamFencePod, [0x400007E0]), (.seamPub, [0x800007E0]), (.lodeCount, [0x000007E4]),
   (.lodeCopy, [0x000007E8]), (.lodeGrow, [0x400007E8]), (.lodeTrim, [0x800007E8]), (.post64, [0x800007EC]),
   (.cntInit, [0x000007F0]), (.cntAdd, [0x400007F0]), (.cntRd, [0x800007F0]), (.isync, [0x000007F4]),
   (.sregR, [0x400007F4]), (.sregW, [0x800007F4]), (.perfRd, [0xC00007F4]),
   (.leaLabel, [0xC0000709, 0x00000040, 0x00000000]), (.not, [0x0000471E, 0x48000000, 0x00000000]),
   (.sel, [0x0000472E, 0x48000000, 0x00000000]), (.bra, [0x00000771, 0x00000040, 0x00000000]),
   (.call, [0x80000771, 0x00000040, 0x00000000])]

/-- First words with GUARD 7 and the MAJOR, SUB or FUNC that each description assigns. -/
def words7 : List (Opc × List Word) :=
  [(.trap, [0x00004776, 0x00000000, 0x00000000]), (.assert, [0x00005776, 0x00000000, 0x00000000]),
   (.ldcPar, [0x00004792, 0x48000000, 0x00000000]), (.bread, [0x000007B9, 0x00000000, 0x00000000]),
   (.opres, [0x000047C2, 0x58000000, 0x00000000]), (.opresTm, [0x000057C2, 0x58000000, 0x00000000]),
   (.accscaleNorm, [0x000047D2, 0x00000000, 0x00000000]), (.accrdSide, [0x000057D2, 0x00000000, 0x00000000]),
   (.accwrSide, [0x000067D2, 0x00000000, 0x00000000]), (.accflushSt, [0x000047D6, 0x00000000, 0x00000000]),
   (.seamProbePre, [0x000047DA, 0x00000000, 0x00000000]), (.seamVer, [0x000047DE, 0x00000000, 0x00000000]),
   (.nzscan, [0x000047E2, 0x68000000, 0x00000000]), (.lodeNext, [0x000047E6, 0x00000000, 0x00000000]),
   (.taskPost, [0x000007ED, 0x00000000, 0x00000000]), (.taskArm, [0x400007ED, 0x00000000, 0x00000000]),
   (.winArm, [0x000047EE, 0x00000000, 0x00000000]), (.icinv, [0x000047F6, 0x00000000, 0x00000000]),
   (.lamp, [0x000057F6, 0x00000000, 0x00000000]), (.trc, [0x000067F6, 0x00000000, 0x00000000]),
   (.tlbInv, [0x000077F6, 0x00000000, 0x00000000]), (.tlbInvAll, [0x000077F6, 0x00000000, 0x00000200]),
   (.ctxSave, [0x000087F6, 0x00000000, 0x00000000]), (.ctxLoad, [0x000097F6, 0x00000000, 0x00000000])]

/-- First words with GUARD 7 and the MAJOR, SUB or FUNC that each description assigns. -/
def words8 : List (Opc × List Word) :=
  [(.halt, [0x0000A7F6, 0x00000000, 0x00000000])]

theorem test_decode_words1 : words1.all (fun e => opc e.2 == some e.1) = true := by decide
theorem test_decode_words2 : words2.all (fun e => opc e.2 == some e.1) = true := by decide
theorem test_decode_words3 : words3.all (fun e => opc e.2 == some e.1) = true := by decide
theorem test_decode_words4 : words4.all (fun e => opc e.2 == some e.1) = true := by decide
theorem test_decode_words5 : words5.all (fun e => opc e.2 == some e.1) = true := by decide
theorem test_decode_words6 : words6.all (fun e => opc e.2 == some e.1) = true := by decide
theorem test_decode_words7 : words7.all (fun e => opc e.2 == some e.1) = true := by decide
theorem test_decode_words8 : words8.all (fun e => opc e.2 == some e.1) = true := by decide

/-- R302, R305, R441: three extended words and a literal of two; AUX tells `tlb.inv.all` from `tlb.inv`. -/
theorem test_decode_inval_literal :
    opc [0x000077F7, 0, 0, 0x40, 0] = some .tlbInv ∧ opc [0x000077F7, 0, 0x00000200, 0x40, 0] = some .tlbInvAll := by decide

/-- The words that R459 and the program files work out. -/
theorem test_decode_worked :
    (read [0x07185708]).map (fun e => (e.1, e.2.d, e.2.a, e.2.b, e.2.g)) = some (.add, 5, 6, 7, 7) ∧
    (read [0x010C37B4]).map (fun e => (e.1, e.2.d, e.2.a, e.2.b)) = some (.bcopy, 3, 3, 1) ∧
    (read [0x400467A9, 0x1000, 0]).map (fun e => (e.1, e.2.d, e.2.a, e.2.lit)) = some (.txbArrive, 6, 1, 4096) ∧
    (read [0x00084780]).map (fun e => (e.1, e.2.d, e.2.a, e.2.ty)) = some (.ld, 4, 2, .w32) := by decide

theorem test_decode_worked_xadd :
    (read [0x4500079A, 0x48140404, 0x00010000]).map (fun e => (e.1, e.2.d, e.2.a, e.2.b, e.2.imm)) = some (.xadd, 4, 2, 5, 16) := by decide

theorem test_decode_worked_forge :
    (read [0x000447C4]).map (fun e => (e.1, e.2.d, e.2.a, e.2.b)) = some (.accget, 4, 1, 0) ∧
    (read [0x000057C2, 0x78040C00, 0]).map (fun e => (e.1, e.2.d, e.2.a, e.2.b, e.2.ty)) = some (.opresTm, 0, 6, 1, .kx4) := by decide

theorem test_decode_worked_more :
    (read [0x051C07D0]).map (fun e => (e.1, e.2.d, e.2.a, e.2.b)) = some (.accrd, 0, 7, 5) ∧
    (read [0x800C07D8]).map (fun e => (e.1, e.2.a)) = some (.seamProbe, 3) ∧
    (read [0x040867DC]).map (fun e => (e.1, e.2.d, e.2.a, e.2.b)) = some (.seamIns, 6, 2, 4) ∧
    (read [0x800807DD, 4, 0]).map (fun e => (e.1, e.2.a, e.2.lit)) = some (.seamRehash, 2, 4) ∧
    (read [0x400807E9, 4, 0]).map (fun e => (e.1, e.2.a, e.2.lit)) = some (.lodeGrow, 2, 4) ∧
    decode [0x0F000004] = .ok (.clauseHeader 0 15 0 0) ∧ decode [0x0FF00104] = .ok (.clauseHeader 0 15 15 1) := by decide

/-- R302, R307, R308, R317: words that end early, and words that no description assigns. -/
theorem test_decode_rejects :
    decode [] = .error .short ∧ decode [0x40082909] = .error .short ∧ decode [0x00000700] = .error .unassigned ∧
    decode [0x000007F8] = .error .unassigned ∧ decode [0x000007FC, 0, 0] = .error .unassigned ∧
    decode [0x0900070A, 0xF80C0446, 0] = .error .unassigned ∧ decode [0x09000742, 0x580C0446, 0x200] = .error .unassigned ∧
    decode [0x07185F08] = .error .unassigned ∧ decode [0x00000005, 0, 0] = .error .unassigned := by decide

/-- R302: bit 0 of a table's number is the least significant bit of the first word, and the next word's bits count on. -/
theorem test_decodeTableWord :
    decodeTableWord 32 0x07185708 = some (.add (op [0x07185708])) ∧
    decodeTableWord 96 0x00010000481404044500079A = some (.xadd (op [0x4500079A, 0x48140404, 0x00010000])) := by decide

/-! ## Ill-formed records -/

/-- `add.w32 v5, v6, v7`, and `fadd.f16.rz.x2 v70, v2, v3`, each well formed. -/
def baseAdd : Op := op [0x07185708]
def extFadd : Op := op [0x09000742, 0x580C0446, 0]

theorem test_wf_accepts : baseAdd.wf .add = true ∧ extFadd.wf .fadd = true := by decide

/-- One record for each check of a base form: a negated GUARD 7, a length class and a FUNC that no form has, a literal without its
words, B beside a literal, a type, property, immediate or AUX of another form, a register field of more than six bits, and C. -/
theorem test_wf_refuses_base :
    ([{ baseAdd with neg := true }, { baseAdd with len := .baseLit, func := 1 }, { baseAdd with func := 5 }, { baseAdd with lit := 1 },
      { baseAdd with len := .baseLit }, { baseAdd with ty := .i32 }, { baseAdd with mod := 4 }, { baseAdd with imm := 1 },
      { baseAdd with aux := 1 }, { baseAdd with d := 64 }, { baseAdd with a := 64 }, { baseAdd with b := 64 },
      { baseAdd with c := 1 }] : List Op).all (fun o => !o.wf .add) = true := by decide

/-- And of an extended form: a property that the operation lacks, a type that it lacks, an immediate, AUX or C in an unused field. -/
theorem test_wf_refuses_extended :
    ([{ extFadd with mod := 0x10 }, { extFadd with ty := .i32 }, { extFadd with ty := .f32 }, { extFadd with imm := 1 },
      { extFadd with aux := 1 }, { extFadd with c := 1 }] : List Op).all (fun o => !o.wf .fadd) = true := by decide

/-- A field that must be zero or has a greatest value (R308), a length class that an instruction lacks, and an extra rule of one. -/
theorem test_wf_refuses_fields :
    ({ brkOp .base with func := 0, d := 8 } : Op).wf .enrol = false ∧ ({ brkOp .base with func := 2, a := 1 } : Op).wf .nop = false ∧
    ({ brkOp .baseLit with func := 2 } : Op).wf .nop = false ∧ ({ brkOp .base with func := 1, b := 4 } : Op).wf .tileSet = false ∧
    (Instr.nop { brkOp .base with func := 2, b := 1 }).wf = false ∧ (Instr.nop { brkOp .base with func := 2 }).wf = true := by decide

/-! ## States -/

/-- Context 0 with one page of code and data, and on core 0 a team of one thread, whose group issues the last instruction of its
clause. -/
def placed : State :=
  { State.reset.placeWords [0x07185708] with
      agenda := [], cur := some { core := 0, gid := 5, pc := 0x10000, len := 4 }, threads := [newThread 1 0 0 2 .birth 0 32 1 [] none] }

def cur : Cur := { core := 0, gid := 5, pc := 0x10000, len := 4 }
def grp : Group := placedGroup 5 1 false [0x07185708] 0
def thr : Thread := newThread 1 0 0 2 .birth 0 32 1 [] none

/-- The same with the thread changed: registers from a list of number and value, pairs from another, and the rest by `f`. -/
def placedWith (rs : List (Nat × Word)) (ps : List (Nat × DWord)) (f : Thread → Thread) : State :=
  placed.onThread 1 fun t => f (ps.foldl (fun t p => t.setPair p.1 p.2) (rs.foldl (fun t r => t.setReg r.1 r.2) t))

/-- The check of `State.Ready` for the placed group, or for the same changed by `f`. -/
def readyAs (g : Group) (s : State) (k : Opc) (o : Op) : Bool :=
  decide (s.cur = some cur) && decide (s.group? 5 = some g) && !s.breakHit g && !k.illegal o && (!k.transfer || g.atEnd) &&
  ((s.membersOf g).all fun t => !k.beyond o t.n) && (s.badReaders k o (s.executing g o)).isEmpty

theorem ready_of_check {g : Group} {s : State} {k : Opc} {o : Op} (h : readyAs g s k o = true) : s.Ready k o cur g := by
  simp only [readyAs, Bool.and_eq_true, decide_eq_true_eq, Bool.not_eq_true', Bool.or_eq_true, List.all_eq_true] at h
  obtain ⟨⟨⟨⟨⟨⟨h1, h2⟩, h3⟩, h4⟩, h5⟩, h6⟩, h7⟩ := h
  refine ⟨⟨h1, h2⟩, h3, h4, fun ht => ?_, h6, List.isEmpty_iff.mp h7⟩
  rcases h5 with h5 | h5
  · rw [ht] at h5; cases h5
  · exact h5

theorem test_placed : placed.group? 5 = some grp ∧ placed.thread? 1 = some thr ∧ placed.executing grp (op [0x07185708]) = [thr] ∧
    placed.MemWf := by
  refine ⟨by decide, by decide, by decide, ?_⟩
  unfold State.MemWf; decide

/-! ## Hypotheses met: an instruction that is ready -/

/-- Each operation in turn can stand next to issue with its one thread executing: what `Computes` asks (R337 to R352), and what every
other statement about an instruction asks first. -/
def readyIn (ws : List (Opc × List Word)) : Bool :=
  ws.all fun e => readyAs grp placed e.1 (op e.2) && decide (placed.executing grp (op e.2) = [thr])

theorem test_ready_words1 : readyIn words1 = true := by decide
theorem test_ready_words2 : readyIn words2 = true := by decide
theorem test_ready_words3 : readyIn words3 = true := by decide
theorem test_ready_words4 : readyIn words4 = true := by decide
theorem test_ready_words5 : readyIn words5 = true := by decide
theorem test_ready_words6 : readyIn words6 = true := by decide
theorem test_ready_words7 : readyIn words7 = true := by decide
theorem test_ready_words8 : readyIn words8 = true := by decide

/-! ## A state with something of every kind

The placed thread holds accumulator tiles 0 and 1, reservations 0, 1, 2, 5 and 6, list tile 3 and the empty tile 4. Its page holds a
seam table, one in migration, and a pool; the page after it is a lode region; its team memory holds parameter blocks. -/

def reservation (base rows rowlen gen : Nat) (fmt : Ty) (st : TileState) : Tile :=
  { state := st, hold := false, opbuf := true, core := 0, pend := 0, base, len := 512, team := 2, gen, res := some ⟨fmt, rows, rowlen⟩,
    readers := [], fillStart := none, fillEnd := none }

def teamTile (base : Nat) (st : TileState) : Tile :=
  { state := st, hold := false, opbuf := false, core := 0, pend := 0, base, len := 512, team := 2, gen := 30, res := none,
    readers := [], fillStart := none, fillEnd := none }

def accTile : Acc :=
  { team := 2, uid := 1, core := 0, elems := [], maxs := [], sums := [], going := false, lastPc := 0, lastSeq := 0, passes := 0,
    since := 0, prev := [], wrote := 0, direct := [], events := [] }

def richQuad : QuadSt :=
  { tiles := [(0, reservation 0 4 64 20 .f16 .ready), (1, reservation 512 4 64 21 .f16 .ready), (2, reservation 1024 4 64 22 .f16 .ready),
              (3, teamTile 2048 .ready), (4, teamTile 2560 .empty), (5, reservation 1536 4 16 23 .f16 .empty),
              (6, reservation 2048 4 16 24 .w8 .ready)],
    accs := [(0, accTile), (1, accTile)] }

/-- Records at 0x10800 of one element of 4 bytes, and of 16 (R183). -/
def recBytes (n : Nat) : List Byte := bytesOfNat (0x10800 + 2 * 2 ^ 64 + (n + 2 ^ 32 + 2 ^ 64 + 2 ^ 96) * 2 ^ 128) 64

def richCore : CoreSt := { slots := [(0, recBytes 1), (1, recBytes 16)], fams := [(0, ⟨2, 22, 4, 16⟩)], counters := [(3, 7)] }

/-- Its package memory: the translation tables; the instruction; seam tables of 16 rows of dimension 16 at 0x40100 and, in migration, at
0x40300 (R193); a lode region of one element with its pool at 0x50000 (R218). -/
def richPkg : Mem :=
  [(0x10000, 3), (0x10002, 2), (0x20000, 3), (0x20002, 3), (0x30008, 57), (0x3000A, 4), (0x30010, 185), (0x30012, 5),
   (0x40000, 8), (0x40001, 87), (0x40002, 24), (0x40003, 7), (0x40109, 2), (0x4010A, 1), (0x40110, 16), (0x40114, 16),
   (0x40119, 8), (0x4011A, 1), (0x40121, 16), (0x40122, 1), (0x40128, 2), (0x40131, 32), (0x40132, 1), (0x40138, 2),
   (0x40141, 12), (0x40142, 1), (0x40148, 4), (0x40300, 4), (0x40303, 32), (0x40309, 2), (0x4030A, 1), (0x40310, 16),
   (0x40314, 16), (0x40319, 8), (0x4031A, 1), (0x40321, 16), (0x40322, 1), (0x40328, 2), (0x40331, 32), (0x40332, 1),
   (0x40338, 2), (0x40341, 12), (0x40342, 1), (0x40348, 4), (0x50002, 2), (0x5000A, 4), (0x50010, 1), (0x50014, 1),
   (0x50018, 1), (0x5001C, 1), (0x50021, 14), (0x50022, 1), (0x50029, 13), (0x5002A, 1), (0x50030, 16)]

/-- Its team memory: parameter blocks of `mma` at 0x100, `smx`, `seam.hash`, `seam.gather`, `mma.sp`, `seam.probe` at 0x200 and 0x280, and a
box of the region at 0x340. -/
def richTeam : Mem :=
  [(0x100, 1), (0x102, 1), (0x104, 16), (0x10A, 1), (0x120, 1), (0x122, 1), (0x129, 1), (0x12A, 5), (0x141, 1),
   (0x142, 1), (0x148, 5), (0x14C, 1), (0x151, 4), (0x152, 240), (0x161, 1), (0x162, 1), (0x168, 3), (0x169, 5),
   (0x180, 1), (0x182, 1), (0x184, 16), (0x18A, 1), (0x18B, 6), (0x201, 4), (0x205, 3), (0x206, 240), (0x211, 1),
   (0x212, 1), (0x285, 3), (0x286, 240), (0x291, 1), (0x292, 1), (0x342, 2), (0x360, 1), (0x364, 1), (0x368, 1),
   (0x36C, 1)]

def richThread : Thread :=
  let t := [(1, 0xF00100), (2, 0xF00120), (3, 0xF00140), (4, 0xF00160), (5, 0xF00200), (12, 0xF00340), (13, 0xF00500), (14, 1),
    (15, 0x00100001), (16, 0xF00600), (17, 0xF00700), (24, 256), (25, 1), (26, 2), (27, 0xF00180), (29, 0xF00280)].foldl
      (fun (t : Thread) (r : Nat × Word) => t.setReg r.1 r.2) thr
  [(6, 0x10100), (8, 0x10300), (10, 0x20000), (18, 0x11000), (20, 0x30000), (22, 0x10000)].foldl
    (fun (t : Thread) (r : Nat × DWord) => t.setPair r.1 r.2) t

def rich : State :=
  let s := (((placed.setReg (hifCtx 0 0x40) 1).setReg (hifCtx 0 0x50) 0x10000).setReg (hifCtx 0 0x70) 0x800000).setReg
    (hifQ 0 0 0x20) 0x30000
  { s with pkgMem := richPkg, teamMem := [(0, richTeam)], threads := [richThread], cores := [(0, richCore)], quads := [(0, richQuad)], queues := [(0, ⟨0x10000, 6, true⟩)],
           launches := s.launches.map fun l => { l with kernel := { l.kernel with embgrp := 1, paramlen := 8, entries := [(2, 8), (1, 8)] } } }

/-- An operation's tested words with other operands. -/
def the (k : Opc) : Op :=
  match (words1 ++ words2 ++ words3 ++ words4 ++ words5 ++ words6 ++ words7 ++ words8).find? fun e => e.1 == k with
  | some e => op e.2
  | none => brkOp .base

/-- The operation is ready in the state and its one thread executes it; `met` for the placed group as it stands. -/
def metAs (g : Group) (s : State) (k : Opc) (o : Op) (t : Thread) : Bool := readyAs g s k o && decide (s.executing g o = [t])
def met (k : Opc) (o : Op) : Bool := metAs grp rich k o richThread
def yes {ε α : Type} (x : Except ε α) : Bool := match x with | .ok _ => true | .error _ => false
/-- The placed thread and group changed. -/
def richWith (f : Thread → Thread) : State := { rich with threads := [f richThread] }
def richAs (f : Group → Group) : State := { rich with groups := [f grp] }

theorem test_rich : rich.group? 5 = some grp ∧ rich.thread? 1 = some richThread ∧ rich.pkgMem.wf = true ∧
    (rich.teamMem.all fun e => Mem.wf e.2) = true := by decide +kernel

/-! ## Hypotheses met: one statement after another -/

theorem test_hyp_DecodeAfterEncode : encode (.add baseAdd) ≠ [] ∧ (Instr.add baseAdd).wf = true ∧
    encode (.fadd extFadd) ≠ [] ∧ (Instr.fadd extFadd).wf = true ∧ encode (.clauseHeader 4 15 0 0) ≠ [] := by decide +kernel

theorem test_hyp_EncodeAfterDecode : decode [0x07185708] = .ok (.add baseAdd) ∧ ∀ o, Instr.add baseAdd ≠ .brk o :=
  ⟨by decide, fun _ h => by cases h⟩

theorem test_hyp_StepRunsDecoded :
    let s : State := { placed with cur := none }
    s.group? 5 = some grp ∧ s.mayIssue grp = true ∧ s.firstOf grp = true ∧ grp.clause ≠ none ∧ decodeBytes (s.groupBytes grp) = .ok (.add baseAdd) := by decide +kernel

def due : State := { State.reset with invals := [⟨1, 0, none⟩] }
/-- An aperture write of function 0 on its way. -/
def posting : State := State.reset.shaftAsk noCtx (.apWrite 0) ⟨.pkg, 0x1000⟩ (.store 4) 7
def atHead : State := { State.reset.placeWords [0x0FF00004] with agenda := [] }

theorem test_hyp_TurnsFollowTheAgenda :
    State.due due = some .tlbInvalidateDone ∧ State.due { placed with cur := none } = none ∧
    State.issuer { placed with cur := none } = some grp ∧ State.reset.due = none ∧ State.reset.issuer = none ∧
    due.behindPosted .tlbInvalidateDone = false ∧ posting.behindPosted (.registerWrite 0 8 4 5) = true ∧
    State.reset.behindPosted (.registerWrite 0 8 4 5) = false ∧ Instr.registerWrite 0 8 4 5 ≠ .parkTimeout ∧
    State.reset.groups.any (·.timedOut State.reset.clock) = false ∧ 0 < Config.unitsPerCoreCycle State.reset.mhz100 ∧
    (match atHead.group? 5 with
      | some g => atHead.mayIssue g && atHead.firstOf g && g.clause.isNone &&
          (match atHead.storedHeader g with | .ok w => atHead.breakHit g || (atHead.headerParts g w).isEmpty | .error _ => false)
      | none => false) = true := by
  decide

theorem test_hyp_StepKeepsMemoryCanonical : State.reset.MemWf ∧ step State.reset = .next (State.reset.tidy (State.reset.pass 1)) := by
  refine ⟨?_, by rfl⟩
  unfold State.MemWf; decide

/-- A breakpoint at the placed instruction. -/
def broken : State := ((placed.setReg (dbg 0) 1).setReg (dbg 0x2000) (2 ^ 63 + 0x10000))

theorem test_hyp_DecodingChecksInOrder :
    broken.cur = some cur ∧ broken.group? 5 = some grp ∧ broken.breakHit grp = true ∧ placed.breakHit grp = false ∧
    Opc.illegal .perfRd { the .perfRd with a := 12 } = true ∧ Opc.illegal .perfRd { the .perfRd with a := 11 } = false ∧
    Opc.beyond .add { the .add with d := 32 } 32 = true ∧ Opc.beyond .add { the .add with d := 31 } 32 = false ∧
    Opc.transfer .bra = true ∧ ({ grp with clause := grp.clause.map fun c => { c with left := 2 } } : Group).atEnd = false := by decide +kernel

theorem test_hyp_DivideAndRemainder :
    (met .div { the .div with a := 24, b := 14 } && met .rem { the .rem with a := 24, b := 14 } && met .div (the .div)) = true ∧
    opB { the .div with a := 24, b := 14 } richThread ≠ 0 ∧ opB (the .div) richThread = 0 ∧ opB (the .rem) richThread = 0 := by decide +kernel

/-- `add.i32.sat`, in its extended form. -/
def satAdd : Op := { the .add with len := .ext, ty := .i32, mod := 4, func := 0 }

theorem test_hyp_AddWrapsOrSaturates :
    (readyAs grp placed .add satAdd && satAdd.wf .add && satAdd.sat && readyAs grp placed .add (the .add) && (the .add).wf .add &&
      !(the .add).sat) = true ∧ placed.thread? 1 = some thr ∧ satAdd.d.toNat + tyRegs satAdd.ty ≤ thr.regs.length := by decide +kernel

theorem test_hyp_LogicAndShifts_BitsAndBytes :
    ([Opc.and, .or, .xor, .andn, .not, .shl, .shr, .sar, .rol, .bfe, .bfi, .popc, .clz, .ctz, .brev, .perm, .sel].all fun k => (the k).wf k) =
      true ∧ Opc.perm.row.major = 11 := by decide +kernel

/-- The placed group unsealed. -/
def unsealed : Group := { grp with isSealed := false }
def loose : State := { placed with groups := [unsealed] }

theorem test_hyp_CrossLaneResults :
    ([Opc.shfl, .voteAny, .voteAll, .voteBallot, .voteEq, .redux, .scan, .scanEx, .quant, .dequant].all fun k =>
      metAs grp placed k (the k) thr && metAs unsealed loose k (the k) thr && readyAs grp placed k { the k with g := 0 } &&
      decide (placed.executing grp { the k with g := 0 } = [])) = true ∧ grp.isSealed = true ∧ unsealed.isSealed = false := by decide +kernel

def goesOn (o : Host.Outcome State Fault Refusal) : Bool := match o with | .next _ => true | _ => false

theorem test_hyp_ComputeFrame : (readyAs grp placed .add (the .add) && goesOn (exec (.add (the .add)) placed)) = true := by decide +kernel

theorem test_hyp_TransfersGoToTargets :
    (met .bra (the .bra) && met .call (the .call) && met .brx { the .brx with a := 22 } && met .ret { the .ret with a := 22 } &&
      met .bra { the .bra with lit := 0x42 } && met .call { the .call with lit := 0x42 } && met .brx { the .brx with a := 14 } &&
      met .ret { the .ret with a := 14 }) = true ∧
    (grp.pc + (the .bra).litFor richThread).toNat % 4 = 0 ∧ (grp.pc + ({ the .bra with lit := 0x42 } : Op).litFor richThread).toNat % 4 = 2 ∧
    (richThread.pair 22).toNat % 4 = 0 ∧ (richThread.pair 14).toNat % 4 = 1 := by decide +kernel

/-- A second thread beside the placed one, with p0 set. -/
def twin : Thread := { newThread 11 0 1 2 .birth 1 32 1 [] none with preds := [true, false, false, false, false, false, false] }
def pairGrp : Group := { grp with members := [1, 11] }
def two : State := { placed with threads := [thr, twin], groups := [pairGrp], nextId := 20 }

theorem test_hyp_TargetsSplitTheGroup :
    pairGrp ∈ two.groups ∧ (∀ h ∈ two.groups, h.gid = pairGrp.gid → h = pairGrp) ∧ pairGrp.gid < two.nextId ∧
    ∀ u ∈ pairGrp.members, two.thread? u ≠ none := by decide +kernel

theorem test_hyp_ExitEndsThreads :
    metAs grp placed .exit (the .exit) thr = true ∧ placed.deferredOf [1] = [] ∧ placed.quiet 1 = true := by decide +kernel

theorem test_hyp_YieldNopBreakTrapAssert :
    (readyAs pairGrp two .yield { the .yield with g := 1 } && readyAs pairGrp two .yield (the .yield) &&
      readyAs pairGrp two .yield { the .yield with g := 0 } && readyAs pairGrp two .trap { the .trap with g := 1 } &&
      readyAs pairGrp two .assert { the .assert with a := 7 } && readyAs pairGrp two .assert (the .assert)) = true ∧
    two.uids pairGrp { the .yield with g := 1 } = [] ∧ two.uids pairGrp (the .yield) = [1, 11] ∧
    two.uids pairGrp { the .yield with g := 0 } = [11] ∧ two.executing pairGrp (the .trap) ≠ [] ∧ thr.pred 7 = true ∧
    twin.pred 7 = true ∧ thr.pred 0 = false := by decide +kernel

/-- The placed thread with its first join register holding an enrolment. -/
def enrolled : Thread := { thr with joins := thr.joins.set 0 (some 9) }
def enrolledIn : State := { placed with threads := [enrolled] }

theorem test_hyp_EnrolJoinReformSeal :
    (metAs grp placed .enrol (the .enrol) thr && metAs grp enrolledIn .enrol (the .enrol) enrolled &&
      metAs grp enrolledIn .join (the .join) enrolled && metAs grp placed .join (the .join) thr &&
      metAs grp placed .reform (the .reform) thr && metAs grp placed .seal (the .seal) thr &&
      metAs grp enrolledIn .seal (the .seal) enrolled) = true ∧
    joinReg (the .enrol) thr = none ∧ joinReg (the .enrol) enrolled ≠ none ∧ enrolled.joins.any Option.isSome = true ∧ openJoin [thr] = [] ∧ thr.kind = .birth := by decide +kernel

def parked (hit : Bool) (deadline : Nat) : Group := { grp with wait := .park [⟨.pkg, 0x40000⟩] deadline 0 [1] hit }

theorem test_hyp_ParkWaitsForWrite :
    (met .park { the .park with a := 22, b := 24 } && met .park { the .park with a := 22, b := 0 } && yes (rich.parkLine 0 (richThread.pair 22))) =
      true ∧
    minBy (fun a b => decide (a ≤ b)) ([richThread].map fun t => (({ the .park with a := 22, b := 24 } : Op).srcB32 t).toNat) = some 256 ∧
    minBy (fun a b => decide (a ≤ b)) ([richThread].map fun t => (({ the .park with a := 22, b := 0 } : Op).srcB32 t).toNat) = some 0 ∧
    (readyAs grp rich .park { the .park with g := 0 } && decide (rich.executing grp { the .park with g := 0 } = [])) = true ∧
    rich.preempting 0 = false ∧ (richAs fun _ => parked true 9).group? 5 = some (parked true 9) ∧
    ((richAs fun _ => parked false 0).groups.filter fun h => h.timedOut rich.clock) = [parked false 0] := by decide +kernel

/-! ### Memory -/

def globals : List (Opc × Need) :=
  [(.ld, .load), (.st, .store), (.xadd, .atomic), (.xmax, .atomic), (.xmin, .atomic), (.xswp, .atomic), (.xcas, .atomic), (.xbit, .atomic)]

theorem test_hyp_GlobalAccessesIssue :
    (globals.all fun e => let o : Op := { the e.1 with a := 22 }
      met e.1 o && !rich.mustWait o [richThread] && (match rich.globalCheck 0 (o.gaddr richThread) o.size e.2 with
        | .ok r => !r.isLode && !rich.l1Bad 0 o richThread r | .error _ => false)) = true ∧
    ([((.ld : Opc), Need.load), (.st, .store)].all fun e => let o : Op := { the e.1 with a := 10 }
      met e.1 o && !rich.mustWait o [richThread] && (match rich.globalCheck 0 (o.gaddr richThread) o.size e.2 with
        | .ok r => r.isLode && !rich.l1Bad 0 o richThread r | .error _ => false)) = true := by decide +kernel

def lined : State := { rich with cores := [(0, { richCore with l1 := [{ line := 0x40000, bytes := List.replicate 256 7, rrv := 0, moment := 0 }] })] }

theorem test_hyp_GlobalLaneActs :
    rich.l1Hit 0 richThread ⟨.pkg, 0x40000⟩ 4 false = none ∧ lined.l1Hit 0 richThread ⟨.pkg, 0x40000⟩ 4 false = some [7, 7, 7, 7] := by decide +kernel

theorem test_hyp_GlobalAccessFaults :
    (globals.all fun e => let o : Op := { the e.1 with a := 14 }
      met e.1 o && !rich.mustWait o [richThread] &&
        !(accessFaults [richThread] o.gaddr fun t => rich.globalCheck 0 (o.gaddr t) o.size e.2).isEmpty) = true ∧
    (1 : DWord).toNat % 4 ≠ 0 ∧ (BitVec.ofNat 64 (2 ^ 52)).toNat % 4 = 0 ∧ 2 ^ 52 ≤ (BitVec.ofNat 64 (2 ^ 52)).toNat ∧
    (match translate rich 0 0x30008 .load with | .error _ => true | .ok _ => false) = true := by decide +kernel

theorem test_hyp_LocalLoadsAndStores :
    (met .ldt { the .ldt with a := 17 } && met .stt { the .stt with a := 17 } && met .ldd (the .ldd) && met .std (the .std)) = true ∧
    (rich.mustWait (the .ldt) [richThread] || rich.mustWait (the .stt) [richThread] || rich.mustWait (the .ldd) [richThread] ||
      rich.mustWait (the .std) [richThread]) = false ∧ rich.holdsBack 1 false = false ∧ rich.holdsBack 1 true = false ∧
    (match rich.teamPlace richThread 0xF00700 4 4 with | .ok p => !rich.poisoned p 4 | .error _ => false) = true ∧
    (match rich.diePlace 0 0 0 4 4 with | .ok p => !rich.poisoned p 4 | .error _ => false) = true ∧ rich.MemWf := by
  refine ⟨by decide, by decide, by decide, by decide, by decide, by decide, ?_⟩
  unfold State.MemWf; decide

theorem test_hyp_ConstantLoadsAndPrefetch :
    (met .ldc { the .ldc with a := 22 } && met .ldcPar (the .ldcPar) && met .pref { the .pref with a := 22 }) = true ∧
    heldBack [richThread] = false ∧ (match translate rich 0 0x10000 .load with
      | .ok x => x.cls != 2 && !rich.poisoned x.at_ 4 | .error _ => false) = true ∧
    (match rich.launchOf 2 with | some l => decide (0 + (the .ldcPar).size ≤ l.kernel.paramlen) | none => false) = true := by decide +kernel

def deep : Thread := { richThread with depth := 4 }
def brimful : Thread := { richThread with depth := rich.spillSize 0 / 4 }

theorem test_hyp_SpillStack :
    (met .spush (the .spush) && metAs grp (richWith fun _ => deep) .spop (the .spop) deep && met .spop (the .spop)) = true ∧
    rich.spillBase 0 ≠ 0 ∧ richThread.depth + (the .spush).stackCount ≤ rich.spillSize 0 / 4 ∧ heldBack [richThread] = false ∧
    heldBack [deep] = false ∧ (the .spush).stackCount = 1 ∧ (the .spop).stackCount = 1 ∧
    (match translate rich 0 (rich.stackAddr 0 0 richThread 0) .store with | .ok x => x.cls == 0 | .error _ => false) = true ∧
    (the .spop).stackCount ≤ deep.depth ∧
    (match translate (richWith fun _ => deep) 0 (State.stackAddr (richWith fun _ => deep) 0 0 deep 3) .load with
      | .ok x => x.cls == 0 && !rich.poisoned x.at_ 4 && !rich.poisoned ⟨.l1 0, x.at_.addr⟩ 4 | .error _ => false) = true ∧
    metAs grp (richWith fun _ => brimful) .spush (the .spush) brimful = true ∧ rich.spillSize 0 / 4 < brimful.depth + (the .spush).stackCount ∧
    rich.l1Hit 0 richThread ⟨.pkg, 0x40000⟩ 4 false = none ∧
    lined.l1Hit 0 richThread ⟨.pkg, 0x40000⟩ 4 false ≠ none ∧
    richThread.depth < (the .spop).stackCount := by decide +kernel

def taskThread : Thread := { richThread with kind := .task }

theorem test_hyp_FencesAndBarriers :
    (met .fence (the .fence) && met .tbar (the .tbar) && met .cbar (the .cbar) &&
      metAs grp (richWith fun _ => taskThread) .tbar (the .tbar) taskThread &&
      metAs grp (richWith fun _ => taskThread) .cbar (the .cbar) taskThread) = true ∧
    heldBack [richThread] = false ∧ heldElse [richThread] = false ∧ rich.quiet 1 = true ∧ richThread.kind = .birth ∧ richThread.tbar = none ∧ richThread.cbar = none ∧
    taskThread.kind ≠ .birth := by decide +kernel

/-! ### Barriers, tiles, counters, tasks -/

def barred : State := rich.setTxb ⟨.team 0, 0x700⟩ ⟨0, 1, 0, 1, 0, 0⟩

theorem test_hyp_TransactionBarriers :
    (met .txbInit { the .txbInit with a := 17, b := 14 } && metAs grp barred .txbArrive { the .txbArrive with a := 17, b := 24 } richThread &&
      metAs grp barred .txbExpect { the .txbExpect with a := 17, b := 24 } richThread &&
      metAs grp barred .txbWait { the .txbWait with a := 17 } richThread) = true ∧
    rich.holdsBack 1 true = false ∧ yes (rich.teamPlace richThread 0xF00700 16 16) = true ∧ (match barred.txbPlace richThread 0xF00700 with
      | .ok p => !(barred.txbAt p).bad && decide ((barred.txbAt p).arrivals = 1) && Txb.inRange ((barred.txbAt p).bytes + 256)
      | .error _ => false) = true := by decide +kernel

theorem test_hyp_TransactionBarrierObject :
    (Txb.inRange (-2 ^ 39) && Txb.inRange (2 ^ 39 - 1) && !Txb.inRange (2 ^ 39)) = true ∧
    Txb.close ⟨0xFFFF, 0, 0, 3, 0, 0⟩ = ⟨0, 3, 0, 3, 0, 0⟩ ∧ Txb.close ⟨5, 0, -1, 3, 0, 0⟩ = ⟨5, 0, -1, 3, 0, 0⟩ := by decide +kernel

theorem test_hyp_TilesAndRecords :
    (met .tileDef { the .tileDef with d := 4, a := 16, b := 24 } && met .tileSet { the .tileSet with d := 4, b := 1 } &&
      met .tileState { the .tileState with a := 4 } && met .trec { the .trec with a := 17 } && met .bstat (the .bstat)) = true ∧
    rich.mayDefine grp 4 = true ∧ yes (rich.tileRange grp richThread 0xF00600 256) = true ∧
    ((rich.tileOf grp 4).bind fun t => t.set 1).isSome = true ∧ tileSetOp { the .tileSet with d := 4, b := 1 } = 1 ∧
    (match rich.teamPlace richThread 0xF00700 64 8 with | .ok p => !rich.poisoned p 64 | .error _ => false) = true := by decide +kernel

theorem test_hyp_TasksCountersWindowsPosts :
    (met .taskPost { the .taskPost with lit := 8, b := 16 } && met .taskArm { the .taskArm with lit := 8, b := 16 } && met .cntInit (the .cntInit) &&
      met .cntAdd (the .cntAdd) && met .cntRd (the .cntRd) && met .winArm { the .winArm with a := 22, b := 24 } &&
      met .winArm { the .winArm with a := 22 } && met .post64 { the .post64 with a := 20 }) = true ∧
    yes (rich.taskEntry grp richThread { the .taskPost with lit := 8, b := 16 }) = true ∧
    (rich.postTask 0 ⟨2, 0x10008, [], 0⟩).isSome = true ∧ yes (rich.armPlace richThread 0xF00600) = true ∧
    yes (windowRanges rich 0 32769 0x10000 256) = true ∧ yes (rich.portAt 0 0x30000) = true := by decide +kernel

theorem test_hyp_CountersReadBack : (0 : Word) = 0 ∧ rich.counter 0 3 ≠ 0 ∧ (rich.core 0).pool.length + (rich.core 0).arms.length ≤ 2048 := by
  decide

/-! ### System instructions -/

theorem test_hyp_SystemInstructions :
    (met .isync (the .isync) && met .icinv { the .icinv with a := 22, b := 24 } && met .sregR (the .sregR) && met .sregW (the .sregW) &&
      met .perfRd (the .perfRd) && met .lamp (the .lamp) && met .trc (the .trc) && met .tlbInv { the .tlbInv with a := 22, b := 14 } &&
      met .tlbInvAll (the .tlbInvAll)) = true ∧ rich.unwritten 1 = [] ∧ rich.late.any (Late.recordsOf 1) = false ∧ rich.ringHeld 0 (lampRing 0) = false ∧ rich.ringHeld 0 (flueRing 0) = false := by decide +kernel

/-- A second team of the context, on core 1, and an image of core 2. -/
def saving : State :=
  { rich with teams := rich.teams ++ [{ placedTeam 12 3 4 with core := 1, index := 0 }],
              images := [{ ctx := 0, core := 2, at_ := 0, base := 0, held := true, mates := [], threads := [], groups := [], enrolments := [],
                           late := [], coreSt := {}, tiles := [], accs := [], entries := [], seams := [], waiters := [], releases := [],
                           team := [], opbuf := [], poison := [] }] }

/-- The same with core 2 resident to another context. -/
def taken : State := { saving with teams := saving.teams ++ [{ placedTeam 13 3 4 with core := 2, ctx := 1 }] }

theorem test_hyp_SaveLoadHalt :
    (metAs grp saving .ctxSave { the .ctxSave with a := 25 } richThread && metAs grp saving .ctxLoad { the .ctxLoad with a := 26, b := 26 } richThread &&
      met .halt (the .halt) && readyAs grp rich .halt { the .halt with g := 0 }) = true ∧
    saving.saveBase 0 ≠ 0 ∧ saving.ctxOnCore 1 = some 0 ∧ saving.imaged 0 1 = false ∧
    (match saving.loadable 0 2 2 with | some i => saving.canLoad i 2 && !saving.loadWaits i 2 | none => false) = true ∧
    (match saving.loadable 0 2 2 with | some i => !taken.canLoad i 2 | none => false) = true ∧
    rich.deferredOf [1] = [] ∧ rich.quiet 1 = true ∧ rich.executing grp { the .halt with g := 0 } = [] := by decide +kernel

/-! ### Bulk commands, the forge, the seam unit, the lode -/

/-- A bank window of R21 over the record's bytes. -/
def banked : State :=
  State.setReg { rich with pkgMem := richPkg ++ [(0x60001, 8), (0x60002, 1), (0x60009, 16), (0x60018, 3), (0x60019, 8)] } (hifCtx 0 0x10) 0x60000

def f32Fill : Op := { the .opresFill with len := .ext, ty := .f32, func := 1, d := 5, a := 31, b := 1 }

theorem test_hyp_BulkCommandsQueue :
    (met .bcopy { the .bcopy with a := 16, b := 17 } && met .bcopyMc { the .bcopyMc with a := 24 } && met .bzero (the .bzero) &&
      met .lodeCopy { the .lodeCopy with a := 12 } && met .opresFill f32Fill && f32Fill.wf .opresFill) = true ∧
    (yes (bcopyCmd rich { the .bcopy with a := 16, b := 17 } grp richThread) && yes (multicastCmd rich { the .bcopyMc with a := 24 } grp richThread) &&
      yes (bzeroCmd rich (the .bzero) grp richThread) && yes (lodeCopyCmd rich { the .lodeCopy with a := 12 } grp richThread) &&
      yes (fillCmd rich f32Fill grp richThread)) = true ∧
    grp.redo = none ∧ rich.queueRoom 0 0 = some none ∧ ((rich.tile? 0 5).map (·.canFill)) = some true := by decide +kernel

def breadOp : Op := { the .bread with lit := 8 }
def bwriteOp : Op := { the .bwrite with a := 16 }

theorem test_hyp_BulkCommandsQueue_bursts :
    (metAs grp banked .bread breadOp richThread && metAs grp banked .bwrite bwriteOp richThread && yes (breadCmd banked breadOp grp richThread) &&
      yes (bwriteCmd banked bwriteOp grp richThread)) = true := by decide +kernel

/-- The core's share of the reservation table and the seam queue full; and with a second thread in the group. -/
def filler : Entry :=
  { id := 60, core := 0, ctx := 0, team := 2, uid := 1, slot := 0, prio := 0, posted := 0, pc := 0, seq := 0, flag := none,
    op := .smx 1 1 0 0 1 5 0, counter := none, passes := 1, started := false, eff := 0, idle := 0, opWait := false, readyAt := none,
    rdyAt := 0, turn := 0, part := [], halted := none, flushed := 0 }
def seamFiller : SeamEntry :=
  { id := 61, core := 0, ctx := 0, team := 2, uids := [1], slot := 0, pc := 0, seq := 0, flag := none, op := .ver, counter := none,
    halted := none, began := false, done := 0, kept := [], trunc := false }
def crowded : State :=
  { rich with quads := [(0, { richQuad with entries := List.replicate 16 filler, seams := List.replicate 16 seamFiller })] }
def crowdedTwo : State := { crowded with threads := [richThread, twin], groups := [pairGrp] }
/-- The operation with a guard that the placed thread alone passes. -/
def alone (k : Opc) (o : Op) : Op := { the k with len := o.len, ty := o.ty, a := o.a, b := o.b, d := o.d, imm := o.imm, g := 0, neg := true }

def crowdedOps : List (Opc × Op) :=
  [(.accget, { the .accget with b := 31 }), (.mma, { the .mma with a := 1 }), (.mmaSp, { the .mmaSp with a := 27 }),
   (.smx, { the .smx with a := 2 }), (.accflush, { the .accflush with d := 31 }), (.accflushSt, { the .accflushSt with d := 31 }),
   (.seamHash, { the .seamHash with a := 3 }), (.seamProbe, { the .seamProbe with a := 5 }),
   (.seamProbePre, { the .seamProbePre with a := 29 }), (.seamGather, { the .seamGather with a := 4 }),
   (.seamVer, { the .seamVer with a := 6, b := 18, imm := 2 }), (.seamRehash, { the .seamRehash with a := 8, b := 14 }),
   (.seamFin, { the .seamFin with a := 8 }), (.seamPub, { the .seamPub with a := 6, b := 3 }),
   (.seamIns, { the .seamIns with a := 6, b := 30, d := 31 }), (.seamDel, { the .seamDel with a := 6, b := 30, d := 31 })]

theorem test_hyp_splits :
    (crowdedOps.all fun e => metAs grp crowded e.1 e.2 richThread && metAs pairGrp crowdedTwo e.1 (alone e.1 e.2) richThread) = true ∧
    crowded.entryRoom 0 = false ∧ crowded.seamRoom 0 = false ∧ crowdedTwo.entryRoom 0 = false ∧ crowdedTwo.seamRoom 0 = false ∧
    grp.members = [1] ∧ pairGrp.members ≠ [1] ∧ crowded.storing 1 = false ∧ (crowded.freeAccs 0).length < 32 ∧
    (grp.members.filter fun u => !(crowded.uids grp (the .seamIns)).contains u) = [] ∧
    (pairGrp.members.filter fun u => !(crowdedTwo.uids pairGrp (alone .seamIns (the .seamIns))).contains u) = [11] := by decide +kernel

theorem test_hyp_splits_forge :
    (match crowded.paramBlock richThread 0xF00100 32 with | .ok x => (mmaOf crowded grp richThread false x).isSome | .error _ => false) = true ∧
    (match crowded.paramBlock richThread 0xF00180 32 with | .ok x => (mmaOf crowded grp richThread true x).isSome | .error _ => false) = true ∧
    (match crowded.paramBlock richThread 0xF00120 32 with | .ok x => (smxOf crowded grp richThread x).isSome | .error _ => false) = true ∧
    (match crowded.slotRec 0 0 with | some r => decide (windowFault crowded 0 r = none) | none => false) = true ∧
    (match crowded.paramBlock richThread 0xF00140 32 with | .ok x => (hashOf crowded grp richThread x).isOk | .error _ => false) = true ∧
    (match crowded.paramBlock richThread 0xF00200 96 with | .ok x => yes (probeOf crowded grp richThread x false) | .error _ => false) = true ∧
    (match crowded.paramBlock richThread 0xF00280 96 with | .ok x => (probeOf crowded grp richThread x true).isOk | .error _ => false) = true ∧
    (yes (seamLane crowded { the .seamIns with a := 6, b := 30, d := 31 } grp richThread false) &&
      yes (seamLane crowded { the .seamDel with a := 6, b := 30, d := 31 } grp richThread true)) = true ∧
    crowded.fillsNow 0 4 = true ∧ crowded.fillsNow 0 5 = true ∧ yes (descAt crowded 0 0x10100 .atomic) = true ∧
    crowded.descsAway 0 0 [0x10100] = false ∧ crowded.descsAway 0 0 [0x10300] = false := by decide +kernel

/-- The placed group again at a `bzero` whose one lane had no room, with the command that was judged. -/
def again : Group := { grp with redo := some [1] }
def waitingCmd : State :=
  { rich with groups := [again], bulkWait := [(5, { newCmd .bzero ⟨0x10800, 0, 1, 4, [4, 1, 1, 1], [4, 0, 0, 0]⟩ 4 with uid := 1 })] }

theorem test_hyp_BulkCommandsQueue_again :
    metAs again waitingCmd .bzero (the .bzero) richThread = true ∧ again.redo.isSome = true ∧
    (waitingCmd.bulkWait.filter fun x => x.1 == again.gid) ≠ [] ∧
    waitingCmd.uids again (the .bzero) = (waitingCmd.bulkWait.filter fun x => x.1 == again.gid).map (·.2.uid) ∧
    waitingCmd.queueRoom 0 0 = some none ∧ heldBack [richThread] = false ∧ (waitingCmd.tile? 0 5).map (·.canFill) = some true := by decide +kernel

/-- A queued command on the record, as core 0's thread put it there. -/
def queued (op : CmdOp) (id : Nat) : Cmd :=
  { newCmd op ⟨0x10800, 0, 1, 4, [4, 1, 1, 1], [4, 0, 0, 0]⟩ 4 with id, team := 2, uid := 1, tbytes := 64 }
def queuedIn (cs : List Cmd) : State := { rich with cores := [(0, { richCore with copyq := cs })] }

theorem test_hyp_QueuedCommand :
    rich.queueRoom 0 0 = some none ∧
    (State.setReg (queuedIn [{ queued .bzero 40 with ring := some 0 }]) (hifCtx 0 0x58) 0x100000).queueRoom 0 0 = some (some 1) := by decide +kernel

def full : State := { rich with quads := [(0, { richQuad with tiles := [(8, { reservation 0 4 64 20 .f16 .ready with len := 2 ^ 20 })] })] }

theorem test_hyp_ReservationInstructions :
    (met .opres { the .opres with d := 7, a := 15 } && metAs grp full .opres { the .opres with d := 7, a := 15 } richThread &&
      met .opresTm { the .opresTm with d := 7, a := 15, b := 16 } && met .oprel { the .oprel with d := 5 }) = true ∧
    heldBack [richThread] = false ∧ richThread.rdy = 0 ∧ rich.mayDefine grp 7 = true ∧
    (match geometry .f16 0x100001 with
      | some r => decide (rich.freeRange 0 7 r.length = some 4608 ∨ (rich.freeRange 0 7 r.length).isSome) &&
          yes (rich.tileRange grp richThread 0xF00600 r.length) && decide (full.freeRange 0 7 r.length = none)
      | none => false) = true ∧ ((rich.tileOf grp 5).bind (·.res)).isSome = true := by decide +kernel

theorem test_hyp_AccumulatorInstructions :
    (met .accget (the .accget) && met .accrel { the .accrel with a := 14 } && met .accrd { the .accrd with a := 31, b := 31 } &&
      met .accwr { the .accwr with a := 31, d := 31 } && met .accrdSide { the .accrdSide with a := 31, b := 31 } &&
      met .accwrSide { the .accwrSide with a := 31, d := 31 } && met .accscale { the .accscale with d := 31 } &&
      met .accscaleNorm { the .accscaleNorm with d := 31 }) = true ∧
    richThread.acct = 0 ∧ rich.entryRoom 0 = true ∧ rich.heldAcc 0 2 0 ≠ none ∧ richThread.reg 31 = 0 ∧ rich.poison = [] ∧
    (the .accrd).accCount ≤ 16384 ∧ elemOf { the .accrd with a := 31 } richThread = 0 := by decide +kernel

theorem test_hyp_ForgeInstructionsPost :
    (met .mma { the .mma with a := 1 } && met .mmaSp { the .mmaSp with a := 27 } && met .smx { the .smx with a := 2 } &&
      met .accflush { the .accflush with d := 31 } && met .accflushSt { the .accflushSt with d := 31 } && met .forgeRdy (the .forgeRdy)) = true ∧
    (match rich.paramBlock richThread 0xF00100 32 with | .ok x => (mmaOf rich grp richThread false x).isSome | .error _ => false) = true ∧
    (match rich.paramBlock richThread 0xF00180 32 with | .ok x => (mmaOf rich grp richThread true x).isSome | .error _ => false) = true ∧
    (match rich.paramBlock richThread 0xF00120 32 with | .ok x => (smxOf rich grp richThread x).isSome | .error _ => false) = true ∧
    (match rich.slotRec 0 0 with | some r => decide (r.es = 4 ∧ r.ext = [1, 1, 1, 1] ∧ windowFault rich 0 r = none) | none => false) = true ∧
    rich.entryRoom 0 = true := by decide +kernel

theorem test_hyp_SeamLookups :
    (met .seamFam { the .seamFam with a := 1, b := 15 } && met .seamHash { the .seamHash with a := 3 } && met .seamProbe { the .seamProbe with a := 5 } &&
      met .seamProbePre { the .seamProbePre with a := 29 } && met .seamGather { the .seamGather with a := 4 }) = true ∧
    rich.storing 1 = false ∧ rich.seamRoom 0 = true ∧
    (match rich.resOf grp 1 with | some (x, r) => x.opbuf && decide (r.fmt = .f16 ∧ 16 ≤ r.rows * r.rowlen) | none => false) = true ∧
    (match rich.paramBlock richThread 0xF00140 32 with | .ok x => yes (hashOf rich grp richThread x) && !rich.descsAway 0 0 [BitVec.ofNat 64 (fieldAt x 0 8)] | .error _ => false) = true ∧
    (match rich.paramBlock richThread 0xF00200 96 with | .ok x => yes (probeOf rich grp richThread x false) && !rich.descsAway 0 0 (probeDescs x) | .error _ => false) = true ∧
    (match rich.paramBlock richThread 0xF00280 96 with | .ok x => yes (probeOf rich grp richThread x true) && !rich.descsAway 0 0 (probeDescs x) | .error _ => false) = true ∧
    rich.fillsNow 0 4 = true ∧ rich.fillsNow 0 5 = true := by decide +kernel

theorem test_hyp_SeamLookups_gather :
    (match rich.paramBlock richThread 0xF00160 32 with
      | .ok x => decide (fieldAt x 8 1 = 3 ∧ fieldAt x 9 1 = 5 ∧ bits (fieldAt x 0xC 4) 31 10 = 0 ∧ fieldAt x 0x10 16 = 0) &&
          !rich.descsAway 0 0 [BitVec.ofNat 64 (fieldAt x 0 8)] &&
          (match descAt rich 0 (BitVec.ofNat 64 (fieldAt x 0 8)) .load, rich.resOf grp 5 with
            | .ok (_, _, d), some (_, r) => decide (d.dim ≤ r.rowlen ∧ fieldAt x 0xA 2 < r.rows) | _, _ => false)
      | .error _ => false) = true ∧ (rich.tileOf grp 3).isSome = true := by decide +kernel

theorem test_hyp_SeamUpdates :
    (met .seamIns { the .seamIns with a := 6, b := 30, d := 31 } && met .seamDel { the .seamDel with a := 6, b := 30, d := 31 } &&
      met .seamVer { the .seamVer with a := 6, b := 18, imm := 2 } && met .seamRehash { the .seamRehash with a := 8, b := 14 } &&
      met .seamFin { the .seamFin with a := 8 } && met .seamPub { the .seamPub with a := 6, b := 3 }) = true ∧
    (yes (seamLane rich { the .seamIns with a := 6, b := 30, d := 31 } grp richThread false) &&
      yes (seamLane rich { the .seamDel with a := 6, b := 30, d := 31 } grp richThread true)) = true ∧
    (match descAt rich 0 0x10100 .atomic, rich.family 0 0 with
      | .ok (_, _, d), some f => decide (d.mig = false ∧ 2 ≤ f.p ∧ f.d = d.dim ∧ d.master ≠ 0) | _, _ => false) = true ∧
    (match descAt rich 0 0x10300 .atomic with
      | .ok (_, _, d) => decide (d.mig = true ∧ d.cursor = 2 ^ d.now.log2b) && yes (firstOf (versionFaults rich 0 d 0x10300 d.versions)) && yes (firstOf (versionFaults rich 0 d 0x10300 [d.now]))
      | .error _ => false) = true ∧ (rich.tileOf grp 3).isSome = true ∧ richThread.pair 18 = 0x11000 ∧
    rich.descsAway 0 0 [0x10100] = false ∧ rich.descsAway 0 0 [0x10300] = false := by decide +kernel

theorem test_hyp_SeamFenceAndScan :
    (met .seamFencePkg (the .seamFencePkg) && met .seamFencePod (the .seamFencePod) &&
      met .nzscan { the .nzscan with a := 13, b := 14, imm := 4 }) = true ∧
    elected [richThread] = some richThread ∧ grp.isSealed = true ∧ heldBack [richThread] = false ∧
    (match rich.teamPlace richThread 0xF00500 4 4 with | .ok p => !rich.poisoned p 4 | .error _ => false) = true ∧
    ((rich.tileOf grp 4).map fun t => t.canFill && decide (8 ≤ t.len)) = some true := by decide +kernel

def lodeReq (gid region : Nat) : LodeReq :=
  { op := 50, ctx := 0, core := 0, gid, uid := 1, team := 2, flag := none, region, va := 0x20000, kind := .load 0 .w32 false false, pc := 0x10000, seq := 0,
    slot := 0, refused := none, halted := none }

theorem test_hyp_LodeInstructionsAndWalker :
    (met .lodeNext { the .lodeNext with a := 30, b := 10 } && met .lodeCount { the .lodeCount with a := 12 } &&
      met .lodeGrow { the .lodeGrow with a := 10, b := 14 } && met .lodeTrim { the .lodeTrim with a := 10, b := 14 }) = true ∧
    met .lodeGrow { the .lodeGrow with a := 10, b := 0 } = true ∧ ({ the .lodeGrow with b := 0 } : Op).srcB32 richThread = 0 ∧
    ({ the .lodeGrow with b := 14 } : Op).srcB32 richThread ≠ 0 ∧ rich.laneHeld (lodeReq 5 0x50000) = false ∧
    (match regionAt rich 0x50000 with
      | some r => yes (lodeLoad rich 0 r 0) && yes (lodeStore rich 0 r 0 0 0x20000)
      | none => false) = true ∧
    -1 ≤ richThread.signedPair 30 ∧ yes (regionOf rich 0 0x20000 .load) = true ∧ yes (rich.boxOf 0 richThread 0xF00340) = true ∧
    (match poolCheck rich 0 0x20000 with | .ok (_, r, n) => decide (n + 1 ≤ r.poolmax) | .error _ => false) = true ∧
    (regionAt rich 0x50000).isSome = true ∧ regionAt rich 0x51000 = none ∧
    ([lodeReq 5 0x50000].find? fun x => x.op == 50 && x.refused.isNone && x.halted.isNone) = some (lodeReq 5 0x50000) ∧
    [lodeReq 5 0x50000].takeWhile (fun x => x.op != 50) = [] ∧
    (match regionRead rich 0x50000 with | .ok _ => true | .error _ => false) = true ∧
    (match regionRead rich 0x51000 with | .ok _ => true | .error _ => false) = false ∧
    (match regionAt rich 0x50000 with | some r => rich.allPass 0 (some 0) ((nodePlaces rich 0 (lodeVas rich (lodeReq 5 0x50000) r)).map fun p => (p, 256)) && !rich.tablesWait 0 | none => false) = true := by decide +kernel

/-! ### Clauses -/

/-- The placed group at a clause boundary, and at its header. -/
def headed (pc : DWord) : Group := { grp with clause := none, pc }
def begun (mask : Nat) : Group := { grp with wait := .header mask }
def flagged : Thread := { richThread with flags := richThread.flags.set 0 1 }

theorem test_hyp_ClausesAndAges :
    (richAs fun _ => headed 0x10000).group? 5 = some (headed 0x10000) ∧ (richAs fun _ => headed 0x10000).breakHit (headed 0x10000) = false ∧
    yes ((richAs fun _ => headed 0x10000).fetchClause (headed 0x10000) 0x0FF00004 1) = true ∧
    (richAs fun _ => headed 0x10000).fetchParts (headed 0x10000) 0x0FF00004 1 = [] ∧
    yes ((richAs fun _ => headed 0x1FFFC).fetchClause (headed 0x1FFFC) 0x0FF00004 1) = false ∧
    (richAs fun _ => begun 0).group? 5 = some (begun 0) ∧ rich.ctxStopped 0 = false ∧ rich.deferredOn (begun 1) 1 = [] ∧
    (grp.clause.map fun c => decide ((c.set1 < 12 ∨ c.set1 = 15) ∧ (c.set2 < 12 ∨ c.set2 = 15))) = some true ∧
    (richAs fun _ => begun 0).flagsClear (begun 0) 0 = true ∧ (richWith fun _ => flagged).flagsClear (begun 1) 1 = false := by decide +kernel

/-- At its header, a group with a deferred fault on the flag that the header names; one whose SET1 is 13. -/
def deferring : State := { richAs fun _ => begun 1 with fabric := { deferred := [⟨1, .fabricTimeout, 0x40000, 0x10000, 3, some 0⟩] } }
def setting : Group := { begun 0 with clause := grp.clause.map fun c => { c with set1 := 13 } }

theorem test_hyp_ClausesAndAges_header :
    deferring.group? 5 = some (begun 1) ∧ deferring.deferredOn (begun 1) 1 ≠ [] ∧ deferring.ctxStopped 0 = false ∧
    (richAs fun _ => setting).group? 5 = some setting ∧ setting.clause.map (·.set1) = some 13 ∧ (richAs fun _ => setting).ctxStopped 0 = false ∧
    (richAs fun _ => setting).deferredOn setting 0 = [] ∧ (richAs fun _ => setting).flagsClear setting 0 = true := by decide +kernel

/-- Two threads at one clause whose launches patch its first word to two instructions. -/
def patched (lid : Nat) (w : Word) : Launch :=
  { placedLaunch lid with kernel := { placedKernel with patches := [(8, 0, 4)] }, params := bytesOfWord w ++ [0, 0, 0, 0] }
def partedGrp : Group := { pairGrp with clause := none }
def parted : State :=
  { two with threads := [thr, { twin with team := 12 }], teams := placed.teams ++ [placedTeam 12 13 14], groups := [partedGrp]
             launches := [patched 3 0x07185708, patched 13 0x07195708] }

theorem test_hyp_ClausesAndAges_parts :
    parted.group? 5 = some partedGrp ∧ parted.breakHit partedGrp = false ∧ yes (parted.fetchClause partedGrp 0x0FF00004 1) = true ∧
    parted.fetchParts partedGrp 0x0FF00004 1 = [[1], [11]] := by decide +kernel

/-- The same with the header itself patched; and a park whose timeout has come while nothing may issue. -/
def headParted : State :=
  { parted with launches := parted.launches.map fun l => { l with kernel := { l.kernel with patches := [(8, 0, 0)] } } }
def overdue : State := { placed with groups := [parked false 0], cur := none }

theorem test_hyp_TurnsFollowTheAgenda_more :
    headParted.mayIssue partedGrp = true ∧ headParted.firstOf partedGrp = true ∧ headParted.breakHit partedGrp = false ∧
    (match headParted.storedHeader partedGrp with | .ok w => !(headParted.headerParts partedGrp w).isEmpty | .error _ => false) = true ∧
    overdue.due = none ∧ overdue.issuer = none ∧ overdue.groups.any (·.timedOut overdue.clock) = true := by decide +kernel

def aging : State := { placed with clock := 1024, cur := none }
def binned : State := { rich with clock := 300, cores := [(0, { richCore with bins := [{ key := 0x10000, ctx := 0, since := 0, threads := [1] }], overflow := [⟨1, 0x10000, 0, 0⟩] })] }

theorem test_hyp_ClausesAndAges_ages :
    (aging.groups.find? fun h => aging.isReady h && !h.aged && decide (1024 ≤ aging.clock - h.ready)) = some grp ∧
    (binned.cores.findSome? fun e => (e.2.bins.find? fun b => decide (e.2.binage ≤ binned.clock - b.since)).map fun b => (e.1, b)) =
      some (0, { key := 0x10000, ctx := 0, since := 0, threads := [1] }) ∧
    (binned.cores.findSome? fun e => e.2.overflow.head?.bind fun f => if e.2.binage ≤ binned.clock - f.at_ then some (e.1, f) else none) =
      some (0, ⟨1, 0x10000, 0, 0⟩) := by decide +kernel

/-! ### The fabric and the engines -/

def request : Req :=
  { ctx := 0, addr := ⟨.pkg, 0x40000⟩, op := .add .w32, opnd := 1, rank := 0, port := 0, back := .owner 7, threads := [1], ready := 0 }
def waiting (o : Owner) (deadline : Option Nat) : Pending :=
  { id := 7, owner := o, core := 0, slot := 0, dreg := some 0, ty := .w32, flag := none, pc := 0x10000, seq := 0, va := 0x10000,
    at_ := ⟨.pkg, 0x40000⟩, op := .add .w32, bytes := [], deadline, alloc := none, acquire := false, empties := false, done := false }
def reply (to_ : Back) (fatal : Bool) : Reply := { to_, value := 5, line := [], fatal }
def sump : Sump :=
  { id := 9, stage := .landing 0, op := .add .w32, parts := [(.owner 7, 1, 0), (.owner 8, 2, 1)], since := 0, bad := false }
def carrying : State :=
  { placed with fabric := { arrivals := [(.landing 0, request)], queues := [(.collar 0, request)], homes := [(0, request)],
                            sumps := [sump], replies := [reply (.entry 9) false, reply (.owner 7) false], pending := [waiting (.thread 1) (some 0)] } }

theorem test_hyp_FabricCarriesRequests :
    (carrying.fabric.arrivals.filter fun a => a.1 == .landing 0) = [(.landing 0, request)] ∧ carrying.leaver (.collar 0) = some request ∧
    carrying.fabric.homes = [(0, request)] ∧ carrying.tests = [] ∧
    carrying.poisoned request.addr request.op.size = false ∧
    (carrying.fabric.replies.find? fun r => r.to_ == .entry sump.id) = some (reply (.entry 9) false) ∧
    (carrying.fabric.sumps.find? fun x => x.id == sump.id && x.stage == .landing 0) = some sump ∧
    (carrying.fabric.replies.find? fun r => r.to_ == .owner 7) = some (reply (.owner 7) false) ∧
    (carrying.fabric.pending.find? fun x => x.id == 7) = some (waiting (.thread 1) (some 0)) ∧
    (waiting (.shaft (.claim 3)) none).owner = .shaft (.claim 3) ∧ carrying.shaftWaits (.claim 3) = false ∧
    carrying.fabric.pending.find? carrying.overdue = some (waiting (.thread 1) (some 0)) ∧
    carrying.fabric.queues = [] ++ (.collar 0, request) :: [] := by decide +kernel

/-- A record that stands aside for a request, and one whose request is done. -/
def recorded : State := { placed with late := [.record 1 0 false [7] [0]] }

theorem test_hyp_SystemInstructions_records :
    carrying.unwritten 1 = [7] ∧ recorded.late = [.record 1 0 false [7] [0]] ∧ recorded.fabric.pending = [] ∧ recorded.lodes = [] ∧
    recorded.ringHeld 0 (lampRing 0) = false := by decide +kernel

/-- A thread held back; one whose atomic stands in its core's store buffer. -/
def heldThread : Thread := { richThread with holds := 1 }
def buffering : State :=
  { rich with fabric := { arrivals := [(.collar 0, request)], pending := [{ waiting (.thread 1) none with op := .add .w32 }] } }

theorem test_hyp_GlobalAccessesIssue_held :
    (globals.all fun e => metAs grp (richWith fun _ => heldThread) e.1 { the e.1 with a := 22 } heldThread &&
      (richWith fun _ => heldThread).mustWait { the e.1 with a := 22 } [heldThread]) = true := by decide +kernel

theorem test_hyp_LocalLoadsAndStores_waits :
    (metAs grp buffering .ldt { the .ldt with a := 17 } richThread && metAs grp buffering .ldd (the .ldd) richThread &&
      metAs grp buffering .stt { the .stt with a := 17 } richThread && metAs grp buffering .std (the .std) richThread) = true ∧
    buffering.holdsBack 1 false = true ∧ buffering.holdsBack 1 true = true := by decide +kernel

theorem test_hyp_ExitEndsThreads_waits :
    metAs grp carrying .exit (the .exit) thr = true ∧ carrying.deferredOf [1] = [] ∧ carrying.quiet 1 = false := by decide +kernel

/-- Two requests of one word at a landing, of which the second merges; and one whose key is another. -/
def beside : Req := { request with back := .owner 8, threads := [2], rank := 1, port := 1 }

theorem test_hyp_FabricCarriesRequests_merge :
    let f : Fabric := { queues := [(.landing 0, request)] }
    (f.queues.filter fun q => q.1 == .landing 0 && q.2.meets beside).getLast? = some (.landing 0, request) ∧ beside.ctx = request.ctx ∧
    beside.addr = request.addr ∧ beside.op.key ≠ none ∧ beside.op.key = request.op.key ∧ beside.plain = false ∧ request.plain = false ∧
    request.passed = false ∧ (f.sumps.filter fun p => p.stage == .landing 0).length < 16 ∧ isCollar (.landing 0) = false ∧
    (ReqOp.swap 4).key ≠ request.op.key := by decide +kernel

/-- The placed thread with a fault of an earlier request waiting for it (R63, R274). -/
def faultWaits : State :=
  { placed with fabric := { placed.fabric with deferred := [⟨1, .fabricTimeout, 0x40000, 0x10000, 3, none⟩] } }

theorem test_hyp_ExitEndsThreads_deferred :
    metAs grp faultWaits .exit (the .exit) thr = true ∧ faultWaits.deferredOf (faultWaits.uids grp (the .exit)) ≠ [] := by decide +kernel

/-- Every live member of an enrolment at its `join`; one member elsewhere; a pack at its `seal`; and one not there. -/
def joining : State := { placed with threads := [enrolled], groups := [{ grp with wait := .join 0 }], enrolments := [⟨9, [1], [1], 5, true, false⟩] }
def sealingPack : State := { placed with groups := [{ grp with wait := .seal }] }

theorem test_hyp_EnrolJoinReformSeal_settle :
    joining.joiningAt enrolled = some 9 ∧ enrolledIn.joiningAt enrolled ≠ some 9 ∧
    joining.groups.filter (fun h => [enrolled].any fun t => h.members.contains t.uid) = [{ grp with wait := .join 0 }] ∧
    sealingPack.threads.filter (fun t => t.team == 2 && t.kind == .birth && t.tid / 128 == 0) = [thr] ∧ sealingPack.sealing thr = true ∧
    sealingPack.groups.filter (fun h => [thr].any fun t => h.members.contains t.uid) = [{ grp with wait := .seal }] ∧
    placed.sealing thr = false := by decide +kernel

/-- The one thread of its team at `tbar` and at `cbar`. -/
def stepArmed (s : State) : State := (s.setReg (dbg 0) 1).setReg (stepReg 0) (2 ^ 63)
def arrivedAll : State := { placed with threads := [{ thr with tbar := some none, cbar := some none }] }

theorem test_hyp_FencesAndBarriers_settle :
    arrivedAll.team? 2 = some (placedTeam 2 3 4) ∧ arrivedAll.stepped (placedTeam 2 3 4) = false ∧ (placedTeam 2 3 4).saved = false ∧
    (arrivedAll.threads.filter fun x => x.team == 2 && x.kind == .birth) = [{ thr with tbar := some none, cbar := some none }] ∧
    (placedTeam 2 3 4).stepState ≠ some true ∧ State.stepped (stepArmed arrivedAll) (placedTeam 2 3 4) = true ∧
    (stepArmed arrivedAll).team? 2 = some (placedTeam 2 3 4) ∧
    (arrivedAll.teams.filter fun t => t.cluster == 4) = [placedTeam 2 3 4] ∧ placed.team? 2 = some (placedTeam 2 3 4) ∧ thr.tbar = none ∧
    thr.cbar = none := by decide +kernel

/-- One thread that waits for accumulator tiles of quad 0, with so many free as it wants or with fewer. -/
def awaits (n : Nat) : Waiter := ⟨1, 5, 0, 2, 0, 0, 0, n, 14, 7, none⟩
def awaitsIn (n : Nat) : State := rich.setQuad 0 { rich.quad 0 with waiters := [awaits n] }

theorem test_hyp_AccumulatorInstructions_waiters :
    ([8, 32].all fun n => decide (sortBy Waiter.le ((awaitsIn n).quad 0).waiters = [awaits n])) = true ∧
    (awaits 8).want ≤ ((awaitsIn 8).freeAccs 0).length ∧ ((awaitsIn 32).freeAccs 0).length < (awaits 32).want := by decide +kernel

/-- No channel is under test in it, whichever channel holds the line. -/
theorem test_hyp_FabricCarriesRequests_home : carrying.nextAtHome 0 [] carrying.fabric.homes = some (0, request) := by
  have h : carrying.tests = [] := by decide +kernel
  have hh : carrying.fabric.homes = [(0, request)] := by decide +kernel
  simp [State.nextAtHome, State.channelWait, State.underTest, h, hh]

theorem test_hyp_MergesAreSerial : (∃ t ∈ [Ty.w32, .w64, .i32, .i64], ReqOp.add .w32 = .add t ∨ ReqOp.add .w32 = .max t ∨ ReqOp.add .w32 = .min t) ∧
    (∃ n, ReqOp.load 4 = .load n ∨ ReqOp.load 4 = .swap n) ∧ ([1, 2] : List DWord) ≠ [] ∧ ([1, 2] : List DWord) = 1 :: 2 :: [] :=
  ⟨⟨.w32, by decide, .inl rfl⟩, ⟨4, .inl rfl⟩, by decide, rfl⟩

def moving : State := queuedIn [queued (.toLocal ⟨.team 0, 0x800⟩) 40]
def bursting (op : CmdOp) : State := queuedIn [queued op 40]
def reading : CmdOp := .bread 0x10008 0 128 0x10800 0 1
def landed : Cmd := { queued .bzero 40 with todo := [], localDone := true }

theorem test_hyp_EnginesWork :
    (match moving.cmd? 0 40 with
      | some c => !c.op.isBurst && moving.mayMove c && inTodo 0 2 c.todo && c.halted.isNone && c.runWhole moving 0 2 && c.mayTravel moving 0 2 &&
          !moving.blocked c (List.range 2) && (c.stuck moving (c.leftBefore 0 ++ List.range 2)).isNone
      | none => false) = true ∧
    (match (bursting reading).cmd? 0 40 with
      | some c => (bursting reading).mayMove c && inTodo 0 1 c.todo && decide (c.op = reading) && !(bursting reading).timedOutAtHost c 0 &&
          !(bursting reading).teamHalted c && (bursting reading).atHost c 0 && ((bursting reading).hostPlaces 0 (c.record.burst 128 0).1 (c.record.burst 128 0).2.1 0x10800 0 1).isSome
      | none => false) = true ∧
    ((bursting reading).team? 2).map (·.halted) = some false ∧ ((bursting reading).core 0).staging.length < 256 ∧
    (queuedIn [landed]).cmd? 0 40 = some landed ∧
    (queuedIn [{ landed with op := reading }]).cmd? 0 40 = some { landed with op := reading } ∧ (queuedIn [landed]).tileWaits landed = false ∧
    (match (queuedIn [{ landed with op := .multicast [], localDone := false }]).cmd? 0 40 with
      | some c => decide (c.op = .multicast [] ∧ c.localDone = false ∧ c.fetches rich c.left = [] ∧ c.stuck rich c.left = none)
      | none => false) = true ∧
    (queuedIn [{ landed with localDone := false }]).cmd? 0 40 = some { landed with localDone := false } ∧
    CmdOp.bzero.landsLocal = false ∧ (queuedIn [landed]).bulkAway 40 = false ∧ (rich.tile? 0 5).isSome = true := by decide +kernel

def spilled : State := (queuedIn [{ queued .bzero 40 with ring := some 0 }]).setReg (hifCtx 0 0x58) 0x100000
def posted : State :=
  match rich.post grp richThread (.smx 1 1 0 0 1 5 0) none 1 with | .done s => s | _ => rich
def probing : State := rich.queueSeam grp richThread [1] .ver none

theorem test_hyp_EnginesWork_units :
    (spilled.ringFails 0).isSome = true ∧
    (spilled.core 0).ringStop = none ∧ (rich.quad 0).pass = none ∧
    (State.quad { rich with quads := [(0, { richQuad with pass := some (7, 0) })] } 0).pass = some (7, 0) ∧
    ((probing.quad 0).seams.head?.map fun e => probing.seamMay 0 e) = some true ∧
    ((State.quads { posted with clock := 100000 }).flatMap fun x => (x.2.entries.filter fun e =>
        decide (e.eff < 3) && decide (e.idle + bits (posted.reg (ons 4)) 15 0 ≤ 100000) && posted.eligible x.1 e).map fun e => (x.1, e.id)) ≠ [] := by
  decide +kernel

/-! ### Queues -/

/-- A packet at the head of queue 1 of context 0, whose ring is in host memory; the page holds a kernel header, a FENCE entry and a grid. -/
def offering (ws : List Word) : State :=
  State.putBytes { (placed.setReg (hifQ 0 1 8) (2 ^ 31)).setReg (hifQ 0 1 0x14) 1 with
    queues := [(1, ⟨0x30000, 6, false⟩)],
    pkgMem := [(0x10000, 3), (0x10002, 2), (0x20000, 3), (0x20002, 3), (0x30008, 57), (0x3000A, 4), (0x40000, 0x31), (0x40001, 0x44),
      (0x40002, 0x48), (0x40003, 0x4B), (0x40004, 1), (0x40009, 1), (0x4000C, 4), (0x40010, 1), (0x40012, 1), (0x40014, 1), (0x40016, 8),
      (0x40018, 1), (0x40019, 1), (0x40401, 5), (0x40402, 1)] } ⟨.host, 0x30000⟩ (ws.flatMap bytesOfWord)

def packet (type arg : Word) (rest : List Word) : List Word := type :: arg :: 0 :: 0 :: rest ++ List.replicate (12 - rest.length) 0

def accepted (ws : List Word) : Bool :=
  decide ((offering ws).head 0 1 = some (.packet ws)) && (offering ws).typeGood 0 1 (pktType ws) && (offering ws).placeFree &&
  yes (packetCheck (offering ws) 0 1 ws) && !dimsWanted (offering ws) 0 1 ws

def header : List Byte :=
  [0x31, 0x44, 0x48, 0x4B, 1, 0, 0, 0, 0, 1, 0, 0, 4, 0, 0, 0, 1, 0, 1, 0, 1, 0, 8, 0, 1, 1] ++ List.replicate 230 0
def launchWords : List Word := packet 1 0 [0x10000, 0, 0, 0, 1, 1, 1]

theorem test_hyp_PacketsBegin_launch :
    (offering launchWords).head 0 1 = some (.packet launchWords) ∧ (offering launchWords).typeGood 0 1 1 = true ∧
    (offering launchWords).placeFree = true ∧ dimsWanted (offering launchWords) 0 1 launchWords = false ∧ yes (packetCheck (offering launchWords) 0 1 launchWords) = true := by
  have h : readVa (offering launchWords) 0 0x10000 256 = header := by decide +kernel
  have e : pktNat launchWords 0x10 8 = 0x10000 := by decide
  refine ⟨by decide +kernel, by decide, by decide, by decide, ?_⟩
  simp only [packetCheck, launchCheck, kernelCheck, e, h]; decide +kernel

theorem test_hyp_PacketsBegin :
    ([packet 3 1 [0x10400], packet 4 0 [0x10500],
      packet 4 1 [0x10500], packet 5 0 [], packet 5 0x10000 [], packet 6 0 [], packet 6 0x100 [], packet 7 0 [0x10500],
      packet 8 0 [0, 0, 1]].all accepted) = true := by decide +kernel

/-- A LAUNCH_IND whose three words at DIMADDR are asked for. -/
def indirect : List Word := packet 2 0 [0x10000, 0, 0, 0, 0x10500]

theorem test_hyp_PacketsBegin_dims :
    (offering indirect).head 0 1 = some (.packet indirect) ∧ (offering indirect).typeGood 0 1 2 = true ∧ (offering indirect).placeFree = true ∧
    dimsWanted (offering indirect) 0 1 indirect = true := by
  have h : readVa (offering indirect) 0 0x10000 256 = header := by decide +kernel
  have e : pktNat indirect 0x10 8 = 0x10000 := by decide
  refine ⟨by decide +kernel, by decide, by decide, ?_⟩
  simp only [dimsWanted, kernelCheck, e, h]; decide +kernel

/-- The same once the three words have come. -/
def answered : State := { offering indirect with dims := [(1, [some 1, some 1, some 1])] }

theorem test_hyp_PacketsBegin_indirect :
    answered.head 0 1 = some (.packet indirect) ∧ answered.typeGood 0 1 2 = true ∧ answered.placeFree = true ∧
    dimsWanted answered 0 1 indirect = false ∧ yes (packetCheck answered 0 1 indirect) = true := by
  have h : readVa answered 0 0x10000 256 = header := by decide +kernel
  have e : pktNat indirect 0x10 8 = 0x10000 := by decide
  refine ⟨by decide +kernel, by decide, by decide, by decide, ?_⟩
  simp only [packetCheck, launchCheck, kernelCheck, e, h]; decide +kernel

theorem test_hyp_PacketsBegin_refused :
    ([packet 1 0 [0x10100], packet 2 0 [1], packet 3 0 [], packet 4 0 [1], packet 4 1 [1], packet 5 1 [], packet 5 0x10001 [], packet 6 0x200 [],
      packet 6 0x100 [1], packet 7 0 [0], packet 8 0 []].all fun ws =>
      decide ((offering ws).head 0 1 = some (.packet ws)) && (offering ws).typeGood 0 1 (pktType ws) && !yes (packetCheck (offering ws) 0 1 ws) && !dimsWanted (offering ws) 0 1 ws) =
      true ∧
    (offering (packet 9 0 [])).head 0 1 = some (.packet (packet 9 0 [])) ∧ (offering (packet 9 0 [])).typeGood 0 1 9 = false := by
  decide +kernel

def pkt (type phase : Nat) (sig : DWord) (complete : Bool) : Pkt :=
  { pid := 60, ctx := 0, q := 1, num := 0, type, scope := 0, irq := false, sigaddr := sig, body := [], entries := [], launch := none, met := [],
    asked := [], complete, phase, reread := 0, install := none }
def pending (p : Pkt) : State := { offering [] with pkts := [p] }

theorem test_hyp_QueuesAdvance :
    ((pending (pkt 3 3 0 false)).pktsOf 0 1).find? (fun p => p.type == 3 && !p.complete) = some (pkt 3 3 0 false) ∧
    (pending (pkt 4 3 0x10500 true)).acting 0 1 = some (pkt 4 3 0x10500 true) ∧ (pending (pkt 4 3 0 true)).acting 0 1 = some (pkt 4 3 0 true) ∧
    (pending (pkt 4 5 0 true)).acting 0 1 = some (pkt 4 5 0 true) ∧ (offering []).queue? 0 1 = some ⟨0x30000, 6, false⟩ ∧
    bitAt ((offering []).reg (hifQ 0 1 8)) 31 = true ∧ (64 + 2 ^ 32 - (offering []).reg (hifQ 0 1 0x10)) % 2 ^ 32 ≤ 2 ^ 6 ∧
    2 ^ 6 < (65 + 2 ^ 32 - (offering []).reg (hifQ 0 1 0x10)) % 2 ^ 32 ∧ bitAt (State.reset.reg (hifQ 0 1 8)) 31 = false ∧ (offering []).linkUp = true := by decide +kernel

/-! ### The host's registers, faults and debug -/

/-- Context 1 given to function 1 with its window open on the placed page. -/
def shared : State :=
  (((rich.setReg (hifCtx 1 0) (2 ^ 31 + 2 ^ 20)).setReg (hifCtx 1 8) 0x10000).setReg (hifCtx 1 0x78) 1)

theorem test_hyp_HostWritesRegisters :
    State.reset.ctxOn 5 = false ∧ State.reset.linkUp = true ∧ State.reset.booted = true ∧ placed.ctxOn 0 = true ∧
    headOk 0 5 5 = true ∧ headOk 0 5 6 = false ∧ due.invals = [⟨1, 0, none⟩] ∧ due.accessesDone 0 = true ∧
    placed.running 0 = true ∧ placed.running 1 = false ∧
    State.reset.apertureWaits 0 = false ∧ posting.apertureWaits 0 = true ∧ yes (State.reset.aperture 0 2 .load) = false ∧
    3 ≠ widthAt (State.reset.access 0 0).1 (State.reset.access 0 0).2 ∧ shared.vfContext (shared.ctxFunc 1) = some 1 := by decide +kernel

/-- No pseudo-channel is fenced, whichever holds the line. -/
theorem not_fenced (s : State) (h : ((List.range 512).all fun i => !s.fenced ⟨.pch, i⟩) = true) (i : Nat) : s.fenced ⟨.pch, i⟩ = false := by
  by_cases hi : i < 512
  · simpa using List.all_eq_true.mp h i (List.mem_range.mpr hi)
  · simp [State.fenced, fenceBit, hi]

theorem test_hyp_HostWritesRegisters_aperture :
    State.reset.aperture 0 0x1000 .store = .ok (⟨.pkg, 0x1000⟩, none) ∧ State.reset.aperture 0 0x1000 .load = .ok (⟨.pkg, 0x1000⟩, none) ∧
    State.reset.poisoned ⟨.pkg, 0x1000⟩ 4 = false := by
  have h := not_fenced State.reset (by decide +kernel)
  refine ⟨?_, ?_, by decide⟩ <;>
    simp [State.aperture, State.lost, h, show State.reset.linkUp = true from rfl, show State.reset.reg 0x10 = 0 by decide, bits, bitAt]

theorem test_hyp_HostWritesRegisters_window : shared.aperture 1 0x10000 .store = .ok (⟨.pkg, 0x40000⟩, some 1) := by
  have h := not_fenced shared (by decide +kernel)
  have hv : shared.vfContext 1 = some 1 := by decide +kernel
  have ht : translate shared 1 (BitVec.ofNat 64 (bits (shared.reg (hifCtx 1 0x78)) 51 28 * 268435456 + 65536)) .store =
      .ok ⟨0, ⟨.pkg, 0x40000⟩⟩ := by decide +kernel
  simp [State.aperture, State.lost, h, hv, ht, show shared.linkUp = true from rfl]

def record (stop : Nat) (seq : Option Word) : FRec :=
  { rid := 70, stop, ctx := 0, seq, isLast := true, burst := false, isAsync := false, queue := 0xFF, code := 1, addr := 0, pc := 0x10000,
    cmdseq := 0, core := 0, threads := 1, slot := 0, stamp := 0, named := [1], acted := none, outstanding := true }
def faulted (r : FRec) : State := State.setReg { placed with records := [r] } (hifCtx 0 0x18) 0x40000
def stepping : State := (placed.setReg (dbg 0) 1).setReg (stepReg 0) (2 ^ 63 + 2 ^ 62)
def sampled : State := State.setReg { rich with clock := 2 ^ 20 } (dbgCtx 0 0x20) (2 ^ 31 + 2 ^ 16)

theorem test_hyp_FaultQueueAndDebug :
    (faulted (record 3 none)).heldRec 0 = some (record 3 none) ∧ (faulted (record 3 none)).fqOpen 0 = true ∧
    (faulted (record 3 (some 4))).ctxStopped 0 = false ∧
    ((faulted (record 3 (some 4))).records.find? fun r => r.ctx == 0 && r.seq == some 4 && r.outstanding && r.acted.isNone) =
      some (record 3 (some 4)) ∧ (record 0 (some 4)).stop = 0 ∧ (record 3 (some 4)).stop ≠ 0 ∧
    stepping.debugOn = true ∧ bitAt (stepping.reg (stepReg 0)) 62 = true ∧
    stepping.linkUp = true ∧ bitAt (placed.reg (stepReg 0)) 62 = false ∧ stepping.reg (dbg 0) = 1 ∧ sampled.linkUp = true ∧
    (faulted (record 3 (some 4))).linkUp = true ∧ (faulted (record 3 (some 4))).heldRec 0 = none ∧ placed.sampleDue 0 = false ∧
    State.fqOpen { placed with records := [record 3 none] } 0 = false ∧ State.reset.reg (dbg 0) = 0 ∧
    sampled.sampleDue 0 = true := by decide +kernel

/-! ### The package -/

def podded : State := State.reset.setReg (shf 0) (7 * 2 ^ 16 + 2 ^ 15 + 2 ^ 6)
def inPod : State := State.reset.setReg (hifCtx 0 0) (2 ^ 31 + 2 ^ 30)
def flits : List Flit := [{ id := 4, pkg := 1, resent := 8, bad := false }, { id := 5, pkg := 1, resent := 7, bad := false }]
def replaying : State := { State.reset with fabric := { bufHeld := [(1, flits)] } }

/-- Member 0 of a pod of two whose fibre to member 1 is up. -/
def podding : State :=
  let s := State.reset.setReg (shf 0) (7 * 2 ^ 16 + 2 ^ 15 + 2 ^ 6)
  { s with fabric := { bufHeld := [(1, flits)] } }

theorem test_hyp_PackageEvents :
    (((List.range 64).any fun c => inPod.ctxOn c && inPod.ctxPod c) || !((List.range 64).any fun c => inPod.ctxOn c)) = true ∧
    ((List.range 64).any fun c => State.reset.ctxOn c && State.reset.ctxPod c) = false ∧
    7 * 2 ^ 16 + 2 ^ 15 + 2 ^ 6 ≠ State.reset.reg (shf 0) ∧ podded.podOn = true ∧ podded.podLog = 1 ∧ podded.self = 0 ∧
    Tab.get [] 1 replaying.fabric.bufHeld = flits ∧ (∃ f ∈ Tab.get [] 1 replaying.fabric.bufHeld, 8 ≤ f.resent) ∧
    (∀ e ∈ podding.fabric.bufHeld, podding.fibreUp podding.self e.1 = true) ∧
    bits (State.reset.reg (mgt 8)) 15 0 < 2401 ∧ 2400 ≤ bits (State.reset.reg (mgt 8)) 15 0 ∧
    bits (State.reset.reg (mgt 8)) 15 0 * 95 < 2400 * 100 ∧ 2280 * 100 ≤ bits (State.reset.reg (mgt 8)) 15 0 * 95 := by decide +kernel

def broken4 : UnitId := ⟨.quad, 4⟩
def outOfService : State := State.reset.setFence broken4 1
def testing (retest : Bool) : State := { State.reset with tests := [⟨broken4, retest, 0⟩] }

theorem test_hyp_ErrorsAndSelfTests :
    (PAddr.mk .pkg 0).space ≠ .sump ∧ (PAddr.mk .pkg 0).space ≠ .replay ∧ unitExists broken4 = true ∧ unitExists ⟨.quad, 63⟩ = true ∧ unitExists ⟨.quad, 64⟩ = false ∧
    State.reset.fenced broken4 = false ∧ outOfService.booted = true ∧ State.reset.held.contains broken4 = false ∧ outOfService.fenced broken4 = true ∧ State.reset.buddyTested broken4 = false ∧
    ((testing true).tests.find? fun t => t.unit == broken4).map (·.retest) = some true ∧
    ((testing false).tests.find? fun t => t.unit == broken4).map (·.retest) = some false ∧ unitOf 1 4 = some broken4 := by decide +kernel

theorem test_hyp_PackageEvents_retrain :
    (replaying.setFence ⟨.port, 1⟩ 1).fenced ⟨.port, 1⟩ = true ∧ (∃ f ∈ Tab.get [] 1 (replaying.setFence ⟨.port, 1⟩ 1).fabric.bufHeld, 8 ≤ f.resent) ∧
    replaying.fenced ⟨.port, 1⟩ = false ∧ replaying.underTest ⟨.port, 1⟩ = false ∧ Tab.get [] 1 replaying.fabric.retrains = [] ∧
    (Tab.get [] 1 [(1, [0, 0])]).filter (fun t => decide (replaying.time < t + 10 ^ 9 * Config.unitsPerNs)) = [0, 0] := by
  decide +kernel

theorem test_hyp_FirmwareAndAttestation :
    State.reset.fwCmd = none ∧ (match State.reset.fwResult ⟨3, 0, 0⟩ with | .ok _ => true | .error _ => false) = true ∧
    (match State.reset.fwResult ⟨1, 0, 0⟩ with | .error e => decide (e < 4) | .ok _ => false) = true ∧ State.reset.booted = true := by
  decide +kernel

/-! ### The onsetter -/

/-- Context 0 enabled with one launch of one team pinned to core 0, or one that claims its batches. -/
def pendingLaunch (claimed : Bool) (list : List (Nat × Nat)) (skipped : Option Nat) : Launch :=
  { placedLaunch 3 with claimed, pinned := claimed, list, endLin := 0, nextLin := 0, skipped, holds := true }
def placing (l : Launch) : State := State.setReg { State.reset with launches := [l], clock := 8, time := 10 ^ 13 } (hifCtx 0 0) (2 ^ 31)

theorem test_hyp_OnsetterActs :
    ((placing (pendingLaunch false [] none)).launches.find? (placing (pendingLaunch false [] none)).mayClaim).isSome = true ∧
    (placing (pendingLaunch true [(0, 0)] none)).placeDue = true ∧ (placing (pendingLaunch true [(0, 0)] none)).replace = none ∧
    (placing (pendingLaunch true [(0, 0)] none)).offered = [pendingLaunch true [(0, 0)] none] ∧
    (match (placing (pendingLaunch true [(0, 0)] none)).choice (pendingLaunch true [(0, 0)] none) with
      | some (n, cs) => decide (((placing (pendingLaunch true [(0, 0)] none)).place (pendingLaunch true [(0, 0)] none) n cs).preemptDue = none)
      | none => false) = true ∧
    (placing (pendingLaunch true [(0, 0)] (some 0))).starving.isSome = true := by decide +kernel

/-- A displaced image that its core takes back. -/
def displaced : State := { saving with images := saving.images.map fun i => { i with held := false }, clock := 8 }
/-- The placed context's slice is over while a launch of another context waits for its core. -/
def contested : State :=
  State.setReg { placed with sliceStart := [(0, 0)], time := 10 ^ 12,
                             launches := placed.launches ++ [{ pendingLaunch true [(0, 0)] (some 0) with lid := 23, ctx := 1 }] } (onsCtx 0 0) 1
    |>.setReg (hifCtx 1 0) (2 ^ 31)

theorem test_hyp_OnsetterActs_slices :
    displaced.placeDue = true ∧ displaced.replace.isSome = true ∧ contested.sliceOver = some 0 ∧ contested.preempt = none ∧
    State.equalWaits { contested with sliceStart := Tab.set 0 contested.time contested.sliceStart } 0 = true ∧
    State.equalWaits { placed with sliceStart := Tab.set 0 placed.time placed.sliceStart } 0 = false := by decide +kernel

/-- The placed context's slice over; its drain, its deadline; a team that has ended; a posted task; a delivered burst. -/
def sliced : State := State.setReg { placed with sliceStart := [(0, 0)], time := 10 ^ 12 } (onsCtx 0 0) 1
def draining (ctx : Nat) : State := { placed with preempt := some ⟨ctx, 0, 0⟩ }
def tasked : State := { placed with cores := [(0, { pool := [⟨2, 0x10008, [], 0⟩] })] }
def hatching : State :=
  { placed with teams := placed.teams.map fun t => { t with embers := [1] },
                cores := [(0, { staging := [⟨40, 2, 0x10008, ⟨0, 0, 0, 0, 0, 0, 0, 0, 40⟩, []⟩] })] }

theorem test_hyp_OnsetterActs_more :
    sliced.sliceOver = some 0 ∧ placed.running 0 = true ∧ placed.preempting 0 = false ∧ placed.preempt = none ∧ (draining 1).preempting 0 = false ∧
    (draining 1).preempt ≠ none ∧ (draining 0).preempting 0 = true ∧ (draining 1).drained = some ⟨1, 0, 0⟩ ∧ (draining 0).preempt = some ⟨0, 0, 0⟩ ∧
    ((State.teams { placed with threads := [] }).find? (State.teamOver { placed with threads := [] })).isSome = true ∧
    (tasked.startable 0).isSome = true ∧
    (hatching.cores.findSome? fun c => (hatching.hatchable c.1).map fun h => (c.1, h)).isSome = true := by decide +kernel

/-! ## Results that the spec gives -/

/-- The placed thread's register after one instruction, on registers 1 and 2 (and the pairs 2 and 4). -/
def gives (i : Instr) (a b : Word) (r : Nat) : Option Word :=
  match exec i (placed.onThread 1 fun t => (t.setReg 1 a).setReg 2 b) with
  | .next s => (s.thread? 1).map fun t => t.reg r
  | _ => none
def pred (i : Instr) (a b : Word) (p : Nat) : Option Bool :=
  match exec i (placed.onThread 1 fun t => (t.setReg 1 a).setReg 2 b) with
  | .next s => (s.thread? 1).map fun t => t.pred p
  | _ => none
def regs (k : Opc) : Op := { the k with d := 3, a := 1, b := 2 }

/-- R254, R337, R338: sums wrap, or clamp with `.sat`; R339: quotients round toward zero. -/
theorem test_integer :
    gives (.add (regs .add)) 0xFFFFFFFF 1 3 = some 0 ∧ gives (.add { satAdd with d := 3, a := 1, b := 2 }) 0x7FFFFFFF 1 3 = some 0x7FFFFFFF ∧
    gives (.sub (regs .sub)) 0 1 3 = some 0xFFFFFFFF ∧ gives (.mul (regs .mul)) 0x10000 0x10001 3 = some 0x10000 ∧
    gives (.div { regs .div with ty := .i32 }) 0xFFFFFFF9 2 3 = some 0xFFFFFFFD ∧
    gives (.rem { regs .rem with ty := .i32 }) 0xFFFFFFF9 2 3 = some 0xFFFFFFFF := by decide +kernel

/-- R340: counts of w and more; `sar` fills with the sign and `rol` takes the count modulo w. -/
theorem test_shifts :
    gives (.shl (regs .shl)) 1 32 3 = some 0 ∧ gives (.shl (regs .shl)) 1 31 3 = some 0x80000000 ∧ gives (.shr (regs .shr)) 0x80000000 255 3 = some 0 ∧
    gives (.sar (regs .sar)) 0x80000000 200 3 = some 0xFFFFFFFF ∧ gives (.rol (regs .rol)) 0x80000001 33 3 = some 3 ∧
    gives (.shl (regs .shl)) 1 256 3 = some 1 := by decide +kernel

/-- R341 to R345: counts of zero, a comparison's two readings of one word. -/
theorem test_bits :
    gives (.clz (regs .clz)) 0 0 3 = some 32 ∧ gives (.ctz (regs .ctz)) 8 0 3 = some 3 ∧ gives (.brev (regs .brev)) 1 0 3 = some 0x80000000 ∧
    gives (.popc (regs .popc)) 0xF0F0 0 3 = some 8 ∧
    pred (.cmp { regs .cmp with d := 0x12, ty := .i32 }) 0xFFFFFFFF 1 2 = some true ∧
    pred (.cmp { regs .cmp with d := 0x12, ty := .w32 }) 0xFFFFFFFF 1 2 = some false := by decide +kernel

/-- R251, R253, R349: 1 + 2 is 3, ties go to even, −0 + 0 is +0, and 1/0 is an infinity. -/
theorem test_float :
    gives (.fadd (regs .fadd)) 0x3F800000 0x40000000 3 = some 0x40400000 ∧ gives (.fadd (regs .fadd)) 0x4B800000 0x3F800000 3 = some 0x4B800000 ∧
    gives (.fadd (regs .fadd)) 0x80000000 0 3 = some 0 ∧ gives (.frcp (regs .frcp)) 0 0 3 = some 0x7F800000 := by decide +kernel

/-- The block worked in the number formats: sixteen FP32 inputs and their KX4 block. -/
theorem test_kx_worked :
    kxQuant .kx4 .f32 ([0x4079999A, 0xBF000000, 0x3F800000, 0, 0x3FF33333, 0x3E99999A, 0xBE4CCCCD, 0x3F800000, 0x3F666666, 0xBD800000, 0x3F000000,
      0x3D000000, 0x3ECCCCCD, 0x80000000, 0x3D400000, 0xBDCCCCCD].map fun x => Fmt.f32.val x) = 0x9880D0222E4484F0124FE480 := by decide +kernel

/-- R355: the ballot of p0 over two lanes, of which lane 1 has it set. -/
theorem test_ballot :
    (match exec (.voteBallot { the .voteBallot with d := 4 }) two with
      | .next s => s.threads.map fun t => t.reg 4 | _ => []) = [2, 2] := by decide +kernel

/-- R187, the worked epoch: A arrives expecting 4,096 bytes of which 2,048 have landed, and then the rest lands. -/
theorem test_epoch :
    Txb.close ⟨0, 0, -2048 + 4096, 2, 0, 0⟩ = ⟨0, 0, 2048, 2, 0, 0⟩ ∧ Txb.close ⟨0, 0, 2048 - 2048, 2, 0, 0⟩ = ⟨1, 2, 0, 2, 0, 0⟩ ∧
    Txb.toNat ⟨1, 2, 0, 2, 0, 0⟩ % 2 ^ 64 = 0x20001 ∧ Txb.toNat ⟨0, 2, -2048, 2, 0, 0⟩ / 2 ^ 40 % 2 ^ 40 = 0xFFFFFFF800 := by decide

/-- R2, R370: a store puts the lowest byte first. -/
theorem test_store_little_endian :
    (match exec (.stt { the .stt with a := 17, b := 27 }) rich with
      | .next s => (List.range 4).map fun i => s.byteAt ⟨.team 0, 0x700 + i⟩ | _ => []) = [0x80, 1, 0xF0, 0] := by decide +kernel

/-- R269, R363: `brk` leaves the group where it stands, on a stop with one record of its class. -/
theorem test_break :
    (match exec (.brk (brkOp .base)) placed with
      | .next s => (s.groups.map fun g => (g.pc, g.wait != .none)) ++ s.records.map fun r => (r.pc, r.code == Cls.brk.code) | _ => []) =
      [(0x10000, true), (0x10000, true)] := by decide +kernel

/-- R360: the thread that exits is gone, and its group with it. -/
theorem test_exit :
    (match exec (.exit (the .exit)) placed with | .next s => decide (s.threads = [] ∧ s.groups = []) | _ => false) = true := by decide +kernel

/-- R446: a counter's sum wraps. -/
theorem test_counter :
    (match exec (.cntAdd { the .cntAdd with d := 3, b := 14 }) rich with | .next s => some (s.counter 0 3) | _ => none) = some 8 := by
  decide +kernel

/-- R319: a core cycle passes where nothing else is due, and `$clock` counts it. -/
theorem test_clock : (match step State.reset with | .next s => some s.clock | _ => none) = some 1 := by decide +kernel

/-- A placed word is the next instruction to run, and runs (R250, R310). -/
theorem test_placed_word_runs :
    (match step (State.reset.withFetchWord 32 0x07185708) with | .next s => s.groups.map fun g => (g.pc, g.wait) | _ => []) =
      [(0x10004, .none)] := by decide +kernel

end Sys2Proof.Tests
end

/-! Proofs about the host's registers, contexts and aperture (R5, R79 to R81, R100, R169, R176, R191), which settle O55. -/

namespace Sys2Proof.Machine

/-! ## Fields of a number -/

theorem bits_lt (x hi lo : Nat) : bits x hi lo < 2 ^ (hi + 1 - lo) := Nat.mod_lt _ (by positivity)

theorem bits_zero (x hi : Nat) : bits x hi 0 = x % 2 ^ (hi + 1) := by simp [bits]

/-- The low field of a number cut to a width that holds the field. -/
theorem bits_mod (x : Nat) {hi w : Nat} (h : hi < w) : bits (x % 2 ^ w) hi 0 = x % 2 ^ (hi + 1) := by
  rw [bits_zero, Nat.mod_mod_of_dvd _ (pow_dvd_pow 2 h)]

theorem setBits_zero_le (x hi lo : Nat) : setBits x hi lo 0 ≤ x := by simp [setBits]

theorem setBits_whole {x hi : Nat} (v : Nat) (h : x < 2 ^ (hi + 1)) : setBits x hi 0 v = v % 2 ^ (hi + 1) := by
  simp [setBits, bits_zero, Nat.mod_eq_of_lt h]

theorem bitAt_setBits_zero (x i : Nat) : bitAt (setBits x i i 0) i = false := by
  have split : x = 2 ^ i * (x / 2 ^ i) + x % 2 ^ i := (Nat.div_add_mod x (2 ^ i)).symm
  have half : x / 2 ^ i = 2 * (x / 2 ^ i / 2) + x / 2 ^ i % 2 := (Nat.div_add_mod _ 2).symm
  have cut : setBits x i i 0 = 2 ^ i * (2 * (x / 2 ^ i / 2)) + x % 2 ^ i := by
    simp only [setBits, bits, Nat.add_sub_cancel_left, pow_one, Nat.zero_mod, Nat.zero_mul, Nat.add_zero]
    apply Nat.sub_eq_of_eq_add
    calc x = 2 ^ i * (2 * (x / 2 ^ i / 2) + x / 2 ^ i % 2) + x % 2 ^ i := by rw [← half, ← split]
      _ = _ := by ring
  have quot : setBits x i i 0 / 2 ^ i = 2 * (x / 2 ^ i / 2) := by
    rw [cut, Nat.mul_add_div (by positivity), Nat.div_eq_of_lt (Nat.mod_lt _ (by positivity)), Nat.add_zero]
  simp [bitAt, quot]

/-- A field of a whole register, clamped. -/
theorem clampField_bits (v : Nat) {hi least most w : Nat} (hw : hi < w) (h : most < 2 ^ (hi + 1)) :
    clampField (bits (v % 2 ^ w) hi 0) hi 0 least most = min most (max least (v % 2 ^ (hi + 1))) := by
  have low : v % 2 ^ (hi + 1) < 2 ^ (hi + 1) := Nat.mod_lt _ (by positivity)
  rw [clampField, bits_mod v hw, setBits_whole _ low, bits_zero, Nat.mod_eq_of_lt low, Nat.mod_eq_of_lt (by omega)]

/-! ## Registers -/

theorem ite_lt_of_lt {c : Prop} [Decidable c] {a b n : Nat} (ha : a < n) (hb : b < n) : (if c then a else b) < n := by
  split
  · exact ha
  · exact hb

theorem regReset_lt (off : Nat) : regReset off < 2 ^ 64 := by
  unfold regReset
  repeat refine ite_lt_of_lt (by norm_num) ?_
  norm_num

theorem State.reg_lt (s : State) (off : Nat) : s.reg off < 2 ^ 64 := by
  unfold State.reg
  split
  · exact BitVec.isLt _
  · exact regReset_lt off

/-- A register whose field is cleared still fits its register. -/
theorem State.setBits_reg_lt (s : State) (off hi lo : Nat) : setBits (s.reg off) hi lo 0 < 2 ^ 64 :=
  (setBits_zero_le _ _ _).trans_lt (s.reg_lt off)

theorem putsReg_setReg (s : State) (off : Nat) {v : Nat} (h : v < 2 ^ 64) : PutsReg s (.next (s.setReg off v)) off v :=
  ⟨_, rfl, s.reg_setReg_self off v h, fun _ hr => s.reg_setReg_other v hr, rfl⟩

theorem hifCtx_ne_hifQ {ctx r : Nat} (c q p : Nat) (hc : ctx < 64) (hr : r < 0x100) : hifCtx ctx r ≠ hifQ c q p := by
  unfold hifCtx hifQ; omega

theorem onsCtx_ne_hifCtx {ctx r : Nat} (c k : Nat) (hc : ctx < 64) (hr : r < 0x100) : onsCtx c k ≠ hifCtx ctx r := by
  unfold onsCtx hifCtx; omega

theorem dbgCtx_ne_hifCtx {ctx r : Nat} (c k : Nat) (hc : ctx < 64) (hr : r < 0x100) : dbgCtx c k ≠ hifCtx ctx r := by
  unfold dbgCtx hifCtx; omega

theorem Tab.find_filter_none {α : Type} {k : Nat} {p : Nat × α → Bool} (t : Tab α) (h : ∀ v, p (k, v) = false) :
    Tab.find k (t.filter p) = none := by
  induction t with
  | nil => rfl
  | cons x t ih =>
    obtain ⟨i, v⟩ := x
    by_cases hp : p (i, v) = true
    · have hi : i ≠ k := fun e => by simp [e, h] at hp
      simp [List.filter_cons_of_pos hp, Tab.find, hi, ih]
    · rw [List.filter_cons_of_neg hp, ih]

theorem State.reg_of_find_none {s : State} {off : Nat} (h : Tab.find off s.regs = none) : s.reg off = regReset off := by
  simp [State.reg, h]

theorem State.reg_withQueues (s : State) (qs : Tab Queue) (off : Nat) : State.reg { s with queues := qs } off = s.reg off := rfl

theorem sameMemory_setReg {s t : State} (off v : Nat) (h : SameMemory s t) : SameMemory s (t.setReg off v) := h

theorem State.linked_up {s : State} (t : State) (h : s.linkUp = true) : s.linked t = t := by simp [State.linked, h]

/-! ## Enabling a context (R80, R81, R105) -/

/-- The onsetter's and debug registers of a context reset, with what is kept beside them. -/
def State.freshCtx (s : State) (ctx : Nat) : State :=
  { s with
    regs := s.regs.filter fun e => !((decide (onsCtx ctx 0 ≤ e.1) && decide (e.1 < onsCtx ctx 0x20)) ||
      (decide (dbgCtx ctx 0 ≤ e.1) && decide (e.1 < dbgCtx ctx 0x40)))
    drains := Tab.del ctx s.drains
    sampleAt := Tab.del ctx s.sampleAt
    lostNoted := Tab.del ctx s.lostNoted }

theorem State.reg_freshCtx {s : State} {ctx off : Nat}
    (h : (onsCtx ctx 0 ≤ off ∧ off < onsCtx ctx 0x20) ∨ (dbgCtx ctx 0 ≤ off ∧ off < dbgCtx ctx 0x40)) :
    (s.freshCtx ctx).reg off = regReset off :=
  State.reg_of_find_none (Tab.find_filter_none s.regs fun _ => by simpa [or_iff_not_imp_left] using h)

theorem execContextEnable_eq {s : State} {ctx : Nat} (value : BitVec 32) (off : s.ctxOn ctx = false) (up : s.linkUp = true) :
    execContextEnable ctx value s = .next (((s.freshCtx ctx).setReg (hifCtx ctx 0) (2 ^ 31 + s.ctlFields ctx value.toNat)).setReg
      (hifCtx ctx 0x38) (setBits ((s.freshCtx ctx).reg (hifCtx ctx 0x38)) 1 1 0)) := by
  rw [execContextEnable, if_neg (by simp [off, State.mayEnable, up])]
  rfl

theorem State.ctlFields_lt (s : State) (c v : Nat) : s.ctlFields c v < 2 ^ 31 := by
  have hpod : (if bitAt v 30 && s.podOn then 2 ^ 30 else 0) ≤ 2 ^ 30 := by split <;> omega
  have hnew : bits v 24 20 < 2 ^ 5 := bits_lt v 24 20
  have hold : bits (s.reg (hifCtx c 0)) 24 20 < 2 ^ 5 := bits_lt _ 24 20
  have hpasid : bits v 19 0 < 2 ^ 20 := bits_lt v 19 0
  unfold State.ctlFields
  dsimp only
  split_ifs at hpod ⊢ <;> omega

theorem bitAt_top {f : Nat} (h : f < 2 ^ 31) : bitAt (2 ^ 31 + f) 31 = true := by
  have one : (2 ^ 31 + f) / 2 ^ 31 = 1 := by omega
  rw [bitAt, one]
  rfl

theorem contextEnable_enables (s : State) (ctx : Nat) (value : BitVec 32) (hc : ctx < 64) (off : s.ctxOn ctx = false)
    (up : s.linkUp = true) :
    ∃ t, exec (.contextEnable ctx value) s = .next t ∧ t.ctxOn ctx = true ∧ t.ctxStopped ctx = false ∧
      t.reg (hifCtx ctx 0) = 2 ^ 31 + s.ctlFields ctx value.toNat ∧
      (∀ r < 0x20, t.reg (onsCtx ctx r) = regReset (onsCtx ctx r)) ∧ (∀ r < 0x40, t.reg (dbgCtx ctx r) = regReset (dbgCtx ctx r)) ∧
      t.threads = s.threads ∧ SameMemory s t := by
  have small := s.ctlFields_lt ctx value.toNat
  have stored : (((s.freshCtx ctx).setReg (hifCtx ctx 0) (2 ^ 31 + s.ctlFields ctx value.toNat)).setReg
      (hifCtx ctx 0x38) (setBits ((s.freshCtx ctx).reg (hifCtx ctx 0x38)) 1 1 0)).reg (hifCtx ctx 0) =
        2 ^ 31 + s.ctlFields ctx value.toNat := by
    rw [State.reg_setReg_other _ _ (by unfold hifCtx; omega), State.reg_setReg_self _ _ _ (by omega)]
  refine ⟨_, execContextEnable_eq value off up, ?_, ?_, stored, fun r hr => ?_, fun r hr => ?_,
    (State.setReg_threads ..).trans (State.setReg_threads ..), sameMemory_setReg _ _ (sameMemory_setReg _ _ fun _ => rfl)⟩
  · rw [State.ctxOn, stored, bitAt_top small]
  · rw [State.ctxStopped, State.reg_setReg_self _ _ _ (State.setBits_reg_lt ..), bitAt_setBits_zero]
  · rw [State.reg_setReg_other _ _ (onsCtx_ne_hifCtx ctx r hc (by omega)), State.reg_setReg_other _ _ (onsCtx_ne_hifCtx ctx r hc (by omega)),
      State.reg_freshCtx (.inl (by unfold onsCtx; omega))]
  · rw [State.reg_setReg_other _ _ (dbgCtx_ne_hifCtx ctx r hc (by omega)), State.reg_setReg_other _ _ (dbgCtx_ne_hifCtx ctx r hc (by omega)),
      State.reg_freshCtx (.inr (by unfold dbgCtx; omega))]

/-! ## Disabling a context (R80, R126) -/

/-- The same packets, teams, groups and launches. -/
structure SameWork (s t : State) : Prop where
  pkts : t.pkts = s.pkts
  teams : t.teams = s.teams
  groups : t.groups = s.groups
  launches : t.launches = s.launches

theorem SameWork.refl (s : State) : SameWork s s := ⟨rfl, rfl, rfl, rfl⟩

theorem SameWork.trans {s t u : State} (h : SameWork s t) (k : SameWork t u) : SameWork s u :=
  ⟨k.pkts.trans h.pkts, k.teams.trans h.teams, k.groups.trans h.groups, k.launches.trans h.launches⟩

theorem SameWork.setReg {s t : State} (h : SameWork s t) (off v : Nat) : SameWork s (t.setReg off v) := h.trans ⟨rfl, rfl, rfl, rfl⟩

theorem SameWork.withQueues {s t : State} (h : SameWork s t) (qs : Tab Queue) : SameWork s { t with queues := qs } :=
  h.trans ⟨rfl, rfl, rfl, rfl⟩

theorem SameWork.withClusters {s t : State} (h : SameWork s t) (cs : List Cluster) : SameWork s { t with clusters := cs } :=
  h.trans ⟨rfl, rfl, rfl, rfl⟩

/-- Both sides lose the same teams; their views, quads and cores may differ. -/
theorem SameWork.filterTeams {s t : State} (h : SameWork s t) (p : Team → Bool) (views : Tab Team) (quads : Tab QuadSt)
    (cores : Tab CoreSt) : SameWork { s with teams := s.teams.filter p }
      { t with teams := t.teams.filter p, views := views, quads := quads, cores := cores } :=
  ⟨h.pkts, congrArg (List.filter p) h.teams, h.groups, h.launches⟩

theorem SameWork.ite {s t u : State} {c : Prop} [Decidable c] (h : SameWork s t) (k : SameWork s u) :
    SameWork s (if c then t else u) := by
  split
  · exact h
  · exact k

theorem SameWork.foldl {α : Type} {f : State → α → State} (h : ∀ s x, SameWork s (f s x)) {s t : State} (k : SameWork s t)
    (l : List α) : SameWork s (l.foldl f t) :=
  List.foldlRecOn l f k fun m hm x _ => hm.trans (h m x)

theorem sameWork_renumberPool (s : State) (core : Nat) (stays : Nat → Bool) : SameWork s (s.renumberPool core stays) :=
  .ite (.refl s) ⟨rfl, rfl, rfl, rfl⟩

theorem sameWork_settleHeld (s : State) (core : Nat) : SameWork s (s.settleHeld core) := .ite (.setReg (.refl s) _ _) (.refl s)

theorem sameWork_freeCore (s : State) (core : Nat) : SameWork s (s.freeCore core) := by
  unfold State.freeCore
  dsimp only
  split_ifs <;> exact ⟨rfl, rfl, rfl, rfl⟩

theorem sameWork_freeIfIdle (s : State) (core : Nat) : SameWork s (s.freeIfIdle core) := .ite (sameWork_freeCore s core) (.refl s)

theorem sameWork_noteAbsent (s : State) (c : Nat) : SameWork s (s.noteAbsent c) := .ite (.refl s) ⟨rfl, rfl, rfl, rfl⟩

theorem sameWork_noteDrain (s : State) (p : Preempt) : SameWork s (s.noteDrain p) := .ite ⟨rfl, rfl, rfl, rfl⟩ ⟨rfl, rfl, rfl, rfl⟩

theorem sameWork_judgeSlices (s : State) : SameWork s s.judgeSlices := .ite (.refl s) ⟨rfl, rfl, rfl, rfl⟩

/-- The removal of teams takes these teams, and no packet, group or launch. -/
theorem sameWork_removeTeams (s : State) (ts : List Team) :
    SameWork { s with teams := s.teams.filter fun t => !(ts.map (·.tuid)).contains t.tuid } (s.removeTeams ts) := by
  unfold State.removeTeams
  dsimp only
  refine SameWork.withClusters ?_ _
  refine SameWork.foldl sameWork_noteAbsent ?_ _
  refine SameWork.foldl sameWork_freeIfIdle ?_ _
  refine SameWork.foldl sameWork_settleHeld ?_ _
  refine SameWork.foldl (fun m t => .setReg (.refl m) _ _) ?_ _
  refine SameWork.filterTeams ?_ _ _ _ _
  refine SameWork.foldl (fun m e => ?_) ?_ _
  · exact sameWork_renumberPool m e.1 _
  · exact ⟨rfl, rfl, rfl, rfl⟩

/-- Nothing of a context is in work. -/
structure State.Without (s : State) (ctx : Nat) : Prop where
  pkts : ∀ p ∈ s.pkts, p.ctx ≠ ctx
  teams : ∀ x ∈ s.teams, x.ctx ≠ ctx
  groups : ∀ g ∈ s.groups, g.ctx ≠ ctx
  launches : ∀ l ∈ s.launches, l.ctx ≠ ctx

theorem State.Without.of_sameWork {s t : State} {ctx : Nat} (h : s.Without ctx) (k : SameWork s t) : t.Without ctx :=
  ⟨k.pkts ▸ h.pkts, k.teams ▸ h.teams, k.groups ▸ h.groups, k.launches ▸ h.launches⟩

/-- A reset by force takes the groups and launches of the context, then removes its teams. -/
theorem State.resetContext_steps (s : State) (ctx : Nat) :
    ∃ m : State, SameWork (m.removeTeams (s.teams.filter fun t => t.ctx == ctx)) (s.resetContext ctx) ∧
      m.pkts = (s.pkts.map fun p => if p.ctx == ctx && p.launch.isSome then { p with launch := none } else p) ∧
      m.teams = s.teams ∧ m.groups = s.groups.filter (fun g => g.ctx != ctx) ∧ m.launches = s.launches.filter (fun l => l.ctx != ctx) := by
  unfold State.resetContext
  dsimp only
  split
  · exact ⟨_, .ite (sameWork_noteDrain _ _) (.refl _), rfl, rfl, rfl, rfl⟩
  · exact ⟨_, .refl _, rfl, rfl, rfl, rfl⟩

/-- A reset by force takes the teams, groups and launches of the context, and gives it no packet. -/
theorem State.resetContext_without {s : State} {ctx : Nat} (h : ∀ p ∈ s.pkts, p.ctx ≠ ctx) : (s.resetContext ctx).Without ctx := by
  obtain ⟨m, same, hp, ht, hg, hl⟩ := s.resetContext_steps ctx
  refine .of_sameWork ⟨?_, ?_, ?_, ?_⟩ ((sameWork_removeTeams m _).trans same)
  · intro p mem
    obtain ⟨q, hq, rfl⟩ := List.mem_map.mp (hp ▸ mem)
    split <;> exact h q hq
  · intro x mem hc
    obtain ⟨hx, unlisted⟩ := List.mem_filter.mp mem
    have listed : x.tuid ∈ (s.teams.filter fun t => t.ctx == ctx).map (·.tuid) :=
      List.mem_map_of_mem (List.mem_filter.mpr ⟨ht ▸ hx, by simp [hc]⟩)
    simp [listed] at unlisted
  · simp [hg]
  · simp [hl]

/-- A queue of a context stops, its error cleared. -/
def State.stopQueue (s : State) (ctx q : Nat) : State :=
  (s.setReg (hifQ ctx q 8) (setBits (s.reg (hifQ ctx q 8)) 31 31 0)).setReg (hifQ ctx q 0x18)
    (setBits (s.reg (hifQ ctx q 0x18)) 1 1 0)

theorem State.stopQueue_self (s : State) (ctx q : Nat) : bitAt ((s.stopQueue ctx q).reg (hifQ ctx q 8)) 31 = false := by
  rw [State.stopQueue, State.reg_setReg_other _ _ (by unfold hifQ; omega), State.reg_setReg_self _ _ _ (State.setBits_reg_lt ..),
    bitAt_setBits_zero]

theorem State.stopQueue_other (s : State) (ctx : Nat) {q k : Nat} (h : k ≠ q) :
    (s.stopQueue ctx q).reg (hifQ ctx k 8) = s.reg (hifQ ctx k 8) := by
  rw [State.stopQueue, State.reg_setReg_other _ _ (by unfold hifQ; omega), State.reg_setReg_other _ _ (by unfold hifQ; omega)]

/-- A queue that has stopped, or that stands in the list, is off once the listed queues stop. -/
theorem State.stopQueues_off (ctx : Nat) {k : Nat} (l : List Nat) (s : State)
    (h : bitAt (s.reg (hifQ ctx k 8)) 31 = false ∨ k ∈ l) :
    bitAt ((l.foldl (fun m q => m.stopQueue ctx q) s).reg (hifQ ctx k 8)) 31 = false := by
  induction l generalizing s with
  | nil => simpa using h
  | cons q l ih =>
    refine ih (s.stopQueue ctx q) ?_
    by_cases hk : k = q
    · exact .inl (hk ▸ State.stopQueue_self s ctx q)
    · rw [State.stopQueue_other s ctx hk]
      simpa [hk] using h

/-- What a disable does after the reset by force: the queues of the context stop, and its ENABLE clears. -/
def State.closeCtx (s : State) (ctx : Nat) : State :=
  let s := (List.range 16).foldl (fun m q => m.stopQueue ctx q) s
  let s : State := { s with queues := s.queues.filter fun e => e.1 / 16 != ctx }
  (s.setReg (hifCtx ctx 0) (setBits (s.reg (hifCtx ctx 0)) 31 31 0)).judgeSlices

theorem State.judgeSlices_reg (s : State) (off : Nat) : s.judgeSlices.reg off = s.reg off := by
  unfold State.judgeSlices
  split <;> rfl

theorem State.judgeSlices_queues (s : State) : s.judgeSlices.queues = s.queues := by
  unfold State.judgeSlices
  split <;> rfl

theorem sameWork_closeCtx (s : State) (ctx : Nat) : SameWork s (s.closeCtx ctx) := by
  have stopped : SameWork s ((List.range 16).foldl (fun m q => m.stopQueue ctx q) s) :=
    .foldl (fun m _ => .setReg (.setReg (.refl m) _ _) _ _) (.refl s) _
  have emptied := stopped.withQueues ((List.foldl (fun m q => m.stopQueue ctx q) s (List.range 16)).queues.filter fun e => e.1 / 16 != ctx)
  exact (emptied.setReg _ _).trans (sameWork_judgeSlices _)

theorem State.closeCtx_ctxOn (s : State) (ctx : Nat) : (s.closeCtx ctx).ctxOn ctx = false := by
  rw [State.ctxOn, State.closeCtx, State.judgeSlices_reg, State.reg_setReg_self _ _ _ (State.setBits_reg_lt ..), bitAt_setBits_zero]

theorem State.closeCtx_queue (s : State) (ctx : Nat) {q : Nat} (hq : q < 16) : (s.closeCtx ctx).queue? ctx q = none := by
  have mine : (16 * ctx + q) / 16 = ctx := by omega
  rw [State.queue?, State.closeCtx, State.judgeSlices_queues, State.setReg_queues]
  exact Tab.find_filter_none _ fun v => by simp [mine]

theorem State.closeCtx_queue_off (s : State) {ctx q : Nat} (hc : ctx < 64) (hq : q < 16) :
    bitAt ((s.closeCtx ctx).reg (hifQ ctx q 8)) 31 = false := by
  rw [State.closeCtx, State.judgeSlices_reg, State.reg_setReg_other _ _ (hifCtx_ne_hifQ ctx q 8 hc (by omega)).symm,
    State.reg_withQueues]
  exact State.stopQueues_off ctx _ s (.inr (List.mem_range.mpr hq))

/-- A disable drops the packets of the context, resets it by force and closes it. -/
theorem execContextDisable_eq {s : State} {ctx : Nat} (on : s.ctxOn ctx = true) (up : s.linkUp = true) :
    ∃ m : State, m.pkts = s.pkts.filter (fun p => p.ctx != ctx) ∧
      execContextDisable ctx s = .next ((m.resetContext ctx).closeCtx ctx) := by
  rw [execContextDisable, if_neg (by simp [on, up])]
  simp only [State.closeCtx, State.stopQueue]
  exact ⟨_, rfl, rfl⟩

theorem contextDisable_disables (s : State) (ctx : Nat) (hc : ctx < 64) (on : s.ctxOn ctx = true) (up : s.linkUp = true) :
    ∃ t, exec (.contextDisable ctx) s = .next t ∧ t.ctxOn ctx = false ∧ (∀ p ∈ t.pkts, p.ctx ≠ ctx) ∧ (∀ x ∈ t.teams, x.ctx ≠ ctx) ∧
      (∀ g ∈ t.groups, g.ctx ≠ ctx) ∧ (∀ l ∈ t.launches, l.ctx ≠ ctx) ∧
      ∀ q < 16, t.queue? ctx q = none ∧ bitAt (t.reg (hifQ ctx q 8)) 31 = false := by
  obtain ⟨m, hm, done⟩ := execContextDisable_eq on up
  have dropped : ∀ p ∈ m.pkts, p.ctx ≠ ctx := by simp [hm]
  have left : ((m.resetContext ctx).closeCtx ctx).Without ctx :=
    .of_sameWork (State.resetContext_without dropped) (sameWork_closeCtx _ ctx)
  exact ⟨_, done, State.closeCtx_ctxOn _ ctx, left.pkts, left.teams, left.groups, left.launches,
    fun q hq => ⟨State.closeCtx_queue _ ctx hq, State.closeCtx_queue_off _ hc hq⟩⟩

/-! ## Fault-queue registers, invalidations and die memory (R100, R169, R176, R189, R191) -/

theorem fqHeadWrite_puts (s : State) (ctx : Nat) (value : BitVec 32) (up : s.linkUp = true)
    (ok : headOk (s.reg (hifCtx ctx 0x2C)) (s.reg (hifCtx ctx 0x28)) value.toNat = true) :
    PutsReg (s.fqAgain ctx) (exec (.fqHeadWrite ctx value) s) (hifCtx ctx 0x2C) value.toNat := by
  have done : exec (.fqHeadWrite ctx value) s = .next ((s.fqAgain ctx).setReg (hifCtx ctx 0x2C) value.toNat) := by
    change execFqHeadWrite ctx value s = _
    rw [execFqHeadWrite, if_neg (by simp [up])]
    exact if_pos ok
  rw [done]
  exact putsReg_setReg _ _ (by omega)

theorem fqHeadWrite_refused (s : State) (ctx : Nat) (value : BitVec 32) (up : s.linkUp = true)
    (bad : headOk (s.reg (hifCtx ctx 0x2C)) (s.reg (hifCtx ctx 0x28)) value.toNat = false) :
    exec (.fqHeadWrite ctx value) s = .next (s.fqAgain ctx) := by
  change execFqHeadWrite ctx value s = _
  rw [execFqHeadWrite, if_neg (by simp [up])]
  exact if_neg (Bool.eq_false_iff.mp bad)

theorem fqbaseWrite_puts (s : State) (ctx : Nat) (base : BitVec 64) (up : s.linkUp = true) :
    PutsReg (s.fqAgain ctx) (exec (.fqbaseWrite ctx base) s) (hifCtx ctx 0x18) (base.toNat / 4096 * 4096) := by
  change PutsReg _ (.next (s.linked ((s.fqAgain ctx).setReg (hifCtx ctx 0x18) (base.toNat / 4096 * 4096)))) _ _
  rw [State.linked_up _ up]
  exact putsReg_setReg _ _ (by omega)

/-- What wakes those that wait for an invalidation takes away no translation and no other invalidation. -/
theorem execTlbInvalidateDone_eq {s : State} {i : Inval} {rest : List Inval} (first : s.invals = i :: rest)
    (done : s.accessesDone i.ctx = true) :
    ∃ (l : List Late) (wake : State → Late → State) (late : List Late),
      execTlbInvalidateDone s =
        .next (l.foldl wake { s with invals := rest, tlb := s.tlb.filter (fun t => !i.covers t), late := late }) ∧
      ∀ m x, (wake m x).invals = m.invals ∧ (wake m x).tlb = m.tlb := by
  simp only [execTlbInvalidateDone, first]
  rw [if_neg (by simp [done])]
  refine ⟨_, _, _, rfl, fun m x => ?_⟩
  cases x <;> exact ⟨rfl, rfl⟩

theorem tlbInvalidateDone_drops (s : State) (i : Inval) (rest : List Inval) (first : s.invals = i :: rest)
    (done : s.accessesDone i.ctx = true) :
    ∃ t, exec .tlbInvalidateDone s = .next t ∧ t.invals = rest ∧ (∀ e, e ∈ t.tlb ↔ e ∈ s.tlb ∧ i.covers e = false) := by
  obtain ⟨l, wake, late, eq, keeps⟩ := execTlbInvalidateDone_eq first done
  let start : State := { s with invals := rest, tlb := s.tlb.filter (fun t => !i.covers t), late := late }
  obtain ⟨hinvals, htlb⟩ : (l.foldl wake start).invals = start.invals ∧ (l.foldl wake start).tlb = start.tlb :=
    List.foldlRecOn l wake (motive := fun m => m.invals = start.invals ∧ m.tlb = start.tlb) ⟨rfl, rfl⟩
      fun m hm x _ => ⟨(keeps m x).1.trans hm.1, (keeps m x).2.trans hm.2⟩
  exact ⟨_, eq, hinvals, fun e => by rw [htlb]; simp [start]⟩

theorem diemapWrite_running (s : State) (ctx stope : Nat) (value : BitVec 64) (runs : s.running ctx = true) :
    exec (.diemapWrite ctx stope value) s = .next s := by
  change execDiemapWrite ctx stope value s = _
  rw [execDiemapWrite, if_pos (by simp [runs])]

theorem diemapWrite_idle (s : State) (ctx stope : Nat) (value : BitVec 64) (idle : s.running ctx = false) (up : s.linkUp = true) :
    exec (.diemapWrite ctx stope value) s =
      .next ((List.range 64).foldl (fun m i => m.dieBit ctx (stope % 2) value.toNat i) s) := by
  change execDiemapWrite ctx stope value s = _
  rw [execDiemapWrite, if_neg (by simp [idle, up])]

theorem tlbinv_asks (s : State) (ctx : Nat) (value : BitVec 64) (up : s.linkUp = true) :
    exec (.tlbinvPages ctx value) s = .next (s.invalidate ctx
      (if bitAt value.toNat 0 then none else some (invalRange (bits value.toNat 51 16) (bits value.toNat 63 58)))) ∧
    exec (.tlbinvAll ctx) s = .next (s.invalidate ctx none) :=
  ⟨congrArg _ (State.linked_up _ up), congrArg _ (State.linked_up _ up)⟩

/-! ## The aperture (R79, R471) -/

section
variable {s : State} {fn : Nat} (off : Nat)

theorem aperture_waits (wait : s.apertureWaits fn = true) :
    exec (.apertureRead fn off) s = .next s ∧ ∀ value, exec (.apertureWrite fn off value) s = .next s :=
  ⟨if_pos wait, fun _ => if_pos wait⟩

theorem apertureWrite_lands {p : PAddr} {c : Option Nat} (free : s.apertureWaits fn = false)
    (value : BitVec 32) (lands : s.aperture fn off .store = .ok (p, c)) :
    exec (.apertureWrite fn off value) s = .next (s.shaftAsk (c.getD noCtx) (.apWrite fn) p (.store 4) (value.setWidth 64)) := by
  change execApertureWrite fn off value s = _
  simp [execApertureWrite, free, lands]

theorem apertureRead_lands {p : PAddr} {c : Option Nat} (free : s.apertureWaits fn = false)
    (lands : s.aperture fn off .load = .ok (p, c)) :
    exec (.apertureRead fn off) s = .next (s.shaftAsk (c.getD noCtx) (.apRead fn) p (.load 4) 0) := by
  change execApertureRead fn off s = _
  simp [execApertureRead, free, lands]

theorem apertureWrite_misses {e : Option (Nat × DWord)} (free : s.apertureWaits fn = false) (value : BitVec 32)
    (misses : s.aperture fn off .store = .error e) : exec (.apertureWrite fn off value) s = .next (s.apertureMiss e) := by
  change execApertureWrite fn off value s = _
  simp [execApertureWrite, free, misses]

theorem apertureRead_misses {e : Option (Nat × DWord)} (free : s.apertureWaits fn = false)
    (misses : s.aperture fn off .load = .error e) :
    exec (.apertureRead fn off) s = .next { s.apertureMiss e with readback := some (-1) :: (s.apertureMiss e).readback } := by
  change execApertureRead fn off s = _
  simp [execApertureRead, free, misses]

end

/-- A request of the shaft die joins the arrivals of the upcast and is pending; no thread and no byte changes. -/
theorem shaftAsk_asks (s : State) (ctx : Nat) (act : ShaftAct) (at_ : PAddr) (op : ReqOp) (opnd : DWord) :
    (∃ x : Req, (s.shaftAsk ctx act at_ op opnd).fabric.arrivals = s.fabric.arrivals ++ [(.upcast (s.homePkg at_), x)] ∧ x.ctx = ctx ∧
      x.addr = at_ ∧ x.op = op ∧ x.opnd = opnd ∧ x.port = 64 ∧ x.back = .owner s.nextId) ∧
    (∃ p ∈ (s.shaftAsk ctx act at_ op opnd).fabric.pending, p.id = s.nextId ∧ p.owner = .shaft act ∧ p.at_ = at_ ∧ p.op = op) ∧
    (s.shaftAsk ctx act at_ op opnd).threads = s.threads ∧ SameMemory s (s.shaftAsk ctx act at_ op opnd) :=
  ⟨⟨_, rfl, rfl, rfl, rfl, rfl, rfl, rfl⟩, ⟨_, List.mem_append_right _ (List.mem_singleton.mpr rfl), rfl, rfl, rfl, rfl⟩, rfl, fun _ => rfl⟩

/-! ## Writes by address (R5, R6, R77) -/

theorem registerWrite_otherWidth (s : State) (fn off n : Nat) (value : BitVec 64)
    (h : n ≠ widthAt (s.access fn off).1 (s.access fn off).2) : exec (.registerWrite fn off n value) s = .next s :=
  if_pos (.inr (.inl h))

/-- A write of the PF of the register's width does what the register that answers does with the value cut to its width. -/
theorem registerWrite_puts {s : State} {b : Block} {r off n dest w v : Nat} (value : BitVec 64) (place : regBlock off = (b, r))
    (width : widthAt b r = n) (wide : n ≠ 0) (answers : s.answers b r = true)
    (stores : s.writeBlock b r (value.toNat % 2 ^ (8 * n)) = .next (s.setReg dest w)) (field : w = v) (fits : v < 2 ^ 64) :
    PutsReg s (exec (.registerWrite 0 off n value) s) dest v := by
  have reached : s.access 0 off = (b, r) := by simp [State.access, place]
  have done : exec (.registerWrite 0 off n value) s = s.writeBlock b r (value.toNat % 2 ^ (8 * n)) := by
    change execRegisterWrite 0 off n value s = _
    simp [execRegisterWrite, reached, width, wide, answers]
  rw [done, stores, field]
  exact putsReg_setReg s dest fits

theorem State.answers_of_linkUp {s : State} {b : Block} (r : Nat) (up : s.linkUp = true) (hb : b ≠ .mgt) : s.answers b r = true := by
  simp [State.answers, up, hb]

theorem State.answers_mgt_of_booted {s : State} (r : Nat) (booted : s.booted = true) : s.answers .mgt r = true := by
  simp [State.answers, booted]

section
variable {s : State} (value : BitVec 64)

theorem cplTimeoutWrite_puts (up : s.linkUp = true) :
    PutsReg s (exec (.registerWrite 0 8 4 value) s) 8 (min 1000 (max 1 (value.toNat % 2 ^ 16))) :=
  registerWrite_puts (b := .global) (r := 8) value rfl rfl (by decide) (State.answers_of_linkUp _ up (by decide)) rfl
    (clampField_bits _ (by decide) (by decide)) (by omega)

theorem shfTimeoutWrite_puts (up : s.linkUp = true) :
    PutsReg s (exec (.registerWrite 0 0x40020 4 value) s) (shf 0x20) (min 1000000 (max 1 (value.toNat % 2 ^ 20))) :=
  registerWrite_puts (b := .shf) (r := 0x20) value rfl rfl (by decide) (State.answers_of_linkUp _ up (by decide)) rfl
    (clampField_bits _ (by decide) (by decide)) (by omega)

theorem onsStarveWrite_puts (up : s.linkUp = true) :
    PutsReg s (exec (.registerWrite 0 0x50000 4 value) s) (ons 0) (max 1 (value.toNat % 2 ^ 20)) :=
  registerWrite_puts (b := .ons) (r := 0) value rfl rfl (by decide) (State.answers_of_linkUp _ up (by decide)) rfl
    (congrArg (max _) (bits_mod _ (by decide))) (by omega)

theorem onsFageWrite_puts (up : s.linkUp = true) :
    PutsReg s (exec (.registerWrite 0 0x50004 4 value) s) (ons 4) (max 64 (value.toNat % 2 ^ 16)) :=
  registerWrite_puts (b := .ons) (r := 4) value rfl rfl (by decide) (State.answers_of_linkUp _ up (by decide)) rfl
    (congrArg (max _) (bits_mod _ (by decide))) (by omega)

theorem mgtPwrcapWrite_puts (booted : s.booted = true) :
    PutsReg s (exec (.registerWrite 0 0x60008 4 value) s) (mgt 8) (min 2400 (max 1200 (value.toNat % 2 ^ 16))) :=
  registerWrite_puts (b := .mgt) (r := 8) value rfl rfl (by decide) (State.answers_mgt_of_booted _ booted)
    rfl (clampField_bits _ (by decide) (by decide)) (by omega)

end

end Sys2Proof.Machine

namespace Sys2Proof

open Machine

/-- Settles O55: each clause is the lemma above about its instruction. -/
theorem hostWritesRegisters : Obligations.HostWritesRegisters := by
  intro s
  refine ⟨contextEnable_enables s, contextDisable_disables s, fun ctx value up => ?faultQueue, fun ctx value up => tlbinv_asks s ctx value up,
    tlbInvalidateDone_drops s, fun ctx stope value => ?dieMap, fun fn off => ?aperture, shaftAsk_asks s, registerWrite_otherWidth s,
    fun value => ?registers⟩
  case faultQueue =>
    exact ⟨fqHeadWrite_puts s ctx value up, fqHeadWrite_refused s ctx value up, fun base => fqbaseWrite_puts s ctx base up⟩
  case dieMap => exact ⟨diemapWrite_running s ctx stope value, diemapWrite_idle s ctx stope value⟩
  case aperture =>
    exact ⟨aperture_waits off, fun free p c => ⟨apertureWrite_lands off free, apertureRead_lands off free⟩,
      fun free e => ⟨apertureWrite_misses off free, apertureRead_misses off free⟩, fun _ => ⟨rfl, rfl⟩⟩
  case registers =>
    exact ⟨fun up => ⟨cplTimeoutWrite_puts value up, shfTimeoutWrite_puts value up, onsStarveWrite_puts value up,
      onsFageWrite_puts value up⟩, mgtPwrcapWrite_puts value⟩

end Sys2Proof

/-! Proofs about the lanes of global accesses (R45, R177, R220, R276, R370, R371, R374), which settle O27. -/

namespace Sys2Proof.Machine

/-! ## Threads by name -/

/-- A change of threads that keeps their names is found under their names, and under no other. -/
theorem State.thread?_onThreads (s : State) (ids : List Nat) {f : Thread → Thread} (keeps : ∀ t, (f t).uid = t.uid) (u : Nat) :
    (s.onThreads ids f).thread? u = (s.thread? u).map fun t => if ids.contains u then f t else t := by
  have named : (fun t : Thread => t.uid == u) ∘ (fun t => if ids.contains t.uid then f t else t) = fun t => t.uid == u := by
    funext t
    simp only [Function.comp_apply, apply_ite Thread.uid, keeps, ite_self]
  rw [State.thread?, State.onThreads, List.find?_map, named]
  refine Option.map_congr fun t found => ?_
  have name : t.uid = u := eq_of_beq (List.find?_some found :)
  rw [name]

theorem State.thread?_onThread_self (s : State) (u : Nat) {f : Thread → Thread} (keeps : ∀ t, (f t).uid = t.uid) :
    (s.onThread u f).thread? u = (s.thread? u).map f := by
  simp [State.onThread, State.thread?_onThreads s _ keeps]

theorem State.thread?_onThread_other (s : State) {u v : Nat} (h : v ≠ u) {f : Thread → Thread} (keeps : ∀ t, (f t).uid = t.uid) :
    (s.onThread u f).thread? v = s.thread? v := by
  simp [State.onThread, State.thread?_onThreads s _ keeps, h]

@[simp] theorem Thread.uid_dst (t : Thread) (ty : Ty) (r : BitVec 9) (v : DWord) : (t.dst ty r v).uid = t.uid := by
  unfold Thread.dst
  split <;> rfl

/-- A thread that has read stores which their homes have not performed (R239). -/
def Thread.seeing (saw : Thread → List Nat) (t : Thread) : Thread := { t with saw := saw t }

/-- A thread whose load has found its bytes in L1 at a moment (R254, R370). -/
def Thread.loaded (o : Op) (bs : List Byte) (now : Nat) (t : Thread) : Thread :=
  { t.dst o.ty o.d (tyWrite o.ty false (tyVal o.ty (BitVec.ofNat 64 (natOfBytes bs)))) with
      accessed := now, seen := if o.order.acquires then now else t.seen }

theorem Thread.loaded_uid (o : Op) (bs : List Byte) (now : Nat) (t : Thread) : (t.loaded o bs now).uid = t.uid := Thread.uid_dst ..

/-- What the thread has read before does not touch what the load writes. -/
theorem Thread.loaded_seeing (o : Op) (bs : List Byte) (now : Nat) (saw : Thread → List Nat) (t : Thread) :
    (t.seeing saw).loaded o bs now = { t.loaded o bs now with saw := ((t.seeing saw).loaded o bs now).saw } := by
  unfold Thread.loaded Thread.seeing Thread.dst
  split <;> rfl

/-- A thread that has taken a command sequence number and holds a flag keeps its name, registers and predicates. -/
theorem Thread.count_holdFlag (t : Thread) (flag : Option Nat) :
    (t.count.holdFlag flag).uid = t.uid ∧ (t.count.holdFlag flag).cmdseq = t.cmdseq + 1 ∧ (t.count.holdFlag flag).regs = t.regs ∧
      (t.count.holdFlag flag).preds = t.preds := by
  cases flag <;> exact ⟨rfl, rfl, rfl, rfl⟩

/-! ## Memory that stays -/

theorem sameMemory_refl (s : State) : SameMemory s s := fun _ => rfl

theorem SameMemory.trans {s t u : State} (h : SameMemory s t) (k : SameMemory t u) : SameMemory s u := fun p => (k p).trans (h p)

theorem SameMemory.ite {s t u : State} {c : Prop} [Decidable c] (h : SameMemory s t) (k : SameMemory s u) :
    SameMemory s (if c then t else u) := by
  split
  · exact h
  · exact k

/-! ## What an access notes on its way -/

/-- Nothing differs but the translations that are held, the lines of the home slices, the cores' counts and caches, and the regions that
stores have strayed into. -/
def Noted (s e : State) : Prop :=
  ∃ tlb slices cores strays, e = { s with tlb := tlb, slices := slices, cores := cores, strays := strays }

theorem Noted.refl (s : State) : Noted s s := ⟨_, _, _, _, rfl⟩

theorem Noted.trans {s m e : State} (h : Noted s m) (k : Noted m e) : Noted s e := by
  obtain ⟨_, _, _, _, rfl⟩ := h
  obtain ⟨_, _, _, _, rfl⟩ := k
  exact ⟨_, _, _, _, rfl⟩

theorem Noted.ite {s t e : State} {c : Prop} [Decidable c] (h : Noted s t) (k : Noted s e) : Noted s (if c then t else e) := by
  split
  · exact h
  · exact k

theorem Noted.nextId {s e : State} (h : Noted s e) : e.nextId = s.nextId := by
  obtain ⟨_, _, _, _, rfl⟩ := h; rfl

theorem Noted.fabric {s e : State} (h : Noted s e) : e.fabric = s.fabric := by
  obtain ⟨_, _, _, _, rfl⟩ := h; rfl

theorem Noted.thread? {s e : State} (h : Noted s e) (uid : Nat) : e.thread? uid = s.thread? uid := by
  obtain ⟨_, _, _, _, rfl⟩ := h; rfl

theorem Noted.sameMemory {s e : State} (h : Noted s e) : SameMemory s e := by
  obtain ⟨_, _, _, _, rfl⟩ := h; exact fun _ => rfl

theorem noted_holdTlb (s : State) (cap : Nat) (e : TlbEntry) : Noted s (s.holdTlb cap e) := ⟨_, _, _, _, rfl⟩

theorem noted_holdLast (s : State) (k c vpage e : Nat) : Noted s (s.holdLast k c vpage e) :=
  .ite (.ite ⟨_, _, _, _, rfl⟩ (noted_holdTlb ..)) (noted_holdTlb ..)

theorem noted_noteTlb (s : State) (core ctx : Nat) (va : DWord) : Noted s (s.noteTlb core ctx va) := by
  refine .ite (.refl s) (.ite (.refl s) ?_)
  split
  · exact .ite (noted_holdTlb ..) ((noted_holdTlb ..).trans (noted_holdLast ..))
  · exact .refl s

theorem noted_noteStray (s : State) (ctx : Nat) (va : DWord) : Noted s (s.noteStray ctx va) := ⟨_, _, _, _, rfl⟩

theorem noted_noteDesc (s : State) (desc : Nat) : Noted s (s.noteDesc desc) := .ite (.refl s) ⟨_, _, _, _, rfl⟩

theorem noted_bumpPerf (s : State) (core n k : Nat) : Noted s (s.bumpPerf core n k) := .ite (.refl s) ⟨_, _, _, _, rfl⟩

theorem noted_hitL1 (s : State) (core : Nat) (p : PAddr) (rd : Nat) : Noted s (s.hitL1 core p rd) :=
  (noted_bumpPerf ..).trans (.ite (.refl _) ⟨_, _, _, _, rfl⟩)

/-- What a thread reads in L1 of stores that their homes have not performed is noted in the thread alone. -/
theorem State.noteSeen_eq (s : State) (core : Nat) (t : Thread) (p : PAddr) (n : Nat) :
    ∃ saw, s.noteSeen core t p n = s.onThread t.uid (Thread.seeing saw) := by
  unfold State.noteSeen
  dsimp only
  split
  · refine ⟨Thread.saw, ?_⟩
    simp [State.onThread, State.onThreads, Thread.seeing]
  · exact ⟨_, rfl⟩

/-! ## Asking the fabric and a walker (R45, R223, R276) -/

section
variable {s m : State} (h : Noted s m) (g : Group)
include h

theorem asksFor_ask (a : Ask) : AsksFor s (m.ask g g.flagNow a) g a.thread a.va a.at_ a.op a.opnd a.dreg a.ty := by
  obtain ⟨_, _, _, _, rfl⟩ := h
  have asks (t : Thread) := t.count_holdFlag g.flagNow
  have pending (l : List Pending) (p : Pending) : p ∈ l ++ [p] := by simp
  refine ⟨⟨_, rfl, rfl, rfl, rfl, rfl, rfl⟩, ⟨_, pending _ _, rfl, rfl, rfl, rfl, rfl, rfl, rfl, rfl, rfl, rfl⟩,
    fun x found => ⟨_, (State.thread?_onThread_self _ _ ?_).trans (congrArg _ found), (asks x).2⟩,
    fun u other => State.thread?_onThread_other _ other ?_, fun _ => rfl⟩
  all_goals exact fun t => (asks t).1

theorem asksWalker_askLode (t : Thread) (desc : Nat) (va : DWord) (kind : LodeKind) :
    AsksWalker s (m.askLode g t desc va kind) g t desc va kind := by
  obtain ⟨_, _, _, _, rfl⟩ := h
  obtain ⟨_, _, _, _, noted⟩ := noted_noteDesc _ desc
  have asks (t : Thread) := t.count_holdFlag g.flagNow
  rw [State.askLode, noted]
  refine ⟨⟨_, rfl, rfl, rfl, rfl, rfl, rfl, rfl, rfl, rfl, rfl, rfl, rfl, rfl, rfl⟩,
    fun x found => ⟨_, (State.thread?_onThread_self _ _ ?_).trans (congrArg _ found), (asks x).2⟩,
    fun u other => State.thread?_onThread_other _ other ?_, rfl, fun _ => rfl⟩
  all_goals exact fun t => (asks t).1

end

/-! ## The lanes (R177, R370, R371, R374) -/

theorem holdLast_cores (s : State) (k c vpage e : Nat) : (s.holdLast k c vpage e).cores = s.cores := by
  unfold State.holdLast
  dsimp only
  split_ifs <;> rfl

theorem noteTlb_cores (s : State) (core ctx : Nat) (va : DWord) : (s.noteTlb core ctx va).cores = s.cores := by
  unfold State.noteTlb
  dsimp only
  split_ifs
  · rfl
  · rfl
  · split
    · exact (apply_ite State.cores ..).trans ((if_congr Iff.rfl rfl (holdLast_cores ..)).trans (ite_id _))
    · rfl

/-- What L1 holds for a thread does not depend on what a translation notes. -/
theorem l1Hit_noteTlb (s : State) (c ctx : Nat) (va : DWord) (core : Nat) (t : Thread) (p : PAddr) (n : Nat) (empties : Bool) :
    (s.noteTlb c ctx va).l1Hit core t p n empties = s.l1Hit core t p n empties := by
  have cores := noteTlb_cores s c ctx va
  obtain ⟨_, _, _, _, eq⟩ := noted_noteTlb s c ctx va
  rw [eq] at cores ⊢
  cases cores
  rfl

section
variable {s : State} (g : Group) (o : Op) (t : Thread) (x : Xlat)

theorem loadLane_misses (miss : s.l1Hit g.core t x.at_ o.size o.empties = none) :
    AsksFor s (s.loadLane g o t (.line x)) g t (o.gaddr t) x.at_ (.load o.size) 0 (some o.d.toNat) o.ty := by
  rw [State.loadLane]
  simp only [l1Hit_noteTlb, miss]
  exact asksFor_ask ((noted_noteTlb ..).trans (.ite (noted_bumpPerf ..) (.refl _))) g _

/-- A load that L1 serves notes it, and changes its thread alone. -/
theorem loadLane_hits {bs : List Byte} (hit : s.l1Hit g.core t x.at_ o.size o.empties = some bs) :
    ∃ n m saw, Noted s n ∧ Noted (n.onThread t.uid (Thread.seeing saw)) m ∧
      s.loadLane g o t (.line x) = m.onThread t.uid (Thread.loaded o bs s.nextId) := by
  have noted := noted_noteTlb s g.core g.ctx (o.gaddr t)
  obtain ⟨saw, seen⟩ := (s.noteTlb g.core g.ctx (o.gaddr t)).noteSeen_eq g.core t x.at_ o.size
  refine ⟨_, _, saw, noted, noted_hitL1 _ g.core x.at_ o.rdCode, ?_⟩
  rw [State.loadLane]
  simp only [l1Hit_noteTlb, hit, noted.nextId, seen]
  rfl

theorem loadLane_hit_leaves {bs : List Byte} (hit : s.l1Hit g.core t x.at_ o.size o.empties = some bs) :
    let e := s.loadLane g o t (.line x)
    e.fabric = s.fabric ∧ SameMemory s e ∧ (∀ u, u ≠ t.uid → e.thread? u = s.thread? u) ∧
      ∀ y, s.thread? t.uid = some y → ∃ z, e.thread? t.uid = some z ∧ z = { y.loaded o bs s.nextId with saw := z.saw } := by
  obtain ⟨n, m, saw, hn, hm, eq⟩ := loadLane_hits g o t x hit
  have sees : ∀ u, (Thread.seeing saw u).uid = u.uid := fun _ => rfl
  have stays := Thread.loaded_uid o bs s.nextId
  dsimp only
  rw [eq]
  refine ⟨hm.fabric.trans hn.fabric, hn.sameMemory.trans (SameMemory.trans (fun _ => rfl) hm.sameMemory),
    fun u other => ?_, fun y found => ?_⟩
  · rw [State.thread?_onThread_other _ other stays, hm.thread?, State.thread?_onThread_other _ other sees, hn.thread?]
  · refine ⟨(y.seeing saw).loaded o bs s.nextId, ?_, Thread.loaded_seeing ..⟩
    rw [State.thread?_onThread_self _ _ stays, hm.thread?, State.thread?_onThread_self _ _ sees, hn.thread?, found]
    rfl

theorem storeLane_asks : AsksFor s (s.storeLane g o t (.line x)) g t (o.gaddr t) x.at_ (.store o.size) (o.srcB t o.ty) none o.ty :=
  asksFor_ask ((noted_noteTlb ..).trans (noted_noteStray ..)) g _

theorem atomLane_asks (op : ReqOp) :
    AsksFor s (s.atomLane g o op t (.line x)) g t (o.gaddr t) x.at_ op (o.srcB t o.ty) (some o.d.toNat) o.ty :=
  asksFor_ask ((noted_noteTlb ..).trans (noted_noteStray ..)) g _

theorem loadLane_lode (desc : Nat) (r : Region) :
    AsksWalker s (s.loadLane g o t (.lode desc r)) g t desc (o.gaddr t) (.load o.d.toNat o.ty o.order.acquires o.empties) :=
  asksWalker_askLode (noted_noteTlb ..) g ..

theorem storeLane_lode (desc : Nat) (r : Region) :
    AsksWalker s (s.storeLane g o t (.lode desc r)) g t desc (o.gaddr t) (.store ((o.srcB t o.ty).setWidth 32) o.ty) :=
  asksWalker_askLode (noted_noteTlb ..) g ..

end

end Sys2Proof.Machine

namespace Sys2Proof

open Machine

/-- Settles O27: each clause is the lemma above about its lane. -/
theorem globalLaneActs : Obligations.GlobalLaneActs := by
  intro s g o t x
  exact ⟨loadLane_misses g o t x, fun bs hit => loadLane_hit_leaves g o t x hit, storeLane_asks g o t x, atomLane_asks g o t x,
    fun desc r => ⟨loadLane_lode g o t desc r, storeLane_lode g o t desc r⟩⟩

end Sys2Proof

/-! Proofs about merges (R53, R56 to R61), which settle O51. -/

namespace Sys2Proof.Machine

/-! ## Wrapped values of the integer types (R254) -/

theorem tyBits_pos (t : Ty) : 0 < t.bits := by cases t <;> decide

theorem tyBits_le (t : Ty) : t.bits ≤ 64 := by cases t <;> decide

/-- A type reads from a raw value its low bits, up to a multiple of the type's range. -/
theorem tyVal_emod (t : Ty) (x : DWord) : tyVal t x % 2 ^ t.bits = (x.toNat : Int) % 2 ^ t.bits := by
  unfold tyVal
  split_ifs <;> simp

theorem tyVal_bounds (t : Ty) (x : DWord) : tyMin t ≤ tyVal t x ∧ tyVal t x ≤ tyMax t := by
  obtain ⟨k, hk⟩ : ∃ k, t.bits = k + 1 := Nat.exists_eq_succ_of_ne_zero (tyBits_pos t).ne'
  obtain ⟨half, hhalf⟩ : ∃ half : Int, (2 : Int) ^ k = half := ⟨_, rfl⟩
  have low : 0 ≤ (x.toNat : Int) % 2 ^ k ∧ (x.toNat : Int) % 2 ^ k < 2 ^ k :=
    ⟨Int.emod_nonneg _ (by positivity), Int.emod_lt_of_pos _ (by positivity)⟩
  have value : (x.toNat : Int) % 2 ^ (k + 1) = x.toNat % 2 ^ k + 2 ^ k * (x.toNat / 2 ^ k % 2 : Nat) := by
    exact_mod_cast Nat.mod_pow_succ
  simp only [tyMin, tyMax, tyVal, bitAt, hk, Nat.add_sub_cancel, value]
  rw [pow_succ, hhalf] at *
  rcases Nat.mod_two_eq_zero_or_one (x.toNat / 2 ^ k) with top | top <;> cases t.isSigned <;> simp [top] <;> omega

/-- Two numbers of a type's range that differ by a multiple of it are one. -/
theorem eq_of_bounds_of_emod {t : Ty} {r q : Int} (hr : tyMin t ≤ r ∧ r ≤ tyMax t) (hq : tyMin t ≤ q ∧ q ≤ tyMax t)
    (h : r % 2 ^ t.bits = q % 2 ^ t.bits) : r = q := by
  have range : tyMax t - tyMin t < 2 ^ t.bits := by cases t <;> decide
  have near : |r - q| < 2 ^ t.bits := by rw [abs_lt]; omega
  have zero := Int.eq_zero_of_abs_lt_dvd (Int.ModEq.dvd (Eq.symm h)) near
  omega

theorem toNat_ofInt_emod (t : Ty) (r : Int) : ((BitVec.ofInt 64 r).toNat : Int) % 2 ^ t.bits = r % 2 ^ t.bits := by
  have dvd : (2 : Int) ^ t.bits ∣ 2 ^ 64 := pow_dvd_pow 2 (tyBits_le t)
  rw [BitVec.toNat_ofInt, Int.toNat_of_nonneg (Int.emod_nonneg _ (by norm_num))]
  exact Int.emod_emod_of_dvd r (by simpa using dvd)

/-- What D receives of a result depends on it only up to a multiple of the type's range. -/
theorem tyWrite_congr {t : Ty} {r q : Int} (h : r % 2 ^ t.bits = q % 2 ^ t.bits) : tyWrite t false r = tyWrite t false q := by
  have same : tyVal t (BitVec.ofInt 64 r) = tyVal t (BitVec.ofInt 64 q) :=
    eq_of_bounds_of_emod (tyVal_bounds t _) (tyVal_bounds t _) (by simp only [tyVal_emod, toNat_ofInt_emod, h])
  simp [tyWrite, same]

theorem tyVal_tyWrite_emod (t : Ty) (r : Int) : tyVal t (tyWrite t false r) % 2 ^ t.bits = r % 2 ^ t.bits := by
  simp only [tyWrite, Bool.false_eq_true, if_false, tyVal_emod, toNat_ofInt_emod]

theorem tyVal_tyWrite {t : Ty} {r : Int} (h : tyMin t ≤ r ∧ r ≤ tyMax t) : tyVal t (tyWrite t false r) = r :=
  eq_of_bounds_of_emod (tyVal_bounds t _) h (tyVal_tyWrite_emod t r)

/-! ## The values of FP32 (R251) -/

/-- The value of the bits of a number: sign, exponent and fraction. -/
theorem f32_val_eq (x : Nat) : Fmt.f32.val x =
    if x / 2 ^ 23 % 2 ^ 8 = 255 then (if x % 2 ^ 23 = 0 then .inf (bitAt x 31) else .nan)
    else if x / 2 ^ 23 % 2 ^ 8 = 0 then .fin (bitAt x 31) (x % 2 ^ 23) ((1 : Nat) - 127 - 23)
    else .fin (bitAt x 31) (2 ^ 23 + x % 2 ^ 23) ((x / 2 ^ 23 % 2 ^ 8 : Nat) - 127 - 23) := rfl

/-- The exponent of the last place that FP32 has for a value. -/
def f32Unit (m : Nat) (e : Int) : Int := (if e + Nat.log2 m < 1 - 127 then 1 - 127 else e + Nat.log2 m) - 23

theorem f32_round_eq (neg : Bool) {m : Nat} (e : Int) (nonzero : m ≠ 0) :
    Fmt.f32.round .rn false (.fin neg m e) =
      if 255 * 2 ^ 23 ≤ (f32Unit m e + 23 + 127 - 1).toNat * 2 ^ 23 + roundAt .rn neg m e (f32Unit m e) then Fmt.f32.inf neg
      else Fmt.f32.zero neg + ((f32Unit m e + 23 + 127 - 1).toNat * 2 ^ 23 + roundAt .rn neg m e (f32Unit m e)) := if_neg nonzero

theorem f32_round_lt (v : FV) : Fmt.f32.round .rn false v < 2 ^ 32 := by
  have inf_lt (neg : Bool) : Fmt.f32.inf neg < 2 ^ 32 := by cases neg <;> decide
  have zero_le (neg : Bool) : Fmt.f32.zero neg ≤ 2 ^ 31 := by cases neg <;> decide
  cases v with
  | nan => decide
  | inf neg => exact inf_lt neg
  | fin neg m e =>
    have sign := zero_le neg
    by_cases nonzero : m = 0
    · have is_zero : Fmt.f32.round .rn false (.fin neg m e) = Fmt.f32.zero neg := if_pos nonzero
      omega
    · rw [f32_round_eq neg e nonzero]
      split
      · exact inf_lt neg
      · omega

/-- The last place of a value of 24 bits, or of fewer at the lowest exponent, is its own. -/
theorem f32Unit_own {m ex : Nat} (nonzero : m ≠ 0) (hm : m < 2 ^ 24) (hex : 0 < ex) (normal : 2 ^ 23 ≤ m ∨ ex = 1) :
    f32Unit m (ex - 127 - 23) = ex - 127 - 23 := by
  have most : Nat.log2 m < 24 := (Nat.log2_lt nonzero).mpr hm
  have least : 2 ^ 23 ≤ m → 23 ≤ Nat.log2 m := (Nat.le_log2 nonzero).mpr
  unfold f32Unit
  split <;> omega

/-- The bits of a number of FP32 are its sign, and its exponent and fraction. -/
theorem f32_round_fin (neg : Bool) {m ex : Nat} (hex : 0 < ex ∧ ex < 255) (hm : m < 2 ^ 24) (normal : 2 ^ 23 ≤ m ∨ ex = 1) :
    Fmt.f32.round .rn false (.fin neg m (ex - 127 - 23)) = Fmt.f32.zero neg + ((ex - 1) * 2 ^ 23 + m) := by
  by_cases nonzero : m = 0
  · obtain rfl : ex = 1 := by omega
    subst nonzero
    rfl
  · have whole : roundAt .rn neg m (ex - 127 - 23) (ex - 127 - 23) = m := by simp [roundAt]
    have place : ((ex - 127 - 23 : Int) + 23 + 127 - 1).toNat = ex - 1 := by omega
    rw [f32_round_eq neg _ nonzero, f32Unit_own nonzero hm hex.1 normal, whole, place, if_neg (by omega)]

theorem f32_fields (neg : Bool) {ex fr : Nat} (hex : ex < 2 ^ 8) (hfr : fr < 2 ^ 23) :
    (Fmt.f32.zero neg + (ex * 2 ^ 23 + fr)) / 2 ^ 23 % 2 ^ 8 = ex ∧ (Fmt.f32.zero neg + (ex * 2 ^ 23 + fr)) % 2 ^ 23 = fr ∧
      bitAt (Fmt.f32.zero neg + (ex * 2 ^ 23 + fr)) 31 = neg := by
  cases neg <;> simp [Fmt.zero, Fmt.f32, bitAt] <;> omega

/-- The value of a number's bits is the value of its rounding. -/
theorem f32_val_round_val (x : Nat) : Fmt.f32.val (Fmt.f32.round .rn false (Fmt.f32.val x)) = Fmt.f32.val x := by
  have hfr : x % 2 ^ 23 < 2 ^ 23 := Nat.mod_lt _ (by norm_num)
  have hex : x / 2 ^ 23 % 2 ^ 8 < 2 ^ 8 := Nat.mod_lt _ (by norm_num)
  rw [f32_val_eq x]
  generalize bitAt x 31 = neg, x % 2 ^ 23 = fr, x / 2 ^ 23 % 2 ^ 8 = ex at *
  split_ifs with special infinite subnormal
  · cases neg <;> rfl
  · rfl
  · obtain ⟨he, hf, hs⟩ := f32_fields neg (ex := 0) (by norm_num) hfr
    rw [f32_round_fin neg (ex := 1) (by norm_num) (by omega) (.inr rfl), Nat.sub_self, f32_val_eq, he, hf, hs]
    rfl
  · obtain ⟨he, hf, hs⟩ := f32_fields neg hex hfr
    have bits : (ex - 1) * 2 ^ 23 + (2 ^ 23 + fr) = ex * 2 ^ 23 + fr := by omega
    rw [f32_round_fin neg (by omega) (by omega) (.inl (by omega)), bits, f32_val_eq, he, hf, hs, if_neg special, if_neg subnormal]

/-! ## The order of values (R257) -/

/-- The number that a finite value is. -/
def finNum (neg : Bool) (m : Nat) (e : Int) : ℚ := (if neg then -(m : ℚ) else m) * 2 ^ e

/-- Where a value stands among those that are no NaN: by its number, and −0 below +0. -/
def FV.place : FV → WithBot (WithTop ℚ) ×ₗ Bool
  | .nan => toLex (⊥, false)
  | .inf neg => toLex (if neg then ⊥ else (⊤ : WithTop ℚ), !neg)
  | .fin neg m e => toLex ((finNum neg m e : WithTop ℚ), !neg)

theorem scaled_mul (neg : Bool) (m : Nat) {e e0 : Int} (h : e0 ≤ e) : (scaled neg m e e0 : ℚ) * 2 ^ e0 = finNum neg m e := by
  obtain ⟨k, rfl⟩ := Int.le.dest h
  have shift : (2 : ℚ) ^ (e0 + k) = 2 ^ e0 * 2 ^ k := by rw [zpow_add₀ (by norm_num), zpow_natCast]
  cases neg <;> simp [scaled, finNum, shift] <;> ring

/-- Numbers scaled to one exponent compare as the numbers do. -/
theorem compare_scaled (a b : Bool) (m n : Nat) (e g : Int) :
    compare (scaled a m e (min e g)) (scaled b n g (min e g)) = compare (finNum a m e) (finNum b n g) := by
  have pos : (0 : ℚ) < 2 ^ min e g := by positivity
  rw [← scaled_mul a m (min_le_left e g), ← scaled_mul b n (min_le_right e g)]
  rcases lt_trichotomy (scaled a m e (min e g)) (scaled b n g (min e g)) with h | h | h
  · rw [compare_lt_iff_lt.mpr h, compare_lt_iff_lt.mpr (mul_lt_mul_of_pos_right (Int.cast_lt.mpr h) pos)]
  · rw [h, compare_eq_iff_eq.mpr rfl, compare_eq_iff_eq.mpr rfl]
  · rw [compare_gt_iff_gt.mpr h, compare_gt_iff_gt.mpr (mul_lt_mul_of_pos_right (Int.cast_lt.mpr h) pos)]

theorem FV.below_iff {a b : FV} (ha : a ≠ .nan) (hb : b ≠ .nan) : a.below b = true ↔ a.place < b.place := by
  cases a with
  | nan => exact absurd rfl ha
  | inf x => cases b with
    | nan => exact absurd rfl hb
    | inf y => cases x <;> cases y <;> simp [below, cmp, place, negBit, Prod.Lex.toLex_lt_toLex]
    | fin y n g => cases x <;> simp [below, cmp, place, Prod.Lex.toLex_lt_toLex]
  | fin x m e => cases b with
    | nan => exact absurd rfl hb
    | inf y =>
      have top : ((finNum x m e : WithTop ℚ) : WithBot (WithTop ℚ)) < ⊤ := WithBot.coe_lt_coe.mpr (WithTop.coe_lt_top _)
      cases y <;> simp [below, cmp, place, Prod.Lex.toLex_lt_toLex, top]
    | fin y n g =>
      simp only [below, cmp, compare_scaled, place, Prod.Lex.toLex_lt_toLex, WithBot.coe_lt_coe, WithTop.coe_lt_coe, negBit]
      rcases lt_trichotomy (finNum x m e) (finNum y n g) with h | h | h
      · simp [compare_lt_iff_lt.mpr h, h]
      · cases x <;> cases y <;> simp [h]
      · simp [compare_gt_iff_gt.mpr h, h.not_gt, h.ne']

theorem FV.isNan_of_ne {a : FV} (h : a ≠ .nan) : a.isNan = false := by
  cases a with
  | nan => contradiction
  | inf | fin => rfl

/-- The value of two that stands no lower in an order, the first of equal ones; a NaN and a number give the number. -/
def FV.choose {β : Type} [LinearOrder β] (place : FV → β) (a b : FV) : FV :=
  if a.isNan then b else if b.isNan then a else if place a < place b then b else a

section
variable {β : Type} [LinearOrder β] (place : FV → β)

@[simp] theorem FV.choose_nan_left (b : FV) : choose place .nan b = b := rfl

@[simp] theorem FV.choose_nan_right (a : FV) : choose place a .nan = a := by cases a <;> rfl

theorem FV.choose_num {a b : FV} (ha : a ≠ .nan) (hb : b ≠ .nan) : choose place a b = if place a < place b then b else a := by
  simp [choose, isNan_of_ne ha, isNan_of_ne hb]

theorem FV.choose_eq_or (a b : FV) : choose place a b = a ∨ choose place a b = b := by
  unfold choose
  split_ifs <;> simp

theorem FV.choose_assoc (a b c : FV) : choose place a (choose place b c) = choose place (choose place a b) c := by
  by_cases ha : a = .nan
  · simp [ha]
  by_cases hb : b = .nan
  · simp [hb]
  by_cases hc : c = .nan
  · simp [hc]
  rw [choose_num place hb hc, choose_num place ha hb]
  split_ifs with bc ab ab
  · rw [choose_num place ha hc, choose_num place hb hc, if_pos bc, if_pos (ab.trans bc)]
  · rfl
  · rw [choose_num place ha hb, choose_num place hb hc, if_pos ab, if_neg bc]
  · rw [choose_num place ha hb, choose_num place ha hc, if_neg ab, if_neg fun ac => ab (ac.trans_le (not_lt.mp bc))]

end

theorem FV.fmax_eq_choose (a b : FV) : a.fmax b = choose place a b := by
  by_cases ha : a = .nan
  · subst ha; rfl
  by_cases hb : b = .nan
  · subst hb; cases a <;> rfl
  simp only [fmax, choose, below_iff ha hb]

theorem FV.fmin_eq_choose (a b : FV) : a.fmin b = choose (OrderDual.toDual ∘ place) a b := by
  by_cases ha : a = .nan
  · subst ha; rfl
  by_cases hb : b = .nan
  · subst hb; cases a <;> rfl
  simp only [fmin, choose, below_iff hb ha, Function.comp_apply, OrderDual.toDual_lt_toDual]

/-! ## The operations that are associative (R53, R356) -/

theorem redStep_add {t : Ty} (int : t ≠ .f32) (x y : DWord) : redStep t 0 x y = tyWrite t false (tyVal t x + tyVal t y) := if_neg int

theorem redStep_min {t : Ty} (int : t ≠ .f32) (x y : DWord) : redStep t 1 x y = tyWrite t false (min (tyVal t x) (tyVal t y)) := if_neg int

theorem redStep_max {t : Ty} (int : t ≠ .f32) (x y : DWord) : redStep t 2 x y = tyWrite t false (max (tyVal t x) (tyVal t y)) := if_neg int

theorem toNat_f32_round (v : FV) : (BitVec.ofNat 64 (Fmt.f32.round .rn false v)).toNat = Fmt.f32.round .rn false v := by
  have small := f32_round_lt v
  rw [BitVec.toNat_ofNat, Nat.mod_eq_of_lt (by omega)]

/-- A step that takes one of two FP32 numbers, by their places, is associative. -/
theorem f32_choose_assoc {β : Type} [LinearOrder β] (place : FV → β) {step : DWord → DWord → DWord}
    (h : ∀ a b, step a b = BitVec.ofNat 64 (Fmt.f32.round .rn false (FV.choose place (Fmt.f32.val a.toNat) (Fmt.f32.val b.toNat))))
    (v a b : DWord) : step v (step a b) = step (step v a) b := by
  have value (a b : DWord) : Fmt.f32.val (step a b).toNat = FV.choose place (Fmt.f32.val a.toNat) (Fmt.f32.val b.toNat) := by
    rw [h, toNat_f32_round]
    rcases FV.choose_eq_or place (Fmt.f32.val a.toNat) (Fmt.f32.val b.toNat) with e | e <;> rw [e, f32_val_round_val]
  rw [h v, h (step v a), value, value, FV.choose_assoc]

/-- A step that takes one of two integers, by an associative choice, is associative. -/
theorem int_choose_assoc {t : Ty} {choose : Int → Int → Int} (assoc : ∀ x y z, choose x (choose y z) = choose (choose x y) z)
    (takes : ∀ x y, choose x y = x ∨ choose x y = y) {step : DWord → DWord → DWord}
    (h : ∀ a b, step a b = tyWrite t false (choose (tyVal t a) (tyVal t b))) (v a b : DWord) :
    step v (step a b) = step (step v a) b := by
  have value (a b : DWord) : tyVal t (step a b) = choose (tyVal t a) (tyVal t b) := by
    rw [h]
    rcases takes (tyVal t a) (tyVal t b) with e | e <;> rw [e] <;> exact tyVal_tyWrite (tyVal_bounds t _)
  rw [h v, h (step v a), value, value, assoc]

theorem redStep_add_assoc {t : Ty} (int : t ≠ .f32) (v a b : DWord) :
    redStep t 0 v (redStep t 0 a b) = redStep t 0 (redStep t 0 v a) b := by
  have wraps (x y : DWord) : tyVal t (redStep t 0 x y) ≡ tyVal t x + tyVal t y [ZMOD 2 ^ t.bits] := by
    rw [redStep_add int]
    exact tyVal_tyWrite_emod t _
  rw [redStep_add int v, redStep_add int (redStep t 0 v a)]
  apply tyWrite_congr
  calc tyVal t v + tyVal t (redStep t 0 a b) ≡ tyVal t v + (tyVal t a + tyVal t b) [ZMOD 2 ^ t.bits] := (wraps a b).add_left _
    _ = tyVal t v + tyVal t a + tyVal t b := (add_assoc ..).symm
    _ ≡ tyVal t (redStep t 0 v a) + tyVal t b [ZMOD 2 ^ t.bits] := (wraps v a).symm.add_right _

theorem redStep_min_assoc (t : Ty) (v a b : DWord) : redStep t 1 v (redStep t 1 a b) = redStep t 1 (redStep t 1 v a) b := by
  by_cases float : t = .f32
  · subst float
    exact f32_choose_assoc (OrderDual.toDual ∘ FV.place)
      (fun a b => congrArg (fun v => BitVec.ofNat 64 (Fmt.f32.round .rn false v)) (FV.fmin_eq_choose ..)) v a b
  · exact int_choose_assoc (fun x y z => (min_assoc x y z).symm) min_choice (redStep_min float) v a b

theorem redStep_max_assoc (t : Ty) (v a b : DWord) : redStep t 2 v (redStep t 2 a b) = redStep t 2 (redStep t 2 v a) b := by
  by_cases float : t = .f32
  · subst float
    exact f32_choose_assoc FV.place
      (fun a b => congrArg (fun v => BitVec.ofNat 64 (Fmt.f32.round .rn false v)) (FV.fmax_eq_choose ..)) v a b
  · exact int_choose_assoc (fun x y z => (max_assoc x y z).symm) max_choice (redStep_max float) v a b

/-- The keys of R53 are associative, but for the FP32 sum. -/
theorem apply_assoc {op : ReqOp}
    (key : (∃ t ∈ [Ty.w32, .w64, .i32, .i64], op = .add t ∨ op = .max t ∨ op = .min t) ∨ op = .max .f32 ∨ op = .min .f32 ∨
      ∃ n, op = .load n ∨ op = .swap n) (v a b : DWord) : op.apply v (op.apply a b) = op.apply (op.apply v a) b := by
  rcases key with ⟨t, ht, rfl | rfl | rfl⟩ | rfl | rfl | ⟨n, rfl | rfl⟩
  · exact redStep_add_assoc (by rintro rfl; simp at ht) v a b
  · exact redStep_max_assoc t v a b
  · exact redStep_min_assoc t v a b
  · exact redStep_max_assoc .f32 v a b
  · exact redStep_min_assoc .f32 v a b
  · rfl
  · rfl

theorem apply_add_f32 (v x : DWord) : ((ReqOp.add .f32).apply v x).toNat =
    Fmt.f32.round .rn false (FV.add .rn (Fmt.f32.val v.toNat) (Fmt.f32.val x.toNat)) := toNat_f32_round _

/-! ## The parts of a merge (R57, R58) -/

/-- What the parts of a merge leave one after the other, their forwarded operand leaves at once. -/
theorem apply_forward {op : ReqOp} (assoc : ∀ v a b, op.apply v (op.apply a b) = op.apply (op.apply v a) b) (v a : DWord)
    (rest : List DWord) : op.apply v (forward op (a :: rest)) = (a :: rest).foldl op.apply v := by
  induction rest generalizing v a with
  | nil => rfl
  | cons b rest ih =>
    calc op.apply v (forward op (a :: b :: rest)) = op.apply (op.apply v a) (forward op (b :: rest)) := assoc v a _
      _ = (a :: b :: rest).foldl op.apply v := ih _ b

theorem shares_eq (op : ReqOp) (v : DWord) (xs : List DWord) :
    shares op v xs = (List.range xs.length).map fun i => (xs.take i).foldl op.apply v := by
  induction xs generalizing v with
  | nil => rfl
  | cons a rest ih => simp [shares, ih, List.range_succ_eq_map, Function.comp_def]

end Sys2Proof.Machine

namespace Sys2Proof

open Machine

/-- Settles O51: the parts' operation is associative for every key but the FP32 sum. -/
theorem mergesAreSerial : Obligations.MergesAreSerial := by
  intro op v xs some
  refine ⟨fun key => ?word, shares_eq op v xs, ?sum⟩
  case word =>
    obtain ⟨a, rest, rfl⟩ := List.exists_cons_of_ne_nil some
    rw [apply_forward (apply_assoc key)]
  case sum =>
    rintro rfl
    refine ⟨apply_add_f32 v, ?_⟩
    rintro a b rest rfl
    rfl

end Sys2Proof

/-! Proofs about the requests of the shaft fabric (R45, R54 to R60, R63, R69), which settle O50. -/

namespace Sys2Proof.Machine

/-! ## Entering a stage (R54 to R57) -/

/-- What a request is as it waits at a stage. -/
def Req.atStage (x : Req) (ready : Nat) : Req := { x with ready := if x.op.key.isSome && !x.plain then ready else 0, passed := false }

/-- The last request waiting at a stage that touches a byte of another. -/
def Fabric.lastMet (f : Fabric) (st : StageId) (x : Req) : Option (StageId × Req) :=
  (f.queues.filter fun q => q.1 == st && q.2.meets x).getLast?

/-- X may merge with Y, in the words of R55. -/
def Fabric.Merges (f : Fabric) (limit : Nat) (st : StageId) (x y : Req) : Prop :=
  x.ctx = y.ctx ∧ x.addr = y.addr ∧ x.op.key ≠ none ∧ x.op.key = y.op.key ∧ x.plain = false ∧
    y.plain = false ∧ y.passed = false ∧
    (isCollar st = true → (∀ t ∈ x.threads, t ∉ y.threads) ∧
      (f.entryOf st y ≠ none ∨ (f.sumps.filter fun p => p.stage == st).length < limit)) ∧
    (isCollar st = false → (f.sumps.filter fun p => p.stage == st).length < limit)

theorem Fabric.mayMerge_iff (f : Fabric) (limit : Nat) (st : StageId) (x y : Req) (ready : Nat) :
    f.mayMerge limit st (x.atStage ready) y = true ↔ f.Merges limit st x y := by
  cases collar : isCollar st <;>
    simp [Fabric.mayMerge, Fabric.Merges, Req.atStage, collar, Option.isSome_iff_ne_none, and_assoc, List.contains_eq_mem]

theorem Fabric.enter_alone (f : Fabric) (limit nid now ready : Nat) (st : StageId) (x : Req)
    (alone : ∀ q, f.lastMet st x = some q → ¬f.Merges limit st x q.2) :
    f.enter limit nid now st ready x = { f with queues := f.queues ++ [(st, x.atStage ready)] } := by
  change (match f.lastMet st x with | none => _ | some (_, y) => _) = _
  cases last : f.lastMet st x with
  | none => rfl
  | some q => exact if_neg fun may => alone q last ((f.mayMerge_iff limit st x q.2 ready).mp may)

/-- The entry that a merge of X with Y makes, or adds X to (R57). -/
def Fabric.mergeEntry (f : Fabric) (nid now : Nat) (st : StageId) (x y : Req) : Sump :=
  let joined := if isCollar st then f.entryOf st y else none
  { id := match joined with | some e => e.id | none => nid
    stage := st, op := y.op, parts := partsOf f st x y, since := now
    bad := match joined with | some e => e.bad | none => false }

/-- The request that goes on for the parts of an entry (R57). -/
def Sump.carrier (e : Sump) (x y : Req) : Req :=
  { y with opnd := forward y.op (e.parts.map (·.2.1)), rank := min x.rank y.rank, back := .entry e.id, threads := y.threads ++ x.threads }

theorem Fabric.enter_merged (f : Fabric) (limit nid now ready : Nat) (st : StageId) (x : Req) {q : StageId × Req}
    (last : f.lastMet st x = some q) (may : f.Merges limit st x q.2) :
    let e := f.mergeEntry nid now st (x.atStage ready) q.2
    f.enter limit nid now st ready x = { f with
      queues := f.queues.map (fun p => if p.1 == st && p.2.back == q.2.back then (st, e.carrier x q.2) else p)
      sumps := (f.sumps.filter fun p => p.id != e.id) ++ [e] } := by
  change (match f.lastMet st x with | none => _ | some (_, y) => _) = _
  rw [last]
  exact if_pos ((f.mayMerge_iff limit st x q.2 ready).mpr may)

theorem Fabric.enter_merges (f : Fabric) (limit nid now ready : Nat) (st : StageId) (x : Req) {q : StageId × Req}
    (last : f.lastMet st x = some q) (may : f.Merges limit st x q.2) : ∃ (z : Req) (e : Sump),
      (f.enter limit nid now st ready x).queues = f.queues.map (fun p => if p.1 == st && p.2.back == q.2.back then (st, z) else p) ∧
      e ∈ (f.enter limit nid now st ready x).sumps ∧ e.stage = st ∧ e.op = q.2.op ∧ e.parts = partsOf f st (x.atStage ready) q.2 ∧
      z = e.carrier x q.2 := by
  rw [f.enter_merged limit nid now ready st x last may]
  exact ⟨_, _, rfl, List.mem_append_right _ (List.mem_singleton.mpr rfl), rfl, rfl, rfl, rfl⟩

theorem execStageEnter_single {s : State} {st : StageId} {x : Req} (only : s.fabric.arrivals.filter (fun a => a.1 == st) = [(st, x)])
    (inner : ∀ c, st ≠ .collar c) :
    execStageEnter st s = .next { s with
      nextId := s.nextId + 1
      fabric := Fabric.enter { s.fabric with arrivals := s.fabric.arrivals.filter fun a => a.1 != st }
        (s.sumpLimit st) s.nextId s.time st (s.time + s.window st) x } := by
  have plain : isCollar st = false := by
    cases st with
    | collar c => exact absurd rfl (inner c)
    | landing _ | upcast _ | downcast _ => rfl
  have entering : s.entering st = s.enterOne st
      { fab := { s.fabric with arrivals := s.fabric.arrivals.filter fun a => a.1 != st }
        nid := s.nextId, entered := [], heldBack := [] } x := by
    simp [State.entering, only, plain, sortBy, insertBy, State.enterOne]
  cases st with
  | collar c => exact absurd rfl (inner c)
  | landing _ | upcast _ | downcast _ => simp only [execStageEnter, entering]; rfl

/-! ## Leaving a stage (R54, R55) -/

theorem execStageLeave_leaver {s : State} {st : StageId} {x : Req} (leaves : s.leaver st = some x) :
    execStageLeave st s = .next (State.send { s with fabric := s.fabric.leave st x } st x) := by
  simp [execStageLeave, leaves]

/-- A request that leaves marks those to its word that entered the queue before it. -/
theorem Fabric.leave_eq {f : Fabric} {st : StageId} {x y : Req} {pre post : List (StageId × Req)}
    (queue : f.queues = pre ++ (st, y) :: post) (same : y.back = x.back)
    (before : ∀ q ∈ pre, ¬(q.1 = st ∧ q.2.back = x.back)) (after : ∀ q ∈ post, ¬(q.1 = st ∧ q.2.back = x.back)) :
    f.leave st x = { f with
      queues := pre.map (fun q => if q.1 == st && q.2.meets x then (q.1, { q.2 with passed := true }) else q) ++ post } := by
  have others {l : List (StageId × Req)} (h : ∀ q ∈ l, ¬(q.1 = st ∧ q.2.back = x.back)) :
      ∀ q ∈ l, (!(q.1 == st && q.2.back == x.back)) = true := by simpa [imp_iff_not_or] using h
  simp only [Fabric.leave, queue]
  rw [List.takeWhile_append_of_pos (others before), List.dropWhile_append_of_pos (others before),
    List.takeWhile_cons_of_neg (by simp [same]), List.dropWhile_cons_of_neg (by simp [same]), List.append_nil,
    List.filter_cons_of_neg (by simp [same]), List.filter_eq_self.mpr (others after)]

/-! ## The act at the home slice (R60) -/

theorem sameMemory_liftL1 (s : State) (core : Nat) : SameMemory s (s.liftL1 core) := .ite (sameMemory_refl s) fun _ => rfl

theorem sameMemory_refresh (s : State) (hit : Pending → Bool) : SameMemory s (s.refresh hit) := .ite (fun _ => rfl) (sameMemory_refl s)

theorem sameMemory_dropL1 (s : State) (core : Nat) (p : PAddr) (n : Nat) : SameMemory s (s.dropL1 core p n) := by
  refine .ite ((sameMemory_refresh s _).trans (.ite (sameMemory_refl _) ?_)) (sameMemory_refl s)
  exact SameMemory.trans (fun _ => rfl) (sameMemory_liftL1 _ core)

theorem sameMemory_noteHome (s : State) (p : PAddr) (n rd : Nat) : SameMemory s (s.noteHome p n rd) :=
  .ite (sameMemory_refl s) fun _ => rfl

theorem sameMemory_noteApplied (s : State) (x : Req) (moment : Nat) : SameMemory s (s.noteApplied x moment) := by
  refine .ite (sameMemory_refl s) ?_
  exact List.foldlRecOn _ _ (fun _ => rfl) fun m hm p _ => hm.trans (sameMemory_dropL1 m p.core p.at_ 1)

/-- The state once a home has performed a request with a value in the word. -/
def State.performed (s : State) (x : Req) : State := (s.fresh.2.noteHome x.addr x.op.size x.rd).noteApplied x s.nextId

theorem sameMemory_performed (s : State) (x : Req) : SameMemory s (s.performed x) :=
  SameMemory.trans (sameMemory_noteHome s.fresh.2 x.addr x.op.size x.rd) (sameMemory_noteApplied _ x s.nextId)

theorem State.applyReq_good {s : State} {x : Req} (good : x.bad = false)
    (clean : x.op.isStore = true ∨ s.poisoned x.addr x.op.size = false) :
    s.applyReq x =
      let old : DWord := BitVec.ofNat 64 (s.natAt x.addr x.op.size)
      let at_ : PAddr := { x.addr with addr := x.addr.addr / 256 * 256 }
      let n := if x.op.isLoad then s else s.homeWriteNat x.ctx x.addr x.op.size (x.op.apply old x.opnd).toNat
      let line := if x.op.isLoad then s.bytesAt at_ 256 else []
      let spoilt := if x.op.isLoad then n.spoiltIn at_ else []
      (n.performed x, ⟨x.back, old, line, spoilt, false, n.nextId⟩) := by
  have free : (!x.op.isStore && s.poisoned x.addr x.op.size) = false := by
    rcases clean with h | h <;> simp [h]
  simp only [State.applyReq, good, free, Bool.false_eq_true, if_false]
  rfl

/-- A request no longer waits at its home. -/
def State.withoutHome (s : State) (x : Req) : State :=
  { s with fabric := { s.fabric with homes := s.fabric.homes.filter fun h => h.2.back != x.back } }

/-- A reply is on its way. -/
def State.replying (s : State) (r : Reply) : State := { s with fabric := { s.fabric with replies := s.fabric.replies ++ [r] } }

theorem execHomeApply_next {s : State} {slice : Nat} {x : Req} (next : s.nextAtHome slice [] s.fabric.homes = some (slice, x)) :
    execHomeApply slice s = .next (((s.withoutHome x).applyReq x).1.replying ((s.withoutHome x).applyReq x).2).purge := by
  rw [execHomeApply, next]
  rfl

/-! ## Replies (R58, R63) -/

theorem execReplySplit_splits {s : State} {st : StageId} {r : Reply} {e : Sump}
    (reply : s.fabric.replies.find? (fun r => r.to_ == .entry e.id) = some r)
    (entry : s.fabric.sumps.find? (fun x => x.id == e.id && x.stage == st) = some e) :
    execReplySplit st e.id s =
      let out := (e.parts.zip (shares e.op r.value (e.parts.map (·.2.1)))).map fun p =>
        (⟨p.1.1, p.2, r.line, r.spoilt, r.fatal || e.bad, r.moment⟩ : Reply)
      .next (State.purge { s with fabric := { s.fabric with
        sumps := s.fabric.sumps.filter (fun p => p.id != e.id)
        replies := (s.fabric.replies.filter fun q => q.to_ != .entry e.id) ++ out } }) := by
  rw [execReplySplit, reply, entry]

section
variable {s : State} {r : Reply} {p : Pending} (reply : s.fabric.replies.find? (fun r => r.to_ == .owner p.id) = some r)
  (asked : s.fabric.pending.find? (fun x => x.id == p.id) = some p)
include reply asked

theorem execReplyDelivery_thread {u : Nat} (owner : p.owner = .thread u) :
    let m : State := { s with fabric := { s.fabric with replies := s.fabric.replies.filter fun q => q.to_ != .owner p.id } }
    execReplyDelivery p.id s = .next (if r.fatal then (m.deferFault p .eccFatal).settleReplies else m.deliver p r) := by
  have ready : s.replyWaits p = false := by rw [State.replyWaits, owner]
  simp only [execReplyDelivery, reply, asked, ready]
  rfl

theorem execShaftDieReply_shaft {act : ShaftAct} (owner : p.owner = .shaft act) (ready : s.shaftWaits act = false) :
    let m : State := { s with fabric := { s.fabric with replies := s.fabric.replies.filter fun q => q.to_ != .owner p.id } }
    execShaftDieReply p.id s =
      .next (if r.fatal then (m.dropPending p.id).shaftFatal act else (m.dropPending p.id).shaftDone act r.value) := by
  simp only [execShaftDieReply, reply, asked, owner, ready]
  rfl

end

/-! ## Timeouts (R69) -/

theorem execFabricTimeout_overdue {s : State} {p : Pending} (overdue : s.fabric.pending.find? s.overdue = some p) :
    let root := s.fabric.rootOf s.fabric.depth (.owner p.id)
    let hit := s.fabric.pending.filter fun q => (s.fabric.ownersOf s.fabric.depth root).contains q.id && q.owner.timed
    let gone := s.fabric.entriesOf s.fabric.depth root
    let fab : Fabric := { s.fabric with sumps := s.fabric.sumps.filter fun e => !gone.contains e.id }
    execFabricTimeout s = .next (hit.foldl (fun m q => m.deferFault q .fabricTimeout)
      (State.setReg { s with fabric := fab } (shf 0x28) (min (s.reg (shf 0x28) + hit.length) (2 ^ 32 - 1)))).settleReplies.purge := by
  simp only [execFabricTimeout, overdue]
  rfl

end Sys2Proof.Machine

namespace Sys2Proof

open Machine

/-- Settles O50: each clause is the lemma above about its step. -/
theorem fabricCarriesRequests : Obligations.FabricCarriesRequests := by
  intro s
  refine ⟨fun f limit nid now ready st x => ?enter, fun st x only inner => execStageEnter_single only inner,
    fun st x leaves => execStageLeave_leaver leaves, fun f st x y pre post => Fabric.leave_eq, fun slice x next good clean => ?home,
    fun st r e => execReplySplit_splits, fun r p reply asked => ?reply, fun p => execFabricTimeout_overdue⟩
  case enter =>
    exact ⟨f.enter_alone limit nid now ready st x, fun q => f.enter_merges limit nid now ready st x⟩
  case home =>
    have acts := State.applyReq_good (s := s.withoutHome x) good clean
    exact ⟨(execHomeApply_next next).trans (by rw [acts]; rfl), sameMemory_performed _ x⟩
  case reply =>
    refine ⟨fun u => execReplyDelivery_thread reply asked, fun act owner ready => ⟨fun value => ?_, fun fatal => ?_⟩⟩
    · exact (execShaftDieReply_shaft reply asked owner ready).trans (by rw [value]; rfl)
    · exact (execShaftDieReply_shaft reply asked owner ready).trans (by rw [fatal]; rfl)

end Sys2Proof

/-! Proofs about the packets that begin at a queue's head (R85, R88 to R98, R471), which settle O53. -/

namespace Sys2Proof.Machine

/-! ## Setting out changes no register (R65, R471) -/

@[simp] theorem State.noteHome_regs (s : State) (p : PAddr) (n rd : Nat) : (s.noteHome p n rd).regs = s.regs := by
  unfold State.noteHome
  dsimp only
  split_ifs <;> rfl

@[simp] theorem State.sendFlit_regs (s : State) (k : Nat) : (s.sendFlit k).regs = s.regs := by
  unfold State.sendFlit
  dsimp only
  split_ifs <;> rfl

theorem State.foldl_regs {α : Type} {f : State → α → State} (keeps : ∀ s x, (f s x).regs = s.regs) (s : State) (xs : List α) :
    (xs.foldl f s).regs = s.regs :=
  List.foldlRecOn (motive := fun m : State => m.regs = s.regs) xs f rfl fun m kept x _ => (keeps m x).trans kept

@[simp] theorem State.sendTo_regs (s : State) (ps : List PAddr) : (s.sendTo ps).regs = s.regs := by
  unfold State.sendTo
  split_ifs
  · exact State.foldl_regs State.sendFlit_regs s _
  · rfl

@[simp] theorem State.shaftReach_regs (s : State) (ps : List (PAddr × Nat)) : (s.shaftReach ps).regs = s.regs :=
  (State.sendTo_regs _ _).trans (State.foldl_regs (fun m p => m.noteHome_regs p.1 p.2 1) s ps)

@[simp] theorem State.reachPacket_regs (s : State) (ctx q : Nat) (ws : List Word) : (s.reachPacket ctx q ws).regs = s.regs := by
  unfold State.reachPacket
  split_ifs <;> simp

theorem State.reachPacket_reg (s : State) (ctx q : Nat) (ws : List Word) (off : Nat) :
    (s.reachPacket ctx q ws).reg off = s.reg off := by simp [State.reg]

/-! ## A packet that begins (R85) -/

/-- HEAD passes the packet. -/
theorem State.pushPacket_reg_head (s : State) (ctx q : Nat) (ws : List Word) (l : Option Launch) :
    (s.pushPacket ctx q ws l).2.reg (hifQ ctx q 0x10) = (s.reg (hifQ ctx q 0x10) + 1) % 2 ^ 32 :=
  State.reg_setReg_self _ _ _ ((Nat.mod_lt _ (by decide)).trans (by decide))

theorem State.pushPacket_mem_pkts (s : State) (ctx q : Nat) (ws : List Word) (l : Option Launch) :
    (s.pushPacket ctx q ws l).1 ∈ (s.pushPacket ctx q ws l).2.pkts := by simp [State.pushPacket]

theorem State.pushPacket_body (s : State) (ctx q : Nat) (ws : List Word) (l : Option Launch) :
    (s.pushPacket ctx q ws l).1.body = ws := rfl

/-! ## The packet at the head of a queue (R89, R98) -/

/-- No launch packet waits where a place is free for it (R110). -/
theorem waits_eq_false {t : Nat} {free : Bool} (place : isLaunchType t = true → free = true) : (isLaunchType t && !free) = false := by
  simpa using place

section
variable {s : State} {ctx q : Nat} {ws : List Word} {want : List Word → Bool} {act : State → Pkt → State}
  (head : s.head ctx q = some (.packet ws))
include head

theorem State.beginPacket_badType (bad : s.typeGood ctx q (pktType ws) = false) :
    s.beginPacket ctx q want act = s.refusePacket ctx q (1, 0) := by
  simp [State.beginPacket, head, bad]

variable (good : s.typeGood ctx q (pktType ws) = true) (wanted : want ws = true)
  (place : isLaunchType (pktType ws) = true → s.placeFree = true)
include good wanted place

theorem State.beginPacket_asks (dims : dimsWanted s ctx q ws = true) :
    s.beginPacket ctx q want act = s.askDims ctx q (pktNat ws 0x20 8) := by
  simp [State.beginPacket, head, good, wanted, dims, waits_eq_false place]

variable (dims : dimsWanted s ctx q ws = false)
include dims

theorem State.beginPacket_begins {l : Option Launch} (passes : packetCheck s ctx q ws = .ok l) :
    s.beginPacket ctx q want act =
      act ((s.reachPacket ctx q ws).pushPacket ctx q ws l).2 ((s.reachPacket ctx q ws).pushPacket ctx q ws l).1 := by
  simp [State.beginPacket, head, good, wanted, dims, passes, waits_eq_false place]

theorem State.beginPacket_refused {e : Refused} (fails : packetCheck s ctx q ws = .error e) :
    s.beginPacket ctx q want act = s.refusePacket ctx q e := by
  simp [State.beginPacket, head, good, wanted, dims, fails, waits_eq_false place]

end

/-- What O53 says of one instruction: it takes the packets `mine`, and one that begins does `act`. -/
def PacketBegins (i : Nat → Nat → Instr) (mine : List Word → Bool) (act : Nat → State → Pkt → State) : Prop :=
  ∀ (s : State) (ctx q : Nat) (ws : List Word), s.head ctx q = some (.packet ws) →
    (∀ l, s.typeGood ctx q (pktType ws) = true → mine ws = true → (isLaunchType (pktType ws) = true → s.placeFree = true) →
      dimsWanted s ctx q ws = false → packetCheck s ctx q ws = .ok l →
      let r := (s.reachPacket ctx q ws).pushPacket ctx q ws l
      exec (i ctx q) s = .next (act ctx r.2 r.1) ∧
        r.2.reg (hifQ ctx q 0x10) = (s.reg (hifQ ctx q 0x10) + 1) % 2 ^ 32 ∧ r.1 ∈ r.2.pkts ∧ r.1.body = ws) ∧
    (∀ e, s.typeGood ctx q (pktType ws) = true → mine ws = true → (isLaunchType (pktType ws) = true → s.placeFree = true) →
      dimsWanted s ctx q ws = false → packetCheck s ctx q ws = .error e → exec (i ctx q) s = .next (s.refusePacket ctx q e)) ∧
    (s.typeGood ctx q (pktType ws) = true → mine ws = true → (isLaunchType (pktType ws) = true → s.placeFree = true) →
      dimsWanted s ctx q ws = true → exec (i ctx q) s = .next (s.askDims ctx q (pktNat ws 0x20 8))) ∧
    (s.typeGood ctx q (pktType ws) = false → exec (i ctx q) s = .next (s.refusePacket ctx q (1, 0)))

/-- Where `beginPacket` wants the packets `mine`, and perhaps others, they begin, ask or are refused as R98 says. -/
theorem packetBegins_of_wants {i : Nat → Nat → Instr} {want mine : List Word → Bool} {act : Nat → State → Pkt → State}
    (runs : ∀ ctx q s, exec (i ctx q) s = .next (s.beginPacket ctx q want (act ctx)))
    (wants : ∀ ws, mine ws = true → want ws = true) : PacketBegins i mine act := by
  intro s ctx q ws head
  rw [runs]
  refine ⟨fun l good own place dims passes => ⟨?begins, ?head, State.pushPacket_mem_pkts .., State.pushPacket_body ..⟩,
    fun e good own place dims fails => ?refused, fun good own place dims => ?asks, fun bad => ?badType⟩
  case begins => rw [State.beginPacket_begins head good (wants ws own) place dims passes]
  case head => rw [State.pushPacket_reg_head, State.reachPacket_reg]
  case refused => rw [State.beginPacket_refused head good (wants ws own) place dims fails]
  case asks => rw [State.beginPacket_asks head good (wants ws own) place dims]
  case badType => rw [State.beginPacket_badType head bad]

/-- An instruction that runs `beginPacket` takes the packets that `beginPacket` wants. -/
theorem packetBegins_of_exec {i : Nat → Nat → Instr} {mine : List Word → Bool} {act : Nat → State → Pkt → State}
    (runs : ∀ ctx q s, exec (i ctx q) s = .next (s.beginPacket ctx q mine (act ctx))) : PacketBegins i mine act :=
  packetBegins_of_wants runs fun _ => id

/-! ## The COUNTER packets (R94) -/

/-- A COUNTER packet that initialises is one that does not add. -/
theorem counterInit_wanted (ws : List Word) (h : (pktType ws == 5 && bits (pktArg ws) 17 16 == 0) = true) :
    (pktType ws == 5 && bits (pktArg ws) 17 16 != 1) = true := by
  obtain ⟨type, init⟩ : pktType ws = 5 ∧ bits (pktArg ws) 17 16 = 0 := by simpa using h
  simp [type, init]

theorem counterInit_begins : PacketBegins .counterInit (fun ws => pktType ws == 5 && bits (pktArg ws) 17 16 == 0)
    fun _ s p => s.counterPacket p (fun _ v => v) false :=
  packetBegins_of_wants (fun _ _ _ => rfl) counterInit_wanted

theorem counterAdd_begins : PacketBegins .counterAdd (fun ws => pktType ws == 5 && bits (pktArg ws) 17 16 == 1)
    fun _ s p => s.counterPacket p (fun old v => old - v) true :=
  packetBegins_of_exec fun _ _ _ => rfl

end Sys2Proof.Machine

namespace Sys2Proof

open Machine

/-- Settles O53: each instruction runs `beginPacket` with its own packets and its own act. -/
theorem packetsBegin : Obligations.PacketsBegin := by
  unfold Obligations.PacketsBegin
  intro begins
  have same : begins = PacketBegins := rfl
  clear_value begins
  subst same
  exact ⟨packetBegins_of_exec fun _ _ _ => rfl, packetBegins_of_exec fun _ _ _ => rfl, packetBegins_of_exec fun _ _ _ => rfl,
    packetBegins_of_exec fun _ _ _ => rfl, packetBegins_of_exec fun _ _ _ => rfl, packetBegins_of_exec fun _ _ _ => rfl,
    counterInit_begins, counterAdd_begins, packetBegins_of_exec fun _ _ _ => rfl, packetBegins_of_exec fun _ _ _ => rfl,
    packetBegins_of_exec fun _ _ _ => rfl, packetBegins_of_exec fun _ _ _ => rfl⟩

end Sys2Proof

/-! Proofs about dependence counters and the arms they post (R118, R445, R446), which settle O37. -/

namespace Sys2Proof.Machine

/-! ## Tables and cores -/

@[simp] theorem Tab.get_del_self {α : Type} (d : α) (k : Nat) (t : Tab α) : Tab.get d k (Tab.del k t) = d := by
  simp [Tab.get_eq_find]

theorem Tab.get_del_other {α : Type} (d : α) {k j : Nat} (t : Tab α) (h : j ≠ k) : Tab.get d j (Tab.del k t) = Tab.get d j t := by
  simp [Tab.get_eq_find, Tab.find_del_other t h]

@[simp] theorem State.core_setCore_self (s : State) (n : Nat) (c : CoreSt) : (s.setCore n c).core n = c := Tab.get_set_self _ n c s.cores

theorem State.core_setCore_other (s : State) {n m : Nat} (c : CoreSt) (h : m ≠ n) : (s.setCore n c).core m = s.core m :=
  Tab.get_set_other _ c s.cores h

/-! ## Poison that is copied (R32) -/

theorem State.copyPoison_eq (s : State) (p q : PAddr) (n : Nat) : ∃ ps, s.copyPoison p q n = { s with poison := ps } := by
  unfold State.copyPoison
  split
  · exact ⟨s.poison, rfl⟩
  · exact ⟨_, rfl⟩

/-! ## The arms that are due (R118, R445) -/

/-- What `postDue` does with one arm of a core, whose state is handed on apart from the package's: a due arm becomes a task while
the pool has a free record, and any other stays. -/
def State.postArm (s : State) (core : Nat) (a : State × CoreSt) (m : Arm) : State × CoreSt :=
  let c := a.2
  if m.due && decide (c.pool.length < 2048) then
    let record := (List.range 8).map fun i => (BitVec.ofNat 32 (s.natAt ⟨.team core, m.addr + 4 * i⟩ 4) : Word)
    let task : Task := { team := m.team, entry := m.entry, posted := s.clock, record }
    (a.1.copyPoison ⟨.team core, m.addr⟩ ⟨.pool core, 32 * c.pool.length⟩ 32,
     { c with pool := c.pool ++ [task], perf := Tab.set 9 (Tab.get 0 9 c.perf + 1) c.perf })
  else (a.1, { c with arms := c.arms ++ [m] })

/-- What the arms of a core leave, one after another. -/
def State.postArms (s : State) (core : Nat) : State × CoreSt :=
  (s.core core).arms.foldl (s.postArm core) (s, { s.core core with arms := [] })

theorem State.postDue_eq (s : State) (core : Nat) :
    s.postDue core = if (s.core core).arms.any (·.due) then (s.postArms core).1.setCore core (s.postArms core).2 else s := rfl

section
variable (s : State) (core : Nat)

/-- Beside the core's own state, an arm changes only which places are poisoned; and it changes no counter. -/
theorem State.postArm_frame (a : State × CoreSt) (m : Arm) :
    (∃ ps, (s.postArm core a m).1 = { a.1 with poison := ps }) ∧ (s.postArm core a m).2.counters = a.2.counters := by
  unfold State.postArm
  dsimp only
  split
  · exact ⟨State.copyPoison_eq .., rfl⟩
  · exact ⟨⟨a.1.poison, rfl⟩, rfl⟩

theorem State.postArms_frame :
    (∃ ps, (s.postArms core).1 = { s with poison := ps }) ∧ (s.postArms core).2.counters = (s.core core).counters := by
  refine List.foldlRecOn (motive := fun a : State × CoreSt =>
    (∃ ps, a.1 = { s with poison := ps }) ∧ a.2.counters = (s.core core).counters) _ _ ⟨⟨s.poison, rfl⟩, rfl⟩ ?_
  rintro a ⟨⟨ps, state⟩, counters⟩ m -
  obtain ⟨⟨qs, next⟩, same⟩ := s.postArm_frame core a m
  exact ⟨⟨qs, by rw [next, state]⟩, same.trans counters⟩

/-- Posting changes only the core and which places are poisoned. -/
theorem State.postDue_frame : ∃ cs ps, s.postDue core = { s with cores := cs, poison := ps } := by
  rw [State.postDue_eq]
  split
  · obtain ⟨⟨ps, state⟩, -⟩ := s.postArms_frame core
    exact ⟨_, ps, by rw [state]; rfl⟩
  · exact ⟨s.cores, s.poison, rfl⟩

theorem State.postDue_counter (c j : Nat) : (s.postDue core).counter c j = s.counter c j := by
  rw [State.postDue_eq]
  split
  · obtain ⟨⟨ps, state⟩, counters⟩ := s.postArms_frame core
    unfold State.counter
    by_cases h : c = core
    · rw [h, State.core_setCore_self, counters]
    · rw [State.core_setCore_other _ _ h, state]
      rfl
  · rfl

/-- Where the pool has room for all the arms, exactly those that are not due stay. -/
theorem State.foldl_postArm_arms (ms : List Arm) (a : State × CoreSt) (room : a.2.pool.length + ms.length ≤ 2048) :
    (ms.foldl (s.postArm core) a).2.arms = a.2.arms ++ ms.filter (!·.due) := by
  induction ms generalizing a with
  | nil => simp
  | cons m ms ih =>
    have free : a.2.pool.length < 2048 := by simp only [List.length_cons] at room; omega
    cases due : m.due with
    | true =>
      have posted : (s.postArm core a m).2.arms = a.2.arms ∧ (s.postArm core a m).2.pool.length = a.2.pool.length + 1 := by
        simp [State.postArm, due, free]
      rw [List.foldl_cons, ih _ (by simp only [List.length_cons] at room; omega), posted.1]
      simp [due]
    | false =>
      have stays : s.postArm core a m = (a.1, { a.2 with arms := a.2.arms ++ [m] }) := by simp [State.postArm, due]
      rw [List.foldl_cons, stays, ih _ (by simp only [List.length_cons] at room; dsimp only; omega)]
      simp [due]

theorem State.postDue_arms (room : (s.core core).pool.length + (s.core core).arms.length ≤ 2048) :
    ((s.postDue core).core core).arms = (s.core core).arms.filter (!·.due) := by
  rw [State.postDue_eq]
  split
  · rw [State.core_setCore_self]
    exact s.foldl_postArm_arms core _ _ room
  · rename_i noneDue
    exact (List.filter_eq_self.mpr (by simpa using noneDue)).symm

end

/-! ## A write of a counter (R445, R446) -/

/-- A core with a counter written. -/
def CoreSt.putCounter (c : CoreSt) (k : Nat) (v : Word) : CoreSt :=
  { c with counters := if v = 0 then Tab.del k c.counters else Tab.set k v c.counters }

/-- A core with the arms of a counter due. -/
def CoreSt.callArms (c : CoreSt) (k : Nat) : CoreSt :=
  { c with arms := c.arms.map fun a => if a.counter == k then { a with due := true } else a }

theorem CoreSt.putCounter_self (c : CoreSt) (k : Nat) (v : Word) : Tab.get 0 k (c.putCounter k v).counters = v := by
  unfold CoreSt.putCounter
  split
  · simp [*]
  · simp

theorem CoreSt.putCounter_other (c : CoreSt) {k j : Nat} (v : Word) (h : j ≠ k) :
    Tab.get 0 j (c.putCounter k v).counters = Tab.get 0 j c.counters := by
  unfold CoreSt.putCounter
  split
  · exact Tab.get_del_other 0 _ h
  · exact Tab.get_set_other 0 v _ h

theorem CoreSt.callArms_waiting (c : CoreSt) (k : Nat) : ∀ a ∈ (c.callArms k).arms.filter (!·.due), a.counter ≠ k := by
  intro a mem own
  obtain ⟨mem, waits⟩ := List.mem_filter.mp mem
  obtain ⟨b, -, rfl⟩ := List.mem_map.mp mem
  by_cases h : b.counter = k
  · simp [h] at waits
  · simp [h] at own

section
variable (s : State) (core k : Nat) (v : Word) (posts : Bool)

/-- A write posts the arms of a counter that it brings to zero, if it is one that posts; and else only writes. -/
theorem State.setCounter_eq :
    s.setCounter core k v posts =
      if posts = true ∧ s.counter core k ≠ 0 ∧ v = 0 then
        (s.setCore core (((s.core core).putCounter k v).callArms k)).postDue core
      else s.setCore core ((s.core core).putCounter k v) := by
  unfold State.setCounter
  dsimp only
  refine if_congr ?_ rfl rfl
  simp [State.counter, and_assoc]

theorem State.setCounter_counter (c j : Nat) :
    (s.setCounter core k v posts).counter c j = (s.setCore core ((s.core core).putCounter k v)).counter c j := by
  rw [State.setCounter_eq]
  split
  · rw [State.postDue_counter]
    unfold State.counter
    by_cases h : c = core
    · rw [h, State.core_setCore_self, State.core_setCore_self]
      rfl
    · rw [State.core_setCore_other _ _ h, State.core_setCore_other _ _ h]
  · rfl

theorem State.setCounter_self : (s.setCounter core k v posts).counter core k = v := by
  rw [State.setCounter_counter, State.counter, State.core_setCore_self, CoreSt.putCounter_self]

theorem State.setCounter_other {c j : Nat} (h : c ≠ core ∨ j ≠ k) : (s.setCounter core k v posts).counter c j = s.counter c j := by
  rw [State.setCounter_counter, State.counter, State.counter]
  by_cases same : c = core
  · subst same
    rw [State.core_setCore_self, CoreSt.putCounter_other _ v (h.resolve_left (not_not.mpr rfl))]
  · rw [State.core_setCore_other _ _ same]

/-- The arms of a counter that a write brings to zero have left, where the pool has room for the core's arms. -/
theorem State.setCounter_zero_arms (old : s.counter core k ≠ 0)
    (room : (s.core core).pool.length + (s.core core).arms.length ≤ 2048) :
    ∀ a ∈ ((s.setCounter core k 0 true).core core).arms, a.counter ≠ k := by
  have called : ∀ c : CoreSt, (c.callArms k).pool.length + (c.callArms k).arms.length = c.pool.length + c.arms.length := fun c => by
    simp [CoreSt.callArms]
  rw [State.setCounter_eq, if_pos ⟨rfl, old, rfl⟩, State.postDue_arms, State.core_setCore_self]
  · exact CoreSt.callArms_waiting _ k
  · rw [State.core_setCore_self, called]
    exact room

end

end Sys2Proof.Machine

namespace Sys2Proof

open Machine

/-- Settles O37: a due arm leaves the table as it is posted, and posting changes no counter. -/
theorem countersReadBack : Obligations.CountersReadBack := by
  intro s core k v posts
  refine ⟨s.setCounter_self core k v posts, fun c j => s.setCounter_other core k v posts, fun posting zero old room => ?_⟩
  subst posting zero
  exact s.setCounter_zero_arms core k old room

end Sys2Proof

/-! Proofs about tasks, counters, receive windows and the submission port (R99, R118, R442 to R447, R450), which settle O36. -/

namespace Sys2Proof.Machine

/-! ## Lanes that act one after another (R442) -/

/-- An instruction that runs its lanes one after another does what each lane's act says. -/
theorem acts_of_inOrder {k : Opc} {i : Op → Instr} {free : State → List Thread → Prop}
    {R : Op → Group → State → Thread → State → Prop} {body : Op → State → Group → List Thread → Body}
    {act : Op → Group → State → Thread → Except Flt State} (runs : ∀ o s, exec (i o) s = s.issue k o (body o s))
    (goes : ∀ o s g, free s (s.executing g o) → body o s g (s.executing g o) = Body.of (inOrder s (s.executing g o) (act o g)))
    (does : ∀ o g s t e, R o g s t e → act o g s t = .ok e) : Acts k i free R := by
  intro o s e c g ready isFree lanes
  rw [runs]
  refine State.issue_done ready ?_
  rw [goes o s g isFree, inOrder_ok (does o g) lanes]
  rfl

/-- A release acts once the earlier accesses of its threads have been performed. -/
theorem acts_of_releasing {k : Opc} {i : Op → Instr} {R : Op → Group → State → Thread → State → Prop}
    {act : Op → Group → State → Thread → Except Flt State} (runs : ∀ o s, exec (i o) s = s.releasing k o (act o))
    (does : ∀ o g s t e, R o g s t e → act o g s t = .ok e) : Acts k i Drained R := by
  refine acts_of_inOrder runs (fun o s g drained => if_neg ?_) does
  simpa [drained.1] using drained.2

/-! ## Tasks (R443, R444) -/

theorem taskPost_posts : Acts .taskPost .taskPost Drained fun o g s t e =>
    ∃ va, s.taskEntry g t o = .ok va ∧
      ((s.postTask g.core ⟨t.team, va, t.regsFrom o.b.toNat 8, s.clock⟩ = none ∧
          e = s.onThread t.uid fun y => y.setPred (taskPred o) false) ∨
        ∃ m, s.postTask g.core ⟨t.team, va, t.regsFrom o.b.toNat 8, s.clock⟩ = some m ∧
          e = m.onThread t.uid fun y => y.setPred (taskPred o) true) := by
  refine acts_of_releasing (fun _ _ => rfl) ?_
  rintro o g s t e ⟨va, entry, ⟨full, rfl⟩ | ⟨m, posted, rfl⟩⟩
  · simp [entry, full, Except.map]
  · simp [entry, posted, Except.map]

theorem taskArm_arms : Acts .taskArm .taskArm Drained fun o g s t e =>
    ∃ va addr, s.taskEntry g t o = .ok va ∧ s.armPlace t (t.reg o.b.toNat) = .ok addr ∧
      ((512 ≤ (s.core g.core).arms.length ∧ e = s.onThread t.uid fun y => y.setPred (taskPred o) false) ∨
        ((s.core g.core).arms.length < 512 ∧
          e = (s.arm g.core ⟨o.d.toNat, t.team, va, addr, false⟩).onThread t.uid fun y => y.setPred (taskPred o) true)) := by
  refine acts_of_releasing (fun _ _ => rfl) ?_
  rintro o g s t e ⟨va, addr, entry, place, ⟨full, rfl⟩ | ⟨room, rfl⟩⟩
  · simp [entry, place, full, Except.map, Except.bind]
  · simp [entry, place, Nat.not_le.mpr room, Except.map, Except.bind]

/-! ## Dependence counters (R445, R446) -/

theorem cntInit_writes : Acts .cntInit .cntInit Drained fun o g s t e => e = s.setCounter g.core o.d.toNat (o.srcB32 t) false :=
  acts_of_releasing (fun _ _ => rfl) fun _ _ _ _ _ written => congrArg Except.ok written.symm

theorem cntAdd_adds : Acts .cntAdd .cntAdd Drained fun o g s t e =>
    e = s.setCounter g.core o.d.toNat (s.counter g.core o.d.toNat + o.srcB32 t) true :=
  acts_of_releasing (fun _ _ => rfl) fun _ _ _ _ _ written => congrArg Except.ok written.symm

theorem cntRd_reads {o : Op} {s : State} {c : Cur} {g : Group} (ready : s.Ready .cntRd o c g)
    (free : heldBack (s.executing g o) = false) :
    exec (.cntRd o) s = .next (s.wentOn (s.onThreads (s.uids g o) fun t =>
      (t.observe s.nextId).setReg o.d.toNat (s.counter g.core o.a.toNat)) .cntRd o c g) :=
  State.issue_done ready (by rw [free]; rfl)

/-! ## Receive windows (R447) -/

theorem winArm_arms : Acts .winArm .winArm Unheld fun o g s t e =>
    let n := (o.srcB32 t).toNat
    let va := t.pair o.a.toNat
    let idx := (o.imm.extractLsb' 0 4).toNat
    let others := (s.core g.core).windows.filter fun w => w.index != idx
    (n = 0 ∧ e = s.setCore g.core { s.core g.core with windows := others }) ∨
    (n ≠ 0 ∧ va.toNat % 256 = 0 ∧ n % 256 = 0 ∧ n ≤ 2 ^ 31 ∧ ∃ rs, windowRanges s g.ctx 32769 va.toNat n = .ok rs ∧
      e = (s.setCore g.core { s.core g.core with
        windows := others ++ [⟨idx, o.d.toNat, rs, n, 0, o.imm.getLsbD 4⟩] }).notePages g.core g.ctx va.toNat n) := by
  refine acts_of_inOrder (fun _ _ => rfl) (fun o s g free => if_neg (by simp [show heldBack _ = false from free])) ?_
  rintro o g s t e (⟨zero, rfl⟩ | ⟨nonzero, aligned, whole, short, rs, ranges, rfl⟩)
  · exact if_pos zero
  · refine (if_neg nonzero).trans ((if_neg (by omega)).trans ?_)
    rw [ranges]
    rfl

/-! ## The submission port (R99, R450) -/

theorem post64_posts : Acts .post64 .post64 Drained fun o g s t e =>
    (t.pair o.a.toNat).toNat % 64 = 0 ∧ ∃ q, s.portAt g.ctx (t.pair o.a.toNat) = .ok q ∧
      e = (s.postPacket g.ctx g.core q (t.regsFrom o.b.toNat 16)).1.onThread t.uid fun y =>
        y.setReg o.d.toNat (BitVec.ofNat 32 (s.postPacket g.ctx g.core q (t.regsFrom o.b.toNat 16)).2) := by
  refine acts_of_releasing (fun _ _ => rfl) ?_
  rintro o g s t e ⟨aligned, q, port, rfl⟩
  simp [aligned, port, Except.map]

end Sys2Proof.Machine

namespace Sys2Proof

open Machine

/-- Settles O36: each clause is the lemma above about its instruction. -/
theorem tasksCountersWindowsPosts : Obligations.TasksCountersWindowsPosts :=
  ⟨⟨taskPost_posts, taskArm_arms, cntInit_writes, cntAdd_adds, fun _ _ _ _ ready free => cntRd_reads ready free⟩,
    winArm_arms, post64_posts⟩

end Sys2Proof

/-! Proofs about the onsetter (R107 to R126, R145, R158), which settle O60. -/

namespace Sys2Proof.Machine

/-! ## Launches that are claimed, placed or starved (R110 to R117) -/

theorem claimBatch_claims {s : State} {l : Launch} (found : s.launches.find? s.mayClaim = some l) :
    exec .claimBatch s = .next
      ((s.onLaunch l.lid fun l => { l with claiming := true }).shaftAt l.ctx (.claim l.lid) l.claim .atomic (.add .w64) 16) := by
  change execClaimBatch s = _
  rw [execClaimBatch, found]

theorem placeCluster_replaces {s t : State} (due : s.placeDue = true) (back : s.replace = some t) :
    exec .placeCluster s = .next { t with steps := t.steps + 1, lastPlace := t.clock } := by
  change execPlaceCluster s = _
  rw [execPlaceCluster, if_neg (by simp [due]), back]

/-- Where the first launch that is offered fits, no launch is skipped. -/
theorem State.skips_nil {s : State} {l : Launch} {rest : List Launch} {c : Nat × List Nat} (first : s.offered = l :: rest)
    (fits : s.choice l = some c) : s.skips = [] := by
  simp [State.skips, first, fits]

theorem placeCluster_places {s : State} {l : Launch} {rest : List Launch} {n : Nat} {cs : List Nat} (due : s.placeDue = true)
    (stays : s.replace = none) (first : s.offered = l :: rest) (fits : s.choice l = some (n, cs)) :
    exec .placeCluster s =
      .next ((s.place l n cs).preemptDue.elim (s.place l n cs) (s.place l n cs).preemptNow).judgeSlices := by
  change execPlaceCluster s = _
  rw [execPlaceCluster, if_neg (by simp [due]), stays]
  simp only [State.skips_nil first fits, first, fits, List.map_nil, List.foldl_nil, List.contains_nil, Bool.not_false, List.find?_cons]
  cases (s.place l n cs).preemptDue <;> rfl

theorem starved_marks {s : State} {l : Launch} (found : s.starving = some l) :
    exec .starved s = .next (s.onLaunch l.lid fun l => { l with starved := true }) := by
  change execStarved s = _
  rw [execStarved, found]

/-! ## Slices and pre-emptions (R121 to R126) -/

/-- A state where the slice clock of a context starts again. -/
def State.restartSlice (s : State) (c : Nat) : State := { s with sliceStart := Tab.set c s.time s.sliceStart }

theorem State.preempting_of_none {s : State} (c : Nat) (idle : s.preempt = none) : s.preempting c = false := by
  simp [State.preempting, idle]

section
variable {s : State} {c : Nat} (ended : s.sliceOver = some c)
include ended

theorem execSliceExpiry_eq :
    execSliceExpiry s =
      if !(s.restartSlice c).equalWaits c || s.preempting c then .next (s.restartSlice c)
      else if s.preempt.isSome then .next { s.restartSlice c with sliceDue := dedup (s.sliceDue ++ [c]) }
      else .next ((s.restartSlice c).preemptNow c) := by
  rw [execSliceExpiry, ended]
  rfl

theorem sliceExpiry_preempts (waits : (s.restartSlice c).equalWaits c = true) (idle : s.preempt = none) :
    exec .sliceExpiry s = .next ((s.restartSlice c).preemptNow c) := by
  refine (execSliceExpiry_eq ended).trans ?_
  rw [if_neg (by simp [waits, State.preempting_of_none c idle]), if_neg (by simp [idle])]

theorem sliceExpiry_defers (waits : (s.restartSlice c).equalWaits c = true) (busy : s.preempt ≠ none)
    (other : s.preempting c = false) :
    exec .sliceExpiry s = .next { s.restartSlice c with sliceDue := dedup (s.sliceDue ++ [c]) } := by
  refine (execSliceExpiry_eq ended).trans ?_
  rw [if_neg (by simp [waits, other]), if_pos (Option.isSome_iff_ne_none.mpr busy)]

theorem sliceExpiry_restarts (leave : (s.restartSlice c).equalWaits c = false ∨ s.preempting c = true) :
    exec .sliceExpiry s = .next (s.restartSlice c) := by
  refine (execSliceExpiry_eq ended).trans (if_pos ?_)
  simpa using leave

end

theorem preemptReq_preempts {s : State} {ctx : Nat} (up : s.linkUp = true) (runs : s.running ctx = true)
    (free : s.preempting ctx = false) :
    exec (.preemptReq ctx) s = .next (if s.preempt.isSome then s.setReg (onsCtx ctx 0x10) 1 else s.preemptNow ctx) := by
  change execPreemptReq ctx s = _
  rw [execPreemptReq, if_neg (by simp [runs, free]), State.linked_up _ up]

theorem preemptEnd_ends {s : State} {p : Preempt} (drained : s.drained = some p) :
    exec .preemptEnd s = .next (s.noteDrain p).judgeSlices := by
  change execPreemptEnd s = _
  rw [execPreemptEnd, drained]

theorem State.judgeSlices_eq (s : State) :
    s.judgeSlices = if s.preempt = none then { s with sliceDue := s.sliceDue.filter s.equalWaits } else s := by
  unfold State.judgeSlices
  cases s.preempt <;> rfl

/-! ## A reset by force (R126) -/

/-- A bit that is set reads 1. -/
theorem bitAt_setBits_one (x i : Nat) : bitAt (setBits x i i 1) i = true := by
  have low := bitAt_setBits_zero x i
  have raised : setBits x i i 1 = setBits x i i 0 + 2 ^ i := by simp [setBits]
  rw [bitAt, raised, Nat.add_div_right _ (by positivity)]
  simp only [bitAt, beq_eq_false_iff_ne, beq_iff_eq] at low ⊢
  omega

/-- A register with STOPPED set still fits its register. -/
theorem setBits_stopped_lt {x : Nat} (h : x < 2 ^ 64) : setBits x 1 1 1 < 2 ^ 64 := by
  simp only [setBits, bits]
  omega

theorem State.stopContext_ctxStopped (s : State) (c : Nat) : (s.stopContext c).ctxStopped c = true := by
  rw [State.ctxStopped, State.stopContext, State.reg_setReg_self _ _ _ (setBits_stopped_lt (s.reg_lt _)), bitAt_setBits_one]

theorem State.judgeSlices_records (s : State) : s.judgeSlices.records = s.records := by
  rw [State.judgeSlices_eq]
  split <;> rfl

theorem sameWork_notice (s : State) (ctx code : Nat) (addr : DWord) : SameWork s (s.notice ctx code addr) := ⟨rfl, rfl, rfl, rfl⟩

theorem sameWork_stopContext (s : State) (c : Nat) : SameWork s (s.stopContext c) := .setReg (.refl s) _ _

/-- A reset by force takes the teams and groups of the context. -/
theorem State.resetContext_idle (s : State) (ctx : Nat) :
    (∀ x ∈ (s.resetContext ctx).teams, x.ctx ≠ ctx) ∧ ∀ g ∈ (s.resetContext ctx).groups, g.ctx ≠ ctx := by
  obtain ⟨m, same, -, teams, groups, -⟩ := s.resetContext_steps ctx
  have left := (sameWork_removeTeams m _).trans same
  refine ⟨fun x mem own => ?_, fun g mem => ?_⟩
  · obtain ⟨hx, unlisted⟩ := List.mem_filter.mp (left.teams ▸ mem)
    have listed : x.tuid ∈ (s.teams.filter fun t => t.ctx == ctx).map (·.tuid) :=
      List.mem_map_of_mem (List.mem_filter.mpr ⟨teams ▸ hx, by simp [own]⟩)
    simp [listed] at unlisted
  · have kept : g ∈ s.groups.filter fun g => g.ctx != ctx := groups ▸ left.groups ▸ mem
    simpa using (List.mem_filter.mp kept).2

theorem deadlineExpiry_resets {s : State} {p : Preempt} (pre : s.preempt = some p) (late : p.deadline ≤ s.time) :
    ∃ t, exec .deadlineExpiry s = .next t ∧ t.ctxStopped p.ctx = true ∧ (∀ x ∈ t.teams, x.ctx ≠ p.ctx) ∧
      (∀ g ∈ t.groups, g.ctx ≠ p.ctx) ∧ ∃ r ∈ t.records, r.ctx = p.ctx ∧ r.code = 0xFE00 := by
  obtain ⟨teams, groups⟩ := s.resetContext_idle p.ctx
  have same : SameWork (s.resetContext p.ctx)
      (((s.resetContext p.ctx).notice p.ctx Cls.forcedReset.code 0).stopContext p.ctx).judgeSlices :=
    ((sameWork_notice _ p.ctx _ 0).trans (sameWork_stopContext _ p.ctx)).trans (sameWork_judgeSlices _)
  refine ⟨_, ?_, ?_, same.teams ▸ teams, same.groups ▸ groups, ?_⟩
  · change execDeadlineExpiry s = _
    rw [execDeadlineExpiry, pre]
    exact if_neg (Nat.not_lt.mpr late)
  · rw [State.ctxStopped, State.judgeSlices_reg]
    exact State.stopContext_ctxStopped _ p.ctx
  · rw [State.judgeSlices_records]
    exact ⟨_, List.mem_append_right _ (List.mem_singleton_self _), rfl, rfl⟩

/-! ## What settling a quad leaves of the teams (R162, R163, R291, R403, R434) -/

theorem State.foldl_teams {α : Type} {f : State → α → State} (keeps : ∀ s x, (f s x).teams = s.teams) (s : State) (xs : List α) :
    (xs.foldl f s).teams = s.teams :=
  List.foldlRecOn (motive := fun m : State => m.teams = s.teams) xs f rfl fun m kept x _ => (keeps m x).trans kept

theorem State.ite_teams {s t u : State} {c : Prop} [Decidable c] (h : t.teams = s.teams) (k : u.teams = s.teams) :
    (if c then t else u).teams = s.teams := by
  split
  · exact h
  · exact k

@[simp] theorem State.lift_teams (s : State) (p : PAddr) (n : Nat) : (s.lift p n).teams = s.teams := State.ite_teams rfl rfl

@[simp] theorem State.putBytes_teams (s : State) (p : PAddr) (bs : List Byte) : (s.putBytes p bs).teams = s.teams := by
  rw [State.putBytes, State.lift_teams]
  unfold State.setCells
  split
  case h_4 => exact State.ite_teams rfl rfl
  all_goals rfl

@[simp] theorem State.liftL1_teams (s : State) (core : Nat) : (s.liftL1 core).teams = s.teams := State.ite_teams rfl rfl

@[simp] theorem State.refresh_teams (s : State) (hit : Pending → Bool) : (s.refresh hit).teams = s.teams := State.ite_teams rfl rfl

@[simp] theorem State.emptyL1_teams (s : State) (core : Nat) : (s.emptyL1 core).teams = s.teams :=
  State.ite_teams (by simp) (by simp)

@[simp] theorem State.postDue_teams (s : State) (core : Nat) : (s.postDue core).teams = s.teams := by
  obtain ⟨cs, ps, eq⟩ := s.postDue_frame core
  rw [eq]

@[simp] theorem State.decCounter_teams (s : State) (core k : Nat) : (s.decCounter core k).teams = s.teams := by
  rw [State.decCounter, State.setCounter_eq]
  exact State.ite_teams (by simp) rfl

@[simp] theorem State.countWindow_teams (s : State) (core : Nat) (w : Window) (k : Nat) : (s.countWindow core w k).teams = s.teams :=
  State.ite_teams rfl (by simp)

@[simp] theorem State.countWindows_teams (s : State) (ctx : Nat) (p : PAddr) (n : Nat) : (s.countWindows ctx p n).teams = s.teams :=
  State.foldl_teams (fun m _ => State.ite_teams rfl
    (State.foldl_teams (fun m w => State.ite_teams rfl (m.countWindow_teams _ w _)) m _)) s _

@[simp] theorem State.homeWrite_teams (s : State) (ctx : Nat) (p : PAddr) (bs : List Byte) : (s.homeWrite ctx p bs).teams = s.teams :=
  (State.countWindows_teams _ ctx p _).trans (s.putBytes_teams p bs)

@[simp] theorem State.noteHome_teams (s : State) (p : PAddr) (n rd : Nat) : (s.noteHome p n rd).teams = s.teams := State.ite_teams rfl rfl

@[simp] theorem State.logTo_teams (s : State) (ctx : Nat) (r : Ring) (bs : List Byte) : (s.logTo ctx r bs).teams = s.teams := by
  refine State.ite_teams rfl (State.ite_teams rfl ?_)
  split
  · exact State.ite_teams (by simp) rfl
  · rfl

@[simp] theorem State.record_teams (s : State) (uid ctx : Nat) (flue : Bool) (bs : List Byte) :
    (s.record uid ctx flue bs).teams = s.teams :=
  State.ite_teams (s.logTo_teams ctx _ bs) rfl

@[simp] theorem State.freeAcc_teams (s : State) (q i : Nat) : (s.freeAcc q i).teams = s.teams := by
  unfold State.freeAcc
  split
  · rfl
  · dsimp only
    split <;> simp

theorem State.release_teams (s : State) (q : Nat) (r : Release) : (s.release q r).teams = s.teams := by
  cases r with
  | acc => exact State.foldl_teams (fun m i => m.freeAcc_teams q i) s _
  | opres => rfl

theorem State.answerWaiter_teams (s : State) (q : Nat) (w : Waiter) (got : List Nat) : (s.answerWaiter q w got).teams = s.teams :=
  State.foldl_teams (fun m i => m.lift_teams ⟨.acc q, 65536 * i⟩ 65536) s got

theorem State.judgeWaiters_teams (q n : Nat) (s : State) : (s.judgeWaiters q n).teams = s.teams := by
  induction n generalizing s with
  | zero => rfl
  | succ n ih =>
    unfold State.judgeWaiters
    dsimp only
    split
    · rfl
    · refine State.ite_teams ?_ (State.ite_teams ?_ rfl)
      · rw [ih, State.answerWaiter_teams]
      · rw [ih, State.answerWaiter_teams]

theorem State.settleUnits_teams (s : State) : s.settleUnits.teams = s.teams := by
  refine State.ite_teams rfl ?_
  refine (State.foldl_teams ?_ _ _).trans (State.foldl_teams ?_ _ _)
  all_goals intro m l; cases l <;> rfl

@[simp] theorem State.settleQuad_teams (s : State) (q : Nat) : (s.settleQuad q).teams = s.teams := by
  unfold State.settleQuad
  dsimp only
  rw [State.settleUnits_teams, State.judgeWaiters_teams]
  refine State.foldl_teams (fun m r => ?_) _ _
  exact State.ite_teams (m.release_teams q r) rfl

theorem teamEnd_removes {s : State} {x : Team} (found : s.teams.find? s.teamOver = some x) :
    ∃ t, exec .teamEnd s = .next t ∧ ∀ y ∈ t.teams, y.tuid ≠ x.tuid := by
  change ∃ t, execTeamEnd s = .next t ∧ _
  rw [execTeamEnd, found]
  refine ⟨_, rfl, fun y mem => ?_⟩
  rw [State.settleQuad_teams, (sameWork_removeTeams _ [x]).teams] at mem
  simpa using (List.mem_filter.mp mem).2

/-! ## Tasks and embers that start (R119, R145, R158) -/

@[simp] theorem State.postDue_threads (s : State) (core : Nat) : (s.postDue core).threads = s.threads := by
  obtain ⟨cs, ps, eq⟩ := s.postDue_frame core
  rw [eq]

theorem State.lift_eq (s : State) (p : PAddr) (n : Nat) : ∃ ps, s.lift p n = { s with poison := ps } := by
  unfold State.lift
  split
  · exact ⟨s.poison, rfl⟩
  · exact ⟨_, rfl⟩

theorem State.renumber_eq (s : State) (sp : Space) (unit : Nat) (stays : Nat → Bool) :
    ∃ ps, s.renumber sp unit stays = { s with poison := ps } := by
  unfold State.renumber
  split
  · exact ⟨s.poison, rfl⟩
  · exact ⟨_, rfl⟩

/-- Moving the poison of a record, and numbering the records that stay anew, changes only which places are poisoned. -/
theorem State.moveRecord_eq (s : State) (p q : PAddr) (n : Nat) (sp : Space) (unit : Nat) (stays : Nat → Bool) :
    ∃ ps, (s.movePoison p q n).renumber sp unit stays = { s with poison := ps } := by
  obtain ⟨ps, copied⟩ := s.copyPoison_eq p q n
  obtain ⟨qs, lifted⟩ := State.lift_eq { s with poison := ps } p n
  obtain ⟨rs, eq⟩ := State.renumber_eq { s with poison := qs } sp unit stays
  exact ⟨rs, by rw [State.movePoison, copied, lifted, eq]⟩

@[simp] theorem State.file_threads (s : State) (core ctx : Nat) (key : DWord) (ids : List Nat) :
    (s.file core ctx key ids).threads = s.threads :=
  List.foldlRecOn (motive := fun m : State => m.threads = s.threads) ids _ rfl fun _ kept _ _ => kept

@[simp] theorem State.bumpPerf_threads (s : State) (core n k : Nat) : (s.bumpPerf core n k).threads = s.threads := by
  unfold State.bumpPerf
  split <;> rfl

/-- The registers of a task or an ember of a team (R108, R119). -/
def State.startRegs (s : State) (x : Team) : Nat := match s.launch? x.launch with | some l => l.kernel.regs | none => 8

theorem taskStart_starts {s : State} {core i slot : Nat} {k : Task} {x : Team} {lend : Option Nat}
    (found : s.startable core = some (i, k, x, slot, lend)) :
    ∃ t y, exec (.taskStart core) s = .next t ∧ t.threads = s.threads ++ [y] ∧ y.uid = s.nextId ∧ y.core = core ∧ y.slot = slot ∧
      y.team = x.tuid ∧ y.kind = .task := by
  obtain ⟨ps, moved⟩ := s.moveRecord_eq ⟨.pool core, 32 * i⟩ ⟨.regs core, 1280 * slot⟩ 32 (.pool core) 32 fun j => j != i
  change ∃ t y, execTaskStart core s = .next t ∧ _
  rw [execTaskStart, found]
  dsimp only
  rw [State.renumberPool, moved]
  refine ⟨_, newThread s.nextId core slot x.tuid .task 0 (s.startRegs x) x.launch k.record none, rfl, ?joins, rfl, rfl, rfl, rfl, rfl⟩
  case joins =>
    rw [State.postDue_threads, State.file_threads]
    rfl

theorem emberBirth_bears {s : State} {core i slot : Nat} {b : Burst} {x : Team}
    (found : s.cores.findSome? (fun c => (s.hatchable c.1).map fun h => (c.1, h)) = some (core, i, b, x, slot)) :
    ∃ t y, exec .emberBirth s = .next t ∧ y ∈ t.threads ∧ y.uid = s.nextId ∧ y.core = core ∧ y.slot = slot ∧ y.team = x.tuid ∧
      y.kind = .ember ∧ y.ember = some { b.info with core := core } := by
  change ∃ t y, execEmberBirth s = .next t ∧ _
  rw [execEmberBirth, found]
  refine ⟨_, newThread s.nextId core slot x.tuid .ember 0 (s.startRegs x) x.launch (burstWords (s.startRegs x) b.bytes)
    (some { b.info with core }), rfl, ?joins, rfl, rfl, rfl, rfl, rfl, rfl⟩
  case joins =>
    rw [State.file_threads, State.bumpPerf_threads]
    exact List.mem_append_right _ (List.mem_singleton.mpr rfl)

end Sys2Proof.Machine

namespace Sys2Proof

open Machine

/-- Settles O60: each clause is the lemma above about its act. -/
theorem onsetterActs : Obligations.OnsetterActs := by
  intro s
  refine ⟨fun l => claimBatch_claims, fun t => placeCluster_replaces, fun l rest n cs due stays first fits => ⟨?quiet, ?preempts⟩,
    fun l => starved_marks, rfl,
    fun c ended => ⟨sliceExpiry_preempts ended, sliceExpiry_defers ended, sliceExpiry_restarts ended⟩,
    fun ctx up runs free => ⟨?now, ?later⟩, fun p => preemptEnd_ends, s.judgeSlices_eq, fun p => deadlineExpiry_resets,
    fun x => teamEnd_removes, fun core i k x slot lend => taskStart_starts, fun core i b x slot => emberBirth_bears⟩
  case quiet => exact fun quiet => by rw [placeCluster_places due stays first fits, quiet, Option.elim_none]
  case preempts => exact fun c victim => by rw [placeCluster_places due stays first fits, victim, Option.elim_some]
  case now => exact fun idle => by rw [preemptReq_preempts up runs free, if_neg (by simp [idle])]
  case later =>
    intro busy
    rw [preemptReq_preempts up runs free, if_pos (Option.isSome_iff_ne_none.mpr busy)]
    exact putsReg_setReg s _ (by norm_num)

end Sys2Proof

/-! Proofs about the parts of a group (R137, R146, R151), which settle O21. -/

namespace Sys2Proof.Machine

/-! ## Lists without repeats -/

@[simp] theorem mem_dedup {α : Type} [DecidableEq α] {x : α} (l : List α) : x ∈ dedup l ↔ x ∈ l := by
  induction l with
  | nil => rfl
  | cons y l ih =>
    by_cases listed : y ∈ l
    · simp only [dedup, if_pos listed, ih, List.mem_cons]
      exact ⟨.inr, fun h => h.elim (fun e => e ▸ listed) id⟩
    · simp only [dedup, if_neg listed, List.mem_cons, ih]

theorem nodup_dedup {α : Type} [DecidableEq α] (l : List α) : (dedup l).Nodup := by
  induction l with
  | nil => exact List.nodup_nil
  | cons y l ih =>
    by_cases listed : y ∈ l
    · simpa only [dedup, if_pos listed] using ih
    · simpa only [dedup, if_neg listed] using List.nodup_cons.mpr ⟨mt (mem_dedup l).mp listed, ih⟩

theorem mem_targetsOf {ts : List (Nat × DWord)} {pc : DWord} : pc ∈ targetsOf ts ↔ ∃ u, (u, pc) ∈ ts := by
  simp [targetsOf]

theorem nodup_targetsOf (ts : List (Nat × DWord)) : (targetsOf ts).Nodup := List.nodup_reverse.mpr (nodup_dedup _)

/-! ## Threads of a group -/

theorem State.uid_of_thread? {s : State} {u : Nat} {x : Thread} (found : s.thread? u = some x) : x.uid = u :=
  eq_of_beq (List.find?_some found :)

theorem State.mem_membersOf {s : State} {g : Group} {x : Thread} : x ∈ s.membersOf g ↔ x.uid ∈ g.members ∧ s.thread? x.uid = some x := by
  simp only [State.membersOf, List.mem_filterMap]
  constructor
  · rintro ⟨u, member, found⟩
    rw [State.uid_of_thread? found]
    exact ⟨member, found⟩
  · exact fun ⟨member, found⟩ => ⟨x.uid, member, found⟩

/-! ## The parts of a group (R137, R151) -/

/-- What part `i` of `n` acts on: the group itself, if it is the only part; else an unsealed copy, the first under the group's name and
any other under a fresh one. -/
def State.partBase (s : State) (g : Group) (n i : Nat) : Group :=
  match n, i with
  | 1, _ => g
  | _, 0 => { g.part g.gid g.members with formed := s.clock }
  | _, i + 1 => { g.part (s.nextId + i) g.members with formed := s.clock, ready := s.clock, aged := false }

/-- The groups that a split makes of one. -/
def State.splitParts (s : State) (g : Group) (parts : List (List Nat × (Group → Group))) : List Group :=
  parts.zipIdx.map fun p => p.1.2 { s.partBase g parts.length p.2 with members := p.1.1 }

section
variable (s : State) (g : Group)

@[simp] theorem State.partBase_core (n i : Nat) : (s.partBase g n i).core = g.core := by
  unfold State.partBase
  split <;> rfl

@[simp] theorem State.partBase_ctx (n i : Nat) : (s.partBase g n i).ctx = g.ctx := by
  unfold State.partBase
  split <;> rfl

theorem State.partBase_whole (i : Nat) : s.partBase g 1 i = g := rfl

theorem State.partBase_unsealed {n : Nat} (many : 1 < n) (i : Nat) : (s.partBase g n i).isSealed = false := by
  unfold State.partBase
  split
  · exact absurd many (lt_irrefl 1)
  all_goals rfl

@[simp] theorem State.splitGroup_threads (parts : List (List Nat × (Group → Group))) : (s.splitGroup g parts).threads = s.threads := by
  match parts with
  | [] => rfl
  | [_] => rfl
  | _ :: _ :: _ => rfl

end

/-- The groups that a change of one group leaves, where its name is its own. -/
theorem mem_map_named {gs : List Group} {g h : Group} {f : Group → Group} (mem : g ∈ gs) (only : ∀ x ∈ gs, x.gid = g.gid → x = g) :
    h ∈ (gs.map fun x => if x.gid == g.gid then f x else x) ↔ (h ∈ gs ∧ h.gid ≠ g.gid) ∨ h = f g := by
  simp only [List.mem_map, beq_iff_eq]
  constructor
  · rintro ⟨x, listed, rfl⟩
    by_cases named : x.gid = g.gid
    · simp [only x listed named]
    · simp [named, listed]
  · rintro (⟨listed, other⟩ | rfl)
    · exact ⟨h, listed, if_neg other⟩
    · exact ⟨g, mem, if_pos rfl⟩

/-- A split leaves the other groups, and makes its parts of the one. -/
theorem State.mem_splitGroup {s : State} {g : Group} (mem : g ∈ s.groups) (only : ∀ x ∈ s.groups, x.gid = g.gid → x = g)
    (fresh : g.gid < s.nextId) {parts : List (List Nat × (Group → Group))} (keeps : ∀ p ∈ parts, ∀ x, (p.2 x).gid = x.gid) (h : Group) :
    h ∈ (s.splitGroup g parts).groups ↔ (h ∈ s.groups ∧ h.gid ≠ g.gid) ∨ h ∈ s.splitParts g parts := by
  match parts with
  | [] => simp [State.splitGroup, State.dropGroup, State.splitParts]
  | [(ids, f)] => exact (mem_map_named mem only).trans (by simp [State.splitParts, State.partBase])
  | (ids, f) :: p :: rest =>
    let new := (p :: rest).zipIdx.map fun (p, i) => p.2 { g.part (s.nextId + i) p.1 with formed := s.clock, ready := s.clock, aged := false }
    have renamed : ∀ x ∈ new, x.gid ≠ g.gid := by
      intro x made
      obtain ⟨⟨q, i⟩, listed, rfl⟩ := List.mem_map.mp made
      have name := keeps q (List.mem_cons_of_mem _ (List.fst_mem_of_mem_zipIdx listed))
      simp only [name, Group.part]
      omega
    have parts_eq : s.splitParts g ((ids, f) :: p :: rest) = f { g.part g.gid ids with formed := s.clock } :: new := by
      rw [State.splitParts, List.zipIdx_cons', List.map_cons, List.map_map]
      rfl
    have split : h ∈ (s.splitGroup g ((ids, f) :: p :: rest)).groups ↔ (h ∈ s.groups ++ new ∧ h.gid ≠ g.gid) ∨
        h = f { g.part g.gid ids with formed := s.clock } :=
      mem_map_named (List.mem_append_left _ mem) fun x listed named =>
        (List.mem_append.mp listed).elim (only x · named) fun made => absurd named (renamed x made)
    rw [split, parts_eq, List.mem_append, List.mem_cons]
    have := renamed h
    tauto

/-! ## Targets (R146) -/

/-- The threads of a group that go to an address, by name. -/
def State.goers (s : State) (g : Group) (target : Thread → DWord) (pc : DWord) : List Nat :=
  ((((s.membersOf g).map fun t => (t.uid, target t)).filter fun e => e.2 == pc)).map (·.1)

/-- The parts of a group by target. -/
def State.goParts (s : State) (g : Group) (target : Thread → DWord) : List (List Nat × (Group → Group)) :=
  (targetsOf ((s.membersOf g).map fun t => (t.uid, target t))).map fun pc => (s.goers g target pc, fun x => x.atHeader pc)

theorem State.goTo_eq (s : State) (g : Group) (target : Thread → DWord) : s.goTo g target = s.splitGroup g (s.goParts g target) := rfl

section
variable {s : State} {g : Group} {target : Thread → DWord}

theorem State.mem_goers {pc : DWord} {u : Nat} :
    u ∈ s.goers g target pc ↔ u ∈ g.members ∧ ∃ x, s.thread? u = some x ∧ target x = pc := by
  simp only [State.goers, List.mem_map, List.mem_filter, beq_iff_eq]
  constructor
  · rintro ⟨_, ⟨⟨x, member, rfl⟩, goes⟩, rfl⟩
    obtain ⟨listed, found⟩ := State.mem_membersOf.mp member
    exact ⟨listed, x, found, goes⟩
  · rintro ⟨listed, x, found, goes⟩
    have name := State.uid_of_thread? found
    subst name
    exact ⟨_, ⟨⟨x, State.mem_membersOf.mpr ⟨listed, found⟩, rfl⟩, goes⟩, rfl⟩

theorem State.splitParts_goParts : s.splitParts g (s.goParts g target) =
    (targetsOf ((s.membersOf g).map fun t => (t.uid, target t))).zipIdx.map fun e =>
      { s.partBase g (s.goParts g target).length e.2 with members := s.goers g target e.1 }.atHeader e.1 := by
  simp [State.splitParts, State.goParts, List.zipIdx_map, Function.comp_def]

theorem State.goParts_pc : ((s.splitParts g (s.goParts g target)).map (·.pc)).Nodup := by
  have pcs : (s.splitParts g (s.goParts g target)).map (·.pc) = targetsOf ((s.membersOf g).map fun t => (t.uid, target t)) := by
    rw [State.splitParts_goParts, List.map_map]
    exact List.zipIdx_map_fst ..
  rw [pcs]
  exact nodup_targetsOf _

/-- What each part of a group by target is. -/
theorem State.mem_goParts {h : Group} (part : h ∈ s.splitParts g (s.goParts g target)) :
    ∃ i, h = { s.partBase g (s.goParts g target).length i with members := s.goers g target h.pc }.atHeader h.pc := by
  rw [State.splitParts_goParts] at part
  obtain ⟨⟨pc, i⟩, -, rfl⟩ := List.mem_map.mp part
  exact ⟨i, rfl⟩

theorem State.goParts_hold {u : Nat} {x : Thread} (member : u ∈ g.members) (found : s.thread? u = some x) :
    ∃ h ∈ s.splitParts g (s.goParts g target), u ∈ h.members := by
  have name := State.uid_of_thread? found
  subst name
  have aimed : target x ∈ targetsOf ((s.membersOf g).map fun t => (t.uid, target t)) :=
    mem_targetsOf.mpr ⟨x.uid, List.mem_map.mpr ⟨x, State.mem_membersOf.mpr ⟨member, found⟩, rfl⟩⟩
  rw [← List.zipIdx_map_fst 0 (targetsOf _)] at aimed
  obtain ⟨⟨pc, i⟩, here, rfl⟩ := List.mem_map.mp aimed
  rw [State.splitParts_goParts]
  exact ⟨_, List.mem_map.mpr ⟨_, here, rfl⟩, State.mem_goers.mpr ⟨member, x, found, rfl⟩⟩

end

end Sys2Proof.Machine

namespace Sys2Proof

open Machine

/-- Settles O21: the parts by target are those of a split, and each is a copy of the group at its target's header. -/
theorem targetsSplitTheGroup : Obligations.TargetsSplitTheGroup := by
  intro s g target mem only fresh live
  have keeps : ∀ p ∈ s.goParts g target, ∀ x, (p.2 x).gid = x.gid := by
    intro p listed x
    obtain ⟨pc, -, rfl⟩ := List.mem_map.mp listed
    rfl
  have length : (s.splitParts g (s.goParts g target)).length = (s.goParts g target).length := by simp [State.splitParts]
  rw [State.goTo_eq]
  refine ⟨s.splitGroup_threads g _, s.splitParts g (s.goParts g target), State.mem_splitGroup mem only fresh keeps, State.goParts_pc,
    fun h part => ?placed, fun u member => ?held, fun one h part => ?whole, fun many h part => ?unsealed⟩
  case placed =>
    obtain ⟨i, eq⟩ := State.mem_goParts part
    have members : h.members = s.goers g target h.pc := congrArg Group.members eq
    refine ⟨congrArg Group.clause eq, congrArg Group.wait eq, (congrArg Group.core eq).trans (s.partBase_core g _ i),
      (congrArg Group.ctx eq).trans (s.partBase_ctx g _ i), fun u => ?_⟩
    rw [members, State.mem_goers]
  case held =>
    obtain ⟨x, found⟩ := Option.ne_none_iff_exists'.mp (live u member)
    exact State.goParts_hold member found
  case whole =>
    obtain ⟨i, eq⟩ := State.mem_goParts part
    rw [← length, one, State.partBase_whole] at eq
    rw [eq]
    exact ⟨rfl, rfl⟩
  case unsealed =>
    obtain ⟨i, eq⟩ := State.mem_goParts part
    exact (congrArg Group.isSealed eq).trans (s.partBase_unsealed g (length ▸ many) i)

end Sys2Proof

/-! Proofs about enrolments, joins, filing and seals (R141, R147 to R152, R364), which settle O24. -/

namespace Sys2Proof.Machine

/-! ## Checks -/

/-- What a check finds, thread by thread. -/
theorem mem_faultsOf {xs : List Thread} {chk : Thread → Option Flt} {t : Thread} {f : Flt} :
    (t, f) ∈ faultsOf xs chk ↔ t ∈ xs ∧ chk t = some f := by
  simp [faultsOf]

/-- A body that stops on the faults of a check stops on them where it finds one. -/
theorem stop_of_faults {xs : List Thread} {chk : Thread → Option Flt} (found : ∃ t ∈ xs, chk t ≠ none) (go : Body) :
    (match faultsOf xs chk with
      | f :: fs => Body.stop (f :: fs)
      | [] => go) = .stop (faultsOf xs chk) := by
  obtain ⟨t, member, fails⟩ := found
  obtain ⟨f, fault⟩ := Option.ne_none_iff_exists'.mp fails
  split
  · next eq => rw [eq]
  · next none => exact absurd (mem_faultsOf.mpr ⟨member, fault⟩) (none ▸ List.not_mem_nil)

/-- A check that faults the threads of a predicate with one class. -/
theorem faultsOf_class (xs : List Thread) (p : Thread → Bool) (c : Cls) :
    faultsOf xs (fun t => if p t then some { cls := c, addr := 0 } else none) = allTake (xs.filter p) c :=
  faultsOf_eq xs p fun _ => { cls := c, addr := 0 }

theorem faultsOf_class_nil {xs : List Thread} {p : Thread → Bool} {c : Cls} (h : ∀ t ∈ xs, p t = false) :
    faultsOf xs (fun t => if p t then some { cls := c, addr := 0 } else none) = [] :=
  faultsOf_nil fun t member => if_neg (by simp [h t member])

theorem State.nextPc_issuing {s : State} {c : Cur} {g : Group} (issuing : s.Issuing c g) :
    s.nextPc g = g.pc + BitVec.ofNat 64 c.len := by
  rw [State.nextPc, issuing.1]

/-! ## The instructions (R141, R147 to R150, R364) -/

section
variable {o : Op} {s : State} {c : Cur} {g : Group}

theorem enrol_enrols (ready : s.Ready .enrol o c g) (somebody : s.executing g o ≠ []) (empty : ∀ t ∈ s.executing g o, joinReg o t = none) :
    exec (.enrol o) s = .next (s.wentOn (State.onThreads
      { s with nextId := s.nextId + 1, enrolments := s.enrolments ++ [⟨s.nextId, s.uids g o, g.members, g.fam, g.isSealed, false⟩] }
      (s.uids g o) fun t => { t with joins := t.joins.set o.d.toNat (some s.nextId) }) .enrol o c g) := by
  refine State.issue_done ready ?_
  rw [faultsOf_class_nil fun t member => by simp [empty t member]]
  exact if_neg (by simp [somebody])

theorem enrol_stops (ready : s.Ready .enrol o c g) (full : ∃ t ∈ s.executing g o, joinReg o t ≠ none) :
    exec (.enrol o) s = .next (s.stopped g (allTake ((s.executing g o).filter fun t => (joinReg o t).isSome) .stateIllegal)) := by
  refine State.issue_stop ready ?_
  obtain ⟨t, member, holds⟩ := full
  exact (stop_of_faults ⟨t, member, by simp [Option.isSome_iff_ne_none.mpr holds]⟩ _).trans (congrArg _ (faultsOf_class ..))

theorem join_waits (ready : s.Ready .join o c g) (held : ∀ t ∈ s.executing g o, joinReg o t ≠ none) :
    exec (.join o) s = .next (s.wentTo ((s.stayParts g
      ((dedup ((s.executing g o).map (joinReg o)).reverse).reverse.map fun e =>
        ((s.executing g o).filter fun t => joinReg o t == e).map (·.uid)) (.join o.d.toNat)).settleJoins) .join o g) := by
  refine State.issue_moved ready ?_
  rw [faultsOf_class_nil fun t member => Option.isNone_eq_false_iff.mpr (Option.isSome_iff_ne_none.mpr (held t member))]

theorem join_stops (ready : s.Ready .join o c g) (empty : ∃ t ∈ s.executing g o, joinReg o t = none) :
    exec (.join o) s = .next (s.stopped g (allTake ((s.executing g o).filter fun t => (joinReg o t).isNone) .stateIllegal)) := by
  refine State.issue_stop ready ?_
  obtain ⟨t, member, vacant⟩ := empty
  exact (stop_of_faults ⟨t, member, by simp [vacant]⟩ _).trans (congrArg _ (faultsOf_class ..))

/-- The names of the executing threads in slot order, in which `reform` files them. -/
def State.bySlot (s : State) (g : Group) (o : Op) : List Nat :=
  (sortBy (fun (a b : Thread) => decide (a.slot ≤ b.slot)) (s.executing g o)).map (·.uid)

theorem reform_files (ready : s.Ready .reform o c g) (closed : openJoin (s.executing g o) = []) :
    exec (.reform o) s = .next (s.wentTo (((s.onGroup g.gid fun h =>
      { h.atHeader (g.pc + BitVec.ofNat 64 c.len) with members := h.members.filter fun u => !(s.bySlot g o).contains u }).pruneGroups).file
        g.core g.ctx (g.pc + BitVec.ofNat 64 c.len) (s.bySlot g o)) .reform o g) := by
  refine State.issue_moved ready ?_
  simp only [closed, State.nextPc_issuing ready.1]
  rfl

/-- What `seal` checks of a thread: its birth, then its enrolments. -/
def sealCheck (t : Thread) : Option Flt :=
  if t.kind ≠ .birth then some { cls := .sealIllegal, addr := 0 }
  else if t.joins.any Option.isSome then some { cls := .stateIllegal, addr := 0 } else none

theorem sealCheck_eq_some {t : Thread} {f : Flt} : sealCheck t = some f ↔
    (t.kind ≠ .birth ∧ f = { cls := .sealIllegal, addr := 0 }) ∨
      (t.kind = .birth ∧ t.joins.any Option.isSome = true ∧ f = { cls := .stateIllegal, addr := 0 }) := by
  unfold sealCheck
  by_cases birth : t.kind = .birth
  · by_cases enlisted : t.joins.any Option.isSome = true
    · simpa [birth, enlisted] using eq_comm
    · simp [birth, enlisted]
  · simpa [birth] using eq_comm

theorem seal_waits (ready : s.Ready .seal o c g) (births : ∀ t ∈ s.executing g o, t.kind = .birth)
    (closed : openJoin (s.executing g o) = []) (somebody : s.executing g o ≠ []) :
    exec (.seal o) s = .next (s.wentTo ((s.stayParts g [s.uids g o] .seal).settleSeals) .seal o g) := by
  have passes : ∀ t ∈ s.executing g o, sealCheck t = none := by
    intro t member
    refine Option.eq_none_iff_forall_ne_some.mpr fun f fails => ?_
    obtain ⟨other, -⟩ | ⟨-, enlisted, -⟩ := sealCheck_eq_some.mp fails
    · exact other (births t member)
    · exact absurd (mem_faultsOf.mpr ⟨member, if_pos enlisted⟩) (closed ▸ List.not_mem_nil)
  refine State.issue_moved ready ?_
  change (match faultsOf (s.executing g o) sealCheck with | f :: fs => Body.stop (f :: fs) | [] => _) = _
  rw [faultsOf_nil passes]
  simp only [List.isEmpty_iff, somebody, if_false]
  rfl

theorem seal_stops (ready : s.Ready .seal o c g)
    (fails : ∃ t ∈ s.executing g o, t.kind ≠ .birth ∨ t.joins.any Option.isSome = true) :
    exec (.seal o) s = .next (s.stopped g (faultsOf (s.executing g o) sealCheck)) := by
  obtain ⟨t, member, bad⟩ := fails
  refine State.issue_stop ready (stop_of_faults ⟨t, member, ?_⟩ _)
  by_cases birth : t.kind = .birth
  · exact Option.ne_none_iff_exists'.mpr ⟨_, sealCheck_eq_some.mpr (.inr ⟨birth, bad.resolve_left (not_not.mpr birth), rfl⟩)⟩
  · exact Option.ne_none_iff_exists'.mpr ⟨_, sealCheck_eq_some.mpr (.inl ⟨birth, rfl⟩)⟩

end

/-! ## Joins and seals that close (R148, R150) -/

/-- A group past an instruction differs in its place alone. -/
theorem Group.past_eq (g : Group) (len : Nat) (long : Bool) :
    ∃ clause redo bpSkip, g.past len long = { g with pc := g.pc + BitVec.ofNat 64 len, clause := clause, redo := redo, bpSkip := bpSkip } := by
  unfold Group.past
  repeat' split
  all_goals exact ⟨_, _, _, rfl⟩

/-- The live threads of an enrolment. -/
def State.enrolled (s : State) (e : Enrolment) : List Thread := s.threads.filter fun t => e.members.contains t.uid

/-- The names of its live threads in slot order. -/
def State.enrolledIds (s : State) (e : Enrolment) : List Nat :=
  (sortBy (fun (a b : Thread) => decide (a.slot ≤ b.slot)) (s.enrolled e)).map (·.uid)

/-- The group that a closed join forms of the first of its parts (R148). -/
def State.joined (s : State) (e : Enrolment) (g : Group) : Group :=
  { g with members := s.enrolledIds e, isSealed := e.wasSealed && !e.foreign, byLane := false, wait := .none, formed := s.clock
           ready := s.clock, fam := e.fam }.past (s.instrLen g) false

/-- A thread whose enrolment is over. -/
def Thread.leaveJoin (eid : Nat) (t : Thread) : Thread := { t with joins := t.joins.map fun j => if j == some eid then none else j }

theorem mem_insertBy {α : Type} {le : α → α → Bool} {x y : α} (l : List α) : x ∈ insertBy le y l ↔ x = y ∨ x ∈ l := by
  induction l with
  | nil => simp [insertBy]
  | cons z l ih =>
    unfold insertBy
    split
    · exact List.mem_cons
    · rw [List.mem_cons, ih, List.mem_cons, or_left_comm]

@[simp] theorem mem_sortBy {α : Type} {le : α → α → Bool} {x : α} (l : List α) : x ∈ sortBy le l ↔ x ∈ l := by
  induction l with
  | nil => rfl
  | cons y l ih => exact (mem_insertBy _).trans ((or_congr_right ih).trans List.mem_cons.symm)

section
variable {s : State} {e : Enrolment}

theorem State.mem_enrolledIds {t : Thread} (live : t ∈ s.threads) (enrolled : t.uid ∈ e.members) : t.uid ∈ s.enrolledIds e :=
  List.mem_map_of_mem ((mem_sortBy _).mpr (List.mem_filter.mpr ⟨live, List.contains_iff_mem.mpr enrolled⟩))

theorem settleJoin_waits (somebody : ∃ t ∈ s.enrolled e, s.joiningAt t ≠ some e.eid) : s.settleJoin e = s := by
  obtain ⟨t, live, away⟩ := somebody
  have present : ¬(s.enrolled e).isEmpty = true := fun empty => List.ne_nil_of_mem live (List.isEmpty_iff.mp empty)
  have apart : ¬((s.enrolled e).all fun t => s.joiningAt t == some e.eid) = true := fun all =>
    away (eq_of_beq (List.all_eq_true.mp all t live))
  exact (if_neg present).trans (if_neg apart)

section
variable {g : Group} {rest : List Group} (live : s.enrolled e ≠ []) (all : ∀ t ∈ s.enrolled e, s.joiningAt t = some e.eid)
  (parts : s.groups.filter (fun h => (s.enrolled e).any fun t => h.members.contains t.uid) = g :: rest)
  (together : ∀ h ∈ rest, h.pc = g.pc)
include live all parts together

theorem settleJoin_closes :
    s.settleJoin e = (State.onThreads
      { s with groups := (s.groups.filter fun h => !(rest.any fun r => r.gid == h.gid)).map fun h => if h.gid == g.gid then s.joined e g else h
               enrolments := s.enrolments.filter fun x => x.eid != e.eid }
      (s.enrolledIds e) (Thread.leaveJoin e.eid)).noteForeign (s.enrolledIds e) := by
  have present : ¬(s.enrolled e).isEmpty = true := fun empty => live (List.isEmpty_iff.mp empty)
  have arrived : ((s.enrolled e).all fun t => s.joiningAt t == some e.eid) = true := by simpa using all
  have same : (rest.all fun h => h.pc == g.pc) = true := by simpa using together
  refine (if_neg present).trans ((if_pos arrived).trans ?_)
  change (match s.groups.filter (fun h => (s.enrolled e).any fun t => h.members.contains t.uid) with | [] => s | g :: rest => _) = _
  rw [parts]
  exact if_pos same

theorem settleJoin_group (apart : ∀ h ∈ rest, h.gid ≠ g.gid) : s.joined e g ∈ (s.settleJoin e).groups := by
  have mem : g ∈ s.groups := List.mem_of_mem_filter (parts ▸ List.mem_cons_self)
  rw [settleJoin_closes live all parts together]
  exact List.mem_map.mpr ⟨g, List.mem_filter.mpr ⟨mem, by simpa using apart⟩, if_pos (beq_self_eq_true _)⟩

theorem settleJoin_threads : ∀ t ∈ (s.settleJoin e).threads, t.uid ∈ e.members → some e.eid ∉ t.joins := by
  intro t there enrolled
  rw [settleJoin_closes live all parts together] at there
  obtain ⟨x, origin, rfl⟩ := List.mem_map.mp there
  have name : (if (s.enrolledIds e).contains x.uid then x.leaveJoin e.eid else x).uid = x.uid := by split <;> rfl
  rw [name] at enrolled
  rw [if_pos (List.contains_iff_mem.mpr (State.mem_enrolledIds (s := s) origin enrolled))]
  intro holds
  obtain ⟨j, -, still⟩ := List.mem_map.mp holds
  split at still
  · cases still
  · next other => exact other (beq_iff_eq.mpr still)

end

end

/-- The live birth threads of a pack. -/
def State.packOf (s : State) (team pack : Nat) : List Thread :=
  s.threads.filter fun t => t.team == team && t.kind == .birth && t.tid / 128 == pack

/-- The names of a pack's live threads in lane order. -/
def State.packIds (s : State) (team pack : Nat) : List Nat :=
  (sortBy (fun (a b : Thread) => decide (a.lane ≤ b.lane)) (s.packOf team pack)).map (·.uid)

/-- The groups that some threads leave. -/
def State.groupsWithout (s : State) (ids : List Nat) : List Group :=
  (s.groups.map fun h => { h with members := h.members.filter fun u => !ids.contains u }).filter fun h => !h.members.isEmpty

/-- The group of a pack that seals, made of the first of its parts (R150). -/
def State.packed (s : State) (team pack : Nat) (g : Group) : Group :=
  { g with gid := s.nextId, members := s.packIds team pack, isSealed := true, byLane := true, wait := .none, formed := s.clock
           ready := s.clock, fam := s.nextId }.past (s.instrLen g) false

section
variable {s : State} {team pack : Nat}

theorem settleSeal_waits (somebody : ∃ t ∈ s.packOf team pack, s.sealing t = false) : s.settleSeal team pack = s := by
  obtain ⟨t, live, away⟩ := somebody
  have apart : ((s.packOf team pack).all fun t => s.sealing t) = false := List.all_eq_false.mpr ⟨t, live, by simp [away]⟩
  exact if_pos (Bool.or_eq_true_iff.mpr (.inr (by rw [← State.packOf, apart, Bool.not_false])))

section
variable {g : Group} {rest : List Group} (live : s.packOf team pack ≠ []) (all : ∀ t ∈ s.packOf team pack, s.sealing t = true)
  (parts : s.groups.filter (fun h => (s.packOf team pack).any fun t => h.members.contains t.uid) = g :: rest)
  (together : ∀ h ∈ rest, h.pc = g.pc)
include live all parts together

theorem settleSeal_closes : s.settleSeal team pack =
    { s with nextId := s.nextId + 1, groups := s.groupsWithout (s.packIds team pack) ++ [s.packed team pack g] } := by
  have arrived : ¬((s.packOf team pack).isEmpty || !((s.packOf team pack).all fun t => s.sealing t)) = true := by
    simpa [live] using all
  have same : (rest.all fun h => h.pc == g.pc) = true := by simpa using together
  refine (if_neg arrived).trans ?_
  change (match s.groups.filter (fun h => (s.packOf team pack).any fun t => h.members.contains t.uid) with | [] => s | g :: rest => _) = _
  rw [parts]
  exact if_pos same

theorem settleSeal_group : s.packed team pack g ∈ (s.settleSeal team pack).groups := by
  rw [settleSeal_closes live all parts together]
  exact List.mem_append_right _ (List.mem_singleton.mpr rfl)

end

end

end Sys2Proof.Machine

namespace Sys2Proof

open Machine

/-- Settles O24: each clause is the lemma above about its instruction, its join or its pack. -/
theorem enrolJoinReformSeal : Obligations.EnrolJoinReformSeal := by
  refine ⟨fun o s c g => ⟨enrol_enrols, enrol_stops, join_waits, join_stops⟩,
    fun o s c g => ⟨reform_files, seal_waits, fun ready fails => ?sealStop⟩,
    fun s e => ⟨settleJoin_waits, fun g rest live all parts apart => ⟨?joined, ?left⟩⟩,
    fun s team pack => ⟨settleSeal_waits, fun g rest live all parts together => ?packed⟩⟩
  case sealStop =>
    refine ⟨_, seal_stops ready fails, fun t member f => ?_⟩
    rw [mem_faultsOf, sealCheck_eq_some]
    exact and_iff_right member
  case joined =>
    obtain ⟨_, _, _, eq⟩ := Group.past_eq _ (s.instrLen g) false
    refine ⟨s.joined e g, settleJoin_group live all parts (fun h mem => (apart h mem).1) fun h mem => (apart h mem).2, ?_⟩
    rw [State.joined, eq]
    exact ⟨rfl, rfl, rfl, rfl, rfl⟩
  case left => exact settleJoin_threads live all parts fun h mem => (apart h mem).1
  case packed =>
    obtain ⟨_, _, _, eq⟩ := Group.past_eq _ (s.instrLen g) false
    refine ⟨s.packed team pack g, settleSeal_group live all parts together, ?_⟩
    rw [State.packed, eq]
    exact ⟨rfl, rfl, rfl, rfl, rfl, rfl⟩

end Sys2Proof

/-! Proofs about parking (R153, R365), which settle O25. -/

namespace Sys2Proof.Machine

/-- What a parked group's threads and the group itself become as it wakes (R365). -/
theorem wakeGroup_parked (s : State) {g : Group} {lines : List PAddr} {deadline pd : Nat} {ids : List Nat} {hit : Bool}
    (parked : g.wait = .park lines deadline pd ids hit) (byWrite : Bool) :
    s.wakeGroup g byWrite = (s.onThreads ids fun t => t.setPred pd byWrite).onGroup g.gid fun h =>
      ({ h with wait := .none, ready := s.clock } : Group).past (s.instrLen h) false := by
  rw [State.wakeGroup, parked]

theorem timedOut_iff {g : Group} {clock : Nat} : g.timedOut clock = true ↔
    ∃ lines deadline pd ids hit, g.wait = .park lines deadline pd ids hit ∧ deadline ≤ clock := by
  unfold Group.timedOut
  split
  · next wait => simp [wait]
  · next other =>
    refine ⟨fun h => absurd h Bool.false_ne_true, ?_⟩
    rintro ⟨lines, deadline, pd, ids, hit, parked, -⟩
    exact absurd parked (other lines deadline pd ids hit)

theorem parkWake_wakes {s : State} {g : Group} {lines : List PAddr} {deadline pd : Nat} {ids : List Nat}
    (parked : g.wait = .park lines deadline pd ids true) (found : s.group? g.gid = some g) :
    exec (.parkWake g.core g.gid) s = .next ((s.onThreads ids fun t => t.setPred pd true).onGroup g.gid fun h =>
      ({ h with wait := .none, ready := s.clock } : Group).past (s.instrLen h) false) := by
  change execParkWake g.core g.gid s = _
  simp only [execParkWake, found, parked, if_true, wakeGroup_parked s parked]

/-! ## The instruction -/

/-- A state after a `park` has translated the lines that its threads name. -/
def State.parkNoted (s : State) (g : Group) (o : Op) : State :=
  (s.executing g o).foldl (fun s t => s.noteTlb g.core g.ctx (t.pair o.a.toNat)) s

/-- The wait of the group that it parks: the lines, the timeout and who is told (R153). -/
def State.parkWait (s : State) (g : Group) (o : Op) (line : Thread → PAddr) (n : Nat) : Wait :=
  .park (dedup ((s.executing g o).map line)) ((s.parkNoted g o).clock + n) (o.d.toNat % 8) (s.uids g o) false

section
variable {o : Op} {s : State} {c : Cur} {g : Group}

theorem park_nobody (ready : s.Ready .park o c g) (nobody : s.executing g o = []) :
    exec (.park o) s = .next (s.wentOn s .park o c g) :=
  State.issue_done ready (by rw [nobody]; rfl)

variable {line : Thread → PAddr} {n : Nat} (ready : s.Ready .park o c g)
  (lines : ∀ t ∈ s.executing g o, s.parkLine g.ctx (t.pair o.a.toNat) = .ok (line t))
  (least : minBy (fun a b => decide (a ≤ b)) ((s.executing g o).map fun t => (o.srcB32 t).toNat) = some n)
include ready lines least

theorem park_passes (passes : n = 0 ∨ (s.parkNoted g o).preempting g.ctx = true) :
    exec (.park o) s = .next (s.wentOn ((s.parkNoted g o).onThreads (s.uids g o) fun t => t.setPred (o.d.toNat % 8) false) .park o c g) := by
  refine State.issue_done ready ?_
  dsimp only
  rw [faultsOf_nil fun t member => by rw [lines t member]]
  dsimp only
  rw [least]
  exact if_pos (Bool.or_eq_true_iff.mpr (passes.imp_left decide_eq_true))

theorem park_parks (nonzero : n ≠ 0) (stays : (s.parkNoted g o).preempting g.ctx = false) :
    exec (.park o) s = .next (s.wentTo ((s.parkNoted g o).onGroup g.gid fun h => { h with wait := s.parkWait g o line n }) .park o g) := by
  refine State.issue_moved ready ?_
  dsimp only
  rw [faultsOf_nil fun t member => by rw [lines t member],
    List.filterMap_congr (g := some ∘ line) fun t member => by rw [lines t member]; rfl, List.filterMap_eq_map]
  dsimp only
  rw [least]
  exact if_neg (Bool.eq_false_iff.mp (Bool.or_eq_false_iff.mpr ⟨decide_eq_false nonzero, stays⟩))

end

end Sys2Proof.Machine

namespace Sys2Proof

open Machine

/-- Settles O25: a `park` either passes or parks, and a parked group wakes by `wakeGroup`. -/
theorem parkWaitsForWrite : Obligations.ParkWaitsForWrite := by
  refine ⟨fun o s c g line n ready lines least => ⟨park_parks ready lines least, park_passes ready lines least⟩,
    fun o s c g ready => park_nobody ready, fun s g lines deadline pd ids parked => parkWake_wakes parked, fun s => ?together,
    fun s g => timedOut_iff⟩
  case together =>
    refine congrArg Host.Outcome.next (congrArg (fun f => List.foldl f s _) (funext fun e => funext fun h => ?_))
    cases parked : h.wait <;> simp only [State.wakeGroup, parked]

end Sys2Proof

/-! Proofs about the turn of a group in its clause (R139, R324), which settle O4. -/

namespace Sys2Proof.Machine

section
variable {s : State} {core : Nat} {g : Group}

/-- The state in which a group's turn runs: the TLBs of its core and stope are on its accesses' way (R174). -/
def State.onCore (s : State) (core : Nat) : State := { s with via := [.core core, .stope (stopeOfCore core)] }

/-- A group that may issue, and is first at its pipe, issues. -/
theorem turn_issue (found : s.group? g.gid = some g) (here : g.core = core) (may : s.mayIssue g = true) (first : s.firstOf g = true) :
    s.turn (.issue core g.gid) = s.finish ((s.onCore core).issueGroup g) := by
  change (match s.group? g.gid with | some g => _ | none => _) = _
  rw [found]
  exact if_pos ⟨here, may, first⟩

theorem issueGroup_inClause (inside : g.clause ≠ none) : s.issueGroup g = s.inClause g :=
  if_neg (by simpa using inside)

/-- The instruction that a group's words decode to runs, if it is no clause header. -/
theorem inClause_exec {i : Instr} (decodes : decodeBytes (s.groupBytes g) = .ok i) (code : ∀ a b c d, i ≠ .clauseHeader a b c d) :
    s.inClause g = exec i ((s.presentLits g).issuing g (s.instrLen g)) := by
  unfold State.inClause
  split
  · next a b c d header => exact absurd (Except.ok.inj (decodes.symm.trans header)) (code a b c d)
  · next j found => rw [Except.ok.inj (decodes.symm.trans found)]
  · next fails => cases decodes.symm.trans fails

theorem step_agenda {t : Turn} {rest : List Turn} (next : s.agenda = t :: rest) : step s = State.turn { s with agenda := rest } t := by
  rw [step, next]

end

end Sys2Proof.Machine

namespace Sys2Proof

open Machine

/-- Settles O4: the agenda's group issues, and in its clause it runs what it decodes. -/
theorem stepRunsDecoded : Obligations.StepRunsDecoded := by
  intro s core g rest i next p q found here may first inside decodes code
  rw [step_agenda next, turn_issue found here may first, issueGroup_inClause inside]
  exact congrArg p.finish (inClause_exec decodes code)

end Sys2Proof

/-! The refutation of the statement about accumulator tiles (R401, R413), O43: where two threads have one name, `accrd.side` gives each of
them the side entry of its own row. -/

namespace Sys2Proof.Machine

/-- `accrd.side` of tile 0, whose handle the instruction holds: the row is read from v0, and the pair goes to v2 and v3. -/
def sideRead : Op :=
  { len := .ext, g := 7, neg := false, func := 5, ty := .none, mod := 1, d := 2, a := 0, b := 0, c := 0, imm := 0, aux := 0, lit := 0 }

/-- A thread of team 3 under the name 1 whose v0 holds a row. -/
def rowThread (row : Word) : Thread := newThread 1 0 0 3 .birth 0 4 0 [row] none

/-- A tile of that team: row 0 has the sum 1, and row 1 the sum 0. -/
def sideTile : Acc :=
  { team := 3, uid := 1, core := 0, elems := [], maxs := [], sums := [(0, 1)], going := false, lastPc := 0, lastSeq := 0, passes := 0
    since := 0, prev := [], wrote := 0, direct := [], events := [] }

/-- A state in which a group of the thread named 1 issues `accrd.side`, and two threads, at rows 0 and 1, have that name. -/
def oneNameTwice : State :=
  { State.reset with threads := [rowThread 0, rowThread 1], groups := [placedGroup 2 1 false [] 0], cur := some ⟨0, 2, placedPc, 12⟩
                     quads := [(0, { accs := [(0, sideTile)] })] }

theorem oneNameTwice_ready : oneNameTwice.Ready .accrdSide sideRead ⟨0, 2, placedPc, 12⟩ (placedGroup 2 1 false [] 0) := by
  refine ⟨⟨rfl, rfl⟩, ?_⟩
  decide +kernel

theorem oneNameTwice_executing : oneNameTwice.executing (placedGroup 2 1 false [] 0) sideRead = [rowThread 0] := by decide +kernel

/-- What the statement says that the instruction leaves of the threads: the side entry of row 0 in both. -/
def sideWritten : State := oneNameTwice.onThread 1 fun y => y.setRegs 2 [0xFF800000, 1]

/-- The registers of the threads that an outcome leaves. -/
def regsOf : Host.Outcome State Fault Refusal → List (List Word)
  | .next s => s.threads.map (·.regs)
  | _ => []

end Sys2Proof.Machine

namespace Sys2Proof

open Machine

/-- Refutes O43: the statement writes the row of the lane to every thread of its name, and `accrd.side` the row of each. -/
theorem not_accumulatorInstructions : ¬ Obligations.AccumulatorInstructions := by
  unfold Obligations.AccumulatorInstructions
  rintro ⟨-, -, -, -, sideReads, -⟩
  have free : heldBack [rowThread 0] = false ∧ ∀ t ∈ [rowThread 0], t.rdy = 0 := by decide
  have leaves := sideReads sideRead oneNameTwice sideWritten _ _ oneNameTwice_ready
  rw [oneNameTwice_executing] at leaves
  have differs := congrArg regsOf (leaves free ⟨sideWritten, ⟨sideTile, by decide +kernel, rfl⟩, rfl⟩)
  revert differs
  decide +kernel

end Sys2Proof

/-! Proofs about transaction barriers (R186 to R188, R237, R378), which settle O34 and O33. -/

namespace Sys2Proof.Machine

/-! ## The object (R186, R187) -/

theorem Txb.inRange_iff {x : Int} : Txb.inRange x = true ↔ -2 ^ 39 ≤ x ∧ x ≤ 2 ^ 39 - 1 := by simp [Txb.inRange]

/-- A number in range is read back from its 40 bits in two's complement (R186). -/
theorem Txb.signed_emod {x : Int} (range : Txb.inRange x = true) :
    ((x % 2 ^ 40).toNat : Int) - (if 2 ^ 39 ≤ (x % 2 ^ 40).toNat then 2 ^ 40 else 0) = x := by
  obtain ⟨least, most⟩ := Txb.inRange_iff.mp range
  split <;> omega

section
variable {b : Txb} (epoch : b.epoch < 2 ^ 16) (arrivals : b.arrivals < 2 ^ 24) (reload : b.reload < 2 ^ 24) (scope : b.scope < 4)
include epoch arrivals reload scope

theorem Txb.toNat_lt : b.toNat < 2 ^ 128 := by
  unfold Txb.toNat
  omega

/-- The fields of a barrier lie side by side (R186). -/
theorem txbOf_toNat (range : Txb.inRange b.bytes = true) (rest : b.rest = 0) : txbOf b.toNat = b := by
  have bytes := Txb.signed_emod range
  have field : bits b.toNat 79 40 = (b.bytes % 2 ^ 40).toNat := by
    unfold Txb.toNat bits
    omega
  have sign : bitAt b.toNat 79 = true ↔ 2 ^ 39 ≤ (b.bytes % 2 ^ 40).toNat := by
    unfold Txb.toNat
    simp only [bitAt, beq_iff_eq]
    omega
  have others : bits b.toNat 15 0 = b.epoch ∧ bits b.toNat 39 16 = b.arrivals ∧ bits b.toNat 103 80 = b.reload ∧
      bits b.toNat 105 104 = b.scope ∧ bits b.toNat 127 106 = b.rest := by
    unfold Txb.toNat bits
    omega
  obtain ⟨e, a, r, s, z⟩ := others
  simp only [txbOf, e, a, r, s, z, field, sign, bytes]

end

theorem Txb.close_owing {b : Txb} (owing : b.arrivals ≠ 0 ∨ b.bytes ≠ 0) : b.close = b := if_neg (by tauto)

/-! ## The instructions (R187, R188, R237, R378) -/

theorem txbInit_stores : Acts .txbInit .txbInit (fun s xs => heldBack xs = false ∧ ∀ t ∈ xs, s.holdsBack t.uid true = false)
    fun o _ s t e =>
      (o.srcB32 t).toNat ≠ 0 ∧ (o.srcB32 t).toNat < 2 ^ 24 ∧ ∃ p, s.teamPlace t (o.laddr t) 16 16 = .ok p ∧
        e = s.setTxb p ⟨0, (o.srcB32 t).toNat, 0, (o.srcB32 t).toNat, if o.scopeCode = 2 then 1 else 0, 0⟩ := by
  refine acts_of_inOrder (fun _ _ => rfl) (fun o s g free => if_neg ?_) ?_
  · simpa [free.1] using free.2
  · rintro o g s t e ⟨nonzero, fits, p, place, rfl⟩
    refine (if_neg (by omega)).trans ?_
    rw [place]

theorem txbArrive_arrives : Acts .txbArrive .txbArrive Drained fun o _ s t e =>
    ∃ p, s.txbPlace t (o.laddr t) = .ok p ∧ (s.txbAt p).bad = false ∧ (s.txbAt p).arrivals ≠ 0 ∧
      Txb.inRange ((s.txbAt p).bytes + (o.srcB32 t).toNat) = true ∧
      e = (s.setTxb p (Txb.close { s.txbAt p with
          bytes := (s.txbAt p).bytes + (o.srcB32 t).toNat, arrivals := (s.txbAt p).arrivals - 1 })).onThread t.uid
        fun y => y.setReg o.d.toNat (BitVec.ofNat 32 (s.txbAt p).epoch) := by
  refine acts_of_releasing (fun _ _ => rfl) ?_
  rintro o g s t e ⟨p, place, good, awaited, range, rfl⟩
  dsimp only
  rw [place]
  exact if_neg (by simp [good, awaited, range])

theorem txbExpect_expects : Acts .txbExpect .txbExpect Drained fun o _ s t e =>
    ∃ p, s.txbPlace t (o.laddr t) = .ok p ∧ (s.txbAt p).bad = false ∧
      Txb.inRange ((s.txbAt p).bytes + (o.srcB32 t).toNat) = true ∧
      e = s.setTxb p (Txb.close { s.txbAt p with bytes := (s.txbAt p).bytes + (o.srcB32 t).toNat }) := by
  refine acts_of_releasing (fun _ _ => rfl) ?_
  rintro o g s t e ⟨p, place, good, range, rfl⟩
  dsimp only
  rw [place]
  exact if_neg (by simp [good, range])

theorem txbWait_waits {o : Op} {s e : State} {c : Cur} {g : Group} (ready : s.Ready .txbWait o c g)
    (free : heldBack (s.executing g o) = false)
    (lanes : Chained (fun s t e => ∃ p, s.txbPlace t (o.laddr t) = .ok p ∧ (s.txbAt p).bad = false ∧
      e = ({ s with late := s.late ++ [.txbWait t.uid g.flagNow p ((o.srcB32 t).toNat % 2 ^ 16)] } : State).onThread t.uid
        fun y => { y.holdFlag g.flagNow with holds := y.holds + 1 }) s (s.executing g o) e) :
    exec (.txbWait o) s = .next (s.wentOn e.settleTxb .txbWait o c g) := by
  refine State.issue_done ready ((if_neg (by simp [free])).trans ?_)
  dsimp only
  rw [inOrder_ok ?_ lanes]
  · rfl
  · rintro s t e ⟨p, place, good, rfl⟩
    rw [place]
    exact if_neg (by simp [good])

end Sys2Proof.Machine

namespace Sys2Proof

open Machine

/-- Settles O34: the fields lie side by side, and `close` asks whether ARRIVALS and BYTES are 0. -/
theorem transactionBarrierObject : Obligations.TransactionBarrierObject :=
  ⟨fun _ epoch arrivals range reload scope rest =>
      ⟨Txb.toNat_lt epoch arrivals reload scope, txbOf_toNat epoch arrivals reload scope range rest⟩,
    fun _ => ⟨fun owed => if_pos owed, Txb.close_owing⟩⟩

/-- Settles O33: each clause is the lemma above about its instruction. -/
theorem transactionBarriers : Obligations.TransactionBarriers :=
  ⟨txbInit_stores, txbArrive_arrives, txbExpect_expects, fun _ _ _ _ _ ready free lanes => txbWait_waits ready free lanes⟩

end Sys2Proof

/-! Proofs about the tile table, tensor records and command status (R183 to R185, R379 to R381), which settle O35. -/

namespace Sys2Proof.Machine

/-! ## The tile table (R184, R185, R379) -/

theorem tileDef_defines : Acts .tileDef .tileDef Unheld fun o g s t e =>
    (o.srcB32 t).toNat ≠ 0 ∧ s.mayDefine g o.d.toNat = true ∧ ∃ p, s.tileRange g t (o.laddr t) (o.srcB32 t).toNat = .ok p ∧
      e = s.defineTile g t o.d.toNat false (teamCore p % 4) p.addr (o.srcB32 t).toNat none := by
  refine acts_of_inOrder (fun _ _ => rfl) (fun o s g free => if_neg (by simp [show heldBack _ = false from free])) ?_
  rintro o g s t e ⟨nonzero, may, p, range, rfl⟩
  refine (if_neg (by simp [nonzero, may])).trans ?_
  rw [range]

section
variable {o : Op} {s e : State} {c : Cur} {g : Group} {tile : Tile}

theorem tileSet_sets (ready : s.Ready .tileSet o c g) (free : heldBack (s.executing g o) = false)
    (defined : s.tileOf g o.d.toNat = some tile) (takes : tileSetOp o ≠ 2 ∨ tile.canFill = true)
    (lanes : Chained (fun s _ e => ∃ x y, s.tileOf g o.d.toNat = some x ∧ x.set (tileSetOp o) = some y ∧
      e = (s.setTile (quadOfCore g.core) o.d.toNat y).settleQuad (quadOfCore g.core)) s (s.executing g o) e) :
    exec (.tileSet o) s = .next (s.wentOn e .tileSet o c g) := by
  refine State.issue_done ready ((if_neg (by simp [free])).trans ?_)
  rw [defined]
  refine (if_neg ?_).trans ?_
  · rintro ⟨hold, busy, -⟩
    exact takes.elim (fun other => other hold) fun fills => by simp [fills] at busy
  · rw [inOrder_ok ?_ lanes]
    · rfl
    · rintro s t e ⟨x, y, found, set, rfl⟩
      simp only [found, Option.bind_some, set]

theorem tileState_reads (ready : s.Ready .tileState o c g) (free : heldBack (s.executing g o) = false)
    (defined : s.tileOf g o.a.toNat = some tile) :
    exec (.tileState o) s = .next (s.wentOn (s.onThreads (s.uids g o) fun t =>
      t.setPair o.d.toNat (BitVec.ofNat 64 tile.value)) .tileState o c g) := by
  refine State.issue_done ready ((if_neg (by simp [free])).trans ?_)
  rw [defined]
  rfl

end

/-! ## Tensor records and command status (R183, R380, R381) -/

theorem trec_loads : Acts .trec .trec Unheld fun o g s t e =>
    ∃ p, s.teamPlace t (o.laddr t) 64 8 = .ok p ∧ s.poisoned p 64 = false ∧
      e = s.setCore g.core { s.core g.core with slots := Tab.set o.d.toNat (s.bytesAt p 64) (s.core g.core).slots } := by
  refine acts_of_inOrder (fun _ _ => rfl) (fun o s g free => if_neg (by simp [show heldBack _ = false from free])) ?_
  rintro o g s t e ⟨p, place, sound, rfl⟩
  dsimp only
  rw [place]
  exact if_neg (by simp [sound])

theorem bstat_answers {o : Op} {s : State} {c : Cur} {g : Group} (ready : s.Ready .bstat o c g) :
    exec (.bstat o) s = .next (s.wentOn (s.onThreads (s.uids g o) fun t =>
      (t.setReg o.d.toNat (BitVec.ofNat 32 (s.status g.core t (t.reg o.a.toNat)).1)).setReg (o.d.toNat + 1)
        (s.status g.core t (t.reg o.a.toNat)).2) .bstat o c g) :=
  State.issue_done ready rfl

end Sys2Proof.Machine

namespace Sys2Proof

open Machine

/-- Settles O35: each clause is the lemma above about its instruction. -/
theorem tilesAndRecords : Obligations.TilesAndRecords :=
  ⟨tileDef_defines, fun _ _ _ _ _ _ ready free defined takes lanes => tileSet_sets ready free defined takes lanes,
    fun _ _ _ _ _ ready free defined => tileState_reads ready free defined, trec_loads, fun _ _ _ _ ready => bstat_answers ready⟩

end Sys2Proof

/-! Proofs about queued commands (R180, R182, R276, R311), which settle O41. -/

namespace Sys2Proof.Machine

/-! ## What a write at a home leaves of the threads and the command queues (R60, R177, R243, R448) -/

/-- The same threads, and the same commands in the queue of every core. -/
structure SameQueues (s e : State) : Prop where
  threads : e.threads = s.threads
  copyq : ∀ n, (e.core n).copyq = (s.core n).copyq

theorem SameQueues.refl (s : State) : SameQueues s s := ⟨rfl, fun _ => rfl⟩

theorem SameQueues.trans {s m e : State} (h : SameQueues s m) (k : SameQueues m e) : SameQueues s e :=
  ⟨k.threads.trans h.threads, fun n => (k.copyq n).trans (h.copyq n)⟩

theorem SameQueues.ite {s t e : State} {c : Prop} [Decidable c] (h : SameQueues s t) (k : SameQueues s e) :
    SameQueues s (if c then t else e) := by
  split
  · exact h
  · exact k

theorem SameQueues.foldl {α : Type} {f : State → α → State} (h : ∀ m x, SameQueues m (f m x)) (s : State) (l : List α) :
    SameQueues s (l.foldl f s) :=
  List.foldlRecOn l f (.refl s) fun m same x _ => same.trans (h m x)

/-- A change of a core that keeps its commands. -/
theorem SameQueues.setCore {s m : State} (h : SameQueues s m) {core : Nat} {c : CoreSt} (same : c.copyq = (m.core core).copyq) :
    SameQueues s (m.setCore core c) where
  threads := h.threads
  copyq n := by
    rw [← h.copyq n]
    by_cases own : n = core
    · rw [own, State.core_setCore_self, same]
    · rw [State.core_setCore_other m c own]

theorem sameQueues_lift (s : State) (p : PAddr) (n : Nat) : SameQueues s (s.lift p n) := .ite (.refl s) ⟨rfl, fun _ => rfl⟩

theorem sameQueues_putBytes (s : State) (p : PAddr) (bs : List Byte) : SameQueues s (s.putBytes p bs) := by
  refine SameQueues.trans ?_ (sameQueues_lift ..)
  unfold State.setCells
  split
  case h_4 => exact .ite ⟨rfl, fun _ => rfl⟩ ⟨rfl, fun _ => rfl⟩
  all_goals exact ⟨rfl, fun _ => rfl⟩

theorem sameQueues_refresh (s : State) (hit : Pending → Bool) : SameQueues s (s.refresh hit) := .ite ⟨rfl, fun _ => rfl⟩ (.refl s)

theorem sameQueues_liftL1 (s : State) (core : Nat) : SameQueues s (s.liftL1 core) := .ite (.refl s) ⟨rfl, fun _ => rfl⟩

theorem sameQueues_emptyL1 (s : State) (core : Nat) : SameQueues s (s.emptyL1 core) := by
  refine (sameQueues_refresh s _).trans (.ite (.refl _) (.trans ?_ (sameQueues_liftL1 ..)))
  exact (SameQueues.refl _).setCore rfl

theorem sameQueues_dropL1 (s : State) (core : Nat) (p : PAddr) (n : Nat) : SameQueues s (s.dropL1 core p n) := by
  refine .ite ((sameQueues_refresh s _).trans (.ite (.refl _) (.trans ?_ (sameQueues_liftL1 ..)))) (.refl s)
  exact (SameQueues.refl _).setCore rfl

theorem State.postArms_copyq (s : State) (core : Nat) : (s.postArms core).2.copyq = (s.core core).copyq :=
  List.foldlRecOn (motive := fun a : State × CoreSt => a.2.copyq = (s.core core).copyq) _ _ rfl fun a same m _ =>
    Eq.trans (by unfold State.postArm; dsimp only; split <;> rfl) same

theorem sameQueues_postDue (s : State) (core : Nat) : SameQueues s (s.postDue core) := by
  obtain ⟨⟨ps, state⟩, -⟩ := s.postArms_frame core
  have poisoned : SameQueues s { s with poison := ps } := ⟨rfl, fun _ => rfl⟩
  rw [State.postDue_eq, state]
  exact .ite (poisoned.setCore (s.postArms_copyq core)) (.refl s)

theorem sameQueues_decCounter (s : State) (core k : Nat) : SameQueues s (s.decCounter core k) := by
  rw [State.decCounter, State.setCounter_eq]
  refine .ite (.trans ?_ (sameQueues_postDue ..)) ((SameQueues.refl s).setCore rfl)
  exact (SameQueues.refl s).setCore rfl

theorem sameQueues_countWindow (s : State) (core : Nat) (w : Window) (k : Nat) : SameQueues s (s.countWindow core w k) := by
  refine .ite ((SameQueues.refl s).setCore rfl) (.trans (.trans ?_ (sameQueues_decCounter ..)) (sameQueues_emptyL1 ..))
  exact (SameQueues.refl s).setCore rfl

theorem sameQueues_countWindows (s : State) (ctx : Nat) (p : PAddr) (n : Nat) : SameQueues s (s.countWindows ctx p n) :=
  .foldl (fun m _ => .ite (.refl m) (.foldl (fun m _ => .ite (.refl m) (sameQueues_countWindow ..)) m _)) s _

theorem sameQueues_homeWrite (s : State) (ctx : Nat) (p : PAddr) (bs : List Byte) : SameQueues s (s.homeWrite ctx p bs) :=
  have touched : SameQueues (s.putBytes p bs) ((s.putBytes p bs).touch p bs.length) := ⟨rfl, fun _ => rfl⟩
  have counted := ((sameQueues_putBytes s p bs).trans touched).trans (sameQueues_countWindows _ ctx p bs.length)
  counted.trans ⟨rfl, fun _ => rfl⟩

theorem sameQueues_noteHome (s : State) (p : PAddr) (n rd : Nat) : SameQueues s (s.noteHome p n rd) := .ite (.refl s) ⟨rfl, fun _ => rfl⟩

theorem sameQueues_engineWrite (s : State) (ctx core : Nat) (p : PAddr) (bs : List Byte) : SameQueues s (s.engineWrite ctx core p bs) :=
  ((sameQueues_homeWrite ..).trans (sameQueues_noteHome ..)).trans (sameQueues_dropL1 ..)

/-! ## Room (R182) -/

/-- The next command goes on chip exactly when nothing is spilled and fewer than 64 commands stand there. -/
theorem State.onChip_iff {s : State} {ctx core : Nat} {ring : Option Nat} (room : s.queueRoom ctx core = some ring) :
    ring = none ↔ (∀ y ∈ (s.core core).copyq, y.ring = none) ∧ (s.core core).copyq.length < 64 := by
  have free : ((s.core core).copyq.filterMap (·.ring)).isEmpty = true ↔ ∀ y ∈ (s.core core).copyq, y.ring = none := by
    rw [List.isEmpty_iff, List.filterMap_eq_nil_iff]
  rw [← free]
  unfold State.queueRoom at room
  dsimp only at room
  split at room
  case isTrue onChip =>
    obtain rfl := Option.some.inj room
    simpa using onChip
  case isFalse spills =>
    split at room
    · cases room
    · obtain rfl := Option.some.inj room
      simpa using spills

/-! ## A command enters its queue (R180, R276, R311) -/

section
variable (s : State) (g : Group) (t : Thread) (x : Cmd) (ring : Option Nat)

/-- A command as it stands in the queue: under its thread's next number, with the clause's flag. -/
def State.queuedCmd : Cmd :=
  { x with id := s.nextId, ctx := g.ctx, core := g.core, team := t.team, uid := t.uid, slot := t.slot, pc := g.pc, seq := t.cmdseq,
           flag := g.flagNow, ring, inRing := (ring.map fun k => (s.ringPlace g.ctx g.core k).isSome).getD true }

/-- The queue has taken a command, and its thread a number and the flag; a ring entry is still to be written. -/
def State.entered : State :=
  ({ s with nextId := s.nextId + 1 }.setCore g.core
    { s.core g.core with copyq := (s.core g.core).copyq ++ [s.queuedCmd g t x ring] }).charge [t.uid] g.flagNow true

/-- What writes the ring entry changes neither threads nor queues. -/
theorem sameQueues_enqueue : SameQueues (s.entered g t x ring) (s.enqueue g t x ring) := by
  unfold State.enqueue
  dsimp only
  split
  · exact sameQueues_engineWrite ..
  · exact .refl _

theorem State.enqueue_copyq : ((s.enqueue g t x ring).core g.core).copyq = (s.core g.core).copyq ++ [s.queuedCmd g t x ring] := by
  rw [(sameQueues_enqueue s g t x ring).copyq]
  exact congrArg CoreSt.copyq (State.core_setCore_self ..)

theorem State.enqueue_thread? (u : Nat) : (s.enqueue g t x ring).thread? u = (s.entered g t x ring).thread? u :=
  congrArg (List.find? _) (sameQueues_enqueue s g t x ring).threads

theorem State.enqueue_self {z : Thread} (found : s.thread? t.uid = some z) :
    (s.enqueue g t x ring).thread? t.uid = some (z.count.holdFlag g.flagNow) := by
  rw [State.enqueue_thread?]
  exact (State.thread?_onThread_self _ _ fun y => (y.count_holdFlag g.flagNow).1).trans (congrArg _ found)

theorem State.enqueue_other {u : Nat} (other : u ≠ t.uid) : (s.enqueue g t x ring).thread? u = s.thread? u := by
  rw [State.enqueue_thread?]
  exact State.thread?_onThread_other _ other fun y => (y.count_holdFlag g.flagNow).1

end

end Sys2Proof.Machine

namespace Sys2Proof

open Machine

/-- Settles O41: what `enqueue` does after the command has entered is a write at a home, which keeps queues and threads. -/
theorem queuedCommand : Obligations.QueuedCommand := by
  intro s g t x ring room
  exact ⟨State.onChip_iff room, s.queuedCmd g t x ring, s.enqueue_copyq g t x ring, rfl, rfl, rfl, rfl, rfl, rfl, rfl, rfl,
    fun z found => s.enqueue_self g t x ring found, fun u other => s.enqueue_other g t x ring other⟩

end Sys2Proof

/-! Proofs about bulk instructions (R180, R182, R269, R382 to R387, R399, R437), which settle O40. -/

namespace Sys2Proof.Machine

/-! ## Lists whose names do not repeat -/

theorem find?_of_nodup {α : Type} {f : α → Nat} {l : List α} (nodup : (l.map f).Nodup) {x : α} (mem : x ∈ l) :
    l.find? (fun y => f y == f x) = some x := by
  have isSome : (l.find? fun y => f y == f x).isSome := List.find?_isSome.mpr ⟨x, mem, beq_self_eq_true _⟩
  obtain ⟨y, found⟩ := Option.isSome_iff_exists.mp isSome
  rw [found, List.inj_on_of_nodup_map nodup (List.mem_of_find?_eq_some found) mem (eq_of_beq (List.find?_some found :))]

/-- Two lists with the same names are one list, where one holds the elements of the other and no name comes twice. -/
theorem eq_of_map_eq_of_nodup {α : Type} {f : α → Nat} {l m : List α} (same : l.map f = m.map f) (nodup : (m.map f).Nodup)
    (sub : ∀ x ∈ l, x ∈ m) : l = m := by
  have named : ∀ k : List α, (∀ x ∈ k, x ∈ m) → (k.map f).map (fun u => m.find? fun y => f y == u) = k.map some := fun k sub => by
    rw [List.map_map]
    exact List.map_congr_left fun x mem => find?_of_nodup nodup (sub x mem)
  refine List.map_injective_iff.mpr (Option.some_injective α) ?_
  rw [← named l sub, ← named m fun _ => id, same]

/-! ## Commands that enter the queue one after another (R180, R182) -/

/-- Every command of some lanes enters the queue, on what the one before it left: `g.Queues s cs e` says that they lead from `s` to `e`. -/
def Group.Queues (g : Group) : State → List (Thread × Cmd) → State → Prop
  | s, [], e => e = s
  | s, x :: cs, e => ∃ ring, s.queueRoom g.ctx g.core = some ring ∧
      g.Queues ((s.fillTile (quadOfCore g.core) x.2).enqueue g x.1 x.2 ring) cs e

/-- Each lane queues a command that `x` gives it, on what the one before it left. -/
def Group.LanesQueue (g : Group) (x : Thread → Cmd → Prop) : State → List Thread → State → Prop :=
  Chained fun m t e => ∃ y ring, x t y ∧ m.queueRoom g.ctx g.core = some ring ∧
    e = (m.fillTile (quadOfCore g.core) y).enqueue g t y ring

/-- The lanes with the commands that they queue. -/
theorem Group.queues_of_lanes {g : Group} {x : Thread → Cmd → Prop} {xs : List Thread} {s e : State} (lanes : g.LanesQueue x s xs e) :
    ∃ cs : List (Thread × Cmd), cs.map (·.1) = xs ∧ (∀ c ∈ cs, x c.1 c.2) ∧ g.Queues s cs e := by
  induction xs generalizing s with
  | nil => exact ⟨[], rfl, by simp, lanes⟩
  | cons t xs ih =>
    obtain ⟨m, ⟨y, ring, own, room, rfl⟩, rest⟩ := lanes
    obtain ⟨cs, rfl, owns, queues⟩ := ih rest
    exact ⟨(t, y) :: cs, rfl, List.forall_mem_cons.mpr ⟨own, owns⟩, ring, room, queues⟩

/-- What `bulkLanes` does with one lane: its command enters the queue, unless one before it found no room or it finds none itself. -/
def Group.queueLane (g : Group) (a : State × List (Thread × Cmd)) (x : Thread × Cmd) : State × List (Thread × Cmd) :=
  match (if a.2.isEmpty then a.1.queueRoom g.ctx g.core else none) with
  | some ring => ((a.1.fillTile (quadOfCore g.core) x.2).enqueue g x.1 x.2 ring, [])
  | none => (a.1, a.2 ++ [x])

theorem Group.foldl_queueLane {g : Group} {s e : State} {cs : List (Thread × Cmd)} (queues : g.Queues s cs e) :
    cs.foldl g.queueLane (s, []) = (e, []) := by
  induction cs generalizing s with
  | nil => rw [show e = s from queues]; rfl
  | cons x cs ih =>
    obtain ⟨ring, room, rest⟩ := queues
    have enters : g.queueLane (s, []) x = ((s.fillTile (quadOfCore g.core) x.2).enqueue g x.1 x.2 ring, []) := by
      simp [Group.queueLane, room]
    rw [List.foldl_cons, enters, ih rest]

/-- Nothing of a group waits for room any more. -/
def State.bulkDone (s : State) (g : Group) : State := { s with bulkWait := s.bulkWait.filter fun x => x.1 != g.gid }

/-- Lanes that all find room leave nothing waiting. -/
theorem State.bulkLanes_done {g : Group} {s e : State} {cs : List (Thread × Cmd)} (queues : g.Queues s cs e) :
    s.bulkLanes g cs = .done (e.bulkDone g) := by
  unfold State.bulkLanes
  dsimp only
  erw [Group.foldl_queueLane queues]
  refine (if_neg ?_).trans ?_
  · rintro ⟨empty, somebody⟩
    exact somebody (List.length_eq_zero_iff.mp empty.symm)
  · simp [State.bulkDone]

/-! ## Bulk instructions (R182, R185, R269) -/

theorem State.fillWaits_of_takes {s : State} {g : Group} {tile : Option Nat} (takes : TileTakes s g tile) : s.fillWaits g tile = false := by
  unfold State.fillWaits
  split
  · next t found =>
    obtain ⟨i, named, defined⟩ := Option.bind_eq_some_iff.mp found
    simp [takes i t named defined]
  · rfl

section
variable {k : Opc} {o : Op} {s e : State} {c : Cur} {g : Group} {tile : Option Nat} {cmd : Group → Thread → Except Flt Cmd}
  (ready : s.Ready k o c g)
include ready

/-- Where no command of the group waits, each lane queues the command that is judged now. -/
theorem State.bulk_queues (fresh : g.redo = none ∨ (s.bulkWait.filter fun x => x.1 == g.gid) = [])
    (free : heldBack (s.executing g o) = false) (takes : TileTakes s g tile)
    (lanes : g.LanesQueue (fun t y => cmd g t = .ok y) s (s.executing g o) e) :
    s.bulk k o tile cmd = .next (s.wentOn (e.bulkDone g) k o c g) := by
  obtain ⟨cs, lanes, judged, queues⟩ := Group.queues_of_lanes lanes
  refine State.issue_done ready ((if_neg (by simp [free])).trans ((if_neg ?_).trans ?_))
  · rcases fresh with first | idle
    · simp [first]
    · have nobody : ∀ x ∈ s.bulkWait, x.1 ≠ g.gid := by simpa using idle
      simp +contextual [nobody]
  · have passes : ∀ t ∈ s.executing g o, ∃ y, cmd g t = .ok y := by
      rw [← lanes]
      exact List.forall_mem_map.mpr fun x mem => ⟨x.2, judged x mem⟩
    have paired : ((s.executing g o).filterMap fun t => (cmd g t).toOption.map fun c => (t, c)) = cs := by
      rw [← lanes, List.filterMap_map, List.filterMap_congr (g := some) fun x mem => by simp [judged x mem, Except.toOption],
        List.filterMap_some]
    rw [faultsOf_nil fun t mem => by obtain ⟨y, ok⟩ := passes t mem; rw [ok], paired, State.fillWaits_of_takes takes]
    exact State.bulkLanes_done queues

/-- The lanes that had no room before queue the commands that were judged then: each lane is found by its name. -/
theorem State.bulk_resumes (redo : g.redo.isSome = true) (waits : (s.bulkWait.filter fun x => x.1 == g.gid) ≠ [])
    (free : heldBack (s.executing g o) = false) (takes : TileTakes s g tile) (nodup : (s.uids g o).Nodup)
    (names : s.uids g o = (s.bulkWait.filter fun x => x.1 == g.gid).map (·.2.uid))
    (lanes : g.LanesQueue (fun t y => (g.gid, y) ∈ s.bulkWait ∧ y.uid = t.uid) s (s.executing g o) e) :
    s.bulk k o tile cmd = .next (s.wentOn (e.bulkDone g) k o c g) := by
  obtain ⟨cs, lanes, judged, queues⟩ := Group.queues_of_lanes lanes
  have waiting : cs.map (·.2) = (s.bulkWait.filter fun x => x.1 == g.gid).map (·.2) := by
    refine eq_of_map_eq_of_nodup (f := Cmd.uid) ?_ ?_ ?_
    · calc (cs.map (·.2)).map Cmd.uid = (cs.map (·.1)).map Thread.uid := by
            simp only [List.map_map]
            exact List.map_congr_left fun x mem => (judged x mem).2
        _ = _ := by rw [lanes, List.map_map]; exact names
    · rw [List.map_map]
      exact names ▸ nodup
    · exact List.forall_mem_map.mpr fun x mem =>
        List.mem_map.mpr ⟨_, List.mem_filter.mpr ⟨(judged x mem).1, beq_self_eq_true _⟩, rfl⟩
  have paired : (s.bulkWait.filterMap fun w => if w.1 = g.gid then
      ((s.executing g o).find? fun t => t.uid == w.2.uid).map fun t => (t, w.2) else none) = cs := by
    calc _ = ((s.bulkWait.filter fun x => x.1 == g.gid).map (·.2)).filterMap fun y =>
            ((s.executing g o).find? fun t => t.uid == y.uid).map fun t => (t, y) := by
          simp [List.filterMap_map, List.filterMap_filter]
      _ = cs.filterMap some := by
          rw [← waiting, List.filterMap_map]
          refine List.filterMap_congr fun x mem => ?_
          have lane : x.1 ∈ s.executing g o := lanes ▸ List.mem_map_of_mem mem
          simp [(judged x mem).2, find?_of_nodup nodup lane]
      _ = cs := List.filterMap_some
  have somebody : cs ≠ [] := by
    rintro rfl
    exact waits (List.map_eq_nil_iff.mp waiting.symm)
  refine State.issue_done ready ((if_neg (by simp [free])).trans ?_)
  rw [paired, State.fillWaits_of_takes takes]
  exact (if_pos (by simp [redo, somebody])).trans (State.bulkLanes_done queues)

theorem State.bulkElected_nobody (nobody : s.executing g o = []) : s.bulkElected k o tile cmd = .next (s.wentOn s k o c g) :=
  State.issue_done ready (by simp [nobody, elected])

/-- An elected bulk instruction queues the command of its elected thread. -/
theorem State.bulkElected_queues {t : Thread} {x : Cmd} {ring : Option Nat} (first : elected (s.executing g o) = some t)
    (free : heldBack [t] = false) (takes : TileTakes s g tile) (judged : cmd g t = .ok x) (room : s.queueRoom g.ctx g.core = some ring) :
    s.bulkElected k o tile cmd = .next (s.wentOn ((s.fillTile (quadOfCore g.core) x).enqueue g t x ring) k o c g) :=
  State.issue_done ready (by simp [first, free, judged, State.fillWaits_of_takes takes, room])

end

/-! ## The instructions (R382 to R387, R399, R437) -/

/-- A bulk instruction queues the commands of its lanes, those that are judged now or those that were judged before. -/
theorem bulk_instruction {k : Opc} {i : Op → Instr} {tile : Op → Option Nat} {cmd : State → Op → Group → Thread → Except Flt Cmd}
    (runs : ∀ o s, exec (i o) s = s.bulk k o (tile o) (cmd s o)) (o : Op) (s e : State) (c : Cur) (g : Group) (ready : s.Ready k o c g) :
    (g.redo = none ∨ (s.bulkWait.filter fun x => x.1 == g.gid) = [] → heldBack (s.executing g o) = false → TileTakes s g (tile o) →
      g.LanesQueue (fun t y => cmd s o g t = .ok y) s (s.executing g o) e → exec (i o) s = .next (s.wentOn (e.bulkDone g) k o c g)) ∧
    (g.redo.isSome = true → (s.bulkWait.filter fun x => x.1 == g.gid) ≠ [] → heldBack (s.executing g o) = false →
      TileTakes s g (tile o) → (s.uids g o).Nodup → s.uids g o = (s.bulkWait.filter fun x => x.1 == g.gid).map (·.2.uid) →
      g.LanesQueue (fun t y => (g.gid, y) ∈ s.bulkWait ∧ y.uid = t.uid) s (s.executing g o) e →
      exec (i o) s = .next (s.wentOn (e.bulkDone g) k o c g)) := by
  rw [runs]
  exact ⟨State.bulk_queues ready, State.bulk_resumes ready⟩

theorem lodeCopy_queues : Elects .lodeCopy .lodeCopy (fun _ _ t => heldBack [t] = false) fun o g s t e =>
    TileTakes s g (if o.imm.getLsbD 0 then some (o.imm.extractLsb' 1 6).toNat else none) ∧
    ∃ x ring, lodeCopyCmd s o g t = .ok x ∧ s.queueRoom g.ctx g.core = some ring ∧
      e = (s.fillTile (quadOfCore g.core) x).enqueue g t x ring := by
  refine fun o s c g ready => ⟨State.bulkElected_nobody ready, ?_⟩
  rintro t _ first free ⟨takes, x, ring, judged, room, rfl⟩
  exact State.bulkElected_queues ready first free takes judged room

/-- A fill by the forge is an elected bulk instruction, once no `forge.rdy` of its threads is incomplete (R417). -/
theorem execOpresFill_eq {o : Op} {s : State} {c : Cur} {g : Group} (issuing : s.Issuing c g) (done : ∀ u ∈ s.executing g o, u.rdy = 0) :
    execOpresFill o s = s.bulkElected .opresFill o (some o.d.toNat) (fillCmd s o) := by
  unfold execOpresFill
  rw [issuing.1, Option.bind_some, issuing.2]
  exact if_pos (by simpa using done)

theorem opresFill_queues : Elects .opresFill .opresFill ForgeFree fun o g s t e =>
    TileTakes s g (some o.d.toNat) ∧ ∃ x ring, fillCmd s o g t = .ok x ∧ s.queueRoom g.ctx g.core = some ring ∧
      e = (s.fillTile (quadOfCore g.core) x).enqueue g t x ring := by
  refine fun o s c g ready => ⟨fun nobody => ?_, ?_⟩
  · exact (execOpresFill_eq ready.1 (by simp [nobody])).trans (State.bulkElected_nobody ready nobody)
  · rintro t _ first ⟨free, done⟩ ⟨takes, x, ring, judged, room, rfl⟩
    exact (execOpresFill_eq ready.1 done).trans (State.bulkElected_queues ready first free takes judged room)

end Sys2Proof.Machine

namespace Sys2Proof

open Machine

/-- Settles O40: each clause is the lemma above about its kind of instruction. -/
theorem bulkCommandsQueue : Obligations.BulkCommandsQueue :=
  ⟨bulk_instruction fun _ _ => rfl, bulk_instruction fun _ _ => rfl, bulk_instruction fun _ _ => rfl,
    bulk_instruction fun _ _ => rfl, bulk_instruction fun _ _ => rfl, lodeCopy_queues, opresFill_queues⟩

end Sys2Proof

/-! Proofs about the seam unit's updates, its fence and its scan (R203 to R206, R213, R215, R430 to R434), which settle O46 and O47. -/

namespace Sys2Proof.Machine

/-! ## Issues that wait, and checks that find nothing -/

theorem State.issue_stall {s : State} {k : Opc} {o : Op} {c : Cur} {g : Group} (ready : s.Ready k o c g)
    {body : Group → List Thread → Body} (waits : body g (s.executing g o) = .stall) :
    s.issue k o body = .next { s with stalls := g.gid :: s.stalls } := by
  rw [State.issue_ready ready, waits]

theorem State.curLen_issuing {s : State} {c : Cur} {g : Group} (issuing : s.Issuing c g) : s.curLen = c.len := by
  rw [State.curLen, issuing.1]

@[simp] theorem refuseIf_false : refuseIf false = none := rfl

@[simp] theorem firstOf_none_cons (fs : List (Option Flt)) : firstOf (none :: fs) = firstOf fs := rfl

/-! ## Entries of the seam queue (R393, R420, R421) -/

/-- What an elected seam instruction that passes its checks does: it leaves `e` where the queue has room; else its elected thread is
held back, alone where the group has others. -/
def State.EntersQueue (s e : State) (out : Host.Outcome State Fault Refusal) (k : Opc) (o : Op) (c : Cur) (g : Group) (t : Thread) : Prop :=
  (s.seamRoom g.core = true → out = .next (s.wentOn e k o c g)) ∧
  (s.seamRoom g.core = false →
    (g.members = [t.uid] → out = .next { s with stalls := g.gid :: s.stalls }) ∧
    (g.members ≠ [t.uid] → out = .next (s.wentTo ((s.uncount g.core 1).splitGroup g
      [([t.uid], id), (g.members.filter fun u => u != t.uid, fun h => h.past c.len true)]) k o g)))

section
variable {k : Opc} {o : Op} {s : State} {c : Cur} {g : Group} {t : Thread}

section
variable (ready : s.Ready k o c g) (first : elected (s.executing g o) = some t) (free : SeamFree s (s.executing g o) t)
include ready first free

theorem State.seam_stall {body : Group → Thread → Body} (waits : body g t = .stall) :
    s.seam k o body = .next { s with stalls := g.gid :: s.stalls } :=
  State.issue_stall ready (by simp [first, free.1, free.2, waits])

theorem State.seam_moved {e : State} {body : Group → Thread → Body} (moves : body g t = .moved e) :
    s.seam k o body = .next (s.wentTo e k o g) :=
  State.issue_moved ready (by simp [first, free.1, free.2, moves])

theorem State.seam_entersQueue {e : State} {body : Group → Thread → Body}
    (judged : body g t = if s.seamRoom g.core then .done e else s.heldAlone g t s.curLen) :
    s.EntersQueue e (s.seam k o body) k o c g t := by
  refine ⟨fun room => State.seam_ready ready first free (judged.trans (if_pos room)), fun full => ?_⟩
  have held := judged.trans (if_neg (by simp [full]))
  rw [State.curLen_issuing ready.1] at held
  exact ⟨fun alone => State.seam_stall ready first free (held.trans (if_pos alone)),
    fun others => State.seam_moved ready first free (held.trans (if_neg others))⟩

end

/-! ## Tables' versions and rows (R203 to R206, R213, R431, R433) -/

/-- The descriptor of a migration that begins: the next version's family and bits are `fam` and `log2b`, its buckets are at `bkt`, and no
bucket of the table is claimed (R203, R431). -/
def State.beginMigration (s : State) (g : Group) (va : DWord) (p : PAddr) (d : Desc) (bkt fam log2b : Nat) : State :=
  let m := (s.readDescs g [va]).putDesc g.ctx g.core p
    [(0, 4, d.word0 true d.cur 0), (4, 4, 0), (0x20 + 16 * (1 - d.cur), 8, bkt), (0x28 + 16 * (1 - d.cur), 4, fam * 256 + log2b),
     (0x2C + 16 * (1 - d.cur), 4, 0)]
  { m with claims := m.claims.filter fun x => x.1 != p }

/-- The next `n` buckets of a table that migrates are claimed (R204). -/
def State.claimBuckets (s : State) (g : Group) (va : DWord) (p : PAddr) (d : Desc) (n : Nat) : State :=
  let m := (s.readDescs g [va]).putDesc g.ctx g.core p [(4, 4, d.claim + n)]
  { m with claims := m.claims ++ (List.range n).map fun i => (p, d.claim + i) }

section
variable {p : PAddr} {table : TableRef} {d : Desc} (first : elected (s.executing g o) = some t)
  (free : SeamFree s (s.executing g o) t) (near : s.descsAway g.ctx g.core [t.pair o.a.toNat] = false)
  (found : descAt s g.ctx (t.pair o.a.toNat) .atomic = .ok (p, table, d))
include first free near found

theorem seamVer_entersQueue {f : Family} (ready : s.Ready .seamVer o c g)
    (family : s.family g.core (o.imm.extractLsb' 5 3).toNat = some f) (settled : d.mig = false)
    (few : (o.imm.extractLsb' 0 5).toNat ≤ 24) (planes : (o.imm.extractLsb' 0 5).toNat ≤ f.p) (dims : f.d = d.dim)
    (fits : (t.pair o.b.toNat).toNat < 2 ^ 52) (aligned : (t.pair o.b.toNat).toNat % 4096 = 0) :
    s.EntersQueue ((s.beginMigration g (t.pair o.a.toNat) p d (t.pair o.b.toNat).toNat (o.imm.extractLsb' 5 3).toNat
      (o.imm.extractLsb' 0 5).toNat).queueSeam g t [t.uid] .ver none) (exec (.seamVer o) s) .seamVer o c g t := by
  have good : ¬ (24 < (o.imm.extractLsb' 0 5).toNat ∨ f.p < (o.imm.extractLsb' 0 5).toNat ∨ f.d ≠ d.dim ∨
      2 ^ 52 ≤ (t.pair o.b.toNat).toNat) := by omega
  refine State.seam_entersQueue ready first free ((if_neg (by simp [near])).trans ?_)
  rw [found]
  dsimp -zeta only
  rw [family, settled]
  dsimp -zeta only
  rw [if_pos aligned, if_neg good]
  cases room : s.seamRoom g.core <;> rfl

theorem seamRehash_entersQueue (ready : s.Ready .seamRehash o c g) (migrates : d.mig = true)
    (versions : firstOf (versionFaults s g.core d (t.pair o.a.toNat) d.versions) = .ok ()) :
    let n := min (o.srcB32 t).toNat (2 ^ d.now.log2b - d.claim)
    s.EntersQueue ((s.claimBuckets g (t.pair o.a.toNat) p d n).queueSeam g t [t.uid] (.rehash table d.claim n) none)
      (exec (.seamRehash o) s) .seamRehash o c g t := by
  have passes : firstOf (refuseIf (!d.mig) :: versionFaults s g.core d (t.pair o.a.toNat) d.versions) = .ok () := by
    simpa [migrates] using versions
  refine State.seam_entersQueue ready first free ((if_neg (by simp [near])).trans ?_)
  rw [found]
  dsimp -zeta only
  rw [passes]
  cases room : s.seamRoom g.core <;> rfl

theorem seamFin_entersQueue (ready : s.Ready .seamFin o c g) (migrates : d.mig = true) (ended : d.cursor = 2 ^ d.now.log2b)
    (versions : firstOf (versionFaults s g.core d (t.pair o.a.toNat) [d.now]) = .ok ()) :
    s.EntersQueue ((s.readDescs g [t.pair o.a.toNat]).queueSeam g t [t.uid] (.fin table) none) (exec (.seamFin o) s) .seamFin o c g t := by
  have passes : firstOf (refuseIf (!d.mig || d.cursor != 2 ^ d.now.log2b) ::
      versionFaults s g.core d (t.pair o.a.toNat) [d.now]) = .ok () := by
    simpa [migrates, ended] using versions
  refine State.seam_entersQueue ready first free ((if_neg (by simp [near])).trans ?_)
  rw [found]
  dsimp only
  rw [passes]
  rfl

theorem seamPub_entersQueue {tile : Tile} (ready : s.Ready .seamPub o c g) (list : s.tileOf g o.b.toNat = some tile)
    (rows : d.master ≠ 0) :
    s.EntersQueue ((s.readDescs g [t.pair o.a.toNat]).queueSeam g t [t.uid] (.publish table o.b.toNat) none) (exec (.seamPub o) s)
      .seamPub o c g t := by
  refine State.seam_entersQueue ready first free ((if_neg (by simp [near])).trans ?_)
  rw [found, list]
  dsimp only
  rw [if_neg rows]
  rfl

end
end

/-! ## Inserting and deleting (R205, R430) -/

/-- An instruction with one entry for its lanes, all of which pass their checks. -/
theorem seamEach_entersQueue {k : Opc} {i : Op → Instr} {del : Bool} {op : List SeamLane → SeamOp}
    (runs : ∀ o s, exec (i o) s = s.seamEach k o del op) (o : Op) (s : State) (c : Cur) (g : Group) (t : Thread) (rest : List Thread)
    (l : Thread → SeamLane) (ready : s.Ready k o c g) (lanes : s.executing g o = t :: rest) (free : heldBack (t :: rest) = false)
    (stored : ∀ x ∈ t :: rest, s.storing x.uid = false)
    (near : s.descsAway g.ctx g.core ((t :: rest).map fun x => x.pair o.a.toNat) = false)
    (judged : ∀ x ∈ t :: rest, seamLane s o g x del = .ok (l x)) :
    let off := g.members.filter fun u => !(s.uids g o).contains u
    (s.seamRoom g.core = true →
      exec (i o) s = .next (s.wentOn ((s.readDescs g ((t :: rest).map fun x => x.pair o.a.toNat)).queueSeam g t (s.uids g o)
        (op ((t :: rest).map l)) none) k o c g)) ∧
    (s.seamRoom g.core = false → off = [] → exec (i o) s = .next { s with stalls := g.gid :: s.stalls }) ∧
    (s.seamRoom g.core = false → off ≠ [] → exec (i o) s = .next (s.wentTo ((s.uncount g.core (t :: rest).length).splitGroup g
      [(s.uids g o, id), (off, fun h => h.past c.len true)]) k o g)) := by
  have idle : (t :: rest).any (fun x => s.storing x.uid) = false := by simpa using stored
  have entry : (t :: rest).filterMap (fun x => (seamLane s o g x del).toOption) = (t :: rest).map l := by
    rw [List.filterMap_congr (g := some ∘ l) fun x mem => by rw [judged x mem]; rfl, List.filterMap_eq_map]
  rw [runs, State.seamEach, State.issue_ready ready, State.uids, lanes]
  dsimp only
  rw [free, idle, near, faultsOf_nil fun x mem => by rw [judged x mem], entry, State.curLen_issuing ready.1, List.length_map]
  refine ⟨fun room => by simp [room], fun full nobody => ?_, fun full others => ?_⟩
  · simp only [full, List.isEmpty_iff.mpr nobody]
    rfl
  · simp only [full, Bool.eq_false_iff.mpr (mt List.isEmpty_iff.mp others)]
    rfl

/-! ## The fence and the scan (R215, R432, R434) -/

/-- A fence records the incomplete seam operations of each of its threads, which it then holds back. -/
theorem seamFence_holds {k : Opc} {i : Op → Instr} (runs : ∀ o s, exec (i o) s = s.seamFence k o) (o : Op) (s : State) (c : Cur) (g : Group)
    (ready : s.Ready k o c g) (free : heldBack (s.executing g o) = false) :
    exec (i o) s = .next (s.wentOn ((s.executing g o).foldl (fun (e : State) t =>
      let late : Late := .seamFence t.uid g.flagNow (e.seamOps (quadOfCore g.core) t.uid)
      ({ e with late := e.late ++ [late] } : State).onThread t.uid fun y =>
        { y.count.holdFlag g.flagNow with holds := y.holds + 1 }) s).settleUnits k o c g) :=
  (runs o s).trans (State.issue_done ready (if_neg (by simp [free])))

theorem nzscan_lists (o : Op) (s : State) (c : Cur) (g : Group) (t : Thread) (p : PAddr) (tile : Tile) (ready : s.Ready .nzscan o c g)
    (first : elected (s.executing g o) = some t) (isSealed : g.isSealed = true) (free : heldBack (s.executing g o) = false) :
    let q := quadOfCore g.core
    let idx := (o.imm.extractLsb' 0 6).toNat
    let l := (o.srcB32 t).toNat
    let es := o.ty.bits / 8
    1 ≤ l → l ≤ 8192 → s.teamPlace t (t.reg o.a.toNat) (l * es) es = .ok p → s.tileOf g idx = some tile → 4 + 4 * l ≤ tile.len →
    tile.canFill = true → s.poisoned p (l * es) = false →
    let live := (List.range l).filter fun i => liveElem o.ty (s.natAt (p.plus (es * i)) es)
    let m := ((s.fillWith q idx (4 + 4 * l)).localWrite (tile.place q) (rowList false live)).landTile q (some (idx, tile.gen)) (4 + 4 * l)
    let m : State := { m with nextId := m.nextId + 1, late := m.late ++
      [.scan m.nextId (s.uids g o) g.flagNow q idx o.d.toNat live.length t.team] }
    exec (.nzscan o) s = .next (s.wentOn ((m.charge (s.uids g o) g.flagNow true).settleQuad q) .nzscan o c g) := by
  intro q idx l es nonempty most place list long fillable clean
  have counted : (l == 0 || decide (8192 < l)) = false := by simp; omega
  refine State.issue_done ready ?_
  rw [first]
  refine (if_neg (by simp [isSealed])).trans ((if_neg (by simp [free])).trans ?_)
  rw [place, list, counted]
  dsimp -zeta only
  rw [if_neg long.not_gt]
  exact (if_neg (by simp [fillable])).trans (if_neg (Bool.eq_false_iff.mp clean))

end Sys2Proof.Machine

namespace Sys2Proof

open Machine

/-- Settles O46: each clause is the lemma above about its instruction's entry, with room in the queue or without. -/
theorem seamUpdates : Obligations.SeamUpdates := by
  refine ⟨seamEach_entersQueue fun _ _ => rfl, seamEach_entersQueue fun _ _ => rfl, ?ver, ?rehash, ?fin, ?pub,
    ?verFull, ?rehashFull, ?finFull, ?pubFull⟩
  case ver =>
    refine fun o s c g ready => ⟨fun nobody => State.seam_nobody ready nobody _, ?_⟩
    rintro t _ first free ⟨p, table, d, f, found, family, settled, few, planes, dims, fits, aligned, near, room, rfl⟩
    exact (seamVer_entersQueue first free near found ready family settled few planes dims fits aligned).1 room
  case rehash =>
    refine fun o s c g ready => ⟨fun nobody => State.seam_nobody ready nobody _, ?_⟩
    rintro t _ first free ⟨p, table, d, found, migrates, versions, near, room, rfl⟩
    exact (seamRehash_entersQueue first free near found ready migrates versions).1 room
  case fin =>
    refine fun o s c g ready => ⟨fun nobody => State.seam_nobody ready nobody _, ?_⟩
    rintro t _ first free ⟨p, table, d, found, migrates, ended, versions, near, room, rfl⟩
    exact (seamFin_entersQueue first free near found ready migrates ended versions).1 room
  case pub =>
    refine fun o s c g ready => ⟨fun nobody => State.seam_nobody ready nobody _, ?_⟩
    rintro t _ first free ⟨p, table, d, tile, found, list, rows, near, room, rfl⟩
    exact (seamPub_entersQueue first free near found ready list rows).1 room
  case verFull =>
    rintro o s c g t ready first free ⟨room, near, p, table, d, found, f, family, settled, few, planes, dims, fits, aligned⟩
    exact (seamVer_entersQueue first free near found ready family settled few planes dims fits aligned).2 room
  case rehashFull =>
    rintro o s c g t ready first free ⟨room, near, p, table, d, found, migrates, versions⟩
    exact (seamRehash_entersQueue first free near found ready migrates versions).2 room
  case finFull =>
    rintro o s c g t ready first free ⟨room, near, p, table, d, found, migrates, ended, versions⟩
    exact (seamFin_entersQueue first free near found ready migrates ended versions).2 room
  case pubFull =>
    rintro o s c g t ready first free ⟨room, near, p, table, d, found, rows, list⟩
    obtain ⟨tile, list⟩ := Option.isSome_iff_exists.mp list
    exact (seamPub_entersQueue first free near found ready list rows).2 room

/-- Settles O47: a fence holds its threads, and a scan whose vector and tile pass the checks of R434 lists in one act. -/
theorem seamFenceAndScan : Obligations.SeamFenceAndScan :=
  ⟨⟨seamFence_holds fun _ _ => rfl, seamFence_holds fun _ _ => rfl⟩, nzscan_lists⟩

end Sys2Proof

/-! Proofs about fences and barriers (R233, R239, R301, R376, R377), which settle O32. -/

namespace Sys2Proof.Machine

/-! ## Arrivals (R377) -/

/-- A thread that has arrived at a team's barrier, with the flag of its clause. -/
def Thread.atTbar (t : Thread) (flag : Option Nat) : Thread := { t with tbar := some flag }

/-- The same at a cluster's barrier. -/
def Thread.atCbar (t : Thread) (flag : Option Nat) : Thread := { t with cbar := some flag }

theorem exec_tbar (o : Op) (s : State) : exec (.tbar o) s = s.arrive .tbar o Thread.tbar Thread.atTbar := rfl

theorem exec_cbar (o : Op) (s : State) : exec (.cbar o) s = s.arrive .cbar o Thread.cbar Thread.atCbar := rfl

section
variable {k : Opc} {o : Op} {s : State} {c : Cur} {g : Group} {at_ : Thread → Option (Option Nat)} {put : Thread → Option Nat → Thread}

theorem fence_holds (ready : s.Ready .fence o c g) (free : heldBack (s.executing g o) = false) :
    exec (.fence o) s = .next (s.wentOn ((s.executing g o).foldl (fun (e : State) t =>
       let late : Late := .fence t.uid g.flagNow
         ((e.requestsOf t.uid).map (·.id) ++ e.unperformed t.uid ++ (e.lodes.filter fun l => l.uid == t.uid).map (·.op))
         (if o.empties then some g.core else none)
       ({ e with late := e.late ++ [late] } : State).onThread t.uid fun t => { t.holdFlag g.flagNow with holds := t.holds + 1 })
       s).settleFences .fence o c g) :=
  State.issue_done ready (if_neg (by simp [free]))

theorem State.arrive_arrives (ready : s.Ready k o c g) (free : heldElse (s.executing g o) = false)
    (quiet : ∀ t ∈ s.executing g o, s.quiet t.uid = true) (births : ∀ t ∈ s.executing g o, t.kind = .birth ∧ at_ t = none) :
    s.arrive k o at_ put = .next (s.wentOn ((dedup ((s.executing g o).map (·.team))).foldl State.settleBarriers
      (s.onThreads (s.uids g o) fun t => put { t.holdFlag g.flagNow with holds := t.holds + 1 } g.flagNow)) k o c g) := by
  refine State.issue_done ready ?_
  rw [faultsOf_nil fun t mem => if_pos (births t mem).1]
  have expected : ∀ t ∈ s.executing g o, at_ t = none := fun t mem => (births t mem).2
  exact if_neg (by simpa [free] using And.intro expected quiet)

theorem State.arrive_stops (ready : s.Ready k o c g) (other : ∃ t ∈ s.executing g o, t.kind ≠ .birth) :
    s.arrive k o at_ put = .next (s.stopped g (allTake ((s.executing g o).filter fun t => t.kind ≠ .birth) .stateIllegal)) := by
  obtain ⟨t, member, kind⟩ := other
  have check : (fun t : Thread => if t.kind = .birth then none else some ({ cls := .stateIllegal, addr := 0 } : Flt)) =
      fun t => if decide (t.kind ≠ .birth) then some { cls := .stateIllegal, addr := 0 } else none := by
    funext t
    by_cases birth : t.kind = .birth <;> simp [birth]
  refine State.issue_stop ready ((stop_of_faults ⟨t, member, by simp [kind]⟩ _).trans ?_)
  rw [check, faultsOf_class]

end

/-! ## Departures (R301, R377) -/

/-- What the departure of a team's barrier makes of a thread. -/
def Thread.leaveTbar (team now : Nat) (t : Thread) : Thread :=
  match (if t.team == team then t.tbar else none) with
  | some f => { (t.dropFlag f).proceed now with tbar := none }
  | none => t

/-- What the departure of the barrier of a cluster's teams makes of a thread. -/
def Thread.leaveCbar (teams : List Team) (now : Nat) (t : Thread) : Thread :=
  match (if teams.any fun x => x.tuid == t.team then t.cbar else none) with
  | some f => { (t.dropFlag f).proceed now with cbar := none }
  | none => t

theorem Thread.dropFlag_eq (t : Thread) (flag : Option Nat) : ∃ flags, t.dropFlag flag = { t with flags := flags } := by
  cases flag <;> exact ⟨_, rfl⟩

theorem Thread.leaveTbar_eq (team now : Nat) (t : Thread) :
    ∃ flags holds seen tbar, t.leaveTbar team now = { t with flags := flags, holds := holds, seen := seen, tbar := tbar } ∧
      (t.team = team → tbar = none) := by
  unfold Thread.leaveTbar
  split
  · next f _ =>
    obtain ⟨flags, eq⟩ := t.dropFlag_eq f
    exact ⟨_, _, _, none, by rw [eq]; rfl, fun _ => rfl⟩
  · next stays => exact ⟨_, _, _, t.tbar, rfl, fun own => by simpa [own] using stays⟩

theorem Thread.leaveCbar_eq (teams : List Team) (now : Nat) (t : Thread) :
    ∃ flags holds seen cbar, t.leaveCbar teams now = { t with flags := flags, holds := holds, seen := seen, cbar := cbar } ∧
      ((∃ x ∈ teams, x.tuid = t.team) → cbar = none) := by
  unfold Thread.leaveCbar
  split
  · next f _ =>
    obtain ⟨flags, eq⟩ := t.dropFlag_eq f
    exact ⟨_, _, _, none, by rw [eq]; rfl, fun _ => rfl⟩
  · next stays => exact ⟨_, _, _, t.cbar, rfl, fun own => by simpa [own] using stays⟩

theorem Thread.leaveTbar_uid (team now : Nat) (t : Thread) : (t.leaveTbar team now).uid = t.uid := by
  obtain ⟨_, _, _, _, eq, -⟩ := t.leaveTbar_eq team now
  rw [eq]

theorem Thread.leaveCbar_uid (teams : List Team) (now : Nat) (t : Thread) : (t.leaveCbar teams now).uid = t.uid := by
  obtain ⟨_, _, _, _, eq, -⟩ := t.leaveCbar_eq teams now
  rw [eq]

theorem State.departTbar_eq (s : State) (team : Nat) :
    s.departTbar team = { s with threads := s.threads.map (Thread.leaveTbar team s.nextId) } := rfl

/-- The live birth threads of a team. -/
def State.teamBirths (s : State) (team : Nat) : List Thread := s.threads.filter fun x => x.team == team && x.kind == .birth

/-- The teams of a cluster. -/
def State.clusterTeams (s : State) (cluster : Nat) : List Team := s.teams.filter fun t => t.cluster == cluster

/-- The live birth threads of a cluster. -/
def State.clusterBirths (s : State) (cluster : Nat) : List Thread :=
  s.threads.filter fun x => x.kind == .birth && (s.clusterTeams cluster).any fun t => t.tuid == x.team

/-- The threads of a cluster leave its barrier, and the L1 of each of its teams' cores is emptied (R177). -/
def State.departCbar (s : State) (cluster : Nat) : State :=
  (dedup ((s.clusterTeams cluster).map (·.core))).foldl State.emptyL1
    { s with threads := s.threads.map (Thread.leaveCbar (s.clusterTeams cluster) s.nextId) }

/-- The branches of a phase of `tbar` (R301, R377). -/
theorem State.settleTbar_eq {s : State} {x : Team} (found : s.team? x.tuid = some x) : s.settleTbar x.tuid =
    if x.saved || (s.teamBirths x.tuid).isEmpty || (s.teamBirths x.tuid).any (fun t => t.tbar.isNone) then s
    else if s.stepped x || x.stepState == some true then s.setReg (stepReg x.core) (setBits (s.reg (stepReg x.core)) 62 62 1)
    else s.departTbar x.tuid := by
  rw [State.settleTbar, found]
  rfl

/-- The branches of a phase of `cbar` (R377). -/
theorem State.settleCbar_eq (s : State) (cluster : Nat) : s.settleCbar cluster =
    if (s.clusterTeams cluster).any (·.saved) || (s.clusterBirths cluster).isEmpty ||
      (s.clusterBirths cluster).any (fun t => t.cbar.isNone) then s
    else s.departCbar cluster := rfl

section
variable {s : State} {x : Team} (found : s.team? x.tuid = some x)
include found

theorem settleTbar_waits (somebody : ∃ t ∈ s.teamBirths x.tuid, t.tbar = none) : s.settleTbar x.tuid = s := by
  have away : (s.teamBirths x.tuid).any (fun t => t.tbar.isNone) = true := by simpa using somebody
  rw [State.settleTbar_eq found, away, Bool.or_true]
  exact if_pos rfl

variable (present : x.saved = false) (live : s.teamBirths x.tuid ≠ []) (arrived : ∀ t ∈ s.teamBirths x.tuid, t.tbar ≠ none)
include present live arrived

theorem settleTbar_departs (free : s.stepped x = false) (going : x.stepState ≠ some true) : s.settleTbar x.tuid = s.departTbar x.tuid := by
  rw [State.settleTbar_eq found, if_neg (by simpa [present, live] using arrived)]
  exact if_neg (by simp [free, going])

theorem settleTbar_held (held : s.stepped x = true ∨ x.stepState = some true) :
    s.settleTbar x.tuid = s.setReg (stepReg x.core) (setBits (s.reg (stepReg x.core)) 62 62 1) := by
  rw [State.settleTbar_eq found, if_neg (by simpa [present, live] using arrived)]
  exact if_pos (by simpa using held)

end

theorem departTbar_threads {s : State} {team : Nat} : ∀ t ∈ (s.departTbar team).threads, t.team = team → t.tbar = none := by
  intro t mem own
  obtain ⟨y, -, rfl⟩ := List.mem_map.mp (State.departTbar_eq s team ▸ mem)
  obtain ⟨_, _, _, _, eq, left⟩ := y.leaveTbar_eq team s.nextId
  rw [eq] at own ⊢
  exact left own

section
variable {s : State} {cluster : Nat}

theorem settleCbar_waits (somebody : ∃ t ∈ s.clusterBirths cluster, t.cbar = none) : s.settleCbar cluster = s := by
  have away : (s.clusterBirths cluster).any (fun t => t.cbar.isNone) = true := by simpa using somebody
  rw [State.settleCbar_eq, away, Bool.or_true]
  exact if_pos rfl

theorem settleCbar_departs (present : ∀ x ∈ s.clusterTeams cluster, x.saved = false) (live : s.clusterBirths cluster ≠ [])
    (arrived : ∀ t ∈ s.clusterBirths cluster, t.cbar ≠ none) : s.settleCbar cluster = s.departCbar cluster := by
  have here : (s.clusterTeams cluster).any (·.saved) = false := by simpa using present
  rw [State.settleCbar_eq, here]
  exact if_neg (by simpa [live] using arrived)

theorem State.departCbar_threads_eq :
    (s.departCbar cluster).threads = s.threads.map (Thread.leaveCbar (s.clusterTeams cluster) s.nextId) :=
  (SameQueues.foldl sameQueues_emptyL1 _ _).threads

theorem departCbar_threads :
    ∀ t ∈ (s.departCbar cluster).threads, (∃ x ∈ s.clusterTeams cluster, x.tuid = t.team) → t.cbar = none := by
  intro t mem own
  obtain ⟨y, -, rfl⟩ := List.mem_map.mp (State.departCbar_threads_eq ▸ mem)
  obtain ⟨_, _, _, _, eq, left⟩ := y.leaveCbar_eq (s.clusterTeams cluster) s.nextId
  rw [eq] at own ⊢
  exact left own

end

end Sys2Proof.Machine

namespace Sys2Proof

open Machine

/-- Settles O32: a fence holds its threads, arrivals are the lemmas above about `State.arrive`, and a phase waits, departs or is held. -/
theorem fencesAndBarriers : Obligations.FencesAndBarriers := by
  refine ⟨fun o s c g => fence_holds, fun o s c g => ⟨?tbar, ?cbar, fun other => ⟨?tbarStops, ?cbarStops⟩⟩, fun s team => ?phase,
    fun s cluster => ?clusterPhase⟩
  case tbar => exact fun ready free quiet births => (exec_tbar o s).trans (State.arrive_arrives ready free quiet births)
  case cbar => exact fun ready free quiet births => (exec_cbar o s).trans (State.arrive_arrives ready free quiet births)
  case tbarStops => exact fun ready => (exec_tbar o s).trans (State.arrive_stops ready other)
  case cbarStops => exact fun ready => (exec_cbar o s).trans (State.arrive_stops ready other)
  case phase =>
    intro births found
    refine ⟨settleTbar_waits found, fun present free going live arrived => ?_,
      fun present held live arrived => settleTbar_held found present live arrived held⟩
    rw [settleTbar_departs found present live arrived free going]
    exact departTbar_threads
  case clusterPhase =>
    intro teams births
    refine ⟨settleCbar_waits, fun present live arrived => ?_⟩
    rw [settleCbar_departs present live arrived]
    exact departCbar_threads

end Sys2Proof

/-! Proofs about the end of threads (R239, R242, R270, R360), with the refutation of the statement about it, O22: where two groups have
one name, each goes on after its own place. -/

namespace Sys2Proof.Machine

theorem State.issue_stopped {s e : State} {k : Opc} {o : Op} {c : Cur} {g : Group} (ready : s.Ready k o c g)
    {body : Group → List Thread → Body} (stops : body g (s.executing g o) = .stopped e) : s.issue k o body = .next e := by
  rw [State.issue_ready ready, stops]

/-! ## A thread that is gone (R360) -/

/-- A name that no thread has and no group holds. -/
structure State.Gone (s : State) (u : Nat) : Prop where
  threads : ∀ t ∈ s.threads, t.uid ≠ u
  groups : ∀ g ∈ s.groups, u ∉ g.members

@[simp] theorem Group.past_members (g : Group) (len : Nat) (long : Bool) : (g.past len long).members = g.members := by
  obtain ⟨_, _, _, eq⟩ := Group.past_eq g len long
  rw [eq]

namespace State.Gone

theorem ite {s e : State} {u : Nat} {c : Prop} [Decidable c] (h : s.Gone u) (k : e.Gone u) : (if c then s else e).Gone u := by
  split
  · exact h
  · exact k

theorem foldl {α : Type} {f : State → α → State} {u : Nat} (keeps : ∀ m x, State.Gone m u → (f m x).Gone u) {s : State}
    (h : s.Gone u) (l : List α) : (l.foldl f s).Gone u :=
  List.foldlRecOn (motive := fun m : State => m.Gone u) l f h fun m gone x _ => keeps m x gone

variable {s : State} {u : Nat} (h : s.Gone u)
include h

theorem thread?_eq_none : s.thread? u = none := List.find?_eq_none.mpr fun t mem => by simpa using h.threads t mem

theorem onThreads (ids : List Nat) {f : Thread → Thread} (keeps : ∀ t, (f t).uid = t.uid) : (s.onThreads ids f).Gone u where
  threads t mem := by
    obtain ⟨x, listed, rfl⟩ := List.mem_map.mp mem
    simpa [apply_ite Thread.uid, keeps] using h.threads x listed
  groups := h.groups

theorem onGroup (gid : Nat) {f : Group → Group} (keeps : ∀ g, (f g).members = g.members) : (s.onGroup gid f).Gone u where
  threads := h.threads
  groups g mem := by
    obtain ⟨x, listed, rfl⟩ := List.mem_map.mp mem
    simpa [apply_ite Group.members, keeps] using h.groups x listed

/-- Live threads have other names. -/
theorem not_mem_names {xs : List Thread} (live : ∀ t ∈ xs, t ∈ s.threads) : u ∉ xs.map (·.uid) := by
  intro named
  obtain ⟨t, mem, name⟩ := List.mem_map.mp named
  exact h.threads t (live t mem) name

/-! ### What an issue counts, and stops (R32, R139, R269, R453) -/

theorem setReg (off v : Nat) : (s.setReg off v).Gone u := ⟨h.threads, h.groups⟩

theorem lift (p : PAddr) (n : Nat) : (s.lift p n).Gone u := .ite h ⟨h.threads, h.groups⟩

theorem liftRegs (us : List RegUse) (xs : List Thread) : (s.liftRegs us xs).Gone u :=
  .ite h (.foldl (fun _ t gone => .foldl (fun _ x gone => gone.lift (t.regCells x).1 (t.regCells x).2) gone us) h xs)

theorem bumpPerf (core n k : Nat) : (s.bumpPerf core n k).Gone u := .ite h ⟨h.threads, h.groups⟩

theorem noteIssue (k : Opc) (g : Group) (n : Nat) : (s.noteIssue k g n).Gone u := by
  have spent : State.Gone { s with spent := (g.core, k.vector) :: s.spent } u := ⟨h.threads, h.groups⟩
  have counted := ((spent.onGroup g.gid (f := fun g => { g with ready := s.clock, aged := false }) fun _ => rfl).bumpPerf g.core
    (if k.vector then 1 else 2) 1).bumpPerf g.core 3 n
  exact .ite ⟨counted.threads, counted.groups⟩ counted

theorem takeStop (g : Group) (pc : DWord) (boundary : Bool) (fs : List (Thread × Flt)) : (s.takeStop g pc boundary fs).Gone u := by
  have noted (n : Nat) (records : List FRec) (stops : List Stop) :
      State.Gone { s with nextId := n, records := records, stops := stops } u := ⟨h.threads, h.groups⟩
  have stopped n records stops := (noted n records stops).onGroup g.gid (f := fun g => { g with wait := .fault s.nextId }) fun _ => rfl
  exact .ite ((stopped _ _ _).setReg _ _) (stopped _ _ _)

/-! ### Joins and seals (R148 to R152) -/

theorem settleJoin (e : Enrolment) : (s.settleJoin e).Gone u := by
  refine .ite ⟨h.threads, h.groups⟩ (.ite ?_ h)
  dsimp only
  split
  · exact h
  · next g rest parts =>
    refine .ite ?_ (.foldl (fun m g gone => gone.takeStop g _ _ _) h _)
    have members : u ∉ s.enrolledIds e :=
      h.not_mem_names fun t mem => List.mem_of_mem_filter ((mem_sortBy _).mp mem)
    have closed : State.Gone { s with
        groups := (s.groups.filter fun h => !(rest.any fun r => r.gid == h.gid)).map fun h => if h.gid == g.gid then s.joined e g else h
        enrolments := s.enrolments.filter fun x => x.eid != e.eid } u := by
      refine ⟨h.threads, fun x mem => ?_⟩
      obtain ⟨y, listed, rfl⟩ := List.mem_map.mp mem
      split
      · simpa [State.joined] using members
      · exact h.groups y (List.mem_of_mem_filter listed)
    have left := closed.onThreads (s.enrolledIds e) (f := Thread.leaveJoin e.eid) fun _ => rfl
    exact ⟨left.threads, left.groups⟩

theorem settleJoins : s.settleJoins.Gone u := .foldl (fun _ e gone => gone.settleJoin e) h _

theorem settleSeal (team pack : Nat) : (s.settleSeal team pack).Gone u := by
  refine .ite h ?_
  dsimp only
  split
  · exact h
  · next g rest parts =>
    refine .ite ⟨h.threads, fun x mem => ?_⟩ (.foldl (fun m g gone => gone.takeStop g _ _ _) h _)
    obtain other | own := List.mem_append.mp mem
    · obtain ⟨y, listed, rfl⟩ := List.mem_map.mp (List.mem_of_mem_filter other)
      exact fun member => h.groups y listed (List.mem_of_mem_filter member)
    · rw [List.mem_singleton.mp own, Group.past_members]
      exact h.not_mem_names fun t mem => List.mem_of_mem_filter ((mem_sortBy _).mp mem)

theorem settleSeals : s.settleSeals.Gone u := .foldl (fun _ k gone => gone.settleSeal k.1 k.2) h _

/-! ### Barriers and lent slots (R119, R177, R377) -/

/-- Threads that leave a barrier keep their names. -/
theorem mapThreads {f : Thread → Thread} (keeps : ∀ t, (f t).uid = t.uid) : State.Gone { s with threads := s.threads.map f } u where
  threads t mem := by
    obtain ⟨x, listed, rfl⟩ := List.mem_map.mp mem
    exact keeps x ▸ h.threads x listed
  groups := h.groups

theorem departTbar (team : Nat) : (s.departTbar team).Gone u := h.mapThreads (Thread.leaveTbar_uid team s.nextId)

theorem emptyL1 (core : Nat) : (s.emptyL1 core).Gone u := by
  have renewed : (s.refresh fun p => p.core == core).Gone u := .ite ⟨h.threads, h.groups⟩ h
  exact .ite renewed (.ite ⟨renewed.threads, renewed.groups⟩ ⟨renewed.threads, renewed.groups⟩)

theorem departCbar (cluster : Nat) : (s.departCbar cluster).Gone u :=
  .foldl (fun _ core gone => gone.emptyL1 core) (h.mapThreads (Thread.leaveCbar_uid (s.clusterTeams cluster) s.nextId)) _

theorem settleTbar (team : Nat) : (s.settleTbar team).Gone u := by
  unfold State.settleTbar
  split
  · exact h
  · exact .ite h (.ite (h.setReg _ _) (h.departTbar team))

theorem settleCbar (cluster : Nat) : (s.settleCbar cluster).Gone u := by
  rw [State.settleCbar_eq]
  exact .ite h (h.departCbar cluster)

theorem settleBarriers (team : Nat) : (s.settleBarriers team).Gone u := by
  unfold State.settleBarriers
  dsimp only
  split
  · exact (h.settleTbar team).settleCbar _
  · exact h.settleTbar team

theorem returnLent (team : Nat) : (s.returnLent team).Gone u := ⟨h.threads, h.groups⟩

theorem wentTo (of : State) (k : Opc) (o : Op) (g : Group) : (of.wentTo s k o g).Gone u := (h.liftRegs _ _).noteIssue k g _

end State.Gone

/-! ## The instruction (R242, R270, R360) -/

/-- What has exited is gone: joins, seals and barriers are judged without it. -/
theorem State.exitThreads_gone (s : State) {ids : List Nat} {u : Nat} (exits : u ∈ ids) : (s.exitThreads ids).Gone u := by
  refine .foldl (fun m t gone => (gone.returnLent t).settleBarriers t) (State.Gone.settleSeals (.settleJoins ⟨?_, ?_⟩)) _
  · rintro t mem rfl
    simpa [exits] using (List.mem_filter.mp mem).2
  · intro g mem
    obtain ⟨x, -, rfl⟩ := List.mem_map.mp (List.mem_of_mem_filter mem)
    simp [exits]

/-- A change of the groups of a name, where one group has it. -/
theorem State.onGroup_congr {s : State} {g : Group} (only : ∀ h ∈ s.groups, h.gid = g.gid → h = g) {f f' : Group → Group}
    (same : f g = f' g) : s.onGroup g.gid f = s.onGroup g.gid f' := by
  unfold State.onGroup
  congr 1
  refine List.map_congr_left fun h mem => ?_
  by_cases named : h.gid = g.gid
  · rw [only h mem named, same]
  · simp [named]

section
variable {o : Op} {s : State} {c : Cur} {g : Group} (ready : s.Ready .exit o c g)
include ready

/-- Each group under the name of the one that issues goes on at the header after its own place. -/
theorem exit_moves (nothing : s.deferredOf (s.uids g o) = []) (quiet : ∀ u ∈ s.uids g o, s.quiet u = true) :
    exec (.exit o) s = .next (s.wentTo ((s.onGroup g.gid fun h => h.atHeader (s.nextPc h)).exitThreads (s.uids g o)) .exit o g) := by
  refine State.issue_moved ready ?_
  dsimp only
  rw [← State.uids, nothing]
  exact if_pos (List.all_eq_true.mpr quiet)

/-- Where the group's name is its own, the executing threads are gone and the others stand at the next header. -/
theorem exit_ends (only : ∀ h ∈ s.groups, h.gid = g.gid → h = g) (nothing : s.deferredOf (s.uids g o) = [])
    (quiet : ∀ u ∈ s.uids g o, s.quiet u = true) : ∃ t, exec (.exit o) s = .next t ∧
      t = s.wentTo ((s.onGroup g.gid fun h => h.atHeader (g.pc + BitVec.ofNat 64 c.len)).exitThreads (s.uids g o)) .exit o g ∧
      ∀ u ∈ s.uids g o, t.thread? u = none ∧ ∀ h ∈ t.groups, u ∉ h.members := by
  refine ⟨_, exit_moves ready nothing quiet, ?_, fun u exits => ?_⟩
  · rw [State.onGroup_congr only (f' := fun h => h.atHeader (g.pc + BitVec.ofNat 64 c.len)) (by rw [State.nextPc_issuing ready.1])]
  · have gone := ((s.onGroup g.gid fun h => h.atHeader (s.nextPc h)).exitThreads_gone exits).wentTo s .exit o g
    exact ⟨gone.thread?_eq_none, gone.groups⟩

theorem exit_waits (nothing : s.deferredOf (s.uids g o) = []) (busy : ∃ u ∈ s.uids g o, s.quiet u = false) :
    exec (.exit o) s = .next { s with stalls := g.gid :: s.stalls } := by
  refine State.issue_stall ready ?_
  dsimp only
  rw [← State.uids, nothing]
  exact if_neg (by simpa using busy)

theorem exit_stops (waiting : s.deferredOf (s.uids g o) ≠ []) :
    exec (.exit o) s = .next (s.takeDeferred g (s.deferredOf (s.uids g o))) := by
  refine State.issue_stopped ready ?_
  dsimp only
  rw [← State.uids]
  split
  · next eq => rw [eq]
  · next nothing => exact absurd nothing waiting

end

/-! ## Two groups of one name -/

/-- `exit`, in every thread of its group. -/
def exitAll : Op :=
  { len := .base, g := 7, neg := false, func := 0, ty := .none, mod := 0, d := 0, a := 0, b := 0, c := 0, imm := 0, aux := 0, lit := 0 }

/-- A state in which the group of thread 1 issues `exit`, and the group of thread 4, at another address, has the same name. -/
def oneGroupTwice : State :=
  { State.reset with threads := [newThread 1 0 0 3 .birth 0 4 0 [] none, newThread 4 0 1 3 .birth 1 4 0 [] none]
                     groups := [placedGroup 2 1 false [] 0, { placedGroup 2 4 false [] 0 with pc := placedPc + 64 }]
                     cur := some ⟨0, 2, placedPc, 4⟩ }

theorem oneGroupTwice_ready : oneGroupTwice.Ready .exit exitAll ⟨0, 2, placedPc, 4⟩ (placedGroup 2 1 false [] 0) := by
  refine ⟨⟨rfl, rfl⟩, ?_⟩
  decide +kernel

theorem oneGroupTwice_quiet : oneGroupTwice.deferredOf (oneGroupTwice.uids (placedGroup 2 1 false [] 0) exitAll) = [] ∧
    ∀ u ∈ oneGroupTwice.uids (placedGroup 2 1 false [] 0) exitAll, oneGroupTwice.quiet u = true := by decide +kernel

/-- Where the groups stand that an outcome leaves. -/
def pcsOf : Host.Outcome State Fault Refusal → List DWord
  | .next s => s.groups.map (·.pc)
  | _ => []

end Sys2Proof.Machine

namespace Sys2Proof

open Machine

/-- Refutes O22: where two groups have one name, the statement puts the other group at the address after this one's `exit`, and `exit`
puts it after its own place (`exit_moves`). Where the name is the group's own, the clause holds (`exit_ends`), and so do the others. -/
theorem not_exitEndsThreads : ¬ Obligations.ExitEndsThreads := by
  unfold Obligations.ExitEndsThreads
  rintro ⟨ends, -⟩
  obtain ⟨nothing, quiet⟩ := oneGroupTwice_quiet
  obtain ⟨_, leaves, rfl, -⟩ := ends exitAll oneGroupTwice _ _ oneGroupTwice_ready nothing quiet
  have differs := congrArg pcsOf ((exit_moves oneGroupTwice_ready nothing quiet).symm.trans leaves)
  revert differs
  decide +kernel

end Sys2Proof

/-! Proofs about floating instructions (R251, R253, R257, R349 to R352), which settle O17. -/

namespace Sys2Proof.Machine

/-! ## Instructions that compute lane by lane (R337, R349) -/

theorem computes_of_compute {k : Opc} {i : Op → Instr} {f : Op → Thread → Thread}
    (runs : ∀ o s, exec (i o) s = s.compute k o (f o)) : Computes k i f :=
  fun o s _ _ ready => (runs o s).trans (State.compute_ready ready (f o))

/-- What a unary floating instruction leaves of a thread: one rounding of what `f` makes of A, or of each of its halves. -/
def Thread.rounded1 (o : Op) (f : FV → FV) (t : Thread) : Thread :=
  t.setReg o.d.toNat (halves1 o (fun a => (fmtOf o.ty).round o.rm false (f ((fmtOf o.ty).val a))) (t.reg o.a.toNat))

/-- The same of a binary one, of A and B. -/
def Thread.rounded2 (o : Op) (f : FV → FV → FV) (t : Thread) : Thread :=
  t.setReg o.d.toNat (halves2 o (fun a b => (fmtOf o.ty).round o.rm false (f ((fmtOf o.ty).val a) ((fmtOf o.ty).val b)))
    (t.reg o.a.toNat) (o.srcB32 t))

theorem computes_of_float1 {k : Opc} {i : Op → Instr} {f : Op → FV → FV} (runs : ∀ o s, exec (i o) s = float1 k o s (f o)) :
    Computes k i fun o => Thread.rounded1 o (f o) :=
  computes_of_compute runs

theorem computes_of_float2 {k : Opc} {i : Op → Instr} {f : Op → FV → FV → FV} (runs : ∀ o s, exec (i o) s = float2 k o s (f o)) :
    Computes k i fun o => Thread.rounded2 o (f o) :=
  computes_of_compute runs

/-! ## Floating instructions (R349 to R352) -/

theorem fadd_computes : Computes .fadd .fadd fun o => Thread.rounded2 o (FV.add o.rm) := computes_of_float2 fun _ _ => rfl
theorem fsub_computes : Computes .fsub .fsub fun o => Thread.rounded2 o fun a b => FV.add o.rm a b.negate :=
  computes_of_float2 fun _ _ => rfl
theorem fmul_computes : Computes .fmul .fmul fun o => Thread.rounded2 o FV.mul := computes_of_float2 fun _ _ => rfl
theorem fmin_computes : Computes .fmin .fmin fun o => Thread.rounded2 o FV.fmin := computes_of_float2 fun _ _ => rfl
theorem fmax_computes : Computes .fmax .fmax fun o => Thread.rounded2 o FV.fmax := computes_of_float2 fun _ _ => rfl
theorem frcp_computes : Computes .frcp .frcp fun o => Thread.rounded1 o fun a => FV.div (.fin false 1 0) a :=
  computes_of_float1 fun _ _ => rfl
theorem frsq_computes : Computes .frsq .frsq fun o => Thread.rounded1 o FV.rsqrt := computes_of_float1 fun _ _ => rfl
theorem fsqrt_computes : Computes .fsqrt .fsqrt fun o => Thread.rounded1 o FV.sqrt := computes_of_float1 fun _ _ => rfl
theorem fex2_computes : Computes .fex2 .fex2 fun o => Thread.rounded1 o FV.exp2 := computes_of_float1 fun _ _ => rfl
theorem flg2_computes : Computes .flg2 .flg2 fun o => Thread.rounded1 o FV.log2 := computes_of_float1 fun _ _ => rfl
theorem frnd_computes : Computes .frnd .frnd fun o => Thread.rounded1 o (FV.integral o.rm) := computes_of_float1 fun _ _ => rfl

end Sys2Proof.Machine

namespace Sys2Proof

open Machine

/-- Settles O17: each instruction computes lane by lane, as `float1`, `float2` or its own reading of R349 to R352 says. -/
theorem floatInstructions : Obligations.FloatInstructions :=
  ⟨⟨fadd_computes, fsub_computes, fmul_computes, computes_of_compute fun _ _ => rfl, fmin_computes, fmax_computes, frcp_computes,
    frsq_computes, fsqrt_computes, fex2_computes, flg2_computes, frnd_computes⟩,
   computes_of_compute fun _ _ => rfl, computes_of_compute fun _ _ => rfl, computes_of_compute fun _ _ => rfl⟩

end Sys2Proof

/-! Proofs about `add` as numbers of its type (R254, R337), which settle O16. -/

namespace Sys2Proof.Machine

/-! ## What an issue leaves beside its own effect (R32, R139, R453) -/

/-- The same threads, and the same byte at every place. -/
structure SameData (s e : State) : Prop where
  threads : e.threads = s.threads
  memory : SameMemory s e

namespace SameData

theorem refl (s : State) : SameData s s := ⟨rfl, sameMemory_refl s⟩

theorem trans {s m e : State} (h : SameData s m) (k : SameData m e) : SameData s e :=
  ⟨k.threads.trans h.threads, h.memory.trans k.memory⟩

theorem ite {s t e : State} {c : Prop} [Decidable c] (h : SameData s t) (k : SameData s e) : SameData s (if c then t else e) := by
  split
  · exact h
  · exact k

theorem foldl {α : Type} {f : State → α → State} (h : ∀ m x, SameData m (f m x)) (s : State) (l : List α) :
    SameData s (l.foldl f s) :=
  List.foldlRecOn l f (.refl s) fun m same x _ => same.trans (h m x)

theorem lift (s : State) (p : PAddr) (n : Nat) : SameData s (s.lift p n) := .ite (.refl s) ⟨rfl, fun _ => rfl⟩

theorem liftRegs (s : State) (us : List RegUse) (xs : List Thread) : SameData s (s.liftRegs us xs) :=
  .ite (.refl s) (.foldl (fun m t => .foldl (fun m u => .lift m (t.regCells u).1 (t.regCells u).2) m us) s xs)

theorem onGroup (s : State) (gid : Nat) (f : Group → Group) : SameData s (s.onGroup gid f) := ⟨rfl, fun _ => rfl⟩

theorem bumpPerf (s : State) (core n k : Nat) : SameData s (s.bumpPerf core n k) := .ite (.refl s) ⟨rfl, fun _ => rfl⟩

theorem noteIssue (s : State) (k : Opc) (g : Group) (n : Nat) : SameData s (s.noteIssue k g n) := by
  have spent : SameData s { s with spent := (g.core, k.vector) :: s.spent } := ⟨rfl, fun _ => rfl⟩
  have counted := ((spent.trans (.onGroup _ g.gid fun g => { g with ready := s.clock, aged := false })).trans
    (.bumpPerf _ g.core (if k.vector then 1 else 2) 1)).trans (.bumpPerf _ g.core 3 n)
  exact .ite (counted.trans ⟨rfl, fun _ => rfl⟩) counted

/-- An instruction that is past leaves the threads and the memory that its own effect has made. -/
theorem wentOn (s e : State) (k : Opc) (o : Op) (c : Cur) (g : Group) : SameData e (s.wentOn e k o c g) :=
  ((liftRegs e _ _).trans (.onGroup _ g.gid fun h => h.past c.len k.long)).trans (.noteIssue ..)

end SameData

/-! ## Registers that are written (R254) -/

section
variable (t : Thread) {j k : Nat}

theorem Thread.reg_setReg_self (v : Word) (fits : k < t.regs.length) : (t.setReg k v).reg k = v := by
  simp [Thread.reg, Thread.setReg, fits]

theorem Thread.reg_setReg_other (v : Word) (other : j ≠ k) : (t.setReg k v).reg j = t.reg j := by
  simp [Thread.reg, Thread.setReg, List.getD, other.symm]

theorem Thread.pair_setPair (v : DWord) (fits : k + 2 ≤ t.regs.length) : (t.setPair k v).pair k = v := by
  have low : (t.setPair k v).reg k = v.extractLsb' 0 32 :=
    (Thread.reg_setReg_other _ _ (by omega)).trans (t.reg_setReg_self _ (by omega))
  have high : (t.setPair k v).reg (k + 1) = v.extractLsb' 32 32 :=
    Thread.reg_setReg_self _ _ (by simpa [Thread.setReg] using Nat.lt_of_succ_le fits)
  rw [Thread.pair, low, high, BitVec.extractLsb'_append_extractLsb'_eq_extractLsb' (by rfl)]
  exact BitVec.extractLsb'_eq_self

theorem Thread.reg_setPair_other (v : DWord) (other : j < k ∨ k + 2 ≤ j) : (t.setPair k v).reg j = t.reg j :=
  (Thread.reg_setReg_other _ _ (by omega)).trans (t.reg_setReg_other _ (by omega))

end

section
variable (t : Thread) (ty : Ty) (r : BitVec 9) (v : DWord)

theorem Thread.reg_dst_other {j : Nat} (other : j < r.toNat ∨ r.toNat + tyRegs ty ≤ j) : (t.dst ty r v).reg j = t.reg j := by
  unfold Thread.dst
  unfold tyRegs at other
  split_ifs at other ⊢
  · exact t.reg_setPair_other v other
  · exact t.reg_setReg_other _ (by omega)

@[simp] theorem Thread.preds_dst : (t.dst ty r v).preds = t.preds := by
  unfold Thread.dst
  split <;> rfl

/-- A type reads from a register what it reads from the value that was cut to the register's 32 bits. -/
theorem tyVal_setWidth {ty : Ty} (single : ty.isPair = false) : tyVal ty ((v.setWidth 32).setWidth 64) = tyVal ty v := by
  have narrow : ty.bits ≤ 32 := by revert single; cases ty <;> decide
  have dvd : (2 : Int) ^ ty.bits ∣ 2 ^ 32 := pow_dvd_pow 2 narrow
  refine eq_of_bounds_of_emod (tyVal_bounds ..) (tyVal_bounds ..) ?_
  rw [tyVal_emod, tyVal_emod]
  have cut : (((v.setWidth 32).setWidth 64).toNat : Int) = v.toNat % 2 ^ 32 := by simp; omega
  rw [cut, Int.emod_emod_of_dvd _ dvd]

/-- D reads back as the number that was written. -/
theorem Thread.tyVal_src_dst (fits : r.toNat + tyRegs ty ≤ t.regs.length) : tyVal ty ((t.dst ty r v).src ty r) = tyVal ty v := by
  unfold Thread.src Thread.dst
  unfold tyRegs at fits
  split_ifs at fits ⊢ with pair
  · rw [t.pair_setPair v fits]
  · rw [t.reg_setReg_self _ fits, tyVal_setWidth v (Bool.eq_false_iff.mpr pair)]

end

/-! ## Results that wrap or saturate (R337) -/

theorem satTo_eq (ty : Ty) (n : Int) : satTo ty n = max (tyMin ty) (min (tyMax ty) n) := by
  have limits := tyVal_bounds ty 0
  unfold satTo
  omega

theorem tyVal_tyWrite_sat (ty : Ty) (n : Int) : tyVal ty (tyWrite ty true n) = satTo ty n := by
  have limits := tyVal_bounds ty 0
  exact tyVal_tyWrite (t := ty) (r := satTo ty n) (by unfold satTo; omega)

theorem tyVal_tyWrite_wraps (ty : Ty) (n : Int) : ∃ q : Int, tyVal ty (tyWrite ty false n) = n + q * 2 ^ ty.bits := by
  obtain ⟨q, eq⟩ := Int.ModEq.dvd (Eq.symm (tyVal_tyWrite_emod ty n) : n ≡ tyVal ty (tyWrite ty false n) [ZMOD 2 ^ ty.bits])
  exact ⟨q, by linarith⟩

/-! ## `add` (R338) -/

/-- What `add` leaves of a thread. -/
def Thread.added (o : Op) (t : Thread) : Thread := t.dst o.ty o.d (tyWrite o.ty o.sat (opA o t + opB o t))

theorem add_computes : Computes .add .add Thread.added := computes_of_compute fun _ _ => rfl

theorem Thread.tyVal_added (o : Op) (t : Thread) (fits : o.d.toNat + tyRegs o.ty ≤ t.regs.length) :
    tyVal o.ty ((t.added o).src o.ty o.d) = tyVal o.ty (tyWrite o.ty o.sat (opA o t + opB o t)) :=
  t.tyVal_src_dst _ _ _ fits

end Sys2Proof.Machine

namespace Sys2Proof

open Machine

/-- Settles O16: `Thread.tyVal_added` with the readings of a wrapped and a saturated result, and the frame of `Thread.dst`. -/
theorem addWrapsOrSaturates : Obligations.AddWrapsOrSaturates := by
  intro o s c g u x ready _ found fits
  have left : (s.wentOn (s.onThreads (s.uids g o) (Thread.added o)) .add o c g).thread? u =
      some (if (s.uids g o).contains u then x.added o else x) := by
    rw [State.thread?, (SameData.wentOn ..).threads]
    exact (s.thread?_onThreads _ (fun t => t.uid_dst ..) u).trans (congrArg _ found)
  refine ⟨_, _, add_computes o s c g ready, left, ?_⟩
  by_cases executes : u ∈ s.uids g o
  · rw [if_pos (by simpa using executes)]
    refine ⟨fun _ => ⟨fun sat => ?_, fun wraps => ?_, tyVal_bounds ..⟩, fun r other => x.reg_dst_other _ _ _ ?_, x.preds_dst ..⟩
    · rw [x.tyVal_added o fits, sat, tyVal_tyWrite_sat, satTo_eq]
    · rw [x.tyVal_added o fits, wraps]
      exact tyVal_tyWrite_wraps ..
    · exact other.resolve_left (not_not_intro executes)
  · rw [if_neg (by simpa using executes)]
    exact ⟨fun member => absurd member executes, fun _ _ => rfl, rfl⟩

end Sys2Proof

/-! Proofs about loads and stores of team and die memory (R166 to R168, R188, R234, R237, R254, R370), which settle O29. -/

namespace Sys2Proof.Machine

/-! ## Bytes that are written (R2) -/

theorem length_bytesOfNat (x n : Nat) : (bytesOfNat x n).length = n := by
  induction n generalizing x with
  | zero => rfl
  | succ n ih => rw [bytesOfNat, List.length_cons, ih]

theorem getElem_bytesOfNat (x : Nat) {n i : Nat} (h : i < (bytesOfNat x n).length) :
    (bytesOfNat x n)[i] = BitVec.ofNat 8 (x / 256 ^ i) := by
  induction n generalizing x i with
  | zero => exact absurd h (Nat.not_lt_zero i)
  | succ n ih =>
    cases i with
    | zero => simp [bytesOfNat]
    | succ i => simp [bytesOfNat, ih, pow_succ', Nat.div_div_eq_div_mul]

/-- Every store of bytes of a well-formed state is in its canonical form. -/
theorem State.MemWf.cells {s : State} (h : s.MemWf) (sp : Space) : Mem.wf (s.cells sp) = true := by
  obtain ⟨pkg, pod, host, die0, die1, team, opbuf, -⟩ := h
  have listed {t : Tab Mem} (wf : ∀ e ∈ t, Mem.wf e.2 = true) (k : Nat) : Mem.wf (Tab.get [] k t) = true := by
    rw [Tab.get_eq_find]
    cases found : Tab.find k t with
    | none => rfl
    | some m => exact wf _ (Tab.mem_of_find found)
  cases sp with
  | pkg => exact pkg
  | pod => exact pod
  | host => exact host
  | die k => exact iteInduction (motive := fun m => Mem.wf m = true) (fun _ => die0) fun _ => die1
  | team k => exact listed team k
  | opbuf k => exact listed opbuf k
  | _ => rfl

/-- The memory of a team or of a die, of which a package has two. -/
def LocalSpace : Space → Prop
  | .team _ => True
  | .die k => k < 2
  | _ => False

theorem LocalSpace.hasBytes {sp : Space} (h : LocalSpace sp) : sp.hasBytes = true := by
  cases sp with
  | team | die => rfl
  | _ => exact h.elim

section
variable (s : State) {p q : PAddr} (bs : List Byte)

theorem State.byteAt_putBytes_in (wf : s.MemWf) (hasBytes : p.space.hasBytes = true) {i : Nat} (h : i < bs.length) :
    (s.putBytes p bs).byteAt (p.plus i) = bs[i] := by
  rw [State.putBytes, (SameData.lift ..).memory]
  change Mem.get (p.addr + i) (State.cells _ p.space) = _
  rw [State.cells_setCells_self _ _ _ hasBytes, Mem.get_setBytes_in _ _ (wf.cells _) h]

theorem State.byteAt_putBytes_out (isLocal : LocalSpace p.space) (two : ∀ d, q.space = .die d → d < 2) (out : ¬inRange p bs.length q) :
    (s.putBytes p bs).byteAt q = s.byteAt q := by
  rw [State.putBytes, (SameData.lift ..).memory, State.byteAt, State.byteAt]
  by_cases same : q.space = p.space
  · have outside : q.addr < p.addr ∨ p.addr + bs.length ≤ q.addr := by
      by_contra inside
      exact out ⟨same, by omega, by omega⟩
    rw [same, State.cells_setCells_self _ _ _ isLocal.hasBytes, Mem.get_setBytes_out _ _ _ outside]
  · rw [State.cells_setCells_other s _ _ _ same two fun d eq => by simpa [eq, LocalSpace] using isLocal]

end

/-! ## A write by a thread (R187, R188, R246) -/

theorem sameMemory_emptyL1 (s : State) (core : Nat) : SameMemory s (s.emptyL1 core) := by
  refine (sameMemory_refresh s _).trans (.ite (sameMemory_refl _) ?_)
  exact SameMemory.trans (fun _ => rfl) (sameMemory_liftL1 _ core)

theorem sameMemory_onThreads (s : State) (ids : List Nat) (f : Thread → Thread) : SameMemory s (s.onThreads ids f) := fun _ => rfl

theorem sameMemory_emptyOpt (s : State) (core : Option Nat) : SameMemory s (s.emptyOpt core) := by
  cases core with
  | none => exact sameMemory_refl s
  | some core => exact sameMemory_emptyL1 s core

/-- The waits that complete change threads and what L1 holds, and no memory. -/
theorem sameMemory_settleTxb (s : State) : SameMemory s s.settleTxb := by
  refine .ite (sameMemory_refl s) ?_
  refine List.foldlRecOn _ _ (motive := SameMemory s) (fun _ => rfl) fun m same l _ => same.trans ?_
  cases l with
  | txbWait u f p k => exact SameMemory.trans (sameMemory_onThreads m _ _) (sameMemory_emptyOpt (m.unhold u f) _)
  | _ => exact sameMemory_refl m

theorem State.noteOld_eq (s : State) (p : PAddr) (n : Nat) (writer : Option Nat) :
    ∃ olds, s.noteOld p n writer = { s with oldWords := olds } := by
  unfold State.noteOld
  dsimp only
  split
  · exact ⟨s.oldWords, rfl⟩
  · exact ⟨_, rfl⟩

theorem sameMemory_noteOld (s : State) (p : PAddr) (n : Nat) (writer : Option Nat) : SameMemory s (s.noteOld p n writer) := by
  obtain ⟨_, noted⟩ := s.noteOld_eq p n writer
  rw [noted]
  exact fun _ => rfl

theorem State.MemWf.noteOld {s : State} (h : s.MemWf) (p : PAddr) (n : Nat) (writer : Option Nat) : (s.noteOld p n writer).MemWf := by
  obtain ⟨_, noted⟩ := s.noteOld_eq p n writer
  rw [noted]
  exact h

section
variable (s : State) (uid : Nat) {p q : PAddr} (bs : List Byte) (isLocal : LocalSpace p.space)
include isLocal

theorem State.byteAt_threadWrite_in (wf : s.MemWf) {i : Nat} (h : i < bs.length) :
    (s.threadWrite uid p bs).byteAt (p.plus i) = bs[i] :=
  (sameMemory_settleTxb _ _).trans (State.byteAt_putBytes_in _ _ (wf.noteOld ..) isLocal.hasBytes h)

theorem State.byteAt_threadWrite_out (two : ∀ d, q.space = .die d → d < 2) (out : ¬inRange p bs.length q) :
    (s.threadWrite uid p bs).byteAt q = s.byteAt q :=
  calc (s.threadWrite uid p bs).byteAt q
    _ = ((s.noteOld p bs.length (some uid)).putBytes p bs).byteAt q := sameMemory_settleTxb _ q
    _ = (s.noteOld p bs.length (some uid)).byteAt q := State.byteAt_putBytes_out _ _ isLocal two out
    _ = s.byteAt q := sameMemory_noteOld s p bs.length (some uid) q

end

/-! ## Places (R167, R168) -/

/-- The place of an access of team memory, by its own address (R367). -/
def State.teamAccess (s : State) (o : Op) (_ : Group) (t : Thread) : Except Cls PAddr := s.teamPlace t (o.laddr t) o.size o.size

/-- The place of an access of die memory. -/
def State.dieAccess (s : State) (o : Op) (g : Group) (t : Thread) : Except Cls PAddr :=
  s.diePlace g.ctx g.core (o.laddr t) o.size o.size

theorem teamPlace_isLocal {s : State} {t : Thread} {va : Word} {n align : Nat} {p : PAddr} (h : s.teamPlace t va n align = .ok p) :
    LocalSpace p.space := by
  unfold State.teamPlace at h
  dsimp only at h
  split at h
  · cases h
  split at h
  · cases h
  split at h
  · cases h
  split at h
  · cases h
  · cases h
    trivial

theorem diePlace_isLocal {s : State} {ctx core : Nat} {va : Word} {n align : Nat} {p : PAddr} (small : core < 256)
    (h : s.diePlace ctx core va n align = .ok p) : LocalSpace p.space := by
  unfold State.diePlace at h
  dsimp only at h
  split_ifs at h
  cases h
  exact Nat.div_lt_of_lt_mul small

/-! ## Accesses of team and die memory (R166, R237, R370) -/

theorem accessFaults_nil {α : Type} {xs : List Thread} (addr : Thread → DWord) {chk : Thread → Except Cls α}
    (h : ∀ t ∈ xs, ∃ x, chk t = .ok x) : accessFaults xs addr chk = [] := by
  refine faultsOf_nil fun t mem => ?_
  obtain ⟨x, passes⟩ := h t mem
  rw [passes]

section
variable {k : Opc} {o : Op} {s : State} {c : Cur} {g : Group} {place : Group → Thread → Except Cls PAddr}

/-- A thread that has read a number at a moment (R254, R370). -/
def Thread.took (o : Op) (v now : Nat) (t : Thread) : Thread :=
  { t.dst o.ty o.d (tyWrite o.ty false (tyVal o.ty (BitVec.ofNat 64 v))) with
      accessed := now, seen := if o.order.acquires then now else t.seen }

/-- The checks of a local load: its place, then poison there (R32). -/
def State.localCheck (s : State) (o : Op) (place : Thread → Except Cls PAddr) (x : Thread) : Except Cls PAddr :=
  match place x with
  | .error e => .error e
  | .ok p => if s.poisoned p o.size then .error .eccFatal else .ok p

/-- What a local load leaves of a thread. -/
def State.localRead (s : State) (o : Op) (place : Thread → Except Cls PAddr) (x : Thread) : Thread :=
  match place x with
  | .error _ => x
  | .ok p => if s.poisoned p o.size then x else x.took o (s.localValue x p o.size) s.nextId

theorem State.localRead_eq (s : State) (o : Op) (place : Thread → Except Cls PAddr) : s.localRead o place = fun x =>
    match s.localCheck o place x with
    | .ok p => x.took o (s.localValue x p o.size) s.nextId
    | .error _ => x := by
  funext x
  unfold State.localRead State.localCheck
  cases place x with
  | error e => rfl
  | ok p => cases h : s.poisoned p o.size <;> simp [h]

theorem localLoad_reads (ready : s.Ready k o c g) (free : s.mustWait o (s.executing g o) = false)
    (entered : ∀ t ∈ s.executing g o, s.holdsBack t.uid false = false)
    (sound : ∀ t ∈ s.executing g o, ∃ p, place g t = .ok p ∧ s.poisoned p o.size = false) :
    let e := s.onThreads (s.uids g o) (s.localRead o (place g))
    localLoad k o s place = .next (s.wentOn (if o.empties && !(s.executing g o).isEmpty then e.emptyL1 g.core else e) k o c g) := by
  refine State.issue_done ready ((if_neg (by simpa [free] using entered)).trans ?_)
  dsimp only
  rw [accessFaults_nil]
  · rw [State.localRead_eq]
    rfl
  · intro t mem
    obtain ⟨p, placed, clean⟩ := sound t mem
    exact ⟨p, by simp [placed, clean]⟩

/-- The stores write in position order, each on what the one before it left. -/
def State.storeEach (s : State) (o : Op) (p : Thread → PAddr) (xs : List Thread) : State :=
  xs.foldl (fun e x => e.threadWrite x.uid (p x) (bytesOfNat (o.srcB x o.ty).toNat o.size)) s

/-- What the stores make of the state: their bytes, and in each thread the moment of its access. -/
def State.localStored (s : State) (o : Op) (g : Group) (p : Thread → PAddr) : State :=
  (s.storeEach o p (s.executing g o)).onThreads (s.uids g o) fun x => { x with accessed := s.nextId }

theorem localStore_writes {p : Thread → PAddr} (ready : s.Ready k o c g) (free : s.mustWait o (s.executing g o) = false)
    (entered : ∀ t ∈ s.executing g o, s.holdsBack t.uid true = false) (placed : ∀ t ∈ s.executing g o, place g t = .ok (p t)) :
    localStore k o s place = .next (s.wentOn (s.localStored o g p) k o c g) := by
  refine State.issue_done ready ((if_neg (by simpa [free] using entered)).trans ?_)
  dsimp only
  rw [accessFaults_nil _ fun t mem => ⟨_, placed t mem⟩]
  dsimp only
  rw [List.foldl_ext _ _ _ fun m t mem => by rw [placed t mem]]
  rfl

theorem State.byteAt_storeEach_out {p : Thread → PAddr} {q : PAddr} {xs : List Thread} (isLocal : ∀ x ∈ xs, LocalSpace (p x).space)
    (two : ∀ d, q.space = .die d → d < 2) (out : ∀ x ∈ xs, ¬inRange (p x) o.size q) : (s.storeEach o p xs).byteAt q = s.byteAt q :=
  List.foldlRecOn (motive := fun m : State => m.byteAt q = s.byteAt q) xs _ rfl fun m same x mem =>
    (State.byteAt_threadWrite_out m x.uid _ (isLocal x mem) two (by simpa [length_bytesOfNat] using out x mem)).trans same

theorem State.byteAt_storeEach_single {p : Thread → PAddr} {x : Thread} (isLocal : LocalSpace (p x).space) (wf : s.MemWf) {j : Nat}
    (h : j < o.size) :
    (s.storeEach o p [x]).byteAt ((p x).plus j) = BitVec.ofNat 8 ((o.srcB x o.ty).toNat / 256 ^ j) :=
  (State.byteAt_threadWrite_in s x.uid _ isLocal wf (by simpa [length_bytesOfNat] using h)).trans (getElem_bytesOfNat _ _)

theorem localStore_leaves {p : Thread → PAddr} (isLocal : ∀ t ∈ s.executing g o, LocalSpace (p t).space) (ready : s.Ready k o c g)
    (free : s.mustWait o (s.executing g o) = false) (entered : ∀ t ∈ s.executing g o, s.holdsBack t.uid true = false) (wf : s.MemWf)
    (placed : ∀ t ∈ s.executing g o, place g t = .ok (p t)) :
    ∃ t, localStore k o s place = .next t ∧
      t = s.wentOn (s.localStored o g p) k o c g ∧
      (∀ q : PAddr, (∀ d, q.space = .die d → d < 2) → (∀ x ∈ s.executing g o, ¬inRange (p x) o.size q) →
        t.byteAt q = s.byteAt q) ∧
      (∀ x, s.executing g o = [x] → ∀ j < o.size,
        t.byteAt ((p x).plus j) = BitVec.ofNat 8 ((o.srcB x o.ty).toNat / 256 ^ j)) := by
  have memory : SameMemory (s.storeEach o p (s.executing g o)) (s.wentOn (s.localStored o g p) k o c g) :=
    SameMemory.trans (sameMemory_onThreads _ _ _) (SameData.wentOn ..).memory
  refine ⟨_, localStore_writes ready free entered placed, rfl, fun q two out => ?_, fun x alone j h => ?_⟩
  · exact (memory q).trans (State.byteAt_storeEach_out isLocal two out)
  · refine (memory _).trans ?_
    rw [alone] at isLocal ⊢
    exact State.byteAt_storeEach_single (isLocal x (List.mem_singleton.mpr rfl)) wf h

/-- A local access whose threads have to wait does not issue. -/
theorem localLoad_waits (ready : s.Ready k o c g)
    (held : s.mustWait o (s.executing g o) = true ∨ ∃ t ∈ s.executing g o, s.holdsBack t.uid false = true) :
    localLoad k o s place = .next { s with stalls := g.gid :: s.stalls } :=
  State.issue_stall ready (if_pos (by simpa using held))

theorem localStore_waits (ready : s.Ready k o c g)
    (held : s.mustWait o (s.executing g o) = true ∨ ∃ t ∈ s.executing g o, s.holdsBack t.uid true = true) :
    localStore k o s place = .next { s with stalls := g.gid :: s.stalls } :=
  State.issue_stall ready (if_pos (by simpa using held))

end

end Sys2Proof.Machine

namespace Sys2Proof

open Machine

/-- Settles O29: each instruction is `localLoad` or `localStore` at its own place, and a place is of a team's or a die's memory. -/
theorem localLoadsAndStores : Obligations.LocalLoadsAndStores := by
  refine ⟨⟨fun _ _ _ _ => localLoad_waits, fun _ _ _ _ => localLoad_waits, fun _ _ _ _ => localStore_waits,
    fun _ _ _ _ => localStore_waits⟩, fun o s c g => ?_, fun o s c g => ?_,
    fun o s c g p ready free entered wf _ placed => ?_, fun o s c g p ready free entered wf small placed => ?_⟩
  · exact localLoad_reads (place := s.teamAccess o)
  · exact localLoad_reads (place := s.dieAccess o)
  · exact localStore_leaves (place := s.teamAccess o) (fun t mem => teamPlace_isLocal (placed t mem)) ready free entered wf placed
  · exact localStore_leaves (place := s.dieAccess o) (fun t mem => diePlace_isLocal small (placed t mem)) ready free entered wf placed

end Sys2Proof

/-! Proofs about what taking a stop leaves (R269, R272 to R274, R281), which settle O10. -/

namespace Sys2Proof.Machine

/-! ## A sorted list -/

theorem insertBy_eq_orderedInsert {α : Type} (le : α → α → Bool) (x : α) (l : List α) :
    insertBy le x l = l.orderedInsert (fun a b => le a b = true) x := by
  induction l with
  | nil => rfl
  | cons y l ih => simp only [insertBy, List.orderedInsert, ih]

theorem sortBy_eq_insertionSort {α : Type} (le : α → α → Bool) (l : List α) :
    sortBy le l = l.insertionSort (fun a b => le a b = true) := by
  induction l with
  | nil => rfl
  | cons x l ih => rw [List.insertionSort_cons, ← ih, ← insertBy_eq_orderedInsert]; rfl

theorem nodup_sortBy {α : Type} (le : α → α → Bool) {l : List α} (distinct : l.Nodup) : (sortBy le l).Nodup := by
  rw [sortBy_eq_insertionSort]
  exact (List.perm_insertionSort _ l).nodup_iff.mpr distinct

/-- A sort by an order in which any two elements compare. -/
theorem pairwise_sortBy {α : Type} {le : α → α → Bool} (total : ∀ a b, le a b = true ∨ le b a = true)
    (trans : ∀ a b c, le a b = true → le b c = true → le a c = true) (l : List α) :
    (sortBy le l).Pairwise fun a b => le a b = true := by
  have : Std.Total fun a b => le a b = true := ⟨total⟩
  have : IsTrans α fun a b => le a b = true := ⟨trans⟩
  rw [sortBy_eq_insertionSort]
  exact List.pairwise_insertionSort _ l

/-! ## The order of the records (R272) -/

theorem keyLe_iff (a b : Nat × Nat × Cls) :
    keyLe a b = true ↔ a.1 < b.1 ∨ a.1 = b.1 ∧ (a.2.1 < b.2.1 ∨ a.2.1 = b.2.1 ∧ a.2.2.code ≤ b.2.2.code) := by
  simp [keyLe]

theorem keyLe_total (a b : Nat × Nat × Cls) : keyLe a b = true ∨ keyLe b a = true := by
  simp only [keyLe_iff]
  omega

theorem keyLe_trans (a b c : Nat × Nat × Cls) (ab : keyLe a b = true) (bc : keyLe b c = true) : keyLe a c = true := by
  rw [keyLe_iff] at *
  omega

/-- The pairs of class and page that a stop has records for, in their order. -/
def stopKeys (fs : List (Thread × Flt)) : List (Nat × Nat × Cls) := sortBy keyLe (dedup (fs.map fun x => x.2.key))

theorem nodup_stopKeys (fs : List (Thread × Flt)) : (stopKeys fs).Nodup := nodup_sortBy _ (nodup_dedup _)

theorem pairwise_stopKeys (fs : List (Thread × Flt)) : (stopKeys fs).Pairwise fun a b => keyLe a b = true :=
  pairwise_sortBy keyLe_total keyLe_trans _

theorem mem_stopKeys {fs : List (Thread × Flt)} {k : Nat × Nat × Cls} : k ∈ stopKeys fs ↔ ∃ x ∈ fs, x.2.key = k := by
  simp [stopKeys]

/-! ## What a stop adds and leaves -/

section
variable (s : State) (g : Group) (pc : DWord) (boundary : Bool) (fs : List (Thread × Flt))

/-- The records that a stop makes, one for each key. -/
def State.stopRecs : List FRec :=
  (stopKeys fs).zipIdx.map fun (k, i) =>
    groupRec s s.nextId (s.nextId + 1 + i) g pc (fs.filter fun x => x.2.key == k) k.2.2 (decide (i + 1 = (stopKeys fs).length))

@[simp] theorem State.length_stopRecs : (s.stopRecs g pc fs).length = (stopKeys fs).length := by
  simp [State.stopRecs]

theorem State.getElem_stopRecs {i : Nat} (h : i < (stopKeys fs).length) (h' : i < (s.stopRecs g pc fs).length) :
    (s.stopRecs g pc fs)[i] = groupRec s s.nextId (s.nextId + 1 + i) g pc (fs.filter fun x => x.2.key == (stopKeys fs)[i])
      (stopKeys fs)[i].2.2 (decide (i + 1 = (stopKeys fs).length)) := by
  simp [State.stopRecs]

theorem State.mem_stopRecs {r : FRec} (mem : r ∈ s.stopRecs g pc fs) :
    r.stop = s.nextId ∧ r.ctx = g.ctx ∧ r.pc = pc ∧ r.core = g.core := by
  obtain ⟨_, _, rfl⟩ := List.mem_map.mp mem
  exact ⟨rfl, rfl, rfl, rfl⟩

/-- The record of a key has the code of its class and names the threads that fault so. -/
theorem State.stopRecs_of_stopKeys :
    List.Forall₂ (fun k (r : FRec) => r.code = k.2.2.code ∧ ∀ u, u ∈ r.named ↔ ∃ x ∈ fs, x.2.key = k ∧ x.1.uid = u)
      (stopKeys fs) (s.stopRecs g pc fs) := by
  refine List.forall₂_iff_get.mpr ⟨(s.length_stopRecs g pc fs).symm, fun i h h' => ?_⟩
  rw [List.get_eq_getElem, List.get_eq_getElem, s.getElem_stopRecs g pc fs h h']
  refine ⟨rfl, fun u => ?_⟩
  simp [groupRec, and_assoc]

theorem State.takeStop_records : (s.takeStop g pc boundary fs).records = s.records ++ s.stopRecs g pc fs := by
  unfold State.takeStop
  dsimp only
  split <;> rfl

theorem State.takeStop_groups : (s.takeStop g pc boundary fs).groups =
    s.groups.map fun h => if h.gid == g.gid then { h with wait := .fault s.nextId } else h := by
  unfold State.takeStop
  dsimp only
  split <;> rfl

theorem SameData.takeStop : SameData s (s.takeStop g pc boundary fs) := .ite ⟨rfl, fun _ => rfl⟩ ⟨rfl, fun _ => rfl⟩

theorem State.takeStop_ctxStopped : (s.takeStop g pc boundary fs).ctxStopped g.ctx =
    (s.ctxStopped g.ctx || fs.any fun x => x.2.cls.stopsContext) := by
  unfold State.takeStop
  dsimp only
  split
  next stops => rw [stops, Bool.or_true, State.stopContext_ctxStopped]
  next goes => rw [Bool.not_eq_true] at goes; rw [goes, Bool.or_false]; rfl

end

end Sys2Proof.Machine

namespace Sys2Proof

open Machine

/-- Settles O10: a stop adds `stopRecs`, one record for each of the `stopKeys`, and changes nothing else but the wait of its group
and STOPPED. -/
theorem stopIsExact : Obligations.StopIsExact := by
  intro s g pc b fs
  obtain ⟨threads, memory⟩ := SameData.takeStop s g pc b fs
  refine ⟨threads, memory, fun h mem other => ?_, fun h mem own => ?_,
    ⟨stopKeys fs, s.stopRecs g pc fs, s.takeStop_records g pc b fs, fun r => s.mem_stopRecs g pc fs, nodup_stopKeys fs,
      pairwise_stopKeys fs, fun k => mem_stopKeys, s.stopRecs_of_stopKeys g pc fs, fun i h => ?_⟩,
    fun _ => s.takeStop_ctxStopped g pc b fs⟩
  · rw [State.takeStop_groups]
    exact List.mem_map.mpr ⟨h, mem, if_neg (by simpa using other)⟩
  · rw [State.takeStop_groups]
    exact List.mem_map.mpr ⟨h, mem, if_pos (by simpa using own)⟩
  · simp only [s.getElem_stopRecs g pc fs (by simpa using h) h, groupRec, s.length_stopRecs]

end Sys2Proof

/-! Proofs about the decoding checks of an issue (R272), which settle O9. -/

namespace Sys2Proof.Machine

/-! ## Every instruction of the code is an issue -/

/-- `opres.fill` is an issue whose body waits while a thread has a `forge.rdy` incomplete (R417). -/
theorem execOpresFill_issues (o : Op) (s : State) : ∃ body, execOpresFill o s = s.issue .opresFill o body := by
  unfold execOpresFill
  split
  · split
    · exact ⟨_, rfl⟩
    · exact ⟨_, rfl⟩
  · exact ⟨_, rfl⟩

theorem exec_ofOpc_issues (k : Opc) (o : Op) (s : State) : ∃ body, exec (Instr.ofOpc k o) s = s.issue k o body := by
  cases k
  case opresFill => exact execOpresFill_issues o s
  all_goals exact ⟨_, rfl⟩

/-! ## The stops of the decoding checks -/

section
variable {s : State} {k : Opc} {o : Op} {c : Cur} {g : Group} (issuing : s.Issuing c g) (body : Group → List Thread → Body)
include issuing

theorem State.issue_breakHit (hit : s.breakHit g = true) :
    s.issue k o body = .next (s.stopped g (allTake (s.membersOf g) .brk)) := by
  obtain ⟨cur, group⟩ := issuing
  simp only [State.issue, cur, group, hit, if_true, State.stopped]

theorem State.issue_illegal (missed : s.breakHit g = false) (illegal : k.illegal o = true ∨ (k.transfer = true ∧ g.atEnd = false)) :
    s.issue k o body = .next (s.stopped g (allTake (s.membersOf g) .illegalOp)) := by
  obtain ⟨cur, group⟩ := issuing
  have refused : (k.illegal o || (k.transfer && !g.atEnd)) = true := by simpa using illegal
  simp only [State.issue, cur, group, missed, refused, Bool.false_eq_true, if_true, if_false, State.stopped]

theorem State.issue_beyond (missed : s.breakHit g = false) (legal : k.illegal o = false) (last : k.transfer = true → g.atEnd = true)
    (beyond : (s.membersOf g).any (fun t => k.beyond o t.n) = true) :
    s.issue k o body = .next (s.stopped g (mixedStop k ((s.membersOf g).filter fun t => k.beyond o t.n)
      (s.badReaders k o (s.executing g o)) (s.executing g o) (body g))) := by
  obtain ⟨cur, group⟩ := issuing
  have allowed : (k.illegal o || (k.transfer && !g.atEnd)) = false := by simpa [legal] using last
  simp only [State.issue, cur, group, missed, allowed, beyond, Bool.true_or, Bool.false_eq_true, if_true, if_false, State.stopped]

end

/-! ## What the stop at a register beyond the allocation holds -/

section
variable {k : Opc} {low bad xs : List Thread} {body : List Thread → Body} {f : Thread × Flt}

theorem mem_mixedStop_of_beyond (mem : f ∈ allTake low .regRange) : f ∈ mixedStop k low bad xs body :=
  List.mem_append_left _ (List.mem_append_left _ mem)

theorem mem_allTake_mono {ths ths' : List Thread} {cls : Cls} (sub : ths ⊆ ths') (mem : f ∈ allTake ths cls) : f ∈ allTake ths' cls :=
  List.map_subset _ sub mem

/-- The faults that a body stops its group for. -/
def Body.faults : Body → List (Thread × Flt)
  | .stop fs => fs
  | _ => []

theorem Body.mem_faults {b : Body} : f ∈ b.faults ↔ ∃ fs, b = .stop fs ∧ f ∈ fs := by
  cases b <;> simp [Body.faults]

/-- A fault of the stop is of a register beyond, of the body for the other threads, or of a poisoned register that one of those reads. -/
theorem mem_mixedStop (mem : f ∈ mixedStop k low bad xs body) :
    let rest := xs.filter fun t => !low.any fun u => u.uid == t.uid
    f ∈ allTake low .regRange ∨ (∃ fs, body rest = .stop fs ∧ f ∈ fs) ∨
      f ∈ allTake (rest.filter fun t => bad.any fun u => u.uid == t.uid) .eccFatal := by
  intro rest
  obtain early | poisoned := List.mem_append.mp mem
  · obtain beyond | own := List.mem_append.mp early
    · exact .inl beyond
    · obtain ⟨_, found⟩ := List.mem_ite_nil_left.mp (List.mem_of_mem_filter own)
      exact .inr (.inl (Body.mem_faults.mp found))
  · refine .inr (.inr (mem_allTake_mono (List.monotone_filter_right rest fun t isBad => ?_).subset poisoned))
    simp only [Bool.and_eq_true] at isBad
    exact isBad.1.1

end

end Sys2Proof.Machine

namespace Sys2Proof

open Machine

/-- Settles O9: the body of the instruction is that of `exec_ofOpc_issues`. -/
theorem decodingChecksInOrder : Obligations.DecodingChecksInOrder := by
  intro k o
  choose body issues using exec_ofOpc_issues k o
  refine ⟨body, issues, fun s c g issuing => ?_⟩
  rw [issues s]
  exact ⟨State.issue_breakHit issuing _, State.issue_illegal issuing _, fun missed legal last beyond =>
    ⟨State.issue_beyond issuing _ missed legal last beyond, fun f => mem_mixedStop_of_beyond, fun f => mem_mixedStop⟩⟩

end Sys2Proof

/-! Proofs that every step answers (R269), which settle O6. -/

namespace Sys2Proof.Machine

theorem Answers.next (t : State) : Answers (.next t) := ⟨t, rfl⟩

theorem Answers.ite {p : Prop} [Decidable p] {a b : Host.Outcome State Fault Refusal} (yes : Answers a) (no : Answers b) :
    Answers (if p then a else b) := by
  split
  · exact yes
  · exact no

/-- What every turn leaves behind stops nothing. -/
theorem Answers.finish {o : Host.Outcome State Fault Refusal} (answers : Answers o) (before : State) : Answers (before.finish o) := by
  obtain ⟨t, rfl⟩ := answers
  exact .next _

/-- An instruction of the code is that of its row and operands. -/
theorem Instr.ofOpc_of_opc? {i : Instr} {ko : Opc × Op} (coded : i.opc? = some ko) : Instr.ofOpc ko.1 ko.2 = i := by
  cases i <;> cases coded <;> rfl

/-! ## Events: the instructions that no code encodes -/

section
variable (s : State)

/-- An event but a register write takes the package to its next state, at once or by a choice of what it finds; none of its choices
leads elsewhere. -/
theorem exec_event_answers {i : Instr} (event : i.opc? = none) (direct : ∀ fn offset n v, i ≠ .registerWrite fn offset n v) :
    Answers (exec i s) := by
  cases i
  case registerWrite fn offset n v => exact absurd rfl (direct fn offset n v)
  case linkTrain | error | selfTestEnd | fwWriteSlot | flitReceive | launch | launchInd | fencePacket | signalStore | signalAdd
      | counterInit | counterAdd | windowInstall | windowInvalidate | marker | pageZero | launchAccept | queueErrorClear | fqbaseWrite
      | retry | skip | kill | tlbinvPages | tlbinvAll | stepGo | stepArmClear | lampHeadWrite | flueHeadWrite | atsInvalidation
      | powerOnReset | thermalTrip | fwRaiseMinimum | fwRestart | getVersion | getCapabilities | getDigests | getCertificate | challenge
      | getMeasurements | coreReport | parkTimeout =>
    exact .next _
  case thermalThrottle | powerCapStep | retest | negotiateAlgorithms | podmapWrite | portExchange | portRetrain | stageEnter
      | stageLeave | homeApply | replySplit | replyDelivery | burstDelivered | burstFailed | bankEvent | bytesLand | drainComplete
      | localCompletion | globalCompletion | copyRingFault | passBoundary | seamEntryComplete | lodeOperation | doorbell | fenceReread
      | completionActions | taskStart | clauseBegin | parkWake | fqRecordWrite | flueSample | apertureWrite | apertureRead
      | contextEnable | contextDisable | queueEnable | fqHeadWrite | diemapWrite | preemptReq | debugEnable | clauseHeader
      | shaftDieReply | flitAcknowledgement | fwCommandDone | fabricTimeout | emberBirth | forgeAgePromote | claimBatch | placeCluster
      | starved | sliceExpiry | preemptEnd | deadlineExpiry | teamEnd | priorityAge | binAgeRelease | overflowRelease
      | tlbInvalidateDone | unassignedEncoding =>
    dsimp only [exec, execThermalThrottle, execPowerCapStep, execRetest, execNegotiateAlgorithms, execPodmapWrite, execPortExchange,
      execPortRetrain, execStageEnter, execStageLeave, execHomeApply, execReplySplit, execReplyDelivery, execBurstDelivered,
      execBurstFailed, execBankEvent, execBytesLand, execDrainComplete, execLocalCompletion, execGlobalCompletion,
      execCopyRingFault, execPassBoundary, execSeamEntryComplete, execLodeOperation, execDoorbell, execFenceReread,
      execCompletionActions, execTaskStart, execClauseBegin, execParkWake, execFqRecordWrite, execFlueSample, execApertureWrite,
      execApertureRead, execContextEnable, execContextDisable, execQueueEnable, execFqHeadWrite, execDiemapWrite, execPreemptReq,
      execDebugEnable, execClauseHeader, execShaftDieReply, execFlitAcknowledgement, execFwCommandDone, execFabricTimeout,
      execEmberBirth, execForgeAgePromote, execClaimBatch, execPlaceCluster, execStarved, execSliceExpiry, execPreemptEnd,
      execDeadlineExpiry, execTeamEnd, execPriorityAge, execBinAgeRelease, execOverflowRelease, execTlbInvalidateDone,
      execUnassignedEncoding]
    repeat' split
    all_goals exact .next _
  all_goals cases event

/-! ## Register writes, block by block (R5) -/

theorem execContextEnable_answers (c : Nat) (v : BitVec 32) : Answers (execContextEnable c v s) :=
  exec_event_answers s (i := .contextEnable c v) rfl nofun

theorem execContextDisable_answers (c : Nat) : Answers (execContextDisable c s) :=
  exec_event_answers s (i := .contextDisable c) rfl nofun

theorem execFqHeadWrite_answers (c : Nat) (v : BitVec 32) : Answers (execFqHeadWrite c v s) :=
  exec_event_answers s (i := .fqHeadWrite c v) rfl nofun

theorem execDiemapWrite_answers (c stope : Nat) (v : BitVec 64) : Answers (execDiemapWrite c stope v s) :=
  exec_event_answers s (i := .diemapWrite c stope v) rfl nofun

theorem execQueueEnable_answers (c q : Nat) (v : BitVec 32) : Answers (execQueueEnable c q v s) :=
  exec_event_answers s (i := .queueEnable c q v) rfl nofun

theorem execPodmapWrite_answers (v : BitVec 32) : Answers (execPodmapWrite v s) :=
  exec_event_answers s (i := .podmapWrite v) rfl nofun

theorem execPreemptReq_answers (c : Nat) : Answers (execPreemptReq c s) :=
  exec_event_answers s (i := .preemptReq c) rfl nofun

theorem execRetest_answers (kind index : Nat) : Answers (execRetest kind index s) :=
  exec_event_answers s (i := .retest kind index) rfl nofun

theorem execDebugEnable_answers (v : BitVec 32) : Answers (execDebugEnable v s) :=
  exec_event_answers s (i := .debugEnable v) rfl nofun

theorem execDoorbell_answers (c q : Nat) (v : BitVec 32) : Answers (execDoorbell c q v s) :=
  exec_event_answers s (i := .doorbell c q v) rfl nofun

theorem State.writeCtx_answers (c r v : Nat) : Answers (s.writeCtx c r v) := by
  refine .ite (.ite (.ite (.next _) (execContextDisable_answers ..)) (.ite (execContextEnable_answers ..) (.next _))) <|
    .ite (.next _) <| .ite (.next _) <| .ite (.next _) <| .ite (.next _) <| .ite (execFqHeadWrite_answers ..) <| .ite ?act <|
    .ite (.next _) <| .ite (.next _) <| .ite (execDiemapWrite_answers ..) <| .ite (.next _) <| .ite (.next _) <|
    .ite (.ite (.next _) (.next _)) <| .ite (.next _) <| .ite (.next _) (.next _)
  case act =>
    split
    · exact .next _
    · exact .next _
    · exact .next _

theorem State.writeQueue_answers (c q r v : Nat) : Answers (s.writeQueue c q r v) :=
  .ite (.next _) <| .ite (.ite (execQueueEnable_answers ..) (.next _)) <| .ite (.ite (.next _) (.next _)) <| .ite (.next _) (.next _)

theorem State.writeShf_answers (r v : Nat) : Answers (s.writeShf r v) :=
  .ite (execPodmapWrite_answers ..) <| .ite (.next _) <| .ite (.next _) <| .ite (.next _) <| .ite (.next _) (.next _)

theorem State.writeOnsCtx_answers (c r v : Nat) : Answers (s.writeOnsCtx c r v) :=
  .ite (.next _) <| .ite (.next _) <| .ite (.ite (execPreemptReq_answers ..) (.next _)) (.next _)

theorem State.writeMgt_answers (r v : Nat) : Answers (s.writeMgt r v) := by
  refine .ite (.next _) <| .ite (.ite (execRetest_answers ..) (.next _)) <| .ite (.next _) <| .ite ?command (.next _)
  case command =>
    split
    · exact .next _
    · exact .next _
    · exact .next _
    · exact .next _

theorem State.writeDbgCtx_answers (c r v : Nat) : Answers (s.writeDbgCtx c r v) :=
  .ite (.next _) <| .ite (.next _) <| .ite (.next _) <| .ite (.next _) <| .ite (.next _) <| .ite (.next _) <| .ite (.next _) <|
    .ite (.next _) (.next _)

theorem State.writeStep_answers (n v : Nat) : Answers (s.writeStep n v) := .ite (.next _) (.next _)

theorem State.writeDbg_answers (r v : Nat) : Answers (s.writeDbg r v) :=
  .ite (execDebugEnable_answers ..) <| .ite (.next _) (.next _)

theorem State.writeBlock_answers (b : Block) (r v : Nat) : Answers (s.writeBlock b r v) := by
  cases b with
  | global => exact .ite (.next _) <| .ite (.next _) (.next _)
  | ctx c => exact s.writeCtx_answers c r v
  | queue c q => exact s.writeQueue_answers c q r v
  | shf => exact s.writeShf_answers r v
  | ons => exact .next _
  | onsCtx c => exact s.writeOnsCtx_answers c r v
  | onsCore n => exact .next _
  | mgt => exact s.writeMgt_answers r v
  | dbg => exact s.writeDbg_answers r v
  | dbgCtx c => exact s.writeDbgCtx_answers c r v
  | breakpoint n k => exact .next _
  | step n => exact s.writeStep_answers n v
  | doorbell c q => exact execDoorbell_answers s c q _
  | none => exact .next _

theorem execRegisterWrite_answers (fn offset bytes : Nat) (value : BitVec 64) : Answers (execRegisterWrite fn offset bytes value s) :=
  .ite (.next _) (s.writeBlock_answers ..)

/-! ## Every instruction -/

theorem exec_answers (i : Instr) : Answers (exec i s) := by
  cases coded : i.opc? with
  | some ko =>
    obtain ⟨body, issues⟩ := exec_ofOpc_issues ko.1 ko.2 s
    rw [← Instr.ofOpc_of_opc? coded, issues]
    exact s.issue_answers _ _ body
  | none =>
    by_cases direct : ∀ fn offset n v, i ≠ .registerWrite fn offset n v
    · exact exec_event_answers s coded direct
    · push Not at direct
      obtain ⟨fn, offset, n, v, rfl⟩ := direct
      exact execRegisterWrite_answers s fn offset n v

/-! ## Every turn -/

theorem State.atBoundary_answers (g : Group) : Answers (s.atBoundary g) := by
  unfold State.atBoundary
  split
  · exact .next _
  · refine .ite (.next _) ?_
    split
    · exact exec_answers ..
    · exact exec_answers ..

theorem State.inClause_answers (g : Group) : Answers (s.inClause g) := by
  unfold State.inClause
  dsimp only
  split
  · exact exec_answers ..
  · exact exec_answers ..
  · exact exec_answers ..

theorem State.issueGroup_answers (g : Group) : Answers (s.issueGroup g) := .ite (s.atBoundary_answers g) (s.inClause_answers g)

theorem State.parkTurn_answers : Answers s.parkTurn := .ite (.next _) (.next _)

theorem State.turn_answers (t : Turn) : Answers (s.turn t) := by
  unfold State.turn
  split
  · exact (State.parkTurn_answers _).finish s
  · exact .ite (.next _) ((exec_answers ..).finish s)
  · split
    · exact .ite ((State.issueGroup_answers ..).finish s) (.next _)
    · exact .next _
  · exact .next _
  · exact .next _

end

end Sys2Proof.Machine

namespace Sys2Proof

open Machine

/-- Settles O6: a step is a turn, which runs an instruction, lets time pass or lets the world outside act. -/
theorem everyStepAnswers : Obligations.EveryStepAnswers := by
  intro s
  unfold step
  split
  · exact State.turn_answers ..
  · exact State.turn_answers ..

end Sys2Proof

/-! Proofs about the code's words (R2, R302 to R309, R317, R363), which settle O1, O2 and O3. -/

namespace Sys2Proof

/-! ## Words by their numbers (R2) -/

theorem toNat_join {n m : Nat} (a : BitVec n) (b : BitVec m) : (a ++ b).toNat = a.toNat * 2 ^ m + b.toNat := by
  rw [BitVec.toNat_append, ← Nat.shiftLeft_add_eq_or_of_lt b.isLt, Nat.shiftLeft_eq]

section
variable {w : Word} {i n : Nat}

theorem toNat_field (w : Word) (i n : Nat) : (w.extractLsb' i n).toNat = w.toNat / 2 ^ i % 2 ^ n := by
  rw [BitVec.extractLsb'_toNat, Nat.shiftRight_eq_div_pow]

theorem field_eq {x : BitVec n} (h : w.toNat / 2 ^ i % 2 ^ n = x.toNat) : w.extractLsb' i n = x :=
  BitVec.eq_of_toNat_eq ((toNat_field w i n).trans h)

/-- A field of a base word, widened to the field that it stands for. -/
theorem wideField_eq {m : Nat} {x : BitVec m} (le : n ≤ m) (h : w.toNat / 2 ^ i % 2 ^ n = x.toNat) :
    (w.extractLsb' i n).setWidth m = x := by
  refine BitVec.eq_of_toNat_eq ?_
  rw [BitVec.toNat_setWidth_of_le le, toNat_field, h]

theorem toNat_flag (w : Word) (i : Nat) : (w.getLsbD i).toNat = w.toNat / 2 ^ i % 2 := Nat.toNat_testBit ..

theorem flag_eq {b : Bool} (h : w.toNat / 2 ^ i % 2 = b.toNat) : w.getLsbD i = b := by
  rw [← toNat_flag] at h
  cases b
  · exact Bool.toNat_eq_zero.mp h
  · exact Bool.toNat_eq_one.mp h

end

theorem wordOfBytes_bytesOfWord (w : Word) :
    wordOfBytes (w.extractLsb' 0 8) (w.extractLsb' 8 8) (w.extractLsb' 16 8) (w.extractLsb' 24 8) = w := by
  refine BitVec.eq_of_toNat_eq ?_
  unfold wordOfBytes
  rw [toNat_join, toNat_join, toNat_join]
  simp only [toNat_field]
  omega

theorem wordsOfBytes_flatMap (ws : List Word) (rest : List Byte) :
    wordsOfBytes (ws.flatMap bytesOfWord ++ rest) = ws ++ wordsOfBytes rest := by
  induction ws with
  | nil => rfl
  | cons w ws ih => simp [bytesOfWord, wordsOfBytes, wordOfBytes_bytesOfWord, ih]

theorem litOf_encodeLit (x : DWord) : litOf (x.extractLsb' 0 32) (x.extractLsb' 32 32) = x := by
  rw [litOf, BitVec.extractLsb'_append_extractLsb'_eq_extractLsb' (by rfl)]
  exact BitVec.extractLsb'_eq_self

theorem encodeLit_litOf {o : Op} {lo hi : Word} (lit : o.lit = litOf lo hi) : encodeLit o = [lo, hi] := by
  rw [encodeLit, lit, litOf, BitVec.extractLsb'_append_eq_right, BitVec.extractLsb'_append_eq_left]

/-! ## Lengths and types (R302, R307) -/

theorem Len.code_lt (l : Len) : l.code < 4 := by cases l <;> decide

theorem Len.ofCode_code (l : Len) : Len.ofCode l.code = l := by cases l <;> rfl

theorem Len.code_ofCode {n : Nat} (h : n < 4) : (Len.ofCode n).code = n := by
  match n with
  | 0 | 1 | 2 | 3 => rfl

theorem Ty.code_lt (t : Ty) : t.code < 17 := by cases t <;> decide

theorem Ty.ofCode_code (t : Ty) : Ty.ofCode t.code = some t := by cases t <;> rfl

theorem Ty.code_ofCode {n : Nat} {t : Ty} (h : Ty.ofCode n = some t) : t.code = n := by
  obtain ⟨lt, rfl⟩ := List.getElem?_eq_some_iff.mp h
  change n < 17 at lt
  interval_cases n <;> rfl

theorem wordLen_of_toNat {w : Word} {l : Len} (h : w.toNat % 4 = l.code) : wordLen w = l := by
  rw [wordLen, toNat_field, Nat.pow_zero, Nat.div_one, show 2 ^ 2 = 4 from rfl, h, Len.ofCode_code]

theorem code_wordLen (w : Word) : (wordLen w).code = w.toNat % 4 := by
  have := (w.extractLsb' 0 2).isLt
  rw [wordLen, Len.code_ofCode this, toNat_field, Nat.pow_zero, Nat.div_one]
  rfl

theorem wordMajor_eq (w : Word) : wordMajor w = w.toNat / 4 % 64 := toNat_field ..

/-! ## Encoded words as numbers (R303, R305) -/

section
variable (r : Row) (o : Op)

/-- The first word of an extended form (R305). -/
def extHead : Word := o.mod ++ o.func ++ BitVec.ofBool o.neg ++ o.g ++ BitVec.ofNat 6 r.major ++ BitVec.ofNat 2 o.len.code

/-- The second word of an extended form (R305). -/
def extRegs : Word := BitVec.ofNat 5 o.ty.code ++ o.b ++ o.a ++ o.d

/-- The third word of an extended form (R305). -/
def extLast : Word := o.imm ++ o.aux ++ o.c

theorem encodeExt_eq : encodeExt r o = [extHead r o, extRegs o, extLast o] := rfl

theorem toNat_encodeBase : (encodeBase r o).toNat =
    ((((((o.func.toNat % 4 * 64 + o.b.toNat % 64) * 64 + o.a.toNat % 64) * 64 + o.d.toNat % 64) * 2 + o.neg.toNat) * 8 + o.g.toNat) * 64
      + r.major % 64) * 4 + o.len.code % 4 := by
  unfold encodeBase
  rw [toNat_join, toNat_join, toNat_join, toNat_join, toNat_join, toNat_join, toNat_join]
  simp

theorem toNat_extHead : (extHead r o).toNat =
    ((((o.mod.toNat * 4096 + o.func.toNat) * 2 + o.neg.toNat) * 8 + o.g.toNat) * 64 + r.major % 64) * 4 + o.len.code % 4 := by
  unfold extHead
  rw [toNat_join, toNat_join, toNat_join, toNat_join, toNat_join]
  simp

theorem toNat_extRegs : (extRegs o).toNat = ((o.ty.code % 32 * 512 + o.b.toNat) * 512 + o.a.toNat) * 512 + o.d.toNat := by
  unfold extRegs
  rw [toNat_join, toNat_join, toNat_join]
  simp

theorem toNat_extLast : (extLast o).toNat = (o.imm.toNat * 8 + o.aux.toNat) * 512 + o.c.toNat := by
  unfold extLast
  rw [toNat_join, toNat_join]
  rfl

end

/-! ## What a well-formed record holds (R303 to R317) -/

section
variable {k : Opc} {o : Op}

theorem Op.func_mem_of_wf (wf : o.wf k = true) : o.func.toNat ∈ k.row.funcs := by
  simp only [Op.wf, Bool.and_eq_true, List.contains_iff_mem] at wf
  tauto

theorem Op.lit_of_wf (wf : o.wf k = true) (plain : o.len.hasLit = false) : o.lit = 0 := by
  simp only [Op.wf, Bool.and_eq_true, plain, Bool.false_or, beq_iff_eq] at wf
  tauto

theorem Op.aux_of_wf (wf : o.wf k = true) (ext : o.len.isExt = true) : o.aux.toNat ≤ k.row.auxMax := by
  simp only [Op.wf, Bool.and_eq_true, ext, if_true, decide_eq_true_eq] at wf
  tauto

theorem Op.lens_of_wf (wf : o.wf k = true) : o.len ∈ k.row.lens := by
  simp only [Op.wf, Bool.and_eq_true, List.contains_iff_mem] at wf
  tauto

theorem Op.extra_of_wf (wf : o.wf k = true) : k.row.extra o = true := by
  simp only [Op.wf, Bool.and_eq_true] at wf
  tauto

/-- What the row implies for a base form (R303). -/
structure Op.IsBase (k : Opc) (o : Op) : Prop where
  func : o.func.toNat ≤ 3
  ty : o.ty = k.row.baseTy o.func.toNat
  mod : o.mod = k.row.mod.base o.func.toNat
  imm : o.imm = k.row.baseImm o.func.toNat
  aux : o.aux = k.baseAux
  d : o.d.toNat < 64
  a : o.a.toNat < 64
  b : o.b.toNat < 64
  c : o.c = 0

theorem Op.isBase_of_wf (wf : o.wf k = true) (base : o.len.isExt = false) : o.IsBase k := by
  simp only [Op.wf, Bool.and_eq_true, base, Bool.false_eq_true, if_false, beq_iff_eq, decide_eq_true_eq] at wf
  constructor <;> tauto

/-! ## Fields of encoded words -/

theorem wordLen_encodeBase (r : Row) (o : Op) : wordLen (encodeBase r o) = o.len := by
  have := o.len.code_lt
  exact wordLen_of_toNat (by rw [toNat_encodeBase]; omega)

theorem wordLen_extHead (r : Row) (o : Op) : wordLen (extHead r o) = o.len := by
  have := o.len.code_lt
  exact wordLen_of_toNat (by rw [toNat_extHead]; omega)

theorem wordMajor_encodeBase {r : Row} (small : r.major < 64) (o : Op) : wordMajor (encodeBase r o) = r.major := by
  rw [wordMajor_eq, toNat_encodeBase]
  omega

theorem wordMajor_extHead {r : Row} (small : r.major < 64) (o : Op) : wordMajor (extHead r o) = r.major := by
  rw [wordMajor_eq, toNat_extHead]
  omega

theorem rawBase_encodeBase (base : o.IsBase k) : rawBase k (encodeBase k.row o) o.lit = o := by
  have value := toNat_encodeBase k.row o
  have len := wordLen_encodeBase k.row o
  generalize encodeBase k.row o = w at value len
  have := base.func
  have := base.d
  have := base.a
  have := base.b
  have := o.neg.toNat_lt
  have := o.g.isLt
  have := o.len.code_lt
  have f : (w.extractLsb' 30 2).toNat = o.func.toNat := (toNat_field ..).trans (by omega)
  have g : w.extractLsb' 8 3 = o.g := field_eq (by omega)
  have neg : w.getLsbD 11 = o.neg := flag_eq (by omega)
  have d : (w.extractLsb' 12 6).setWidth 9 = o.d := wideField_eq (by decide) (by omega)
  have a : (w.extractLsb' 18 6).setWidth 9 = o.a := wideField_eq (by decide) (by omega)
  have b : (w.extractLsb' 24 6).setWidth 9 = o.b := wideField_eq (by decide) (by omega)
  simp only [rawBase, len, f, g, neg, d, a, b, ← base.ty, ← base.mod, ← base.imm, ← base.aux, ← base.c, BitVec.ofNat_toNat,
    BitVec.setWidth_eq]

theorem rawExt_encodeExt (r : Row) (o : Op) : rawExt (extHead r o) (extRegs o) (extLast o) o.lit = some o := by
  have head := toNat_extHead r o
  have regs := toNat_extRegs o
  have last := toNat_extLast o
  have len := wordLen_extHead r o
  generalize extHead r o = w0 at head len
  generalize extRegs o = w1 at regs
  generalize extLast o = w2 at last
  have := o.mod.isLt
  have := o.func.isLt
  have := o.neg.toNat_lt
  have := o.g.isLt
  have := o.len.code_lt
  have := o.ty.code_lt
  have := o.a.isLt
  have := o.b.isLt
  have := o.c.isLt
  have := o.d.isLt
  have := o.imm.isLt
  have := o.aux.isLt
  have ty : (w1.extractLsb' 27 5).toNat = o.ty.code := (toNat_field ..).trans (by omega)
  have g : w0.extractLsb' 8 3 = o.g := field_eq (by omega)
  have neg : w0.getLsbD 11 = o.neg := flag_eq (by omega)
  have func : w0.extractLsb' 12 12 = o.func := field_eq (by omega)
  have mod : w0.extractLsb' 24 8 = o.mod := field_eq (by omega)
  have d : w1.extractLsb' 0 9 = o.d := field_eq (by omega)
  have a : w1.extractLsb' 9 9 = o.a := field_eq (by omega)
  have b : w1.extractLsb' 18 9 = o.b := field_eq (by omega)
  have c : w2.extractLsb' 0 9 = o.c := field_eq (by omega)
  have imm : w2.extractLsb' 12 20 = o.imm := field_eq (by omega)
  have aux : w2.extractLsb' 9 3 = o.aux := field_eq (by omega)
  simp only [rawExt, ty, Ty.ofCode_code, len, g, neg, func, mod, d, a, b, c, imm, aux, Option.map_some]

/-- The words of a well-formed record give the record back, whatever follows them. -/
theorem rawOp_encodeOp (wf : o.wf k = true) (rest : List Word) : rawOp k (encodeOp k.row o ++ rest) = some o := by
  have lit (plain : o.len.hasLit = false) : (0 : DWord) = o.lit := (Op.lit_of_wf wf plain).symm
  cases len : o.len with
  | base =>
    have base := Op.isBase_of_wf wf (by rw [len]; rfl)
    simp only [encodeOp, len, List.cons_append, rawOp, wordLen_encodeBase, lit (by rw [len]; rfl), rawBase_encodeBase base]
  | baseLit =>
    have base := Op.isBase_of_wf wf (by rw [len]; rfl)
    simp only [encodeOp, encodeLit, len, List.cons_append, rawOp, wordLen_encodeBase, litOf_encodeLit, rawBase_encodeBase base]
  | ext =>
    simp only [encodeOp, encodeExt_eq, len, List.cons_append, rawOp, wordLen_extHead, lit (by rw [len]; rfl), rawExt_encodeExt]
  | extLit =>
    simp only [encodeOp, encodeExt_eq, encodeLit, len, List.cons_append, List.nil_append, rawOp, wordLen_extHead, litOf_encodeLit, rawExt_encodeExt]

theorem encodeOp_head {k : Opc} (small : k.row.major < 64) (o : Op) :
    ∃ w ws, encodeOp k.row o = w :: ws ∧ wordMajor w = k.row.major := by
  cases len : o.len with
  | base => exact ⟨_, _, by rw [encodeOp, len], wordMajor_encodeBase small o⟩
  | baseLit => exact ⟨_, _, by rw [encodeOp, len], wordMajor_encodeBase small o⟩
  | ext => exact ⟨_, _, by rw [encodeOp, len, encodeExt_eq], wordMajor_extHead small o⟩
  | extLit => exact ⟨_, _, by rw [encodeOp, len, encodeExt_eq, List.cons_append], wordMajor_extHead small o⟩

end


/-! ## Rows of one major (R303, R305) -/

theorem Opc.mem_ofMajor (k : Opc) : k ∈ Opc.ofMajor k.row.major := by
  cases k <;> decide

theorem Opc.major_lt (k : Opc) : k.row.major < 64 := by
  cases k <;> decide

/-- Two operations of one major share no SUB or FUNC, but for the two forms of `tlb.inv`, which AUX tells apart (R455). -/
theorem Opc.funcs_clash : ∀ n < 64, ∀ k ∈ Opc.ofMajor n, ∀ j ∈ Opc.ofMajor n, ∀ f ∈ k.row.funcs, f ∈ j.row.funcs →
    j = k ∨ (k = .tlbInv ∧ j = .tlbInvAll) ∨ (k = .tlbInvAll ∧ j = .tlbInv) := by
  decide +kernel

section
variable {ws : List Word} {k j : Opc} {o p : Op}

/-- A reading of the words is that of their base word or that of their first three words. -/
theorem rawOp_cases {w : Word} (raw : rawOp k (w :: ws) = some o) :
    ((wordLen w).isExt = false ∧ ∃ lit, o = rawBase k w lit) ∨
      ((wordLen w).isExt = true ∧ ∃ w1 w2 lit, rawExt w w1 w2 lit = some o) := by
  unfold rawOp at raw
  dsimp only at raw
  split at raw
  · rename_i len
    exact .inl ⟨by rw [len]; rfl, _, (Option.some_inj.mp raw).symm⟩
  · rename_i len
    exact .inl ⟨by rw [len]; rfl, _, (Option.some_inj.mp raw).symm⟩
  · rename_i len
    exact .inr ⟨by rw [len]; rfl, _, _, _, raw⟩
  · rename_i len
    exact .inr ⟨by rw [len]; rfl, _, _, _, raw⟩
  · cases raw

theorem func_of_rawOp {w : Word} (raw : rawOp k (w :: ws) = some o) :
    o.func = if (wordLen w).isExt then w.extractLsb' 12 12 else BitVec.ofNat 12 (w.extractLsb' 30 2).toNat := by
  obtain ⟨len, lit, rfl⟩ | ⟨len, w1, w2, lit, ext⟩ := rawOp_cases raw
  · rw [len]
    rfl
  · obtain ⟨t, -, rfl⟩ := Option.map_eq_some_iff.mp ext
    rw [len]
    rfl

theorem len_of_rawOp {w : Word} (raw : rawOp k (w :: ws) = some o) : o.len = wordLen w := by
  obtain ⟨-, lit, rfl⟩ | ⟨-, w1, w2, lit, ext⟩ := rawOp_cases raw
  · rfl
  · obtain ⟨t, -, rfl⟩ := Option.map_eq_some_iff.mp ext
    rfl

/-- Two operations read extended words alike. -/
theorem rawOp_ext {w : Word} (k j : Opc) (ext : (wordLen w).isExt = true) : rawOp k (w :: ws) = rawOp j (w :: ws) := by
  unfold rawOp
  dsimp only
  split
  · rename_i len
    cases len ▸ ext
  · rename_i len
    cases len ▸ ext
  · rfl
  · rfl
  · rfl

theorem Op.isExt_of_tlbInv (wf : o.wf k = true) (tlbInv : k = .tlbInv ∨ k = .tlbInvAll) : o.len.isExt = true := by
  have lens : k.row.lens = [.ext, .extLit] := by
    obtain rfl | rfl := tlbInv
    · rfl
    · rfl
  have mem := Op.lens_of_wf wf
  simp only [lens, List.mem_cons, List.not_mem_nil, or_false] at mem
  obtain len | len := mem
  · rw [len]; rfl
  · rw [len]; rfl

theorem Op.not_tlbInv_and_tlbInvAll (ranged : o.wf .tlbInv = true) (all : o.wf .tlbInvAll = true) : False := by
  have one : o.aux = 1 := by simpa [Opc.row] using Op.extra_of_wf all
  exact absurd (Op.aux_of_wf ranged (Op.isExt_of_tlbInv ranged (.inl rfl))) (by rw [one]; decide)

/-- Words that encode one operation encode no other of its major. -/
theorem Opc.eq_of_wf {w : Word} (mem : j ∈ Opc.ofMajor k.row.major) (one : rawOp k (w :: ws) = some o) (wf : o.wf k = true)
    (other : rawOp j (w :: ws) = some p) (wf' : p.wf j = true) : j = k := by
  have func : p.func = o.func := (func_of_rawOp other).trans (func_of_rawOp one).symm
  have shared : o.func.toNat ∈ j.row.funcs := func ▸ Op.func_mem_of_wf wf'
  have same (tlbInv : k = .tlbInv ∨ k = .tlbInvAll) : p = o := by
    have ext := len_of_rawOp one ▸ Op.isExt_of_tlbInv wf tlbInv
    exact Option.some_inj.mp (other.symm.trans ((rawOp_ext j k ext).trans one))
  obtain eq | ⟨rfl, rfl⟩ | ⟨rfl, rfl⟩ := Opc.funcs_clash _ k.major_lt k k.mem_ofMajor j mem _ (Op.func_mem_of_wf wf) shared
  · exact eq
  · exact (Op.not_tlbInv_and_tlbInvAll wf (same (.inl rfl) ▸ wf')).elim
  · exact (Op.not_tlbInv_and_tlbInvAll (same (.inr rfl) ▸ wf') wf).elim

/-! ## Reading an operation -/

theorem decodeOp_eq_some {i : Instr} : decodeOp ws k = some i ↔
    ∃ w rest o, ws = w :: rest ∧ wordMajor w = k.row.major ∧ rawOp k ws = some o ∧ o.wf k = true ∧ i = Instr.ofOpc k o := by
  cases ws with
  | nil => simp [decodeOp]
  | cons w rest =>
    unfold decodeOp
    constructor
    · intro h
      dsimp only at h
      split_ifs at h with major
      split at h
      · split_ifs at h with wf
        rename_i o raw
        exact ⟨w, rest, o, rfl, major, raw, wf, (Option.some_inj.mp h).symm⟩
      · cases h
    · rintro ⟨_, _, o, ⟨⟩, major, raw, wf, rfl⟩
      simp only [major, raw, wf, if_true]

theorem decodeOps_eq_some {i : Instr} {ks : List Opc} (h : decodeOps ws ks = some i) :
    ∃ k ∈ ks, k ≠ .brk ∧ decodeOp ws k = some i := by
  induction ks with
  | nil => cases h
  | cons k ks ih =>
    unfold decodeOps at h
    split_ifs at h with brk
    · obtain ⟨j, mem, rest⟩ := ih h
      exact ⟨j, List.mem_cons_of_mem _ mem, rest⟩
    · obtain own | ⟨-, later⟩ := Option.or_eq_some_iff.mp h
      · exact ⟨k, List.mem_cons_self, brk, own⟩
      · obtain ⟨j, mem, rest⟩ := ih later
        exact ⟨j, List.mem_cons_of_mem _ mem, rest⟩

/-- Where some operation of the list reads the words, the reading is one of the list's. -/
theorem decodeOps_isSome {i : Instr} {ks : List Opc} (mem : k ∈ ks) (code : k ≠ .brk) (reads : decodeOp ws k = some i) :
    ∃ i, decodeOps ws ks = some i := by
  induction ks with
  | nil => cases mem
  | cons j ks ih =>
    unfold decodeOps
    obtain rfl | later := List.mem_cons.mp mem
    · exact ⟨i, by simp [code, reads]⟩
    · obtain ⟨m, found⟩ := ih later
      split_ifs
      · exact ⟨m, found⟩
      · cases own : decodeOp ws j with
        | none => exact ⟨m, found⟩
        | some n => exact ⟨n, rfl⟩

/-- The operation that reads the words is the one that the list gives. -/
theorem decodeOps_of_decodeOp {w : Word} {rest : List Word} (code : k ≠ .brk) (major : wordMajor w = k.row.major)
    (raw : rawOp k (w :: rest) = some o) (wf : o.wf k = true) :
    decodeOps (w :: rest) (Opc.ofMajor k.row.major) = some (Instr.ofOpc k o) := by
  obtain ⟨i, found⟩ := decodeOps_isSome k.mem_ofMajor code (decodeOp_eq_some.mpr ⟨w, rest, o, rfl, major, raw, wf, rfl⟩)
  obtain ⟨j, mem, -, reads⟩ := decodeOps_eq_some found
  obtain ⟨_, _, p, _, _, raw', wf', rfl⟩ := decodeOp_eq_some.mp reads
  obtain rfl := Opc.eq_of_wf mem raw wf raw' wf'
  rw [found, Option.some_inj.mp (raw'.symm.trans raw)]

end

/-! ## Headers and breakpoints (R309, R363) -/

theorem headerOf_eq_none {w : Word} {k : Opc} (major : wordMajor w = k.row.major) : headerOf w = none := by
  refine if_neg fun low => ?_
  have one : k.row.major = 1 := by
    have := congrArg BitVec.toNat low
    rw [toNat_field] at this
    change w.toNat / 1 % 256 = 4 at this
    rw [← major, wordMajor_eq]
    omega
  have mem := k.mem_ofMajor
  rw [one] at mem
  cases mem

theorem brkOf_eq_some {w : Word} {i : Instr} (h : brkOf w = some i) : ∃ l, i = .brk (brkOp l) := by
  unfold brkOf at h
  split_ifs at h
  all_goals exact ⟨_, (Option.some_inj.mp h).symm⟩

/-- The words of `brk` have its major and its SUB or FUNC. -/
theorem fields_of_brkOf {w : Word} {i : Instr} (h : brkOf w = some i) : wordMajor w = Opc.brk.row.major ∧
    (if (wordLen w).isExt then w.extractLsb' 12 12 else BitVec.ofNat 12 (w.extractLsb' 30 2).toNat) = 3 := by
  unfold brkOf at h
  split_ifs at h
  all_goals
    subst w
    exact ⟨by decide, by decide⟩

theorem brkOf_eq_none {w : Word} {k : Opc} {ws : List Word} {o : Op} (code : k ≠ .brk) (major : wordMajor w = k.row.major)
    (raw : rawOp k (w :: ws) = some o) (wf : o.wf k = true) : brkOf w = none := by
  cases found : brkOf w with
  | none => rfl
  | some i =>
    obtain ⟨brkMajor, func⟩ := fields_of_brkOf found
    have mem : Opc.brk ∈ Opc.ofMajor k.row.major := by
      rw [← major, brkMajor]
      exact Opc.mem_ofMajor .brk
    have shared : o.func.toNat ∈ Opc.brk.row.funcs := by
      rw [func_of_rawOp raw, func]
      decide
    obtain same | ⟨-, other⟩ | ⟨-, other⟩ :=
      Opc.funcs_clash _ k.major_lt k k.mem_ofMajor .brk mem _ (Op.func_mem_of_wf wf) shared
    · exact absurd same.symm code
    · cases other
    · cases other

/-- A `brk` holds nothing but its length class (R363). -/
theorem Op.eq_brkOp {o : Op} (wf : o.wf .brk = true) : o = brkOp o.len := by
  obtain ⟨len, g, neg, func, ty, mod, d, a, b, c, imm, aux, lit⟩ := o
  simp only [Op.wf, Opc.row, Use.ok, ModKind.ok, ModKind.base, Opc.baseAux, Bool.and_eq_true, Bool.not_eq_true', Bool.and_eq_false_iff,
    beq_iff_eq, beq_eq_false_iff_ne, List.contains_iff_mem, List.mem_singleton] at wf
  obtain ⟨⟨⟨⟨⟨⟨⟨⟨⟨⟨⟨guard, -⟩, three⟩, -⟩, -⟩, rfl⟩, rfl⟩, rfl⟩, rfl⟩, rfl⟩, rfl, rfl⟩, rest⟩ := wf
  have func : func = 3 := BitVec.eq_of_toNat_eq three
  have neg : neg = false := guard.resolve_left (not_not_intro rfl)
  subst func neg
  have fields : ty = .none ∧ imm = 0 ∧ aux = 0 := by
    split_ifs at rest with ext
    · have whole : imm &&& ~~~0 = imm := BitVec.and_allOnes
      rw [whole] at rest
      simpa [← BitVec.toNat_inj (x := aux), and_assoc] using rest
    · simp only [Bool.and_eq_true, beq_iff_eq] at rest
      tauto
  obtain ⟨rfl, rfl, rfl⟩ := fields
  rfl

theorem decode_brk (l : Len) (rest : List Word) : decode (encodeOp Opc.brk.row (brkOp l) ++ rest) = .ok (.brk (brkOp l)) := by
  cases l
  all_goals rfl

theorem decode_encodeOp {k : Opc} {o : Op} (wf : o.wf k = true) (rest : List Word) :
    decode (encodeOp k.row o ++ rest) = .ok (Instr.ofOpc k o) := by
  by_cases code : k = .brk
  · subst code
    rw [Op.eq_brkOp wf]
    exact decode_brk o.len rest
  · obtain ⟨w, ws, eq, major⟩ := encodeOp_head k.major_lt o
    have raw := rawOp_encodeOp wf rest
    rw [eq, List.cons_append] at raw ⊢
    simp only [decode, headerOf_eq_none major, brkOf_eq_none code major raw wf, major, decodeOps_of_decodeOp code major raw wf]


/-! ## Encoding what was read (R303, R305) -/

section
variable {k : Opc} {o : Op} {w : Word}

theorem encodeBase_rawBase (major : wordMajor w = k.row.major) (lit : DWord) : encodeBase k.row (rawBase k w lit) = w := by
  refine BitVec.eq_of_toNat_eq ?_
  rw [wordMajor_eq] at major
  rw [toNat_encodeBase]
  simp only [rawBase, code_wordLen, toNat_flag, toNat_field, BitVec.toNat_setWidth, BitVec.toNat_ofNat, ← major]
  have := w.isLt
  omega

theorem encodeExt_rawExt {w1 w2 : Word} {lit : DWord} (major : wordMajor w = k.row.major) (raw : rawExt w w1 w2 lit = some o) :
    encodeExt k.row o = [w, w1, w2] := by
  obtain ⟨t, type, rfl⟩ := Option.map_eq_some_iff.mp raw
  rw [wordMajor_eq] at major
  have := w.isLt
  have := w1.isLt
  have := w2.isLt
  have code := Ty.code_ofCode type
  rw [encodeExt_eq]
  congr 1
  · refine BitVec.eq_of_toNat_eq ?_
    rw [toNat_extHead]
    simp only [code_wordLen, toNat_flag, toNat_field, ← major]
    omega
  · congr 1
    · refine BitVec.eq_of_toNat_eq ?_
      rw [toNat_extRegs]
      simp only [code, toNat_field]
      omega
    · congr 1
      refine BitVec.eq_of_toNat_eq ?_
      rw [toNat_extLast]
      simp only [toNat_field]
      omega

theorem lit_of_rawExt {w1 w2 : Word} {lit : DWord} (raw : rawExt w w1 w2 lit = some o) : o.lit = lit := by
  obtain ⟨t, -, rfl⟩ := Option.map_eq_some_iff.mp raw
  rfl

/-- The words that a record was read from are its encoding. -/
theorem encodeOp_rawOp {ws : List Word} (major : wordMajor w = k.row.major) (raw : rawOp k (w :: ws) = some o) :
    (w :: ws).take (encodeOp k.row o).length = encodeOp k.row o := by
  have len := len_of_rawOp raw
  unfold rawOp at raw
  dsimp only at raw
  split at raw
  · rename_i base
    cases raw
    simp only [encodeOp, len, base, encodeBase_rawBase major]
    rfl
  · rename_i lo hi _ base
    cases raw
    have lit : encodeLit (rawBase k w (litOf lo hi)) = [lo, hi] := encodeLit_litOf rfl
    simp only [encodeOp, len, base, encodeBase_rawBase major, lit]
    rfl
  · rename_i ext
    simp only [encodeOp, len, ext, encodeExt_rawExt major raw]
    rfl
  · rename_i ext
    have lit := encodeLit_litOf (lit_of_rawExt raw)
    simp only [encodeOp, len, ext, encodeExt_rawExt major raw, lit]
    rfl
  · cases raw

end

/-! ## Instructions -/

theorem Instr.opc?_ofOpc (k : Opc) (o : Op) : (Instr.ofOpc k o).opc? = some (k, o) := by
  cases k <;> rfl

theorem encode_ofOpc (k : Opc) (o : Op) : encode (Instr.ofOpc k o) = encodeOp k.row o := by
  simp only [encode, Instr.opc?_ofOpc]

theorem wf_ofOpc (k : Opc) (o : Op) : (Instr.ofOpc k o).wf = o.wf k := by
  rw [Instr.wf, Instr.opc?_ofOpc]

/-- The word of a clause header (R309). -/
def headerWord (count set2 set1 : BitVec 4) (wait : BitVec 12) : Word := count ++ set2 ++ set1 ++ wait ++ (0x04 : BitVec 8)

theorem toNat_headerWord (count set2 set1 : BitVec 4) (wait : BitVec 12) : (headerWord count set2 set1 wait).toNat =
    (((count.toNat * 16 + set2.toNat) * 16 + set1.toNat) * 4096 + wait.toNat) * 256 + 4 := by
  unfold headerWord
  rw [toNat_join, toNat_join, toNat_join, toNat_join]
  rfl

theorem encode_clauseHeader (count set2 set1 : BitVec 4) (wait : BitVec 12) :
    encode (.clauseHeader count set2 set1 wait) = [headerWord count set2 set1 wait] := rfl

theorem headerOf_headerWord (count set2 set1 : BitVec 4) (wait : BitVec 12) :
    headerOf (headerWord count set2 set1 wait) = some (.clauseHeader count set2 set1 wait) := by
  have value := toNat_headerWord count set2 set1 wait
  generalize headerWord count set2 set1 wait = w at value
  have := count.isLt
  have := set2.isLt
  have := set1.isLt
  have := wait.isLt
  have low : w.extractLsb' 0 8 = 0x04 := field_eq (by change _ = 4; omega)
  have c : w.extractLsb' 28 4 = count := field_eq (by omega)
  have t2 : w.extractLsb' 24 4 = set2 := field_eq (by omega)
  have t1 : w.extractLsb' 20 4 = set1 := field_eq (by omega)
  have f : w.extractLsb' 8 12 = wait := field_eq (by omega)
  rw [headerOf, if_pos low, c, t2, t1, f]

theorem encode_of_headerOf {w : Word} {i : Instr} (header : headerOf w = some i) : i.wf = true ∧ encode i = [w] := by
  unfold headerOf at header
  split_ifs at header with low
  cases header
  refine ⟨rfl, ?_⟩
  rw [encode_clauseHeader]
  congr 1
  refine BitVec.eq_of_toNat_eq ?_
  have low := congrArg BitVec.toNat low
  rw [toNat_field] at low
  change _ = 4 at low
  rw [toNat_headerWord]
  simp only [toNat_field]
  have := w.isLt
  omega

/-- An instruction with words is a clause header or one of an operation. -/
theorem Instr.coded {i : Instr} (words : encode i ≠ []) :
    (∃ count set2 set1 wait, i = .clauseHeader count set2 set1 wait) ∨ ∃ k o, i = Instr.ofOpc k o := by
  cases coded : i.opc? with
  | some ko => exact .inr ⟨ko.1, ko.2, (Machine.Instr.ofOpc_of_opc? coded).symm⟩
  | none =>
    unfold encode at words
    simp only [coded] at words
    split at words
    · exact .inl ⟨_, _, _, _, rfl⟩
    · exact absurd rfl words

theorem decode_eq_ok {ws : List Word} {i : Instr} (reads : decode ws = .ok i) : ∃ w rest, ws = w :: rest ∧
    (headerOf w = some i ∨ brkOf w = some i ∨ decodeOps ws (Opc.ofMajor (wordMajor w)) = some i) := by
  cases ws with
  | nil => cases reads
  | cons w rest =>
    refine ⟨w, rest, rfl, ?_⟩
    unfold decode at reads
    dsimp only at reads
    split at reads
    · cases reads
      exact .inl ‹_›
    · split at reads
      · cases reads
        exact .inr (.inl ‹_›)
      · split at reads
        · cases reads
          exact .inr (.inr ‹_›)
        · split_ifs at reads

/-! ## The obligations -/

/-- Settles O1: the words of a record give it back to its own operation, and to no other of the major. -/
theorem decodeAfterEncode : Obligations.DecodeAfterEncode := by
  intro i rest words wf
  rw [decodeBytes, encodeBytes, wordsOfBytes_flatMap]
  obtain ⟨count, set2, set1, wait, rfl⟩ | ⟨k, o, rfl⟩ := Instr.coded words
  · simp only [encode_clauseHeader, List.cons_append, decode, headerOf_headerWord]
  · rw [encode_ofOpc]
    exact decode_encodeOp (wf_ofOpc k o ▸ wf) _

/-- Settles O2, by the three ways in which the decoder finds an instruction. -/
theorem encodeAfterDecode : Obligations.EncodeAfterDecode := by
  intro ws i reads
  obtain ⟨w, rest, rfl, header | brk | operation⟩ := decode_eq_ok reads
  · obtain ⟨wf, words⟩ := encode_of_headerOf header
    exact ⟨wf, fun _ => by rw [words]; rfl⟩
  · obtain ⟨l, rfl⟩ := brkOf_eq_some brk
    refine ⟨?_, fun other => absurd rfl (other _)⟩
    cases l <;> decide
  · obtain ⟨k, -, -, own⟩ := decodeOps_eq_some operation
    obtain ⟨_, _, o, ⟨⟩, major, raw, wf, rfl⟩ := decodeOp_eq_some.mp own
    refine ⟨(wf_ofOpc k o).trans wf, fun _ => ?_⟩
    rw [encode_ofOpc]
    exact encodeOp_rawOp major raw

/-- Settles O3: the decoder evaluates each of the words. -/
theorem workedWordsDecode : Obligations.WorkedWordsDecode :=
  ⟨⟨_, rfl, by decide⟩, ⟨_, rfl, by decide⟩, ⟨_, rfl, by decide⟩, ⟨_, rfl, by decide⟩, ⟨_, rfl, by decide⟩, rfl, rfl, rfl⟩

end Sys2Proof

/-! Proofs about the integer instructions (R337 to R348), which settle O11 to O15. -/

namespace Sys2Proof.Machine

/-! ## Instructions that compute lane by lane, whatever form their result is written in -/

/-- `Computes` for a result that is another form of the one the instruction names. -/
theorem computes_of_compute_eq {k : Opc} {i : Op → Instr} {f f' : Op → Thread → Thread} (runs : ∀ o s, exec (i o) s = s.compute k o (f o))
    (same : ∀ o t, f o t = f' o t) : Computes k i f' :=
  computes_of_compute fun o s => by rw [runs, funext (same o)]

/-! ## Division (R338, R339) -/

section
variable {o : Op} {s : State} {c : Cur} {g : Group}

theorem faultsOf_divCheck (xs : List Thread) :
    faultsOf xs (divCheck o) = allTake (xs.filter fun t => opB o t = 0) .divZero := by
  rw [allTake, ← faultsOf_eq]
  simp only [decide_eq_true_eq]
  rfl

theorem faultsOf_divCheck_nil {xs : List Thread} (nonzero : ∀ t ∈ xs, opB o t ≠ 0) : faultsOf xs (divCheck o) = [] :=
  faultsOf_nil fun t mem => if_neg (nonzero t mem)

theorem div_completes (ready : s.Ready .div o c g) (nonzero : ∀ t ∈ s.executing g o, opB o t ≠ 0) :
    exec (.div o) s = .next (s.wentOn (s.onThreads (s.uids g o) fun t =>
      t.dst o.ty o.d (tyWrite o.ty false ((opA o t).tdiv (opB o t)))) .div o c g) :=
  State.lanes_ready ready (faultsOf_divCheck_nil nonzero)

theorem rem_completes (ready : s.Ready .rem o c g) (nonzero : ∀ t ∈ s.executing g o, opB o t ≠ 0) :
    exec (.rem o) s = .next (s.wentOn (s.onThreads (s.uids g o) fun t =>
      t.dst o.ty o.d (tyWrite o.ty false (opA o t - opB o t * (opA o t).tdiv (opB o t)))) .rem o c g) := by
  simp only [← Int.tmod_def]
  exact State.lanes_ready ready (faultsOf_divCheck_nil nonzero)

/-- A zero divisor among the executing threads stops the group. -/
theorem lanes_divZero {k : Opc} {wr : Thread → Thread} (ready : s.Ready k o c g) {t : Thread} (mem : t ∈ s.executing g o)
    (zero : opB o t = 0) : s.lanes k o (divCheck o) wr =
      .next (s.stopped g (allTake ((s.executing g o).filter fun t => opB o t = 0) .divZero)) := by
  rw [State.lanes_stop ready, faultsOf_divCheck]
  rw [faultsOf_divCheck, allTake, ne_eq, List.map_eq_nil_iff, List.filter_eq_nil_iff]
  exact fun none => none t mem (by simpa using zero)

end

end Sys2Proof.Machine

namespace Sys2Proof

open Machine

/-! ## Types of well-formed records (R303, R307) -/

section
variable {k : Opc} {o : Op}

/-- The type of a base form is the one that its row implies, and an extended form's is one that its row lists. -/
theorem Op.ty_of_wf (wf : o.wf k = true) :
    o.ty = k.row.baseTy o.func.toNat ∨ (o.len.isExt = true ∧ o.ty ∈ k.row.tys o.func.toNat) := by
  cases ext : o.len.isExt with
  | false => exact .inl (Op.isBase_of_wf wf ext).ty
  | true =>
    simp only [Op.wf, Bool.and_eq_true, ext, if_true, List.contains_iff_mem] at wf
    tauto

/-- The operations whose base form is `.w32`, and whose extended form is `.w32` or `.w64`. -/
def Opc.IsWord (k : Opc) : Prop := ∀ f, k.row.baseTy f = .w32 ∧ k.row.tys f = [.w32, .w64]

theorem Op.ty_of_isWord (word : k.IsWord) (wf : o.wf k = true) : o.ty = .w32 ∨ (o.len.isExt = true ∧ o.ty = .w64) := by
  obtain ⟨base, tys⟩ := word o.func.toNat
  obtain single | ⟨ext, mem⟩ := Op.ty_of_wf wf
  · exact .inl (single.trans base)
  · rw [tys] at mem
    obtain single | double := List.mem_pair.mp mem
    · exact .inl single
    · exact .inr ⟨ext, double⟩

theorem Op.hasLit_of_wf (lens : k.row.lens = [.base, .ext]) (wf : o.wf k = true) : o.len.hasLit = false := by
  have mem := Op.lens_of_wf wf
  rw [lens] at mem
  obtain len | len := List.mem_pair.mp mem
  · rw [len]; rfl
  · rw [len]; rfl

theorem Op.ty_of_wf_bfe (wf : o.wf .bfe = true) : o.ty = .w32 ∨ (o.len.isExt = true ∧ o.ty ∈ [Ty.i32, .i64, .w64]) := by
  obtain base | ⟨ext, mem⟩ := Op.ty_of_wf wf
  · exact .inl base
  · have mem : o.ty ∈ [Ty.i32, .w32, .i64, .w64] := mem
    simp only [List.mem_cons, List.not_mem_nil, or_false] at mem ⊢
    tauto

theorem Op.ty_of_wf_perm (wf : o.wf .perm = true) : o.ty = .w32 := by
  obtain base | ⟨-, mem⟩ := Op.ty_of_wf wf
  · exact base
  · exact List.mem_singleton.mp mem

end

/-! ## Shift counts (R340) -/

theorem Op.shiftCount_eq (o : Op) (t : Thread) :
    o.shiftCount t = bits (if o.len.hasLit then (o.litFor t).toNat else (t.reg o.b.toNat).toNat) 7 0 := by
  rw [bits_zero, Op.shiftCount, Op.srcB32]
  split
  · rw [BitVec.toNat_setWidth]
    omega
  · rfl

end Sys2Proof

namespace Sys2Proof.Machine

/-! ## Counts and bytes (R342, R343) -/

theorem length_filter_bitList (w a : Nat) : ((bitList w a).filter id).length = (List.range w).countP fun i => bitAt a i := by
  rw [← List.countP_eq_length_filter, bitList, List.countP_map]
  rfl

/-- The bytes of two words, as those of the number that they make. -/
theorem toNat_getD_bytesOfWord (x y : Word) {j : Nat} (lt : j < 8) :
    ((bytesOfWord x ++ bytesOfWord y).getD j 0).toNat = (x.toNat + y.toNat * 2 ^ 32) / 256 ^ j % 256 := by
  have := x.isLt
  have := y.isLt
  interval_cases j
  all_goals
    simp only [bytesOfWord, List.cons_append, List.nil_append, List.getD_cons_zero, List.getD_cons_succ, toNat_field]
    omega

/-- The byte that a nibble of the selector names. -/
def selectedByte (x y : Word) (sel : Nat) : Byte := if bitAt sel 3 then 0 else (bytesOfWord x ++ bytesOfWord y).getD (sel % 8) 0

theorem toNat_selectedByte (x y : Word) (sel : Nat) : (selectedByte x y sel).toNat = permByte (x.toNat + y.toNat * 2 ^ 32) sel := by
  unfold selectedByte permByte
  split
  · rfl
  · exact toNat_getD_bytesOfWord x y (Nat.mod_lt _ (by decide))

theorem permVal_eq (x y : Word) (c : Nat) : permVal x.toNat y.toNat c =
    natOfBytes ((List.range 4).map fun i => selectedByte x y (bits c (4 * i + 3) (4 * i))) := by
  simp [List.range_succ, natOfBytes, toNat_selectedByte, permVal]

end Sys2Proof.Machine

namespace Sys2Proof

open Machine

/-- Settles O11: each computes lane by lane as R338 says. -/
theorem integerArithmetic : Obligations.IntegerArithmetic :=
  ⟨add_computes, computes_of_compute fun _ _ => rfl, computes_of_compute fun _ _ => rfl, computes_of_compute fun _ _ => rfl,
    computes_of_compute fun _ _ => rfl, computes_of_compute fun _ _ => rfl, computes_of_compute fun _ _ => rfl,
    computes_of_compute fun _ _ => rfl, computes_of_compute fun _ _ => rfl, fun _ _ _ _ ready => State.issue_done ready rfl,
    computes_of_compute fun _ _ => rfl⟩

/-- Settles O12, by whether an executing thread's divisor is 0. -/
theorem divideAndRemainder : Obligations.DivideAndRemainder :=
  fun _ _ _ _ => ⟨div_completes, rem_completes, fun _ mem zero =>
    ⟨fun ready => lanes_divZero ready mem zero, fun ready => lanes_divZero ready mem zero⟩⟩

/-- Settles O13: each computes lane by lane as R340 says, and its row gives its codes and types. -/
theorem logicAndShifts : Obligations.LogicAndShifts := by
  refine ⟨computes_of_compute fun _ _ => rfl, computes_of_compute fun _ _ => rfl, computes_of_compute fun _ _ => rfl,
    computes_of_compute fun _ _ => rfl, computes_of_compute fun _ _ => rfl, computes_of_compute fun _ _ => rfl,
    computes_of_compute fun _ _ => rfl, computes_of_compute fun _ _ => rfl, computes_of_compute fun _ _ => rfl,
    Op.shiftCount_eq, rfl, fun k o mem => Op.ty_of_isWord ?_⟩
  simp only [List.mem_cons, List.not_mem_nil, or_false] at mem
  obtain rfl | rfl | rfl | rfl | rfl | rfl | rfl | rfl | rfl := mem
  all_goals exact fun _ => ⟨rfl, rfl⟩

/-- Settles O14: each computes lane by lane as R341 to R343 say, and its row gives its codes, types and operands. -/
theorem bitsAndBytes : Obligations.BitsAndBytes := by
  refine ⟨computes_of_compute fun _ _ => rfl, computes_of_compute fun _ _ => rfl,
    computes_of_compute_eq (fun _ _ => rfl) fun o t => ?popc, computes_of_compute fun _ _ => rfl, computes_of_compute fun _ _ => rfl,
    computes_of_compute fun _ _ => rfl, computes_of_compute_eq (fun _ _ => rfl) fun o t => ?perm, computes_of_compute fun _ _ => rfl,
    rfl, fun k eleven => ?major, fun _ _ _ => rfl, fun _ _ => rfl,
    fun o => ⟨Op.ty_of_wf_bfe, fun k mem => Op.ty_of_isWord ?word, Op.ty_of_wf_perm, ?sel, fun k mem => Op.hasLit_of_wf ?lens⟩⟩
  case popc => exact congrArg (fun n => t.setReg o.d.toNat (BitVec.ofNat 32 n)) (length_filter_bitList ..)
  case perm => rw [permVal_eq]; rfl
  case major => simpa [eleven, Opc.ofMajor] using k.mem_ofMajor
  case sel => exact fun wf => List.mem_singleton.mp (Op.lens_of_wf wf)
  case word =>
    simp only [List.mem_cons, List.not_mem_nil, or_false] at mem
    obtain rfl | rfl | rfl | rfl | rfl | rfl := mem
    all_goals exact fun _ => ⟨rfl, rfl⟩
  case lens =>
    simp only [List.mem_cons, List.not_mem_nil, or_false] at mem
    obtain rfl | rfl | rfl | rfl := mem
    all_goals rfl

/-- Settles O15: each computes lane by lane as R344 to R348 and R381 say. -/
theorem comparesAndMoves : Obligations.ComparesAndMoves :=
  ⟨computes_of_compute fun _ _ => rfl, computes_of_compute fun _ _ => rfl, computes_of_compute fun _ _ => rfl,
    computes_of_compute fun _ _ => rfl, fun _ _ _ _ ready => State.issue_done ready rfl, computes_of_compute fun _ _ => rfl,
    computes_of_compute fun _ _ => rfl, computes_of_compute fun _ _ => rfl, computes_of_compute fun _ _ => rfl⟩

end Sys2Proof

/-! Proofs about the cross-lane instructions (R353 to R357), which settle O18. -/

namespace Sys2Proof.Machine

theorem computesTogether_of_crossLane {k : Opc} {i : Op → Instr} {f : Op → List Thread → Thread → Thread}
    (runs : ∀ o s, exec (i o) s = s.crossLane k o (f o)) : ComputesTogether k i f :=
  fun o s _ _ ready isSealed someone => (runs o s).trans (State.crossLane_ready ready isSealed someone (f o))

/-- The cross-lane instructions (R353). -/
def Opc.crossLane : List Opc := [.shfl, .voteAny, .voteAll, .voteBallot, .voteEq, .redux, .scan, .scanEx, .quant, .dequant]

theorem exec_crossLane {k : Opc} (mem : k ∈ Opc.crossLane) (o : Op) (s : State) :
    ∃ wr, exec (Instr.ofOpc k o) s = s.crossLane k o wr := by
  simp only [Opc.crossLane, List.mem_cons, List.not_mem_nil, or_false] at mem
  obtain rfl | rfl | rfl | rfl | rfl | rfl | rfl | rfl | rfl | rfl := mem
  all_goals exact ⟨_, rfl⟩

end Sys2Proof.Machine

namespace Sys2Proof

open Machine

/-- Settles O18: each is a cross-lane instruction with the result of its rule. -/
theorem crossLaneResults : Obligations.CrossLaneResults := by
  refine ⟨computesTogether_of_crossLane fun _ _ => rfl, computesTogether_of_crossLane fun _ _ => rfl,
    computesTogether_of_crossLane fun _ _ => rfl, computesTogether_of_crossLane fun _ _ => rfl,
    computesTogether_of_crossLane fun _ _ => rfl, computesTogether_of_crossLane fun _ _ => rfl,
    computesTogether_of_crossLane fun _ _ => rfl, computesTogether_of_crossLane fun _ _ => rfl,
    computesTogether_of_crossLane fun _ _ => rfl, computesTogether_of_crossLane fun _ _ => rfl, fun k o s c g mem ready => ?_⟩
  obtain ⟨wr, runs⟩ := exec_crossLane mem o s
  rw [runs]
  exact ⟨fun unsealed someone => State.crossLane_unsealed ready unsealed someone wr, fun nobody => State.crossLane_nobody ready nobody wr⟩

end Sys2Proof

/-! Proofs about transfers (R146, R314, R358, R359), which settle O20. -/

namespace Sys2Proof.Machine

section
variable {k : Opc} {o : Op} {s : State} {c : Cur} {g : Group} {target : Group → Thread → DWord} {link : Group → Thread → Thread}

theorem faultsOf_badTarget (dest : Thread → DWord) (xs : List Thread) : faultsOf xs (fun t => badTarget (dest t)) =
    (xs.filter fun t => (dest t).toNat % 4 ≠ 0).map fun t => (t, { cls := .misalign, addr := dest t }) := by
  rw [← faultsOf_eq]
  refine congrArg (faultsOf xs) (funext fun t => ?_)
  unfold badTarget
  split
  · simp [*]
  · simp [*]

theorem branch_goes (ready : s.Ready k o c g) (aligned : ∀ t ∈ s.executing g o, (target g t).toNat % 4 = 0) :
    branch k o s target link = .next (s.wentTo ((s.goTo g fun t =>
      if t.uid ∈ s.uids g o then target g t else g.pc + BitVec.ofNat 64 c.len).onThreads (s.uids g o) (link g)) k o g) := by
  have none : faultsOf (s.executing g o) (fun t => badTarget (target g t)) = [] := faultsOf_nil fun t mem => if_pos (aligned t mem)
  refine State.issue_moved ready ?_
  simp only [none, State.nextPc_issuing ready.1, State.uids, List.contains_iff_mem]
  rfl

theorem branch_stops (ready : s.Ready k o c g) (misaligned : ∃ t ∈ s.executing g o, (target g t).toNat % 4 ≠ 0) :
    branch k o s target link = .next (s.stopped g (((s.executing g o).filter fun t => (target g t).toNat % 4 ≠ 0).map fun t =>
      (t, { cls := .misalign, addr := target g t }))) := by
  refine State.issue_stop ready ?_
  have faults := faultsOf_badTarget (target g) (s.executing g o)
  split
  · rw [← faults]
    exact congrArg _ (Eq.symm ‹_›)
  · obtain ⟨t, mem, off⟩ := misaligned
    rw [‹faultsOf _ _ = []›, eq_comm, List.map_eq_nil_iff, List.filter_eq_nil_iff] at faults
    exact absurd off (by simpa using faults t mem)

end

/-- An instruction that is a `branch` goes to its targets, or stops where one of them is misaligned. -/
theorem transfer_goes {k : Opc} {i : Op → Instr} {target : Op → Group → Thread → DWord} {link : Op → State → Group → Thread → Thread}
    (runs : ∀ o s, exec (i o) s = branch k o s (target o) (link o s)) (o : Op) (s : State) (c : Cur) (g : Group) (ready : s.Ready k o c g) :
    ((∀ t ∈ s.executing g o, (target o g t).toNat % 4 = 0) → exec (i o) s = .next (s.wentTo ((s.goTo g fun t =>
      if t.uid ∈ s.uids g o then target o g t else g.pc + BitVec.ofNat 64 c.len).onThreads (s.uids g o) (link o s g)) k o g)) ∧
    ((∃ t ∈ s.executing g o, (target o g t).toNat % 4 ≠ 0) → exec (i o) s =
      .next (s.stopped g (((s.executing g o).filter fun t => (target o g t).toNat % 4 ≠ 0).map fun t =>
        (t, { cls := .misalign, addr := target o g t })))) := by
  rw [runs]
  exact ⟨branch_goes ready, branch_stops ready⟩

end Sys2Proof.Machine

namespace Sys2Proof

open Machine

/-- Settles O20: each transfer is a `branch`. -/
theorem transfersGoToTargets : Obligations.TransfersGoToTargets :=
  ⟨transfer_goes fun _ _ => rfl, transfer_goes fun _ _ => rfl, transfer_goes fun _ _ => rfl, transfer_goes fun _ _ => rfl⟩

end Sys2Proof

/-! Proofs about `yield`, `nop`, `brk`, `trap` and `assert` (R361 to R363), which settle O23. -/

namespace Sys2Proof.Machine

section
variable {o : Op} {s : State} {c : Cur} {g : Group}

/-! ## `yield` (R361) -/

theorem yield_nobody (ready : s.Ready .yield o c g) (nobody : s.uids g o = []) : exec (.yield o) s = .next (s.wentOn s .yield o c g) :=
  State.issue_done ready (if_pos (List.isEmpty_iff.mpr nobody))

theorem yield_whole (ready : s.Ready .yield o c g) (someone : s.uids g o ≠ []) (whole : ∀ u ∈ g.members, u ∈ s.uids g o) :
    exec (.yield o) s = .next (s.wentTo (s.onGroup g.gid fun h =>
      { h.atHeader (g.pc + BitVec.ofNat 64 c.len) with formed := s.clock }) .yield o g) := by
  have none : g.members.filter (fun u => !(s.uids g o).contains u) = [] := List.filter_eq_nil_iff.mpr (by simpa using whole)
  refine State.issue_moved ready ?_
  rw [← State.nextPc_issuing ready.1]
  exact (if_neg (by rwa [List.isEmpty_iff])).trans (if_pos (List.isEmpty_iff.mpr none))

theorem yield_splits (ready : s.Ready .yield o c g) (someone : s.uids g o ≠ []) (others : ∃ u ∈ g.members, u ∉ s.uids g o) :
    exec (.yield o) s = .next (s.wentTo (s.splitGroup g
      [(s.uids g o, fun h => { h.atHeader (g.pc + BitVec.ofNat 64 c.len) with formed := s.clock }),
       (g.members.filter fun u => !(s.uids g o).contains u,
        fun h => { h.atHeader (g.pc + BitVec.ofNat 64 c.len) with formed := g.formed })]) .yield o g) := by
  have rest : g.members.filter (fun u => !(s.uids g o).contains u) ≠ [] := by
    obtain ⟨u, mem, out⟩ := others
    exact List.ne_nil_of_mem (List.mem_filter.mpr ⟨mem, by simpa using out⟩)
  refine State.issue_moved ready ?_
  rw [← State.nextPc_issuing ready.1]
  exact (if_neg (by rwa [List.isEmpty_iff])).trans (if_neg (by rwa [List.isEmpty_iff]))

/-! ## Breakpoints and assertions (R362, R363) -/

theorem trap_stops (ready : s.Ready .trap o c g) (someone : s.executing g o ≠ []) : exec (.trap o) s =
    .next (s.stopped g ((s.executing g o).map fun t => (t, { cls := .brk, addr := o.imm.setWidth 64 }))) := by
  refine State.issue_stop ready ?_
  split
  · contradiction
  · rename_i found
    rw [found]

theorem trap_nobody (ready : s.Ready .trap o c g) (nobody : s.executing g o = []) :
    exec (.trap o) s = .next (s.wentOn s .trap o c g) :=
  State.issue_done ready (by rw [nobody])

theorem assert_holds (ready : s.Ready .assert o c g) (holds : ∀ t ∈ s.executing g o, t.pred o.a.toNat = true) :
    exec (.assert o) s = .next (s.wentOn (s.onThreads (s.uids g o) id) .assert o c g) :=
  State.lanes_ready ready (faultsOf_nil fun t mem => if_pos (holds t mem))

theorem assert_fails (ready : s.Ready .assert o c g) (fails : ∃ t ∈ s.executing g o, t.pred o.a.toNat = false) :
    exec (.assert o) s = .next (s.stopped g (((s.executing g o).filter fun t => !t.pred o.a.toNat).map fun t =>
      (t, { cls := .assertion, addr := t.pair o.b.toNat }))) := by
  have faults : faultsOf (s.executing g o)
      (fun t => if t.pred o.a.toNat then none else some { cls := .assertion, addr := t.pair o.b.toNat }) =
      ((s.executing g o).filter fun t => !t.pred o.a.toNat).map fun t => (t, { cls := .assertion, addr := t.pair o.b.toNat }) := by
    rw [← faultsOf_eq]
    refine congrArg (faultsOf _) (funext fun t => ?_)
    cases t.pred o.a.toNat
    · rfl
    · rfl
  rw [← faults]
  refine State.lanes_stop ready ?_
  obtain ⟨t, mem, fails⟩ := fails
  rw [faults, ne_eq, List.map_eq_nil_iff, List.filter_eq_nil_iff]
  exact fun none => none t mem (by rw [fails]; rfl)

end

end Sys2Proof.Machine

namespace Sys2Proof

open Machine

/-- Settles O23, by which threads of the group execute and what their predicates hold. -/
theorem yieldNopBreakTrapAssert : Obligations.YieldNopBreakTrapAssert :=
  ⟨fun _ _ _ _ => ⟨fun ready => State.issue_done ready rfl, yield_nobody, yield_whole, yield_splits⟩,
    fun _ _ _ _ => ⟨fun ready => State.issue_stop ready rfl, trap_stops, trap_nobody, assert_holds, assert_fails⟩⟩

end Sys2Proof

/-! Proofs about the records of `lamp` and `trc` (R292, R293, R454), which settle O38 with the other system instructions. -/

namespace Sys2Proof.Machine

section
variable (s : State) (uid ctx : Nat) (flue : Bool) (bs : List Byte)

theorem State.record_now (performed : s.unwritten uid = []) (first : s.late.any (Late.recordsOf uid) = false)
    (reached : s.ringHeld ctx (ringOf flue ctx) = false) : s.record uid ctx flue bs = s.logTo ctx (ringOf flue ctx) bs :=
  if_pos (by rw [performed, first, reached]; rfl)

theorem State.record_late (waits : s.unwritten uid ≠ []) :
    s.record uid ctx flue bs = { s with late := s.late ++ [.record uid ctx flue (s.unwritten uid) bs] } := by
  have some : (s.unwritten uid).isEmpty = false := List.isEmpty_eq_false_iff.mpr waits
  exact if_neg (by rw [some]; exact Bool.false_ne_true)

theorem State.settleRecords_due {reqs : List Nat} (late : s.late = [.record uid ctx flue reqs bs])
    (performed : ∀ p ∈ s.fabric.pending, p.id ∈ reqs → p.applied = true) (walked : ∀ l ∈ s.lodes, l.op ∉ reqs)
    (reached : s.ringHeld ctx (ringOf flue ctx) = false) :
    s.settleRecords = { s.logTo ctx (ringOf flue ctx) bs with late := [] } := by
  have due : s.recordDue [] (.record uid ctx flue reqs bs) = true := by
    simpa [State.recordDue, reached] using ⟨performed, walked⟩
  simp only [State.settleRecords, late, List.any_cons, Bool.true_or, if_true, List.foldl_cons, List.foldl_nil, due]

end

end Sys2Proof.Machine

namespace Sys2Proof

open Machine

/-- Settles O38: each instruction completes with its own effect, and a record is written where nothing keeps it waiting. -/
theorem systemInstructions : Obligations.SystemInstructions := fun _ s _ _ =>
  ⟨fun ready => State.issue_done ready rfl, fun ready => State.issue_done ready rfl, fun ready => State.issue_done ready rfl,
    fun ready => State.issue_done ready rfl, fun ready => State.issue_done ready rfl, fun ready => State.issue_done ready rfl,
    fun ready => State.issue_done ready rfl, s.record_now, s.record_late, fun uid ctx flue _ bs => s.settleRecords_due uid ctx flue bs,
    fun ready => State.issue_done ready rfl, fun ready => State.issue_done ready rfl⟩

end Sys2Proof

/-! Proofs about clause headers, clauses that begin, and ages (R139, R142, R143, R309, R310, R317, R324, R473), which settle O49. -/

namespace Sys2Proof.Machine

section
variable {s : State} {c : Cur} {g : Group}

theorem State.gid_of_group? {gid : Nat} (found : s.group? gid = some g) : g.gid = gid := by
  simpa using List.find?_some found

/-! ## Clause headers (R309, R310, R324) -/

section
variable (issuing : s.Issuing c g) (missed : s.breakHit g = false) (count set2 set1 : BitVec 4) (wait : BitVec 12)
include issuing missed

theorem clauseHeader_parts (parts : s.fetchParts g (headerWord count set2 set1 wait) (count.toNat + 1) ≠ []) :
    exec (.clauseHeader count set2 set1 wait) s = .next (s.splitGroup g
      ((s.fetchParts g (headerWord count set2 set1 wait) (count.toNat + 1)).map fun p => (p, id))) := by
  obtain ⟨cur, group⟩ := issuing
  have several := List.isEmpty_eq_false_iff.mpr parts
  unfold headerWord at several
  simp only [exec, execClauseHeader, cur, group, missed, several, Bool.not_false, if_true, Bool.false_eq_true, if_false, headerWord]

theorem clauseHeader_fails {e : Cls × DWord} (whole : s.fetchParts g (headerWord count set2 set1 wait) (count.toNat + 1) = [])
    (fails : s.fetchClause g (headerWord count set2 set1 wait) (count.toNat + 1) = .error e) :
    exec (.clauseHeader count set2 set1 wait) s =
      .next (s.takeStop g g.pc true ((s.membersOf g).map fun t => (t, { cls := e.1, addr := e.2 }))) := by
  obtain ⟨cur, group⟩ := issuing
  unfold headerWord at whole fails
  simp only [exec, execClauseHeader, cur, group, missed, whole, fails, List.isEmpty_nil, Bool.not_true, Bool.false_eq_true, if_false]

/-- The group at its header, with the clause that was fetched. -/
def State.atClause (s : State) (g : Group) (count set2 set1 : BitVec 4) (wait : BitVec 12) (ws : List Word) : State :=
  (s.noteClause g (headerWord count set2 set1 wait) (count.toNat + 1)).onGroup g.gid fun h => { h with
    clause := some { set1 := set1.toNat, set2 := set2.toNat, left := count.toNat + 1, long := false, words := ws }
    wait := .header wait.toNat }

theorem clauseHeader_begins {ws : List Word} {h : Group} (whole : s.fetchParts g (headerWord count set2 set1 wait) (count.toNat + 1) = [])
    (fetched : s.fetchClause g (headerWord count set2 set1 wait) (count.toNat + 1) = .ok ws)
    (found : (s.atClause g count set2 set1 wait ws).group? c.gid = some h) :
    exec (.clauseHeader count set2 set1 wait) s = .next ((s.atClause g count set2 set1 wait ws).tryBegin h) := by
  obtain ⟨cur, group⟩ := issuing
  rw [← State.gid_of_group? group] at found
  unfold State.atClause headerWord at *
  simp only [exec, execClauseHeader, cur, group, missed, whole, fetched, found, List.isEmpty_nil, Bool.not_true, Bool.false_eq_true,
    if_false]

end

theorem unassignedEncoding_stops (issuing : s.Issuing c g) (missed : s.breakHit g = false) :
    exec .unassignedEncoding s = .next (s.takeStop g g.pc g.clause.isNone (allTake (s.membersOf g) .illegalOp)) := by
  obtain ⟨cur, group⟩ := issuing
  simp only [exec, execUnassignedEncoding, cur, group, missed, Bool.false_eq_true, if_false]

/-! ## Clauses that begin (R310, R473) -/

theorem clauseBegin_judges (found : s.group? g.gid = some g) (runs : s.ctxStopped g.ctx = false) :
    exec (.clauseBegin g.core g.gid) s = .next (s.tryBegin g) := by
  simp only [exec, execClauseBegin, found, runs, and_self, if_true]

section
variable {mask : Nat} {cl : Clause} (waits : g.wait = .header mask) (clause : g.clause = some cl)
include waits clause

theorem tryBegin_deferred (deferred : s.deferredOn g mask ≠ []) : s.tryBegin g =
    (s.onGroup g.gid fun h => { h with clause := none }).takeDeferred g (s.deferredOn g mask) := by
  unfold State.tryBegin
  simp only [waits, clause]
  split
  · rename_i found
    rw [found]
  · contradiction

variable (clean : s.deferredOn g mask = [])
include clean

theorem tryBegin_waits (busy : s.flagsClear g mask = false) : s.tryBegin g = s := by
  simp only [State.tryBegin, waits, clause, clean, busy, Bool.false_eq_true, if_false]

variable (clear : s.flagsClear g mask = true)
include clear

theorem tryBegin_illegal (reserved : (12 ≤ cl.set1 ∧ cl.set1 ≤ 14) ∨ (12 ≤ cl.set2 ∧ cl.set2 ≤ 14)) : s.tryBegin g =
    (s.onGroup g.gid fun h => { h with clause := none }).takeStop g g.pc true (allTake (s.membersOf g) .illegalOp) := by
  simp only [State.tryBegin, waits, clause, clean, clear, if_true, if_pos reserved]

theorem tryBegin_begins (first : cl.set1 < 12 ∨ cl.set1 = 15) (second : cl.set2 < 12 ∨ cl.set2 = 15) : s.tryBegin g =
    State.onGroup (if mask = 0 then s else s.onThreads g.members fun t => t.observe s.nextId) g.gid fun h =>
      { h with pc := h.pc + 4, wait := .none, bpSkip := none, ready := s.clock } := by
  have assigned : ¬((12 ≤ cl.set1 ∧ cl.set1 ≤ 14) ∨ (12 ≤ cl.set2 ∧ cl.set2 ≤ 14)) := by omega
  have clock : (if mask = 0 then s else s.onThreads g.members fun t => t.observe s.nextId).clock = s.clock := by split <;> rfl
  simp only [State.tryBegin, waits, clause, clean, clear, if_true, if_neg assigned, clock]

end
end

end Sys2Proof.Machine

namespace Sys2Proof

open Machine

/-- Settles O49, by the cases of a header, of a clause that may begin, and of what has come of age. -/
theorem clausesAndAges : Obligations.ClausesAndAges := by
  intro s c g
  refine ⟨fun count set2 set1 wait ws issuing missed fetched whole h found =>
      clauseHeader_begins issuing missed count set2 set1 wait whole fetched found,
    fun count set2 set1 wait issuing missed parts => clauseHeader_parts issuing missed count set2 set1 wait parts,
    fun count set2 set1 wait e issuing missed fails whole => clauseHeader_fails issuing missed count set2 set1 wait whole fails,
    fun mask cl found waits clause runs clean first second => ?begins, fun mask cl found waits clause runs => ?stops,
    unassignedEncoding_stops, fun found => ?ages, fun n b found => ?bin, fun n f found => ?overflow⟩
  case begins =>
    rw [clauseBegin_judges found runs]
    exact ⟨fun clear => congrArg _ (tryBegin_begins waits clause clean clear first second),
      fun busy => congrArg _ (tryBegin_waits waits clause clean busy)⟩
  case stops =>
    rw [clauseBegin_judges found runs]
    exact ⟨fun deferred => congrArg _ (tryBegin_deferred waits clause deferred),
      fun clean clear reserved => congrArg _ (tryBegin_illegal waits clause clean clear reserved)⟩
  case ages => simp only [exec, execPriorityAge, found]
  case bin => simp only [exec, execBinAgeRelease, found]
  case overflow => simp only [exec, execOverflowRelease, found]

end Sys2Proof

/-! Proofs about the issue of global accesses (R32, R217, R223, R233, R368, R376), which settle O26 and O28. -/

namespace Sys2Proof.Machine

/-- What a lane of a global access reaches once its checks pass: those of R368 and R217 and, for a load, that its core's L1 does not
hold the bytes poisoned (R32). -/
def State.accessCheck (s : State) (o : Op) (need : Need) (g : Group) (t : Thread) : Except Cls Reached :=
  match s.globalCheck g.ctx (o.gaddr t) o.size need with
  | .error e => .error e
  | .ok r => if need == .load && s.l1Bad g.core o t r then .error .eccFatal else .ok r

section
variable {s : State} {o : Op} {need : Need} {g : Group}

theorem State.accessCheck_eq_bind (t : Thread) : s.accessCheck o need g t = (s.globalCheck g.ctx (o.gaddr t) o.size need).bind fun r =>
    if need == .load && s.l1Bad g.core o t r then .error .eccFatal else .ok r := by
  unfold State.accessCheck
  cases s.globalCheck g.ctx (o.gaddr t) o.size need <;> rfl

theorem State.accessCheck_ok {t : Thread} {r : Reached} (check : s.globalCheck g.ctx (o.gaddr t) o.size need = .ok r)
    (clean : need = .load → s.l1Bad g.core o t r = false) : s.accessCheck o need g t = .ok r := by
  have pass : (need == .load && s.l1Bad g.core o t r) = false := by
    cases need
    case load => exact clean rfl
    all_goals rfl
  simp only [State.accessCheck, check, pass, Bool.false_eq_true, if_false]

variable {k : Opc} {c : Cur} {lane : State → Group → Thread → Reached → State} {r : Thread → Reached}
  (ready : s.Ready k o c g)
include ready

theorem State.globalAccess_held (held : s.mustWait o (s.executing g o) = true) :
    s.globalAccess k o need lane = .next { s with stalls := g.gid :: s.stalls } :=
  State.issue_stall ready (if_pos held)

variable (free : s.mustWait o (s.executing g o) = false)
include free

theorem State.globalAccess_stops (faults : accessFaults (s.executing g o) o.gaddr (s.accessCheck o need g) ≠ []) :
    s.globalAccess k o need lane = .next (s.stopped g (accessFaults (s.executing g o) o.gaddr (s.accessCheck o need g))) := by
  refine State.issue_stop ready ?_
  simp only [free, Bool.false_eq_true, if_false, ← State.accessCheck_eq_bind]
  split
  · rename_i found
    rw [found]
  · contradiction

/-- Where every lane passes its checks, the lanes act in position order, and the group awaits the walkers of those at lode regions. -/
theorem State.globalAccess_lanes (passes : ∀ t ∈ s.executing g o, s.accessCheck o need g t = .ok (r t)) :
    s.globalAccess k o need lane = s.issue k o fun _ _ =>
      ((s.executing g o).foldl (fun e t => lane e g t (r t)) s).awaitLode g ((s.executing g o).countP fun t => (r t).isLode) := by
  have none : accessFaults (s.executing g o) o.gaddr (s.accessCheck o need g) = [] :=
    faultsOf_nil fun t mem => by rw [passes t mem]
  rw [State.globalAccess, State.issue_ready ready, State.issue_ready ready]
  simp only [free, Bool.false_eq_true, if_false, ← State.accessCheck_eq_bind, none]
  rw [List.foldl_ext _ _ _ fun e t mem => by rw [passes t mem], List.countP_congr fun t mem => by rw [passes t mem]]

variable (checked : ∀ t ∈ s.executing g o, s.globalCheck g.ctx (o.gaddr t) o.size need = .ok (r t))
  (clean : need = .load → ∀ t ∈ s.executing g o, s.l1Bad g.core o t (r t) = false)
include checked clean

theorem State.globalAccess_issues (lines : ∀ t ∈ s.executing g o, (r t).isLode = false) :
    s.globalAccess k o need lane = .next (s.wentOn ((s.executing g o).foldl (fun e t => lane e g t (r t)) s) k o c g) := by
  rw [State.globalAccess_lanes ready free fun t mem => State.accessCheck_ok (checked t mem) fun load => clean load t mem]
  exact State.issue_done ready (if_pos (List.countP_eq_zero.mpr (by simpa using lines)))

theorem State.globalAccess_walks (lode : ∃ t ∈ s.executing g o, (r t).isLode = true) :
    s.globalAccess k o need lane = .next (s.wentTo
      ((((s.executing g o).foldl (fun e t => lane e g t (r t)) s).uncount g.core
        ((s.executing g o).countP fun t => (r t).isLode)).onGroup g.gid fun h => { h with wait := .lode }) k o g) := by
  rw [State.globalAccess_lanes ready free fun t mem => State.accessCheck_ok (checked t mem) fun load => clean load t mem]
  exact State.issue_moved ready (if_neg (Nat.pos_iff_ne_zero.mp (List.countP_pos_iff.mpr lode)))

end

/-! ## The order of the checks (R368) -/

section
variable {s : State} {ctx n : Nat} {va : DWord} {need : Need}

theorem State.globalCheck_misalign (off : va.toNat % n ≠ 0) : s.globalCheck ctx va n need = .error .misalign := if_pos off

theorem State.globalCheck_untranslated {e : Cls} (aligned : va.toNat % n = 0) (fails : translate s ctx va need = .error e) :
    s.globalCheck ctx va n need = .error e := by
  simp only [State.globalCheck, aligned, ne_eq, not_true_eq_false, if_false, fails]

theorem translate_high (high : 2 ^ 52 ≤ va.toNat) : translate s ctx va need = .error .pageForm := by
  have := va.isLt
  have upper : bits va.toNat 63 52 ≠ 0 := by
    unfold bits
    omega
  exact if_pos (by simpa using upper)

end

end Sys2Proof.Machine

namespace Sys2Proof

open Machine

/-- Settles O26: each is a `globalAccess`. -/
theorem globalAccessesIssue : Obligations.GlobalAccessesIssue :=
  ⟨⟨fun _ _ _ _ => State.globalAccess_held, fun _ _ _ _ => State.globalAccess_held, fun _ _ _ _ => State.globalAccess_held,
    fun _ _ _ _ => State.globalAccess_held, fun _ _ _ _ => State.globalAccess_held, fun _ _ _ _ => State.globalAccess_held,
    fun _ _ _ _ => State.globalAccess_held, fun _ _ _ _ => State.globalAccess_held⟩,
   fun _ _ _ _ _ => State.globalAccess_walks, fun _ _ _ _ _ => State.globalAccess_walks,
   fun _ _ _ _ _ => State.globalAccess_issues, fun _ _ _ _ _ => State.globalAccess_issues, fun _ _ _ _ _ => State.globalAccess_issues,
   fun _ _ _ _ _ => State.globalAccess_issues, fun _ _ _ _ _ => State.globalAccess_issues, fun _ _ _ _ _ => State.globalAccess_issues,
   fun _ _ _ _ _ => State.globalAccess_issues,
   fun _ _ _ _ _ => State.globalAccess_issues⟩

/-- Settles O28: each is a `globalAccess`. -/
theorem globalAccessFaults : Obligations.GlobalAccessFaults :=
  ⟨⟨fun _ _ _ _ => State.globalAccess_stops, fun _ _ _ _ => State.globalAccess_stops, fun _ _ _ _ => State.globalAccess_stops,
    fun _ _ _ _ => State.globalAccess_stops, fun _ _ _ _ => State.globalAccess_stops, fun _ _ _ _ => State.globalAccess_stops,
    fun _ _ _ _ => State.globalAccess_stops, fun _ _ _ _ => State.globalAccess_stops⟩,
   fun _ _ _ _ _ => ⟨State.globalCheck_misalign, fun aligned high => State.globalCheck_untranslated aligned (translate_high high),
    fun _ => State.globalCheck_untranslated⟩⟩

end Sys2Proof

/-! Proofs about reservations and the forge's entries (R391 to R400, R404, R411, R416, R417), which settle O42 and O44. -/

namespace Sys2Proof.Machine

section
variable {k : Opc} {o : Op} {s : State} {c : Cur} {g : Group} {t : Thread} {body : Group → Thread → Body} (ready : s.Ready k o c g)
  (first : elected (s.executing g o) = some t) (free : ForgeFree s (s.executing g o) t)
include ready first free

theorem State.forge_stall (waits : body g t = .stall) : s.forge k o body = .next { s with stalls := g.gid :: s.stalls } := by
  have idle : (s.executing g o).any (fun u => u.rdy != 0) = false := by simpa using free.2
  exact State.issue_stall ready (by simp [first, free.1, idle, waits])

theorem State.forge_moved {e : State} (moves : body g t = .moved e) : s.forge k o body = .next (s.wentTo e k o g) := by
  have idle : (s.executing g o).any (fun u => u.rdy != 0) = false := by simpa using free.2
  exact State.issue_moved ready (by simp [first, free.1, idle, moves])

end

/-- A forge instruction elects where its body completes with what the statement says. -/
theorem forge_elects {k : Opc} {i : Op → Instr} {act : Op → Group → State → Thread → State → Prop}
    {body : Op → State → Group → Thread → Body} (runs : ∀ o s, exec (i o) s = s.forge k o (body o s))
    (completes : ∀ o g s t e, act o g s t e → body o s g t = .done e) : Elects k i ForgeFree act :=
  fun o s _ g ready => ⟨fun nobody => (runs o s).trans (State.forge_nobody ready nobody _),
    fun t e first free acts => (runs o s).trans (State.forge_ready ready first free (completes o g s t e acts))⟩

/-- A forge instruction splits its elected thread off where its body holds it back alone. -/
theorem forge_splitsOff {k : Opc} {i : Op → Instr} {full : Op → Group → State → Thread → Prop}
    {body : Op → State → Group → Thread → Body}
    (runs : ∀ o s, exec (i o) s = s.forge k o (body o s))
    (holds : ∀ o g s t, full o g s t → body o s g t = s.heldAlone g t s.curLen) : SplitsOff k i ForgeFree full := by
  intro o s c g t ready first free isFull
  have held := holds o g s t isFull
  rw [State.curLen_issuing ready.1] at held
  rw [runs]
  exact ⟨fun alone => State.forge_stall ready first free (held.trans (if_pos alone)),
    fun others => State.forge_moved ready first free (held.trans (if_neg others))⟩

theorem State.post_full {s : State} {g : Group} {t : Thread} {op : ForgeOp} {counter : Option Nat} {passes : Nat}
    (full : s.entryRoom g.core = false) : s.post g t op counter passes = s.heldAlone g t s.curLen :=
  if_pos (by simp [full])

/-! ## Reservations (R395 to R400) -/

theorem opres_elects : Elects .opres .opres ForgeFree fun o g s t e =>
    s.mayDefine g o.d.toNat = true ∧ ∃ r, geometry o.ty (t.reg o.a.toNat).toNat = some r ∧
      ((s.freeRange (quadOfCore g.core) o.d.toNat r.length = none ∧ e = s.onThread t.uid fun y => y.setPred o.aux.toNat false) ∨
        ∃ b, s.freeRange (quadOfCore g.core) o.d.toNat r.length = some b ∧
          e = (s.defineTile g t o.d.toNat true 0 b r.length (some r)).onThread t.uid fun y => y.setPred o.aux.toNat true) := by
  refine forge_elects (fun _ _ => rfl) ?_
  rintro o g s t e ⟨may, r, limits, outcome⟩
  dsimp only
  rw [if_pos may, limits]
  dsimp only
  obtain ⟨full, rfl⟩ | ⟨b, found, rfl⟩ := outcome
  · rw [full]
  · rw [found]

theorem opresTm_elects : Elects .opresTm .opresTm ForgeFree fun o g s t e =>
    s.mayDefine g o.d.toNat = true ∧ ∃ r p, geometry o.ty (t.reg o.a.toNat).toNat = some r ∧
      s.tileRange g t (t.reg o.b.toNat) r.length = .ok p ∧
      e = s.defineTile g t o.d.toNat false (teamCore p % 4) p.addr r.length (some r) := by
  refine forge_elects (fun _ _ => rfl) ?_
  rintro o g s t e ⟨may, r, p, limits, range, rfl⟩
  dsimp only
  rw [if_pos may, limits]
  dsimp only
  rw [range]

theorem oprel_elects : Elects .oprel .oprel ForgeFree fun o g s t e =>
    ∃ r, (s.tileOf g o.d.toNat).bind (·.res) = some r ∧
      let q := quadOfCore g.core
      let m := s.charge [t.uid] g.flagNow false
      e = (m.setQuad q { m.quad q with
        releases := (m.quad q).releases ++ [.opres t.uid t.team o.d.toNat g.flagNow (s.naming q o.d.toNat)] }).settleQuad q := by
  refine forge_elects (fun _ _ => rfl) ?_
  rintro o g s t e ⟨r, reserved, rfl⟩
  dsimp only
  rw [reserved]
  rfl

/-! ## Entries (R394, R404, R411, R416) -/

theorem mma_elects {k : Opc} {i : Op → Instr} {sparse : Bool} (runs : ∀ o s, exec (i o) s = State.mma k o s sparse) :
    Elects k i ForgeFree fun o g s t e => ∃ x op n, s.paramBlock t (o.laddr t) 32 = .ok x ∧
      mmaOf s g t sparse x = some (op, n) ∧ s.post g t op (counterOf (fieldAt x 0x10 4)) n = .done e := by
  refine forge_elects runs ?_
  rintro o g s t e ⟨x, op, n, block, passes, posts⟩
  rw [block]
  dsimp only
  rw [passes]
  exact posts

theorem mma_splitsOff {k : Opc} {i : Op → Instr} {sparse : Bool} (runs : ∀ o s, exec (i o) s = State.mma k o s sparse) :
    SplitsOff k i ForgeFree fun o g s t => s.entryRoom g.core = false ∧ ∃ x, s.paramBlock t (o.laddr t) 32 = .ok x ∧
      (mmaOf s g t sparse x).isSome = true := by
  refine forge_splitsOff runs ?_
  rintro o g s t ⟨full, x, block, passes⟩
  obtain ⟨op, passes⟩ := Option.isSome_iff_exists.mp passes
  rw [block]
  dsimp only
  rw [passes]
  exact State.post_full full

theorem smx_elects : Elects .smx .smx ForgeFree fun o g s t e => ∃ x op, s.paramBlock t (o.laddr t) 32 = .ok x ∧
    smxOf s g t x = some op ∧ s.post g t op (counterOf (fieldAt x 0x10 4)) 1 = .done e := by
  refine forge_elects (fun _ _ => rfl) ?_
  rintro o g s t e ⟨x, op, block, passes, posts⟩
  rw [block]
  dsimp only
  rw [passes]
  exact posts

theorem smx_splitsOff : SplitsOff .smx .smx ForgeFree fun o g s t =>
    s.entryRoom g.core = false ∧ ∃ x, s.paramBlock t (o.laddr t) 32 = .ok x ∧ (smxOf s g t x).isSome = true := by
  refine forge_splitsOff (fun _ _ => rfl) ?_
  rintro o g s t ⟨full, x, block, passes⟩
  obtain ⟨op, passes⟩ := Option.isSome_iff_exists.mp passes
  rw [block]
  dsimp only
  rw [passes]
  exact State.post_full full

/-- The checks of a flush pass: the record and the tile that it names suit each other (R416). -/
def State.Flushes (s : State) (o : Op) (g : Group) (t : Thread) (r : TRec) : Prop :=
  s.slotRec g.core o.b.toNat = some r ∧ s.heldAcc (quadOfCore g.core) t.team (Op.handle o o.d t) ≠ none ∧ r.es = 4 ∧
    r.ext.getD 0 1 ≤ 128 ∧ r.ext.getD 1 1 ≤ 128 ∧ r.ext.getD 2 1 = 1 ∧ r.ext.getD 3 1 = 1 ∧ windowFault s g.ctx r = none

/-- What a flush does for its elected thread: its body in `flushOf`. -/
def flushBody (add : Bool) (o : Op) (s : State) (g : Group) (t : Thread) : Body :=
  match s.slotRec g.core o.b.toNat with
  | none => .stop [(t, illegalState)]
  | some r =>
    if (s.heldAcc (quadOfCore g.core) t.team (Op.handle o o.d t)).isNone || r.es != 4 || decide (128 < r.ext.getD 0 1) ||
        decide (128 < r.ext.getD 1 1) || r.ext.getD 2 1 != 1 || r.ext.getD 3 1 != 1 then .stop [(t, illegalState)]
    else match windowFault s g.ctx r with
      | some f => .stop [(t, f)]
      | none => s.post g t (.flush (Op.handle o o.d t) r add) none 1

theorem State.flushOf_eq_forge (k : Opc) (o : Op) (s : State) (add : Bool) : s.flushOf k o add = s.forge k o (flushBody add o s) := rfl

theorem flushBody_of_flushes {add : Bool} {o : Op} {s : State} {g : Group} {t : Thread} {r : TRec} (flushes : s.Flushes o g t r) :
    flushBody add o s g t = s.post g t (.flush (Op.handle o o.d t) r add) none 1 := by
  obtain ⟨record, held, size, rows, columns, third, fourth, window⟩ := flushes
  unfold flushBody
  rw [record]
  dsimp only
  rw [window]
  refine if_neg ?_
  simp only [Bool.or_eq_true, decide_eq_true_eq, bne_iff_ne, Option.isNone_iff_eq_none, not_or, not_not, not_lt]
  exact ⟨⟨⟨⟨⟨held, size⟩, rows⟩, columns⟩, third⟩, fourth⟩

theorem flush_elects {k : Opc} {i : Op → Instr} {add : Bool} (runs : ∀ o s, exec (i o) s = State.flushOf k o s add) :
    Elects k i ForgeFree fun o g s t e =>
      ∃ r, s.Flushes o g t r ∧ s.post g t (.flush (Op.handle o o.d t) r add) none 1 = .done e :=
  forge_elects (fun o s => (runs o s).trans (State.flushOf_eq_forge k o s add)) fun _ _ _ _ _ ⟨_, flushes, posts⟩ =>
    (flushBody_of_flushes flushes).trans posts

theorem flush_splitsOff {k : Opc} {i : Op → Instr} {add : Bool} (runs : ∀ o s, exec (i o) s = State.flushOf k o s add) :
    SplitsOff k i ForgeFree fun o g s t => s.entryRoom g.core = false ∧ ∃ r, s.Flushes o g t r :=
  forge_splitsOff (fun o s => (runs o s).trans (State.flushOf_eq_forge k o s add)) fun _ _ _ _ ⟨full, _, flushes⟩ =>
    (flushBody_of_flushes flushes).trans (State.post_full full)

end Sys2Proof.Machine

namespace Sys2Proof

open Machine

/-- Settles O42: each clause is the lemma above about its instruction. -/
theorem reservationInstructions : Obligations.ReservationInstructions := ⟨opres_elects, opresTm_elects, oprel_elects⟩

/-- Settles O44: each clause is the lemma above about its instruction. -/
theorem forgeInstructionsPost : Obligations.ForgeInstructionsPost :=
  ⟨mma_elects fun _ _ => rfl, mma_elects fun _ _ => rfl, smx_elects,
    ⟨flush_elects fun _ _ => rfl, flush_elects fun _ _ => rfl, flush_splitsOff fun _ _ => rfl, flush_splitsOff fun _ _ => rfl⟩,
    ⟨mma_splitsOff fun _ _ => rfl, mma_splitsOff fun _ _ => rfl⟩, smx_splitsOff,
    fun _ _ _ _ ready free idle => State.issue_done ready (if_neg (by simpa [free] using idle))⟩

end Sys2Proof

/-! Proofs about the seam unit's families, hashing, probes and gathers (R393, R421, R423 to R429), which settle O45. -/

namespace Sys2Proof.Machine

/-! ## Elected seam instructions (R392, R420, R421) -/

/-- A seam instruction elects where its body completes with what the statement says. -/
theorem seam_elects {k : Opc} {i : Op → Instr} {act : Op → Group → State → Thread → State → Prop}
    {body : Op → State → Group → Thread → Body} (runs : ∀ o s, exec (i o) s = s.seam k o (body o s))
    (completes : ∀ o g s t e, act o g s t e → body o s g t = .done e) : Elects k i SeamFree act :=
  fun o s _ g ready => ⟨fun nobody => (runs o s).trans (State.seam_nobody ready nobody _),
    fun t e first free acts => (runs o s).trans (State.seam_ready ready first free (completes o g s t e acts))⟩

/-- A seam instruction splits its elected thread off where its body holds it back alone. -/
theorem seam_splitsOff {k : Opc} {i : Op → Instr} {full : Op → Group → State → Thread → Prop}
    {body : Op → State → Group → Thread → Body}
    (runs : ∀ o s, exec (i o) s = s.seam k o (body o s))
    (holds : ∀ o g s t, full o g s t → body o s g t = s.heldAlone g t s.curLen) : SplitsOff k i SeamFree full := by
  intro o s c g t ready first free isFull
  have held := holds o g s t isFull
  rw [State.curLen_issuing ready.1] at held
  rw [runs]
  exact ⟨fun alone => State.seam_stall ready first free (held.trans (if_pos alone)),
    fun others => State.seam_moved ready first free (held.trans (if_neg others))⟩

/-! ## Families and hashing (R423 to R425) -/

theorem seamFam_elects : Elects .seamFam .seamFam SeamFree fun o g s t e =>
    let p := bits (o.srcB32 t).toNat 4 0
    let d := bits (o.srcB32 t).toNat 28 16
    ∃ x r, s.resOf g o.a.toNat = some (x, r) ∧ x.opbuf = true ∧ r.fmt = .f16 ∧ 1 ≤ p ∧ p ≤ 24 ∧ d % 16 = 0 ∧ 1 ≤ d ∧ d ≤ 4096 ∧
      p * d ≤ r.rows * r.rowlen ∧
      e = (s.setCore g.core { s.core g.core with
        fams := Tab.set o.d.toNat ⟨o.a.toNat, x.gen, p, d⟩ (s.core g.core).fams }).onThread t.uid Thread.count := by
  refine seam_elects (fun _ _ => rfl) ?_
  rintro o g s t e ⟨x, r, reserved, buffer, format, planes, fewPlanes, blocks, dims, fewDims, fits, rfl⟩
  have somePlanes := Nat.one_le_iff_ne_zero.mp planes
  have someDims := Nat.one_le_iff_ne_zero.mp dims
  dsimp only
  rw [reserved]
  exact if_neg (by simp [buffer, format, somePlanes, fewPlanes, blocks, someDims, fewDims, fits])

theorem seamHash_elects : Elects .seamHash .seamHash SeamFree fun o g s t e => ∃ x op n,
    s.paramBlock t (t.reg o.a.toNat) 32 = .ok x ∧ s.descsAway g.ctx g.core [BitVec.ofNat 64 (fieldAt x 0 8)] = false ∧
    hashOf s g t x = .ok (op, n) ∧ s.entryRoom g.core = true ∧
    (s.readDescs g [BitVec.ofNat 64 (fieldAt x 0 8)]).post g t op (counterOf (fieldAt x 0x14 4)) n = .done e := by
  refine seam_elects (fun _ _ => rfl) ?_
  rintro o g s t e ⟨x, op, n, block, near, passes, room, posts⟩
  dsimp only
  rw [block]
  refine (if_neg (by simp [near])).trans ?_
  rw [passes, room]
  exact posts

theorem seamHash_splitsOff : SplitsOff .seamHash .seamHash SeamFree fun o g s t => s.entryRoom g.core = false ∧ ∃ x,
    s.paramBlock t (t.reg o.a.toNat) 32 = .ok x ∧ s.descsAway g.ctx g.core [BitVec.ofNat 64 (fieldAt x 0 8)] = false ∧
    (hashOf s g t x).isOk = true := by
  refine seam_splitsOff (fun _ _ => rfl) ?_
  rintro o g s t ⟨full, x, block, near, passes⟩
  dsimp only
  rw [block]
  refine (if_neg (by simp [near])).trans ?_
  match hashed : hashOf s g t x, passes with
  | .ok (op, n), _ =>
    dsimp only
    rw [full]
    exact State.post_full full

/-! ## Probes and gathers (R426 to R429) -/

section
variable {o : Op} {s : State} {c : Cur} {g : Group} {t : Thread} {x : Nat} (first : elected (s.executing g o) = some t)
  (free : SeamFree s (s.executing g o) t)
include first free

section
variable {tabs : List ProbeTab} {multi : Bool} {oidx : Nat} {ctr : Option Nat} (block : s.paramBlock t (t.reg o.a.toNat) 96 = .ok x)
  (near : s.descsAway g.ctx g.core (probeDescs x) = false)
include block near

theorem seamProbe_entersQueue (ready : s.Ready .seamProbe o c g) (passes : probeOf s g t x false = .ok (tabs, multi, oidx, ctr))
    (fills : s.fillsNow (quadOfCore g.core) oidx = true) :
    s.EntersQueue (((s.readDescs g (probeDescs x)).fillWith (quadOfCore g.core) oidx 260).queueSeam g t [t.uid] (.probe tabs multi oidx) ctr)
      (exec (.seamProbe o) s) .seamProbe o c g t := by
  refine State.seam_entersQueue ready first free ?_
  dsimp only
  rw [block]
  refine (if_neg (by simp [near])).trans ?_
  rw [passes]
  exact if_neg (by simp [fills])

theorem seamProbePre_entersQueue (ready : s.Ready .seamProbePre o c g) (passes : probeOf s g t x true = .ok (tabs, multi, oidx, ctr)) :
    s.EntersQueue ((s.readDescs g (probeDescs x)).queueSeam g t [t.uid] (.pre tabs multi) none) (exec (.seamProbePre o) s)
      .seamProbePre o c g t := by
  refine State.seam_entersQueue ready first free ?_
  rw [block]
  refine (if_neg (by simp [near])).trans ?_
  rw [passes]
  rfl

end

theorem seamGather_entersQueue {tile list : Tile} {r : ResRec} {p : PAddr} {table : TableRef} {d : Desc}
    (ready : s.Ready .seamGather o c g) (block : s.paramBlock t (t.reg o.a.toNat) 32 = .ok x) (listIdx : fieldAt x 8 1 < 64)
    (rowsIdx : fieldAt x 9 1 < 64) (flags : bits (fieldAt x 0xC 4) 31 10 = 0) (rest : fieldAt x 0x10 16 = 0)
    (near : s.descsAway g.ctx g.core [BitVec.ofNat 64 (fieldAt x 0 8)] = false) (rows : s.resOf g (fieldAt x 9 1) = some (tile, r))
    (ids : s.tileOf g (fieldAt x 8 1) = some list) (found : descAt s g.ctx (BitVec.ofNat 64 (fieldAt x 0 8)) .load = .ok (p, table, d))
    (dims : d.dim ≤ r.rowlen) (row : fieldAt x 0xA 2 < r.rows) (fills : s.fillsNow (quadOfCore g.core) (fieldAt x 9 1) = true) :
    s.EntersQueue (((s.readDescs g [BitVec.ofNat 64 (fieldAt x 0 8)]).fillWith (quadOfCore g.core) (fieldAt x 9 1)
        (r.bytesFrom (fieldAt x 0xA 2))).queueSeam g t [t.uid]
        (.gather table (fieldAt x 8 1) (fieldAt x 9 1) (fieldAt x 0xA 2) (bitAt (fieldAt x 0xC 4) 9))
        (flag7 (bitAt (fieldAt x 0xC 4) 8) (bits (fieldAt x 0xC 4) 7 0)))
      (exec (.seamGather o) s) .seamGather o c g t := by
  have fields : ¬ (64 ≤ fieldAt x 8 1 ∨ 64 ≤ fieldAt x 9 1 ∨ bits (fieldAt x 0xC 4) 31 10 ≠ 0 ∨ fieldAt x 0x10 16 ≠ 0) := by omega
  refine State.seam_entersQueue ready first free ?_
  dsimp only
  rw [block]
  refine (if_neg fields).trans ((if_neg (by simp [near])).trans ?_)
  rw [rows, ids, found, Option.filter_some_pos (by simpa using row)]
  exact (if_neg dims.not_gt).trans (if_neg (by simp [fills]))

end

end Sys2Proof.Machine

namespace Sys2Proof

open Machine

/-- Settles O45: each clause is the lemma above about its instruction's entry, with room in the queue or without. -/
theorem seamLookups : Obligations.SeamLookups := by
  refine ⟨seamFam_elects, seamHash_elects, ?probe, ?pre, ?gather, seamHash_splitsOff, ?probeFull, ?preFull, ?gatherFull⟩
  case probe =>
    refine fun o s c g ready => ⟨fun nobody => State.seam_nobody ready nobody _, ?_⟩
    rintro t _ first free ⟨x, tabs, multi, oidx, ctr, block, near, passes, fills, room, rfl⟩
    exact (seamProbe_entersQueue first free block near ready passes fills).1 room
  case pre =>
    refine fun o s c g ready => ⟨fun nobody => State.seam_nobody ready nobody _, ?_⟩
    rintro t _ first free ⟨x, tabs, multi, oidx, ctr, block, near, passes, room, rfl⟩
    exact (seamProbePre_entersQueue first free block near ready passes).1 room
  case gather =>
    refine fun o s c g ready => ⟨fun nobody => State.seam_nobody ready nobody _, ?_⟩
    rintro t _ first free
      ⟨x, tile, r, list, d, p, table, block, listIdx, rowsIdx, flags, rest, near, rows, ids, found, dims, row, fills, room, rfl⟩
    exact (seamGather_entersQueue first free ready block listIdx rowsIdx flags rest near rows ids found dims row fills).1 room
  case probeFull =>
    rintro o s c g t ready first free ⟨full, x, tabs, multi, oidx, ctr, block, near, passes, fills⟩
    exact (seamProbe_entersQueue first free block near ready passes fills).2 full
  case preFull =>
    rintro o s c g t ready first free ⟨full, x, block, near, passes⟩
    match probed : probeOf s g t x true, passes with
    | .ok (tabs, multi, oidx, ctr), _ => exact (seamProbePre_entersQueue first free block near ready probed).2 full
  case gatherFull =>
    rintro o s c g t ready first free
      ⟨full, x, tile, r, list, d, p, table, block, listIdx, rowsIdx, flags, rest, near, rows, ids, found, dims, row, fills⟩
    exact (seamGather_entersQueue first free ready block listIdx rowsIdx flags rest near rows ids found dims row fills).2 full

end Sys2Proof

/-! Proofs about the walker's instructions and its acts (R218, R223, R435 to R438), which settle O48. -/

namespace Sys2Proof.Machine

/-! ## The instructions (R435, R436, R438) -/

section
variable {k : Opc} {o : Op} {s : State} {c : Cur} {g : Group}

/-- A group of which every executing thread asks its walker waits for them all (R223). -/
theorem State.issue_asks (ready : s.Ready k o c g) (someone : s.executing g o ≠ []) {body : Group → List Thread → Body}
    {lane : State → Thread → State} (asks : body g (s.executing g o) =
      ((s.executing g o).foldl lane s).awaitLode g (s.executing g o).length) :
    s.issue k o body = .next (s.wentTo ((((s.executing g o).foldl lane s).uncount g.core (s.executing g o).length).onGroup g.gid
      fun h => { h with wait := .lode }) k o g) :=
  State.issue_moved ready (asks.trans (if_neg (by simpa using someone)))

theorem lodeNext_asks {r : Thread → Nat × Region} (ready : s.Ready .lodeNext o c g) (free : heldBack (s.executing g o) = false)
    (someone : s.executing g o ≠ [])
    (checked : ∀ t ∈ s.executing g o, -1 ≤ t.signedPair o.a ∧ regionOf s g.ctx (t.pair o.b.toNat) .load = .ok (r t)) :
    exec (.lodeNext o) s = .next (s.wentTo ((((s.executing g o).foldl (fun (e : State) t =>
      (e.noteTlb g.core g.ctx (t.pair o.b.toNat)).askLode g t (r t).1 (t.pair o.b.toNat)
        (.next (t.signedPair o.a) o.d.toNat o.c.toNat o.aux.toNat)) s).uncount g.core (s.executing g o).length).onGroup g.gid
        fun h => { h with wait := .lode }) .lodeNext o g) := by
  refine State.issue_asks ready someone ((if_neg (by simp [free])).trans ?_)
  dsimp only
  rw [faultsOf_nil fun t mem => by rw [if_neg (checked t mem).1.not_gt, (checked t mem).2]]
  exact congrArg (State.awaitLode · g _) (List.foldl_ext _ _ _ fun e t mem => by rw [(checked t mem).2])

theorem lodeCount_asks {r : Thread → Box × Nat × Region} (ready : s.Ready .lodeCount o c g) (free : heldBack (s.executing g o) = false)
    (someone : s.executing g o ≠ []) (checked : ∀ t ∈ s.executing g o, s.boxOf g.ctx t (t.reg o.a.toNat) = .ok (r t)) :
    exec (.lodeCount o) s = .next (s.wentTo ((((s.executing g o).foldl (fun (e : State) t =>
      (e.noteTlb g.core g.ctx (r t).1.region).askLode g t (r t).2.1 (r t).1.region
        (.count (r t).1.orig (r t).1.ext o.d.toNat ((r t).2.2.linOf (r t).1.orig) 0)) s).uncount g.core
          (s.executing g o).length).onGroup g.gid fun h => { h with wait := .lode }) .lodeCount o g) := by
  refine State.issue_asks ready someone ((if_neg (by simp [free])).trans ?_)
  dsimp only
  rw [faultsOf_nil fun t mem => by rw [checked t mem]]
  exact congrArg (State.awaitLode · g _) (List.foldl_ext _ _ _ fun e t mem => by rw [checked t mem])

section
variable {t : Thread} {d n : Nat} {r : Region} (first : elected (s.executing g o) = some t) (free : heldBack (s.executing g o) = false)
  (checked : poolCheck s g.ctx (t.pair o.a.toNat) = .ok (d, r, n))
include first free checked

theorem lodeGrow_commands (ready : s.Ready .lodeGrow o c g) (limit : n + (o.srcB32 t).toNat ≤ r.poolmax) (grows : (o.srcB32 t).toNat ≠ 0) :
    exec (.lodeGrow o) s = .next (s.wentOn
      ((s.notePool g.ctx d r).walkerCommand g t d r (t.pair o.a.toNat) (.grow (o.srcB32 t).toNat)) .lodeGrow o c g) := by
  refine State.issue_done ready ?_
  rw [first]
  refine (if_neg (by simp [free])).trans ?_
  rw [checked]
  exact (if_neg limit.not_gt).trans (if_neg grows)

theorem lodeGrow_nothing (ready : s.Ready .lodeGrow o c g) (limit : n ≤ r.poolmax) (zero : (o.srcB32 t).toNat = 0) :
    exec (.lodeGrow o) s = .next (s.wentOn (((s.notePool g.ctx d r).charge [t.uid] g.flagNow true).onThread t.uid
      fun y => y.dropFlag g.flagNow) .lodeGrow o c g) := by
  refine State.issue_done ready ?_
  rw [first]
  refine (if_neg (by simp [free])).trans ?_
  rw [checked]
  exact (if_neg (by simp [zero, limit])).trans (if_pos zero)

theorem lodeTrim_commands (ready : s.Ready .lodeTrim o c g) : exec (.lodeTrim o) s = .next (s.wentOn
    ((s.notePool g.ctx d r).walkerCommand g t d r (t.pair o.a.toNat) (.trim (o.srcB32 t).toNat o.d.toNat)) .lodeTrim o c g) := by
  refine State.issue_done ready ?_
  rw [first]
  refine (if_neg (by simp [free])).trans ?_
  rw [checked]

end
end

/-! ## The walker (R218, R223, R237, R281) -/

section
variable {s : State} {q : LodeReq}

theorem State.lodeMay_iff {r : Region} : s.lodeMay q r = true ↔
    (∀ x ∈ s.lodes.takeWhile (fun x => x.op != q.op), q.before x (subOf r) = false) ∧ s.laneHeld q = false ∧
      s.allPass q.ctx (some q.core) ((nodePlaces s q.ctx (lodeVas s q r)).map fun p => (p, 256)) = true ∧ s.tablesWait q.ctx = false ∧
      (q.gid ≠ 0 ∨ (s.ctxStopped q.ctx = false ∧ s.images.any (fun i => i.core == q.core && i.ctx == q.ctx) = false)) := by
  simp only [State.lodeMay, Bool.and_eq_true, Bool.or_eq_true, Bool.not_eq_true', List.any_eq_false, bne_iff_ne, Bool.not_eq_true, and_assoc]

variable (waits : s.lodes.find? (fun x => x.op == q.op && x.refused.isNone && x.halted.isNone) = some q)
include waits

theorem lodeOperation_acts {r : Region} (valid : regionRead s q.region = .ok r) (may : s.lodeMay q r = true) :
    exec (.lodeOperation q.op) s =
      .next (((((s.noteDesc q.region).noteWalk q.core q.ctx (lodeVas s q r)).lodeAct q r).settleLode q.gid).settleFences.settleExits) := by
  change execLodeOperation q.op s = _
  rw [execLodeOperation, waits]
  dsimp only
  rw [valid]
  exact if_neg (by simp [may])

theorem lodeOperation_refuses {e : Cls} (bad : regionRead s q.region = .error e) (lane : q.gid ≠ 0) :
    exec (.lodeOperation q.op) s = .next ((((s.noteDesc q.region).lodeRefuse q (e, q.va)).settleLode q.gid).settleExits) := by
  change execLodeOperation q.op s = _
  rw [execLodeOperation, waits]
  dsimp only
  rw [bad]
  exact if_neg lane

end

section
variable {s : State} {q : LodeReq} {r : Region}

theorem State.lodeAct_load {dreg v : Nat} {ty : Ty} {acquires empties : Bool} (kind : q.kind = .load dreg ty acquires empties)
    (loads : lodeLoad s q.ctx r ((q.va.toNat - r.vbase) / r.es) = .ok v) :
    s.lodeAct q r = (if empties then s.emptyL1 q.core else s).lodeAnswer q fun t =>
      let y := t.dst ty (BitVec.ofNat 9 dreg) (tyWrite ty false (tyVal ty (BitVec.ofNat 64 v)))
      if acquires then y.observe (if empties then s.emptyL1 q.core else s).nextId else y := by
  rw [State.lodeAct, kind]
  dsimp only
  rw [loads]

theorem State.lodeAct_store {v : Word} {ty : Ty} {m : State} (kind : q.kind = .store v ty)
    (stores : lodeStore s q.ctx r ((q.va.toNat - r.vbase) / r.es) (v.toNat % 2 ^ (8 * r.es)) q.va = .ok m) :
    s.lodeAct q r = m.lodeAnswer q id := by
  rw [State.lodeAct, kind]
  dsimp only
  rw [stores]

end

end Sys2Proof.Machine

namespace Sys2Proof

open Machine

/-- Settles O48: each clause is the lemma above about its instruction, or about the walker's act. -/
theorem lodeInstructionsAndWalker : Obligations.LodeInstructionsAndWalker :=
  ⟨⟨fun _ _ _ _ _ ready free someone checked => lodeNext_asks ready free someone checked,
    fun _ _ _ _ _ ready free someone checked => lodeCount_asks ready free someone checked,
    fun _ _ _ _ _ _ _ _ first free checked => ⟨lodeGrow_commands first free checked, lodeGrow_nothing first free checked,
      lodeTrim_commands first free checked⟩⟩,
   fun _ _ waits => ⟨fun _ valid earlier stored reached tables runs =>
      lodeOperation_acts waits valid (State.lodeMay_iff.mpr ⟨earlier, stored, reached, tables, runs⟩),
    fun _ bad lane => lodeOperation_refuses waits bad lane⟩,
   fun _ _ _ => ⟨fun _ _ _ _ _ kind loads => State.lodeAct_load kind loads, fun _ _ _ kind stores => State.lodeAct_store kind stores⟩⟩

end Sys2Proof
